-- ==== Sys2Proof/Word.lean ====
section
/-!
DEFINITION. The word types of the node and the two containers every other file uses: a byte, the register words, and a table
from numbers to values kept sorted and sparse so that equal tables are equal data.
-/

namespace Sys2Proof

/-- One byte of memory, of a structure or of a message (R8). -/
abbrev Byte := BitVec 8

/-- A 32-bit word: a register, an fp32 bit pattern (R187). -/
abbrev W32 := BitVec 32

/-- A 64-bit word: a register, a vector ID (R10), a PARAM field (R46). -/
abbrev W64 := BitVec 64

/-- A table from unit numbers, object numbers, addresses … to values: entries in strictly rising key order.
A key with no entry has the default value that the reader of the table names. -/
abbrev Tab (α : Type) := List (Nat × α)

end Sys2Proof
end

