-- ==== Sys2Proof/Syntax.lean ====
section
/-!
DEFINITION. The commands: one constructor of Instr per row of spec/opcode_table.json, with the row's operands, and the types
of those operands. A command is what the host, a peer, the module's pins or one internal event of the node does; it is one
whole step (spec/95_what_each_step_holds.md).
-/

namespace Sys2Proof

/-- An operand reference (R48). -/
inductive OpRef where
  /-- class 0: an I/O virtual address of the pen's function -/
  | host (iova : Nat)
  /-- class 1: an object of the pen and a byte offset -/
  | obj (num off : Nat)
  /-- class 2: a scratch object of the graph and a byte offset -/
  | scratch (num off : Nat)
  /-- class 3: no operand -/
  | none
deriving DecidableEq, Repr

/-- Which submission entry a host command is: controller (CNTLID, R321), submission queue (0 is the admin queue), CID; and whether a Skex
command's FUSE, PSDT, NSID or a reserved field is not as R333 has it (R349). -/
structure Cmd where
  ctl : Nat
  sq : Nat
  cid : Nat
  bad : Bool := false
deriving DecidableEq, Repr

/-- A task of an accepted graph: the graph's acceptance number and the task index (R46, R53). -/
structure TaskId where
  graph : Nat
  idx : Nat
deriving DecidableEq, Repr

/-- The KEYED control block of R340, less its control code, which the command names: counter, the 6 reserved bytes at 10,
the 32 argument bytes at 16 and the 16 tag bytes at 48. -/
structure KBlock where
  counter : W64
  resv : List Byte
  args : List Byte
  tag : List Byte
deriving DecidableEq, Repr

/-- The kinds of unit that R61 arbitrates for. -/
inductive UnitKind where
  | tile
  | engine
  | nearBank
  | dma
  | flue
  | drover
deriving DecidableEq, Repr

/-- A unit that can fail (R439, R448). -/
inductive HwUnit where
  | tile (t : Nat)
  | array (t a : Nat)
  | quad (q : Nat)
  | stack (s : Nat)
  | nearBank (s u : Nat)
  | engine (c : Nat)
  | target (c t : Nat)
  | dma (n : Nat)
  | fluePort (p : Nat)
  | d2d (m : Nat)
  | domain (d : Nat)
deriving DecidableEq, Repr

/-- A Flue message: the header of R397 and its body. -/
structure FlueMsg where
  dst : Nat
  src : Nat
  dctx : Nat
  sctx : Nat
  mseq : Nat
  type : Nat
  ttl : Nat
  gen : Nat
  corrid : Nat
  body : List Byte
deriving DecidableEq, Repr

/-- A host CXL.mem request after the mapping of R264. -/
inductive CxlReq where
  /-- MemRd, SnpData, MetaValue S -/
  | rdShared
  /-- MemRd, SnpInv, MetaValue A -/
  | rdOwn
  /-- MemRd, NoOp or SnpCur, MetaValue I -/
  | rdCur
  /-- MemWr, with 64 bytes and a byte mask -/
  | wr (data : List Byte) (mask : List Bool)
  /-- MemClnEvct -/
  | clnEvct
  /-- BIRspI -/
  | biRspI
  /-- BIRspS -/
  | biRspS
  /-- BIConflict: a host request met a line whose BISnp is outstanding (R264) -/
  | biConflict
deriving DecidableEq, Repr

/-- What a DMA access failed with, and where (R378, R385, DMA_CH_ERRINFO). -/
structure BusErr where
  addr : W64
  write : Bool
  /-- 0 UR, 1 CA, 2 completion timeout, 3 poisoned completion, 4 link down or BME 0, 5 node range -/
  kind : Nat
  /-- 0 data, 1 descriptor fetch, 2 write-back or record -/
  target : Nat
deriving DecidableEq, Repr

/-- One channel group at training (R284, R417): board present, the profile matches, and per channel whether it trained and
which targets answered. -/
structure GroupTrain where
  present : Bool
  matched : Bool
  /-- for each of the 8 channels, in order: trained, and the targets that passed -/
  channels : List (Bool × List Nat)
deriving DecidableEq, Repr

/-- What a unit reports as a task completes: the tile cycles that it held its unit (R67); the words of its tile's SRAM that it read in
error, by byte offset, with true for a double-bit error, and whether the tile's last double-bit error is within 2^46 hub control cycles
(R437). -/
structure TaskEnd where
  cycles : Nat
  sram : List (Nat × Bool)
  soon : Bool
deriving DecidableEq, Repr

/-- Of a part of a patrol pass of a stack: the lines found with an uncorrectable error, and whether the pass ends (R238). -/
structure ScrubEnd where
  uncorrectable : List Nat
  passDone : Bool
deriving DecidableEq, Repr

/-- Of a patrol read of a channel: the blocks whose sampled page was uncorrectable; the blocks that another age group's set read at
step 0, with that group (R301, R302). -/
structure PatrolEnd where
  uncorrectable : List Nat
  groups : List (Nat × Nat)
deriving DecidableEq, Repr

/-- The lanes of a module in one direction (R28): `back` from the higher-numbered die to the lower. -/
structure Lanes where
  module : Nat
  back : Bool
deriving DecidableEq, Repr

/-- The commands. The comment of each names the row's rule; operands are in the order the rule uses them. -/
inductive Instr where
  -- The module: pins, power, sensors (18)
  /-- R465: VIN has held, the first domains switch on -/
  | turnOn
  /-- R460 -/
  | lossOfPower
  /-- R459 -/
  | resetN
  /-- R459 -/
  | progEn
  /-- R459: PERST_A (false) or PERST_B (true) -/
  | perst (portB : Bool)
  /-- R463: the domain of R462 whose rail failed -/
  | railFault (domain : Nat)
  /-- R468: °C of the quad dies, the hub die, the stacks -/
  | thermalSample (quads : List Nat) (hub : Nat) (stackTemps : List Nat)
  /-- R461: PWR_IN's VIN, IIN, WATTS, and each domain's CUR and WATTS of PWR_DOM -/
  | inputPowerSample (vin iin watts : Nat) (domains : List (Nat × Nat))
  -- Start-up (16)
  /-- R416: hub self-test outcome, and the PUF readings taken against identity areas A and B -/
  | phaseRom (selfTest : Bool) (puf : List Byte)
  /-- R420 -/
  | phaseImage
  /-- R465: the domains that miss power-good -/
  | phasePower (late : List Nat)
  /-- R416: die-to-die modules and stacks that fail training, and each channel group -/
  | phaseTrain (modulesFailed stacksFailed : List Nat) (groups : List GroupTrain)
  /-- R416: lines (device physical addresses) that CLEAR finds uncorrectable -/
  | phaseClear (badLines : List Nat)
  /-- R417: the units that fail self-test, and the columns that the array test fails (tile, array, mask) -/
  | phaseTest (failed : List HwUnit) (columns : List (Nat × Nat × W32))
  /-- R418 -/
  | readiness
  /-- R314: a channel rebuilds, or one segment of it (R292) -/
  | rebuild (channel : Nat) (segment : Option Nat)
  /-- R314 -/
  | rebuildDone (channel : Nat)
  -- SPDM (16)
  /-- R429 -/
  | getVersion
  /-- R429 -/
  | getCapabilities
  /-- R429: the offered algorithm numbers are those the table names -/
  | negotiateAlgorithms (ed448 sha3 secp384 aesGcm : Bool)
  /-- R429 -/
  | getDigests
  /-- R429: slot, offset, length -/
  | getCertificate (slot offset length : Nat)
  /-- R429: slot and nonce -/
  | challenge (slot : Nat) (nonce : List Byte)
  /-- R431: block index (0 count, 255 all), whether a signature is asked for, nonce -/
  | getMeasurements (index : Nat) (sign : Bool) (nonce : List Byte)
  /-- R429: the export master secret that this exchange fixes -/
  | keyExchange (secret : List Byte)
  /-- R433: whether the requester's verify data is right -/
  | finish (verified : Bool)
  /-- R432 -/
  | endSession
  -- Image update controls (16 R434)
  /-- R434 -/
  | cfgErase (c : Cmd) (b : KBlock)
  /-- R434 -/
  | cfgWrite (c : Cmd) (b : KBlock)
  /-- R434 -/
  | cfgVerify (c : Cmd) (b : KBlock)
  /-- R434 -/
  | cfgActivate (c : Cmd) (b : KBlock)
  -- Pens (13)
  /-- R359 -/
  | penCreate (c : Cmd) (b : KBlock)
  /-- R360 -/
  | penDestroy (c : Cmd) (b : KBlock)
  /-- R359 -/
  | penQuota (c : Cmd) (b : KBlock)
  /-- R365 -/
  | penDamper (c : Cmd) (b : KBlock)
  /-- R368 -/
  | penReset (c : Cmd) (b : KBlock)
  /-- R368 -/
  | penResetEnd (pen : Nat)
  /-- R369 -/
  | warmReset (c : Cmd) (b : KBlock)
  /-- R369 -/
  | warmResetBegin
  /-- R369 -/
  | coldReset (c : Cmd) (b : KBlock)
  /-- R363 -/
  | damperTick
  /-- R362: node vector -/
  | vectorTimeExpiry (vector : Nat)
  /-- R362: node vector -/
  | msixUnmask (vector : Nat)
  /-- R362: the value written to PEN_VMOD -/
  | penVmodWrite (value : W64)
  -- The host port: links, controllers, doorbells (12)
  /-- R320: port B?, lanes, rate code, 256 B flits negotiated -/
  | hostLinkUp (portB : Bool) (width rate : Nat) (flit256 : Bool)
  /-- R322 -/
  | linkDown (portB : Bool)
  /-- R322 -/
  | cxlReset
  /-- R322: the controller; true for an FLR -/
  | controllerReset (ctl : Nat) (flr : Bool)
  /-- R419: controller; admin SQ base, entries; admin CQ base, entries -/
  | controllerEnable (ctl asq asqs acq acqs : Nat)
  /-- R335, R349: controller, queue (0 admin), new tail, and the host memory writes made visible by then (R54) -/
  | sqTailDoorbell (ctl sq tail : Nat) (writes : List (Nat × Byte))
  /-- R323: controller, completion queue, new head -/
  | cqHeadDoorbell (ctl cq head : Nat)
  /-- R329: controller, submission queue, new head -/
  | recordQueueHeadDoorbell (ctl sq head : Nat)
  -- Admin commands (12 R326)
  /-- R353: QID, base, entries, CQID, physically contiguous -/
  | createIoSq (c : Cmd) (qid base entries cqid : Nat) (pc : Bool)
  /-- R328 -/
  | deleteIoSq (c : Cmd) (qid : Nat)
  /-- R361: QID, base, entries, interrupt vector, interrupts enabled, physically contiguous -/
  | createIoCq (c : Cmd) (qid base entries iv : Nat) (ien pc : Bool)
  /-- R326 -/
  | deleteIoCq (c : Cmd) (qid : Nat)
  /-- R325: CNS, and the page the data goes to -/
  | identify (c : Cmd) (cns : Nat) (prp : List Nat)
  /-- R449: log page, byte offset, byte length, pages the data goes to -/
  | getLogPage (c : Cmd) (lid offset length : Nat) (prp : List Nat)
  /-- R348 -/
  | abort (c : Cmd)
  /-- R326: feature, value (CDW11) -/
  | setFeatures (c : Cmd) (fid : Nat) (value : W32)
  /-- R326 -/
  | getFeatures (c : Cmd) (fid : Nat)
  /-- R326 -/
  | asynchronousEventRequest (c : Cmd)
  /-- R346: sanitize action (SANACT of NVMe: 2 is block erase) -/
  | sanitize (c : Cmd) (action : Nat)
  /-- R346 -/
  | sanitizeEnd
  /-- R328: QID, base, entries, CQID, record queue base, record queue entries, physically contiguous -/
  | createSkexQueue (c : Cmd) (qid base entries cqid rqBase rqEntries : Nat) (pc : Bool)
  -- NVMe I/O commands (12 R341-R344)
  /-- R344 -/
  | flush (c : Cmd)
  /-- R341: starting block, blocks, FUA, host pages of the data -/
  | write (c : Cmd) (slba blocks : Nat) (fua : Bool) (prp : List Nat)
  /-- R343: starting block, blocks, host pages of the data -/
  | read (c : Cmd) (slba blocks : Nat) (prp : List Nat)
  /-- R341: the ranges (start, length), and the deallocate attribute -/
  | datasetManagement (c : Cmd) (ranges : List (Nat × Nat)) (deallocate : Bool)
  /-- R341 -/
  | writeBufferAdmit
  /-- R341: the channel whose oldest buffered unit begins draining -/
  | writeBufferDrain (channel : Nat)
  -- Skex commands (12 R333-R339)
  /-- R334 -/
  | submit (c : Cmd) (graph : OpRef)
  /-- R335: PEN scope?, DURABLE -/
  | skexFence (c : Cmd) (penScope durable : Bool)
  /-- R336 -/
  | orderedWrite (c : Cmd) (slba blocks : Nat) (fua : Bool) (prp : List Nat)
  /-- R337: table object, base -/
  | tableSwitch (c : Cmd) (object base : Nat)
  /-- R338: index object, commit report -/
  | epochCommit (c : Cmd) (object : Nat) (report : OpRef)
  /-- R339: object, first logical block, block count -/
  | regionCreate (c : Cmd) (object first blocks : Nat)
  /-- R339 -/
  | regionDestroy (c : Cmd) (object : Nat)
  /-- R339: object, list capacity, list -/
  | map (c : Cmd) (object capacity : Nat) (list : OpRef)
  /-- R339 -/
  | unmap (c : Cmd) (object : Nat)
  -- The Drover (02)
  /-- R53: the oldest submission of this queue -/
  | graphAccept (ctl sq : Nat)
  /-- R61: the kind of unit arbitrated for, and the DMA channel a COPY takes (R62) -/
  | taskIssue (kind : UnitKind) (channel : Nat)
  /-- R231: the copy's number, and whether the move's reads succeeded -/
  | baleMoveDone (copy : Nat) (ok : Bool)
  /-- R232 -/
  | writeBackDone (copy : Nat)
  /-- R60: what its unit reports with it -/
  | taskComplete (t : TaskId) (x : TaskEnd)
  /-- R50 -/
  | nop (t : TaskId)
  /-- R57 -/
  | fence (t : TaskId)
  /-- R51 -/
  | alloc (t : TaskId)
  /-- R51 -/
  | free (t : TaskId)
  /-- R376 -/
  | copy (t : TaskId)
  /-- R376 -/
  | fill (t : TaskId)
  -- Matrix arrays (06)
  /-- R169 -/
  | matmul (t : TaskId)
  /-- R171: the task's next unit on this array part; whether an integer group sum failed its check (R178), and whether an
  accumulator entry had a single- or double-bit error (R164); a MODEL_RUN's arrays are numbered over its tiles, four to a tile -/
  | arrayUnit (t : TaskId) (array part : Nat) (residueFail accCorr accUncorr : Bool)
  /-- R177 -/
  | arrayTest (tile array : Nat)
  /-- R177: bits written to TLn_ARR_CTL.TEST -/
  | arrayTestRequest (tile : Nat) (mask : BitVec 4)
  /-- R176: columns the test found bad, and whether a port failed -/
  | arrayTestDone (tile array : Nat) (bad : W32) (portFail : Bool)
  -- Models and vector tasks (08)
  /-- R209 -/
  | modelRun (t : TaskId)
  /-- R204 -/
  | modelCreate (t : TaskId)
  /-- R204 -/
  | modelDestroy (t : TaskId)
  /-- R215 -/
  | vectorStep (t : TaskId)
  /-- R215 -/
  | vectorFilter (t : TaskId)
  /-- R215 -/
  | tokenize (t : TaskId)
  /-- R215 -/
  | pack (t : TaskId)
  -- Near-bank units (09)
  /-- R241 -/
  | nbuSeq (t : TaskId)
  /-- R245: stack and unit; whether the parity check of R253 fails -/
  | microOp (stack unit : Nat) (parityFail : Bool)
  /-- R250 -/
  | refreshDue (stack unit : Nat)
  -- Search (03, 04)
  /-- R87 -/
  | query (t : TaskId)
  /-- R94 -/
  | walkRound (t : TaskId)
  /-- R97 -/
  | flashWalkRound (t : TaskId)
  /-- R97: channel and index page -/
  | enginePageExpand (t : TaskId) (channel page : Nat)
  /-- R97: the oldest hop in flight to this channel -/
  | hop (t : TaskId) (channel : Nat)
  /-- R99 -/
  | rerank (t : TaskId)
  /-- R102 -/
  | fanOutQuery (t : TaskId)
  /-- R125 -/
  | merge (t : TaskId)
  -- Index updates (05)
  /-- R142: the next entry of the task -/
  | insert (t : TaskId)
  /-- R140 -/
  | indexCreate (t : TaskId)
  /-- R140 -/
  | indexOpen (t : TaskId)
  /-- R151 -/
  | rebuildIndex (t : TaskId)
  /-- R145: the next entry of the task -/
  | delete (t : TaskId)
  /-- R139 -/
  | destroy (t : TaskId)
  /-- R146 -/
  | repairSweepNow (t : TaskId)
  -- Tables (08)
  /-- R217 -/
  | gather (t : TaskId)
  /-- R218 -/
  | scatterWrite (t : TaskId)
  /-- R218 -/
  | scatterAdd (t : TaskId)
  /-- R216 -/
  | tableCreate (t : TaskId)
  /-- R216 -/
  | tableDestroy (t : TaskId)
  /-- R218 -/
  | clone (t : TaskId)
  -- Flash and Flue tasks
  /-- R298 -/
  | flashRead (t : TaskId)
  /-- R298 -/
  | flashWrite (t : TaskId)
  /-- R298 -/
  | deallocate (t : TaskId)
  /-- R404 -/
  | flueSend (t : TaskId)
  -- Commits and sweeps (05)
  /-- R132: pen and index object -/
  | seal (pen object : Nat)
  /-- R134 -/
  | commitComplete (pen object : Nat)
  /-- R147 -/
  | sweepEnd (pen object : Nat)
  -- Migration (08)
  /-- R221: quad -/
  | sketchHalving (quad : Nat)
  /-- R222: quad, pen, table, base, row -/
  | migrationStart (quad pen object base row : Nat)
  /-- R223: quad, hold entry -/
  | migrationCopyEnd (quad entry : Nat)
  /-- R223 -/
  | migrationCommit (quad entry : Nat)
  -- Stack ECC (09)
  /-- R238: a part of a patrol pass of a stack: lines (numbers within the stack) found with a correctable error, and the rest of its report -/
  | patrolScrub (stack : Nat) (correctable : List Nat) (rest : ScrubEnd)
  -- Coherence at the home slice (10 R266): requester, line address
  /-- R266 -/
  | rds (r line : Nat)
  /-- R266 -/
  | rde (r line : Nat)
  /-- R266 -/
  | rdc (r line : Nat)
  /-- R266 -/
  | wr (r line : Nat)
  /-- R266 -/
  | clr (line : Nat)
  /-- R266 -/
  | putb (r line : Nat)
  /-- R266 -/
  | pute (r line : Nat)
  /-- R266 -/
  | putm (r line : Nat)
  /-- R266 -/
  | ack (r line : Nat)
  /-- R267 -/
  | wbd (r line : Nat)
  /-- R267 -/
  | cack (r line : Nat)
  /-- R268: the oldest stack access of this line -/
  | stackAccessDone (line : Nat)
  -- Coherence at an agent (10 R269, R271): agent, line
  /-- R269 -/
  | inv (a line : Nat)
  /-- R269: the member that acknowledges -/
  | memberAck (a line member : Nat)
  /-- R271 -/
  | rcl (a line : Nat)
  /-- R271 -/
  | rclS (a line : Nat)
  /-- R271 -/
  | dataS (a line : Nat)
  /-- R271 -/
  | dataB (a line : Nat)
  /-- R271 -/
  | dataE (a line : Nat)
  /-- R272 -/
  | cmp (a line : Nat)
  /-- R271 -/
  | agentLoad (a line : Nat)
  /-- R271: 64 bytes and a byte mask -/
  | agentStore (a line : Nat) (data : List Byte) (mask : List Bool)
  /-- R271 -/
  | agentReplace (a line : Nat)
  /-- R324: request and device physical address of the line -/
  | hostCxlMemRequest (req : CxlReq) (line : Nat)
  /-- R279: host line address; the snooped line's new bytes become visible to the node (R54) -/
  | snpInv (line : Nat) (data : List (Nat × Byte))
  /-- R279 -/
  | snpData (line : Nat)
  /-- R279 -/
  | snpCur (line : Nat)
  /-- R275: line whose BISnp stays unanswered -/
  | bisnpTimeout (line : Nat)
  /-- R276 -/
  | reclaimSweep (agent : Nat)
  /-- R275 -/
  | reclaimSweepDone
  -- Flash media (11)
  /-- R300: channel, read, which of its sectors decode at this step -/
  | pageReadDone (channel op : Nat) (decoded : List Bool)
  /-- R306: channel, operation, pass status -/
  | programDone (channel op : Nat) (pass : Bool)
  /-- R306: channel, operation, pass status -/
  | eraseDone (channel op : Nat) (pass : Bool)
  /-- R294 -/
  | kindlingPad (channel : Nat)
  /-- R311 -/
  | journalPageTimeout (channel : Nat)
  /-- R297: channel and LUN -/
  | foldStart (channel lun : Nat)
  /-- R303 -/
  | gcStart (channel lun : Nat)
  /-- R313 -/
  | checkpointStart (channel : Nat)
  /-- R302, R301: blocks whose sampled page needed step 4 or above, and the rest of its report -/
  | patrolRead (channel : Nat) (late : List Nat) (rest : PatrolEnd)
  /-- R446: channel, LUN, age group, and the sectors decoded by each offset set tried -/
  | readLevelReplan (channel lun group : Nat) (tried : List (List (BitVec 8) × Nat))
  /-- R318: °C of each of the four groups -/
  | flashTemperatureSample (temps : List Nat)
  -- DMA rings (14)
  /-- R387 -/
  | dmaEnable (channel : Nat)
  /-- R387 -/
  | dmaStop (channel : Nat)
  /-- R386 -/
  | dmaRestart (channel : Nat) (skip : Bool)
  /-- R388 -/
  | dmaTest (channel : Nat)
  /-- R388: whether the test failed -/
  | dmaTestDone (channel : Nat) (failed : Bool)
  /-- R381: the host memory writes visible by then -/
  | dmaDoorbell (channel : Nat) (writes : List (Nat × Byte))
  /-- R382 -/
  | dmaCqheadWrite (channel : Nat) (value : W32)
  /-- R381 -/
  | descriptorFetchDone (channel : Nat)
  /-- R382: ring index -/
  | descriptorComplete (channel index : Nat)
  /-- R385: channel; ring index, or the task on a Drover channel -/
  | busError (channel index : Nat) (task : Option TaskId) (err : BusErr)
  /-- R15: channel; a bus error of the same cycle as busError has it -/
  | errinfoClear (channel : Nat) (sameCycle : Option (Nat × Option TaskId × BusErr))
  /-- R15: a line of the selected stack poisoned in the same cycle -/
  | poisonLatchClear (sameCycle : Option Nat)
  /-- R15: a line (device physical address) lost in the same cycle -/
  | reclaimLatchClear (sameCycle : Option Nat)
  -- Flue (15)
  /-- R393 -/
  | portTraining (port : Nat)
  /-- R393: corrected symbols and discarded blocks of the qualification -/
  | qualificationEnd (port corrected discarded : Nat)
  /-- R396 -/
  | dataFlit (port : Nat)
  /-- R395 -/
  | idleFlit (port : Nat)
  /-- R396 -/
  | retryReq (port : Nat)
  /-- R400 -/
  | forward (m : FlueMsg)
  /-- R401 -/
  | openMsg (m : FlueMsg)
  /-- R402 -/
  | close (m : FlueMsg)
  /-- R399 -/
  | flueAck (m : FlueMsg)
  /-- R404 -/
  | put (m : FlueMsg)
  /-- R404 -/
  | putDone (m : FlueMsg)
  /-- R405 -/
  | queryMessage (m : FlueMsg)
  /-- R406 -/
  | answer (m : FlueMsg)
  /-- R148 -/
  | mrec (m : FlueMsg)
  /-- R148 -/
  | mcommit (m : FlueMsg)
  /-- R134 -/
  | mack (m : FlueMsg)
  /-- R409 -/
  | load (m : FlueMsg)
  /-- R412 -/
  | rread (m : FlueMsg)
  /-- R412 -/
  | rwrite (m : FlueMsg)
  /-- R412 -/
  | rresp (m : FlueMsg)
  /-- R413 -/
  | mapupd (m : FlueMsg)
  /-- R399: context, VC -/
  | resendTimeout (ctx vc : Nat)
  /-- R402 -/
  | peerTimeout (ctx : Nat)
  /-- R401 -/
  | flueCtxOpen (c : Cmd) (b : KBlock)
  /-- R403 -/
  | flueCtxClose (c : Cmd) (b : KBlock)
  /-- R400 -/
  | flueRoute (c : Cmd) (b : KBlock)
  /-- R411 -/
  | lend (c : Cmd) (b : KBlock)
  /-- R413: pen and object -/
  | lendHandoverDone (pen object : Nat)
  /-- R409 -/
  | mirrorLoad (c : Cmd) (b : KBlock)
  /-- R410 -/
  | mirrorPromote (c : Cmd) (b : KBlock)
  -- Health and ageing (17)
  /-- R438 -/
  | scoreRecompute
  /-- R443: the smallest slack of each domain in the window, in ps -/
  | marginEvaluation (mins : List Nat)
  /-- R444 -/
  | binQuiesceDone (quad : Nat)
  /-- R444 -/
  | pllRelockDone (quad : Nat)
  /-- R445: the stack, and its eye margin in per cent -/
  | phyRetrain (stack margin : Nat)
  /-- R445: the eye margin reached -/
  | phyRetrainDone (stack margin : Nat)
  /-- R31: module number 0 to 23 -/
  | dieToDieModuleDown (module : Nat)
  /-- R31: die pair -/
  | routeListResume (pair : Nat)
  /-- R440 -/
  | unitFault (u : HwUnit)
  /-- R442: cause of HLT_STAT, and whether no domain that draining needs is at fault -/
  | nodeFault (cause : Nat) (canDrain : Bool)
  -- Recording and replay (17)
  /-- R450 -/
  | trcGo
  /-- R454 -/
  | trcReplay
  /-- R455: new producer offset, and the records that software has written to the ring -/
  | trcRprodWrite (off : Nat) (writes : List (Nat × Byte))
  /-- R450 -/
  | trcRconsWrite (off : Nat)
  -- The rest
  /-- R13: BAR2 address, 64-bit access?, value -/
  | registerWrite (addr : Nat) (wide : Bool) (value : W64)
  /-- R459 -/
  | resetNHigh
  /-- R31, R28: where the lane failed -/
  | laneFailure (x : Lanes)
  /-- R392: port, whether both codewords are correctable, corrected symbols, and the five flits of 256 bytes -/
  | fecBlock (port : Nat) (correctable : Bool) (corrected : Nat) (flits : List (List Byte))
  /-- R326: opcode -/
  | invalidCommandOpcode (c : Cmd) (opcode : Nat)
  /-- R357: control code -/
  | undefinedControlCode (c : Cmd) (code : BitVec 16) (b : KBlock)
  /-- R429: request code -/
  | unsupportedSpdmRequest (code : Nat)
deriving DecidableEq, Repr

end Sys2Proof
end

