-- ==== Sys2Proof/Decode.lean ====
section
/-!
DEFINITION. The command a word spells by the opcode table's bits. The table gives no row of this block any bits, so no word
spells a command.
-/

namespace Sys2Proof

/-- The command that a word of nbits bits spells by spec/opcode_table.json: none, for the table gives no row bits. -/
def decodeTableWord (_nbits _w : Nat) : Option Instr := none

end Sys2Proof
end

