-- ==== Sys2Proof/Config.lean ====
section
/-!
DEFINITION. What one implementation fixes and the spec does not: every constant here has no body, so that no proof can use
a value of it. Each is named in the assumption log (notes/assumptions).
-/

namespace Sys2Proof.Config

/-- A byte that the spec leaves undefined or unpredictable: the n-th such value drawn (State.nfree), at a position. Log 1. -/
opaque freeByte : Nat → Nat → Byte

/-- A 32-bit value that the spec leaves undefined, as freeByte. Log 1. -/
opaque freeWord : Nat → W32

/-- A choice the spec leaves to the node where it names no rule (true or false). Log 1. -/
opaque freeBool : Nat → Bool

/-- TR, the tie rank of R116: a fixed permutation of the vector IDs that the manual does not give. Log 2. -/
opaque tieRank : Equiv.Perm W64

/-- Bales of activation spills of a MODEL_RUN (R236), whose number is not given: by BATCH, SEQ_LEN, the model's bytes and its MACs a
token. Log 2. -/
opaque spillBales : (batch seqLen bytes macs : Nat) → Nat

/-- How far the silicon's exp of a number lies from the correctly rounded one (R208): −2 to 2 ulp, as 0 to 4. Log 2. -/
opaque expUlp : W32 → Fin 5

/-- The same for tanh. Log 2. -/
opaque tanhUlp : W32 → Fin 5

/-- What a MODEL_RUN writes in a column that is absent, from the image, the parameter block and the input (R211), by the byte's place in
the output. Log 1. -/
opaque absentByte : (run : List Byte) → (place : Nat) → Byte

/-- The health score formula of R438: from the unit kind and number, its CORRECTED and DATA counts, its guard band, its bin
or rate code and, for a channel, its wear; 0 to 100 after clamping. Log 2. -/
opaque scoreFormula : (kind unit corrected data guardBand bin wear : Nat) → Nat

/-- Event codes of R448 ("as in the Vorust health log definition", which the spec does not give): by class, unit kind and
the model's own number of the event. Log 2. -/
opaque eventCode : (cls kind what : Nat) → BitVec 16

/-- The device secret that the hub die's SRAM PUF and an identity area's reconstruction data give, or none (R427). Log 2. -/
opaque pufReconstruct : List Byte → Option (List Byte)

/-- Ed448ph verification under RFC 8032 (R428): public key, context string, message, signature. Log 2. -/
opaque ed448phVerify : List Byte → List Byte → List Byte → List Byte → Bool

/-- Ed448ph signing (R428): private key, message. Log 2. -/
opaque ed448Sign : List Byte → List Byte → List Byte

/-- The public key of the leaf of an X.509 chain when the chain verifies up to the Vorust root (R428). Log 2. -/
opaque certLeafKey : List Byte → Option (List Byte)

/-- The X.509 bytes of the alias certificate that the ROM issues for M under the device identity key (R427). Log 2. -/
opaque aliasCert : List Byte → List Byte → List Byte

/-- Bytes of a firmware section that are code; a Vorust firmware certificate and a signature of 114 bytes follow them (R422, whose
text gives no lengths). Log 2. -/
opaque firmwareCode : List Byte → Nat

/-- The leaf certificate of a chain of certificates in X.509 DER (R431). Log 2. -/
opaque leafCert : List Byte → List Byte

/-- The certificates of slot 0 that an identity area holds: the Vorust root, the Vorust device CA, the DIK certificate (R429); the
spec gives the area's layout no further. Log 2. -/
opaque deviceChain : List Byte → List Byte

/-- A field of a part profile by its place in the table of R284, from the 128 bytes of the profile and the TARGETS bytes behind it
(R422, whose text gives no offsets). Log 2. -/
opaque profileField : List Byte → Nat → Nat

/-- The bytes that an SPDM response's signature covers (R428, R429: SPDM 1.3 defines them): from the request code, the requester's
nonce, the responder's part of the response, and a tag for the responder's own nonce. Log 2. -/
opaque spdmTranscript : Nat → List Byte → List Byte → Nat → List Byte

/-- The public Ed448 key of a private key (R427, RFC 8032). Log 2. -/
opaque ed448Public : List Byte → List Byte

/-- The SHA3-512 digest of the mask ROM (R431, index 1). Log 2. -/
opaque romDigest : List Byte

/-- The 4,096 bytes of Identify and of the NVMe log pages that NVMe 2.0 fixes and this spec does not: by structure, index
and byte position. Log 2. -/
opaque nvmeByte : Nat → Nat → Nat → Byte

/-- The hash of the count-min sketch (R221): its row, then pen, table, base and row number. Log 2. -/
opaque sketchHash : (row pen table base index : Nat) → Nat

/-- The set of a quad's row cache that a row of a table falls in (R221): the cache size in units of 256 KiB, then pen, table, base
and row number. Log 2. -/
opaque rowCacheSet : (units pen table base index : Nat) → Nat

end Sys2Proof.Config
end

