-- ==== Sys2Proof/Machine/State.lean ====
section
/-!
DEFINITION. The state of the node as plain data, by unit, and State.reset. Docstrings name the rule of spec/ that gives each
piece; INVENTORY.md lists them with their reset values. Registers that software reads are views computed from these fields
(Machine/Regs); only selectors and latches are stored as such.
-/

namespace Sys2Proof.Machine

/-- Why the node model stops with a fault: nothing does. Where the spec calls a result unpredictable, free values stand for it and
the node goes on (R17). -/
inductive Fault
deriving DecidableEq, Repr

/-- Why the node model refuses a command. -/
inductive Refusal where
  /-- Raised by Dispatch for a command that has no meaning yet. Safe. -/
  | notModelled (mnemonic : String)
deriving DecidableEq, Repr

/-- Byte memory: cells in strictly rising address order with no zero byte (an unlisted byte reads 0, log 4), and the ranges
(start, length, tag) whose contents the spec leaves undefined, each read as a free value of its tag (log 1). -/
structure Mem where
  cells : List Host.Cell := []
  undef : List (Nat × Nat × Nat) := []
deriving DecidableEq, Repr, Inhabited

/-- Module pins, rails and sensors (18). -/
structure Power where
  /-- VIN within R460 -/
  vin : Bool := false
  /-- RESET_N high (R459) -/
  resetN : Bool := true
  progEn : Bool := false
  /-- PRSNT_Fg: a board sits in group g -/
  boards : BitVec 4 := 0
  /-- PWR_STAT.ON, by domain number of R462 -/
  on : BitVec 20 := 0
  /-- PWR_STAT.FAULT -/
  fault : BitVec 20 := 0
  /-- PWR_STAT.THROTTLE: throttling for heat or for input power (R461, R468) -/
  hot : Bool := false
  /-- PWR_STAT.PCAP: the input power is above 1,750 W (R461) -/
  pcap : Bool := false
  /-- FAULT_N driven low (R459) -/
  faultN : Bool := false
  /-- PWR_IN -/
  vinNow : Nat := 0
  iin : Nat := 0
  watts : Nat := 0
  peak : Nat := 0
  quadTemp : Tab Nat := []
  hubTemp : Nat := 0
  stackTemp : Tab Nat := []
  /-- PWR_DOM.CUR and WATTS by domain -/
  rails : Tab (Nat × Nat) := []
  /-- PWR_DSEL.DOMAIN -/
  dsel : Nat := 0
deriving DecidableEq, Repr, Inhabited

/-- A flash part profile (R284) with TARGETS of R422. -/
structure Profile where
  cell : Nat := 0
  npl : Nat := 1
  nl : Nat := 1
  nb : Nat := 0
  np : Nat := 0
  npPslc : Nat := 0
  pageBytes : Nat := 0
  spare : Nat := 0
  suspend : Nat := 0
  eraseLimit : Nat := 1
  pslcLimit : Nat := 1
  disturbLimit : Nat := 0
  tMax : Nat := 0
  targets : Nat := 0
deriving DecidableEq, Repr, Inhabited

/-- The loaded Dindan image (R421, R422), parsed, with the digests of R431. -/
structure Image where
  sequence : Nat := 0
  svn : Nat := 0
  nodeId : Nat := 0
  domains : BitVec 20 := 0
  smb3 : Nat := 0
  ports : List Nat := []
  profiles : List Profile := []
  routes : List Nat := []
  pen0 : List Byte := []
  dampers : List (List Byte) := []
  /-- for each stack: bale table, map share, write-buffer share, pool, in MiB -/
  regions : List (Nat × Nat × Nat × Nat) := []
  hubmem : Nat := 0
  settings : List (Nat × Nat) := []
  digFwCore : List Byte := []
  digFwEngine : List Byte := []
  digImage : List Byte := []
  digOwner : List Byte := []
  /-- M of R427 -/
  digM : List Byte := []
deriving DecidableEq, Repr, Inhabited

/-- CFG_SLOTA or CFG_SLOTB (16). -/
structure SlotReg where
  reason : Nat := 8
  check : Nat := 0
  svn : Nat := 0
  seqLo : Nat := 0
deriving DecidableEq, Repr, Inhabited

/-- Start-up and security (16). -/
structure Boot where
  phase : Nat := 1
  ready : Bool := false
  slot : Nat := 0
  reason : Nat := 0
  slotA : SlotReg := {}
  slotB : SlotReg := {}
  seqRunning : Nat := 0
  loaded : Bool := false
  image : Image := {}
  /-- TEST has ended (R418) -/
  tested : Bool := false
  ident : Bool := false
  idsrc : Nat := 0
  hasAlias : Bool := false
  aliasKey : List Byte := []
  aliasCert : List Byte := []
  /-- held by the ROM only; cleared before firmware runs (R427) -/
  secret : Option (List Byte) := none
  /-- a slot that verified before it failed a load check: what R431 reports in FAILED -/
  verified : Option (Nat × Image) := none
  session : Bool := false
  sessionSecret : List Byte := []
  k0 : Option (List Byte) := none
  /-- outcome of the last cold start's TRAIN, which a warm reset keeps (R416) -/
  trainModules : List Nat := []
  trainStacks : List Nat := []
  trainGroups : List GroupTrain := []
deriving DecidableEq, Repr, Inhabited

/-- Topology (R38) and die-to-die modules (R27 to R31). -/
structure Topo where
  /-- HUB_TOPO as latched at readiness -/
  quad : BitVec 4 := 0
  stack : BitVec 20 := 0
  chgrp : BitVec 4 := 0
  flue : BitVec 8 := 0
  hostSplit : Bool := false
  tiles : Nat := 0
  targets : Nat := 0
  /-- units usable at this moment: excluded or lost units are out -/
  quadOk : BitVec 4 := 0
  tileOk : BitVec 64 := 0
  stackOk : BitVec 20 := 0
  /-- modules taken down, of the 24 of R27 -/
  d2dDown : List Nat := []
  /-- redundant lanes used, by module and direction: key 2 × module + direction (R28) -/
  d2dSpares : Tab Nat := []
  /-- numbers of the messages accepted before the pair changes its list, by die pair (R31) -/
  d2dFlight : Tab (List Nat) := []
  /-- the module list in use, by die pair; absent is all of them -/
  d2dList : Tab (List Nat) := []
  /-- pairs that wait to drain before they change their list (R31) -/
  d2dDraining : List Nat := []
deriving DecidableEq, Repr, Inhabited

/-- A result entry: 16-bit ordered key, ID, score bits, source (R111, R113, R114). -/
structure Hit where
  key : Nat
  id : W64
  score : W32
  source : Nat
  /-- slot, for the rerank -/
  slot : Nat
deriving DecidableEq, Repr

/-- The select unit of a tile (R120, R121): the list in its latches, whose it is, the threshold key, the bucket width 2^w, the base key,
and the held entries counted by bucket. -/
structure SelUnit where
  owner : Option TaskId := none
  list : List Hit := []
  theta : Nat := 0xFFFF
  w : Nat := 8
  base : Nat := 0
  counts : Tab Nat := []
deriving DecidableEq, Repr, Inhabited

/-- A quad (01, 03, 08, 09). -/
structure Quad where
  tileMhz : Nat := 0x960
  nocMhz : Nat := 0x640
  /-- the bin to which it is being lowered, and the stage: 1 quiescing, 2 relocking (R444) -/
  binStage : Nat := 0
  binNext : Nat := 0
  /-- selections in quad mode and in stream mode (R123): tasks -/
  quadSel : List TaskId := []
  streamSel : List TaskId := []
  /-- what the quad stores and the bucket runs hold (R122) -/
  selLists : List (TaskId × List Hit) := []
  /-- use counter of R234 -/
  uses : Nat := 0
  poolSize : Nat := 0
  rowHits : Nat := 0
  rowMisses : Nat := 0
  migDone : Nat := 0
  migAbandoned : Nat := 0
  /-- sketch counters, row by row (R221), and reads since they were halved -/
  sketch : Tab Nat := []
  sketchReads : Nat := 0
  /-- row cache sets: (pen, table, base, row), least recently used first (R221) -/
  rowCache : Tab (List (Nat × Nat × Nat × Nat)) := []
  /-- whole-resident models (pen, object), least recently run first, and KiB per tile of each (R210) -/
  resident : List (Nat × Nat × Nat) := []
  runs : List TaskId := []
  streaming : List TaskId := []
deriving DecidableEq, Repr, Inhabited

/-- A matrix array (06). -/
structure Arr where
  inService : Bool := false
  /-- bad columns (R176) -/
  bad : W32 := 0
  testing : Bool := false
  testWanted : Bool := false
  doubleErrs : Nat := 0
  /-- the task that holds it; GEOM and MODE of its unit -/
  holder : Option TaskId := none
  geom : Nat := 0
  mode : Nat := 0
  /-- weight registers, active and shadow, and activation registers: cell (r, c) at 32 × r + c (R155, R156) -/
  active : Tab Nat := []
  shadow : Tab Nat := []
  acts : Tab Nat := []
  /-- the accumulator store: entry e of column c at 32 × e + c, and the half of 512 entries that takes the next block (R164) -/
  acc : Tab W32 := []
  half : Nat := 0
deriving DecidableEq, Repr, Inhabited

/-- The crown of an index at an epoch in a tile's SRAM: its bales there, and the QUERYs that use it (R83). -/
structure CrownCopy where
  pen : Nat
  object : Nat
  epoch : Nat
  slots : List Nat
  users : List TaskId
deriving DecidableEq, Repr, Inhabited

/-- A tile (06, 17). -/
structure Tile where
  arrs : List Arr := [{}, {}, {}, {}]
  residue : Nat := 0
  accCorr : Nat := 0
  accUncorr : Nat := 0
  testFail : Nat := 0
  busy : Nat := 0
  macs : Nat := 0
  /-- tasks issued and not finished (R62) -/
  tasks : List TaskId := []
  /-- walks running (R105) -/
  walks : List TaskId := []
  /-- crowns kept while queries on their index run here (R83) -/
  crowns : List CrownCopy := []
  sel : SelUnit := {}
  /-- single-bit errors of its SRAM corrected, and double-bit ones (R437, R438) -/
  corrected : Nat := 0
  dataErrs : Nat := 0
  /-- words of its SRAM poisoned by a double-bit error (R437) -/
  sramPoison : List Nat := []
  dead : Bool := false
deriving DecidableEq, Repr, Inhabited

/-- One near-bank unit (R240): latches as (latch, element) to value, the broadcast latch, the position. -/
structure Nbu where
  latch : Tab (Tab W32) := []
  bcast : List W32 := []
  /-- bale position, chunk within the bale's part of this unit, step -/
  balePos : Nat := 0
  chunk : Nat := 0
  step : Nat := 0
  running : Option TaskId := none
  refreshDue : Bool := false
  /-- waiting host reads: line addresses (R251) -/
  waiting : List Nat := []
  done : Bool := false
deriving DecidableEq, Repr, Inhabited

/-- A stack (09, 17). -/
structure Stack where
  hot : Bool := false
  nbuBad : List Nat := []
  eccCorr : Nat := 0
  eccUncorr : Nat := 0
  scrubs : Nat := 0
  poisonValid : Bool := false
  poisonOffset : Nat := 0
  cuts : Nat := 0
  hostWaits : Nat := 0
  nbuFaults : Nat := 0
  /-- NBU_SEQ running (R248) -/
  nbuTask : Option TaskId := none
  units : Tab Nbu := []
  /-- 0: 8.0, 1: 7.2, 2: 6.4 Gb/s per pin (R445) -/
  phyRate : Nat := 0
  eye : Nat := 0
  retrains : Nat := 0
  retraining : Bool := false
  trainedTemp : Nat := 0
  /-- home slots that hold a bale, and pool slots in use -/
  homesUsed : List Nat := []
  poolUsed : List Nat := []
deriving DecidableEq, Repr, Inhabited

/-- Where a bale lives (R227). -/
inductive Home where
  | stack (s slot : Nat)
  | tile (t off : Nat)
  | flash
  | host
  /-- not yet placed (R51) -/
  | none
deriving DecidableEq, Repr

/-- State of a pool or tile-SRAM copy (R232). -/
inductive CopyState where
  | filling
  | clean
  | dirty
  | writing
deriving DecidableEq, Repr

/-- What bale a copy is of: a flash unit range, a host range of one graph, a crown, a model slice. -/
inductive BaleId where
  | flash (lba : Nat)
  | host (pen graph bale : Nat)
  | obj (pen object bale : Nat)
deriving DecidableEq, Repr

/-- A copy of a bale in the shared pool (R232 to R235). -/
structure BaleCopy where
  num : Nat
  bale : BaleId
  quad : Nat
  stack : Nat
  slot : Nat
  st : CopyState
  /-- tasks that pin it: the pin count is their number -/
  pins : List TaskId := []
  age : Nat
  pen : Nat
  /-- refetch when next unpinned (R233) -/
  stale : Bool := false
  /-- tasks that wait for its move -/
  waiters : List TaskId := []
  /-- runs of bytes that tasks have written and that are not yet at the home: task, offset in the bale, length -/
  dirty : List (TaskId × Nat × Nat) := []
  /-- tasks whose runs the write-back under way writes -/
  wb : List TaskId := []
deriving DecidableEq, Repr

/-- Request state of a task (R236). -/
structure ReqState where
  task : TaskId
  pen : Nat
  quad : Nat
  stack : Nat
  slots : List Nat
deriving DecidableEq, Repr

/-- The index descriptor (R77). -/
structure Desc where
  codeLog : Nat := 0
  degree : Nat := 8
  upperDegree : Nat := 4
  levelShift : Nat := 1
  attrBytes : Nat := 0
  flash : Bool := false
  capacity : Nat := 1
  channelMask : W32 := 0
  vecDim : Nat := 0
  vecFmt : Nat := 0
  vecPlace : Nat := 0
  metric : Nat := 0
  crownBales : Nat := 1
deriving DecidableEq, Repr, Inhabited

/-- One slot of an index: an element of CODE, ADJ, ID, ATTR, TOMB and VEC (R80), or of a page record (R84). -/
structure SlotRec where
  id : W64
  code : Nat
  adj : List Nat
  attr : Nat
  tomb : Bool
  level : Nat
  vec : List Byte
deriving DecidableEq, Repr

/-- An upper-layer record (R82). -/
structure Upper where
  slot : Nat
  down : Nat
  nbr : List Nat
deriving DecidableEq, Repr

/-- One state of an index: a committed epoch or the working state (R129, R130). -/
structure Snap where
  slots : Tab SlotRec := []
  /-- layer, then record index -/
  upper : Tab (Tab Upper) := []
  top : Nat := 0
  /-- the entry record: in layer top; a slot when top is 0 -/
  entry : Option Nat := none
  /-- key map: vector ID to slot (R143) -/
  keymap : Tab Nat := []
  /-- lowest layer in the crown, and whether it holds any (R83) -/
  crownFloor : Nat := 0
  crownEmpty : Bool := true
deriving DecidableEq, Repr, Inhabited

/-- A log record (R138): position, kind, epoch, body. -/
structure LogRec where
  pos : Nat
  kind : Nat
  epoch : Nat
  body : List Byte
deriving DecidableEq, Repr

/-- A commit between its seal and its completion (R134). -/
structure Commit where
  cmd : Cmd
  report : OpRef
  epoch : Nat
  snap : Snap
  sealed : Bool
  /-- waits for this acknowledgement of the partner -/
  mackPending : Bool
  admission : Bool := false
  /-- its COMMIT record has been staged (R312) -/
  recorded : Bool := false
  /-- the log position after its commit record (R136) -/
  pos : Nat := 0
deriving DecidableEq, Repr

/-- A committed epoch of a flash-resident index that is not durable yet: a mirror target acknowledges it on its context then, and a
rebuild completes (R148, R151, R312). -/
structure Landing where
  ctx : Option Nat
  epoch : Nat
  snap : Snap
  /-- the log position after it -/
  pos : Nat
  /-- 0 nothing is written, 1 pages and checkpoint are on the medium, 2 the COMMIT record is staged -/
  stage : Nat := 0
deriving DecidableEq, Repr

/-- A repair sweep under way (R146). -/
structure Sweep where
  members : List Nat
  waiters : List TaskId
  /-- tasks that wait for it to end and then start another -/
  next : List TaskId
  due : Bool
deriving DecidableEq, Repr

/-- A mirror load at the primary (R409). -/
structure MirrorLoad where
  cmd : Cmd
  epoch : Nat
  /-- 0 the target's descriptor is being checked, 1 loading, 2 installed, 3 its admission commit has sealed -/
  phase : Nat := 0
deriving DecidableEq, Repr

/-- An index object (03, 05). -/
structure Index where
  desc : Desc := {}
  storeKey : Nat := 0
  space : Nat := 0
  hold : Nat := 1
  insertList : Nat := 16
  insertBeam : Nat := 1
  repairPct : Nat := 1
  mirrored : Bool := false
  mirrorNode : Nat := 0
  mirrorObject : Nat := 0
  target : Bool := false
  /-- committed epochs still readable: held and releasing -/
  epochs : Tab Snap := []
  latest : Nat := 0
  held : Nat := 0
  work : Snap := {}
  log : List LogRec := []
  logPos : Nat := 0
  commits : List Commit := []
  /-- update tasks that have begun applying (R132) -/
  begun : List TaskId := []
  sweep : Option Sweep := none
  /-- slots freed by a sweep, with the epoch their end record joins (R147) -/
  freed : List (Nat × Nat) := []
  mirrorLost : Bool := false
  loading : Option MirrorLoad := none
  /-- at a target: log records held until the load is installed -/
  heldLog : List LogRec := []
  /-- epochs of a flash-resident target or rebuild on their way to the medium (R148, R151) -/
  landing : List Landing := []
  /-- the first epoch since its creation, or since it was opened -/
  base : Nat := 1
  /-- its arrays were altered from outside, or a host error on it: its queries are unpredictable (R109, R154) -/
  wild : Bool := false
deriving DecidableEq, Repr, Inhabited

/-- A migrated row (R222): base and row, its place and slot size in the table, and the home that it has now: a place in a bale of a
stack. -/
structure RowMove where
  base : Nat
  row : Nat
  off : Nat
  size : Nat
  stack : Nat
  slot : Nat
  idx : Nat
deriving DecidableEq, Repr, Inhabited

/-- An embedding table (R216). -/
structure Table where
  fmt : Nat := 0
  bases : Nat := 1
  width : Nat := 1
  cache : Bool := false
  migrate : Bool := false
  rows : Nat := 1
  current : Nat := 0
  /-- migrated rows (R222) -/
  remap : List RowMove := []
deriving DecidableEq, Repr, Inhabited

/-- What an object of a pen is (R48, R411). -/
inductive ObjKind where
  | index (x : Index)
  | table (t : Table)
  /-- image bytes, and the KIND 0 multiply count per token (R214) -/
  | model (bytes macs : Nat)
  | buffer
  /-- first logical block of the pen and block count (R339) -/
  | region (first blocks : Nat)
  /-- borrowed: context, lender's object, GEN, bytes (R412) -/
  | borrowed (ctx obj gen bytes : Nat)
deriving DecidableEq, Repr

/-- A lend of an object (R411, R413). -/
structure Lent where
  /-- 0 a peer context, 1 the host -/
  kind : Nat
  ctx : Nat
  borrower : Nat
  gen : Nat
  /-- DRAINING: requests accepted under the old entry (context, CORRID), and the LEND that waits -/
  draining : List FlueMsg := []
  waiting : List FlueMsg := []
  handover : Option Cmd := none
  /-- LENDs that wait for this hand-over: command, kind, context, borrower object -/
  queued : List (Cmd × Nat × Nat × Nat) := []
deriving DecidableEq, Repr

/-- An object of a pen's object table (R48). -/
structure Obj where
  kind : ObjKind
  bytes : Nat := 0
  homes : List Home := []
  lost : Bool := false
  /-- pinned by MAP (R339) -/
  mapped : Bool := false
  lent : Option Lent := none
  lentGen : Nat := 0
deriving DecidableEq, Repr

/-- A keyed setting that waits for a pen reset to end (R359). -/
inductive Deferred where
  | quota (args : List Byte)
  | damper (args : List Byte)
deriving DecidableEq, Repr

/-- A pen (13). -/
structure Pen where
  alive : Bool := false
  /-- a pen reset is under way (R368) -/
  resetting : Bool := false
  queues : Nat := 0
  vectors : Nat := 0
  taskUnits : Nat := 0
  baleGib : Nat := 0
  poolPct : Nat := 0
  peerCtx : Nat := 0
  minClass : Nat := 0
  dclass : Nat := 0
  vbase : Nat := 0
  gen : Nat := 0
  winBase : Nat := 0
  winLen : Nat := 0
  kctr : Nat := 0
  krej : Nat := 0
  /-- bucket values in base units, key 3 × class + resource -/
  buckets : Tab Int := []
  rates : Tab Nat := []
  bursts : Tab Nat := []
  /-- bales charged against BALE_GIB (R352) -/
  bales : Nat := 0
  objects : Tab Obj := []
  /-- objects that a create on a number in use left without a number; they stay charged (R154) -/
  orphans : List Obj := []
  deferred : List Deferred := []
  /-- KEYED commands that wait for the reset's end, and whether each is a PEN_DESTROY -/
  resetWait : List (Cmd × Bool) := []
deriving DecidableEq, Repr, Inhabited

/-- A node interrupt vector (R361, R362). -/
structure Vec where
  thr : Nat := 0
  time : Nat := 0
  pend : Nat := 0
  owner : Nat := 0
  assigned : Bool := false
  /-- MSI-X mask bit and pending bit (R362) -/
  masked : Bool := false
  pba : Bool := false
deriving DecidableEq, Repr, Inhabited

/-- A completion-queue entry (R330). -/
structure Cqe where
  dw0 : W32
  sqHead : Nat
  sq : Nat
  cid : Nat
  /-- the 15-bit status of R331 -/
  status : Nat
deriving DecidableEq, Repr

/-- A completion queue (R71, R323, R330). -/
structure Cq where
  base : Nat := 0
  size : Nat := 0
  head : Nat := 0
  tail : Nat := 0
  phase : Bool := true
  seq : Nat := 0
  iv : Nat := 0
  ien : Bool := false
  waiting : List Cqe := []
deriving DecidableEq, Repr, Inhabited

/-- A task or arrival record before it is written (R69, R404). -/
structure Rec where
  status : Nat
  taskIndex : Nat
  graphTag : Nat
  result : Nat
  sqId : Nat
  cid : Nat
  issues : Nat
  unit : Nat
  /-- the graph whose completion waits for it -/
  graph : Nat
  /-- of an arrival record: the context and the tag of the PUT_DONE that is returned once it is written (R404) -/
  put : Option (Nat × Nat) := none
deriving DecidableEq, Repr

/-- A record queue (R329). -/
structure Rq where
  base : Nat := 0
  size : Nat := 0
  head : Nat := 0
  tail : Nat := 0
  phase : Bool := true
  seq : Nat := 0
  waiting : List Rec := []
deriving DecidableEq, Repr, Inhabited

/-- What a submission doorbell write covered (R335): entries below `upto`, and the coverage of the pen's other queues
then: (controller, queue, entries). -/
structure Mark where
  upto : Nat
  others : List (Nat × Nat × Nat)
deriving DecidableEq, Repr

/-- A unit to be written and its data (R341). -/
structure UnitWrite where
  lba : Nat
  data : List Host.Cell
deriving DecidableEq, Repr

/-- An ordered write that waits for its predecessor (R336). -/
structure OrdWrite where
  cmd : Cmd
  units : List UnitWrite
  fua : Bool
  /-- a failure found when it was fetched, reported in its turn -/
  st : Nat := 0
deriving DecidableEq, Repr

/-- A submission queue (R323, R328, R335). -/
structure Sq where
  base : Nat := 0
  size : Nat := 0
  /-- entries fetched and entries covered by doorbells, since creation; head and tail are these modulo size -/
  fetched : Nat := 0
  covered : Nat := 0
  cqid : Nat := 0
  skex : Bool := false
  rq : Rq := {}
  marks : List Mark := []
  /-- submissions not yet accepted (R53): command, header reference, entry number -/
  submits : List (Cmd × OpRef × Nat) := []
  /-- the ordered write under way (R336) -/
  owCur : Option Cmd := none
  owWait : List OrdWrite := []
deriving DecidableEq, Repr, Inhabited

/-- An NVMe controller (R321, R325, R326). -/
structure Ctl where
  en : Bool := false
  rdy : Bool := false
  cfs : Bool := false
  admin : Sq := {}
  adminCq : Cq := {}
  sqs : Tab Sq := []
  cqs : Tab Cq := []
  aers : List Cmd := []
  arbitration : W32 := 0
  aec : W32 := 0
  /-- its pen was destroyed while CC.EN was 1: it runs again after EN has been cleared and set (R360) -/
  dead : Bool := false
deriving DecidableEq, Repr, Inhabited

/-- Who waits for units to be accepted or to be on the medium. -/
inductive Owner where
  /-- a command, and its entry number in its queue -/
  | cmd (c : Cmd) (num : Nat)
  /-- a task, and its graph's submission command and entry number -/
  | task (t : TaskId) (c : Cmd) (num : Nat)
  | none
deriving DecidableEq, Repr

/-- A command fetched and not completed: its entry number in its queue, its graph when accepted (R335). -/
structure Live where
  cmd : Cmd
  num : Nat
  graph : Option Nat := none
  /-- it writes or deallocates flash: 1 write, 2 deallocation (R335) -/
  media : Nat := 0
deriving DecidableEq, Repr

/-- A Skex FENCE that waits (R335). -/
structure FenceWait where
  cmd : Cmd
  limits : List (Nat × Nat × Nat)
  durable : Bool
deriving DecidableEq, Repr

/-- A buffered unit of the write buffer (R341). -/
structure WbUnit where
  lba : Nat
  data : List Host.Cell
  stack : Nat
  draining : Bool
  owner : Owner
  /-- acceptance number: buffered units drain in this order per channel (R341) -/
  acc : Nat
deriving DecidableEq, Repr

/-- A Flush that waits (R344): buffered units accepted below `upto`, and trims (channel, SEQ) to be durable. -/
structure FlushWait where
  cmd : Cmd
  upto : Nat
  trims : List (Nat × Nat)
deriving DecidableEq, Repr

/-- A write waiting for room (R341). -/
structure WbWait where
  owner : Owner
  units : List UnitWrite
deriving DecidableEq, Repr

/-- A command or task whose units are under way: how many remain, and the status so far. -/
structure IoWait where
  owner : Owner
  remaining : Nat
  status : Nat
  /-- lowest unit that failed, when one did -/
  failAt : Option Nat := none
deriving DecidableEq, Repr

/-- A line of the host line cache (R279): held in S. -/
structure HostLine where
  line : Nat
  data : List Host.Cell
deriving DecidableEq, Repr

/-- The host port (12). -/
structure Port where
  upA : Bool := false
  widthA : Nat := 0
  rateA : Nat := 0
  upB : Bool := false
  widthB : Nat := 0
  rateB : Nat := 0
  downsA : Nat := 0
  downsB : Nat := 0
  /-- HDM decoders: base, size, committed -/
  hdm : List (Nat × Nat × Bool) := []
  ctls : Tab Ctl := []
  live : List Live := []
  fences : List FenceWait := []
  wbSize : Nat := 0
  wce : Bool := false
  degraded : Bool := false
  wb : List WbUnit := []
  wbSeq : Nat := 0
  flushes : List FlushWait := []
  wbWait : List WbWait := []
  ioWait : List IoWait := []
  cmds : Nat := 0
  wbHits : Nat := 0
  sanitizing : Option Cmd := none
  sanitized : Nat := 0
  hostCache : List HostLine := []
  /-- lines whose recall a MemClnEvct answered, the host's BIRsp of which is still to come (R264, R272) -/
  biStray : List Nat := []
  /-- fetching stopped on every queue: a warm or cold reset or a NODE fault (R369, R442) -/
  stopped : Bool := false
  /-- the WARM_RESET that quiesces -/
  warm : Option Cmd := none
deriving DecidableEq, Repr, Inhabited

/-- Candidate key of a walk: (distance, slot), R92. -/
abbrev Key := Nat × Nat

/-- A filter term (R88, R89). -/
structure Term where
  value : Nat
  start : Nat
  width : Nat
  op : Nat
  neg : Bool
deriving DecidableEq, Repr

/-- Query parameters (R88) with the decoded terms (R89). -/
structure QParams where
  k : Nat := 1
  list : Nat := 1
  beam : Nat := 1
  entry : Nat := 0
  epoch : Nat := 0
  mode : Nat := 0
  budget : Nat := 0
  maxRounds : Nat := 0
  rerank : Nat := 0
  terms : List Term := []
deriving DecidableEq, Repr, Inhabited

/-- Walk counters of the walk report (R100). -/
structure Counts where
  rounds : Nat := 0
  expansions : Nat := 0
  scored : Nat := 0
  pages : Nat := 0
  widenings : Nat := 0
deriving DecidableEq, Repr, Inhabited

/-- A walk of one layer (R94): C with expanded marks in key order, O, V. -/
structure Beam where
  list : Nat := 1
  cand : List (Key × Bool) := []
  ovf : List Key := []
  seen : List Nat := []
  exp : Nat := 0
  rounds : Nat := 0
deriving DecidableEq, Repr, Inhabited

/-- One engine's state for a flash-resident query (R97). -/
structure EngState where
  pend : List Key := []
  expanded : List Nat := []
  scored : List Nat := []
  /-- pages to read this round: page, chosen slots, read and decoded -/
  todo : List (Nat × List Nat × Bool) := []
  /-- hops in flight to this engine: slot, key -/
  hops : List Key := []
deriving DecidableEq, Repr, Inhabited

/-- A shard entry of a fan-out (R102, R406). -/
structure Shard where
  node : Nat
  /-- the context its QUERY went out on -/
  ctx : Nat := 0
  object : Nat
  epoch : Nat
  corrid : Nat
  done : Bool
  status : Nat
  epochUsed : Nat
  hits : List Hit
  counts : Counts
  flags : Nat
deriving DecidableEq, Repr

/-- The working state of a QUERY (R87 to R103). -/
structure Walk where
  pen : Nat := 0
  object : Nat := 0
  epoch : Nat := 0
  p : QParams := {}
  code : Nat := 0
  /-- the full-precision query vector that a peer's QUERY message carried (R405) -/
  qvec : List Byte := []
  flash : Bool := false
  beam : Beam := {}
  results : List Hit := []
  /-- flash: S in key order, LIST -/
  best : List Key := []
  list : Nat := 0
  engines : Tab EngState := []
  /-- flash: returns of this round not yet merged -/
  returns : List (Key × W64 × Bool) := []
  roundOpen : Bool := false
  counts : Counts := {}
  budgetEnd : Bool := false
  roundsEnd : Bool := false
  /-- the walk has ended -/
  ended : Bool := false
  /-- the vector reads of its rerank have been sent (R99) -/
  gathered : Bool := false
  shards : List Shard := []
deriving DecidableEq, Repr, Inhabited

/-- A MATMUL in units still to run (R171): its parameters (R170), the operands paged into tile SRAM (R168). -/
structure MatRun where
  m : Nat := 0
  n : Nat := 0
  k : Nat := 0
  lda : Nat := 0
  ldw : Nat := 0
  ldc : Nat := 0
  afmt : Nat := 0
  wfmt : Nat := 0
  outfmt : Nat := 0
  accum : Bool := false
  a : List Byte := []
  w : List Byte := []
  qb : List Byte := []
  /-- rows drained to tile SRAM and not yet written to C: offset in C, bytes (R168) -/
  out : List (Nat × List Byte) := []
  /-- next M-block and the first column of it not yet handed out -/
  nextBlock : Nat := 0
  nextCol : Nat := 0
  unitsDone : Nat := 0
  /-- the initial values read at issue (ACCUM, R170): element m × N + n -/
  init : List W32 := []
deriving DecidableEq, Repr, Inhabited

/-- What a task has under way beside its record. -/
inductive Run where
  | none
  | walk (w : Walk)
  | mat (m : MatRun)
  /-- INSERT or DELETE: next entry, entries applied, IDs found -/
  | update (next applied found : Nat)
  /-- NBU_SEQ: the stack of each bale position -/
  | nbu (stks : List Nat)
  /-- FLUE_SEND: context, MSEQ kept for a re-issue, first flit sent -/
  | send (ctx mseq : Nat)
  /-- COPY with a borrowed object: requests outstanding, by CORRID -/
  | remote (pending : List Nat) (failed : Nat)
  /-- FLASH_READ or FLASH_WRITE: its units are under way -/
  | io
  /-- SCATTER that waits for migrations: (quad, entry) -/
  | migrate (waits : List (Nat × Nat))
deriving DecidableEq, Repr

/-- Where a task stands (R60). -/
inductive TState where
  | waiting
  | ready
  | issued
  /-- its unit has finished it; TASK_COMPLETE follows -/
  | finished
  | complete
deriving DecidableEq, Repr

/-- A task record in the task table (R46, R60, R69). -/
structure Task where
  typ : Nat
  sub : Nat := 0
  recorded : Bool := false
  ops : List OpRef := []
  param : W64 := 0
  /-- a reserved field of its record is not 0 (R46, R48): R76 leaves the task unpredictable -/
  reserved : Bool := false
  unsat : Nat := 0
  predFailed : Bool := false
  st : TState := .waiting
  /-- SCT and SC as in a task record (R331) -/
  status : Nat := 0
  result : Nat := 0
  issues : Nat := 0
  unitKind : Nat := 0
  unitNo : Nat := 0
  quad : Nat := 0
  wrote : Bool := false
  /-- charged at issue: tile cycles, stack bytes, flash operations in sixteenths -/
  chargeTile : Nat := 0
  chargeStack : Nat := 0
  chargeFlash : Nat := 0
  /-- bytes moved and flash operations done so far -/
  usedStack : Nat := 0
  usedFlash : Nat := 0
  readyOrder : Nat := 0
  /-- bales of its operands that it is still to pin, and those of its output ranges (R65, R66, R233) -/
  window : List BaleId := []
  outBales : List BaleId := []
  /-- bytes of its outputs that overlap its own inputs or outputs, as it issued: unpredictable once it has written (R109, R183) -/
  clash : List (OpRef × Nat) := []
  /-- its output ranges, and whether the objects it names existed, as it issued (R225) -/
  outs : List (OpRef × Nat) := []
  had : Bool := false
  /-- the rows that a GATHER or SCATTER named: object, base, indices (R225) -/
  rows : Option (Nat × Nat × List Nat) := none
  /-- epoch or base bound at the first issue (R91, R219) -/
  bound : Option Nat := none
  run : Run := .none
  /-- issued on a unit that has been lost; waits for the reclaim sweep (R72, R275) -/
  orphan : Bool := false
deriving DecidableEq, Repr

/-- A scratch object of a graph (R51). -/
structure Scratch where
  bytes : Nat
  hint : Nat
  homes : List Home
  tag : Nat
  /-- a bale of it went with its stack or tile: its readers end with STATE_LOST (R237, R440) -/
  lost : Bool := false
deriving DecidableEq, Repr

/-- An edge (R47). -/
structure Edge where
  src : Nat
  dst : Nat
  order : Bool
  done : Bool := false
deriving DecidableEq, Repr

/-- A graph in flight (R45, R53, R70). -/
structure Graph where
  acc : Nat
  pen : Nat
  cmd : Cmd
  /-- entry number of its SUBMIT in the submission queue -/
  num : Nat := 0
  tag : Nat := 0
  cls : Nat := 0
  recordAll : Bool := false
  tasks : List Task := []
  edges : List Edge := []
  scratch : Tab Scratch := []
  /-- task records not yet written (R329) -/
  recsWaiting : Nat := 0
  /-- a peer's query: the context and CORRID that its ANSWER goes to (R405) -/
  remote : Option (Nat × Nat) := none
  /-- how far the pen's queues had been fetched at its acceptance: controller, queue, entries (R57) -/
  before : List (Nat × Nat × Nat) := []
  /-- the task and the quad through whose pool copies operands are read; none in a graph that is stored -/
  view : Option (TaskId × Nat) := none
deriving DecidableEq, Repr

/-- The Drover (02). -/
structure Drover where
  graphs : List Graph := []
  nextAcc : Nat := 0
  nextReady : Nat := 0
  /-- last pen issued, by 4 × unit kind + class (R61) -/
  robin : Tab Nat := []
  reissues : Nat := 0
  abandoned : Nat := 0
  dmaCh : Nat := 0
  bgShare : Nat := 0
  /-- HUB_MDL_CFG -/
  mdlPart : Nat := 0
  mdlCache : Nat := 0
  migThresh : Nat := 0
  idxObject : Nat := 0
  idxPen : Nat := 0
  copies : List BaleCopy := []
  nextCopy : Nat := 0
  reqs : List ReqState := []
  /-- flash-resident walks and memory-resident walks in the node (R105) -/
  flashWalks : List TaskId := []
  memWalks : List TaskId := []
  stopped : Bool := false
  /-- graphs of peers' queries that have completed and owe their ANSWER (R406) -/
  doneRemote : List Graph := []
  /-- SCATTER adds that have applied their updates and not completed, in that order (R452, ROWORD) -/
  applied : List TaskId := []
deriving DecidableEq, Repr, Inhabited

/-- A row migration (R222, R223). -/
structure Migration where
  quad : Nat
  entry : Nat
  pen : Nat
  object : Nat
  base : Nat
  row : Nat
  /-- 0 COPY, 1 APPLY: COMMIT may follow once the hold list is empty -/
  phase : Nat
  /-- the new home -/
  move : RowMove
  /-- held updates in arrival order: task, add?, source bytes by window of the coalescer; and those applied to the new copy -/
  hold : List (TaskId × Bool × List (List Byte)) := []
  done : List (TaskId × Bool × List (List Byte)) := []
  /-- the pool slot of the hold list (R236) -/
  holdStack : Nat := 0
  holdSlot : Nat := 0
deriving DecidableEq, Repr

/-- Directory states (R262). -/
inductive DState where
  | S | M | SI_A | SS_A | SM_A | MS_A | MI_A | MM_A
deriving DecidableEq, Repr

/-- The request that a transient state serves (R260). -/
inductive DAct where
  | rdS | rdE | rdC | wr | clr | putB | evict
deriving DecidableEq, Repr

/-- A coherence message (R263), between agents 0 to 96, DMA and Drover as 128 and 129. -/
inductive MsgKind where
  | rdS | rdE | rdC | wr | clr | putB | putE | putM
  | inv | rcl | rclS
  | dataS | dataB | dataE | dataC
  | wbD (shared : Bool) | cAck (shared : Bool) | ack | cmp (x : Bool)
deriving DecidableEq, Repr

/-- The virtual channels of the spine protocol (R29). -/
inductive VChan where
  | request | snoop | response | data
deriving DecidableEq, Repr

structure Msg where
  kind : MsgKind
  src : Nat
  dst : Nat
  line : Nat
  /-- the model's own number of the message, given as it is sent -/
  num : Nat := 0
  data : List Byte := []
  mask : List Bool := []
  /-- the group's mask of an Inv, as agent IDs; empty for an Inv sent to one member -/
  group : List Nat := []
deriving DecidableEq, Repr

/-- A directory entry (R260); the line is its key. -/
structure DEntry where
  st : DState
  /-- holders in S, as agent IDs (TMASK, CMASK, HBIT), and the Bellwether of each group -/
  sharers : List Nat := []
  bells : List Nat := []
  owner : Nat := 0
  act : DAct := .rdS
  req : Nat := 0
  /-- Acks awaited, as the agents they come from: PEND is their number -/
  awaited : List Nat := []
  /-- the data of a Wr that waits; the read held in SM_A -/
  data : List Byte := []
  mask : List Bool := []
  held : Option (List Byte) := none
  /-- groups under invalidation in SS_A -/
  busyGroups : List Nat := []
  /-- bits of the stored entry in error, as its ECC field shows at the next lookup: 0, 1 or 2 (R260, R278) -/
  flips : Nat := 0
deriving DecidableEq, Repr

/-- A stack access decided by a slice and not yet performed (R265, R268). -/
structure Access where
  line : Nat
  write : Bool
  data : List Byte
  mask : List Bool
  /-- the message owed when it completes -/
  owed : Option Msg
  /-- a write of the poison pattern (R277) -/
  poison : Bool := false
deriving DecidableEq, Repr

/-- A directory slice (10). -/
structure Slice where
  entries : Tab DEntry := []
  /-- lines of each set in use, least recently used first: key bank × 512 + set -/
  lru : Tab (List Nat) := []
  retry : List Msg := []
  accesses : List Access := []
  reqs : Nat := 0
  retried : Nat := 0
  evicts : Nat := 0
  bisnps : Nat := 0
  eccCorr : Nat := 0
deriving DecidableEq, Repr, Inhabited

/-- State of a line at an agent (R271). -/
inductive AState where
  | S | B | E | M | IS_D | II_D | IE_D | BI_P | EI_P | MI_P | II_C | II_S
deriving DecidableEq, Repr

/-- A line at an agent. -/
structure ALine where
  st : AState
  data : List Byte := []
  /-- a snoop held in IE_D: true for RclS -/
  held : Option Bool := none
deriving DecidableEq, Repr

/-- An Inv collection (R269). -/
structure Collect where
  line : Nat
  awaiting : List Nat
deriving DecidableEq, Repr

/-- A caching agent: tiles 0 to 63, engines 64 to 95 (R255, R256). -/
structure Agent where
  lines : Tab ALine := []
  /-- accesses that wait, oldest first: the line, and a store's bytes and mask (R271) -/
  parked : List (Nat × Option (List Byte × List Bool)) := []
  collects : List Collect := []
  loadsServed : Nat := 0
deriving DecidableEq, Repr, Inhabited

/-- Coherence, node-wide (10). -/
structure Coh where
  slices : Tab Slice := []
  agents : Tab Agent := []
  net : List Msg := []
  nextMsg : Nat := 0
  /-- messages that a draining die pair does not accept yet, oldest first (R31) -/
  held : List Msg := []
  /-- writes of tasks that go through the directory: task, agent and line (R257) -/
  taskWr : List (TaskId × Nat × Nat) := []
  en : Bool := false
  bisnpTmo : Nat := 0
  sel : Nat := 0
  reclaimValid : Bool := false
  reclaimStack : Nat := 0
  reclaimOffset : Nat := 0
  lost : Nat := 0
  lastDead : Nat := 0
  deadTiles : BitVec 64 := 0
  deadEngines : BitVec 32 := 0
  deadHost : Bool := false
  /-- agents declared dead whose sweep has not run, and whether a sweep is under way -/
  toSweep : List Nat := []
  sweeping : Bool := false
deriving DecidableEq, Repr, Inhabited

/-- State of a flash block (R296, R306, R311). -/
inductive BlkState where
  | free | openKindling | openFold | openGc | openCkpt | closed | toErase | erasing | retired
  /-- one of the two blocks of the anchor pages (R313) -/
  | anchor
deriving DecidableEq, Repr

/-- A block: all NPL planes with one offset (R285). -/
structure Block where
  st : BlkState := .free
  pslc : Bool := false
  native : Nat := 0
  pslcErases : Nat := 0
  reads : Nat := 0
  group : Nat := 0
  wp : Nat := 0
  openSeq : Nat := 0
  relocate : Bool := false
  retireWith : Option Nat := none
  summary : Bool := false
  disturbed : Nat := 0
  /-- reason of R307, once retired -/
  reason : Nat := 0
deriving DecidableEq, Repr, Inhabited

/-- A programmed sector with its tag (R299). -/
structure Sector where
  unit : Nat
  space : Nat
  kind : Nat
  seq : Nat
  data : List Host.Cell
deriving DecidableEq, Repr

/-- A journal record (R311). -/
inductive JRec where
  | map (space unit slot seq : Nat)
  | trim (space unit count seq : Nat)
  | block (blk event seq : Nat)
  | commit (space epoch slot seq : Nat)
  | ckpt (seq : Nat)
deriving DecidableEq, Repr

/-- A completed checkpoint (R313): the map, the blocks' table, the free order, the Ashpit, read levels, temperature. -/
structure Ckpt where
  seq : Nat
  map : Tab Nat
  blocks : Tab Block
  freeOrder : List Nat
  ashpit : List Nat
  levels : Tab (List (List (BitVec 8)))
  hist : Tab Nat
  maxFmt : Nat
deriving DecidableEq, Repr

/-- A margin plan (R447): its generation, GB, bin and MIN of the last window of each domain, PHY rate of each stack. -/
structure MarginPlan where
  gen : Nat := 0
  gb : Tab Nat := []
  bin : Tab Nat := []
  min : Tab Nat := []
  rates : Tab Nat := []
deriving DecidableEq, Repr, Inhabited

/-- What survives without power on a channel's targets (R466). -/
structure Media where
  formatted : Bool := false
  blocks : Tab Block := []
  sectors : Tab Sector := []
  journal : List JRec := []
  ckpt : Option Ckpt := none
  /-- read-only for the life of the media (R308) -/
  readOnly : Bool := false
  sanitizing : Bool := false
  /-- blocks marked bad at the factory (R285) -/
  factoryBad : List Nat := []
  /-- the margin plan written with the last checkpoint -/
  plan : Option MarginPlan := none
deriving DecidableEq, Repr, Inhabited

/-- What a page read is for. -/
inductive ReadFor where
  /-- units of a command or task: destination page or reference offset of each -/
  | io (owner : Owner)
  | walk (t : TaskId) (page : Nat)
  | bale (copy : Nat)
  | move
  | patrol
deriving DecidableEq, Repr

/-- An operation under way on a channel (R288, R300, R306). -/
structure FlashOp where
  num : Nat
  /-- 0 read, 1 program, 2 erase -/
  kind : Nat
  lun : Nat
  blk : Nat
  page : Nat := 0
  /-- read: the units wanted (space, unit, host address of the destination) and the ladder step -/
  units : List (Nat × Nat × Nat) := []
  step : Nat := 0
  purpose : ReadFor := .move
  /-- program: sectors and their owners -/
  sectors : List (Sector × Owner) := []
  cls : Nat := 1
deriving DecidableEq, Repr

/-- Copy of a block into a destination: a fold or a collection (R297, R304). -/
structure Move where
  fold : Bool
  lun : Nat
  src : Nat
  dst : Nat
  /-- units copied: space, unit, old slot, new slot, seq -/
  moved : List (Nat × Nat × Nat × Nat × Nat)
  left : List Nat
deriving DecidableEq, Repr

/-- A flash channel (11). -/
structure Chan where
  usable : Bool := false
  rebuilt : Bool := false
  rebuilding : Bool := false
  targets : List Nat := []
  media : Media := {}
  seq : Nat := 0
  /-- map entries by space × 2^40 + unit; absent is unmapped (R291) -/
  map : Tab Nat := []
  /-- SEQ of each unit's entry (R342) -/
  mapSeq : Tab Nat := []
  /-- old versions of index pages: unit key, the epoch from which a newer version is read, slot (R293) -/
  vers : List (Nat × Nat × Nat) := []
  freeOrder : List Nat := []
  nextLun : Nat := 0
  /-- units gathered for the next Kindling page (R294) -/
  page : List (Sector × Owner) := []
  ops : List FlashOp := []
  nextOp : Nat := 0
  jstage : List JRec := []
  /-- journal pages being programmed: the operation, and the records -/
  jpages : List (Nat × List JRec) := []
  moves : List Move := []
  /-- LUNs whose collection runs until GC_HIGH (R303) -/
  collecting : List Nat := []
  ckptBusy : Option (Nat × Nat) := none
  ashpit : List Nat := []
  levels : Tab (List (List (BitVec 8))) := []
  reads : Nat := 0
  programs : Nat := 0
  erases : Nat := 0
  retries : Nat := 0
  uncorr : Nat := 0
  progFail : Nat := 0
  eraseFail : Nat := 0
deriving DecidableEq, Repr, Inhabited

/-- A flash-resident index store (R289, R293, R316). -/
structure Store where
  space : Nat
  key : Nat
  desc : Desc
  create : List Byte
  /-- the last epoch whose COMMIT is durable, and its contents -/
  epoch : Nat
  snap : Snap
  open_ : Bool
  /-- the log position after that epoch's commit (R136) -/
  logPos : Nat := 0
deriving DecidableEq, Repr

/-- The flash translation layer, node-wide (11). -/
structure Ftl where
  chans : Tab Chan := []
  profiles : List Profile := []
  sel : Nat := 0
  histBin : Nat := 0
  kindlePct : Nat := 0
  gcLow : Nat := 0
  gcHigh : Nat := 0
  gcUrgent : Nat := 0
  ckpt : Nat := 0
  formatBlank : Bool := false
  mapDegraded : Bool := false
  /-- the namespace's channel list and size (R290, R471) -/
  nsChannels : List Nat := []
  nsBlocks : Nat := 0
  stores : List Store := []
  /-- map segments (channel, segment) of each stack; segments unloaded (R292) -/
  segs : Tab (List (Nat × Nat)) := []
  unloaded : List (Nat × Nat) := []
  /-- segments of a failed stack that are being rebuilt into another share; commands that need them wait (R292) -/
  reloading : List (Nat × Nat) := []
  /-- temperature by group: current, highest since format, since reset, halved; history (R318) -/
  temp : Tab Nat := []
  maxFmt : Tab Nat := []
  maxRst : Tab Nat := []
  slow : BitVec 4 := 0
  hist : Tab (Tab Nat) := []
deriving DecidableEq, Repr, Inhabited

/-- A DMA descriptor as fetched (R380). -/
structure Descr where
  idx : Nat
  src : Nat
  dst : Nat
  len : Nat
  flags : Nat
  tag : Nat
  /-- whether its reserved bytes are other than 0 (R390) -/
  resv : Bool := false
  fin : Bool := false
  status : Nat := 0
  bytes : Nat := 0
  /-- its data has moved, and its writes through the directory are awaited (R257) -/
  moved : Bool := false
deriving DecidableEq, Repr

/-- A DMA channel (14). -/
structure Dma where
  inService : Bool := false
  en : Bool := false
  mode : Bool := false
  ien : Bool := false
  vec : Nat := 0
  testing : Bool := false
  testWanted : Bool := false
  idle : Bool := true
  halted : Bool := false
  head : Nat := 0
  cqTail : Nat := 0
  phase : Bool := false
  rbase : W64 := 0
  cqbase : W64 := 0
  cqhead : Nat := 0
  descs : List Descr := []
  errAddr : W64 := 0
  errValid : Bool := false
  errWrite : Bool := false
  errKind : Nat := 0
  errTarget : Nat := 0
  errMulti : Bool := false
  errIndex : Nat := 0
  errPen : Nat := 0
  /-- ring index of the descriptor that halted the channel -/
  failIdx : Nat := 0
  /-- descriptors whose lines were in flight when it halted (R385) -/
  inFlight : List Nat := []
  done : Nat := 0
  mismatch : Nat := 0
  skipped : Nat := 0
deriving DecidableEq, Repr, Inhabited

/-- A flit's header fields (R394) and used payload. -/
structure Flit where
  seq : Nat
  kind : Nat
  ackSeq : Nat
  cred0 : Nat
  cred1 : Nat
  vc : Nat
  som : Bool
  eom : Bool
  len : Nat
  payload : List Byte
  crcOk : Bool
deriving DecidableEq, Repr

/-- A Flue port (15). -/
structure FPort where
  /-- 0 DOWN, 1 TRAINING, 2 QUALIFYING, 3 UP -/
  st : Nat := 0
  typ : Nat := 0
  drops : Nat := 0
  retries : Nat := 0
  corrSym : Nat := 0
  blockDrop : Nat := 0
  crcErr : Nat := 0
  /-- received flits not yet examined -/
  rx : List Flit := []
  expSeq : Nat := 0
  /-- RETRY_REQ sent for the expected SEQ already -/
  asked : Bool := false
  asm0 : List Byte := []
  asm1 : List Byte := []
  freed0 : Nat := 0
  freed1 : Nat := 0
  sendSeq : Nat := 0
  cred0 : Nat := 0
  cred1 : Nat := 0
  /-- flits waiting for credit or room, and flits sent and unacknowledged -/
  tx : List Flit := []
  unacked : List Flit := []
  lastAsk : Option Nat := none
  askCount : Nat := 0
  failedQual : Nat := 0
  blockCount : Nat := 0
  dead : Bool := false
deriving DecidableEq, Repr, Inhabited

/-- A peer context (15). -/
structure Ctx where
  /-- 0 CLOSED, 1 OPENING, 2 OPEN, 3 LOST -/
  st : Nat := 0
  pen : Nat := 0
  peer : Nat := 0
  pctx : Nat := 0
  cls : Nat := 0
  arrival : Option (Nat × Nat) := none
  landing : Option Nat := none
  /-- next MSEQ to send and next expected, VC 0 and 1 -/
  send0 : Nat := 0
  send1 : Nat := 0
  exp0 : Nat := 0
  exp1 : Nat := 0
  unacked0 : List FlueMsg := []
  unacked1 : List FlueMsg := []
  /-- waiting for OPEN or for room: messages without MSEQ -/
  waiting : List FlueMsg := []
  wait0 : Nat := 1
  wait1 : Nat := 1
deriving DecidableEq, Repr, Inhabited

/-- Flue, node-wide (15). -/
structure Flue where
  nodeId : Nat := 0
  peerTmo : Nat := 0
  rto : Nat := 0
  qual : Nat := 0
  mirrorMb : Nat := 0
  psel : Nat := 0
  csel : Nat := 0
  rsel : Nat := 0
  fwdDrop : Nat := 0
  reject : Nat := 0
  stale : Nat := 0
  ports : Tab FPort := []
  ctxs : Tab Ctx := []
  routes : Tab Nat := []
  /-- messages assembled and not yet handled; messages waiting for a port -/
  inbox : List FlueMsg := []
  outbox : List FlueMsg := []
  /-- forward pool: messages for other nodes -/
  pool : List FlueMsg := []
  nextCorr : Nat := 0
  /-- PUT_DONEs whose arrival record has just been written: context, tag and status (R404) -/
  owed : List (Nat × Nat × Nat) := []
deriving DecidableEq, Repr, Inhabited

/-- An event record (R448). -/
structure Event where
  seq : Nat
  cls : Nat
  kind : Nat
  unit : Nat
  code : BitVec 16
  score : Nat
  /-- LOCAL: the source domain's cycle count, a free value here (log 1) -/
  loc : W32
  data0 : W64
  data1 : W64
deriving DecidableEq, Repr

/-- Health and margins (17). -/
structure Health where
  /-- 0 normal, 1 degraded, 2 fenced -/
  st : Nat := 0
  cause : Nat := 0
  drained : Bool := false
  nodeScore : Nat := 0
  events : Nat := 0
  log : List Event := []
  msel : Nat := 0
  gb : Tab Nat := []
  bin : Tab Nat := []
  minSlack : Tab Nat := []
  raises : Tab Nat := []
  gen : Nat := 0
  /-- scores by position in the table of R449 (0 to 127) -/
  scores : Tab Nat := []
deriving DecidableEq, Repr, Inhabited

/-- A recording record (R451). -/
structure TRec where
  kind : Nat
  stream : Nat
  sseq : Nat
  body : List Byte
deriving DecidableEq, Repr

/-- Recording and replay (17). -/
structure Trace where
  rec_ : Bool := false
  full : Bool := false
  out_ : Bool := false
  go : Bool := false
  replay : Bool := false
  log : Nat := 0
  addr : Nat := 0
  rprod : Nat := 0
  rcons : Nat := 0
  recording : Bool := false
  broken : Bool := false
  diverged : Bool := false
  hostmem : Nat := 0
  divergeOff : Nat := 0
  /-- records in the head buffer, oldest first, and its size in bytes -/
  headBuf : List TRec := []
  headMax : Nat := 0
  sseq : Tab Nat := []
  /-- replay: records supplied and consumed, in order -/
  supplied : List TRec := []
  /-- decisions the Drover has taken (R452, R455) -/
  decisions : Nat := 0
  /-- replay: flash data supplied, by space × 2^40 + unit; an entry with no cells list is MEDIA_ERROR -/
  flash : Tab (Option (List Host.Cell)) := []
  /-- replay: offset in the ring of each OUT record supplied and not yet matched: stream, offset, body -/
  outs : List (Nat × Nat × List Byte) := []
  /-- replay: bytes of an arriving message whose further records are still to come (R451) -/
  arriving : List Byte := []
  /-- full of records under FULL 0: fetch and issue stall (R450) -/
  stalled : Bool := false
  /-- a command has been fetched or a context opened since readiness (R454) -/
  touched : Bool := false
deriving DecidableEq, Repr, Inhabited

/-- An SPDM response (R429 to R432). -/
inductive SpdmResp where
  | version
  | capabilities
  | algorithms (agreed : Bool)
  | digests (slot0 : List Byte)
  | certificate (bytes : List Byte)
  | challengeAuth (signature : List Byte)
  /-- blocks: index, value; signature -/
  | measurements (blocks : List (Nat × List Byte)) (signature : Option (List Byte))
  | keyExchangeRsp (signature : List Byte)
  | finishRsp
  | endSessionAck
  /-- 0 UnspecifiedError, 1 UnsupportedRequest, 2 InvalidRequest -/
  | error (code : Nat)
deriving DecidableEq, Repr

/-- What the node sends outside. -/
inductive Out where
  /-- an MSI-X message of a node vector (R362) -/
  | msix (vector : Nat)
  | spdm (r : SpdmResp)
  /-- a flit on a port (R394) -/
  | flit (port : Nat) (f : Flit)
  /-- CXL.mem data to the host: line, bytes, poison; grant 0 none, 1 S, 2 E -/
  | memData (line : Nat) (data : List Byte) (poison : Bool) (grant : Nat)
  | memCmp (line : Nat)
  | biConflictAck (line : Nat)
  /-- BISnpInv (false) or BISnpData (true) -/
  | biSnp (line : Nat) (data : Bool)
  /-- answer to an H2D snoop: 0 RspIHitSE, 1 RspIHitI, 2 RspSHitSE, 3 RspVHitV -/
  | snpRsp (line code : Nat)
  /-- CleanEvictNoData of the host line cache -/
  | cleanEvict (line : Nat)
  /-- a trace event of a DMA channel in event-pulse mode: channel, ring index -/
  | pulse (channel index : Nat)
deriving DecidableEq, Repr

/-- The node. -/
structure State where
  /-- commands that wait, first in first out -/
  pending : List Instr := []
  out : List Out := []
  /-- free values drawn so far (the model's own; log 1) -/
  nfree : Nat := 0
  power : Power := {}
  boot : Boot := {}
  cfgFlash : Tab Mem := []
  topo : Topo := {}
  quads : Tab Quad := []
  tiles : Tab Tile := []
  stks : Tab Stack := []
  stackSel : Nat := 0
  nbuSel : Nat := 0
  /-- stack memory by device physical address, and its poisoned lines -/
  mem : Mem := {}
  poison : List Nat := []
  /-- tile SRAM working space by tile × 2^32 + byte -/
  sram : Mem := {}
  hostMem : Mem := {}
  pens : Tab Pen := []
  penSel : Nat := 0
  bselClass : Nat := 0
  bselRes : Nat := 0
  vsel : Nat := 0
  vecs : Tab Vec := []
  port : Port := {}
  drover : Drover := {}
  migs : List Migration := []
  coh : Coh := {}
  ftl : Ftl := {}
  dma : Tab Dma := []
  flue : Flue := {}
  health : Health := {}
  trace : Trace := {}
deriving DecidableEq, Repr, Inhabited

/-- The node right after reset, before input power is applied: every register at the value its table gives, nothing
running, no command waiting. HUB domains switch on with TURN_ON (R465). -/
def State.reset : State := {}

end Sys2Proof.Machine
end

