-- ==== Sys2Proof/Machine/Tab.lean ====
section
/-!
DEFINITION. Operations on the tables of Word (keys in strictly rising order) and on lists: structural recursion throughout,
so that Lean's kernel evaluates them.
-/

namespace Sys2Proof.Machine

variable {α β : Type}

/-- The entry of a key. -/
def tget? (t : Tab α) (k : Nat) : Option α :=
  match t with
  | [] => none
  | (j, v) :: r => if j = k then some v else tget? r k

/-- The entry of a key, or the default value. -/
def tgetD (t : Tab α) (k : Nat) (d : α) : α := (tget? t k).getD d

/-- The entry of a key, or the type's default. -/
def tget [Inhabited α] (t : Tab α) (k : Nat) : α := (tget? t k).getD default

/-- Whether a key has an entry. -/
def thas (t : Tab α) (k : Nat) : Bool := (tget? t k).isSome

/-- The table with a key's entry replaced, or inserted in key order. -/
def tput (t : Tab α) (k : Nat) (v : α) : Tab α :=
  match t with
  | [] => [(k, v)]
  | (j, w) :: r =>
    if k < j then (k, v) :: (j, w) :: r
    else if k = j then (k, v) :: r
    else (j, w) :: tput r k v

/-- The table without a key's entry. -/
def tdel (t : Tab α) (k : Nat) : Tab α :=
  match t with
  | [] => []
  | (j, w) :: r => if j = k then r else (j, w) :: tdel r k

/-- The table with a key's entry (or the default where it has none) changed by f. -/
def tmod [Inhabited α] (t : Tab α) (k : Nat) (f : α → α) : Tab α := tput t k (f (tget t k))

/-- The table with f applied to a key's entry, if it has one. -/
def tupd (t : Tab α) (k : Nat) (f : α → α) : Tab α :=
  match t with
  | [] => []
  | (j, w) :: r => if j = k then (j, f w) :: r else (j, w) :: tupd r k f

/-- Every entry changed by f, which sees its key. -/
def tmap (t : Tab α) (f : Nat → α → β) : Tab β := t.map fun e => (e.1, f e.1 e.2)

/-- The entries that satisfy p. -/
def tfilter (t : Tab α) (p : Nat → α → Bool) : Tab α := t.filter fun e => p e.1 e.2

/-- The keys in order. -/
def tkeys (t : Tab α) : List Nat := t.map fun e => e.1

/-- A list with one element appended when it is not yet there. -/
def addNew [DecidableEq α] (l : List α) (x : α) : List α := if x ∈ l then l else l ++ [x]

/-- A list without an element. -/
def without [DecidableEq α] (l : List α) (x : α) : List α := l.filter fun y => decide (y ≠ x)

/-- The first of the elements that f orders lowest. -/
def argMin (f : α → Nat) (l : List α) : Option α :=
  l.foldl (fun b x => match b with
    | none => some x
    | some y => if f x < f y then some x else some y) none

/-- The sum of f over a list. -/
def sumBy (f : α → Nat) (l : List α) : Nat := l.foldl (fun n x => n + f x) 0

/-- A list cut into pieces of n elements, by fuel. -/
def chunksGo (fuel n : Nat) (l : List α) : List (List α) :=
  match fuel with
  | 0 => []
  | f + 1 => match l with
    | [] => []
    | _ => l.take n :: chunksGo f n (l.drop n)

/-- A list cut into pieces of n elements; the last piece may be shorter. -/
def chunks (n : Nat) (l : List α) : List (List α) := chunksGo l.length n l

/-- Insertion into a list sorted by lt, after the elements that are not above it. -/
def insSorted (lt : α → α → Bool) (x : α) : List α → List α
  | [] => [x]
  | y :: r => if lt x y then x :: y :: r else y :: insSorted lt x r

/-- A list sorted by lt; equal elements keep their order. -/
def sortBy (lt : α → α → Bool) (l : List α) : List α := l.foldl (fun acc x => insSorted lt x acc) []

/-- The element at a position, or a default. -/
def nth (l : List α) (i : Nat) (d : α) : α := (l[i]?).getD d

/-- The list with the element at a position replaced. -/
def setAt (l : List α) (i : Nat) (v : α) : List α := l.set i v

/-- Iteration: f applied n times. -/
def iter (n : Nat) (f : α → α) (x : α) : α :=
  match n with
  | 0 => x
  | k + 1 => iter k f (f x)

/-- A register count that stops at its largest value of w bits. -/
def satAdd (w a b : Nat) : Nat := min (a + b) (2 ^ w - 1)

/-- A register count of w bits that wraps to 0. -/
def wrapAdd (w a b : Nat) : Nat := (a + b) % 2 ^ w

/-- The quotient rounded up. -/
def ceilDiv (a b : Nat) : Nat := if b = 0 then 0 else (a + b - 1) / b

end Sys2Proof.Machine
end

