-- ==== Sys2Proof/Machine/Bytes.lean ====
section
/-!
DEFINITION. Little-endian structures (R8), bit fields of words, and byte memory in its canonical form: cells in strictly
rising address order, no zero byte. Every access to memory goes through the operations of this file.
-/

namespace Sys2Proof.Machine

/-- The n bytes of a value, least significant first (R8). -/
def le : Nat → Nat → List Byte
  | 0, _ => []
  | n + 1, v => BitVec.ofNat 8 v :: le n (v / 256)

/-- The value of bytes, least significant first. -/
def ofLe : List Byte → Nat
  | [] => 0
  | b :: r => b.toNat + 256 * ofLe r

/-- The bit field [lo + w - 1 : lo]. -/
def bits (v lo w : Nat) : Nat := v / 2 ^ lo % 2 ^ w

/-- Bit i. -/
def bit (v i : Nat) : Bool := bits v i 1 = 1

/-- A field's value at its place in a word, cut to its width. -/
def fld (v lo w : Nat) : Nat := v % 2 ^ w * 2 ^ lo

/-- 1 for true. -/
def b2n (b : Bool) : Nat := if b then 1 else 0

/-- A w-bit field read as two's complement. -/
def sext (w v : Nat) : Int := if v % 2 ^ w < 2 ^ (w - 1) then (v % 2 ^ w : Nat) else (v % 2 ^ w : Nat) - (2 ^ w : Nat)

/-- An integer cut to w bits, two's complement. -/
def ofInt (w : Nat) (i : Int) : Nat := (i % (2 ^ w : Nat)).toNat

/-- Bytes at an offset of a structure; beyond its end they read as 0. -/
def sub (bs : List Byte) (off n : Nat) : List Byte :=
  let x := (bs.drop off).take n
  x ++ List.replicate (n - x.length) 0

/-- The field of n bytes at an offset of a structure. -/
def fieldAt (bs : List Byte) (off n : Nat) : Nat := ofLe (sub bs off n)

/-- A structure with bytes replaced from an offset on. -/
def patch (bs : List Byte) (off : Nat) (new : List Byte) : List Byte :=
  sub bs 0 off ++ new ++ bs.drop (off + new.length)

/-- A string's bytes (R8: ASCII). -/
def ascii (s : String) : List Byte := s.toList.map fun c => BitVec.ofNat 8 c.toNat

/-- Whether every byte is 0: a reserved field. -/
def allZero (bs : List Byte) : Bool := bs.all fun b => b = 0

/-- Bytes wrapped from their string of Booleans, eight to a byte, lowest first. -/
def ofBools (l : List Bool) : Nat := match l with
  | [] => 0
  | b :: r => b2n b + 2 * ofBools r

/-- Cells in canonical form: addresses strictly rising, no zero byte. -/
abbrev CellsOk (c : List Host.Cell) : Prop := c.Pairwise (fun x y => x.1 < y.1) ∧ ∀ x ∈ c, x.2 ≠ 0

/-- A memory's canonical form. -/
abbrev Mem.wf (m : Mem) : Prop := CellsOk m.cells

/-- The byte of a list of cells at an address. -/
def cellAt (c : List Host.Cell) (a : Nat) : Byte := (tget? c a).getD 0

/-- Cells with one byte set. -/
def setCell (c : List Host.Cell) (a : Nat) (b : Byte) : List Host.Cell :=
  match c with
  | [] => if b = 0 then [] else [(a, b)]
  | (j, w) :: r =>
    if a < j then (if b = 0 then (j, w) :: r else (a, b) :: (j, w) :: r)
    else if a = j then (if b = 0 then r else (a, b) :: r)
    else (j, w) :: setCell r a b

/-- The same as a Boolean run along the list, from a lowest allowed address on. -/
def cellsOkFrom (lo : Nat) : List Host.Cell → Bool
  | [] => true
  | x :: r => decide (lo ≤ x.1) && (x.2 != 0) && cellsOkFrom (x.1 + 1) r

/-- Cells brought into canonical form; a later byte of one address replaces an earlier one. -/
def canonCells (c : List Host.Cell) : List Host.Cell :=
  if cellsOkFrom 0 c then c else c.foldl (fun acc x => setCell acc x.1 x.2) []

/-- The cells of a list of bytes whose first has an offset. -/
def cellsOf (off : Nat) : List Byte → List Host.Cell
  | [] => []
  | b :: r => if b = 0 then cellsOf (off + 1) r else (off, b) :: cellsOf (off + 1) r

/-- The n bytes that cells with offsets from 0 spell. -/
def bytesOf (n : Nat) (c : List Host.Cell) : List Byte := (List.range n).map (cellAt c)

/-- A range (start, length, tag) of undefined bytes less the range [a, a + n). -/
def cutRange (a n : Nat) (u : Nat × Nat × Nat) : List (Nat × Nat × Nat) :=
  if u.1 + u.2.1 ≤ a ∨ a + n ≤ u.1 then [u]
  else
    (if u.1 < a then [(u.1, a - u.1, u.2.2)] else []) ++
    (if a + n < u.1 + u.2.1 then [(a + n, u.1 + u.2.1 - (a + n), u.2.2)] else [])

/-- The undefined range that holds an address. -/
def undefAt (u : List (Nat × Nat × Nat)) (a : Nat) : Option (Nat × Nat × Nat) :=
  u.find? fun r => decide (r.1 ≤ a ∧ a < r.1 + r.2.1)

/-- One byte of memory: a free value where the spec leaves the contents undefined (log 1), else its cell, else 0 (log 4). -/
def Mem.byte (m : Mem) (a : Nat) : Byte :=
  match undefAt m.undef a with
  | some r => Config.freeByte r.2.2 a
  | none => cellAt m.cells a

/-- n bytes of memory from an address on. -/
def Mem.read (m : Mem) (a n : Nat) : List Byte := (List.range n).map fun i => m.byte (a + i)

/-- A little-endian value of n bytes. -/
def Mem.readN (m : Mem) (a n : Nat) : Nat := ofLe (m.read a n)

/-- The range [a, a + n) as cells with offsets from a. -/
def Mem.slice (m : Mem) (a n : Nat) : List Host.Cell :=
  let base := (m.cells.filter fun c => decide (a ≤ c.1 ∧ c.1 < a + n)).map fun c => (c.1 - a, c.2)
  let lost := m.undef.flatMap fun u =>
    (List.range u.2.1).filterMap fun i =>
      if a ≤ u.1 + i ∧ u.1 + i < a + n then some (u.1 + i - a, Config.freeByte u.2.2 (u.1 + i)) else none
  if lost.isEmpty then base else lost.foldl (fun acc x => setCell acc x.1 x.2) base

/-- The range [a, a + n) replaced by cells with offsets from a; those at n and beyond are dropped. -/
def Mem.paste (m : Mem) (a n : Nat) (c : List Host.Cell) : Mem :=
  { cells := m.cells.filter (fun x => decide (x.1 < a)) ++
      ((canonCells c).filter (fun x => decide (x.1 < n))).map (fun x => (a + x.1, x.2)) ++
      m.cells.filter (fun x => decide (a + n ≤ x.1))
    undef := m.undef.flatMap (cutRange a n) }

/-- Bytes written from an address on. -/
def Mem.write (m : Mem) (a : Nat) (bs : List Byte) : Mem := m.paste a bs.length (cellsOf 0 bs)

/-- n zero bytes written from an address on. -/
def Mem.zero (m : Mem) (a n : Nat) : Mem := m.paste a n []

/-- One byte written. -/
def Mem.set (m : Mem) (a : Nat) (b : Byte) : Mem := m.write a [b]

/-- Single bytes written, in order. -/
def Mem.sets (m : Mem) (l : List (Nat × Byte)) : Mem := l.foldl (fun m x => m.set x.1 x.2) m

/-- The bytes of a mask written: where the mask is true, the byte of the data. -/
def Mem.writeMask (m : Mem) (a : Nat) (bs : List Byte) (mask : List Bool) : Mem :=
  m.write a (((m.read a bs.length).zip (bs.zip mask)).map fun x => if x.2.2 then x.2.1 else x.1)

/-- n bytes made undefined: they read as free values of a tag (log 1). -/
def Mem.smudge (m : Mem) (a n tag : Nat) : Mem :=
  if n = 0 then m else { m.zero a n with undef := (m.undef.flatMap (cutRange a n)) ++ [(a, n, tag)] }

end Sys2Proof.Machine
end

