-- ==== Sys2Proof/Machine/Float.lean ====
section
/-!
DEFINITION. The float formats of R187 as exact values, the one rounding of the node (to nearest, ties to even: R162, R200),
fp32 arithmetic, and the fixed order of sums (R99, R160, R161).
-/

namespace Sys2Proof.Machine

/-- The value of a float: a NaN, an infinity, or (−1)^neg × m × 2^e. -/
inductive Fl where
  | nan
  | inf (neg : Bool)
  | fin (neg : Bool) (m : Nat) (e : Int)
deriving DecidableEq, Repr

/-- A float layout of R187: significant bits, exponent of the smallest subnormal, largest finite magnitude code, whether
the format has infinities, its infinity's code, its canonical NaN (R188), and the sign bit's place. -/
structure FFmt where
  p : Nat
  emin : Int
  maxCode : Nat
  hasInf : Bool
  infCode : Nat
  nan : Nat
  sign : Nat
deriving DecidableEq, Repr

/-- E4M3 (R187). -/
def fE4M3 : FFmt := { p := 4, emin := -9, maxCode := 0x7E, hasInf := false, infCode := 0x7E, nan := 0x7F, sign := 7 }
/-- E5M2 (R187). -/
def fE5M2 : FFmt := { p := 3, emin := -16, maxCode := 0x7B, hasInf := true, infCode := 0x7C, nan := 0x7E, sign := 7 }
/-- bf16 (R187). -/
def fBf16 : FFmt := { p := 8, emin := -133, maxCode := 0x7F7F, hasInf := true, infCode := 0x7F80, nan := 0x7FC0, sign := 15 }
/-- fp32 (R187). -/
def fFp32 : FFmt :=
  { p := 24, emin := -149, maxCode := 0x7F7FFFFF, hasInf := true, infCode := 0x7F800000, nan := 0x7FC00000, sign := 31 }

/-- The value of a code (R187). -/
def FFmt.decode (f : FFmt) (v : Nat) : Fl :=
  let neg := bit v f.sign
  let mag := v % 2 ^ f.sign
  if f.maxCode < mag then (if f.hasInf && mag == f.infCode then .inf neg else .nan)
  else
    let ex := mag / 2 ^ (f.p - 1)
    let fr := mag % 2 ^ (f.p - 1)
    if ex = 0 then .fin neg fr f.emin else .fin neg (2 ^ (f.p - 1) + fr) (f.emin + (ex : Int) - 1)

/-- m × 2^e rounded to p significant bits above the exponent emin, ties to even: a mantissa of at most 2^p and its
exponent. -/
def roundMag (p : Nat) (emin : Int) (m : Nat) (e : Int) : Nat × Int :=
  if m = 0 then (0, emin)
  else
    let t : Int := max (e + (Nat.log2 m + 1 : Nat) - (p : Int)) emin
    if t ≤ e then (m * 2 ^ (e - t).toNat, t)
    else
      let sh := (t - e).toNat
      let q := m / 2 ^ sh
      let r := m % 2 ^ sh
      let half := 2 ^ (sh - 1)
      (if half < r ∨ (r = half ∧ q % 2 = 1) then q + 1 else q, t)

/-- The magnitude code of a rounded mantissa and exponent. -/
def FFmt.magCode (f : FFmt) (m : Nat) (e : Int) : Nat :=
  if m < 2 ^ (f.p - 1) then m
  else m - 2 ^ (f.p - 1) + (e - f.emin + 1).toNat * 2 ^ (f.p - 1)

/-- Conversion of a value to a format (R201). bf16 and fp32 overflow to infinity; E5M2 and E4M3 saturate a finite result;
E4M3 saturates infinities too. -/
def FFmt.encode (f : FFmt) (satFinite : Bool) (x : Fl) : Nat :=
  match x with
  | .nan => f.nan
  | .inf neg => b2n neg * 2 ^ f.sign + f.infCode
  | .fin neg m e =>
    let r := roundMag f.p f.emin m e
    let c := f.magCode r.1 r.2
    b2n neg * 2 ^ f.sign + (if f.maxCode < c then (if satFinite then f.maxCode else f.infCode) else c)

/-- The value of an fp32 word. -/
def flOf (a : W32) : Fl := fFp32.decode a.toNat

/-- A value rounded to fp32; every NaN is 0x7FC0_0000 (R162, R188). -/
def toF32 (x : Fl) : W32 := BitVec.ofNat 32 (fFp32.encode false x)

/-- m × 2^e of a common exponent. -/
def signedAt (neg : Bool) (m : Nat) (e lo : Int) : Int :=
  let v : Int := (m * 2 ^ (e - lo).toNat : Nat)
  if neg then -v else v

/-- The exact sum of two values (IEEE 754: a zero sum of opposite signs is +0). -/
def flAdd (a b : Fl) : Fl :=
  match a, b with
  | .nan, _ => .nan
  | _, .nan => .nan
  | .inf s, .inf t => if s = t then .inf s else .nan
  | .inf s, _ => .inf s
  | _, .inf t => .inf t
  | .fin s m e, .fin t n f =>
    let lo := min e f
    let v := signedAt s m e lo + signedAt t n f lo
    if v = 0 then .fin (s && t) 0 lo else .fin (decide (v < 0)) v.natAbs lo

/-- The exact product of two values. -/
def flMul (a b : Fl) : Fl :=
  match a, b with
  | .nan, _ => .nan
  | _, .nan => .nan
  | .inf s, .inf t => .inf (s != t)
  | .inf s, .fin t n _ => if n = 0 then .nan else .inf (s != t)
  | .fin s m _, .inf t => if m = 0 then .nan else .inf (s != t)
  | .fin s m e, .fin t n f => .fin (s != t) (m * n) (e + f)

/-- The quotient of two values with a sticky bit below every rounding place. -/
def flDiv (a b : Fl) : Fl :=
  match a, b with
  | .nan, _ => .nan
  | _, .nan => .nan
  | .inf _, .inf _ => .nan
  | .inf s, .fin t _ _ => .inf (s != t)
  | .fin s _ _, .inf t => .fin (s != t) 0 0
  | .fin s m e, .fin t n f =>
    if n = 0 then (if m = 0 then .nan else .inf (s != t))
    else
      let sh := 64 + Nat.log2 n
      let x := m * 2 ^ sh
      .fin (s != t) (2 * (x / n) + (if x % n = 0 then 0 else 1)) (e - f - (sh : Int) - 1)

/-- The integer square root, bit by bit from bit k down. -/
def isqrtGo (n : Nat) : Nat → Nat → Nat
  | 0, r => r
  | k + 1, r => let c := r + 2 ^ k; isqrtGo n k (if c * c ≤ n then c else r)

/-- The largest r with r × r ≤ n. -/
def isqrt (n : Nat) : Nat := isqrtGo n (Nat.log2 n / 2 + 1) 0

/-- The square root of a value with a sticky bit. -/
def flSqrt (a : Fl) : Fl :=
  match a with
  | .nan => .nan
  | .inf s => if s then .nan else .inf false
  | .fin s m e =>
    if m = 0 then .fin s 0 0
    else if s then .nan
    else
      let sh : Nat := if e % 2 = 0 then 64 else 65
      let x := m * 2 ^ sh
      let r := isqrt x
      .fin false (2 * r + (if r * r = x then 0 else 1)) ((e - (sh : Int)) / 2 - 1)

/-- fp32 addition, rounded to nearest even (R162). -/
def f32Add (a b : W32) : W32 := toF32 (flAdd (flOf a) (flOf b))
/-- fp32 multiplication (R157). -/
def f32Mul (a b : W32) : W32 := toF32 (flMul (flOf a) (flOf b))
/-- The sign changed; a NaN becomes the canonical one. -/
def f32Neg (a : W32) : W32 :=
  match flOf a with
  | .nan => 0x7FC00000
  | _ => a ^^^ 0x80000000
/-- fp32 subtraction. -/
def f32Sub (a b : W32) : W32 := f32Add a (f32Neg b)
/-- fp32 division, correctly rounded (R208). -/
def f32Div (a b : W32) : W32 := toF32 (flDiv (flOf a) (flOf b))
/-- fp32 square root, correctly rounded (R208). -/
def f32Sqrt (a : W32) : W32 := toF32 (flSqrt (flOf a))
/-- t × 2^s in one fp32 operation (R196). -/
def f32Scale (a : W32) (s : Int) : W32 :=
  match flOf a with
  | .fin n m e => toF32 (.fin n m (e + s))
  | _ => a
/-- An integer rounded to fp32 (R200). -/
def f32OfInt (i : Int) : W32 := toF32 (.fin (decide (i < 0)) i.natAbs 0)
/-- Whether a word is a NaN. -/
def f32IsNan (a : W32) : Bool := match flOf a with
  | .nan => true
  | _ => false

/-- The exact order of two values that are not NaN; −0 equals +0. -/
def flLt (a b : Fl) : Bool :=
  match a, b with
  | .nan, _ => false
  | _, .nan => false
  | .inf s, .inf t => s && !t
  | .inf s, _ => s
  | _, .inf t => !t
  | .fin s m e, .fin t n f => decide (signedAt s m e (min e f) < signedAt t n f (min e f))

/-- a < b in fp32. -/
def f32Lt (a b : W32) : Bool := flLt (flOf a) (flOf b)

/-- A finite value rounded to an integer, ties to even (R201). -/
def roundInt (neg : Bool) (m : Nat) (e : Int) : Int :=
  let v : Nat :=
    if 0 ≤ e then m * 2 ^ e.toNat
    else
      let sh := (-e).toNat
      let q := m / 2 ^ sh
      let r := m % 2 ^ sh
      if 2 ^ sh < 2 * r ∨ (2 * r = 2 ^ sh ∧ q % 2 = 1) then q + 1 else q
  if neg then -(v : Int) else v

/-- An integer saturated to a range. -/
def clamp (lo hi v : Int) : Int := max lo (min hi v)

/-- The integer rows of R201: round(v) + zero point, saturated; an infinity saturates, a NaN gives the zero point. -/
def toIntFmt (lo hi zp : Int) (x : Fl) : Int :=
  match x with
  | .nan => clamp lo hi zp
  | .inf neg => if neg then lo else hi
  | .fin s m e => clamp lo hi (roundInt s m e + zp)

/-- One level of a tree: adjacent entries added, an absent input passing the other (R161). -/
def treeLevel {α : Type} (add : α → α → α) : List (Option α) → List (Option α)
  | [] => []
  | [a] => [a]
  | a :: b :: r =>
    (match a, b with
      | some x, some y => some (add x y)
      | some x, none => some x
      | none, y => y) :: treeLevel add r

/-- The fixed pairwise tree over 32 lanes (R160, R161): five levels. -/
def treeSum {α : Type} (add : α → α → α) (l : List (Option α)) : Option α :=
  (iter 5 (treeLevel add) l).headD none

/-- The sum of R99: blocks of 32 by increasing index, each a tree, block sums in block order. -/
def sumOrdered (l : List W32) : W32 :=
  let blocks := (chunks 32 l).map fun b => (treeSum f32Add (b.map some)).getD 0
  match blocks with
  | [] => 0
  | b :: r => r.foldl f32Add b

end Sys2Proof.Machine
end

