-- ==== Sys2Proof/Machine/Formats.lean ====
section
/-!
DEFINITION. Number formats and quantisation (07): format codes, element decoding, the quantisation block, group scales, zero
points and output conversion.
-/

namespace Sys2Proof.Machine

/-- Bytes per element of a format code (R184); the 4-bit codes have none of their own. -/
def fmtBytes (c : Nat) : Nat := if c = 0x0A then 2 else if c = 0x0B ∨ c = 0x0C then 4 else 1

/-- The float layout of a code, when it is a float. -/
def fmtFloat (c : Nat) : Option FFmt :=
  if c = 0x08 then some fE4M3 else if c = 0x09 then some fE5M2 else if c = 0x0A then some fBf16
  else if c = 0x0B then some fFp32 else none

/-- An element's value as an integer: int8, uint8 or int32 (R186). -/
def fmtInt (c v : Nat) : Int := if c = 0x00 then sext 8 v else if c = 0x0C then sext 32 v else (v : Int)

/-- An element widened to fp32 (R188, R207): floats exactly, integers rounded. -/
def fmtF32 (c v : Nat) : W32 := match fmtFloat c with
  | some f => toF32 (f.decode v)
  | none => f32OfInt (fmtInt c v)

/-- The conversion of an fp32 value to an output format (R201), as the format's code word. -/
def outConvert (fmt : Nat) (zp : Int) (v : W32) : Nat :=
  match fmt with
  | 0x00 => ofInt 8 (toIntFmt (-128) 127 zp (flOf v))
  | 0x01 => ofInt 8 (toIntFmt 0 255 zp (flOf v))
  | 0x0C => ofInt 32 (toIntFmt (-2147483648) 2147483647 zp (flOf v))
  | 0x08 => (match flOf v with
      | .inf n => b2n n * 128 + 0x7E
      | x => fE4M3.encode true x)
  | 0x09 => fE5M2.encode true (flOf v)
  | 0x0A => fBf16.encode false (flOf v)
  | _ => fFp32.encode false (flOf v)

/-- The cell modes of R156. -/
inductive Mode where
  | i8 | i4 | f8 | bf | f32
deriving DecidableEq, Repr

/-- Register code of a mode (TLn_ARR_STAT.MODE). -/
def Mode.code : Mode → Nat
  | .i8 => 0 | .i4 => 1 | .f8 => 2 | .bf => 3 | .f32 => 4
def Mode.isInt : Mode → Bool
  | .i8 => true
  | .i4 => true
  | _ => false
/-- r of R156: tile cycles per MAC. -/
def Mode.r : Mode → Nat
  | .bf => 4
  | .f32 => 16
  | _ => 1
/-- T_w of R159. -/
def Mode.tw : Mode → Nat
  | .bf => 32
  | .f32 => 64
  | _ => 16
/-- Lanes per pass of R156. -/
def Mode.lanes : Mode → Nat
  | .i4 => 64
  | _ => 32

/-- The cell mode of a pair of codes (R185, R156); none: the pair is not supported. -/
def modeOf (afmt wfmt cbfmt : Nat) : Option Mode :=
  let w := if wfmt = 0x04 then cbfmt else wfmt
  if afmt = 0x00 ∨ afmt = 0x01 then
    (if w = 0x00 then some .i8 else if w = 0x02 ∨ w = 0x03 then some .i4 else none)
  else if (afmt = 0x08 ∨ afmt = 0x09) ∧ (w = 0x08 ∨ w = 0x09) then some .f8
  else if afmt = 0x0A ∧ w = 0x0A then some .bf
  else if afmt = 0x0B ∧ w = 0x0B then some .f32
  else none

/-- The quantisation block's header (R189). -/
structure Quant where
  group : Nat := 0
  wscale : Nat := 0
  cbMode : Nat := 0
  cbFmt : Nat := 0
  zpMode : Nat := 0
  oscaleMode : Nat := 0
  zp : Nat := 0
  outZp : Int := 0
  oscale : W32 := 0
  wscaleOff : Nat := 0
  cbOff : Nat := 0
  zpOff : Nat := 0
  oscaleOff : Nat := 0
  version : Nat := 1
  reserved : Bool := false
deriving DecidableEq, Repr

def quantOf (b : List Byte) : Quant :=
  { version := fieldAt b 0 2, group := fieldAt b 2 1, wscale := fieldAt b 3 1, cbMode := fieldAt b 4 1, cbFmt := fieldAt b 5 1
    zpMode := fieldAt b 6 1, oscaleMode := fieldAt b 7 1, zp := fieldAt b 8 1, outZp := sext 16 (fieldAt b 10 2)
    oscale := BitVec.ofNat 32 (fieldAt b 12 4), wscaleOff := fieldAt b 16 4, cbOff := fieldAt b 20 4, zpOff := fieldAt b 24 4
    oscaleOff := fieldAt b 28 4, reserved := fieldAt b 9 1 != 0 || !allZero (sub b 32 32) }

/-- Lanes of a quantisation group; 0 spans all of K. -/
def groupLanes (q : Quant) (k : Nat) : Nat :=
  if q.group = 1 then 32 else if q.group = 2 then 64 else if q.group = 3 then 128 else max k 1
/-- NG of R190. -/
def groupCount (q : Quant) (k : Nat) : Nat := if q.group = 0 then 1 else ceilDiv k (groupLanes q k)

/-- Bytes of the codebook array (R190). -/
def codebookBytes (q : Quant) (n k : Nat) : Nat :=
  let ng := groupCount q k
  let e := fmtBytes q.cbFmt
  if q.cbMode = 1 then ng * n * 16 * e else if q.cbMode = 2 then ng * 16 * e else if q.cbMode = 3 then ng * 256 * e else 0

/-- The arrays that a block holds: offset and bytes (R190). -/
def quantArrays (q : Quant) (m n k : Nat) : List (Nat × Nat) :=
  (if q.wscale = 0 then [] else [(q.wscaleOff, groupCount q k * n)]) ++
  (if q.cbMode = 0 then [] else [(q.cbOff, codebookBytes q n k)]) ++
  (if q.zpMode = 2 then [(q.zpOff, m)] else []) ++ (if q.oscaleMode = 2 then [(q.oscaleOff, 4 * n)] else [])

/-- Offsets and arrays as R189 and R190 want them: no reserved field set, every offset that is not 0 a multiple of 8 and at least 64,
the arrays apart from the header and from each other (R202). -/
def quantLayoutOk (q : Quant) (m n k : Nat) : Bool :=
  let l := quantArrays q m n k
  !q.reserved && ([q.wscaleOff, q.cbOff, q.zpOff, q.oscaleOff].all fun o => o == 0 || decide (o % 8 = 0 ∧ 64 ≤ o)) &&
  (l.all fun a => decide (64 ≤ a.1)) &&
  (List.range l.length).all fun i => (List.range i).all fun j =>
    let a := nth l i (0, 0)
    let b := nth l j (0, 0)
    decide (a.1 + a.2 ≤ b.1 ∨ b.1 + b.2 ≤ a.1)

/-- Bytes that the whole block takes (R190). -/
def quantBytes (q : Quant) (m n k : Nat) : Nat :=
  let ng := groupCount q k
  let cb := codebookBytes q n k
  max 64 (max (if q.wscale = 0 then 0 else q.wscaleOff + ng * n)
    (max (if q.cbMode = 0 then 0 else q.cbOff + cb)
      (max (if q.zpMode = 2 then q.zpOff + m else 0) (if q.oscaleMode = 2 then q.oscaleOff + 4 * n else 0))))

/-- Whether formats and quantisation fit R184, R191 and R199; R202 leaves the rest unpredictable. -/
def quantOk (afmt wfmt outfmt : Nat) (accum : Bool) (q : Quant) : Bool :=
  match modeOf afmt wfmt q.cbFmt with
  | none => false
  | some m =>
    q.version == 1 && decide (q.group ≤ 3 ∧ q.wscale ≤ 1 ∧ q.cbMode ≤ 3 ∧ q.zpMode ≤ 2 ∧ q.oscaleMode ≤ 2) &&
    (if wfmt = 0x03 then (q.cbMode == 1 || q.cbMode == 2) && q.cbFmt == 0x00
     else if wfmt = 0x04 then q.cbMode == 3 && m != .i4 else q.cbMode == 0) &&
    (q.zpMode == 0 || afmt == 0x01) &&
    (if m.isInt then decide (outfmt ∈ [0x0C, 0x00, 0x01, 0x0B, 0x0A]) else decide (outfmt ∈ [0x0B, 0x0A, 0x08, 0x09])) &&
    (q.oscaleMode == 0 || (outfmt != 0x0C && !accum)) &&
    (!accum || outfmt == (if m.isInt then 0x0C else 0x0B))

/-- The scale byte of group g and column c (R190, R196). -/
def scaleByte (q : Quant) (qb : List Byte) (n g c : Nat) : Int :=
  if q.wscale = 0 then 0 else sext 8 (fieldAt qb (q.wscaleOff + g * n + c) 1)

/-- Entry i of the codebook of group g and column c, in CB_FMT (R190, R192). -/
def cbEntry (q : Quant) (qb : List Byte) (n g c i : Nat) : Nat :=
  let e := fmtBytes q.cbFmt
  let at_ := if q.cbMode = 1 then (g * n + c) * 16 + i else if q.cbMode = 2 then g * 16 + i else g * 256 + i
  fieldAt qb (q.cbOff + at_ * e) e

/-- The zero point of row m (R197). -/
def zeroPoint (q : Quant) (qb : List Byte) (m : Nat) : Nat :=
  if q.zpMode = 1 then q.zp else if q.zpMode = 2 then fieldAt qb (q.zpOff + m) 1 else 0

/-- The output scale of column c (R200). -/
def outScale (q : Quant) (qb : List Byte) (c : Nat) : W32 :=
  if q.oscaleMode = 2 then BitVec.ofNat 32 (fieldAt qb (q.oscaleOff + 4 * c) 4) else q.oscale

/-- Whether some scale of column c lies outside the range of its mode (R191, R196, R202). -/
def scaleBad (isInt : Bool) (q : Quant) (qb : List Byte) (n k c : Nat) : Bool :=
  (List.range (groupCount q k)).any fun g =>
    let v := scaleByte q qb n g c
    if isInt then decide (v < 0 ∨ 15 < v) else decide (v < -64 ∨ 63 < v)

/-- 32-bit saturation of the integer modes (R162). -/
def sat32 (v : Int) : Int := clamp (-2147483648) 2147483647 v

/-- A group's scaled sum added to an integer accumulator (R162, R196, R198): present lanes as (activation value at the port,
weight); `corr` is 128 − z for uint8 activations and 0 for int8. -/
def accInt (acc : Int) (lanes : List (Int × Int)) (corr s : Int) : Int :=
  if lanes.isEmpty then acc
  else
    let tree := lanes.foldl (fun a x => a + x.1 * x.2) 0
    let sum := lanes.foldl (fun a x => a + x.2) 0
    sat32 (acc + sat32 ((tree + corr * sum) * 2 ^ s.toNat))

/-- A group's scaled sum added to a float accumulator (R157, R160 to R162, R196); a lane may be absent (R161). -/
def accFloat (acc : W32) (lanes : List (Option (W32 × W32))) (s : Int) (scaled : Bool) : W32 :=
  match treeSum f32Add (lanes.map fun x => x.map fun y => f32Mul y.1 y.2) with
  | none => acc
  | some t => f32Add acc (if scaled then f32Scale t s else t)

/-- An accumulator's output (R200): int32 unchanged; otherwise to fp32, scaled, converted (R201). -/
def drainInt (outfmt : Nat) (q : Quant) (qb : List Byte) (c : Nat) (a : Int) : Nat :=
  if outfmt = 0x0C then ofInt 32 a
  else
    let v := f32OfInt a
    outConvert outfmt q.outZp (if q.oscaleMode = 0 then v else f32Mul v (outScale q qb c))
def drainFloat (outfmt : Nat) (q : Quant) (qb : List Byte) (c : Nat) (a : W32) : Nat :=
  outConvert outfmt q.outZp (if q.oscaleMode = 0 then a else f32Mul a (outScale q qb c))

/-- The operands of a matrix product as bytes: A, W, bias or none, quantisation block, and what to start from. -/
structure MatOps where
  m : Nat
  n : Nat
  k : Nat
  lda : Nat
  ldw : Nat
  afmt : Nat
  wfmt : Nat
  outfmt : Nat
  q : Quant
  qb : List Byte
  /-- lanes below K that are absent (R161, R208) -/
  absent : List Nat := []
deriving DecidableEq, Repr

/-- Weight code of lane k, column c from its row's bytes (R169): in I4 two lanes share a byte. -/
def weightCode (o : MatOps) (w : List Byte) (k c : Nat) : Nat :=
  if o.wfmt = 0x02 ∨ o.wfmt = 0x03 then bits (fieldAt w (k / 2 * o.ldw + c) 1) (k % 2 * 4) 4
  else let e := if o.wfmt = 0x04 then 1 else fmtBytes o.wfmt; fieldAt w (k * o.ldw + c * e) e

/-- The quantisation group of a lane. -/
def laneGroup (o : MatOps) (k : Nat) : Nat := k / groupLanes o.q o.k

/-- Decoded integer weight (R192). -/
def weightInt (o : MatOps) (w : List Byte) (k c : Nat) : Int :=
  let v := weightCode o w k c
  if o.wfmt = 0x02 then sext 4 v
  else if o.wfmt = 0x03 ∨ o.wfmt = 0x04 then fmtInt o.q.cbFmt (cbEntry o.q o.qb o.n (laneGroup o k) c v)
  else fmtInt o.wfmt v

/-- Decoded float weight (R192). -/
def weightF32 (o : MatOps) (w : List Byte) (k c : Nat) : W32 :=
  let v := weightCode o w k c
  if o.wfmt = 0x04 then fmtF32 o.q.cbFmt (cbEntry o.q o.qb o.n (laneGroup o k) c v) else fmtF32 o.wfmt v

/-- The 32 lanes of tree group j, from 32 × j on; none where a lane is absent: at K and beyond, or by the operand (R160, R161). -/
def groupOf (o : MatOps) (j : Nat) : List (Option Nat) :=
  (List.range 32).map fun i => if 32 * j + i < o.k ∧ !((32 * j + i) ∈ o.absent) then some (32 * j + i) else none

/-- C[m][c] in an integer mode before the drain, from an initial value (R163): `arow` is the row of A. -/
def cellInt (o : MatOps) (arow w : List Byte) (m c : Nat) (init : Int) : Int :=
  (List.range (ceilDiv o.k 32)).foldl (fun acc j =>
    let lanes := (groupOf o j).filterMap fun l => l.map fun k =>
      let a := fieldAt arow k 1
      ((if o.afmt = 0x01 then (a : Int) - 128 else sext 8 a), weightInt o w k c)
    let corr : Int := if o.afmt = 0x01 then 128 - (zeroPoint o.q o.qb m : Int) else 0
    accInt acc lanes corr (scaleByte o.q o.qb o.n (laneGroup o (32 * j)) c)) init

/-- C[m][c] in a float mode before the drain (R163). -/
def cellFloat (o : MatOps) (arow w : List Byte) (c : Nat) (init : W32) : W32 :=
  let e := fmtBytes o.afmt
  (List.range (ceilDiv o.k 32)).foldl (fun acc j =>
    let lanes := (groupOf o j).map fun l => l.map fun k => (fmtF32 o.afmt (fieldAt arow (k * e) e), weightF32 o w k c)
    accFloat acc lanes (scaleByte o.q o.qb o.n (laneGroup o (32 * j)) c) (o.q.wscale == 1)) init

/-- The accumulator entry of C[m][c] after its last update, from its initial word (R163). -/
def matAcc (o : MatOps) (arow w : List Byte) (m c : Nat) (init : W32) : W32 :=
  match modeOf o.afmt o.wfmt o.q.cbFmt with
  | some md => if md.isInt then BitVec.ofInt 32 (cellInt o arow w m c (sext 32 init.toNat)) else cellFloat o arow w c init
  | none => 0

/-- An accumulator entry of column c as it drains (R164, R200). -/
def matDrain (o : MatOps) (c : Nat) (a : W32) : Nat :=
  match modeOf o.afmt o.wfmt o.q.cbFmt with
  | some md => if md.isInt then drainInt o.outfmt o.q o.qb c (sext 32 a.toNat) else drainFloat o.outfmt o.q o.qb c a
  | none => 0

/-- The output code of C[m][c] from its initial accumulator word (R163, R200). -/
def matCell (o : MatOps) (arow w : List Byte) (m c : Nat) (init : W32) : Nat := matDrain o c (matAcc o arow w m c init)

/-- What a cell holds for lane k of column c (R156, R193): an idx8 weight as its codebook entry, other weights as their codes. -/
def heldWeight (o : MatOps) (w : List Byte) (k c : Nat) : Nat :=
  let v := weightCode o w k c
  if o.wfmt = 0x04 then cbEntry o.q o.qb o.n (laneGroup o k) c v else v

/-- The lane whose operand a register of lane position j holds after the last pass: the last below K of those that came there. -/
def lastLane (lanes k j : Nat) : Option Nat := if k ≤ j then none else some (j + lanes * ((k - 1 - j) / lanes))

/-- The accumulator addition of R162 on words, in integer or float modes. -/
def accWord (isInt : Bool) (a b : W32) : W32 :=
  if isInt then BitVec.ofNat 32 (ofInt 32 (sat32 (sext 32 a.toNat + sext 32 b.toNat))) else f32Add a b

end Sys2Proof.Machine
end

