-- ==== Sys2Proof/Machine/Flags.lean ====
section
/-!
DEFINITION. Status words: their encodings (R331), warnings and failures (R332), and a graph's status (R70).
-/

namespace Sys2Proof.Machine

/-- A 15-bit NVMe status field: SC, SCT, DNR (R331). -/
def mkStatus (sct sc dnr : Nat) : Nat := sc + 256 * sct + 16384 * dnr

def stSuccess : Nat := 0
def stFilterShort : Nat := mkStatus 7 0x80 0
def stMirrorLost : Nat := mkStatus 7 0x81 0
def stPredFailed : Nat := mkStatus 7 0x90 1
def stStateLost : Nat := mkStatus 7 0x91 1
def stUnitLost : Nat := mkStatus 7 0x92 1
def stMediaError : Nat := mkStatus 7 0x93 1
def stQuotaExceeded : Nat := mkStatus 7 0x94 0
def stEpochGone : Nat := mkStatus 7 0x95 1
def stIndexFull : Nat := mkStatus 7 0x96 1
def stNotFound : Nat := mkStatus 7 0x97 1
def stMapStale : Nat := mkStatus 7 0x98 0
def stPeerLost : Nat := mkStatus 7 0x99 0
def stTagRejected : Nat := mkStatus 7 0x9A 1
def stResetAborted : Nat := mkStatus 7 0x9B 0

/-- NVMe 2.0 statuses that the spec names; SCT and SC are PRESUMED from NVMe 2.0 (log 6), DNR is R331's. -/
def stInvalidOpcode : Nat := mkStatus 0 0x01 1
def stInvalidField : Nat := mkStatus 0 0x02 1
def stDataTransferError : Nat := mkStatus 0 0x04 0
def stCommandSequenceError : Nat := mkStatus 0 0x0C 0
def stSanitizeInProgress : Nat := mkStatus 0 0x1D 0
def stLbaOutOfRange : Nat := mkStatus 0 0x80 1
def stCqInvalid : Nat := mkStatus 1 0x00 1
def stInvalidQueueId : Nat := mkStatus 1 0x01 1
def stInvalidQueueSize : Nat := mkStatus 1 0x02 1
def stAerLimit : Nat := mkStatus 1 0x05 1
def stInvalidFirmwareImage : Nat := mkStatus 1 0x07 1
def stInvalidVector : Nat := mkStatus 1 0x08 1
def stInvalidLogPage : Nat := mkStatus 1 0x09 1
def stInvalidQueueDeletion : Nat := mkStatus 1 0x0C 1
def stCompareFailure : Nat := mkStatus 2 0x85 1

/-- SC of a status. -/
def statusSc (st : Nat) : Nat := st % 256
/-- SCT of a status. -/
def statusSct (st : Nat) : Nat := st / 256 % 8
/-- SC and SCT only, as task, arrival and DMA records carry them (R331). -/
def statusNoDnr (st : Nat) : Nat := st % 2048

/-- A warning (R332). -/
def isWarning (st : Nat) : Bool := statusSct st = 7 && decide (0x80 ≤ statusSc st ∧ statusSc st ≤ 0x8F)
/-- A failure (R332): neither SUCCESS nor a warning. -/
def isFailure (st : Nat) : Bool := decide (statusNoDnr st ≠ 0) && !isWarning st

/-- The lowest index whose status satisfies p, with the status. -/
def firstStatus (p : Nat → Bool) (l : List Nat) : Option (Nat × Nat) :=
  ((List.range l.length).zip l).find? fun x => p x.2

/-- A graph's status and the index of the task it came from, 0xFFFF for SUCCESS (R70, R330); RESET_ABORTED first (R368). -/
def graphStatus (l : List Nat) : Nat × Nat :=
  match firstStatus (fun st => st == stResetAborted) l with
  | some (i, _) => (stResetAborted, i)
  | none =>
    match firstStatus (fun st => isFailure st && st != stPredFailed) l with
    | some (i, st) => (st, i)
    | none =>
      match firstStatus (fun st => st == stPredFailed) l with
      | some (i, st) => (st, i)
      | none =>
        match firstStatus isWarning l with
        | some (i, st) => (st, i)
        | none => (stSuccess, 0xFFFF)

end Sys2Proof.Machine
end

