-- ==== Sys2Proof/Machine/Hash.lean ====
section
/-!
DEFINITION. The published functions that the spec names by their standards: Keccak with SHA3-512, SHAKE256 and KMAC256
(FIPS 202, SP 800-185), and CRC-32C. PRESUMED: their algorithms come from those standards (log 6).
-/

namespace Sys2Proof.Machine

/-! Keccak-f on its 1,600 bits: bit 64 × (x + 5y) + z of the string is bit z of lane (x, y); coordinates count modulo 5. -/

/-- A lane of the bit string. -/
def kLane (a : BitVec 1600) (x y : Nat) : W64 := a.extractLsb' (64 * (x % 5 + 5 * (y % 5))) 64

/-- The bit string with given lanes. -/
def kState (f : Nat → Nat → W64) : BitVec 1600 :=
  (List.range 25).foldl (fun a i => a ||| ((f (i % 5) (i / 5)).zeroExtend 1600 <<< (64 * i))) 0

/-- The parity of the lanes of a column of the sheet. -/
def kParity (a : BitVec 1600) (x : Nat) : W64 := (List.range 5).foldl (fun v y => v ^^^ kLane a x y) 0

/-- θ: each lane takes the parity to its left, and the one to its right turned by one bit. -/
def kTheta (a : BitVec 1600) : BitVec 1600 :=
  let p := (List.range 5).map (kParity a)
  kState fun x y => kLane a x y ^^^ nth p ((x + 4) % 5) 0 ^^^ (nth p ((x + 1) % 5) 0).rotateLeft 1

/-- The turns of ρ, found on the walk that starts at (1, 0) and goes from (x, y) to (y, 2x + 3y): the n-th step's lane turns by the sum
of 1 to n; by steps left. -/
def kTurnGo (x y : Nat) : Nat → Nat → Nat → Nat → Nat
  | 0, _, _, _ => 0
  | f + 1, n, u, v => if u = x ∧ v = y then n * (n + 1) / 2 % 64 else kTurnGo x y f (n + 1) v ((2 * u + 3 * v) % 5)
def kTurn (x y : Nat) : Nat := kTurnGo x y 24 1 1 0

/-- ρ and π: lane (x, y) is the turned lane (x + 3y, x). -/
def kRhoPi (a : BitVec 1600) : BitVec 1600 :=
  kState fun x y => (kLane a (x + 3 * y) x).rotateLeft (kTurn ((x + 3 * y) % 5) x)

/-- χ: each lane is flipped where the next is clear and the one after it set. -/
def kChi (a : BitVec 1600) : BitVec 1600 := kState fun x y => kLane a x y ^^^ (~~~kLane a (x + 1) y &&& kLane a (x + 2) y)

/-- The shift register behind the round constants: x⁸ + x⁶ + x⁵ + x⁴ + 1. -/
def kShift (r : Byte) : Byte := (r <<< 1) ^^^ (if r.msb then 0x71 else 0)

/-- ι with the register at its round: bits 2^j − 1 of lane (0, 0) take the register's next seven outputs. -/
def kIota (r : Byte) (a : BitVec 1600) : BitVec 1600 :=
  (List.range 7).foldl (fun a j => a ^^^ (if (iter j kShift r).getLsbD 0 then 1 <<< (2 ^ j - 1) else 0)) a

/-- Rounds of Keccak-f[1600], by count, the shift register moved on by seven in each. -/
def kRounds : Nat → Byte → BitVec 1600 → BitVec 1600
  | 0, _, a => a
  | n + 1, r, a => kRounds n (iter 7 kShift r) (kIota r (kChi (kRhoPi (kTheta a))))
def kPermute (a : BitVec 1600) : BitVec 1600 := kRounds 24 1 a

/-- Output of the sponge, rate bytes a permutation, by count of blocks. -/
def kOutput (rate : Nat) : Nat → BitVec 1600 → List Byte
  | 0, _ => []
  | n + 1, a => le rate a.toNat ++ kOutput rate n (kPermute a)

/-- A message with the suffix and padding of its function: the suffix byte holds the first padding bit, the last byte's top bit is the
last one. -/
def kPadded (rate suffix : Nat) (m : List Byte) : Nat :=
  let total := (m.length / rate + 1) * rate
  ofLe m + suffix * 2 ^ (8 * m.length) ||| 2 ^ (8 * total - 1)

/-- The sponge of FIPS 202 over a message: rate in bytes, suffix, output length. -/
def sponge (rate suffix : Nat) (m : List Byte) (n : Nat) : List Byte :=
  let x := kPadded rate suffix m
  let a := (List.range (m.length / rate + 1)).foldl (fun a i =>
    kPermute (a ^^^ BitVec.ofNat 1600 (bits x (8 * rate * i) (8 * rate)))) 0
  (kOutput rate (ceilDiv n rate) a).take n

/-- SHA3-512. -/
def sha3_512 (m : List Byte) : List Byte := sponge 72 0x06 m 64
/-- SHAKE256 with n bytes of output. -/
def shake256 (m : List Byte) (n : Nat) : List Byte := sponge 136 0x1F m n

/-- The big-endian bytes of a number, at least one, by fuel. -/
def beMin : Nat → Nat → List Byte
  | 0, _ => []
  | k + 1, v => if v < 256 then [BitVec.ofNat 8 v] else beMin k (v / 256) ++ [BitVec.ofNat 8 v]

/-- left_encode of SP 800-185. -/
def leftEncode (v : Nat) : List Byte := let b := beMin 9 v; BitVec.ofNat 8 b.length :: b
/-- right_encode of SP 800-185. -/
def rightEncode (v : Nat) : List Byte := let b := beMin 9 v; b ++ [BitVec.ofNat 8 b.length]
/-- encode_string of SP 800-185. -/
def encodeString (s : List Byte) : List Byte := leftEncode (8 * s.length) ++ s
/-- bytepad of SP 800-185. -/
def bytepad (x : List Byte) (w : Nat) : List Byte :=
  let y := leftEncode w ++ x
  y ++ List.replicate ((w - y.length % w) % w) 0

/-- KMAC256(K, X, 8n bits, S). -/
def kmac256 (key x : List Byte) (n : Nat) (s : List Byte) : List Byte :=
  let newX := bytepad (encodeString key) 136 ++ x ++ rightEncode (8 * n)
  sponge 136 0x04 (bytepad (encodeString (ascii "KMAC") ++ encodeString s) 136 ++ newX) n

/-- One byte of CRC-32C (Castagnoli, reflected). -/
def crcByte (c : W32) (b : Byte) : W32 :=
  iter 8 (fun c => if c.getLsbD 0 then (c >>> 1) ^^^ 0x82F63B78 else c >>> 1) (c ^^^ b.zeroExtend 32)

/-- CRC-32C of bytes. -/
def crc32c (bs : List Byte) : W32 := ~~~ (bs.foldl crcByte 0xFFFFFFFF)

end Sys2Proof.Machine
end

