-- ==== Sys2Proof/Machine/Ops.lean ====
section
/-!
DEFINITION. Shared operations on the state: updates of units and pens, free values, usable units, stack layout, memory
accesses, event records, interrupts, completion entries and the fetch of a command.
-/

namespace Sys2Proof.Machine

/-- The outcome of a command on this node. -/
abbrev Res := Host.Outcome State Fault Refusal

/-- A command that acts when its condition holds and otherwise leaves the node as it is (log 7). -/
def actWhen (c : Bool) (s t : State) : Res := .next (if c then t else s)

/-- Something sent outside the node. -/
def emit (s : State) (o : Out) : State := { s with out := s.out ++ [o] }

/-- The next tag of a free value (log 1). -/
def drawTag (s : State) : Nat × State := (s.nfree, { s with nfree := s.nfree + 1 })

def updPen (s : State) (p : Nat) (f : Pen → Pen) : State := { s with pens := tupd s.pens p f }
def updQuad (s : State) (q : Nat) (f : Quad → Quad) : State := { s with quads := tmod s.quads q f }
def updTile (s : State) (t : Nat) (f : Tile → Tile) : State := { s with tiles := tmod s.tiles t f }
def updStack (s : State) (n : Nat) (f : Stack → Stack) : State := { s with stks := tmod s.stks n f }
def updChan (s : State) (c : Nat) (f : Chan → Chan) : State := { s with ftl := { s.ftl with chans := tupd s.ftl.chans c f } }
def updDma (s : State) (n : Nat) (f : Dma → Dma) : State := { s with dma := tmod s.dma n f }
def updCtl (s : State) (c : Nat) (f : Ctl → Ctl) : State := { s with port := { s.port with ctls := tmod s.port.ctls c f } }
def updObj (s : State) (p n : Nat) (f : Obj → Obj) : State :=
  updPen s p fun x => { x with objects := tupd x.objects n f }

def penOf (s : State) (p : Nat) : Pen := tget s.pens p
def objOf (s : State) (p n : Nat) : Option Obj := tget? (penOf s p).objects n
def ctlOf (s : State) (c : Nat) : Ctl := tget s.port.ctls c
def chanOf (s : State) (c : Nat) : Chan := tget s.ftl.chans c
def stackOf (s : State) (n : Nat) : Stack := tget s.stks n
def quadOf (s : State) (q : Nat) : Quad := tget s.quads q
def tileOf (s : State) (t : Nat) : Tile := tget s.tiles t

/-- The pen of a controller (R321). -/
def penOfCtl (c : Nat) : Nat := c % 256

/-- Puts an object in a pen's object table. -/
def putObj (s : State) (p n : Nat) (o : Obj) : State := updPen s p fun x => { x with objects := tput x.objects n o }
/-- Removes an object from a pen's object table. -/
def dropObj (s : State) (p n : Nat) : State := updPen s p fun x => { x with objects := tdel x.objects n }

/-- Quad of a tile and of a stack (R4: 16 tiles and 5 stacks to a quad). -/
def quadOfTile (t : Nat) : Nat := t / 16
def quadOfStack (n : Nat) : Nat := n / 5

def tileUsable (s : State) (t : Nat) : Bool := s.topo.tileOk.getLsbD t
def stackUsable (s : State) (n : Nat) : Bool := s.topo.stackOk.getLsbD n
def quadUsable (s : State) (q : Nat) : Bool := s.topo.quadOk.getLsbD q
def chanUsable (s : State) (c : Nat) : Bool := (chanOf s c).usable

/-- Usable tiles and stacks of a quad, in number order. -/
def tilesOf (s : State) (q : Nat) : List Nat := ((List.range 16).map (16 * q + ·)).filter (tileUsable s)
def stacksOf (s : State) (q : Nat) : List Nat := ((List.range 5).map (5 * q + ·)).filter (stackUsable s)

/-- Arrays of a tile in service (R180). -/
def arraysUp (s : State) (t : Nat) : Nat := ((tileOf s t).arrs.filter (·.inService)).length
/-- Whether a tile is usable with an array in service (R181). -/
def tileHasArray (s : State) (t : Nat) : Bool := tileUsable s t && decide (0 < arraysUp s t)

/-! Power domains (R32, R36, R37). -/

def domQ (q : Nat) : Nat := q
def domM (stack : Nat) : Nat := 4 + stack / 4
def domF (group : Nat) : Nat := 9 + group
def domFL (port : Nat) : Nat := 14 + port / 4
/-- Domains of R462 by number. -/
def domHX : Nat := 13
def domHUB : Nat := 16
def domSEC : Nat := 17
def domSPN : Nat := 18
def domTRC : Nat := 19
def domainOn (s : State) (d : Nat) : Bool := s.power.on.getLsbD d

/-- Whether the host port has its domains (R37). -/
def hostPortOn (s : State) : Bool := domainOn s domHX && domainOn s domSPN && domainOn s domHUB

/-! Stack layout: device physical addresses (R324) and the regions of R229; the order of the regions within a stack is the
model's (log 8): home slots first, then the pool, then the reserved shares. -/

def bale : Nat := 65536
/-- 72 GiB in bytes and in bales. -/
def stackBytes : Nat := 72 * 1024 * 1024 * 1024
def stackBales : Nat := 1179648

/-- Stacks of a quad that the layout is made for: those usable at readiness (R229, R38); before it, those usable now. -/
def layoutStacks (s : State) (q : Nat) : List Nat :=
  ((List.range 5).map (5 * q + ·)).filter fun n => (if s.boot.ready then s.topo.stack else s.topo.stackOk).getLsbD n

/-- Pool slots of one stack: the quad's pool split evenly over its usable stacks (R229). -/
def poolPer (s : State) (n : Nat) : Nat :=
  let k := (layoutStacks s (quadOfStack n)).length
  if k = 0 then 0 else (quadOf s (quadOfStack n)).poolSize / k

/-- Bales of a stack's bale table, map share and write-buffer share (R229). -/
def reservedBales (s : State) (n : Nat) : Nat :=
  let r := nth s.boot.image.regions n (0, 0, 0, 0)
  (r.1 + r.2.1 + r.2.2.1) * 16

/-- Home slots of a stack (R229: the remainder). -/
def homeSlots (s : State) (n : Nat) : Nat := stackBales - reservedBales s n - poolPer s n

/-- The device physical address of a byte of a stack (R324). -/
def dpa (n off : Nat) : Nat := n * stackBytes + off
def dpaStack (a : Nat) : Nat := a / stackBytes
def dpaOff (a : Nat) : Nat := a % stackBytes
/-- The address of a bale slot. -/
def slotAddr (n slot : Nat) : Nat := dpa n (slot * bale)

/-- Free home slots of a stack. -/
def freeHomes (s : State) (n : Nat) : Nat := homeSlots s n - (stackOf s n).homesUsed.length
/-- Free pool slots of a stack. -/
def freePool (s : State) (n : Nat) : Nat := poolPer s n - (stackOf s n).poolUsed.length

/-- The lowest number from `from_` on that is not in a list, by fuel. -/
def lowestFreeGo (used : List Nat) : Nat → Nat → Nat
  | 0, k => k
  | f + 1, k => if k ∈ used then lowestFreeGo used f (k + 1) else k
def lowestFree (used : List Nat) (from_ : Nat) : Nat := lowestFreeGo used (used.length + 1) from_

/-- The stack with the most free slots among some, the lower number winning a tie. -/
def mostFree (free : Nat → Nat) (l : List Nat) : Option Nat :=
  l.foldl (fun b x => match b with
    | none => if 0 < free x then some x else none
    | some y => if free y < free x then some x else some y) none

/-- Where an I/O virtual address of a pen's function stands in host memory: each function has its own address space (R48). -/
def hostKey (p a : Nat) : Nat := p * 2 ^ 64 + a

/-! Stack memory (R25, R239). -/

def line : Nat := 64

/-- The bytes [a, a + n) of stack memory, by device physical address, as the stacks hold them (R258). -/
def readStack (s : State) (a n : Nat) : List Byte := s.mem.read a n

/-- Whether a range holds a poisoned line (R239). -/
def poisoned (s : State) (a n : Nat) : Bool := s.poison.any fun l => decide (a < l + line ∧ l < a + n)

/-- Bytes written to stack memory: whole lines clear poison and partial writes leave it (R239). -/
def writeStack (s : State) (a : Nat) (bs : List Byte) : State :=
  if bs.isEmpty then s else
  { s with
    mem := s.mem.write a bs
    poison := s.poison.filter fun l => !(decide (a ≤ l ∧ l + line ≤ a + bs.length)) }

/-- Poisons a line (R239): counted and latched; the event record is posted by the caller. -/
def poisonLine (s : State) (l : Nat) : State :=
  let s := { s with poison := addNew s.poison l }
  updStack s (dpaStack l) fun x => { x with
    eccUncorr := satAdd 16 x.eccUncorr 1, poisonValid := true, poisonOffset := dpaOff l / line }

/-! Event records (R448). -/

/-- The kind code and number of a unit in an event record and in the health log (R448). -/
def hwUnitCode : HwUnit → Nat × Nat
  | .tile t => (1, t)
  | .array t a => (2, 4 * t + a)
  | .quad q => (3, q)
  | .stack n => (4, n)
  | .nearBank n u => (5, 128 * n + u)
  | .engine c => (6, c)
  | .target c t => (7, 16 * c + t)
  | .dma n => (8, n)
  | .fluePort p => (9, p)
  | .d2d m => (10, m)
  | .domain d => (11, d)

/-- Position of a unit's score in the table of R449; units without a score have none. -/
def scorePos : HwUnit → Option Nat
  | .tile t => some t
  | .quad q => some (64 + q)
  | .stack n => some (68 + n)
  | .engine c => some (88 + c)
  | .fluePort p => some (120 + p)
  | _ => none

/-! Recording and replay (R450 to R456). The bodies' field widths are the model's (log 10). -/

/-- Bytes of a record in the ring: a 16 B header and the body padded to 8 (R451). -/
def recLen (r : TRec) : Nat := 16 + (r.body.length + 7) / 8 * 8

/-- A record's bytes (R451); LOCAL is a free value. -/
def recBytes (loc : W32) (r : TRec) : List Byte :=
  let b := le 1 r.kind ++ le 1 0 ++ le 2 r.body.length ++ le 2 r.stream ++ le 2 0 ++ le 4 r.sseq ++ le 4 loc.toNat ++ r.body
  b ++ List.replicate (recLen r - b.length) 0

/-- Ring size in bytes. -/
def ringSize (s : State) : Nat := 2 ^ s.trace.log

/-- Free bytes of the ring; the ring is never filled to the last byte. -/
def ringRoom (s : State) : Nat :=
  ringSize s - 1 - (s.trace.rprod + ringSize s - s.trace.rcons) % ringSize s

/-- One record written to the ring at RPROD, wrapping. -/
def ringPut (s : State) (r : TRec) : State :=
  let (n, s) := drawTag s
  let bs := recBytes (Config.freeWord n) r
  let first := min bs.length (ringSize s - s.trace.rprod)
  { s with
    hostMem := (s.hostMem.write (s.trace.addr + s.trace.rprod) (bs.take first)).write s.trace.addr (bs.drop first)
    trace := { s.trace with rprod := (s.trace.rprod + bs.length) % ringSize s } }

/-- The head buffer emptied into the ring, oldest first, while the ring has room (R450). -/
def drainHead (s : State) : Nat → State
  | 0 => s
  | k + 1 => match s.trace.headBuf with
    | [] => s
    | r :: rest =>
      if s.trace.go && decide (recLen r ≤ ringRoom s) then
        drainHead (ringPut { s with trace := { s.trace with headBuf := rest } } r) k
      else s

/-- Whether the head buffer can hold no further record of the largest size (R450). -/
def headFull (t : Trace) : Bool := decide (t.headMax < sumBy recLen t.headBuf)

/-- One record written while recording runs: to the head buffer, and from it to the ring once GO is set; a record that
fits neither stalls the node (FULL 0) or breaks the recording (FULL 1), R450. -/
def traceRec (s : State) (kind stream : Nat) (body : List Byte) : State :=
  let s := if stream = 1 then { s with trace := { s.trace with decisions := s.trace.decisions + 1 } } else s
  if !s.trace.recording then s else
  let r : TRec := { kind := kind, stream := stream, sseq := tgetD s.trace.sseq stream 0, body := body }
  let t := { s.trace with
    headBuf := s.trace.headBuf ++ [r]
    sseq := tput s.trace.sseq stream (wrapAdd 32 (tgetD s.trace.sseq stream 0) 1) }
  let s1 := drainHead { s with trace := t } t.headBuf.length
  if headFull s1.trace then
    (if s.trace.full then { s with trace := { s.trace with recording := false, broken := true } }
     else { s1 with trace := { s1.trace with stalled := true } })
  else s1

/-- In replay, whether the Drover's next recorded decision is of a kind and begins with given bytes (R455). -/
def replayAllows (s : State) (kind : Nat) (key : List Byte) : Bool :=
  if s.trace.replay then
    match s.trace.supplied.find? (fun r => r.stream == 1) with
    | some r => r.kind == kind && r.body.take key.length == key
    | none => false
  else true

/-- A list without its first element that satisfies p. -/
def dropFirst {α : Type} (p : α → Bool) : List α → List α
  | [] => []
  | x :: r => if p x then r else x :: dropFirst p r

/-- A decision of the Drover stream: recorded when recording, taken from the supplied records in replay. -/
def traceDecide (s : State) (kind : Nat) (body : List Byte) : State :=
  let s := traceRec s kind 1 body
  if s.trace.replay then
    { s with trace := { s.trace with supplied := dropFirst (fun r => r.stream == 1 && r.kind == kind) s.trace.supplied } }
  else s

/-- A write to host memory: recorded as an OUT record when asked (R452); in replay it writes nothing and is compared with
the next OUT record of its stream (R454, R456). -/
def hostWrite (s : State) (stream a : Nat) (bs : List Byte) : State :=
  let body := le 8 a ++ le 4 bs.length ++ shake256 bs 16
  if s.trace.replay then
    match s.trace.outs.find? (fun o => o.1 == stream) with
    | none => s
    | some o =>
      if o.2.2 = body then { s with trace := { s.trace with outs := dropFirst (fun x => x.1 == stream) s.trace.outs } }
      else { s with trace := { s.trace with replay := false, diverged := true, divergeOff := o.2.1 } }
  else
    let s := if s.trace.out_ then traceRec s 0x20 stream body else s
    { s with hostMem := s.hostMem.write a bs }

/-- A read of host memory in a function's address space; recorded as a HOSTREAD record (R452). -/
def hostReadRec (s : State) (stream fn a n : Nat) : State :=
  if s.trace.recording then traceRec s 0x02 stream (le 2 fn ++ le 8 a ++ s.hostMem.read (hostKey fn a) n) else s

/-! Interrupts (R361, R362). -/

/-- One message of a node vector: sent, or kept as the pending bit while masked; PEND goes to 0 (R362). -/
def vecSend (s : State) (v : Nat) : State :=
  let x := tget s.vecs v
  let s := { s with vecs := tput s.vecs v { x with pend := 0, pba := x.pba || x.masked } }
  if x.masked then s else emit s (.msix v)

/-- One completion entry counted by a vector (R362). -/
def vecCount (s : State) (v : Nat) : State :=
  let x := tget s.vecs v
  let s := { s with vecs := tput s.vecs v { x with pend := satAdd 8 x.pend 1 } }
  if x.thr ≤ 1 ∨ x.time = 0 ∨ x.thr ≤ x.pend + 1 then vecSend s v else s

/-! Completion entries (R329, R330). -/

/-- Whether a queue of a size is full: one slot stays empty (R329). -/
def ringFull (size head tail : Nat) : Bool := decide ((tail + 1) % size = head)

/-- The 16 bytes of a completion entry (R330). -/
def cqeBytes (e : Cqe) (seq : Nat) (phase : Bool) : List Byte :=
  le 4 e.dw0.toNat ++ le 4 seq ++ le 2 e.sqHead ++ le 2 e.sq ++ le 4 (e.cid + b2n phase * 65536 + e.status * 131072)

/-- The completion queue of a controller: 0 is the admin queue. -/
def cqOf (c : Ctl) (n : Nat) : Option Cq := if n = 0 then (if c.en then some c.adminCq else none) else tget? c.cqs n
def setCq (c : Ctl) (n : Nat) (q : Cq) : Ctl := if n = 0 then { c with adminCq := q } else { c with cqs := tput c.cqs n q }
/-- The submission queue of a controller: 0 is the admin queue. -/
def sqOf (c : Ctl) (n : Nat) : Option Sq := if n = 0 then (if c.en then some c.admin else none) else tget? c.sqs n
def setSq (c : Ctl) (n : Nat) (q : Sq) : Ctl := if n = 0 then { c with admin := q } else { c with sqs := tput c.sqs n q }

/-- A completion queue after one entry has been written to it. -/
def cqAdvance (q : Cq) : Cq :=
  { q with
    tail := (q.tail + 1) % q.size
    phase := if q.tail + 1 = q.size then !q.phase else q.phase
    seq := wrapAdd 32 q.seq 1 }

/-- The rings of a controller's queues in its function's address space: base and bytes (R323, R329). -/
def rings (c : Ctl) : List (Nat × Nat) :=
  [(c.admin.base, 64 * c.admin.size), (c.adminCq.base, 16 * c.adminCq.size)] ++ c.cqs.map (fun q => (q.2.base, 16 * q.2.size)) ++
    c.sqs.flatMap fun q => [(q.2.base, 64 * q.2.size), (q.2.rq.base, 32 * q.2.rq.size)]

/-- Whether n bytes at an address lie in more than one ring of a controller. -/
def ringClash (c : Ctl) (a n : Nat) : Bool :=
  decide (2 ≤ ((rings c).filter fun r => decide (a < r.1 + r.2 ∧ r.1 < a + n)).length)

/-- An entry written to a ring; where rings of the controller overlap, free bytes (R349, log 178). -/
def writeEntry (s : State) (stream ctl a : Nat) (bs : List Byte) : State :=
  let s := hostWrite s stream (hostKey (penOfCtl ctl) a) bs
  if s.trace.replay || !ringClash (ctlOf s ctl) a bs.length then s
  else { s with nfree := s.nfree + 1, hostMem := s.hostMem.smudge (hostKey (penOfCtl ctl) a) bs.length s.nfree }

/-- One entry written at a queue's tail, counted and signalled (R330, R362). -/
def cqWrite (s : State) (ctl n : Nat) (q : Cq) (e : Cqe) : State :=
  let s := traceDecide s 0x16 (le 2 ctl ++ le 2 n ++ le 4 q.seq)
  let s := writeEntry s 0 ctl (q.base + 16 * q.tail) (cqeBytes e q.seq q.phase)
  let s := updCtl s ctl fun c => setCq c n (cqAdvance q)
  let s := { s with port := { s.port with cmds := wrapAdd 32 s.port.cmds 1 } }
  if q.ien then vecCount s ((penOf s (penOfCtl ctl)).vbase + q.iv) else s

/-- A completion entry posted: written, or kept in order while the queue is full. A controller or queue that is gone takes
none (R322). -/
def postCqe (s : State) (ctl n : Nat) (e : Cqe) : State :=
  match cqOf (ctlOf s ctl) n with
  | none => s
  | some q =>
    if q.waiting.isEmpty && !ringFull q.size q.head q.tail then cqWrite s ctl n q e
    else updCtl s ctl fun c => setCq c n { q with waiting := q.waiting ++ [e] }

/-- Waiting entries written while the queue has room, by fuel. -/
def drainCq (s : State) (ctl n : Nat) : Nat → State
  | 0 => s
  | k + 1 => match cqOf (ctlOf s ctl) n with
    | none => s
    | some q => match q.waiting with
      | [] => s
      | e :: r =>
        if ringFull q.size q.head q.tail then s
        else drainCq (cqWrite s ctl n { q with waiting := r } e) ctl n k

/-- Whether a command lies in a fence's scope: entries below a limit of its queue (R335). -/
def inLimits (l : List (Nat × Nat × Nat)) (ctl sq num : Nat) : Bool :=
  l.any fun x => x.1 == ctl && x.2.1 == sq && decide (num < x.2.2)

/-- Owners of units that are buffered, gathered or being programmed, and not yet on the medium. -/
def mediaOwners (s : State) : List Owner :=
  s.port.wb.map (·.owner) ++
  s.port.wbWait.map (·.owner) ++
  s.ftl.chans.flatMap fun c =>
    c.2.page.map (·.2) ++ c.2.ops.flatMap (fun o => o.sectors.map (·.2))

/-- Deallocations whose TRIM record is not durable: channel and SEQ (R311, R316). -/
def staleTrims (s : State) : List (Nat × Nat) :=
  s.ftl.chans.flatMap fun c =>
    (c.2.jstage ++ c.2.jpages.flatMap (·.2)).filterMap fun r => match r with
      | .trim _ _ _ seq => some (c.1, seq)
      | _ => none

/-- Whether a waiting Skex fence can complete (R335): no command of its scope is left, and under DURABLE nothing of its
scope is off the medium. -/
def fenceDone (s : State) (f : FenceWait) : Bool :=
  !(s.port.live.any fun l => l.cmd != f.cmd && inLimits f.limits l.cmd.ctl l.cmd.sq l.num) &&
  (!f.durable ||
    (!((mediaOwners s).any fun o => match o with
        | .cmd c n => inLimits f.limits c.ctl c.sq n
        | .task _ c n => inLimits f.limits c.ctl c.sq n
        | .none => false) && (staleTrims s).isEmpty))

/-- Whether a Flush can complete (R344). -/
def flushDone (s : State) (f : FlushWait) : Bool :=
  !(s.port.wb.any fun u => decide (u.acc < f.upto)) && !(f.trims.any fun t => t ∈ staleTrims s)

/-- A completion entry for a command (R330), with the head of its queue; the command is live no more. -/
def complete1 (s : State) (c : Cmd) (status : Nat) (dw0 : Nat) : State :=
  let s := { s with port := { s.port with live := s.port.live.filter fun l => l.cmd != c } }
  match sqOf (ctlOf s c.ctl) c.sq with
  | none => s
  | some q =>
    postCqe s c.ctl q.cqid
      { dw0 := BitVec.ofNat 32 dw0, sqHead := if q.size = 0 then 0 else q.fetched % q.size, sq := c.sq, cid := c.cid,
        status := status }

/-- Waiting fences and Flushes whose condition now holds complete with SUCCESS (R335, R344), by fuel. -/
def wakeFences (s : State) : Nat → State
  | 0 => s
  | k + 1 =>
    match s.port.fences.find? (fenceDone s) with
    | some f =>
      wakeFences (complete1 { s with port := { s.port with fences := without s.port.fences f } } f.cmd stSuccess 0) k
    | none => match s.port.flushes.find? (flushDone s) with
      | some f =>
        wakeFences (complete1 { s with port := { s.port with flushes := without s.port.flushes f } } f.cmd stSuccess 0) k
      | none => s

/-- Fences and Flushes re-examined. -/
def wake (s : State) : State := wakeFences s (s.port.fences.length + s.port.flushes.length)

/-- A command completes. -/
def complete (s : State) (c : Cmd) (status : Nat) (dw0 : Nat := 0) : State := wake (complete1 s c status dw0)

/-- A free status and a free DW0 of a completion (R76, R371; log 14). -/
def completeFree (s : State) (c : Cmd) : State :=
  let r := drawTag s
  let q := drawTag r.2
  complete q.2 c ((Config.freeWord r.1).toNat % 2048) (Config.freeWord q.1).toNat

/-! Asynchronous events and event records. -/

/-- An asynchronous event of type Vendor Specific with log page 0xC0 to each pen 0 controller with an outstanding request;
the information byte is a free value (R448). -/
def asyncEvent (s : State) : State :=
  s.port.ctls.foldl (fun s c =>
    if penOfCtl c.1 = 0 then
      match (ctlOf s c.1).aers with
      | [] => s
      | a :: r =>
        let (n, s) := drawTag s
        let s := updCtl s c.1 fun x => { x with aers := r }
        complete1 s a stSuccess (7 + (Config.freeByte n 0).toNat * 256 + 0xC0 * 65536)
    else s) s

/-- The 32 bytes of an event record (R448). -/
def eventBytes (e : Event) : List Byte :=
  le 4 e.seq ++ le 1 e.cls ++ le 1 e.kind ++ le 2 e.unit ++ le 2 e.code.toNat ++ le 1 e.score ++ le 1 0 ++
    le 4 e.loc.toNat ++ le 8 e.data0.toNat ++ le 8 e.data1.toNat

/-- An event record of a unit kind and number (R448): numbered, kept among the latest 128, recorded, and announced. `what`
is the model's own number of the event; CODE is the Vorust definition's (log 2). -/
def postEventRaw (s : State) (cls kind unit score what data0 data1 : Nat) : State :=
  let (n, s) := drawTag s
  let e : Event :=
    { seq := s.health.events, cls := cls, kind := kind, unit := unit, code := Config.eventCode cls kind what, score := score,
      loc := Config.freeWord n, data0 := BitVec.ofNat 64 data0, data1 := BitVec.ofNat 64 data1 }
  let log := s.health.log ++ [e]
  let s := { s with health := { s.health with
    events := wrapAdd 32 s.health.events 1, log := log.drop (log.length - 128) } }
  asyncEvent (traceRec s 0x17 35 (eventBytes e ++ le 8 s.trace.decisions))

/-- An event record of a hardware unit. -/
def postEvent (s : State) (cls : Nat) (u : HwUnit) (what data0 data1 : Nat) : State :=
  let c := hwUnitCode u
  let score := match scorePos u with
    | some i => tgetD s.health.scores i 0
    | none => 0
  postEventRaw s cls c.1 c.2 score what data0 data1

/-- An event record of the node. -/
def postNodeEvent (s : State) (cls what data0 data1 : Nat) : State :=
  postEventRaw s cls 0 0 s.health.nodeScore what data0 data1

/-! Fetching a command (R323, R335). -/

/-- Whether the node fetches from queues at all: ready, not quiescing, not fenced, not stalled by a full recording (R369,
R442, R450). -/
def mayFetch (s : State) : Bool := s.boot.ready && !s.port.stopped && s.health.st != 2 && !s.trace.stalled

/-- Whether a controller works: enabled, ready, and its pen exists (R350). -/
def ctlUp (s : State) (ctl : Nat) : Bool :=
  let c := ctlOf s ctl
  c.en && c.rdy && !c.cfs && !c.dead && (penOf s (penOfCtl ctl)).alive

/-- Entries of a submission queue covered by doorbells and not fetched. -/
def sqPending (q : Sq) : Bool := decide (q.fetched < q.covered)

/-- A command of the queue the node may fetch now, with its entry number (R323): in replay, a command that the recording
supplies (R454). -/
def canFetch (s : State) (c : Cmd) : Option Nat :=
  match sqOf (ctlOf s c.ctl) c.sq with
  | none => none
  | some q =>
    let pen := penOf s (penOfCtl c.ctl)
    if s.trace.replay then
      match s.trace.supplied.find? (fun r => r.stream == 0 && r.kind == 0x01) with
      | some r => if r.body.take 4 = le 2 c.ctl ++ le 2 c.sq && fieldAt r.body 6 2 == c.cid then some q.fetched else none
      | none => none
    else if mayFetch s && ctlUp s c.ctl && sqPending q && (c.sq == 0 || !pen.resetting) then some q.fetched
    else none

/-- The command taken from its queue: it is live, and the recording notes it (R452). The entry's bytes are those of the
queue's memory. -/
def doFetch (s : State) (c : Cmd) (num : Nat) : State :=
  let q := (sqOf (ctlOf s c.ctl) c.sq).getD {}
  let s := if s.trace.recording then
      traceRec s 0x01 0 (le 2 c.ctl ++ le 2 c.sq ++ s.hostMem.read (hostKey (penOfCtl c.ctl) q.base + 64 * (if q.size = 0 then 0 else num % q.size)) 64)
    else s
  let s := if s.trace.replay then
      { s with trace := { s.trace with supplied := dropFirst (fun r => r.stream == 0 && r.kind == 0x01) s.trace.supplied } }
    else s
  let s := updCtl s c.ctl fun x => match sqOf x c.sq with
    | none => x
    | some q => setSq x c.sq { q with fetched := q.fetched + 1 }
  { s with
    port := { s.port with live := s.port.live ++ [{ cmd := c, num := num }] }
    trace := { s.trace with touched := true } }

/-- A command fetched and then performed by f, which sees its entry number; nothing while it cannot be fetched (log 7). -/
def withCmd (s : State) (c : Cmd) (f : State → Nat → State) : Res :=
  match canFetch s c with
  | none => .next s
  | some n => .next (f (doFetch s c n) n)

/-- A command of an I/O queue: admin queue commands and I/O commands do not mix (R326). -/
def isIoCmd (c : Cmd) : Bool := c.sq != 0

/-- Whether a command's queue is a Skex queue (R328). -/
def onSkex (s : State) (c : Cmd) : Bool := match sqOf (ctlOf s c.ctl) c.sq with
  | some q => q.skex
  | none => false

end Sys2Proof.Machine
end

