-- ==== Sys2Proof/Machine/Coherence.lean ====
section
/-!
DEFINITION. The directory slices (10): messages, transitions of R266 and R267, stack accesses, victims, the retry queue and
the reclaim sweep. A message is in flight in Coh.net; a home row acts on the oldest message of its kind, sender and line.
-/

namespace Sys2Proof.Machine

/-- The model's number of "the home slice" as an end of a message. -/
def homeId : Nat := 200
def hostAgent : Nat := 96
def dmaAgent : Nat := 128
def droverAgent : Nat := 129

/-- Sharer group of an agent (R256): 0 to 3 tiles, 4 to 7 engines, 8 the host. -/
def agentGroup (a : Nat) : Nat := if a < 64 then a / 16 else if a < 96 then 4 + (a - 64) / 8 else 8

/-- The slice of a line: that of its stack's quad (R26). -/
def sliceNo (l : Nat) : Nat := quadOfStack (dpaStack l)

/-- The virtual channel of a message (R29, R263). -/
def msgVc : MsgKind → VChan
  | .rdS | .rdE | .rdC | .wr | .clr | .putB | .putE | .putM => .request
  | .inv | .rcl | .rclS => .snoop
  | .dataS | .dataB | .dataE | .dataC | .wbD _ => .data
  | .cAck _ | .ack | .cmp _ => .response

/-! Die pairs and their modules (R27, R29, R31). -/

/-- The four hub modules of a quad are numbers 4q to 4q + 3 of the 24 (log 20). -/
def hubModules (q : Nat) : List Nat := (List.range 4).map (4 * q + ·)
/-- The modules of a die pair: pairs 0 to 3 are quad q and hub, 4 to 7 the adjacent quads (log 20). -/
def pairModules (pair : Nat) : List Nat := if pair < 4 then hubModules pair else [16 + 2 * (pair - 4), 17 + 2 * (pair - 4)]
def pairOf (m : Nat) : Nat := if m < 16 then m / 4 else 4 + (m - 16) / 2
/-- The modules of a pair that are up, in increasing order (R29). -/
def pairUp (down : List Nat) (pair : Nat) : List Nat := (pairModules pair).filter fun m => !decide (m ∈ down)
/-- The module list that a pair uses: the one it had until it has drained (R29, R31). -/
def inUse (s : State) (pair : Nat) : List Nat := (tget? s.topo.d2dList pair).getD (pairUp s.topo.d2dDown pair)
/-- The module of a list that carries a line: entry [9:6] mod n (R29). -/
def moduleFor (l : List Nat) (line : Nat) : Option Nat := l[bits line 6 4 % l.length]?

/-- The die of an agent: a quad, or 4 for the hub. -/
def dieOf (a : Nat) : Nat := if a < 64 then a / 16 else 4
/-- The die of a message's end: the home is its line's quad. -/
def endDie (m : Msg) (x : Nat) : Nat := if x = homeId then sliceNo m.line else dieOf x
/-- The pair of two adjacent quads. -/
def directPair (a b : Nat) : Option Nat :=
  if (a + 1) % 4 = b then some (4 + a) else if (b + 1) % 4 = a then some (4 + b) else none
/-- The die pairs that a message between two dies crosses (R29): the hub's, unless the quads are adjacent and a direct module
of theirs is in use. -/
def pairsBetween (s : State) (a b : Nat) : List Nat :=
  if a = b then []
  else if a = 4 then [b]
  else if b = 4 then [a]
  else match directPair a b with
    | some p => if (inUse s p).isEmpty then [a, b] else [p]
    | none => [a, b]
/-- The pairs on a message's way. -/
def wayOf (s : State) (m : Msg) : List Nat := pairsBetween s (endDie m m.src) (endDie m m.dst)
/-- The modules on a message's way. -/
def modulesOf (s : State) (m : Msg) : List Nat := (wayOf s m).filterMap fun p => moduleFor (inUse s p) m.line
/-- Whether a pair that drains takes no new message for a line: the line's module changes (R31). -/
def mustHold (s : State) (m : Msg) : Bool := (wayOf s m).any fun p =>
  decide (p ∈ s.topo.d2dDraining) && moduleFor (inUse s p) m.line != moduleFor (pairUp s.topo.d2dDown p) m.line
/-- Messages accepted by a pair and not yet delivered, by their numbers (R31). -/
def inFlight (s : State) (pair : Nat) : List Nat := (s.coh.net.filter fun m => decide (pair ∈ wayOf s m)).map (·.num)
/-- Bank and set of a line (R259). -/
def setKey (l : Nat) : Nat := bits l 6 2 * 512 + bits l 8 9
/-- A line of a stack of the node. -/
def isLine (l : Nat) : Bool := decide (l % line = 0 ∧ l < 20 * stackBytes)

def sliceOf (s : State) (l : Nat) : Slice := tget s.coh.slices (sliceNo l)
def updSlice (s : State) (l : Nat) (f : Slice → Slice) : State :=
  { s with coh := { s.coh with slices := tmod s.coh.slices (sliceNo l) f } }
def entryOf (s : State) (l : Nat) : Option DEntry := tget? (sliceOf s l).entries l

/-- An entry set; the line becomes the most recently used of its set (R273). -/
def setEntry (s : State) (l : Nat) (e : DEntry) : State :=
  updSlice s l fun x => { x with
    entries := tput x.entries l e, lru := tput x.lru (setKey l) (without (tgetD x.lru (setKey l) []) l ++ [l]) }
/-- An entry changed without a use of its way. -/
def putEntry (s : State) (l : Nat) (e : DEntry) : State := updSlice s l fun x => { x with entries := tput x.entries l e }
/-- A line back in state I: its way is free. -/
def dropEntry (s : State) (l : Nat) : State :=
  updSlice s l fun x => { x with
    entries := tdel x.entries l, lru := tput x.lru (setKey l) (without (tgetD x.lru (setKey l) []) l) }

/-- Whether an agent has been declared dead (R275). -/
def isDead (s : State) (a : Nat) : Bool :=
  decide (a ∈ s.coh.toSweep) || (decide (a < 64) && s.coh.deadTiles.getLsbD a) ||
    (decide (64 ≤ a ∧ a < 96) && s.coh.deadEngines.getLsbD (a - 64)) || (a == hostAgent && s.coh.deadHost)

/-- A message to the host as CXL carries it (R264); a BISnp is counted. -/
def sendHost (s : State) (m : Msg) : State :=
  let snp (d : Bool) : State := emit (updSlice s m.line fun x => { x with bisnps := wrapAdd 32 x.bisnps 1 }) (.biSnp m.line d)
  let p := decide (m.line ∈ s.poison)
  match m.kind with
  | .inv => snp false
  | .rcl => snp false
  | .rclS => snp true
  | .dataS => emit s (.memData m.line m.data p 1)
  | .dataB => emit s (.memData m.line m.data p 1)
  | .dataE => emit s (.memData m.line m.data p 2)
  | .dataC => emit s (.memData m.line m.data p 0)
  | _ => emit s (.memCmp m.line)

/-- A message accepted by the fabric. A DMA channel takes its data as it comes. -/
def enterNet (s : State) (m : Msg) : State :=
  if m.dst = hostAgent then sendHost s m
  else if m.dst = dmaAgent ∧ msgVc m.kind = .data then s
  else { s with coh := { s.coh with net := s.coh.net ++ [{ m with num := s.coh.nextMsg }], nextMsg := s.coh.nextMsg + 1 } }

/-- A message sent: the fabric drops messages to a dead agent (R275), and a draining pair holds those whose module changes
(R31). -/
def send (s : State) (m : Msg) : State :=
  if isDead s m.dst then s
  else if mustHold s m then { s with coh := { s.coh with held := s.coh.held ++ [m] } }
  else enterNet s m

/-- The messages held for draining pairs sent again, in order. -/
def resend (s : State) : State := s.coh.held.foldl send { s with coh := { s.coh with held := [] } }

/-- Messages of the fabric, held ones with them, that do not satisfy p. -/
def keepMsgs (c : Coh) (p : Msg → Bool) : Coh := { c with net := c.net.filter p, held := c.held.filter p }

/-- A message from the home to an agent. -/
def tell (s : State) (k : MsgKind) (a l : Nat) : State := send s { kind := k, src := homeId, dst := a, line := l }

/-- The messages in flight between two ends for a line, oldest first. -/
def between (s : State) (src dst l : Nat) : List Msg := s.coh.net.filter fun m => m.src == src && m.dst == dst && m.line == l
/-- A message of a kind between two ends for a line, once every earlier one of its virtual channel is delivered (R30, R33). -/
def findMsg (s : State) (p : MsgKind → Bool) (src dst l : Nat) : Option Msg :=
  (between s src dst l).find? fun m => p m.kind && (between s src dst l).find? (fun x => msgVc x.kind == msgVc m.kind) == some m
/-- A message received. -/
def dropMsg (s : State) (m : Msg) : State := { s with coh := { s.coh with net := dropFirst (fun x => x == m) s.coh.net } }

/-- A stack read of a line decided by the slice; its data goes to `a` as `k` (R265). -/
def rdAcc (s : State) (l : Nat) (k : MsgKind) (a : Nat) : State :=
  updSlice s l fun x => { x with accesses := x.accesses ++
    [{ line := l, write := false, data := [], mask := [], owed := some { kind := k, src := homeId, dst := a, line := l } }] }

/-- A stack write of a line decided by the slice; the message owed when it is performed. -/
def wrAcc (s : State) (l : Nat) (data : List Byte) (mask : List Bool) (owed : Option Msg) : State :=
  updSlice s l fun x => { x with accesses := x.accesses ++ [{ line := l, write := true, data := data, mask := mask, owed := owed }] }

/-- The poison pattern written to a line (R277), in the order of the line's accesses. -/
def poisonAcc (s : State) (l : Nat) : State :=
  updSlice s l fun x => { x with accesses := x.accesses ++
    [{ line := l, write := true, data := [], mask := [], owed := none, poison := true }] }

def allMask : List Bool := List.replicate line true
def owedCmp (a l : Nat) (x : Bool) : Option Msg := some { kind := .cmp x, src := homeId, dst := a, line := l }

/-- Holders of an entry in a group, the groups that hold it, and a group's Bellwether. -/
def membersIn (e : DEntry) (g : Nat) : List Nat := e.sharers.filter fun a => agentGroup a == g
def groupsOf (e : DEntry) : List Nat := (List.range 8).filter fun g => !(membersIn e g).isEmpty
def bellOf (e : DEntry) (g : Nat) : Option Nat := e.bells.find? fun a => agentGroup a == g

/-- An entry without a group. -/
def dropGroup (e : DEntry) (g : Nat) : DEntry :=
  { e with sharers := e.sharers.filter fun a => agentGroup a != g, bells := e.bells.filter fun a => agentGroup a != g }

/-- An entry that r joins in S (R266), and the kind of data it is sent. -/
def joinS (e : DEntry) (r : Nat) : DEntry × MsgKind :=
  if r = hostAgent then ({ e with sharers := addNew e.sharers r }, .dataB)
  else if (membersIn e (agentGroup r)).isEmpty then ({ e with sharers := e.sharers ++ [r], bells := e.bells ++ [r] }, .dataB)
  else ({ e with sharers := addNew e.sharers r }, .dataS)

/-- Inv with the group's mask to the Bellwether of each of some groups, and a BISnpInv to the host when asked: the state and
the agents whose Ack is awaited (R266). -/
def invGroups (s : State) (l : Nat) (e : DEntry) (gs : List Nat) (host : Bool) : State × List Nat :=
  let r := gs.foldl (fun (x : State × List Nat) g => match bellOf e g with
    | some b => (send x.1 { kind := .inv, src := homeId, dst := b, line := l, group := membersIn e g }, x.2 ++ [b])
    | none => x) (s, [])
  if host then (tell r.1 .inv hostAgent l, r.2 ++ [hostAgent]) else r

/-- Inv to single members, without a mask. -/
def invMembers (s : State) (l : Nat) (ms : List Nat) : State := ms.foldl (fun s a => tell s .inv a l) s

def isStable (e : DEntry) : Bool := e.st == .S || e.st == .M

/-- A transient state whose awaited Acks are in completes (R267). -/
def finishInv (s : State) (l : Nat) (e : DEntry) : State :=
  match e.st with
  | .SI_A =>
    let s := dropEntry s l
    (match e.act with
      | .wr => wrAcc s l e.data e.mask (owedCmp e.req l false)
      | .clr => tell s (.cmp false) e.req l
      | .putB => tell s (.cmp false) e.req l
      | _ => s)
  | .SS_A =>
    let e' := e.busyGroups.foldl dropGroup { e with st := .S, awaited := [], busyGroups := [] }
    let s := if e'.sharers.isEmpty then dropEntry s l else putEntry s l e'
    if e.act = .clr then tell s (.cmp false) e.req l else s
  | .SM_A =>
    let s := putEntry s l { st := .M, owner := e.req }
    (match e.held with
      | some d => send s { kind := .dataE, src := homeId, dst := e.req, line := l, data := d }
      | none => s)
  | _ => putEntry s l e

/-- An entry in a transient state of invalidation, completed at once when nothing is awaited (R266). -/
def settleInv (s : State) (l : Nat) (e : DEntry) : State :=
  if e.awaited.isEmpty then finishInv s l e else putEntry s l e

/-- The owner's answer completes MS_A, MI_A or MM_A (R267); `shared`: it carried S. -/
def finishRecall (s : State) (l : Nat) (e : DEntry) (shared : Bool) : State :=
  match e.st with
  | .MS_A =>
    let base : DEntry := if shared then
        { st := .S, sharers := [e.owner], bells := if e.owner = hostAgent then [] else [e.owner] }
      else { st := .S }
    if e.act = .rdS then
      let j := joinS base e.req
      rdAcc (putEntry s l j.1) l j.2 e.req
    else
      let s := if base.sharers.isEmpty then dropEntry s l else putEntry s l base
      if e.act = .rdC then rdAcc s l .dataC e.req else s
  | .MI_A =>
    let s := dropEntry s l
    (match e.act with
      | .wr => wrAcc s l e.data e.mask (owedCmp e.req l false)
      | .clr => tell s (.cmp false) e.req l
      | _ => s)
  | .MM_A => rdAcc (putEntry s l { st := .M, owner := e.req }) l .dataE e.req
  | _ => s

/-- PutB as S gives it (R266): the new entry's action, for a Bellwether r of its group or the host. -/
def putBIn (s : State) (l : Nat) (e : DEntry) (r : Nat) : State :=
  if r = hostAgent then
    let e' := { e with sharers := without e.sharers hostAgent }
    let s := if e'.sharers.isEmpty && e'.st == .S then dropEntry s l else putEntry s l e'
    tell s (.cmp false) r l
  else
    let g := agentGroup r
    let others := without (membersIn e g) r
    if others.isEmpty then
      let e' := dropGroup e g
      let s := if e'.sharers.isEmpty && e'.st == .S then dropEntry s l else putEntry s l e'
      tell s (.cmp false) r l
    else
      let s := invMembers s l others
      let e' := { e with awaited := e.awaited ++ others, busyGroups := e.busyGroups ++ [g] }
      if e.st = .SS_A then tell (putEntry s l e') (.cmp false) r l
      else if (dropGroup e g).sharers.isEmpty then putEntry s l { e' with st := .SI_A, act := .putB, req := r }
      else tell (putEntry s l { e' with st := .SS_A, act := .putB, req := r }) (.cmp false) r l

/-- A request taken in a stable state or in I, with a way for it (R266). -/
def handle (s : State) (m : Msg) : State :=
  let l := m.line
  let r := m.src
  match entryOf s l, m.kind with
  | none, .rdS => rdAcc (let j := joinS { st := .S } r; setEntry s l j.1) l .dataB r
  | none, .rdE => rdAcc (setEntry s l { st := .M, owner := r }) l .dataE r
  | none, .rdC => rdAcc s l .dataC r
  | none, .wr => wrAcc s l m.data m.mask (owedCmp r l false)
  | none, .clr => tell s (.cmp false) r l
  | some e, k =>
    let s := setEntry s l e
    if e.st = .S then
      let host := decide (hostAgent ∈ e.sharers)
      match k with
      | .rdS => let j := joinS e r; rdAcc (putEntry s l j.1) l j.2 r
      | .rdE =>
        let x := invGroups (rdAcc s l .dataE r) l e (groupsOf e) (host && r != hostAgent)
        settleInv x.1 l { e with st := .SM_A, act := .rdE, req := r, awaited := x.2 }
      | .rdC => rdAcc s l .dataC r
      | .wr =>
        let x := invGroups s l e (groupsOf e) host
        settleInv x.1 l { e with st := .SI_A, act := .wr, req := r, awaited := x.2, data := m.data, mask := m.mask }
      | .clr =>
        if (groupsOf e).isEmpty then tell s (.cmp false) r l
        else
          let x := invGroups s l e (groupsOf e) false
          settleInv x.1 l { e with
            st := if host then .SS_A else .SI_A, act := .clr, req := r, awaited := x.2, busyGroups := groupsOf e }
      | _ => s
    else
      let o := e.owner
      let ask (k : MsgKind) (st : DState) (a : DAct) : State :=
        tell (putEntry s l { e with st := st, act := a, req := r, data := m.data, mask := m.mask }) k o l
      match k with
      | .rdS => ask .rclS .MS_A .rdS
      | .rdE => ask .rcl .MM_A .rdE
      | .rdC => ask .rclS .MS_A .rdC
      | .wr => if r = o then wrAcc s l m.data m.mask (owedCmp r l false) else ask .rcl .MI_A .wr
      | .clr => if o = hostAgent then tell s (.cmp false) r l else ask .rcl .MI_A .clr
      | _ => s
  | _, _ => s

/-! Victims and the retry queue (R273, R274). -/

/-- Whether a request needs a way that its line does not have. -/
def needsWay (s : State) (m : Msg) : Bool := (entryOf s m.line).isNone && (m.kind == .rdS || m.kind == .rdE)
def waysOf (s : State) (l : Nat) : List Nat := tgetD (sliceOf s l).lru (setKey l) []
def wayFree (s : State) (l : Nat) : Bool := decide ((waysOf s l).length < 16)

/-- The class of a stable way as a victim (R273), 0 first. -/
def victimClass (e : DEntry) : Option Nat :=
  if e.st = .S then some (if hostAgent ∈ e.sharers then 1 else 0)
  else if e.st = .M then some (if e.owner = hostAgent then 3 else 2) else none

/-- The victim of a set: least recently used of the first non-empty class (R273). -/
def victimOf (s : State) (l : Nat) : Option Nat :=
  ((List.range 4).findSome? fun c => (waysOf s l).find? fun v => (entryOf s v).bind victimClass == some c)

/-- A victim's eviction started (R273, R266). -/
def evict (s : State) (v : Nat) : State :=
  match entryOf s v with
  | none => s
  | some e =>
    let s := updSlice s v fun x => { x with evicts := wrapAdd 32 x.evicts 1 }
    if e.st = .S then
      let x := invGroups s v e (groupsOf e) (decide (hostAgent ∈ e.sharers))
      settleInv x.1 v { e with st := .SI_A, act := .evict, awaited := x.2 }
    else if e.st = .M then tell (putEntry s v { e with st := .MI_A, act := .evict }) .rcl e.owner v
    else s

/-- Whether an eviction is under way in a line's set. -/
def evicting (s : State) (l : Nat) : Bool := (waysOf s l).any fun v => match entryOf s v with
  | some e => !isStable e && e.act == .evict
  | none => false

/-- Whether a request can proceed now: its line is not in a transient state and has a way if it needs one. -/
def canProceed (s : State) (m : Msg) : Bool :=
  match entryOf s m.line with
  | some e => isStable e
  | none => !needsWay s m || wayFree s m.line

/-- The oldest waiting request of a list that can proceed, none passing an earlier request for its line, nor an earlier one
for a way of its set; and what waits besides. -/
def pickRetry (s : State) (before : List Msg) : List Msg → Option (Msg × List Msg)
  | [] => none
  | m :: r =>
    let blocked := before.any fun x => x.line == m.line ||
      (needsWay s x && needsWay s m && setKey x.line == setKey m.line)
    if !blocked && canProceed s m then some (m, before ++ r) else pickRetry s (before ++ [m]) r

/-- Waiting requests of a line's slice examined again (R274), by fuel: the oldest that can proceed goes first; one that
waits for a way of a set in which nothing is being evicted starts an eviction. -/
def reexamine (s : State) (l : Nat) : Nat → State
  | 0 => s
  | k + 1 =>
    let q := (sliceOf s l).retry
    match pickRetry s [] q with
    | some (m, rest) => reexamine (handle (updSlice s l fun x => { x with retry := rest }) m) l k
    | none =>
      match q.find? (fun m => needsWay s m && !wayFree s m.line && !evicting s m.line && (victimOf s m.line).isSome) with
      | some m => (match victimOf s m.line with
          | some v => reexamine (evict s v) l k
          | none => s)
      | none => s

def retryAgain (s : State) (l : Nat) : State := reexamine s l (2 * (sliceOf s l).retry.length + 2)

/-- Whether an arriving request must wait in the retry queue (R274). -/
def mustWait (s : State) (m : Msg) : Bool :=
  let q := (sliceOf s m.line).retry
  !canProceed s m || q.any fun x => x.line == m.line || (needsWay s m && needsWay s x && setKey x.line == setKey m.line)

/-- The queue holds 64; while it is full requests stay on their channel (R274). -/
def queueFull (s : State) (l : Nat) : Bool := decide (64 ≤ (sliceOf s l).retry.length)

/-- A request received at the home: taken, or kept in the retry queue; with no way for it an eviction is started. -/
def arrive (s : State) (m : Msg) : State :=
  let s := updSlice s m.line fun x => { x with reqs := wrapAdd 32 x.reqs 1 }
  if mustWait s m then
    let s' := updSlice s m.line fun x => { x with retry := x.retry ++ [m], retried := wrapAdd 32 x.retried 1 }
    if needsWay s m && !wayFree s m.line && !(s.coh.slices.any fun x => x.2.retry.any fun y =>
        needsWay s y && setKey y.line == setKey m.line && sliceNo y.line == sliceNo m.line) then
      (match victimOf s' m.line with
        | some v => retryAgain (evict s' v) m.line
        | none => s')
    else s'
  else retryAgain (handle s m) m.line

/-- Whether the entry of a line cannot be trusted: a double-bit error, a hard fault of the quad that UNIT_FAULT takes up (R278). -/
def badEntry (s : State) (l : Nat) : Bool := match entryOf s l with
  | some e => decide (2 ≤ e.flips)
  | none => false

/-- The lookup of a line's entry: a single-bit error is corrected, counted and written back (R278). -/
def lookup (s : State) (l : Nat) : State := match entryOf s l with
  | some e => if e.flips = 1 then
      updSlice (putEntry s l { e with flips := 0 }) l fun x => { x with eccCorr := satAdd 16 x.eccCorr 1 }
    else s
  | none => s

/-- The use of a way by a request that hits it (R273). -/
def touch (s : State) (l : Nat) : State := match entryOf s l with
  | some e => setEntry s l e
  | none => s

/-- A request row of R266: the next request of this sender for the line, when it is of this kind. While the retry queue is full
the request keeps to its channel (R274). With EN = 0 a read is served as RdC (R280). -/
def requestRow (s : State) (k : MsgKind) (r l : Nat) : Res :=
  match findMsg s (· == k) r homeId l with
  | none => .next s
  | some m =>
    if queueFull s l || badEntry s l then .next s
    else
      let s := lookup s l
      if !s.coh.en && (k == .rdS || k == .rdE) then
        let s := updSlice (dropMsg s m) l fun x => { x with reqs := wrapAdd 32 x.reqs 1 }
        .next (rdAcc s l (if r = hostAgent then .dataC else .dataS) r)
      else .next (arrive (dropMsg s m) m)

/-- RDS (R266). -/
def execRds (r line : Nat) (s : State) : Res := requestRow s .rdS r line
/-- RDE (R266). -/
def execRde (r line : Nat) (s : State) : Res := requestRow s .rdE r line
/-- RDC (R266). -/
def execRdc (r line : Nat) (s : State) : Res := requestRow s .rdC r line
/-- WR (R266). -/
def execWr (r line : Nat) (s : State) : Res := requestRow s .wr r line
/-- CLR (R266): from the Drover. -/
def execClr (line : Nat) (s : State) : Res := requestRow s .clr droverAgent line

/-- A Put accepted: counted, and the use of its line's way noted. -/
def putArrives (s : State) (m : Msg) : State :=
  touch (updSlice (dropMsg (lookup s m.line) m) m.line fun x => { x with reqs := wrapAdd 32 x.reqs 1 }) m.line

/-- Whether a recall of a line from its owner r is under way, which r's Put answers (R272). -/
def recalls (s : State) (r l : Nat) : Bool := match entryOf s l with
  | some e => e.owner == r && (e.st == .MS_A || e.st == .MI_A || e.st == .MM_A)
  | none => false

/-- A Put of a kind that the slice takes now: while its retry queue is full, only one that answers a recall, which completes a
transient state (R272, R274). -/
def findPut (s : State) (k : MsgKind) (r l : Nat) : Option Msg :=
  if (queueFull s l && !recalls s r l) || badEntry s l then none else findMsg s (· == k) r homeId l

/-- PUTB (R266): from the Bellwether of its group or from the host in S, and in SS_A from a group not under invalidation;
otherwise stale. -/
def execPutb (r line : Nat) (s : State) : Res :=
  match findPut s .putB r line with
  | none => .next s
  | some m =>
    let s := putArrives s m
    match entryOf s line with
    | none => .next (tell s (.cmp false) r line)
    | some e =>
      let holder := if r = hostAgent then decide (hostAgent ∈ e.sharers) else decide (r ∈ e.bells)
      if holder && (e.st == .S || (e.st == .SS_A && !(agentGroup r ∈ e.busyGroups))) then
        .next (retryAgain (putBIn s line e r) line)
      else .next (tell s (.cmp false) r line)

/-- PUTE (R266, R272): from the owner; in a recall it stands in for a clean answer, and its Cmp carries X. -/
def execPute (r line : Nat) (s : State) : Res :=
  match findPut s .putE r line with
  | none => .next s
  | some m =>
    let s := putArrives s m
    match entryOf s line with
    | some e =>
      if e.st = .M && e.owner == r then .next (retryAgain (tell (dropEntry s line) (.cmp false) r line) line)
      else if (e.st = .MS_A ∨ e.st = .MI_A ∨ e.st = .MM_A) ∧ e.owner = r then
        .next (retryAgain (finishRecall (tell s (.cmp true) r line) line e false) line)
      else .next (tell s (.cmp false) r line)
    | none => .next (tell s (.cmp false) r line)

/-- PUTM (R266, R272): from the owner, with its line; in a recall it stands in for the dirty answer. -/
def execPutm (r line : Nat) (s : State) : Res :=
  match findPut s .putM r line with
  | none => .next s
  | some m =>
    let s := putArrives s m
    match entryOf s line with
    | some e =>
      if e.st = .M && e.owner == r then
        .next (retryAgain (wrAcc (dropEntry s line) line m.data m.mask (owedCmp r line false)) line)
      else if (e.st = .MS_A ∨ e.st = .MI_A ∨ e.st = .MM_A) ∧ e.owner = r then
        .next (retryAgain (finishRecall (wrAcc s line m.data m.mask (owedCmp r line true)) line e false) line)
      else .next (tell s (.cmp false) r line)
    | none => .next (tell s (.cmp false) r line)

/-- ACK (R266): PEND − 1, complete at 0. -/
def execAck (r line : Nat) (s : State) : Res :=
  match findMsg s (· == .ack) r homeId line with
  | none => .next s
  | some m =>
    let s := dropMsg s m
    match entryOf s line with
    | some e =>
      if r ∈ e.awaited then .next (retryAgain (settleInv s line { e with awaited := e.awaited.erase r }) line) else .next s
    | none => .next s

def isWbd (k : MsgKind) : Bool := match k with
  | .wbD _ => true
  | _ => false
def isCack (k : MsgKind) : Bool := match k with
  | .cAck _ => true
  | _ => false

/-- WBD (R267): dirty data answering a recall; the host's completes at its BIRsp (R264). -/
def execWbd (r line : Nat) (s : State) : Res :=
  match findMsg s isWbd r homeId line with
  | none => .next s
  | some m =>
    let s := dropMsg s m
    match entryOf s line with
    | some e =>
      if (e.st = .MS_A ∨ e.st = .MI_A ∨ e.st = .MM_A) ∧ e.owner = r then
        let s := wrAcc s line m.data m.mask (if r = hostAgent then owedCmp r line false else none)
        if r = hostAgent then .next s
        else .next (retryAgain (finishRecall s line e (m.kind == .wbD true)) line)
      else .next s
    | none => .next s

/-- CACK (R267): clean answer to a recall. -/
def execCack (r line : Nat) (s : State) : Res :=
  match findMsg s isCack r homeId line with
  | none => .next s
  | some m =>
    let s := dropMsg s m
    match entryOf s line with
    | some e =>
      if (e.st = .MS_A ∨ e.st = .MI_A ∨ e.st = .MM_A) ∧ e.owner = r then
        .next (retryAgain (finishRecall s line e (m.kind == .cAck true)) line)
      else .next s
    | none => .next s

/-! Stack accesses (R265, R268). -/

/-- The near-bank unit whose running micro-op an access to a line waits for (R251); none elsewhere. The unit is the one whose
bank set holds the line (R230, R240). -/
def runningUnit (s : State) (l : Nat) : Option Nat :=
  ((stackOf s (dpaStack l)).units.find? fun u => u.2.running.isSome && u.1 == dpaOff l % bale / 512).map (·.1)

/-- A masked write of a line performed at its home: a whole line clears its poison, a part leaves it (R239). -/
def writeLine (s : State) (l : Nat) (data : List Byte) (mask : List Bool) : State :=
  { s with
    mem := s.mem.writeMask l data mask
    poison := if mask.all id && mask.length == line then without s.poison l else s.poison }

/-- The message owed by an access, sent (R268): data of a read decided on entry to SM_A is held until PEND is 0. -/
def payOwed (s : State) (l : Nat) (data : List Byte) (o : Option Msg) : State :=
  match o with
  | none => s
  | some m =>
    match m.kind, entryOf s l with
    | .dataE, some e =>
      if e.st = .SM_A && e.req == m.dst then putEntry s l { e with held := some data } else send s { m with data := data }
    | .cmp _, _ => send s m
    | _, _ => send s { m with data := data }

/-- The oldest access of a line performed, and what it owes sent (R268): a write of the poison pattern poisons the line (R277). -/
def performAccess (s : State) (a : Access) : State :=
  let s := updSlice s a.line fun x => { x with accesses := dropFirst (fun b => b.line == a.line) x.accesses }
  if a.poison then payOwed { s with poison := addNew s.poison a.line } a.line [] a.owed
  else if a.write then payOwed (writeLine s a.line a.data a.mask) a.line [] a.owed
  else payOwed s a.line (s.mem.read a.line line) a.owed

/-- STACK_ACCESS_DONE (R268): the oldest access of the line is performed, and what it owes is sent. One that reaches a bank set whose
unit is mid-micro-op waits for the boundary (R251; writes as reads: log 144). -/
def execStackAccessDone (line : Nat) (s : State) : Res :=
  match (sliceOf s line).accesses.find? (fun a => a.line == line) with
  | none => .next s
  | some a =>
    if (stackOf s (dpaStack line)).retraining then .next s
    else match runningUnit s line with
      | some u => .next (updStack s (dpaStack line) fun x => { x with units := tupd x.units u fun y => { y with waiting := addNew y.waiting line } })
      | none => .next (performAccess s a)

/-! Dead agents (R275 to R277). -/

/-- An agent declared dead: latched, and its sweep is due (R275). -/
def declareDead (s : State) (a : Nat) : State :=
  if isDead s a then s
  else { s with coh := { keepMsgs s.coh (fun m => m.dst != a) with toSweep := s.coh.toSweep ++ [a], lastDead := a } }

/-- A line lost with its owner (R277): the poison pattern is written to it, and it is counted and latched. -/
def loseLine (s : State) (l : Nat) : State :=
  let s := poisonAcc s l
  { s with coh := { s.coh with
      lost := satAdd 16 s.coh.lost 1, reclaimValid := true, reclaimStack := dpaStack l, reclaimOffset := dpaOff l / line } }

/-- An entry whose requester is dead: its request is dropped, what is owed to it discarded (R276). -/
def forgetReq (e : DEntry) (d : Nat) : DEntry :=
  if !isStable e && e.req == d && e.act != .evict then
    match e.st with
    | .SM_A => { e with st := .SI_A, act := .evict }
    | .MM_A => { e with st := .MI_A, act := .evict }
    | .MS_A => { e with act := .evict }
    | .SS_A => { e with act := .putB }
    | _ => { e with act := .evict }
  else e

/-- The sweep of one entry for a dead agent (R276). -/
def sweepEntry (s : State) (d l : Nat) : State :=
  match entryOf s l with
  | none => s
  | some e0 =>
    let e := forgetReq e0 d
    let s := putEntry s l e
    let g := agentGroup d
    let others := without (membersIn e g) d
    let gone := { e with sharers := without e.sharers d, bells := without e.bells d }
    match e.st with
    | .M => if e.owner = d then dropEntry (loseLine s l) l else s
    | .S =>
      if !(d ∈ e.sharers) then s
      else if !(d ∈ e.bells) || others.isEmpty then (if gone.sharers.isEmpty then dropEntry s l else putEntry s l gone)
      else
        let s := invMembers s l others
        let st : DState := if (dropGroup e g).sharers.isEmpty then .SI_A else .SS_A
        putEntry s l { gone with st := st, act := .putB, req := d, awaited := others, busyGroups := [g] }
    | .MS_A => if e.owner = d then finishRecall (loseLine s l) l e false else s
    | .MI_A => if e.owner = d then finishRecall (loseLine s l) l e false else s
    | .MM_A => if e.owner = d then finishRecall (loseLine s l) l e false else s
    | _ =>
      if d ∈ e.awaited then
        let bell := decide (d ∈ e.bells)
        let s := if bell then invMembers s l others else s
        settleInv s l { gone with awaited := e.awaited.erase d ++ (if bell then others else []) }
      else if d ∈ e.bells ∧ e.st = .SS_A ∧ !(g ∈ e.busyGroups) ∧ others ≠ [] then
        putEntry (invMembers s l others) l { gone with awaited := e.awaited ++ others, busyGroups := e.busyGroups ++ [g] }
      else putEntry s l gone

/-- What a slice owes or keeps for a dead agent discarded (R276). -/
def sweepSlice (d : Nat) (x : Slice) : Slice :=
  let owes (a : Access) : Access := if a.owed.any (fun m => m.dst == d) then { a with owed := none } else a
  { x with retry := x.retry.filter fun m => m.src != d, accesses := x.accesses.map owes }

/-- Collections of the agents: a member declared dead counts as having acknowledged (R269). -/
def sweepCollects (s : State) (d : Nat) : State :=
  s.coh.agents.foldl (fun s a =>
    let hit := a.2.collects.filter fun c => d ∈ c.awaiting
    let done := (hit.filter fun c => c.awaiting == [d]).map (·.line)
    let cs := (a.2.collects.map fun c => { c with awaiting := without c.awaiting d }).filter fun c => !c.awaiting.isEmpty
    let s := { s with coh := { s.coh with agents := tupd s.coh.agents a.1 fun x => { x with collects := cs } } }
    done.foldl (fun s l => send s { kind := .ack, src := a.1, dst := homeId, line := l }) s) s

/-- The event record of a sweep that lost lines names the agent (R277, R448). -/
def lostEvent (s : State) (d lost : Nat) : State :=
  if lost = 0 then s
  else if d < 64 then postEvent s 1 (.tile d) 20 lost d
  else if d < 96 then postEvent s 1 (.engine (d - 64)) 20 lost d
  else postNodeEvent s 1 20 lost d

/-- RECLAIM_SWEEP (R275, R276): every slice's entries examined for an agent declared dead. -/
def execReclaimSweep (agent : Nat) (s : State) : Res :=
  if !(agent ∈ s.coh.toSweep) || s.coh.sweeping then .next s
  else
    let s := { s with coh := { keepMsgs s.coh (fun m => m.src != agent) with
      toSweep := agent :: without s.coh.toSweep agent, sweeping := true
      slices := tmap s.coh.slices fun _ x => sweepSlice agent x
      agents := tdel s.coh.agents agent } }
    let lines := s.coh.slices.flatMap fun x => tkeys x.2.entries
    let owned := (lines.filter fun l => match entryOf s l with
      | some e => e.owner == agent && (e.st == .M || e.st == .MS_A || e.st == .MI_A || e.st == .MM_A)
      | none => false).length
    let s := lines.foldl (fun s l => sweepEntry s agent l) s
    let s := sweepCollects s agent
    let s := lines.foldl (fun s l => retryAgain s l) s
    .next (lostEvent s agent owned)

/-- BISNP_TIMEOUT (R275): a BISnp unanswered for BISNP_TMO; the host agent is declared dead. -/
def execBisnpTimeout (line : Nat) (s : State) : Res :=
  match entryOf s line with
  | none => .next s
  | some e =>
    let waits := decide (hostAgent ∈ e.awaited) ||
      (e.owner == hostAgent && (e.st == .MS_A || e.st == .MI_A || e.st == .MM_A))
    actWhen waits s (declareDead s hostAgent)

end Sys2Proof.Machine
end

