-- ==== Sys2Proof/Machine/Agents.lean ====
section
/-!
DEFINITION. Caching agents (10, R269 to R272), writes of the node's units to stack memory (R257), the host's CXL.mem requests
(R264, R324) and the host line cache (R279).
-/

namespace Sys2Proof.Machine

def updAgent (s : State) (a : Nat) (f : Agent → Agent) : State :=
  { s with coh := { s.coh with agents := tmod s.coh.agents a f } }
def agentOf (s : State) (a : Nat) : Agent := tget s.coh.agents a
def aline (s : State) (a l : Nat) : Option ALine := tget? (agentOf s a).lines l
def setAline (s : State) (a l : Nat) (x : ALine) : State := updAgent s a fun g => { g with lines := tput g.lines l x }
def dropAline (s : State) (a l : Nat) : State := updAgent s a fun g => { g with lines := tdel g.lines l }

/-- A request or a response from an agent to the home. -/
def toHome (s : State) (k : MsgKind) (a l : Nat) : State := send s { kind := k, src := a, dst := homeId, line := l }

/-- Loads served by a line. -/
def serve (s : State) (a n : Nat) : State := updAgent s a fun g => { g with loadsServed := g.loadsServed + n }

/-- Bytes of a line after a masked store. -/
def maskBytes (old new : List Byte) (mask : List Bool) : List Byte :=
  (List.range line).map fun i => if nth mask i false then nth new i 0 else nth old i 0

/-- Sets of an agent's cache, of 8 ways each (R255): 128 of a tile's read cache, 64 of an engine's. -/
def cacheSets (a : Nat) : Nat := if a < 64 then 128 else 64
/-- The set of a line in an agent's cache (log 137). -/
def cacheSet (a l : Nat) : Nat := l / line % cacheSets a
/-- Whether a line's set has a way for it. -/
def cacheRoom (s : State) (a l : Nat) : Bool :=
  decide (((agentOf s a).lines.filter fun x => cacheSet a x.1 == cacheSet a l).length < 8)

/-- The flash map share of a stack, as offsets (R229, log 8). -/
def inMapShare (s : State) (l : Nat) : Bool :=
  let n := dpaStack l
  let r := nth s.boot.image.regions n (0, 0, 0, 0)
  let lo := (homeSlots s n + poolPer s n + r.1 * 16) * bale
  decide (lo ≤ dpaOff l ∧ dpaOff l < lo + r.2.1 * 16 * bale)

/-- Whether a line lies in request state held in a pool (R236, R286). -/
def inReqState (s : State) (l : Nat) : Bool :=
  s.drover.reqs.any fun r => r.stack == dpaStack l && decide (dpaOff l / bale ∈ r.slots)

/-- Whether a store of an agent takes ownership (R257): an engine's, to the flash map share or to its request state, while the
directory is enabled (R280). -/
def takesOwner (s : State) (a l : Nat) : Bool := decide (64 ≤ a) && s.coh.en && (inMapShare s l || inReqState s l)

/-- A write through to the home (R257); the agent's own copy is updated in place. -/
def writeThrough (s : State) (a l : Nat) (data : List Byte) (mask : List Bool) : State :=
  let s := match aline s a l with
    | some x => if x.data.isEmpty then s else setAline s a l { x with data := maskBytes x.data data mask }
    | none => s
  send s { kind := .wr, src := a, dst := homeId, line := l, data := data, mask := mask }

/-- Whether an agent has a Wr of a line open: in flight, waiting, under way, or its Cmp in flight (R261: one open transaction
for each line). -/
def wrOpen (s : State) (a l : Nat) : Bool :=
  let sl := sliceOf s l
  let isWr (m : Msg) : Bool := m.kind == .wr && m.src == a && m.line == l
  let isCmp (m : Msg) : Bool := m.dst == a && m.line == l && (m.kind == .cmp false || m.kind == .cmp true)
  (s.coh.net ++ s.coh.held).any (fun m => isWr m || isCmp m) || sl.retry.any isWr || sl.accesses.any (fun x => x.owed.any isCmp) ||
    (match entryOf s l with
      | some e => !isStable e && e.act == .wr && e.req == a
      | none => false)

/-- Whether an agent is blocked on a request: one of its requests has no credit, its slice's retry queue being full (R270, R274,
log 138). -/
def blocked (s : State) (a : Nat) : Bool := s.coh.net.any fun m => m.src == a && msgVc m.kind == .request && queueFull s m.line

/-- Tiles and engines cache; only alive ones of usable units act, while the domains they depend on are on (R37). -/
def agentUp (s : State) (a : Nat) : Bool :=
  !isDead s a && domainOn s domSPN && domainOn s domHUB &&
    ((decide (a < 64) && tileUsable s a && domainOn s (domQ (a / 16))) ||
     (decide (64 ≤ a ∧ a < 96) && chanUsable s (a - 64) && domainOn s (domF ((a - 64) / 8))))

/-- An access kept waiting at its agent behind those that wait (R271). -/
def park (s : State) (a l : Nat) (w : Option (List Byte × List Bool)) : State :=
  updAgent s a fun g => { g with parked := g.parked ++ [(l, w)] }
/-- Whether an earlier access of an agent to a line waits. -/
def isParked (s : State) (a l : Nat) : Bool := (agentOf s a).parked.any fun x => x.1 == l

/-- An access that waits for what an agent asks the home: the line's new state and the request (R271). -/
def askHome (s : State) (a l : Nat) (w : Option (List Byte × List Bool)) (st : AState) (k : MsgKind) : State :=
  toHome (setAline (park s a l w) a l { st := st }) k a l

/-- One access of an agent to a line, a load or a store of some bytes (R271, R257): it hits, asks the home, is written through,
or waits — in a transient state, behind an earlier access to the line, for a way of its set (R255), while a Wr of the line is
open (R261), or while the agent is blocked (R270). -/
def access (s : State) (a l : Nat) (w : Option (List Byte × List Bool)) : State :=
  let busy := wrOpen s a l || blocked s a
  if isParked s a l then park s a l w
  else match aline s a l, w with
    | none, none =>
      if busy || !cacheRoom s a l then park s a l w else askHome s a l w (if s.coh.en then .IS_D else .II_D) .rdS
    | none, some (d, m) =>
      if busy || (takesOwner s a l && !cacheRoom s a l) then park s a l w
      else if takesOwner s a l then askHome s a l w .IE_D .rdE
      else writeThrough s a l d m
    | some x, none => if x.st = .S ∨ x.st = .B ∨ x.st = .E ∨ x.st = .M then serve s a 1 else park s a l w
    | some x, some (d, m) =>
      match x.st with
      | .S =>
        if busy then park s a l w
        else if takesOwner s a l then askHome s a l w .IE_D .rdE
        else writeThrough s a l d m
      | .B =>
        if busy then park s a l w
        else if takesOwner s a l then askHome s a l w .BI_P .putB
        else writeThrough s a l d m
      | .E => setAline s a l { x with st := .M, data := maskBytes x.data d m }
      | .M => setAline s a l { x with data := maskBytes x.data d m }
      | _ => park s a l w

/-- The waiting accesses of an agent tried again, oldest first. -/
def unpark (s : State) (a : Nat) : State :=
  let l := (agentOf s a).parked
  if l.isEmpty then s else l.foldl (fun s x => access s a x.1 x.2) (updAgent s a fun g => { g with parked := [] })

/-- The loads of a line that wait, served once (R271, II_D). -/
def serveOnce (s : State) (a l : Nat) : State :=
  let mine (x : Nat × Option (List Byte × List Bool)) : Bool := x.1 == l && x.2.isNone
  serve (updAgent s a fun g => { g with parked := g.parked.filter fun x => !mine x }) a ((agentOf s a).parked.filter mine).length

/-- AGENT_LOAD (R271): a hit is served, a miss asks RdS, in a transient state the load waits. With EN = 0 nothing is kept. -/
def execAgentLoad (a line : Nat) (s : State) : Res := actWhen (agentUp s a && isLine line) s (access s a line none)

/-- AGENT_STORE (R271, R257): a tile's is Wr in every state; an engine's own lines are stored to in E or M. -/
def execAgentStore (a line : Nat) (data : List Byte) (mask : List Bool) (s : State) : Res :=
  actWhen (agentUp s a && isLine line) s (access s a line (some (data, mask)))

/-- AGENT_REPLACE (R271): S is dropped silently; B, E and M are given up by a Put, when the line has no open transaction and the
agent is not blocked; other states do not replace. -/
def execAgentReplace (a line : Nat) (s : State) : Res :=
  match aline s a line with
  | none => .next s
  | some x =>
    let busy := wrOpen s a line || blocked s a
    if isDead s a then .next s
    else match x.st with
      | .S => .next (unpark (dropAline s a line) a)
      | .B => actWhen (!busy) s (toHome (setAline s a line { st := .BI_P }) .putB a line)
      | .E => actWhen (!busy) s (toHome (setAline s a line { st := .EI_P }) .putE a line)
      | .M =>
        actWhen (!busy) s (send (setAline s a line { st := .MI_P, data := x.data })
          { kind := .putM, src := a, dst := homeId, line := line, data := x.data, mask := allMask })
      | _ => .next s

/-- What an Inv does to the agent's own copy (R271). -/
def ownInv (s : State) (a l : Nat) : State :=
  match aline s a l with
  | none => s
  | some x => match x.st with
    | .S => unpark (dropAline s a l) a
    | .B => unpark (dropAline s a l) a
    | .IS_D => setAline s a l { x with st := .II_D }
    | _ => s

/-- The Inv for a line that an agent receives next, from whichever end: no earlier snoop of that end for the line waits (R33). -/
def findInv (s : State) (a l : Nat) : Option Msg :=
  (s.coh.net.filter fun m => msgVc m.kind == .snoop && m.dst == a && m.line == l).find? fun m =>
    m.kind == .inv && findMsg s (· == .inv) m.src a l == some m

/-- INV (R269): with a mask the agent collects its group's acknowledgements, at most 32 collections at once; without one it
acknowledges to the sender. A blocked agent does not answer (R270). -/
def execInv (a line : Nat) (s : State) : Res :=
  match findInv s a line with
  | none => .next s
  | some m =>
    if blocked s a then .next s
    else if m.group.isEmpty then
      .next (send (ownInv (dropMsg s m) a line) { kind := .ack, src := a, dst := m.src, line := line })
    else if 32 ≤ (agentOf s a).collects.length then .next s
    else
      let s := dropMsg s m
      let others := (without m.group a).filter fun b => !isDead s b
      let s := others.foldl (fun s b => send s { kind := .inv, src := a, dst := b, line := line }) s
      let s := ownInv s a line
      if others.isEmpty then .next (toHome s .ack a line)
      else .next (updAgent s a fun g => { g with collects := g.collects ++ [{ line := line, awaiting := others }] })

/-- MEMBER_ACK (R269): one Ack goes home once every member has acknowledged. -/
def execMemberAck (a line member : Nat) (s : State) : Res :=
  match findMsg s (· == .ack) member a line with
  | none => .next s
  | some m =>
    let s := dropMsg s m
    let step (c : Collect) : Collect := if c.line = line then { c with awaiting := without c.awaiting member } else c
    let cs := (agentOf s a).collects.map step
    let s := updAgent s a fun g => { g with collects := cs.filter fun c => !c.awaiting.isEmpty }
    if cs.any (fun c => c.line == line && c.awaiting.isEmpty) then .next (toHome s .ack a line) else .next s

/-- A line in E or M that answers a recall (R271): kept as B when `keep`. -/
def answerRecall (s : State) (a l : Nat) (x : ALine) (keep : Bool) : State :=
  let s := if keep then setAline s a l { st := .B, data := x.data } else dropAline s a l
  let s := if x.st = .M then
      send s { kind := .wbD keep, src := a, dst := homeId, line := l, data := x.data, mask := allMask }
    else toHome s (.cAck keep) a l
  unpark s a

/-- A recall received (R271, R272); a blocked agent does not answer (R270). -/
def recallRow (a l : Nat) (k : MsgKind) (keep : Bool) (s : State) : Res :=
  match findMsg s (· == k) homeId a l with
  | none => .next s
  | some m =>
    if blocked s a then .next s
    else
      let s := dropMsg s m
      match aline s a l with
      | none => .next s
      | some x => match x.st with
        | .E => .next (answerRecall s a l x keep)
        | .M => .next (answerRecall s a l x keep)
        | .IE_D => .next (setAline s a l { x with held := some keep })
        | .EI_P => .next (setAline s a l { x with st := .II_C })
        | .MI_P => .next (setAline s a l { x with st := .II_C })
        | .II_S => .next (unpark (dropAline s a l) a)
        | _ => .next s

/-- RCL (R271): give up the line. -/
def execRcl (a line : Nat) (s : State) : Res := recallRow a line .rcl false s
/-- RCL_S (R271): keep it read-only. -/
def execRclS (a line : Nat) (s : State) : Res := recallRow a line .rclS true s

/-- Shared data received (R271): the waiting accesses run on the line, or its loads are served once. -/
def dataRow (a l : Nat) (k : MsgKind) (st : AState) (s : State) : Res :=
  match findMsg s (· == k) homeId a l with
  | none => .next s
  | some m =>
    let s := dropMsg s m
    match aline s a l with
    | none => .next s
    | some x => match x.st with
      | .IS_D => .next (unpark (setAline s a l { x with st := st, data := m.data }) a)
      | .II_D => .next (unpark (dropAline (serveOnce s a l) a l) a)
      | _ => .next s

/-- DATA_S (R271). -/
def execDataS (a line : Nat) (s : State) : Res := dataRow a line .dataS .S s
/-- DATA_B (R271). -/
def execDataB (a line : Nat) (s : State) : Res := dataRow a line .dataB .B s

/-- A snoop held in IE_D, answered once the line is owned (R271). -/
def answerHeld (s : State) (a l : Nat) (held : Option Bool) : State :=
  match held, aline s a l with
  | some keep, some y => answerRecall s a l y keep
  | _, _ => s

/-- DATA_E (R271): the waiting accesses run, then any held snoop is answered. -/
def execDataE (a line : Nat) (s : State) : Res :=
  match findMsg s (· == .dataE) homeId a line with
  | none => .next s
  | some m =>
    let s := dropMsg s m
    match aline s a line with
    | none => .next s
    | some x => actWhen (x.st == .IE_D) s (answerHeld (unpark (setAline s a line { st := .E, data := m.data }) a) a line x.held)

/-- CMP (R271, R272): a Put is accepted, with the flag X; a Wr is performed. -/
def execCmp (a line : Nat) (s : State) : Res :=
  match findMsg s (fun k => k == .cmp false || k == .cmp true) homeId a line with
  | none => .next s
  | some m =>
    let s := dropMsg s m
    let crossed (x : ALine) : State := setAline s a line { x with st := .II_S, data := [] }
    match aline s a line with
    | none => .next (unpark s a)
    | some x => match x.st with
      | .BI_P => .next (unpark (dropAline s a line) a)
      | .II_C => .next (unpark (dropAline s a line) a)
      | .EI_P => .next (if m.kind = .cmp true then crossed x else unpark (dropAline s a line) a)
      | .MI_P => .next (if m.kind = .cmp true then crossed x else unpark (dropAline s a line) a)
      | _ => .next (unpark s a)

/-! Writes and reads of node memory by the node's units (R257). -/

/-- Lines that the directory or the fabric has something about: an entry, a stack access not yet performed, a message. -/
def cohLines (s : State) : List Nat :=
  (s.coh.slices.flatMap fun x => tkeys x.2.entries ++ x.2.accesses.map (·.line) ++ x.2.retry.map (·.line)) ++
    (s.coh.net ++ s.coh.held).map (·.line) ++ s.coh.agents.flatMap fun a => a.2.parked.map (·.1)

/-- Those of a range. -/
def busyLines (s : State) (a n : Nat) : List Nat := (cohLines s).filter fun l => decide (a < l + line ∧ l < a + n)

/-- A range cut at line boundaries: address and bytes of each piece, by fuel. -/
def linePieces : Nat → Nat → List Byte → List (Nat × List Byte)
  | 0, _, _ => []
  | f + 1, a, bs =>
    if bs.isEmpty then []
    else
      let k := line - a % line
      (a, bs.take k) :: linePieces f (a + k) (bs.drop k)

/-- The bytes and the mask of a store of a piece of a line. -/
def pieceStore (a : Nat) (bs : List Byte) : List Byte × List Bool :=
  let o := a % line
  ((List.range line).map fun i => if o ≤ i then nth bs (i - o) 0 else 0, (List.range line).map fun i => decide (o ≤ i ∧ i < o + bs.length))

/-- A piece of a line stored by a unit through the directory: a caching agent's store, or a DMA channel's Wr (R257). -/
def unitStore (s : State) (a : Nat) (x : Nat × List Byte) : State :=
  let l := x.1 / line * line
  let w := pieceStore x.1 x.2
  if a < 96 then access s a l (some w)
  else send s { kind := .wr, src := a, dst := homeId, line := l, data := w.1, mask := w.2 }

/-- Bytes written to node memory by the unit of an agent, for a task or on the node's account (R257). A line that the directory has
nothing about is written at its home at once, which is what Wr does in state I; other lines take Wr. The task's completion
awaits those. -/
def agentWrite (s : State) (t : Option TaskId) (a addr : Nat) (bs : List Byte) : State :=
  let busy := busyLines s addr bs.length
  if busy.isEmpty then writeStack s addr bs
  else
    (linePieces (bs.length / line + 2) addr bs).foldl (fun s x =>
      let l := x.1 / line * line
      if l ∈ busy then
        let s := unitStore s a x
        match t with
        | some t => { s with coh := { s.coh with taskWr := s.coh.taskWr ++ [(t, a, l)] } }
        | none => s
      else writeStack s x.1 x.2) s

/-- Whether a task's writes through the directory are still to be performed (R56, R268). -/
def writesOpen (s : State) (t : TaskId) : Bool :=
  s.coh.taskWr.any fun x => x.1 == t &&
    (wrOpen s x.2.1 x.2.2 || (agentOf s x.2.1).parked.any fun y => y.1 == x.2.2 && y.2.isSome)
/-- A completed task's writes forgotten. -/
def forgetWrites (s : State) (t : TaskId) : State :=
  { s with coh := { s.coh with taskWr := s.coh.taskWr.filter fun x => x.1 != t } }

/-- Lines of a range that a DMA read finds owned or in a transient state, or with an access still to perform (R257, R266). -/
def unsettled (s : State) (a n : Nat) : List Nat := (busyLines s a n).filter fun l =>
  (match entryOf s l with
    | some e => e.st != .S
    | none => false) || (sliceOf s l).accesses.any fun x => x.line == l && x.write

/-- The RdC of a DMA channel for the owned lines of a range, one for each line; nothing while none is needed (R257). -/
def askLines (s : State) (l : List Nat) : State :=
  l.foldl (fun s l =>
    let asked := (s.coh.net ++ s.coh.held ++ (sliceOf s l).retry).any fun m => m.kind == .rdC && m.src == dmaAgent && m.line == l
    match entryOf s l with
    | some e => if e.st = .M ∧ !asked then send s { kind := .rdC, src := dmaAgent, dst := homeId, line := l } else s
    | none => s) s

/-! The host (R264, R281, R324). -/

/-- Whether the host owns a line: E or M at the directory, or a recall of it under way. -/
def hostOwns (s : State) (l : Nat) : Bool := match entryOf s l with
  | some e => e.st == .M && e.owner == hostAgent
  | none => false
def hostRecalled (s : State) (l : Nat) : Bool := match entryOf s l with
  | some e => e.owner == hostAgent && (e.st == .MS_A || e.st == .MI_A || e.st == .MM_A)
  | none => false
def hostSnooped (s : State) (l : Nat) : Bool := match entryOf s l with
  | some e => decide (hostAgent ∈ e.awaited)
  | none => false

/-- Whether a line lies in the home-slot region of a usable stack (R324). -/
def homeLine (s : State) (l : Nat) : Bool :=
  stackUsable s (dpaStack l) && decide (dpaOff l < homeSlots s (dpaStack l) * bale)

/-- Whether the committed HDM decoders of port A reach a line (R324), the port's domains being on (R37). -/
def hostReaches (s : State) (l : Nat) : Bool := s.port.upA && hostPortOn s && isLine l

/-- A poisoned line as the host reads a reserved region or a failed stack (R324). -/
def poisonReply (s : State) (l : Nat) : State := emit s (.memData l (List.replicate line 0) true 0)

/-- A CXL.mem write of the host during a recording, counted in TRC_STAT.HOSTMEM (R453). -/
def countHostWrite (s : State) : State :=
  if s.trace.recording then { s with trace := { s.trace with hostmem := satAdd 32 s.trace.hostmem 1 } } else s

/-- A line whose coherence a host error leaves unpredictable (R281): a free value decides whether its stable entry stays (log 139). -/
def wildLine (s : State) (l : Nat) : State :=
  let r := drawTag s
  match entryOf s l with
  | some e => if isStable e && Config.freeBool r.1 then dropEntry r.2 l else r.2
  | none => r.2

/-- A read of a line that the host owns: free bytes with a free grant, and the line unpredictable (R281). -/
def wildRead (s : State) (l : Nat) : State :=
  let r := drawTag s
  wildLine (emit r.2 (.memData l ((List.range line).map fun i => Config.freeByte r.1 i) false ((Config.freeByte r.1 line).toNat % 3))) l

/-- An answer of the host for a line: after an Inv, for a recall, for one that its own MemClnEvct has answered, or one that matches
no snoop (R264, R272, R281). -/
def biRsp (s : State) (l : Nat) (shared : Bool) : State :=
  let put (k : MsgKind) : State := send s { kind := k, src := hostAgent, dst := homeId, line := l }
  let keeps : Bool := match entryOf s l with
    | some e => e.st == .MS_A
    | none => false
  if hostSnooped s l && !shared then put .ack
  else if hostRecalled s l && (!shared || keeps) then put (.cAck shared)
  else if l ∈ s.port.biStray then { s with port := { s.port with biStray := without s.port.biStray l } }
  else wildLine s l

/-- A CXL.mem request of the host (R264, R324). A request or an answer that breaks CXL for the line's state leaves the line
unpredictable (R281). -/
def hostMemRow (req : CxlReq) (l : Nat) (s : State) : Res :=
  if !hostReaches s l then .next s
  else
    let put (s : State) (k : MsgKind) (d : List Byte) (m : List Bool) : State :=
      send s { kind := k, src := hostAgent, dst := homeId, line := l, data := d, mask := m }
    let inHome := homeLine s l
    match req with
    | .rdShared =>
      .next (if !inHome then poisonReply s l else if hostOwns s l then wildRead s l else put s .rdS [] [])
    | .rdOwn =>
      .next (if !inHome then poisonReply s l else if hostOwns s l then wildRead s l else put s .rdE [] [])
    | .rdCur => .next (if !inHome then poisonReply s l else put s .rdC [] [])
    | .wr d m =>
      let s := countHostWrite s
      .next (if !inHome then emit s (.memCmp l)
        else if hostRecalled s l then put s (.wbD false) d m
        else if hostOwns s l then put s .putM d m
        else put s .wr d m)
    | .clnEvct =>
      if hostRecalled s l then
        .next (put { s with port := { s.port with biStray := addNew s.port.biStray l } } .putE [] [])
      else .next (put s (if hostOwns s l then .putE else .putB) [] [])
    | .biRspI => .next (biRsp s l false)
    | .biRspS => .next (biRsp s l true)
    | .biConflict => .next (if hostSnooped s l || hostRecalled s l then emit s (.biConflictAck l) else wildLine s l)

/-! The host line cache (R279). -/

def cached (s : State) (l : Nat) : Bool := s.port.hostCache.any fun x => x.line == l

/-- SNPINV (R279, R54): the line goes to I; the host's new bytes are visible. -/
def execSnpInv (line : Nat) (data : List (Nat × Byte)) (s : State) : Res :=
  let hit := cached s line
  let s := emit s (.snpRsp line (if hit then 0 else 1))
  .next { s with
    hostMem := s.hostMem.sets data
    port := { s.port with hostCache := s.port.hostCache.filter fun x => x.line != line } }

/-- SNPDATA (R279). -/
def execSnpData (line : Nat) (s : State) : Res := .next (emit s (.snpRsp line (if cached s line then 2 else 1)))

/-- SNPCUR (R279). -/
def execSnpCur (line : Nat) (s : State) : Res := .next (emit s (.snpRsp line (if cached s line then 3 else 1)))

end Sys2Proof.Machine
end

