-- ==== Sys2Proof/Machine/IndexSize.lean ====
section
/-!
DEFINITION. An index in the stacks (03, 05): its crown (R83), the bytes of its arrays (R80, R82, R86), and the bales that it takes (R140).
-/

namespace Sys2Proof.Machine

/-- The null slot (R79). -/
def nullSlot : Nat := 0xFFFFFFFFFF

/-- Code bits CB, and bytes of a full-precision vector. -/
def codeBits (d : Desc) : Nat := 256 * 2 ^ d.codeLog
def codeBytes (d : Desc) : Nat := codeBits d / 8
def vecBytes (d : Desc) : Nat := if d.vecPlace = 0 then 0 else d.vecDim * (if d.vecFmt = 0 then 4 else 2)
def pad8 (n : Nat) : Nat := (n + 7) / 8 * 8
/-- An adjacency list's bytes (R81). -/
def adjBytes (n : Nat) (l : List Nat) : List Byte := (l.take n).flatMap (le 5) ++ (List.replicate (n - l.length) (le 5 nullSlot)).flatMap id

/-! The crown (R83). -/

/-- Bytes of a crown record. -/
def crownRec (d : Desc) : Nat :=
  if d.flash then pad8 (16 + 5 * d.upperDegree + codeBytes d) else pad8 (16 + 5 * d.upperDegree) + codeBytes d

/-- The crown floor: whole layers from the top down while they fit; by layers left. -/
def crownGo (d : Desc) (sn : Snap) : Nat → Nat → Nat → Nat
  | 0, l, _ => l + 1
  | f + 1, l, n =>
    let n := n + (tget sn.upper l).length * crownRec d
    if l = 0 ∨ d.crownBales * bale < n then l + 1 else crownGo d sn f (l - 1) n

/-- The crown rebuilt (R83, R134). -/
def withCrown (d : Desc) (sn : Snap) : Snap :=
  let floor := crownGo d sn 7 sn.top 0
  { sn with crownFloor := if sn.top < floor then 0 else floor, crownEmpty := decide (sn.top < floor ∨ sn.top = 0) }

/-- The layers that a state's crown holds. -/
def crownLayers (sn : Snap) : Tab (Tab Upper) :=
  if sn.crownEmpty then [] else tfilter sn.upper fun l _ => decide (sn.crownFloor ≤ l ∧ l ≤ sn.top)
/-- Bales of tile SRAM that a crown takes. -/
def crownBales (d : Desc) (sn : Snap) : Nat := ceilDiv (sumBy (fun u => u.2.length * crownRec d) (crownLayers sn)) bale

/-! The arrays (R80, R82, R86). -/

/-- Bytes of an upper record as the stacks hold it (R80, R82). -/
def upperBytes (d : Desc) : Nat := pad8 (16 + 5 * d.upperDegree + (if d.flash then codeBytes d else 0))

/-- The bytes of an upper record (R82). -/
def upperRecord (d : Desc) (sn : Snap) (u : Upper) : List Byte :=
  let b := le 5 u.slot ++ le 5 u.down ++ le 1 u.nbr.length ++ le 5 0 ++ adjBytes d.upperDegree u.nbr ++
    (if d.flash then le (codeBytes d) (((tget? sn.slots u.slot).map (·.code)).getD 0) else [])
  b ++ List.replicate (upperBytes d - b.length) 0

/-- Slots and records that the arrays of a state reach. -/
def slotTop (sn : Snap) : Nat := sn.slots.foldl (fun m r => max m (r.1 + 1)) 0
def recTop (u : Tab Upper) : Nat := u.foldl (fun m r => max m (r.1 + 1)) 0

/-- An array: its bytes in all, and the bytes that it holds, at their offsets. -/
structure ArrayImg where
  size : Nat
  runs : List (Nat × List Byte)
deriving DecidableEq, Repr

/-- An array with an element for each slot. -/
def slotArray (sn : Snap) (size : Nat) (f : SlotRec → List Byte) : ArrayImg :=
  { size := slotTop sn * size, runs := sn.slots.map fun r => (r.1 * size, f r.2) }

/-- ID: an empty slot holds ones. -/
def idArray (sn : Snap) : ArrayImg :=
  { size := 8 * slotTop sn, runs := (List.range (slotTop sn)).map fun n =>
      (8 * n, le 8 (((tget? sn.slots n).map fun r => r.id.toNat).getD 0xFFFFFFFFFFFFFFFF)) }

/-- TOMB: bit s mod 8 of byte s / 8. -/
def tombArray (sn : Snap) : ArrayImg :=
  let n := ceilDiv (slotTop sn) 8
  { size := n, runs := (List.range n).map fun j => (j, le 1 (sumBy (fun i =>
      if (tget? sn.slots (8 * j + i)).any (·.tomb) then 2 ^ i else 0) (List.range 8))) }

/-- UPPER_l. -/
def upperArray (d : Desc) (sn : Snap) (u : Tab Upper) : ArrayImg :=
  { size := recTop u * upperBytes d, runs := u.map fun r => (r.1 * upperBytes d, upperRecord d sn r.2) }

/-- The home copy of the crown of a flash-resident index (R86): its records in layer order from the top. -/
def crownArray (d : Desc) (sn : Snap) : ArrayImg :=
  let l := (crownLayers sn).reverse.flatMap fun u => u.2.map fun r => upperRecord d sn r.2
  { size := l.length * upperBytes d, runs := ((List.range l.length).zip l).map fun x => (x.1 * upperBytes d, x.2) }

/-- The bytes of a crown in tile SRAM (R83): its records from the top layer down; a memory-resident index's are followed by their codes. -/
def crownImage (d : Desc) (sn : Snap) : List Byte :=
  (crownLayers sn).reverse.flatMap fun u => u.2.flatMap fun r =>
    upperRecord d sn r.2 ++ (if d.flash then [] else le (codeBytes d) (((tget? sn.slots r.2.slot).map (·.code)).getD 0))

/-- The key map: an ID and its slot for each entry (log 66). -/
def keyArray (sn : Snap) : ArrayImg :=
  { size := 13 * sn.keymap.length, runs := ((List.range sn.keymap.length).zip sn.keymap).map fun x => (13 * x.1, le 8 x.2.1 ++ le 5 x.2.2) }

/-- The arrays of an index in the stacks, in the model's order (R80, R86, log 67): those of its working state, and its crown's. -/
def indexArrays (d : Desc) (sn crown : Snap) : List ArrayImg :=
  (if d.flash then [] else
    [slotArray sn (codeBytes d) fun r => le (codeBytes d) r.code, slotArray sn (5 * d.degree) fun r => adjBytes d.degree r.adj, idArray sn] ++
    (if d.attrBytes = 0 then [] else [slotArray sn d.attrBytes fun r => le d.attrBytes r.attr])) ++
  [tombArray sn] ++ (if d.vecPlace = 1 then [slotArray sn (vecBytes d) (·.vec)] else []) ++
  (sn.upper.map fun u => upperArray d sn u.2) ++ [keyArray sn] ++ (if d.flash then [crownArray d crown] else [])

/-- The index header in the entry bale (R82, log 67): the top layer and the entry record. -/
def headerRun (sn : Snap) : Nat × List Byte := (0, le 1 sn.top ++ le 5 (sn.entry.getD nullSlot))

/-- Runs laid out bale by bale from a bale on, each array from its first. -/
def layRuns : Nat → List ArrayImg → List (Nat × List Byte)
  | _, [] => []
  | b, a :: r => (a.runs.map fun x => (b * bale + x.1, x.2)) ++ layRuns (b + ceilDiv a.size bale) r

/-- The arrays of an index object. -/
def arraysOf (x : Index) : List ArrayImg := indexArrays x.desc x.work (tgetD x.epochs x.latest {})
/-- Bales of the entry bale and the arrays. -/
def arrayBales (x : Index) : Nat := 1 + sumBy (fun a => ceilDiv a.size bale) (arraysOf x)
/-- The entry bale and arrays as memory, by offset. -/
def arraysImage (sn : Snap) (l : List ArrayImg) : Mem :=
  (headerRun sn :: layRuns 1 l).foldl (fun m r => m.write r.1 r.2) { cells := [], undef := [] }
/-- What the entry bale and the arrays of an index object hold. -/
def indexImage (x : Index) : Mem := arraysImage x.work (arraysOf x)

/-! Bales (R140). -/

/-- The arrays over slots: element bits, and the element as a comparable value. -/
def slotArrays (d : Desc) : List (Nat × (SlotRec → List Nat)) :=
  (if d.flash then [] else
    [(8 * codeBytes d, fun r => [r.code]), (40 * d.degree, fun r => r.adj), (64, fun r => [r.id.toNat])] ++
    (if d.attrBytes = 0 then [] else [(8 * d.attrBytes, fun r => [r.attr])])) ++
  [(1, fun r => [b2n r.tomb])] ++ (if d.vecPlace = 1 then [(8 * vecBytes d, fun r => r.vec.map (·.toNat))] else [])

/-- Bale of an element. -/
def elemBale (bitsPer i : Nat) : Nat := i * bitsPer / (8 * bale)

/-- Bales of a state whose elements differ from the next state's: the deltas that keep it readable (R140). -/
def deltaBales (d : Desc) (a b : Snap) : Nat :=
  sumBy (fun (ar : Nat × (SlotRec → List Nat)) =>
    ((a.slots.filter fun r => (tget? b.slots r.1).map ar.2 != some (ar.2 r.2)).map fun r => elemBale ar.1 r.1).foldl addNew [] |>.length)
    (slotArrays d) +
  sumBy (fun u => ((u.2.filter fun r => tget? (tget b.upper u.1) r.1 != some r.2).map fun r =>
    elemBale (8 * upperBytes d) r.1).foldl addNew [] |>.length) a.upper

def pairDeltas (d : Desc) : List Snap → Nat
  | a :: b :: r => deltaBales d a b + pairDeltas d (b :: r)
  | _ => 0

/-- The bales that an index takes: its entry bale, its working arrays, its key map, the deltas of the epochs it keeps (R140). -/
def indexBales (x : Index) : Nat :=
  arrayBales x + pairDeltas x.desc (x.epochs.map (·.2) ++ x.commits.filterMap (fun c => if c.sealed then some c.snap else none) ++ [x.work])

end Sys2Proof.Machine
end

