-- ==== Sys2Proof/Machine/Tasks.lean ====
section
/-!
DEFINITION. The Drover's bookkeeping: graphs and tasks, damper buckets (R363, R364, R67), bale homes and copies, task
records (R69, R329), edges (R56, R60), graph completion (R70).
-/

namespace Sys2Proof.Machine

/-! Graphs and tasks. -/

def graphOf (s : State) (acc : Nat) : Option Graph := s.drover.graphs.find? fun g => g.acc == acc
def modGraph (s : State) (acc : Nat) (f : Graph → Graph) : State :=
  { s with drover := { s.drover with graphs := s.drover.graphs.map fun g => if g.acc = acc then f g else g } }
def taskOf (s : State) (t : TaskId) : Option Task := (graphOf s t.graph).bind fun g => g.tasks[t.idx]?
def modTask (s : State) (t : TaskId) (f : Task → Task) : State :=
  modGraph s t.graph fun g => { g with tasks := g.tasks.modify t.idx f }

/-- Every task of every graph, with its identity and its graph. -/
def allTasks (s : State) : List (TaskId × Graph × Task) :=
  s.drover.graphs.flatMap fun g =>
    ((List.range g.tasks.length).zip g.tasks).map fun x => (⟨g.acc, x.1⟩, g, x.2)

/-- Whether a pen reset has ended every task of a graph that a task record still holds: its slots are released (R368). -/
def resetEnded (g : Graph) : Bool := g.tasks.all (fun k => k.st == .complete) && g.tasks.any (fun k => k.status == stResetAborted)

/-- Task slots, edges and graphs in use, of all pens or of one (R52, R352). -/
def slotsUsed (gs : List Graph) : Nat := sumBy (fun g => if resetEnded g then 0 else g.tasks.length) gs
def edgesUsed (gs : List Graph) : Nat := sumBy (fun g => g.edges.length) gs
def graphsOfPen (s : State) (p : Nat) : List Graph := s.drover.graphs.filter fun g => g.pen == p

/-- Whether a task's unit stalls: a bale of its operands has not arrived, or an output bale is being written back for another task
(R65, R233). -/
def stalled (s : State) (t : TaskId) (k : Task) : Bool :=
  !k.window.isEmpty ||
    s.drover.copies.any fun c => t ∈ c.pins && c.st == .writing && c.bale ∈ k.outBales && !(t ∈ c.wb)

/-- The identity that a BIND record names: acceptance number and task index (R452). -/
def bindKey (t : TaskId) : List Byte := le 4 t.graph ++ le 2 t.idx

/-- Whether a task's tile has no clock: the PLL of its quad is relocking (R444). -/
def unclocked (s : State) (k : Task) : Bool := k.unitKind == 1 && (quadOf s (quadOfTile k.unitNo)).binStage == 2

/-- An issued task of a type, and of a subtype when one is asked for, that its unit has not finished: with its graph. -/
def running (s : State) (t : TaskId) (typ : Nat) (sub : Option Nat) : Option (Graph × Task) :=
  match graphOf s t.graph, taskOf s t with
  | some g, some k =>
    if k.typ == typ && k.st == .issued && !k.orphan && (match sub with
        | some n => k.sub == n
        | none => true) && !stalled s t k && !unclocked s k then some ({ g with view := some (t, k.quad) }, k) else none
  | _, _ => none

/-! The order of R61. -/

def kindCode : UnitKind → Nat
  | .tile => 0 | .engine => 1 | .nearBank => 2 | .dma => 3 | .flue => 4 | .drover => 5

/-- The round-robin position of a unit kind and class: the pen that issued last; at start the pens are taken from 0 on. -/
def robinKey (kind : UnitKind) (cls : Nat) : Nat := 4 * kindCode kind + cls
def robinRank (s : State) (kind : UnitKind) (cls p : Nat) : Nat := (p + 255 - tgetD s.drover.robin (robinKey kind cls) 255) % 256

/-- Numbers compared from the first that differs. -/
def lexLt : List Nat → List Nat → Bool
  | x :: a, y :: b => decide (x < y) || (x == y && lexLt a b)
  | _, _ => false

/-- A candidate's place: class, the pen's turn, the cycle it became ready in, acceptance order, task index (R61). -/
def candRank (s : State) (kind : UnitKind) (x : TaskId × Graph × Task) : List Nat :=
  [x.2.1.cls, robinRank s kind x.2.1.cls x.2.1.pen, x.2.2.readyOrder, x.1.graph, x.1.idx]

/-! Damper buckets (R363, R364). -/

/-- Key of a bucket: 0 tile time, 1 stack bandwidth, 2 flash operations. -/
def bktKey (cls res : Nat) : Nat := 3 * cls + res
/-- RATE units in base units: 64 tile cycles, 4,096 bytes, 1 sixteenth of an operation. -/
def rateUnit (res : Nat) : Nat := if res = 0 then 64 else if res = 1 then 4096 else 1
def bktRate (p : Pen) (cls res : Nat) : Nat := tgetD p.rates (bktKey cls res) 0
def bktBurst (p : Pen) (cls : Nat) : Nat := tgetD p.bursts cls 0
def bktCap (p : Pen) (cls res : Nat) : Int := (bktRate p cls res * rateUnit res * bktBurst p cls : Nat)
def bktVal (p : Pen) (cls res : Nat) : Int := tgetD p.buckets (bktKey cls res) 0
/-- RATE 0xFFFF: nothing charged, counts as positive. -/
def bktFree (p : Pen) (cls res : Nat) : Bool := bktRate p cls res == 0xFFFF
def bktPositive (p : Pen) (cls res : Nat) : Bool := bktFree p cls res || decide (0 < bktVal p cls res)
/-- An amount added to a bucket (negative: a charge); the cap applies to the sum. -/
def bktAdd (p : Pen) (cls res : Nat) (amount : Int) : Pen :=
  if bktFree p cls res then p
  else { p with buckets := tput p.buckets (bktKey cls res) (min (bktVal p cls res + amount) (bktCap p cls res)) }

/-- A task's charges in base units: tile cycles, stack bytes, sixteenths of a flash operation (R67). -/
structure Charge where
  tile : Nat := 0
  stack : Nat := 0
  flash : Nat := 0
deriving DecidableEq, Repr

/-- A charge taken from a pen's buckets of a class (R67). -/
def chargePen (s : State) (p cls : Nat) (c : Charge) : State :=
  updPen s p fun x => bktAdd (bktAdd (bktAdd x cls 0 (-(c.tile : Int))) cls 1 (-(c.stack : Int))) cls 2 (-(c.flash : Int))

/-- What was charged at issue given back and what was used charged (R67). -/
def settlePen (s : State) (p cls : Nat) (charged used : Charge) : State :=
  updPen s p fun x =>
    bktAdd (bktAdd (bktAdd x cls 0 ((charged.tile : Int) - used.tile)) cls 1 ((charged.stack : Int) - used.stack))
      cls 2 ((charged.flash : Int) - used.flash)

/-! Homes (R228, R51, R353). -/

/-- One home slot taken: in the stack with the most free slots of the quad, then of the next quads, wrapping from 3 to 0. -/
def takeHome (s : State) (quad : Nat) : Option (State × Home) :=
  let rec go : Nat → Nat → Option (Nat)
    | 0, _ => none
    | k + 1, q => match mostFree (freeHomes s) (stacksOf s q) with
      | some n => some n
      | none => go k ((q + 1) % 4)
  match go 4 (quad % 4) with
  | none => none
  | some n =>
    let slot := lowestFree (stackOf s n).homesUsed 0
    some (updStack s n fun x => { x with homesUsed := x.homesUsed ++ [slot] }, .stack n slot)

/-- k home slots taken, or none. -/
def takeHomes (s : State) (quad : Nat) : Nat → Option (State × List Home)
  | 0 => some (s, [])
  | k + 1 => match takeHome s quad with
    | none => none
    | some (s1, h) => match takeHomes s1 quad k with
      | none => none
      | some (s2, hs) => some (s2, h :: hs)

/-- A home given back. -/
def freeHome (s : State) (h : Home) : State :=
  match h with
  | .stack n slot => updStack s n fun x => { x with homesUsed := without x.homesUsed slot, poolUsed := without x.poolUsed slot }
  | _ => s
def freeHomes' (s : State) (hs : List Home) : State := hs.foldl freeHome s

/-- Whether a pen's bale quota holds n more bales (R352, R353); one that is lowered below what the pen has takes nothing away. -/
def quotaHolds (s : State) (p n : Nat) : Bool := decide (n = 0 ∨ (penOf s p).bales + n ≤ 16384 * (penOf s p).baleGib)
def chargeBales (s : State) (p n : Nat) : State := updPen s p fun x => { x with bales := x.bales + n }
def creditBales (s : State) (p n : Nat) : State := updPen s p fun x => { x with bales := x.bales - n }

/-- The contents of new bales: zero bytes written to a home by the hub's DMA (a home slot keeps nothing past its next allocation, R324). -/
def zeroHome (s : State) (h : Home) : State :=
  match h with
  | .stack n slot => agentWrite s none dmaAgent (slotAddr n slot) (List.replicate bale 0)
  | _ => s

/-- A new object of n bytes in a pen's table, its bales homed from a quad on and charged; none when the quota or the
stacks cannot hold it (R228, R353). -/
def newObject (s : State) (p num quad bytes : Nat) (kind : ObjKind) : Option State :=
  let n := ceilDiv bytes bale
  if quotaHolds s p n then
    match takeHomes s quad n with
    | none => none
    | some (s1, hs) =>
      some (putObj (chargeBales s1 p n) p num { kind := kind, bytes := bytes, homes := hs })
  else none

/-- The bales in which the migrated rows of an object lie (R222). -/
def moveHomes (o : Obj) : List Home := match o.kind with
  | .table t => (t.remap.map fun r => (r.stack, r.slot)).foldl addNew [] |>.map fun x => .stack x.1 x.2
  | _ => []

/-- An object destroyed: its homes and its charge given back. -/
def destroyObj (s : State) (p num : Nat) : State :=
  match objOf s p num with
  | none => s
  | some o =>
    let n := (o.homes.filter fun h => match h with
      | .stack _ _ => true
      | _ => false).length
    creditBales (dropObj (freeHomes' s (o.homes ++ moveHomes o)) p num) p n

/-! Copies and request state (R232 to R236). -/

/-- Pool copies of a pen in a quad, and the pen's limit in slots (R235, R352). -/
def penCopies (s : State) (p quad : Nat) : List BaleCopy := s.drover.copies.filter fun c => c.pen == p && c.quad == quad
def poolLimit (s : State) (p quad : Nat) : Nat := (penOf s p).poolPct * (quadOf s quad).poolSize / 100
def evictable (c : BaleCopy) : Bool := c.st == .clean && c.pins.isEmpty

/-- The evictable copy of the smallest age, ties to the lower slot (R234). -/
def victim (l : List BaleCopy) : Option BaleCopy :=
  (l.filter evictable).foldl (fun b c => match b with
    | none => some c
    | some d => if c.age < d.age || (c.age == d.age && c.slot < d.slot) then some c else some d) none

/-- A copy dropped, its slot freed. -/
def dropCopy (s : State) (c : BaleCopy) : State :=
  let s := { s with drover := { s.drover with copies := s.drover.copies.filter fun d => d.num != c.num } }
  updStack s c.stack fun x => { x with poolUsed := without x.poolUsed c.slot }

/-- A pool slot of a stack taken. -/
def takePool (s : State) (n : Nat) : State × Nat :=
  let slot := lowestFree (stackOf s n).poolUsed (homeSlots s n)
  (updStack s n fun x => { x with poolUsed := x.poolUsed ++ [slot] }, slot)

/-- A pool slot for a copy of a pen in a quad (R234, R235): a pen at its limit evicts its own; else a free slot of the
stack with the most; else the quad's victim. None: the task waits. -/
def poolSlot (s : State) (p quad : Nat) : Option (State × Nat × Nat) :=
  let evict (c : BaleCopy) : State × Nat × Nat :=
    let s := dropCopy s c
    let r := takePool s c.stack
    (r.1, c.stack, r.2)
  if poolLimit s p quad ≤ (penCopies s p quad).length then (victim (penCopies s p quad)).map evict
  else match mostFree (freePool s) (stacksOf s quad) with
    | some n => let r := takePool s n; some (r.1, n, r.2)
    | none => (victim (s.drover.copies.filter fun c => c.quad == quad)).map evict

/-- n pool slots of one stack taken. -/
def takePools (s : State) (n : Nat) : Nat → State × List Nat
  | 0 => (s, [])
  | k + 1 =>
    let r := takePool s n
    let q := takePools r.1 n k
    (q.1, r.2 :: q.2)

/-- A task's request state released. -/
def releaseReqs (s : State) (t : TaskId) : State :=
  let mine := s.drover.reqs.filter fun r => r.task == t
  let s := { s with drover := { s.drover with reqs := s.drover.reqs.filter fun r => r.task != t } }
  mine.foldl (fun s r =>
    creditBales (updStack s r.stack fun x => { x with poolUsed := x.poolUsed.filter fun y => !(y ∈ r.slots) })
      r.pen r.slots.length) s

/-- A copy with a task's pin released: its age is the quad's use counter (R233, R234), and an unpinned copy marked for refetch is
dropped. -/
def unpinCopy (s : State) (t : TaskId) (c : BaleCopy) : State :=
  let q := quadOf s c.quad
  let s := updQuad s c.quad fun x => { x with uses := wrapAdd 48 x.uses 1 }
  let c' := { c with pins := without c.pins t, age := wrapAdd 48 q.uses 1 }
  if c'.pins.isEmpty && c'.stale && c'.st == .clean then dropCopy s c'
  else { s with drover := { s.drover with copies := s.drover.copies.map fun d => if d.num = c.num then c' else d } }

/-- Every pin of a task released; it waits for no move. -/
def unpinTask (s : State) (t : TaskId) : State :=
  let off (c : BaleCopy) : BaleCopy := { c with waiters := without c.waiters t }
  let s := { s with drover := { s.drover with copies := s.drover.copies.map off } }
  (s.drover.copies.filter fun c : BaleCopy => t ∈ c.pins).foldl (fun s c => unpinCopy s t c) s

/-! Scratch objects. -/

/-- A scratch object freed (R51): homes and charge given back. -/
def freeScratch (s : State) (acc n : Nat) : State :=
  match graphOf s acc with
  | none => s
  | some g => match tget? g.scratch n with
    | none => s
    | some x =>
      modGraph (creditBales (freeHomes' s x.homes) g.pen x.homes.length) acc fun g => { g with scratch := tdel g.scratch n }

/-! Task records (R69, R329). -/

/-- UNIT of a record (R69). -/
def unitField (k : Task) : Nat := if k.issues = 0 then 0 else k.unitKind + (if k.unitKind = 1 ∨ k.unitKind = 2 then 4 * k.unitNo else 0)

/-- The 32 bytes of a task or arrival record. -/
def recordBytes (r : Rec) (seq : Nat) (phase : Bool) : List Byte :=
  le 4 seq ++ le 2 (statusNoDnr r.status) ++ le 2 r.taskIndex ++ le 8 r.graphTag ++ le 8 r.result ++ le 2 r.sqId ++
    le 2 r.cid ++ le 1 r.issues ++ le 1 r.unit ++ le 2 (b2n phase)

/-- A record queue after one entry has been written to it. -/
def rqAdvance (q : Rq) : Rq :=
  { q with
    tail := (q.tail + 1) % q.size
    phase := if q.tail + 1 = q.size then !q.phase else q.phase
    seq := wrapAdd 32 q.seq 1 }

def rqFull (q : Rq) : Bool := q.size == 0 || ringFull q.size q.head q.tail

/-- One record written at a record queue's tail. -/
def rqWrite (s : State) (ctl sq : Nat) (q : Rq) (r : Rec) : State :=
  let s := traceDecide s 0x16 (le 2 ctl ++ le 2 (sq + 0x8000) ++ le 4 q.seq)
  let s := writeEntry s 1 ctl (q.base + 32 * q.tail) (recordBytes r q.seq q.phase)
  updCtl s ctl fun c => { c with sqs := tupd c.sqs sq fun x => { x with rq := rqAdvance q } }

/-- A record posted: written, or kept in order while its queue is full (R329); true when it was written or its queue is
gone (R322). -/
def postRec (s : State) (ctl sq : Nat) (r : Rec) : State × Bool :=
  match tget? (ctlOf s ctl).sqs sq with
  | none => (s, true)
  | some x =>
    if x.rq.waiting.isEmpty && !rqFull x.rq then (rqWrite s ctl sq x.rq r, true)
    else (updCtl s ctl fun c => { c with sqs := tupd c.sqs sq fun x => { x with rq := { x.rq with waiting := x.rq.waiting ++ [r] } } },
      false)

/-- The record of a completed task, posted when asked for; a pen reset's tasks post none (R368). -/
def postTaskRec (s : State) (acc idx : Nat) : State :=
  match graphOf s acc with
  | none => s
  | some g => match g.tasks[idx]? with
    | none => s
    | some k =>
      if (k.recorded || g.recordAll) && k.status != stResetAborted && g.remote.isNone then
        let r : Rec :=
          { status := k.status, taskIndex := idx, graphTag := g.tag, result := k.result, sqId := g.cmd.sq, cid := g.cmd.cid,
            issues := k.issues, unit := unitField k, graph := acc }
        let p := postRec s g.cmd.ctl g.cmd.sq r
        if p.2 then p.1 else modGraph p.1 acc fun g => { g with recsWaiting := g.recsWaiting + 1 }
      else s

/-! Edges, readiness and completion (R56, R60, R70). -/

/-- The outgoing edges of a completed task satisfied. -/
def satisfy (g : Graph) (idx : Nat) (failed : Bool) : Graph :=
  let hits := g.edges.filter fun e => e.src == idx && !e.done
  { g with
    edges := g.edges.map fun e => if e.src == idx then { e with done := true } else e
    tasks := hits.foldl (fun ts e => ts.modify e.dst fun k =>
      { k with unsat := k.unsat - 1, predFailed := k.predFailed || (failed && !e.order) }) g.tasks }

/-- The lowest waiting task that ends with PRED_FAILED now. -/
def nextPredFailed (g : Graph) : Option Nat :=
  (List.range g.tasks.length).find? fun i => match g.tasks[i]? with
    | some k => k.st == .waiting && k.unsat == 0 && k.predFailed
    | none => false

/-- PRED_FAILED carried along data edges (R56), by fuel: the graph and the tasks that ended. -/
def propagate (g : Graph) : Nat → Graph × List Nat
  | 0 => (g, [])
  | k + 1 => match nextPredFailed g with
    | none => (g, [])
    | some i =>
      let g := { g with tasks := g.tasks.modify i fun x => { x with st := .complete, status := stPredFailed } }
      let r := propagate (satisfy g i true) k
      (r.1, i :: r.2)

/-- Waiting tasks whose count is 0 become ready, in one hub control cycle (R60). -/
def makeReady (g : Graph) (order : Nat) : Graph :=
  { g with tasks := g.tasks.map fun k =>
      if k.st == .waiting && k.unsat == 0 && !k.predFailed then { k with st := .ready, readyOrder := order } else k }

/-- A graph whose tasks have all completed and whose records are written completes (R70): scratch objects freed, slots
released, the completion entry written. A peer's query owes its ANSWER instead (R406). -/
def tryGraph (s : State) (acc : Nat) : State :=
  match graphOf s acc with
  | none => s
  | some g =>
    if g.tasks.all (fun k => k.st == .complete) && g.recsWaiting == 0 then
      let s := (tkeys g.scratch).foldl (fun s n => freeScratch s acc n) s
      let s := { s with drover := { s.drover with graphs := s.drover.graphs.filter fun x => x.acc != acc } }
      match g.remote with
      | some _ => { s with drover := { s.drover with doneRemote := s.drover.doneRemote ++ [g] } }
      | none =>
        let r := graphStatus (g.tasks.map (·.status))
        complete s g.cmd r.1 r.2
    else s

/-- The PUT_DONEs that arrival records let go, owed with a status (R404). -/
def owePuts (s : State) (l : List Rec) (st : Nat) : State :=
  { s with flue := { s.flue with owed := s.flue.owed ++ (l.filterMap (·.put)).map fun p => (p.1, p.2, st) } }

/-- Waiting records of a queue written while it has room, by fuel; graphs and PUT_DONEs that waited for them go on (R329, R404). -/
def drainRq (s : State) (ctl sq : Nat) : Nat → State
  | 0 => s
  | k + 1 => match tget? (ctlOf s ctl).sqs sq with
    | none => s
    | some x => match x.rq.waiting with
      | [] => s
      | r :: rest =>
        if rqFull x.rq then s
        else
          let s := owePuts (rqWrite s ctl sq { x.rq with waiting := rest } r) [r] stSuccess
          let s := modGraph s r.graph fun g => { g with recsWaiting := g.recsWaiting - 1 }
          drainRq (tryGraph s r.graph) ctl sq k

/-- What follows a task's completion within its graph: edges, PRED_FAILED, readiness, records, the graph. -/
def afterComplete (s : State) (t : TaskId) : State :=
  match graphOf s t.graph, taskOf s t with
  | some g, some k =>
    let g1 := satisfy g t.idx (isFailure k.status)
    let r := propagate g1 g1.tasks.length
    let order := s.drover.nextReady
    let s := { s with drover := { s.drover with nextReady := order + 1 } }
    let s := modGraph s t.graph fun _ => makeReady r.1 order
    let s := postTaskRec s t.graph t.idx
    let s := r.2.foldl (fun s i => postTaskRec s t.graph i) s
    tryGraph s t.graph
  | _, _ => s

/-! Release of what a task holds. -/

/-- An array that a task holds no more (R172). -/
def freeArray (t : TaskId) (a : Arr) : Arr := if a.holder = some t then { a with holder := none, geom := 0 } else a
/-- The arrays of a task with no more units, free for the next (R172). -/
def freeArrays (s : State) (t : TaskId) : State :=
  { s with tiles := tmap s.tiles fun _ x => { x with arrs := x.arrs.map (freeArray t) } }

/-- A task taken off its unit: the tile's and the quad's lists, its request state, its pins. -/
def leaveUnit (s : State) (t : TaskId) : State :=
  let s := { s with
    tiles := tmap s.tiles fun _ x => { x with
      tasks := without x.tasks t, walks := without x.walks t
      sel := if x.sel.owner = some t then {} else x.sel
      crowns := (x.crowns.map fun c => { c with users := without c.users t }).filter fun c => !c.users.isEmpty
      arrs := x.arrs.map (freeArray t) }
    quads := tmap s.quads fun _ x => { x with
      quadSel := without x.quadSel t, streamSel := without x.streamSel t, selLists := x.selLists.filter fun y => y.1 != t
      runs := without x.runs t, streaming := without x.streaming t }
    stks := tmap s.stks fun _ x => { x with
      nbuTask := if x.nbuTask = some t then none else x.nbuTask
      units := tmap x.units fun _ u => if u.running = some t then { u with running := none, waiting := [] } else u }
    drover := { s.drover with
      flashWalks := without s.drover.flashWalks t, memWalks := without s.drover.memWalks t } }
  releaseReqs (unpinTask s t) t

/-- Epochs of an index that no one holds and no task reads are released (R131): the last `held` epochs are held. -/
def pruneEpochs (busy : Nat → Bool) (x : Index) : Index :=
  let n := x.epochs.length
  { x with epochs := ((List.range n).zip x.epochs).filterMap fun e =>
      if decide (n ≤ e.1 + x.held) || busy e.2.1 || x.loading.any (fun m => m.epoch == e.2.1) then some e.2 else none }

/-- The context number of a shard query that a fan-out of this node runs itself (R102); contexts are 0 to 1,023. -/
def localCtx : Nat := 1024

/-- Whether a fan-out reads an epoch of an index object on this node: a re-issue of it will read that epoch again (R91). -/
def fanBusy (k : Task) (num e : Nat) : Bool := match k.run with
  | .walk w => w.shards.any fun sh => sh.ctx == localCtx && sh.object == num && (sh.epoch == e || sh.epochUsed == e)
  | _ => false

/-- Whether a task of a pen that has not completed is bound to an epoch of an index object (R131). -/
def epochBusy (s : State) (p num e : Nat) : Bool :=
  (allTasks s).any fun x =>
    x.2.1.pen == p && (x.2.2.st == .issued || x.2.2.st == .ready || x.2.2.st == .finished) &&
      (fanBusy x.2.2 num e || (x.2.2.bound == some e && x.2.2.ops.any fun o => match o with
        | .obj n _ => n == num
        | _ => false))

/-- Old page versions of an index's space that no kept epoch reads leave the version list (R293). -/
def trimVersions (s : State) (x : Index) : State :=
  let keep (v : Nat × Nat × Nat) : Bool := v.1 / 2 ^ 40 != x.space || x.epochs.any fun e => decide (e.1 < v.2.1)
  if x.desc.flash then { s with ftl := { s.ftl with chans := tmap s.ftl.chans fun _ ch => { ch with vers := ch.vers.filter keep } } } else s

/-- The releasing epochs of one index released when their last reader is gone; the bales of their deltas are given back (R131,
R140). -/
def releaseIndex (s : State) (p num : Nat) : State :=
  match objOf s p num with
  | some o => match o.kind with
    | .index x =>
      let y := pruneEpochs (epochBusy s p num) x
      if y.epochs.length = x.epochs.length then s
      else
        let n := indexBales y
        let s := trimVersions (creditBales (freeHomes' s (o.homes.drop n)) p (o.homes.length - n)) y
        updObj s p num fun o => { o with kind := .index y, homes := o.homes.take n, bytes := (o.homes.take n).length * bale }
    | _ => s
  | none => s

/-- The same for every index of a pen. -/
def releaseEpochs (s : State) (p : Nat) : State := (tkeys (penOf s p).objects).foldl (fun s n => releaseIndex s p n) s

/-! Finishing and completing tasks. -/

/-- What a finished task keeps of its run: a walk, whose results a peer's ANSWER carries (R406). -/
def keepRun (r : Run) : Run := match r with
  | .walk w => .walk w
  | _ => .none

/-- Whether a task has written to a copy what is not yet at its home. -/
def wroteTo (t : TaskId) (c : BaleCopy) : Bool := c.dirty.any fun r => r.1 == t

/-- The copies that a task wrote go to WRITING (R233). -/
def beginWriteBack (s : State) (t : TaskId) : State :=
  let f (c : BaleCopy) : BaleCopy := if wroteTo t c then { c with st := .writing, wb := addNew c.wb t } else c
  { s with drover := { s.drover with copies := s.drover.copies.map f } }

/-- A task's unit has finished it: status, RESULT, and its written copies go to WRITING (R233). TASK_COMPLETE follows. -/
def finishTask (s : State) (t : TaskId) (status result : Nat) : State :=
  beginWriteBack (modTask (freeArrays s t) t fun k => { k with st := .finished, status := status, result := result, run := keepRun k.run }) t

/-- Whether copies that a task wrote are still to be written back (R232). -/
def writesLeft (s : State) (t : TaskId) : Bool := s.drover.copies.any (wroteTo t)

/-- A task that has begun applying updates holds no seal back any more (R132). -/
def dropBegun (s : State) (p : Nat) (t : TaskId) : State :=
  updPen s p fun x => { x with objects := tmap x.objects fun _ o => match o.kind with
    | .index ix => if t ∈ ix.begun then { o with kind := .index { ix with begun := without ix.begun t } } else o
    | _ => o }

/-- A task ended with a status, whatever it was doing: off its unit, charges settled for what it used, edges satisfied. -/
def endTask (s : State) (t : TaskId) (status : Nat) (used : Charge) : State :=
  match graphOf s t.graph, taskOf s t with
  | some g, some k =>
    if k.st == .complete then s
    else
      let s := dropBegun (leaveUnit s t) g.pen t
      let s := if k.issues = 0 then s else
        settlePen s g.pen g.cls { tile := k.chargeTile, stack := k.chargeStack, flash := k.chargeFlash } used
      let s := modTask s t fun k => { k with st := .complete, status := status, run := keepRun k.run, orphan := false }
      let s := if status = stUnitLost then
          { s with drover := { s.drover with abandoned := satAdd 32 s.drover.abandoned 1 } } else s
      releaseEpochs (afterComplete s t) g.pen
  | _, _ => s

/-- What a task has used so far, when its unit gives no cycle count. -/
def usedSoFar (k : Task) (cycles : Nat) : Charge := { tile := cycles, stack := k.usedStack, flash := k.usedFlash }

/-- A finished task completes (R60, R67): with the status its unit gave. -/
def completeTask (s : State) (t : TaskId) (cycles : Nat) : State :=
  match taskOf s t with
  | none => s
  | some k => endTask s t k.status (usedSoFar k cycles)

/-- A task that cannot run, or that is stopped, ends with a failure status: at once, or, when it has written to copies, once they
have been written back (R232, R233: TASK_COMPLETE). The tile cycles that a stopped task has held are not given: a free value
(log 1). -/
def failTask (s : State) (t : TaskId) (status : Nat) : State :=
  match taskOf s t with
  | none => s
  | some k =>
    if writesLeft s t && (k.st == .issued || k.st == .finished) then finishTask s t status 0
    else if k.unitKind = 1 ∧ (k.st = .issued ∨ k.st = .finished) then
      let r := drawTag s
      endTask r.2 t status (usedSoFar k (Config.freeWord r.1).toNat)
    else endTask s t status (usedSoFar k 0)

/-- An ordered write of a queue over (R336): after a failure, those fetched behind it end with PRED_FAILED. -/
def orderedDone (s : State) (c : Cmd) (status : Nat) : State :=
  match sqOf (ctlOf s c.ctl) c.sq with
  | none => s
  | some q =>
    if q.owCur == some c then
      if isFailure status then
        let s := updCtl s c.ctl fun x => setSq x c.sq { q with owCur := none, owWait := [] }
        q.owWait.foldl (fun s w => complete1 s w.cmd stPredFailed 0) s
      else updCtl s c.ctl fun x => setSq x c.sq { q with owCur := none }
    else s

/-- What a command or a task waits for is over: the command completes, or the task is finished (R341, R298). -/
def ownerDone (s : State) (o : Owner) (status : Nat) : State :=
  match o with
  | .cmd c _ => orderedDone (complete s c status 0) c status
  | .task t _ _ => match taskOf s t with
    | some k => if k.st == .issued then finishTask s t status (if k.typ = 0x04 then k.result else bits k.param.toNat 0 32) else s
    | none => s
  | .none => s

/-- One unit of an owner's work is over: at 0 left, the owner's wait ends with the status of the lowest unit that failed
(R298, R341). -/
def ownerStep (s : State) (o : Owner) (unit status : Nat) : State :=
  match s.port.ioWait.find? (fun w => w.owner == o) with
  | none => s
  | some w =>
    let bad := status != 0 && (match w.failAt with
      | some f => decide (unit < f)
      | none => true)
    let w' := { w with
      remaining := w.remaining - 1
      status := if bad then status else w.status
      failAt := if bad then some unit else w.failAt }
    if w'.remaining = 0 then
      ownerDone { s with port := { s.port with ioWait := s.port.ioWait.filter fun x => x.owner != o } } o w'.status
    else { s with port := { s.port with ioWait := s.port.ioWait.map fun x => if x.owner = o then w' else x } }

end Sys2Proof.Machine
end

