-- ==== Sys2Proof/Machine/Flash.lean ====
section
/-!
DEFINITION. The flash translation layer's operations (11): slots and blocks (R285, R296), the map (R291), units and channels
(R290), Kindling (R294), the write buffer (R341, R342), the journal (R311), moves (R297, R304), retirement (R307, R308).
-/

namespace Sys2Proof.Machine

/-- The profile of a channel's group (R284). -/
def profOf (s : State) (c : Nat) : Profile := nth s.ftl.profiles (c / 8) {}

/-- Sectors of a block in native numbering (R285). -/
def blockSectors (p : Profile) : Nat := p.np * p.npl * 4
/-- Slot of sector x of page wp of a block; pages of a block are counted over pages and planes in programming order. -/
def slotNo (p : Profile) (blk wp x : Nat) : Nat := blk * blockSectors p + wp * 4 + x
/-- Block of a slot, LUN of a block (t × NL + l), target of a LUN. -/
def slotBlk (p : Profile) (slot : Nat) : Nat := if blockSectors p = 0 then 0 else slot / blockSectors p
def blkLun (p : Profile) (blk : Nat) : Nat := if p.nb = 0 then 0 else blk / p.nb
def lunTarget (p : Profile) (lun : Nat) : Nat := lun / p.nl
/-- Pages a block offers: NP_PSLC in pSLC mode, NP otherwise, for each plane. -/
def blockPages (p : Profile) (pslc : Bool) : Nat := (if pslc then p.npPslc else p.np) * p.npl

def blkOf (ch : Chan) (b : Nat) : Block := tget ch.media.blocks b
def setBlk (ch : Chan) (b : Nat) (x : Block) : Chan := { ch with media := { ch.media with blocks := tput ch.media.blocks b x } }
def modBlk (ch : Chan) (b : Nat) (f : Block → Block) : Chan := setBlk ch b (f (blkOf ch b))
/-- A block closed: it is in age group 0 (R301). -/
def shut (b : Block) : Block := { b with st := .closed, group := 0 }

/-- Usable LUNs of a channel in order. -/
def lunsOf (p : Profile) (ch : Chan) : List Nat :=
  (List.range (16 * p.nl)).filter fun l => lunTarget p l ∈ ch.targets

/-- Blocks of a LUN that are not free. -/
def lunUsed (p : Profile) (ch : Chan) (lun : Nat) : List (Nat × Block) :=
  ch.media.blocks.filter fun b => blkLun p b.1 == lun && b.2.st != .free
/-- Free blocks of a LUN (R303). -/
def lunFree (p : Profile) (ch : Chan) (lun : Nat) : Nat := p.nb - (lunUsed p ch lun).length
/-- Kindling blocks of a LUN, open or closed (R296, R297). -/
def lunKindling (p : Profile) (ch : Chan) (lun : Nat) : List (Nat × Block) :=
  (lunUsed p ch lun).filter fun b => b.2.pslc && (b.2.st == .openKindling || b.2.st == .closed)
/-- KINDLE_PCT per cent of a LUN's blocks (R296). -/
def kindleLimit (s : State) (p : Profile) : Nat := s.ftl.kindlePct * p.nb / 100

/-- Wear of R296 over the common denominator ERASE_LIMIT × PSLC_LIMIT. -/
def wear (p : Profile) (b : Block) : Nat := b.native * p.pslcLimit + b.pslcErases * p.eraseLimit
/-- w of 1 or more. -/
def wornOut (p : Profile) (b : Block) : Bool := decide (p.eraseLimit * p.pslcLimit ≤ wear p b)

/-- The free block of a LUN with the least wear, ties to the lower number (R296). -/
def freeBlock (p : Profile) (ch : Chan) (lun : Nat) : Option Nat :=
  argMin (fun b => wear p (blkOf ch b))
    (((List.range p.nb).map fun b => lun * p.nb + b).filter fun b => (blkOf ch b).st == .free)

/-- The free-list order of a channel: each LUN's free blocks as they will be taken (R296, R312). -/
def freeList (p : Profile) (ch : Chan) : List Nat :=
  (lunsOf p ch).flatMap fun lun => sortBy (fun a b => decide (wear p (blkOf ch a) < wear p (blkOf ch b)))
    (((List.range p.nb).map fun b => lun * p.nb + b).filter fun b => (blkOf ch b).st == .free)

/-- The next SEQ of a channel (R310). -/
def nextSeq (ch : Chan) : Nat := wrapAdd 48 ch.seq 1

/-- A journal record staged (R311). -/
def stage (ch : Chan) (r : JRec) : Chan := { ch with jstage := ch.jstage ++ [r] }

/-- A block event: numbered and staged: 0 OPEN_KINDLING, 1 OPEN_NATIVE, 2 CLOSE, 3 FREED, 4 ERASED, 5 RETIRED. -/
def blockEvent (ch : Chan) (b ev : Nat) : Chan :=
  let q := nextSeq ch
  stage { ch with seq := q } (.block b ev q)

/-- A block taken from the free list in a mode (R296). -/
def takeBlock (p : Profile) (ch : Chan) (lun : Nat) (st : BlkState) (pslc : Bool) : Option (Chan × Nat) :=
  match freeBlock p ch lun with
  | none => none
  | some b =>
    let ch := modBlk ch b fun x => { x with
      st := st, pslc := pslc, wp := 0, openSeq := nextSeq ch, reads := 0, summary := false, relocate := false }
    some (blockEvent ch b (if pslc then 0 else 1), b)

/-- The Kindling block that takes the next page: the LUNs in turn, skipping one at its limit or at GC_URGENT (R294, R303). -/
def kindlingBlock (s : State) (p : Profile) (ch : Chan) : Option (Chan × Nat) :=
  let luns := lunsOf p ch
  let order := (luns.filter fun l => decide (ch.nextLun ≤ l)) ++ (luns.filter fun l => decide (l < ch.nextLun))
  order.foldl (fun found l => match found with
    | some x => some x
    | none =>
      match (lunUsed p ch l).find? (fun b => b.2.st == .openKindling) with
      | some b => some ({ ch with nextLun := l + 1 }, b.1)
      | none =>
        if (lunKindling p ch l).length < kindleLimit s p ∧ s.ftl.gcUrgent < lunFree p ch l then
          (takeBlock p ch l .openKindling true).map fun r => ({ r.1 with nextLun := l + 1 }, r.2)
        else none) none

/-- Sectors given their SEQs in order (R310). -/
def numberSectors (ch : Chan) : List (Sector × Owner) → Chan × List (Sector × Owner)
  | [] => (ch, [])
  | (x, o) :: r =>
    let q := nextSeq ch
    let n := numberSectors { ch with seq := q } r
    (n.1, ({ x with seq := q }, o) :: n.2)

/-- A page program sent to a block at its write pointer; a block filled by it closes when the program ends. -/
def startProgram (p : Profile) (ch : Chan) (blk : Nat) (cls : Nat) (sectors : List (Sector × Owner)) : Chan :=
  let b := blkOf ch blk
  let n := numberSectors ch sectors
  let ch := setBlk n.1 blk { b with wp := b.wp + 1 }
  { ch with
    ops := ch.ops ++ [{ num := ch.nextOp, kind := 1, lun := blkLun p blk, blk := blk, page := b.wp, sectors := n.2, cls := cls }]
    nextOp := ch.nextOp + 1 }

/-- Units in write staging, awaiting program status: 256 KiB hold 64 (R286). -/
def staged (ch : Chan) : Nat := sumBy (fun o => if o.cls = 2 then o.sectors.length else 0) ch.ops

/-- Kindling pages of four units programmed while a block and write staging take them (R294, R286), by fuel. -/
def kick (s : State) (p : Profile) (ch : Chan) : Nat → Chan
  | 0 => ch
  | k + 1 =>
    if ch.page.length < 4 ∨ 60 < staged ch then ch
    else match kindlingBlock s p ch with
      | none => ch
      | some (ch', blk) => kick s p (startProgram p { ch' with page := ch'.page.drop 4 } blk 2 (ch'.page.take 4)) k

def kickChan (s : State) (c : Nat) : State := updChan s c fun ch => kick s (profOf s c) ch (ch.page.length / 4)

/-- A unit's map key: space × 2^40 + unit. -/
def unitKey (space u : Nat) : Nat := space * 2 ^ 40 + u
/-- The poisoned entry of R291. -/
def mapPoison : Nat := 0xFFFFFFFE

/-- The channel and channel-local unit of a logical block (R290). -/
def lbaUnit (s : State) (lba : Nat) : Option (Nat × Nat) :=
  let n := s.ftl.nsChannels.length
  if n = 0 then none
  else
    let st := lba / 4
    (s.ftl.nsChannels[st % n]?).map fun c => (c, 4 * (st / n) + lba % 4)

/-- The logical block of a unit of space 0 (R290). -/
def unitLba (s : State) (c u : Nat) : Nat :=
  let n := s.ftl.nsChannels.length
  let i := (s.ftl.nsChannels.takeWhile fun x => x != c).length
  ((u / 4) * n + i) * 4 + u % 4

/-- 16 GiB segments of a channel's units (R292): 4,194,304 units each. -/
def segOf (c u : Nat) : Nat × Nat := (c, u / 4194304)

/-- Whether a unit's map segment is being rebuilt: a flash command that needs it waits (R292). -/
def unitWaits (s : State) (lba : Nat) : Bool := match lbaUnit s lba with
  | some (c, u) => decide (segOf c u ∈ s.ftl.reloading)
  | none => false

/-- What a unit's channel and map segment allow: SUCCESS, UNIT_LOST (R309) or STATE_LOST (R292). -/
def chanUnitStatus (s : State) (c u : Nat) : Nat :=
  if !chanUsable s c then stUnitLost else if segOf c u ∈ s.ftl.unloaded then stStateLost else stSuccess
/-- As that, for a logical block. -/
def unitStatus (s : State) (lba : Nat) : Nat :=
  match lbaUnit s lba with
  | none => stUnitLost
  | some (c, u) => chanUnitStatus s c u

/-- As unitStatus for a write or deallocation: a read-only channel gives MEDIA_ERROR (R308). -/
def unitWriteStatus (s : State) (lba : Nat) : Nat :=
  let st := unitStatus s lba
  if st != 0 then st
  else match lbaUnit s lba with
    | some (c, _) => if (chanOf s c).media.readOnly then stMediaError else stSuccess
    | none => st

/-- The data of a unit of space 0 as last accepted (R343): from the buffer, else the medium; unmapped reads as zeros. None:
poisoned. The flag says that the buffer served it. -/
def unitData (s : State) (lba : Nat) : Option (List Host.Cell × Bool) :=
  match (s.port.wb.reverse.find? fun u => u.lba == lba) with
  | some u => some (u.data, true)
  | none => match lbaUnit s lba with
    | none => none
    | some (c, u) =>
      if s.trace.replay then (tget? s.trace.flash (unitKey 0 u)).join.map fun d => (d, false)
      else
        let ch := chanOf s c
        match tget? ch.map (unitKey 0 u) with
        | none => some ([], false)
        | some slot =>
          if slot = mapPoison then none else (tget? ch.media.sectors slot).map fun x => (x.data, false)

/-- Units of the write buffer in all (R341). -/
def wbCapacity (s : State) : Nat := s.port.wbSize * 256
/-- Whether plain writes use the buffer: WCE, a size, not degraded (R341). -/
def wbInUse (s : State) : Bool := s.port.wce && decide (0 < s.port.wbSize) && !s.port.degraded
/-- The stack whose write-buffer share has the most room. -/
def wbStack (s : State) : Nat :=
  let free (n : Nat) : Nat := (nth s.boot.image.regions n (0, 0, 0, 0)).2.2.1 * 256 - (s.port.wb.filter fun u => u.stack == n).length
  (mostFree free ((List.range 20).filter (stackUsable s))).getD 0

/-- Buffered copies of a unit whose drain has not begun are dropped (R341, R342). -/
def dropBuffered (s : State) (lba : Nat) : State :=
  { s with port := { s.port with wb := s.port.wb.filter fun u => u.lba != lba || u.draining } }

/-- An NVMe write marks the flash-homed copies of its bale for refetch (R233): an unpinned clean one is dropped. -/
def staleCopies (s : State) (lba : Nat) : State :=
  let hit (c : BaleCopy) : Bool := match c.bale with
    | .flash b => decide (b ≤ lba ∧ lba < b + 16)
    | _ => false
  let gone := s.drover.copies.filter fun c => hit c && evictable c
  let s := gone.foldl dropCopy s
  let f (c : BaleCopy) : BaleCopy := if hit c then { c with stale := true } else c
  { s with drover := { s.drover with copies := s.drover.copies.map f } }

/-- One unit accepted into the buffer (R341). -/
def bufferUnit (s : State) (o : Owner) (w : UnitWrite) : State :=
  let s := staleCopies (dropBuffered s w.lba) w.lba
  { s with port := { s.port with
    wb := s.port.wb ++ [{ lba := w.lba, data := w.data, stack := wbStack s, draining := false, owner := o, acc := s.port.wbSeq }]
    wbSeq := s.port.wbSeq + 1 } }

/-- Units accepted while the buffer has room; the rest wait (R341). -/
def bufferUnits (s : State) (o : Owner) : List UnitWrite → State × List UnitWrite
  | [] => (s, [])
  | w :: r =>
    let s1 := dropBuffered s w.lba
    if s1.port.wb.length < wbCapacity s then bufferUnits (bufferUnit s o w) o r else (s, w :: r)

/-- One unit sent straight to the Kindling of its channel (R341, R342, R294). -/
def kindleUnit (s : State) (o : Owner) (w : UnitWrite) : State :=
  let s := staleCopies (dropBuffered s w.lba) w.lba
  match lbaUnit s w.lba with
  | none => ownerStep s o w.lba stUnitLost
  | some (c, u) =>
    let st := unitWriteStatus s w.lba
    if st != 0 then ownerStep s o w.lba st
    else if s.trace.replay then ownerStep s o w.lba stSuccess
    else kickChan (updChan s c fun ch => { ch with page := ch.page ++ [({ unit := u, space := 0, kind := 0, seq := 0, data := w.data }, o)] }) c

/-- A write of units by an owner (R341): into the buffer when it may, complete when all are accepted; else to the medium,
complete when all are on it. -/
def writeUnits (s : State) (o : Owner) (fua : Bool) (ws : List UnitWrite) : State :=
  if ws.isEmpty then ownerDone s o stSuccess
  else if !fua && wbInUse s && !s.trace.replay then
    let r := bufferUnits s o ws
    if r.2.isEmpty then ownerDone r.1 o stSuccess
    else { r.1 with port := { r.1.port with wbWait := r.1.port.wbWait ++ [{ owner := o, units := r.2 }] } }
  else
    let s := { s with port := { s.port with ioWait := s.port.ioWait ++ [{ owner := o, remaining := ws.length, status := 0 }] } }
    wake (ws.foldl (fun s w => kindleUnit s o w) s)

/-- Waiting writes admitted, oldest first, while the buffer has room (R341), by fuel. -/
def admitWaiting (s : State) : Nat → State
  | 0 => s
  | k + 1 => match s.port.wbWait with
    | [] => s
    | w :: rest =>
      let r := bufferUnits { s with port := { s.port with wbWait := rest } } w.owner w.units
      if r.2.isEmpty then admitWaiting (ownerDone r.1 w.owner stSuccess) k
      else { r.1 with port := { r.1.port with wbWait := { w with units := r.2 } :: rest } }

/-- A deallocation of one unit (R341): unmapped, dropped from the buffer, its TRIM record staged. -/
def trimUnit (s : State) (lba : Nat) : State :=
  let s := staleCopies (dropBuffered s lba) lba
  match lbaUnit s lba with
  | none => s
  | some (c, u) => updChan s c fun ch =>
      let q := nextSeq ch
      stage { ch with
        seq := q, map := tdel ch.map (unitKey 0 u), mapSeq := tput ch.mapSeq (unitKey 0 u) q } (.trim 0 u 1 q)

/-! The journal (R311). -/

/-- A journal page sent to a Kindling block with the staged records (at most 960). -/
def startJournal (s : State) (p : Profile) (ch : Chan) : Chan :=
  if ch.jstage.isEmpty then ch
  else match kindlingBlock s p ch with
    | none => ch
    | some (ch, blk) =>
      let recs := ch.jstage.take 960
      let num := ch.nextOp
      let ch := startProgram p { ch with jstage := ch.jstage.drop 960 } blk 2
        [({ unit := 0, space := 4095, kind := 4, seq := 0, data := [] }, .none)]
      { ch with jpages := ch.jpages ++ [(num, recs)] }

/-- Journal pages programmed as soon as they are full (R311). -/
def journalFull (s : State) (p : Profile) (ch : Chan) : Chan :=
  if 960 ≤ ch.jstage.length then startJournal s p ch else ch

/-- Slots of a block that hold valid units: those that the map names, and the old versions of index pages (R293). -/
def mappedSlots (p : Profile) (ch : Chan) (blk : Nat) : List Nat :=
  ((ch.map.filter fun e => e.2 != mapPoison && slotBlk p e.2 == blk).map (·.2)) ++
    ((ch.vers.filter fun v => v.2.2 != mapPoison && slotBlk p v.2.2 == blk).map (·.2.2))

/-- The slot from which a unit is read at an epoch (R293): the version that was current then, else the map's. -/
def slotAt (ch : Chan) (key epoch : Nat) : Option Nat :=
  match ch.vers.find? fun v => v.1 == key && decide (epoch < v.2.1) with
  | some v => some v.2.2
  | none => tget? ch.map key

/-- The slots of some units kept as old versions: epochs below one read them (R293). -/
def keepVersions (ch : Chan) (epoch : Nat) (keys : List Nat) : Chan :=
  { ch with vers := ch.vers ++ keys.filterMap fun k => (tget? ch.map k).map fun slot => (k, epoch, slot) }

/-- Retirement (R307): the block enters the Ashpit with a reason. -/
def ashpitEntry (p : Profile) (blk reason seq : Nat) : Nat :=
  let lun := blkLun p blk
  fld (lunTarget p lun) 0 4 + fld (lun % p.nl) 4 2 + fld (blk % p.nb) 6 18 + fld reason 24 3 + fld seq 27 37
def retire (p : Profile) (ch : Chan) (blk reason : Nat) : Chan :=
  let ch := blockEvent ch blk 5
  let ch := modBlk ch blk fun b => { b with st := .retired, reason := reason }
  { ch with ashpit := ch.ashpit ++ [ashpitEntry p blk reason ch.seq] }

/-- Blocks of a channel in all, and its usable ones. -/
def chanBlocks (p : Profile) (ch : Chan) : Nat := ch.targets.length * p.nl * p.nb
def usableBlocks (p : Profile) (ch : Chan) : Nat :=
  chanBlocks p ch - (ch.media.blocks.filter fun b => b.2.st == .retired).length

/-- R308: whether the usable blocks fall below what the mapped units need plus GC_LOW per LUN. -/
def mustBeReadOnly (s : State) (p : Profile) (ch : Chan) : Bool :=
  let mapped := (ch.map.filter fun e => e.2 != mapPoison).length
  decide (usableBlocks p ch < ceilDiv mapped (blockSectors p) + s.ftl.gcLow * (lunsOf p ch).length)

/-- R308 applied after a retirement: the channel becomes read-only, with an event record. -/
def checkReadOnly (s : State) (c : Nat) : State :=
  let ch := chanOf s c
  if !ch.media.readOnly && mustBeReadOnly s (profOf s c) ch then
    postEvent (updChan s c fun ch => { ch with media := { ch.media with readOnly := true } }) 1 (.engine c) 1 c 0
  else s

/-- The reason with which a block is retired when it is freed (R306): marked by a failure (2) or by reads (3), or worn (4). -/
def retireReason (p : Profile) (b : Block) : Option Nat := match b.retireWith with
  | some r => some r
  | none => if wornOut p b then some 4 else none

/-- A block that holds no mapped unit is freed: retired when it must be, else its FREED record is staged and it is erased once that
is durable (R304, R306, R312). -/
def freeIfStale (p : Profile) (ch : Chan) (blk : Nat) : Chan :=
  if (mappedSlots p ch blk).isEmpty && (blkOf ch blk).st == .closed then
    match retireReason p (blkOf ch blk) with
    | some r => retire p ch blk r
    | none => modBlk (blockEvent ch blk 3) blk fun b => { b with st := .toErase }
  else ch

/-- Blocks of a LUN freed and not yet erased: they count towards GC_HIGH (log 29). -/
def lunFreed (p : Profile) (ch : Chan) (lun : Nat) : Nat :=
  ((lunUsed p ch lun).filter fun b => b.2.st == .toErase || b.2.st == .erasing).length

/-- One unit's map update in SEQ order (R342): an older SEQ is discarded; the MAP record is staged. -/
def mapUnit (ch : Chan) (space u slot seq : Nat) : Chan :=
  if seq < tgetD ch.mapSeq (unitKey space u) 0 then ch
  else stage { ch with map := tput ch.map (unitKey space u) slot, mapSeq := tput ch.mapSeq (unitKey space u) seq }
    (.map space u slot seq)

/-- Whether a sector holds a unit of a logical space (R289, R299): data, an index page, vectors or an index checkpoint. -/
def holdsUnit (x : Sector) : Bool := decide (x.kind ≤ 3) && x.space != 4095

/-- The sectors of a finished program on the medium, and their units mapped. -/
def landSectors (p : Profile) (ch : Chan) (blk wp : Nat) : Nat → List (Sector × Owner) → Chan
  | _, [] => ch
  | x, (sec, _) :: r =>
    let slot := slotNo p blk wp x
    let ch := { ch with media := { ch.media with sectors := tput ch.media.sectors slot sec } }
    let ch := if holdsUnit sec then mapUnit ch sec.space sec.unit slot sec.seq else ch
    landSectors p ch blk wp (x + 1) r

/-- Up to four units of a KIND programmed as one Kindling page and mapped, in one step: a write-back of a flash-homed copy, an index
page or vectors, whose programs have passed (R232, R294, R299). None: every LUN is at its Kindling limit. -/
def programPage (s : State) (c space kind : Nat) (units : List (Nat × List Host.Cell)) : Option State :=
  let p := profOf s c
  match kindlingBlock s p (chanOf s c) with
  | none => none
  | some (ch, blk) =>
    let b := blkOf ch blk
    let n := numberSectors ch (units.map fun u => ({ unit := u.1, space := space, kind := kind, seq := 0, data := u.2 }, .none))
    let full := decide (blockPages p true ≤ b.wp + 1)
    let ch := setBlk n.1 blk (if full then shut { b with wp := b.wp + 1 } else { b with wp := b.wp + 1 })
    let ch := if full then blockEvent ch blk 2 else ch
    let ch := landSectors p { ch with programs := wrapAdd 32 ch.programs 1 } blk b.wp 0 n.2
    some (updChan s c fun _ => ch)

/-- The same for units of the namespace. -/
def programNow (s : State) (c : Nat) (units : List (Nat × List Host.Cell)) : Option State := programPage s c 0 0 units

/-- The pages of an index checkpoint, each of up to four units, programmed into a bulk block of the lowest LUN that closes behind
them, in one step (R134, R294). None: the LUN has no free block. -/
def programBulk (s : State) (c space : Nat) (pages : List (List (Nat × List Host.Cell))) : Option State :=
  let p := profOf s c
  match (lunsOf p (chanOf s c)).head?.bind fun l => takeBlock p (chanOf s c) l .openCkpt false with
  | none => none
  | some (ch, blk) =>
    let ch := pages.foldl (fun ch units =>
      let b := blkOf ch blk
      let n := numberSectors ch (units.map fun u => ({ unit := u.1, space := space, kind := 3, seq := 0, data := u.2 }, .none))
      let ch := setBlk n.1 blk { b with wp := b.wp + 1 }
      landSectors p { ch with programs := wrapAdd 32 ch.programs 1 } blk b.wp 0 n.2) ch
    some (updChan s c fun _ => blockEvent (modBlk ch blk fun b => shut { b with summary := true }) blk 2)

/-- A target lost (R306): its blocks retired with reason 5, entries that point into it poisoned. -/
def loseTarget (p : Profile) (ch : Chan) (t : Nat) : Chan :=
  let n := p.nl * p.nb
  let ch := ((List.range n).map (t * n + ·)).foldl (fun ch b => if (blkOf ch b).st = .retired then ch else retire p ch b 5) ch
  { ch with
    map := tmap ch.map fun _ x => if x ≠ mapPoison ∧ lunTarget p (blkLun p (slotBlk p x)) = t then mapPoison else x
    vers := ch.vers.map fun v => if v.2.2 ≠ mapPoison ∧ lunTarget p (blkLun p (slotBlk p v.2.2)) = t then (v.1, v.2.1, mapPoison) else v
    targets := without ch.targets t }

/-- E_c of R471. -/
def nsShare (p : Profile) (ch : Chan) : Nat := (usableBlocks p ch * blockSectors p * 93 / 100) / 4 * 4
/-- The namespace formed over the channels usable now (R290, R471). -/
def formNamespace (s : State) : State :=
  let l := (List.range 32).filter fun c => chanUsable s c && (chanOf s c).media.formatted
  let e := (l.map fun c => nsShare (profOf s c) (chanOf s c))
  { s with ftl := { s.ftl with nsChannels := l, nsBlocks := l.length * (e.foldl min (e.headD 0)) } }

/-- Whether the namespace holds no data and may be formed at a format (R471): its channels have rebuilt and map none of it (log 19). -/
def nsBlank (s : State) : Bool :=
  s.ftl.nsChannels.all fun c => (chanOf s c).rebuilt && !((chanOf s c).map.any fun e => decide (e.1 < 2 ^ 40))

end Sys2Proof.Machine
end

