-- ==== Sys2Proof/Machine/Bales.lean ====
section
/-!
DEFINITION. Operand references (R48): where the bytes of a range live (R227), reading and writing them, and the copies of
first bales that the Drover pages in (R65, R232).
-/

namespace Sys2Proof.Machine

/-- Where bytes live: host memory, stack memory, a tile's working space, a unit of space 0 from a byte on, a lost bale, or
nowhere (a scratch bale without a home). -/
inductive Seg where
  | host (a : Nat)
  | stk (a : Nat)
  | sram (a : Nat)
  | unit (lba off : Nat)
  | lost
  | hole (key : Nat)
deriving DecidableEq, Repr

/-- The answer of a read: bytes, or the status with which the reader completes. -/
inductive Rd where
  | ok (bs : List Byte)
  | err (status : Nat)
deriving DecidableEq, Repr

def Rd.bytes : Rd → List Byte
  | .ok bs => bs
  | .err _ => []

/-- The segment of a byte of a list of homes. -/
def homeSeg (s : State) (homes : List Home) (off : Nat) : Seg :=
  match homes[off / bale]? with
  | some (.stack n slot) => if stackUsable s n then .stk (slotAddr n slot + off % bale) else .lost
  | some (.tile t o) => if tileUsable s t then .sram (t * 2 ^ 32 + o + off % bale) else .lost
  | _ => .hole off

/-- The segment of a byte of a pen's region: its unit of the namespace (R339, R327). -/
def regionSeg (s : State) (p first off : Nat) : Seg := .unit ((penOf s p).winBase + first + off / 4096) (off % 4096)

/-- The bale of a byte of an operand, when it is homed on flash or in host memory (R227). -/
def baleAt (s : State) (p acc : Nat) (op : OpRef) (off : Nat) : Option BaleId :=
  match op with
  | .host a => some (.host p acc ((a + off) / bale))
  | .obj n o => match objOf s p n with
    | some x => match x.kind with
      | .region first _ => some (.flash ((penOf s p).winBase + first + (o + off) / bale * 16))
      | _ => none
    | none => none
  | _ => none

/-- The bale that an operand's first byte lies in, when it is homed on flash or in host memory. -/
def firstBale (s : State) (p acc : Nat) (op : OpRef) : Option BaleId := baleAt s p acc op 0

/-- Offset of an operand's first byte within its first bale. -/
def firstOff (op : OpRef) : Nat := match op with
  | .host a => a % bale
  | .obj _ o => o % bale
  | .scratch _ o => o % bale
  | .none => 0

/-- The resident or filling copy of a bale in a quad. -/
def copyOf (s : State) (b : BaleId) (quad : Nat) : Option BaleCopy :=
  s.drover.copies.find? fun c => c.bale == b && c.quad == quad && !(c.stale && c.st == .clean)

/-- The copy of a bale that a task uses: the one that it pins, which keeps its bytes until it is unpinned (R233), else the quad's. -/
def copyFor (s : State) (t : TaskId) (b : BaleId) (quad : Nat) : Option BaleCopy :=
  ((s.drover.copies.find? fun c => c.bale == b && c.quad == quad && t ∈ c.pins).or (copyOf s b quad)).filter fun c => c.st != .filling

/-- The copy through which a graph's view sees the byte of an operand (R65). -/
def viewCopy (s : State) (p : Nat) (g : Option Graph) (op : OpRef) (off : Nat) : Option BaleCopy :=
  match g.bind (·.view), g with
  | some (t, q), some g => (baleAt s p g.acc op off).bind fun b => copyFor s t b q
  | _, _ => none

/-- The address of a byte of a table in a row that has migrated (R222). -/
def moveAt (t : Table) (o : Nat) : Option Nat :=
  (t.remap.find? fun r => decide (r.off ≤ o ∧ o < r.off + r.size)).map fun r => slotAddr r.stack r.slot + r.idx * r.size + (o - r.off)

/-- The segment of a byte at the home of an operand, for a pen and a graph. A byte beyond the object is nowhere (R319, R390). -/
def homeOf (s : State) (p : Nat) (g : Option Graph) (op : OpRef) (off : Nat) : Seg :=
  match op with
  | .host a => .host (hostKey p (a + off))
  | .obj n o => match objOf s p n with
    | none => .lost
    | some x =>
      if x.lost then .lost
      else match x.kind with
        | .region first blocks => if (o + off) / 4096 < blocks then regionSeg s p first (o + off) else .hole (o + off)
        | .table t => (match moveAt t (o + off) with
          | some a => .stk a
          | none => homeSeg s x.homes (o + off))
        | _ => homeSeg s x.homes (o + off)
  | .scratch n o => match g.bind fun g => tget? g.scratch n with
    | none => .hole (o + off)
    | some x => homeSeg s x.homes (o + off)
  | .none => .hole off

/-- The segment of a byte that an operand reference names: in the copy through which the graph's view sees it, else at its home. -/
def opSeg (s : State) (p : Nat) (g : Option Graph) (op : OpRef) (off : Nat) : Seg :=
  match viewCopy s p g op off, homeOf s p g op off with
  | some _, .hole k => .hole k
  | some c, _ => .stk (slotAddr c.stack c.slot + (firstOff op + off) % bale)
  | none, x => x

/-- The slot size of a table with migrated rows; a bale for other operands. -/
def tableGrain (s : State) (p : Nat) (op : OpRef) : Nat := match op with
  | .obj n _ => match objOf s p n with
    | some o => match o.kind with
      | .table t => (t.remap.head?.map fun r => max r.size 1).getD bale
      | _ => bale
    | none => bale
  | _ => bale

/-- Bytes from an offset on that the same segment surely holds: of a bale, a unit, a row's slot. -/
def segRoom (op : OpRef) (grain off : Nat) : Nat :=
  match op with
  | .host a => bale - (a + off) % bale
  | .obj _ o => let r := (o + off) % bale; min (bale - r) (grain - r % grain)
  | .scratch _ o => bale - (o + off) % bale
  | .none => 2 ^ 64

/-- The segments of n bytes of an operand from an offset on, with their lengths, by fuel. -/
def segsGo (s : State) (p : Nat) (g : Option Graph) (op : OpRef) : Nat → Nat → Nat → List (Seg × Nat)
  | 0, _, _ => []
  | f + 1, off, n =>
    if n = 0 then []
    else
      let seg := opSeg s p g op off
      let grain := match seg with
        | .unit _ _ => 4096
        | _ => tableGrain s p op
      let k := min n (segRoom op grain off)
      (seg, k) :: segsGo s p g op f (off + k) (n - k)

/-- The segments of a range. -/
def segs (s : State) (p : Nat) (g : Option Graph) (op : OpRef) (off n : Nat) : List (Seg × Nat) :=
  segsGo s p g op (n / min 4096 (tableGrain s p op) + 3) off n

/-- The tag of the undefined contents of a scratch bale without a home. -/
def holeTag (p : Nat) : Nat := p

/-- Whether a range of tile SRAM meets a poisoned word (R437). -/
def sramBad (s : State) (a n : Nat) : Bool := (tileOf s (a / 2 ^ 32)).sramPoison.any fun w => decide (a < w + 8 ∧ w < a + n)

/-- Poisoned words that a write covers whole hold good data again (R437). -/
def mendSram (s : State) (a n : Nat) : State :=
  if (tileOf s (a / 2 ^ 32)).sramPoison.isEmpty then s
  else updTile s (a / 2 ^ 32) fun x => { x with sramPoison := x.sramPoison.filter fun w => !decide (a ≤ w ∧ w + 8 ≤ a + n) }

/-- Bytes of one segment. -/
def readSeg (s : State) (p : Nat) (x : Seg × Nat) : Rd :=
  match x.1 with
  | .host a => .ok (s.hostMem.read a x.2)
  | .stk a => if poisoned s a x.2 then .err stMediaError else .ok (readStack s a x.2)
  | .sram a => if sramBad s a x.2 then .err stMediaError else .ok (s.sram.read a x.2)
  | .unit lba off =>
    let st := unitStatus s lba
    if st != 0 then .err st
    else match unitData s lba with
      | none => .err stMediaError
      | some d => .ok (((List.range x.2).map fun i => cellAt d.1 (off + i)))
  | .lost => .err stStateLost
  | .hole k => .ok ((List.range x.2).map fun i => Config.freeByte (holeTag p) (k + i))

/-- Bytes of a list of segments, or the status of the first that cannot be read. -/
def readSegs (s : State) (p : Nat) : List (Seg × Nat) → Rd
  | [] => .ok []
  | x :: r => match readSeg s p x with
    | .err e => .err e
    | .ok b => match readSegs s p r with
      | .err e => .err e
      | .ok bs => .ok (b ++ bs)

/-- n bytes of an operand from an offset on. -/
def readOp (s : State) (p : Nat) (g : Option Graph) (op : OpRef) (off n : Nat) : Rd :=
  readSegs s p (segs s p g op off n)

/-- A read of n bytes of an operand in host memory recorded, in pieces that a record holds (R451, R452); other operands need none. -/
def recOp (s : State) (stream p : Nat) (op : OpRef) (n : Nat) : State := match op with
  | .host a => (List.range (ceilDiv n 32768)).foldl (fun s i =>
      hostReadRec s stream p (a + 32768 * i) (min 32768 (n - 32768 * i))) s
  | _ => s

/-- Units of space 0 with bytes replaced: (lba, cells). -/
def unitPatch (s : State) (lba off : Nat) (bs : List Byte) : UnitWrite :=
  let old : Mem := { cells := ((unitData s lba).map (·.1)).getD [], undef := [] }
  { lba := lba, data := (old.write off bs).cells }

/-- Bytes written to one segment at its home, for a task or on the node's account, by the unit of an agent (R257). Units go through
Kindling pages programmed now (R232). -/
def writeSeg (s : State) (t : Option TaskId) (agent : Nat) (x : Seg) (bs : List Byte) : State :=
  match x with
  | .host a => hostWrite s 36 a bs
  | .stk a => agentWrite s t agent a bs
  | .sram a => mendSram { s with sram := s.sram.write a bs } a bs.length
  | .unit lba off =>
    let w := unitPatch s lba off bs
    match lbaUnit s lba with
    | none => s
    | some (c, u) => if unitWriteStatus s lba != 0 || s.trace.replay then s
      else (programNow (staleCopies (dropBuffered s lba) lba) c [(u, w.data)]).getD s
  | _ => s

/-- Bytes written to a list of segments. -/
def writeSegs (s : State) (t : Option TaskId) (agent : Nat) : List (Seg × Nat) → List Byte → State
  | [], _ => s
  | x :: r, bs => writeSegs (writeSeg s t agent x.1 (bs.take x.2)) t agent r (bs.drop x.2)

/-- The agent of the unit that runs a task (R256, R257): its tile, its channel engine, or the hub's DMA. -/
def taskAgent (s : State) (t : TaskId) : Nat := match taskOf s t with
  | some k => if k.unitKind = 1 then k.unitNo else if k.unitKind = 2 then 64 + k.unitNo else dmaAgent
  | none => dmaAgent

/-- Bytes that a task's unit writes at an operand's home, from an offset on. -/
def writeTask (s : State) (t : TaskId) (p : Nat) (g : Option Graph) (op : OpRef) (off : Nat) (bs : List Byte) : State :=
  writeSegs s (some t) (taskAgent s t) (segs s p g op off bs.length) bs

/-- Bytes that the hub writes at an operand's home, from an offset on. -/
def writeHome (s : State) (p : Nat) (g : Option Graph) (op : OpRef) (off : Nat) (bs : List Byte) : State :=
  writeSegs s none dmaAgent (segs s p g op off bs.length) bs

/-- What an operand's range makes undefined when its task's result there is unpredictable: the bytes of its segments in
memory read as free values (log 1). -/
def smudgeSeg (s : State) (x : Seg × Nat) : State :=
  let r := drawTag s
  match x.1 with
  | .host a => if s.trace.replay then s else { r.2 with hostMem := s.hostMem.smudge a x.2 r.1 }
  | .stk a => { r.2 with mem := s.mem.smudge a x.2 r.1 }
  | .sram a => { r.2 with sram := s.sram.smudge a x.2 r.1 }
  | .unit lba _ =>
    writeSeg r.2 none dmaAgent (.unit lba 0) ((List.range 4096).map fun i => Config.freeByte r.1 i)
  | _ => s
/-! Copies (R232, R233). -/

def modCopy (s : State) (n : Nat) (f : BaleCopy → BaleCopy) : State :=
  { s with drover := { s.drover with copies := s.drover.copies.map fun c => if c.num = n then f c else c } }

/-- The runs of a range by the segments that hold it: (offset in the range, length, segment, copy). -/
def runsGo (s : State) (p : Nat) (g : Option Graph) (op : OpRef) : Nat → List (Seg × Nat) → List (Nat × Nat × Seg × Option BaleCopy)
  | _, [] => []
  | off, x :: r => (off, x.2, x.1, viewCopy s p g op off) :: runsGo s p g op (off + x.2) r

/-- A run of bytes noted in the copy that holds it: to be written back for its task (R232). -/
def noteRun (s : State) (t : TaskId) (op : OpRef) (x : Nat × Nat × Seg × Option BaleCopy) : State :=
  match x.2.2.2 with
  | some c => modCopy s c.num fun c => { c with
      st := if c.st == .writing then .writing else .dirty
      dirty := c.dirty ++ [(t, (firstOff op + x.1) % bale, x.2.1)] }
  | none => s

def smudgeOp (s : State) (p : Nat) (g : Option Graph) (op : OpRef) (off n : Nat) : State :=
  (runsGo s p g op off (segs s p g op off n)).foldl (fun s x =>
    let s := smudgeSeg s (x.2.2.1, x.2.1)
    match g.bind (·.view) with
    | some v => noteRun s v.1 op x
    | none => s) s

/-- The move of a bale into the pool begun (R65, R232): one move serves every task that waits for it. -/
def startFill (s : State) (p quad : Nat) (b : BaleId) (t : TaskId) : Option State :=
  match copyOf s b quad with
  | some c => some (modCopy s c.num fun c => { c with waiters := addNew c.waiters t })
  | none => match poolSlot s p quad with
    | none => none
    | some (s, st, slot) =>
      let c : BaleCopy :=
        { num := s.drover.nextCopy, bale := b, quad := quad, stack := st, slot := slot, st := .filling, age := 0, pen := p, waiters := [t] }
      some { s with drover := { s.drover with copies := s.drover.copies ++ [c], nextCopy := s.drover.nextCopy + 1 } }

/-- A bale of an issued task: its copy pinned when it is resident, else its move begun (R65, R66, R233). A move for which no slot
can be had is tried again later. -/
def pinBale (s : State) (p quad : Nat) (t : TaskId) (b : BaleId) : State :=
  match copyOf s b quad with
  | some c =>
    if c.st == .filling then modCopy s c.num fun c => { c with waiters := addNew c.waiters t }
    else modTask (modCopy s c.num fun c => { c with pins := addNew c.pins t }) t fun k => { k with window := without k.window b }
  | none => (startFill s p quad b t).getD s

/-- The bales that issued tasks wait for, tried again. -/
def fetchAhead (s : State) : State :=
  ((allTasks s).filter fun x => x.2.2.st == .issued && !x.2.2.window.isEmpty).foldl (fun s x =>
    x.2.2.window.foldl (fun s b => pinBale s x.2.1.pen x.2.2.quad x.1 b) s) s

/-- The cells of a bale at its home, by offset: none when a unit of it cannot be read. -/
def homeCells (s : State) (b : BaleId) : Option (List Host.Cell) :=
  match b with
  | .host p _ n => some (s.hostMem.slice (hostKey p (n * bale)) bale)
  | .flash lba =>
    let units := (List.range 16).map fun i => (i, if unitStatus s (lba + i) = 0 then (unitData s (lba + i)).map (·.1) else none)
    if units.all fun u => u.2.isSome then
      some (units.flatMap fun u => (u.2.getD []).map fun c => (4096 * u.1 + c.1, c.2))
    else none
  | .obj _ _ _ => some []

/-- The bytes of a bale put into its copy's slot (R231, R232). -/
def fillSlot (s : State) (c : BaleCopy) (cells : List Host.Cell) : State :=
  let a := slotAddr c.stack c.slot
  { s with mem := s.mem.paste a bale cells, poison := s.poison.filter fun l => !(decide (a ≤ l ∧ l < a + bale)) }

/-- Bytes that a task writes to an operand from an offset on (R232, R233): those of a bale that has a copy go to the copy, to be
written back before the task completes; the others to their home. -/
def writeOp (s : State) (t : TaskId) (p quad : Nat) (g : Option Graph) (op : OpRef) (off : Nat) (bs : List Byte) : State :=
  let s := modTask s t fun k => { k with wrote := true, usedStack := k.usedStack + bs.length }
  let g := g.map fun g => { g with view := some (t, quad) }
  (runsGo s p g op off (segs s p g op off bs.length)).foldl (fun s x =>
    let d := (bs.drop (x.1 - off)).take x.2.1
    noteRun (writeSeg s (some t) (taskAgent s t) x.2.2.1 d) t op x) s

/-- A run of bytes cut at 4 KiB units: (unit, offset, bytes), by fuel. -/
def unitRuns : Nat → Nat → List Byte → List (Nat × Nat × List Byte)
  | 0, _, _ => []
  | f + 1, off, bs =>
    if bs.isEmpty then []
    else
      let k := 4096 - off % 4096
      (off / 4096, off % 4096, bs.take k) :: unitRuns f (off + k) (bs.drop k)

/-- One run written back: to host memory, or to the units of the flash-homed bale. -/
def writeBackRun (s : State) (b : BaleId) (off : Nat) (bs : List Byte) : State :=
  match b with
  | .host p _ n => hostWrite s 36 (hostKey p (n * bale + off)) bs
  | .flash lba => (unitRuns (bs.length / 4096 + 2) off bs).foldl (fun s x => writeSeg s none dmaAgent (.unit (lba + x.1) x.2.1) x.2.2) s
  | .obj _ _ _ => s

/-- What a run's home holds when its bytes are lost with their copy: free values (R237). -/
def smudgeRun (s : State) (b : BaleId) (off n : Nat) : State :=
  let r := drawTag s
  match b with
  | .host p _ k => if s.trace.replay then s else { r.2 with hostMem := s.hostMem.smudge (hostKey p (k * bale + off)) n r.1 }
  | .flash _ => writeBackRun r.2 b off ((List.range n).map fun i => Config.freeByte r.1 i)
  | .obj _ _ _ => s

/-- Stack bytes and flash operations in sixteenths that were done for a task (R67). -/
def charge (s : State) (t : TaskId) (bytes ops : Nat) : State :=
  modTask s t fun k => { k with usedStack := k.usedStack + bytes, usedFlash := k.usedFlash + ops }

/-- Page operations of a run of a bale on flash, in sixteenths: 16 KiB to a page (R67); none in host memory. -/
def pageOps (b : BaleId) (off n : Nat) : Nat := match b with
  | .flash _ => 16 * ((off + n + 16383) / 16384 - off / 16384)
  | _ => 0

/-- A bale's move charged to the first task that waited for it (R67). -/
def chargeFill (s : State) (c : BaleCopy) : State := match c.waiters.head? with
  | some t => charge s t bale (pageOps c.bale 0 bale)
  | none => s

/-- One run of a copy written back from its slot; a poisoned line in it ends its task with MEDIA_ERROR, its bytes unpredictable (R239). -/
def writeBackOne (s : State) (c : BaleCopy) (x : TaskId × Nat × Nat) : State :=
  let a := slotAddr c.stack c.slot + x.2.1
  let s := charge s x.1 x.2.2 (pageOps c.bale x.2.1 x.2.2)
  if poisoned s a x.2.2 then
    modTask (smudgeRun s c.bale x.2.1 x.2.2) x.1 fun k => { k with status := if isFailure k.status then k.status else stMediaError }
  else writeBackRun s c.bale x.2.1 (readStack s a x.2.2)

/-- The bytes of a copy that the finished tasks wrote, written back to its home (R232): exactly those of their runs. Runs of other
tasks leave the copy DIRTY. -/
def writeBack (s : State) (c : BaleCopy) : State :=
  let mine := c.dirty.filter fun x => x.1 ∈ c.wb
  modCopy (mine.foldl (fun s x => writeBackOne s c x) s) c.num fun d =>
    let left := d.dirty.filter fun x => !(x.1 ∈ c.wb)
    { d with dirty := left, wb := d.wb.filter fun t => !(t ∈ c.wb), st := if left.isEmpty then .clean else .dirty }

/-! The arrays' bytes in the stacks (R80, R82, R86). -/

/-- A bale of an index's image and the stack address of its home, for the bales that the arrays take. -/
def imageHomes (s : State) (x : Index) (homes : List Home) : List (Nat × Nat) :=
  ((List.range (arrayBales x)).zip homes).filterMap fun h => match h.2 with
    | .stack n slot => if stackUsable s n then some (h.1, slotAddr n slot) else none
    | _ => none

/-- The lines of a bale's home that differ from the index's image: offset in the bale, and the bytes the image has there. -/
def lineDiffs (s : State) (img : Mem) (h : Nat × Nat) : List (Nat × List Byte) :=
  let want := img.slice (h.1 * bale) bale
  let have_ := s.mem.slice h.2 bale
  let l := ((want.filter fun c => !(c ∈ have_)) ++ have_.filter fun c => !(c ∈ want)).map fun c => c.1 / line * line
  (l.foldl addNew []).map fun o => (o, (List.range line).map fun i => cellAt want (o + i))

/-- The arrays' bytes brought to their homes by the hub, line by line (R80, R82). -/
def syncIndex (s : State) (p num : Nat) : State :=
  match objOf s p num with
  | some o => match o.kind with
    | .index x =>
      let img := indexImage x
      (imageHomes s x o.homes).foldl (fun s h =>
        (lineDiffs s img h).foldl (fun s d => agentWrite s none dmaAgent (h.2 + d.1) d.2) s) s
    | _ => s
  | none => s

/-- Whether the homes of an index hold its arrays as the node wrote them (R109): a line that differs has a write under way. -/
def indexIntact (s : State) (o : Obj) (x : Index) : Bool :=
  let img := indexImage x
  (imageHomes s x o.homes).all fun h => (lineDiffs s img h).all fun d => !(busyLines s (h.2 + d.1) line).isEmpty

/-- Whether queries on the index that an operand names have a stated result (R109, R154). -/
def indexSound (s : State) (p : Nat) (op : OpRef) : Bool := match op with
  | .obj n _ => match objOf s p n with
    | some o => match o.kind with
      | .index x => !x.wild && indexIntact s o x
      | _ => true
    | none => true
  | _ => true

end Sys2Proof.Machine
end

