-- ==== Sys2Proof/Machine/Queues.lean ====
section
/-!
DEFINITION. Queues and controllers (R322, R323, R326): what becomes of commands whose queue is gone, pages of a PRP list,
NVMe I/O charges, ordered writes, and the check of keyed commands (R355 to R357).
-/

namespace Sys2Proof.Machine

/-- A command whose queue is gone: its completion entry will be discarded (R322). Controller numbers from 512 on name no
controller. -/
def orphan (p : Cmd → Bool) (c : Cmd) : Cmd := if p c && decide (c.ctl < 512) then { c with ctl := c.ctl + 512 } else c

def orphanOwner (p : Cmd → Bool) (o : Owner) : Owner := match o with
  | .cmd c n => .cmd (orphan p c) n
  | .task t c n => .task t (orphan p c) n
  | .none => .none

def orphanObj (p : Cmd → Bool) (o : Obj) : Obj :=
  { o with
    kind := match o.kind with
      | .index x => .index { x with
          commits := x.commits.map fun m => { m with cmd := orphan p m.cmd }
          loading := x.loading.map fun m => { m with cmd := orphan p m.cmd } }
      | k => k
    lent := o.lent.map fun l => { l with
      handover := l.handover.map (orphan p)
      queued := l.queued.map fun q => (orphan p q.1, q.2) } }

/-- Every command that satisfies p, wherever the node keeps it, made an orphan. -/
def orphanAll (p : Cmd → Bool) (s : State) : State :=
  { s with
    port := { s.port with
      live := s.port.live.map fun l => { l with cmd := orphan p l.cmd }
      fences := s.port.fences.map fun f => { f with cmd := orphan p f.cmd }
      flushes := s.port.flushes.map fun f => { f with cmd := orphan p f.cmd }
      wb := s.port.wb.map fun u => { u with owner := orphanOwner p u.owner }
      wbWait := s.port.wbWait.map fun u => { u with owner := orphanOwner p u.owner }
      ioWait := s.port.ioWait.map fun u => { u with owner := orphanOwner p u.owner }
      sanitizing := s.port.sanitizing.map (orphan p)
      warm := s.port.warm.map (orphan p) }
    drover := { s.drover with graphs := s.drover.graphs.map fun g => { g with cmd := orphan p g.cmd } }
    pens := tmap s.pens fun _ x => { x with
      objects := tmap x.objects fun _ o => orphanObj p o
      resetWait := x.resetWait.map fun w => (orphan p w.1, w.2) }
    ftl := { s.ftl with chans := tmap s.ftl.chans fun _ ch => { ch with
      page := ch.page.map fun x => (x.1, orphanOwner p x.2)
      ops := ch.ops.map fun o => { o with
        purpose := match o.purpose with
          | .io w => .io (orphanOwner p w)
          | w => w
        sectors := o.sectors.map fun x => (x.1, orphanOwner p x.2) } } } }

/-- Graphs that waited for room in a record queue that is gone: their records are discarded (R322). -/
def dropRecords (s : State) (p : Cmd → Bool) : State :=
  let accs := (s.drover.graphs.filter fun g => p g.cmd && decide (0 < g.recsWaiting)).map (·.acc)
  accs.foldl (fun s a => tryGraph (modGraph s a fun g => { g with recsWaiting := 0 }) a) s

/-- Ordered writes still waiting in a queue that goes are performed, unreported (R322). -/
def performWaiting (s : State) (q : Sq) : State :=
  q.owWait.foldl (fun s w => if w.st = 0 then writeUnits s .none w.fua w.units else s) s

/-- One I/O submission queue deleted with its record queue (R326, R328); PUTs whose arrival records wait there get a free status (R415). -/
def deleteSq (s : State) (ctl qid : Nat) : State :=
  let p : Cmd → Bool := fun c => c.ctl == ctl && c.sq == qid
  let r := drawTag s
  let s := performWaiting r.2 (tget (ctlOf s ctl).sqs qid)
  let s := owePuts s (tget (ctlOf s ctl).sqs qid).rq.waiting ((Config.freeWord r.1).toNat % 2048)
  let s := updCtl s ctl fun c => { c with sqs := tdel c.sqs qid }
  wake (orphanAll p (dropRecords s p))

/-- A controller reset (R322): every I/O queue deleted, completions of what was fetched discarded, the controller disabled;
PUTs whose arrival records wait there get a free status (R415). -/
def resetCtl (s : State) (ctl : Nat) : State :=
  if thas s.port.ctls ctl then
    let p : Cmd → Bool := fun c => c.ctl == ctl
    let r := drawTag s
    let s := (ctlOf s ctl).sqs.foldl (fun s q => owePuts (performWaiting s q.2) q.2.rq.waiting ((Config.freeWord r.1).toNat % 2048)) r.2
    let s := updCtl s ctl fun c => { c with
      sqs := [], cqs := [], aers := [], en := false, rdy := false, admin := {}, adminCq := {} }
    wake (orphanAll p (dropRecords s p))
  else s

/-- Bytes placed at the pages of a PRP list: the first from its offset on, the others whole pages. -/
def prpCut : List Nat → List Byte → List (Nat × List Byte)
  | [], _ => []
  | a :: r, bs => (a, bs.take (4096 - a % 4096)) :: prpCut r (bs.drop (4096 - a % 4096))

/-- A command's PRP list in its function's address space (R48). -/
def fnPages (c : Cmd) (prp : List Nat) : List Nat := prp.map (hostKey (penOfCtl c.ctl))

/-- Whether a PRP list is well formed for n bytes: it has their pages, each after the first from its start on. -/
def prpOk (prp : List Nat) (n : Nat) : Bool := (prp.drop 1).all (· % 4096 == 0) && decide (n ≤ sumBy (fun a => 4096 - a % 4096) prp)

/-- The pages that a malformed list names, left unpredictable in host memory (R349, log 178). -/
def wildPages (s : State) (prp : List Nat) : State :=
  if s.trace.replay then s
  else { s with nfree := s.nfree + 1, hostMem := prp.foldl (fun m a => m.smudge a (4096 - a % 4096) s.nfree) s.hostMem }

/-- Data transferred to the host through a PRP list. -/
def prpWrite (s : State) (prp : List Nat) (bs : List Byte) : State :=
  if !prpOk prp bs.length then wildPages s prp
  else (prpCut prp bs).foldl (fun s x => if x.2.isEmpty then s else hostWrite s 0 x.1 x.2) s

/-- n bytes of host memory at the pages of a PRP list. -/
def pageBytes (s : State) : List Nat → Nat → List Byte
  | [], _ => []
  | a :: r, n => let k := min n (4096 - a % 4096); s.hostMem.read a k ++ pageBytes s r (n - k)

/-- n bytes read from host memory through a PRP list; through a malformed one free values (R349), of the tag that prpRec took. -/
def prpRead (s : State) (prp : List Nat) (n : Nat) : List Byte :=
  if prpOk prp n then pageBytes s prp n else (List.range n).map fun i => Config.freeByte (s.nfree - 1) (2 ^ 80 + i)

/-- The reads of a transfer recorded, page by page (R452). -/
def pageRec (fn : Nat) : List Nat → Nat → State → State
  | [], _, s => s
  | a :: r, n, s =>
    let k := min n (4096 - a % 4096)
    pageRec fn r (n - k) (if k = 0 then s else hostReadRec s 0 fn a k)

/-- A transfer through a PRP list begun: recorded, or the tag taken of what a malformed list gives. -/
def prpRec (fn : Nat) (prp : List Nat) (n : Nat) (s : State) : State :=
  if prpOk prp n then pageRec fn prp n s else (drawTag s).2

/-- Logical blocks of a pen's window (R327): pen 0's is the whole namespace. -/
def windowLen (s : State) (p : Nat) : Nat := if p = 0 then s.ftl.nsBlocks else (penOf s p).winLen

/-- Blocks [slba, slba + n) of a pen's window as logical blocks of the namespace, or none when the range leaves it (R327). -/
def windowUnits (s : State) (p slba n : Nat) : Option (List Nat) :=
  let x := penOf s p
  if slba + n ≤ windowLen s p then some ((List.range n).map fun i => x.winBase + slba + i) else none

/-- The units of a write's data: 4 KiB each. -/
def dataUnits (lbas : List Nat) (bs : List Byte) : List UnitWrite :=
  match lbas with
  | [] => []
  | l :: r => { lba := l, data := cellsOf 0 (bs.take 4096) } :: dataUnits r (bs.drop 4096)

/-- Whether an NVMe I/O command of a pen may start: its buckets in DCLASS are positive (R366). -/
def ioPositive (s : State) (p : Nat) : Bool :=
  let x := penOf s p
  bktPositive x x.dclass 1 && bktPositive x x.dclass 2

/-- The charge of an NVMe I/O command (R366): write-buffer bytes and page operations. -/
def chargeIo (s : State) (p : Nat) (stackB pages : Nat) : State :=
  chargePen s p (penOf s p).dclass { stack := stackB, flash := 16 * pages }

/-- Ordered writes whose turn has come start (R336), by fuel over the queues. -/
def nextOrdered (s : State) : Option (Nat × Nat × OrdWrite) :=
  s.port.ctls.findSome? fun c => c.2.sqs.findSome? fun q =>
    match q.2.owCur, q.2.owWait with
    | none, w :: _ => some (c.1, q.1, w)
    | _, _ => none

/-- An ordered write started (R336, R341). -/
def startOrdered (s : State) (w : OrdWrite) (num : Nat) : State :=
  let s := updCtl s w.cmd.ctl fun x => { x with sqs := tupd x.sqs w.cmd.sq fun q => { q with owCur := some w.cmd } }
  if w.st != 0 then ownerDone s (.cmd w.cmd num) w.st
  else match (w.units.map fun u => unitWriteStatus s u.lba).find? (· != 0) with
    | some st => ownerDone s (.cmd w.cmd num) st
    | none => writeUnits s (.cmd w.cmd num) w.fua w.units

/-- The entry number of a live command. -/
def liveNum (s : State) (c : Cmd) : Nat := ((s.port.live.find? fun l => l.cmd == c).map (·.num)).getD 0

/-- Every ordered write whose predecessor has completed started, by fuel. -/
def settleOrdered (s : State) : Nat → State
  | 0 => s
  | k + 1 => match nextOrdered s with
    | none => s
    | some (ctl, q, w) =>
      let s := updCtl s ctl fun x => { x with sqs := tupd x.sqs q fun y => { y with owWait := y.owWait.drop 1 } }
      settleOrdered (startOrdered s w (liveNum s w.cmd)) k

/-- Ordered writes waiting in all queues. -/
def orderedCount (s : State) : Nat := sumBy (fun c => sumBy (fun q => q.2.owWait.length) c.2.sqs) s.port.ctls

/-! Keyed commands (R340, R355 to R357). -/

/-- The command key of a pen (R355); none while no K0 is established. -/
def penKey (s : State) (p : Nat) : Option (List Byte) :=
  match s.boot.k0 with
  | none => none
  | some k0 =>
    if p = 0 then some k0
    else some (kmac256 k0 (le 2 p ++ le 3 (penOf s p).gen) 32 (ascii "VN-J720 PEN KEY"))

/-- The tag of a control block (R356). -/
def keyedTag (key : List Byte) (code : Nat) (b : KBlock) : List Byte :=
  kmac256 key (le 8 b.counter.toNat ++ le 2 code ++ sub b.resv 0 6 ++ sub b.args 0 32) 16 (ascii "VN-J720 KEYED")

/-- The three checks of R357. In replay the recorded outcome stands in for them (R454). -/
def keyedOk (s : State) (p code : Nat) (b : KBlock) (permitted : Bool) : Bool :=
  if s.trace.replay then
    match s.trace.supplied.find? (fun r => r.stream == 0 && r.kind == 0x15) with
    | some r => fieldAt r.body 4 1 == 1
    | none => false
  else
    decide ((penOf s p).kctr < b.counter.toNat) && permitted &&
    (match penKey s p with
      | some k => keyedTag k code b == b.tag
      | none => false)

/-- A keyed command: fetched from a Skex queue, checked, and performed by f when accepted; f sees its pen and entry number.
A rejected one completes with TAG_REJECTED (R357); one with a wrong NSID or reserved field with a free status (R349, log 162). -/
def withKeyed (s : State) (c : Cmd) (b : KBlock) (code : Nat) (permit : Nat → Bool) (f : State → Nat → State) : Res :=
  withCmd s c fun s _ =>
    if !onSkex s c then complete s c stInvalidOpcode
    else if c.bad then completeFree s c
    else
      let p := penOfCtl c.ctl
      let ok := keyedOk s p code b (permit p)
      let s := traceRec s 0x15 0 (le 4 s.trace.decisions ++ le 1 (b2n ok))
      let s := if s.trace.replay then
          { s with trace := { s.trace with supplied := dropFirst (fun r => r.stream == 0 && r.kind == 0x15) s.trace.supplied } }
        else s
      if ok then f (updPen s p fun x => { x with kctr := b.counter.toNat }) p
      else complete (updPen s p fun x => { x with krej := satAdd 16 x.krej 1 }) c stTagRejected

/-- Whether a keyed command would be fetched and accepted now. -/
def keyedAccepted (s : State) (c : Cmd) (b : KBlock) (code : Nat) (permit : Nat → Bool) : Bool :=
  (canFetch s c).isSome && onSkex s c && !c.bad && keyedOk s (penOfCtl c.ctl) code b (permit (penOfCtl c.ctl))

/-- A keyed command whose argument block must hold values in their ranges and reserved fields of 0: with a valid tag, one that does
not leaves the named pen or the command unpredictable (R371, R415): it completes with a free status (log 135). -/
def withKeyedArgs (s : State) (c : Cmd) (b : KBlock) (code : Nat) (permit : Nat → Bool) (ok : Bool) (f : State → Nat → State) : Res :=
  if !(ok && allZero b.resv) && keyedAccepted s c b code permit then withKeyed s c b code permit fun s _ => completeFree s c
  else withKeyed s c b code permit f

/-- Permitted to pen 0 only (R358). -/
def onlyPen0 (p : Nat) : Bool := p == 0

/-- Little-endian fields of the 32 argument bytes. -/
def karg (b : KBlock) (off n : Nat) : Nat := fieldAt b.args off n

end Sys2Proof.Machine
end

