-- ==== Sys2Proof/Machine/Nvme.lean ====
section
/-!
DEFINITION. NVMe I/O commands and the write buffer (R341 to R344, R327, R366).
-/

namespace Sys2Proof.Machine

/-- An NVMe I/O command: fetched from an I/O queue; while a sanitize runs it completes with Sanitize In Progress (R346). -/
def withIo (s : State) (c : Cmd) (f : State → Nat → State) : Res :=
  withCmd s c fun s n =>
    if !isIoCmd c then complete s c stInvalidOpcode
    else if s.port.sanitizing.isSome then complete s c stSanitizeInProgress
    else f s n

/-- Whether a range of a pen's window needs a map segment that is being rebuilt (R292). -/
def rangeWaits (s : State) (p slba blocks : Nat) : Bool :=
  !s.ftl.reloading.isEmpty && ((windowUnits s p slba blocks).getD []).any (unitWaits s)

/-- Flush (R344): waits for what the buffer had accepted and for deallocations completed before. It always ends with
SUCCESS, also while a sanitize runs (log 12). -/
def execFlush (c : Cmd) (s : State) : Res :=
  withCmd s c fun s _ =>
    if !isIoCmd c then complete s c stInvalidOpcode
    else wake { s with port := { s.port with
      flushes := s.port.flushes ++ [{ cmd := c, upto := s.port.wbSeq, trims := staleTrims s }] } }

/-- The first failure status among units, in order. -/
def firstBad {α : Type} (f : α → Nat) (l : List α) : Nat := ((l.map f).find? (· != 0)).getD 0

/-- Write (R341). -/
def execWrite (c : Cmd) (slba blocks : Nat) (fua : Bool) (prp : List Nat) (s : State) : Res :=
  if !ioPositive s (penOfCtl c.ctl) || rangeWaits s (penOfCtl c.ctl) slba blocks then .next s
  else withIo s c fun s n =>
    let p := penOfCtl c.ctl
    match windowUnits s p slba blocks with
    | none => complete s c stLbaOutOfRange
    | some us =>
      let st := firstBad (unitWriteStatus s) us
      if st != 0 then complete s c st
      else
        let s := prpRec p prp (4096 * blocks) s
        let s := chargeIo s p (if !fua && wbInUse s then 4096 * blocks else 0) (ceilDiv blocks 4)
        let s := writeUnits s (.cmd c n) fua (dataUnits us (prpRead s (fnPages c prp) (4096 * blocks)))
        settleOrdered s (orderedCount s)

/-- One unit of a read queued on its channel with the others of its physical page (R288, R300). -/
def queueRead (ch : Chan) (p : Profile) (since slot : Nat) (want : Nat × Nat × Nat) (purpose : ReadFor) : Chan :=
  match ch.ops.find? (fun o => decide (since ≤ o.num) && o.kind == 0 && o.page == slot / 4) with
  | some o => { ch with ops := ch.ops.map fun x => if x.num = o.num then { x with units := x.units ++ [want] } else x }
  | none =>
    let blk := slotBlk p slot
    let op : FlashOp :=
      { num := ch.nextOp, kind := 0, lun := blkLun p blk, blk := blk, page := slot / 4, units := [want], purpose := purpose }
    { ch with ops := ch.ops ++ [op], nextOp := ch.nextOp + 1 }

/-- What a unit of a read finds (R343). -/
inductive UnitFind where
  | data (d : List Host.Cell) (hit : Bool)
  | flash (chan slot u : Nat)
  | bad (status : Nat)

def findUnit (s : State) (lba : Nat) : UnitFind :=
  match s.port.wb.reverse.find? (fun u => u.lba == lba) with
  | some u => .data u.data true
  | none =>
    let st := unitStatus s lba
    if st != 0 then .bad st
    else match lbaUnit s lba with
      | none => .bad stUnitLost
      | some (c, u) =>
        if s.trace.replay then match (tget? s.trace.flash (unitKey 0 u)) with
          | some (some d) => .data d false
          | some none => .bad stMediaError
          | none => .data [] false
        else match tget? (chanOf s c).map (unitKey 0 u) with
          | none => .data [] false
          | some slot => if slot = mapPoison then .bad stMediaError else .flash c slot u

/-- Reads of units begun for an owner (R343, R298): each unit from the buffer, as zeros, or by a page read; `put` delivers
bytes at a destination that the unit names. The owner waits for every unit. -/
def readUnits (s : State) (o : Owner) (put : State → Nat → List Byte → State) (l : List (Nat × Nat)) : State :=
  let s := { s with port := { s.port with ioWait := s.port.ioWait ++ [{ owner := o, remaining := l.length, status := 0 }] } }
  let since := tmap s.ftl.chans fun _ ch => ch.nextOp
  l.foldl (fun s x =>
    match findUnit s x.1 with
    | .data d hit =>
      let s := put s x.2 (bytesOf 4096 d)
      let s := if hit then { s with port := { s.port with wbHits := wrapAdd 32 s.port.wbHits 1 } } else s
      ownerStep s o x.1 stSuccess
    | .bad st => ownerStep s o x.1 st
    | .flash c slot u =>
      updChan s c fun ch => queueRead ch (profOf s c) (tgetD since c 0) slot (0, u, x.2) (.io o)) s

/-- Where the units of a command's data begin in its PRP pages, and the next page, on which a unit goes on when the first page has
an offset: place + 2^72 × next page. -/
def unitPlaces (prp : List Nat) : List Nat := prp.zipWith (fun a b => a + 2 ^ 72 * b) (prp.drop 1 ++ [0])

/-- Bytes of a read unit delivered to a command's pages. -/
def putHost (s : State) (a : Nat) (bs : List Byte) : State :=
  let room := 4096 - a % 4096
  let s := hostWrite s 0 (a % 2 ^ 72) (bs.take room)
  if (bs.drop room).isEmpty then s else hostWrite s 0 (a / 2 ^ 72) (bs.drop room)

/-- Read (R343). Through a malformed PRP list its data and status are free (R349). -/
def execRead (c : Cmd) (slba blocks : Nat) (prp : List Nat) (s : State) : Res :=
  if !ioPositive s (penOfCtl c.ctl) || rangeWaits s (penOfCtl c.ctl) slba blocks then .next s
  else withIo s c fun s n =>
    let p := penOfCtl c.ctl
    match windowUnits s p slba blocks with
    | none => complete s c stLbaOutOfRange
    | some us =>
      let s := chargeIo s p 0 (ceilDiv blocks 4)
      if prpOk prp (4096 * blocks) then readUnits s (.cmd c n) putHost (us.zip (unitPlaces (fnPages c prp)))
      else completeFree (wildPages s (fnPages c prp)) c

/-- Dataset Management (R341): only the deallocate attribute acts (R326). -/
def execDatasetManagement (c : Cmd) (ranges : List (Nat × Nat)) (deallocate : Bool) (s : State) : Res :=
  if ranges.any fun r => rangeWaits s (penOfCtl c.ctl) r.1 r.2 then .next s
  else withIo s c fun s _ =>
    let p := penOfCtl c.ctl
    let lists := ranges.map fun r => windowUnits s p r.1 r.2
    if lists.any (·.isNone) then complete s c stLbaOutOfRange
    else if !deallocate then complete s c stSuccess
    else
      let us := lists.flatMap fun l => l.getD []
      let st := firstBad (unitWriteStatus s) us
      if st != 0 then complete s c st
      else
        let s := us.foldl trimUnit s
        let f (c : Nat) (ch : Chan) : Chan := journalFull s (profOf s c) ch
        complete { s with ftl := { s.ftl with chans := tmap s.ftl.chans f } } c stSuccess

/-- Writes that wait for room in the buffer are admitted (R341). -/
def execWriteBufferAdmit (s : State) : Res :=
  let t := admitWaiting s s.port.wbWait.length
  .next (settleOrdered t (orderedCount t))

/-- The oldest buffered unit of a channel whose drain has not begun. -/
def oldestBuffered (s : State) (channel : Nat) : Option WbUnit :=
  argMin (·.acc) (s.port.wb.filter fun u => !u.draining && (lbaUnit s u.lba).map (·.1) == some channel)

/-- The oldest buffered unit of a channel begins to drain to its Kindling (R341, R294). -/
def execWriteBufferDrain (channel : Nat) (s : State) : Res :=
  match oldestBuffered s channel with
  | none => .next s
  | some u =>
    let ch := chanOf s channel
    if !ch.usable || ch.media.readOnly || unitWaits s u.lba then .next s
    else
      let s := { s with port := { s.port with wb := s.port.wb.map fun x => if x.acc = u.acc then { x with draining := true } else x } }
      let sec : Sector := { unit := ((lbaUnit s u.lba).map (·.2)).getD 0, space := 0, kind := 0, seq := 0, data := u.data }
      .next (kickChan (updChan s channel fun ch => { ch with page := ch.page ++ [(sec, u.owner)] }) channel)

end Sys2Proof.Machine
end

