-- ==== Sys2Proof/Machine/Media.lean ====
section
/-!
DEFINITION. Events of the flash media (11): page reads climbing the ladder, programs, erases, folding, collection, the
journal, checkpoints, patrol, temperature, rebuild; and the units that FLASH tasks name.
-/

namespace Sys2Proof.Machine

/-- Bytes of a task's read unit delivered to its OPERAND1 (R298). -/
def putTask (t : TaskId) (s : State) (off : Nat) (bs : List Byte) : State :=
  match graphOf s t.graph, taskOf s t with
  | some g, some k => writeTask s t g.pen (some g) (nth k.ops 1 .none) off bs
  | _, _ => s

/-- Bytes of a read unit delivered to its owner. -/
def putOwner (o : Owner) (s : State) (dest : Nat) (bs : List Byte) : State :=
  match o with
  | .cmd _ _ => putHost s dest bs
  | .task t _ _ => putTask t s dest bs
  | .none => s

/-- Sectors of a page read that the step decodes, and the whole decode's verdict (R300). -/
def allDecoded (n : Nat) (d : List Bool) : Bool := (List.range n).all fun i => nth d i false

/-- A success at step 1 to 6 exchanges the group's current set and that alternate (R300). -/
def swapLevels (l : List (List (BitVec 8))) (k : Nat) : List (List (BitVec 8)) :=
  (l.set 0 (nth l k [])).set k (nth l 0 [])

/-- Key of a LUN's age group. -/
def levelKey (lun group : Nat) : Nat := lun * 16 + group

def removeOp (ch : Chan) (n : Nat) : Chan := { ch with ops := ch.ops.filter fun o => o.num != n }
def findOp (ch : Chan) (n kind : Nat) : Option FlashOp := ch.ops.find? fun o => o.num == n && o.kind == kind
/-- Whether a LUN may have served an operation: no operation that arrived before it in its class or in an earlier one still waits
(R288, log 159). -/
def mayServe (ch : Chan) (o : FlashOp) : Bool := !(ch.ops.any fun x => x.lun == o.lun && decide (x.num < o.num ∧ x.cls ≤ o.cls))
/-- The operation of a kind that ends, when its LUN may have served it. -/
def servedOp (ch : Chan) (n kind : Nat) : Option FlashOp := (findOp ch n kind).filter (mayServe ch)

/-- The next page of a move's source read (R297, R304): up to four sectors of one page. -/
def moveRead (ch : Chan) (m : Move) : Chan :=
  match m.left with
  | [] => ch
  | x :: _ =>
    let page := x / 4
    let want := m.left.filter fun y => y / 4 == page
    let units := want.map fun y => ((tget? ch.media.sectors y).map (·.space)).getD 0
    let op : FlashOp :=
      { num := ch.nextOp, kind := 0, lun := m.lun, blk := m.src, page := page, cls := 3, purpose := .move
        units := (want.zip units).map fun z => (z.2, ((tget? ch.media.sectors z.1).map (·.unit)).getD 0, z.1) }
    { ch with ops := ch.ops ++ [op], nextOp := ch.nextOp + 1 }

/-- The summary page of a move's destination programmed (R304): it closes the destination. -/
def moveSummary (p : Profile) (ch : Chan) (m : Move) : Chan :=
  startProgram p ch m.dst 3 [({ unit := 0, space := 4095, kind := 5, seq := 0, data := [] }, .none)]

/-- The next step of a move: read on, or close. -/
def moveNext (p : Profile) (ch : Chan) (m : Move) : Chan :=
  let ch := { ch with moves := ch.moves.map fun x => if x.dst = m.dst then m else x }
  if m.left.isEmpty || decide (blockPages p false ≤ (blkOf ch m.dst).wp + 1) then moveSummary p ch m else moveRead ch m

/-- A read of a move's source has ended: decoded sectors go to the destination with new SEQs; an undecodable one poisons
its unit (R304, R305). -/
def moveDecoded (p : Profile) (ch : Chan) (op : FlashOp) (decoded : List Bool) : Chan :=
  match ch.moves.find? (fun m => m.src == op.blk) with
  | none => ch
  | some m =>
    let x := (List.range op.units.length).zip op.units
    let good := (x.filter fun u => nth decoded u.1 false).filterMap fun u => (tget? ch.media.sectors u.2.2.2).map fun sec => (u.2.2.2, sec)
    let bad := (x.filter fun u => !nth decoded u.1 false).map fun u => u.2.2.2
    let m := { m with left := m.left.filter fun y => y / 4 != op.page }
    let ch := { ch with
      map := ch.map.map fun e => if e.2 ∈ bad then (e.1, mapPoison) else e
      vers := ch.vers.map fun v => if v.2.2 ∈ bad then (v.1, v.2.1, mapPoison) else v }
    if good.isEmpty then moveNext p ch m
    else
      let ch := { ch with moves := ch.moves.map fun y => if y.dst = m.dst then m else y }
      startProgram p ch m.dst 3 (good.map fun g => (g.2, Owner.none))

/-- A page's verdict goes to the walk: ENGINE_PAGE_EXPAND scores it, a failure ends the query (R98). -/
def walkVerdict (k : Task) (channel page : Nat) (ok : Bool) : Task :=
  match k.run with
  | .walk w =>
    let mark (d : Nat × List Nat × Bool) : Nat × List Nat × Bool := if d.1 = page then (d.1, d.2.1, ok) else d
    let w := { w with engines := tupd w.engines channel fun e => { e with todo := e.todo.map mark } }
    { k with run := .walk w, status := if ok then k.status else stMediaError }
  | _ => k

/-- Reads of a block counted (R302): when they reach DISTURB_LIMIT the block is to be relocated, the second time also to be retired
with reason 3 (R306, log 160). -/
def readBlock (p : Profile) (n : Nat) (b : Block) : Block :=
  let c := { b with reads := b.reads + n }
  if b.reads < p.disturbLimit ∧ p.disturbLimit ≤ c.reads then
    { c with relocate := true, disturbed := b.disturbed + 1, retireWith := if 1 ≤ b.disturbed then some 3 else b.retireWith }
  else c

/-- Page reads counted for the channel and for the block (R302). -/
def pageReads (p : Profile) (ch : Chan) (blk n : Nat) : Chan :=
  modBlk { ch with reads := wrapAdd 32 ch.reads n } blk (readBlock p n)

/-- Event records of uncorrectable sectors, one for each (R300); the detail is the channel's count after it (log 28). -/
def uncorrEvents (s : State) (channel n what : Nat) : State :=
  (List.range n).foldl (fun s _ =>
    let s := updChan s channel fun ch => { ch with uncorr := satAdd 16 ch.uncorr 1 }
    postEvent s 1 (.engine channel) what (chanOf s channel).uncorr 0) s

/-- A page read reaches the end of a ladder step (R300): `decoded` says which of its sectors decode. At the first step at
which all do, or after step 7, the read ends: its units are delivered, undecodable ones give MEDIA_ERROR. -/
def execPageReadDone (channel op : Nat) (decoded : List Bool) (s : State) : Res :=
  let ch := chanOf s channel
  match servedOp ch op 0 with
  | none => .next s
  | some o =>
    let ok := allDecoded o.units.length decoded
    let s := updChan s channel fun ch => pageReads (profOf s channel) ch o.blk (if o.step = 7 then 2 else 1)
    if !ok && decide (o.step < 7) then
      .next (updChan s channel fun ch => { ch with ops := ch.ops.map fun x => if x.num = op then { x with step := x.step + 1 } else x })
    else
      let p := profOf s channel
      let failed := ((List.range o.units.length).filter fun i => !nth decoded i false).length
      let s := updChan s channel fun ch =>
        let ch := removeOp ch op
        let key := levelKey o.lun (blkOf ch o.blk).group
        { ch with
          retries := if o.step = 0 then ch.retries else wrapAdd 32 ch.retries 1
          levels := if ok && decide (1 ≤ o.step ∧ o.step ≤ 6) then tput ch.levels key (swapLevels (tget ch.levels key) o.step)
            else ch.levels }
      let s := uncorrEvents s channel failed 2
      match o.purpose with
      | .io owner =>
        .next (((List.range o.units.length).zip o.units).foldl (fun s u =>
          let lba := unitLba s channel u.2.2.1
          let good := nth decoded u.1 false
          let d := ((tget? ch.map (unitKey u.2.1 u.2.2.1)).bind (tget? ch.media.sectors)).map (·.data)
          let s := if s.trace.recording then
              traceRec s 0x03 (2 + channel) (le 2 u.2.1 ++ le 4 u.2.2.1 ++ (if good then bytesOf 4096 (d.getD []) else []))
            else s
          if good then ownerStep (putOwner owner s u.2.2.2 (bytesOf 4096 (d.getD []))) owner lba stSuccess
          else
            let r := drawTag s
            let s := match owner with
              | .task _ _ _ => putOwner owner r.2 u.2.2.2 ((List.range 4096).map (Config.freeByte r.1))
              | _ => s
            ownerStep s owner lba stMediaError) s)
      | .walk t page =>
        .next (modTask s t fun k => walkVerdict k channel page ok)
      | .move => .next (updChan s channel fun ch => moveDecoded p ch o decoded)
      | _ => .next s

/-- An erase sent to a block (R312: its FREED record is durable). -/
def startErase (p : Profile) (ch : Chan) (blk : Nat) : Chan :=
  let ch := modBlk ch blk fun b => { b with st := .erasing }
  let op : FlashOp := { num := ch.nextOp, kind := 2, lun := blkLun p blk, blk := blk, cls := 3 }
  { ch with ops := ch.ops ++ [op], nextOp := ch.nextOp + 1 }

/-- Journal records made durable: the media hold them, and freed blocks may be erased (R311, R312). -/
def landJournal (p : Profile) (ch : Chan) (recs : List JRec) : Chan :=
  let ch := { ch with media := { ch.media with journal := ch.media.journal ++ recs } }
  recs.foldl (fun ch r => match r with
    | .block b 3 _ => if (blkOf ch b).st = .toErase then startErase p ch b else ch
    | _ => ch) ch

/-- A block that its programs have filled closes (R311). -/
def closeIfFull (p : Profile) (ch : Chan) (blk : Nat) : Chan :=
  let b := blkOf ch blk
  if b.st = .openKindling ∧ blockPages p b.pslc ≤ b.wp then blockEvent (setBlk ch blk (shut b)) blk 2 else ch

/-- A copied unit's entry, or its old version's, that still points into the source switches to the copy (R304, R293). -/
def switchUnit (ch : Chan) (u : Nat × Nat × Nat × Nat × Nat) : Chan :=
  let key := unitKey u.1 u.2.1
  if tget? ch.map key = some u.2.2.1 then mapUnit ch u.1 u.2.1 u.2.2.2.1 u.2.2.2.2
  else { ch with vers := ch.vers.map fun v => if v.1 = key ∧ v.2.2 = u.2.2.1 then (v.1, v.2.1, u.2.2.2.1) else v }

/-- A move's destination closes (R304, R297): valid now; entries that still point into the source switch, journalled; the
source is freed once it holds no valid unit. -/
def closeMove (p : Profile) (ch : Chan) (m : Move) : Chan :=
  let ch := modBlk ch m.dst fun b => shut { b with summary := true }
  let ch := blockEvent ch m.dst 2
  let ch := m.moved.foldl switchUnit ch
  let ch := { ch with moves := ch.moves.filter fun x => x.dst != m.dst }
  freeIfStale p ch m.src

/-- The slot in a move's source from which a unit was copied: versions of one unit are copied in slot order. -/
def movedFrom (p : Profile) (ch : Chan) (m : Move) (space unit : Nat) : Nat :=
  let key := unitKey space unit
  let here := ((tget? ch.map key).toList ++ (ch.vers.filter fun v => v.1 == key).map (·.2.2)).filter fun x =>
    x != mapPoison && slotBlk p x == m.src && !(m.moved.any fun u => u.2.2.1 == x)
  (argMin id here).getD mapPoison

/-- Sectors of a move's page on the medium, not yet mapped. -/
def landMove (p : Profile) (ch : Chan) (m : Move) (op : FlashOp) : Chan :=
  let x := (List.range op.sectors.length).zip op.sectors
  let ch := { ch with media := { ch.media with sectors := x.foldl (fun t y => tput t (slotNo p op.blk op.page y.1) y.2.1) ch.media.sectors } }
  let moved := x.map fun y =>
    (y.2.1.space, y.2.1.unit, movedFrom p ch m y.2.1.space y.2.1.unit, slotNo p op.blk op.page y.1, y.2.1.seq)
  moveNext p ch { m with moved := m.moved ++ moved }

/-- A fold or collection destination abandoned (R305): retired with reason 2, the whole copy replayed into a new one. -/
def replayMove (p : Profile) (ch : Chan) (m : Move) : Chan :=
  let ch := retire p { ch with ops := ch.ops.filter fun o => !(o.blk == m.dst) && !(o.blk == m.src && o.purpose == .move) } m.dst 2
  match takeBlock p ch m.lun (if m.fold then .openFold else .openGc) false with
  | none => { ch with moves := ch.moves.filter fun x => x.dst != m.dst }
  | some (ch, dst) =>
    let m' : Move := { m with dst := dst, moved := [], left := mappedSlots p ch m.src }
    moveNext p { ch with moves := ch.moves.map fun x => if x.dst = m.dst then m' else x } m'

/-- The margin plan that a checkpoint carries (R447). -/
def planNow (s : State) : MarginPlan :=
  { gen := (s.health.gen + 1) % 2 ^ 32
    gb := (List.range 20).map fun d => (d, tgetD s.health.gb d 0), bin := (List.range 20).map fun d => (d, tgetD s.health.bin d 0)
    min := (List.range 20).map fun d => (d, tgetD s.health.minSlack d 0)
    rates := (List.range 20).map fun n => (n, (stackOf s n).phyRate) }

/-- The lowest usable target's LUN 0, and its blocks that hold anchor pages (R313). -/
def anchorLun (p : Profile) (ch : Chan) : Nat := (argMin id ch.targets).getD 0 * p.nl
def anchorBlks (p : Profile) (ch : Chan) : List Nat :=
  (ch.media.blocks.filter fun b => b.2.st == .anchor && blkLun p b.1 == anchorLun p ch).map (·.1)

/-- The first good blocks of that LUN kept for the anchor pages, up to two, by fuel (R313, log 161). -/
def keepAnchors (p : Profile) (ch : Chan) : Nat → Chan
  | 0 => ch
  | k + 1 =>
    if 2 ≤ (anchorBlks p ch).length then ch
    else match ((List.range p.nb).map (anchorLun p ch * p.nb + ·)).find? fun b => (blkOf ch b).st == .free with
      | some b => keepAnchors p (modBlk ch b fun x => { x with st := .anchor, wp := 0 }) k
      | none => ch

/-- The newest anchor page of a block, by SEQ. -/
def anchorSeq (p : Profile) (ch : Chan) (blk : Nat) : Nat :=
  (ch.media.sectors.filter fun x => x.2.kind == 7 && slotBlk p x.1 == blk).foldl (fun m x => max m x.2.seq) 0

/-- Sectors of an erased block gone. -/
def wipeBlock (p : Profile) (ch : Chan) (blk : Nat) : Chan :=
  { ch with media := { ch.media with sectors := ch.media.sectors.filter fun x => slotBlk p x.1 != blk } }

/-- An anchor page (KIND 7) programmed behind a complete checkpoint, into the block that does not hold the last one (R313); a full block
is erased first (log 161). -/
def putAnchor (p : Profile) (ch : Chan) : Chan :=
  let ch := keepAnchors p ch 2
  match argMin (anchorSeq p ch) (anchorBlks p ch) with
  | none => ch
  | some blk =>
    let ch := if (blkOf ch blk).wp < blockPages p false then ch
      else modBlk (wipeBlock p ch blk) blk fun b => { b with wp := 0, native := b.native + 1 }
    let b := blkOf ch blk
    let n := numberSectors ch [({ unit := 0, space := 4095, kind := 7, seq := 0, data := [] }, .none)]
    let ch := setBlk n.1 blk { b with wp := b.wp + 1 }
    landSectors p { ch with programs := wrapAdd 32 ch.programs 1 } blk b.wp 0 n.2

/-- A checkpoint complete (R313): its contents, the journal since the C of the checkpoint before, the margin plan; the CKPT record and an
anchor page follow. -/
def landCkpt (s : State) (channel c : Nat) : State :=
  let plan := planNow s
  let s := { s with health := { s.health with gen := plan.gen } }
  updChan s channel fun ch => putAnchor (profOf s channel) <|
    let keep := match ch.media.ckpt with
      | some k => k.seq
      | none => 0
    let fresh (r : JRec) : Bool := match r with
      | .map _ _ _ q => decide (keep < q)
      | .trim _ _ _ q => decide (keep < q)
      | .block _ _ q => decide (keep < q)
      | .commit _ _ _ q => decide (keep < q)
      | .ckpt q => decide (keep < q)
    let ck : Ckpt :=
      { seq := c, map := ch.map, blocks := ch.media.blocks, freeOrder := freeList (profOf s channel) ch, ashpit := ch.ashpit
        levels := ch.levels, hist := tget s.ftl.hist (channel / 8), maxFmt := tgetD s.ftl.maxFmt (channel / 8) 0 }
    { ch with
      ckptBusy := none
      media := { ch.media with
        formatted := true, journal := (ch.media.journal.filter fresh) ++ [.ckpt c], plan := some plan, ckpt := some ck } }

/-- Kindling sectors that passed: buffered copies go, owners hear of their units (R295, R341). -/
def landOwners (s : State) (channel : Nat) (l : List (Sector × Owner)) : State :=
  l.foldl (fun s x =>
    if x.1.kind != 0 then s
    else
      let lba := unitLba s channel x.1.unit
      if s.port.ioWait.any (fun w => w.owner == x.2) then ownerStep s x.2 lba stSuccess
      else { s with port := { s.port with wb := dropFirst (fun u => u.lba == lba && u.draining) s.port.wb } }) s

/-- A move begun: its destination taken, its first page read. -/
def startMove (p : Profile) (ch : Chan) (fold : Bool) (lun src : Nat) : Chan :=
  match takeBlock p ch lun (if fold then .openFold else .openGc) false with
  | none => ch
  | some (ch, dst) =>
    let m : Move := { fold := fold, lun := lun, src := src, dst := dst, moved := [], left := mappedSlots p ch src }
    moveNext p { ch with moves := ch.moves ++ [m] } m

/-- The collection victim of a LUN (R303): marked for relocation first, lowest number; else fewest valid units. -/
def gcVictim (p : Profile) (ch : Chan) (lun : Nat) : Option Nat :=
  let closed := (lunUsed p ch lun).filter fun b => !b.2.pslc && b.2.st == .closed
  match closed.find? (fun b => b.2.relocate) with
  | some b => some b.1
  | none => (argMin (fun b => (mappedSlots p ch b.1).length) closed).map (·.1)

/-- The next victim of a LUN collected (R303, R304). -/
def startVictim (p : Profile) (ch : Chan) (lun : Nat) : Chan :=
  match gcVictim p ch lun with
  | none => ch
  | some b => if (mappedSlots p ch b).isEmpty then freeIfStale p ch b else startMove p ch false lun b

/-- Collection goes on, LUN by LUN, until the LUN's free and freed blocks reach GC_HIGH (R303). -/
def collectNext (gcHigh : Nat) (p : Profile) (ch : Chan) : Chan :=
  ch.collecting.foldl (fun ch lun =>
    if ch.moves.any fun m => !m.fold && m.lun == lun then ch
    else if gcHigh ≤ lunFree p ch lun + lunFreed p ch lun then { ch with collecting := without ch.collecting lun }
    else startVictim p ch lun) ch

/-- A Kindling block in which a program failed: closed, to be retired with reason 2 when it is freed (R306). -/
def failKindling (ch : Chan) (blk : Nat) : Chan :=
  blockEvent (modBlk ch blk fun b => shut { b with retireWith := some 2 }) blk 2

/-- What follows the end of a program: the channel's room is looked at (R308), journal pages that are full and Kindling that staging
now has room for are programmed (R311, R286), and what waited goes on. -/
def afterProgram (channel : Nat) (s : State) : State :=
  let s := checkReadOnly s channel
  let t := wake (kickChan (updChan s channel fun ch => journalFull s (profOf s channel) ch) channel)
  settleOrdered (wake (admitWaiting t t.port.wbWait.length)) (orderedCount t)

/-- A page program completes (R306): with pass status its sectors are on the medium (R295); on failure its units are
programmed again, or its destination is abandoned. -/
def endProgram (channel op : Nat) (pass : Bool) (s : State) : Res :=
  let ch := chanOf s channel
  match findOp ch op 1 with
  | none => .next s
  | some o =>
    let p := profOf s channel
    let s := updChan s channel fun ch => { removeOp ch op with
      programs := wrapAdd 32 ch.programs 1
      progFail := if pass then ch.progFail else satAdd 16 ch.progFail 1 }
    let done (s : State) : Res := .next (afterProgram channel s)
    match ch.jpages.find? (fun j => j.1 == op) with
    | some j =>
      let s := updChan s channel fun ch =>
        let ch := { ch with jpages := ch.jpages.filter fun x => x.1 != op }
        if pass then closeIfFull p (landJournal p ch j.2) o.blk
        else failKindling { ch with jstage := j.2 ++ ch.jstage } o.blk
      done s
    | none =>
      match ch.moves.find? (fun m => m.dst == o.blk) with
      | some m =>
        let isSummary := o.sectors.any fun x => x.1.kind == 5
        let s := updChan s channel fun ch =>
          if !pass then replayMove p ch m
          else if isSummary then collectNext s.ftl.gcHigh p (closeMove p ch m)
          else landMove p ch m o
        done s
      | none =>
        match ch.ckptBusy with
        | some (c, n) =>
          if n = op then
            (if pass then done (landCkpt s channel c)
             else
              let s := updChan s channel fun ch => { retire p ch o.blk 2 with ckptBusy := none }
              done s)
          else if pass then
            done (landOwners (updChan s channel fun ch => closeIfFull p (landSectors p ch o.blk o.page 0 o.sectors) o.blk) channel o.sectors)
          else
            let s := updChan s channel fun ch =>
              failKindling { ch with page := (o.sectors.filter fun x => x.1.kind != 6) ++ ch.page } o.blk
            done (kickChan s channel)
        | none =>
          if pass then
            done (landOwners (updChan s channel fun ch => closeIfFull p (landSectors p ch o.blk o.page 0 o.sectors) o.blk) channel o.sectors)
          else
            let s := updChan s channel fun ch =>
              failKindling { ch with page := (o.sectors.filter fun x => x.1.kind != 6) ++ ch.page } o.blk
            done (kickChan s channel)

/-- PROGRAM_DONE (R306), of a program that its LUN may have served (R288). -/
def execProgramDone (channel op : Nat) (pass : Bool) (s : State) : Res :=
  match servedOp (chanOf s channel) op 1 with
  | none => .next s
  | some _ => endProgram channel op pass s

/-- A block erase completes (R306): on pass the block is free; on failure it is retired with reason 1. -/
def execEraseDone (channel op : Nat) (pass : Bool) (s : State) : Res :=
  match servedOp (chanOf s channel) op 2 with
  | none => .next s
  | some o =>
    let p := profOf s channel
    let s := updChan s channel fun ch =>
      let ch := removeOp ch op
      let ch := { ch with erases := wrapAdd 32 ch.erases 1, eraseFail := if pass then ch.eraseFail else satAdd 16 ch.eraseFail 1 }
      if !pass then retire p ch o.blk 1
      else
        let b := blkOf ch o.blk
        let b := if b.pslc then { b with pslcErases := b.pslcErases + 1 } else { b with native := b.native + 1 }
        let ch := wipeBlock p (setBlk ch o.blk { b with st := .free, wp := 0, reads := 0, summary := false }) o.blk
        collectNext s.ftl.gcHigh p (blockEvent ch o.blk 4)
    .next (kickChan (checkReadOnly s channel) channel)

/-- A Kindling page not filled in time is programmed with pad sectors (R294). -/
def execKindlingPad (channel : Nat) (s : State) : Res :=
  let ch := chanOf s channel
  let n := ch.page.length
  if n = 0 ∨ 4 ≤ n then .next s
  else
    let pad : Sector × Owner := ({ unit := 0, space := 4095, kind := 6, seq := 0, data := [] }, .none)
    .next (kickChan (updChan s channel fun ch => { ch with page := ch.page ++ List.replicate (4 - n) pad }) channel)

/-- A journal page is programmed at the latest 2 ms after its first record (R311). -/
def execJournalPageTimeout (channel : Nat) (s : State) : Res :=
  .next (updChan s channel fun ch => startJournal s (profOf s channel) ch)

/-- The closed Kindling block of a LUN with the lowest open sequence number (R297). -/
def foldSource (p : Profile) (ch : Chan) (lun : Nat) : Option Nat :=
  (argMin (fun b => b.2.openSeq) ((lunUsed p ch lun).filter fun b => b.2.pslc && b.2.st == .closed)).map (·.1)

/-- FOLD_START (R297): when a LUN's Kindling blocks exceed half its limit. On SLC parts the block becomes bulk in place. -/
def execFoldStart (channel lun : Nat) (s : State) : Res :=
  let ch := chanOf s channel
  let p := profOf s channel
  if ch.usable && decide (kindleLimit s p < 2 * (lunKindling p ch lun).length) && !(ch.moves.any fun m => m.fold && m.lun == lun) then
    match foldSource p ch lun with
    | none => .next s
    | some b =>
      .next (checkReadOnly (updChan s channel fun ch =>
        if p.cell = 0 then modBlk ch b fun x => { x with pslc := false, summary := true }
        else if (mappedSlots p ch b).isEmpty then freeIfStale p ch b
        else startMove p ch true lun b) channel)
  else .next s

/-- GC_START (R303): when a LUN's free blocks fall below GC_LOW, collection runs until they reach GC_HIGH; when only a block waits
for relocation (R302), that block is collected. -/
def execGcStart (channel lun : Nat) (s : State) : Res :=
  let ch := chanOf s channel
  let p := profOf s channel
  let low := decide (lunFree p ch lun < s.ftl.gcLow)
  let due := low || (lunUsed p ch lun).any fun b => b.2.relocate && !b.2.pslc && b.2.st == .closed
  actWhen (ch.usable && decide (lun ∈ lunsOf p ch) && due && !(ch.moves.any fun m => !m.fold && m.lun == lun)) s
    (checkReadOnly (updChan s channel fun ch =>
      startVictim p { ch with collecting := if low then addNew ch.collecting lun else ch.collecting } lun) channel)

/-- Bytes of journal since the previous checkpoint: pages of 16 KiB with 960 records each (R311). -/
def journalBytes (ch : Chan) : Nat := ch.media.journal.length / 960 * 16384

/-- CHECKPOINT_START (R313): the journal exceeds CKPT × 64 MB. Its pages stand as one program into a native block. -/
def execCheckpointStart (channel : Nat) (s : State) : Res :=
  let ch := chanOf s channel
  let p := profOf s channel
  if ch.usable && ch.ckptBusy.isNone && decide (s.ftl.ckpt * 64000000 < journalBytes ch) then
    match (lunsOf p ch).head?.bind fun l => takeBlock p ch l .openCkpt false with
    | none => .next s
    | some (ch', blk) =>
      let sec : Sector := { unit := 0, space := 4095, kind := 3, seq := 0, data := [] }
      .next (updChan s channel fun _ => { startProgram p ch' blk 3 [(sec, .none)] with ckptBusy := some (ch.seq, ch'.nextOp) })
  else .next s

/-- A patrol pass over a channel's closed blocks (R302, R306): late reads and worn-out read counts mark a block for
relocation; an uncorrectable sample, or a second time beyond DISTURB_LIMIT, also for retirement with reason 3. A block goes to the age
group whose set reads it at step 0 (R301). -/
def execPatrolRead (channel : Nat) (late : List Nat) (rest : PatrolEnd) (s : State) : Res :=
  let p := profOf s channel
  let samples (b : Block) : Nat := ceilDiv (blockPages p b.pslc) 64
  let f (k : Nat) (b : Block) : Block :=
    if b.st != .closed then b
    else
      let b := { readBlock p (samples b) b with group := (tget? rest.groups k).getD b.group }
      let b := if k ∈ late then { b with relocate := true } else b
      if k ∈ rest.uncorrectable then { b with relocate := true, retireWith := some 3 } else b
  let s := if (chanOf s channel).usable then updChan s channel fun ch => { ch with
      media := { ch.media with blocks := tmap ch.media.blocks f }
      reads := wrapAdd 32 ch.reads (sumBy (fun b => if b.2.st == .closed then samples b.2 else 0) ch.media.blocks) } else s
  .next (if (chanOf s channel).usable then uncorrEvents s channel rest.uncorrectable.length 3 else s)

/-- The six distinct sets that decoded the most, in order of decreasing count (R446). -/
def bestSets (tried : List (List (BitVec 8) × Nat)) : List (List (BitVec 8)) :=
  let sorted := sortBy (fun a b => decide (b.2 < a.2)) tried
  (sorted.foldl (fun acc x => addNew acc x.1) []).take 6

/-- READ_LEVEL_REPLAN (R446): the alternates of an age group replaced, the current set kept; a MARGIN event. -/
def execReadLevelReplan (channel lun group : Nat) (tried : List (List (BitVec 8) × Nat)) (s : State) : Res :=
  actWhen (chanUsable s channel) s
    (let s := updChan s channel fun ch =>
      let l := tget ch.levels (levelKey lun group)
      { ch with levels := tput ch.levels (levelKey lun group) (nth l 0 [] :: bestSets tried) }
    postEvent s 2 (.engine channel) 1 lun group)

/-- FLASH_TEMPERATURE_SAMPLE (R318): current, highest since format and since reset, and a second in its bin, by group. -/
def execFlashTemperatureSample (temps : List Nat) (s : State) : Res :=
  .next ((List.range 4).foldl (fun s g =>
    if !s.topo.chgrp.getLsbD g then s
    else
      let t := nth temps g 0
      let f := s.ftl
      let h := tget f.hist g
      let b := min 31 (t / 4)
      let slow := decide ((profOf s (8 * g)).tMax ≤ t)
      { s with ftl := { f with
        temp := tput f.temp g t
        maxFmt := tput f.maxFmt g (max t (tgetD f.maxFmt g 0))
        maxRst := tput f.maxRst g (max t (tgetD f.maxRst g 0))
        hist := tput f.hist g (tput h b (tgetD h b 0 + 1))
        slow := if slow then f.slow ||| (1#4 <<< g) else f.slow &&& ~~~ (1#4 <<< g) } }) s)

/-! Rebuild (R314 to R316). -/

/-- Candidates for a unit's mapping (R315): SEQ, and a slot or none for a TRIM. -/
structure Cand where
  key : Nat
  seq : Nat
  slot : Option Nat
deriving DecidableEq, Repr

/-- Candidates of the checkpoint, the durable journal above its C, and the tag scan: sectors of Kindling blocks, and of
native blocks with a summary, programmed after C. -/
def candidates (p : Profile) (m : Media) : List Cand :=
  let c := match m.ckpt with
    | some k => k.seq
    | none => 0
  let base := match m.ckpt with
    | some k => k.map.map fun e => { key := e.1, seq := min c (((tget? m.sectors e.2).map (·.seq)).getD 0), slot := some e.2 }
    | none => ([] : List Cand)
  let jour := m.journal.filterMap fun r => match r with
    | .map sp u slot q => if c < q then some { key := unitKey sp u, seq := q, slot := some slot } else none
    | .trim sp u _ q => if c < q then some { key := unitKey sp u, seq := q, slot := none } else none
    | _ => none
  let scan := m.sectors.filterMap fun x =>
    let b := tget m.blocks (slotBlk p x.1)
    if holdsUnit x.2 ∧ c < x.2.seq ∧ (b.pslc ∨ b.summary) then
      some { key := unitKey x.2.space x.2.unit, seq := x.2.seq, slot := some x.1 }
    else none
  base ++ jour ++ scan

/-- The candidate of the highest SEQ for each unit. -/
def winners (l : List Cand) : Tab Cand :=
  l.foldl (fun t c => match tget? t c.key with
    | some d => if d.seq < c.seq then tput t c.key c else t
    | none => tput t c.key c) []

/-- Open Kindling blocks are closed by a rebuild (R314). -/
def closeKindling (_ : Nat) (b : Block) : Block := if b.st = .openKindling then shut b else b

/-- SEQ of a journal record. -/
def jseq (r : JRec) : Nat := match r with
  | .map _ _ _ q => q
  | .trim _ _ _ q => q
  | .block _ _ q => q
  | .commit _ _ _ q => q
  | .ckpt q => q

/-- The Ashpit as the checkpoint and the durable journal give it (R307). -/
def ashpitFound (p : Profile) (m : Media) : List Nat :=
  let c := (m.ckpt.map fun k => k.seq).getD 0
  ((m.ckpt.map fun k => k.ashpit).getD []) ++ m.journal.filterMap fun r => match r with
    | .block b 5 q => if c < q then some (ashpitEntry p b (tget m.blocks b).reason q) else none
    | _ => none

/-- Whether an Ashpit names a block: a retirement that was not journalled leaves the block in the free list (R316). -/
def inAshpit (p : Profile) (l : List Nat) (b : Nat) : Bool := l.any fun e => e % 2 ^ 24 == ashpitEntry p b 0 0 % 2 ^ 24

/-- A block whose retirement was not journalled is in the free list again (R316). -/
def unretire (p : Profile) (l : List Nat) (k : Nat) (b : Block) : Block :=
  if b.st = .retired ∧ inAshpit p l k = false then { b with st := .free, reason := 0 } else b

/-- A channel rebuilt from its media. -/
def rebuildChan (p : Profile) (ch : Chan) : Chan :=
  let w := winners (candidates p ch.media)
  let map := w.filterMap fun e => e.2.slot.map fun x => (e.1, x)
  let seqs := w.map fun e => (e.1, e.2.seq)
  let c := (ch.media.ckpt.map fun k => k.seq).getD 0
  let top := (ch.media.sectors.map (·.2.seq) ++ ch.media.journal.map jseq).foldl max ((seqs.map (·.2)).foldl max c)
  let oldHist := (ch.media.ckpt.map fun k => k.hist).getD []
  let oldMax := (ch.media.ckpt.map fun k => k.maxFmt).getD 0
  let lost := ch.media.blocks.filter fun b => !b.2.pslc && !b.2.summary && (b.2.st == .openFold || b.2.st == .openGc || b.2.st == .openCkpt)
  let ch := { ch with
    map := map, mapSeq := seqs, vers := [], seq := top + 1, rebuilding := false, rebuilt := true, usable := true
    ops := [], moves := [], collecting := [], page := [], jstage := [], jpages := [], ckptBusy := none, nextOp := ch.nextOp
    ashpit := ashpitFound p ch.media
    levels := match ch.media.ckpt with
      | some k => k.levels
      | none => []
    media := { ch.media with blocks := tmap (tmap ch.media.blocks closeKindling) (unretire p (ashpitFound p ch.media)) } }
  -- step 7: the checkpoint that the rebuild writes
  let ck : Ckpt := { seq := ch.seq, map := ch.map, blocks := ch.media.blocks, freeOrder := freeList p ch, ashpit := ch.ashpit
                     levels := ch.levels, hist := oldHist, maxFmt := oldMax }
  let ch := putAnchor p { ch with media := { ch.media with ckpt := some ck, journal := [.ckpt ch.seq] } }
  -- stale and unsummarised blocks go to the erase queue
  let stale := ch.media.blocks.filter fun b =>
    (b.2.st == .closed || b.2.st == .toErase || b.2.st == .erasing) && (mappedSlots p ch b.1).isEmpty
  (lost ++ stale).foldl (fun ch b => match retireReason p b.2 with
    | some r => retire p ch b.1 r
    | none => startErase p ch b.1) ch

/-- Map segments of a channel placed in the map shares of usable stacks (R292): none where no share has room. -/
def placeSeg (s : State) (x : Nat × Nat) : State :=
  let room (n : Nat) : Nat := (nth s.boot.image.regions n (0, 0, 0, 0)).2.1 / 16 - (tget s.ftl.segs n).length
  match mostFree room ((List.range 20).filter (stackUsable s)) with
  | some n => { s with ftl := { s.ftl with segs := tput s.ftl.segs n (tget s.ftl.segs n ++ [x]), unloaded := without s.ftl.unloaded x } }
  | none => { s with ftl := { s.ftl with unloaded := addNew s.ftl.unloaded x, mapDegraded := true } }

/-- Segments that a channel's units need: 16 GiB each. -/
def chanSegs (p : Profile) (c : Nat) (ch : Chan) : List (Nat × Nat) :=
  (List.range (ceilDiv (chanBlocks p ch * blockSectors p) 4194304)).map fun k => (c, k)

/-- REBUILD (R314): a channel, or one of its segments after a stack failure (R292), begins to rebuild. -/
def execRebuild (channel : Nat) (segment : Option Nat) (s : State) : Res :=
  let ch := chanOf s channel
  match segment with
  | none => actWhen (!ch.rebuilt && !ch.targets.isEmpty) s (updChan s channel fun ch => { ch with rebuilding := true })
  | some k => actWhen (ch.usable && decide ((channel, k) ∈ s.ftl.reloading)) s (updChan s channel fun ch => { ch with rebuilding := true })

/-- A channel formatted (R314): factory-bad blocks are marked with reason 0, and an empty checkpoint is written. -/
def formatChan (p : Profile) (ch : Chan) : Chan :=
  let bad := ch.media.factoryBad
  let ck : Ckpt :=
    { seq := 0, map := [], blocks := [], freeOrder := [], ashpit := bad.map fun b => ashpitEntry p b 0 0, levels := [], hist := [], maxFmt := 0 }
  { ch with media := { ch.media with
    formatted := true, ckpt := some ck
    blocks := bad.foldl (fun t b => tput t b { tget t b with st := BlkState.retired }) ch.media.blocks } }

/-- A channel that has rebuilt, or has been formatted (R314); targets that its profile expects and that do not answer are lost (R306,
R417). -/
def builtChan (p : Profile) (ch : Chan) : Chan :=
  let ch := rebuildChan p (if ch.media.formatted then ch else formatChan p ch)
  ((List.range p.targets).filter fun t => !(t ∈ ch.targets)).foldl (loseTarget p) ch

/-- REBUILD_DONE (R314, R315): the channel's map stands, or a blank channel is formatted when FORMAT_BLANK allows; else it
stays unusable. A segment's reload ends what waits for it (R292). A format forms the namespace (R471), and a sanitize
that a reset cut short goes on (R346). -/
def execRebuildDone (channel : Nat) (s : State) : Res :=
  let ch := chanOf s channel
  if !ch.rebuilding then .next s
  else
    let p := profOf s channel
    if ch.rebuilt then
      let s := updChan s channel fun ch => { ch with rebuilding := false }
      .next { s with ftl := { s.ftl with reloading := s.ftl.reloading.filter fun x => x.1 != channel } }
    else if !ch.media.formatted && !s.ftl.formatBlank then
      .next (updChan s channel fun ch => { ch with rebuilding := false, usable := false, targets := [] })
    else
      let format := !ch.media.formatted
      let s := updChan s channel (builtChan p)
      let ch := chanOf s channel
      let s := (chanSegs p channel ch).foldl placeSeg s
      let g := channel / 8
      let hist := (ch.media.ckpt.map (·.hist)).getD []
      let mf := (ch.media.ckpt.map (·.maxFmt)).getD 0
      let s := { s with ftl := { s.ftl with
        hist := if thas s.ftl.hist g then s.ftl.hist else tput s.ftl.hist g hist
        maxFmt := tput s.ftl.maxFmt g (max mf (tgetD s.ftl.maxFmt g 0)) } }
      let s := if format && nsBlank s then formNamespace s else s
      .next (if ch.media.sanitizing && s.port.sanitizing.isNone then
        { s with port := { s.port with sanitizing := some { ctl := 512, sq := 0, cid := 0 } } } else s)

/-! FLASH_READ and FLASH_WRITE (R298). -/

/-- The logical blocks that a flash task names: OPERAND0's region and PARAM[31:0] units. -/
def flashLbas (s : State) (g : Graph) (k : Task) : List Nat :=
  match nth k.ops 0 .none with
  | .obj n off => match objOf s g.pen n with
    | some o => match o.kind with
      | .region first _ => (List.range (bits k.param.toNat 0 32)).map fun i => (penOf s g.pen).winBase + first + off / 4096 + i
      | _ => []
    | none => []
  | _ => []

/-- The owner that a task is for its units. -/
def taskOwner (t : TaskId) (g : Graph) : Owner := .task t g.cmd g.num
def setRun (s : State) (t : TaskId) (r : Run) : State := modTask s t fun k => { k with run := r }

/-! Moves of copies (R231, R232). -/

/-- Whether a copy's home is units of a map segment that is being rebuilt (R292). -/
def baleWaits (s : State) (b : BaleId) : Bool := match b with
  | .flash lba => (List.range 16).any fun i => unitWaits s (lba + i)
  | _ => false

/-- The move of a bale whose read failed (R66): its waiters complete with MEDIA_ERROR, and the copy is dropped. -/
def failFill (s : State) (c : BaleCopy) : State :=
  c.waiters.foldl (fun s t => failTask s t stMediaError) (dropCopy s c)

/-- BALE_MOVE_DONE (R231, R232, R66): the copy holds its home's bytes and is CLEAN; issued tasks that waited pin it, and ready ones may
issue. A home that cannot be read fails the move. -/
def execBaleMoveDone (copy : Nat) (ok : Bool) (s : State) : Res :=
  match s.drover.copies.find? (fun c => c.num == copy && c.st == .filling) with
  | none => .next s
  | some c =>
    if baleWaits s c.bale then .next s
    else match homeCells s c.bale with
      | some cells => .next (if ok then fetchAhead (modCopy (fillSlot (chargeFill s c) c cells) copy fun c => { c with st := .clean, waiters := [] })
          else failFill s c)
      | none => .next (failFill s c)

/-- WRITE_BACK_DONE (R232, R233): the finished tasks' bytes are at the home; the copy is CLEAN, or DIRTY while another task's are not. -/
def execWriteBackDone (copy : Nat) (s : State) : Res :=
  match s.drover.copies.find? (fun c => c.num == copy && c.st == .writing) with
  | none => .next s
  | some c =>
    if baleWaits s c.bale then .next s
    else .next (fetchAhead (writeBack s c))

end Sys2Proof.Machine
end

