-- ==== Sys2Proof/Machine/Graphs.lean ====
section
/-!
DEFINITION. Acceptance of graphs (R45 to R49, R52, R53) and the tasks that the Drover itself runs: NOP, FENCE, ALLOC, FREE
(R50, R51, R57).
-/

namespace Sys2Proof.Machine

/-- An operand reference from its 64 bits (R48). -/
def opRefOf (v : Nat) : OpRef :=
  match bits v 62 2 with
  | 0 => .host (bits v 0 62)
  | 1 => .obj (bits v 47 15) (bits v 0 47)
  | 2 => .scratch (bits v 54 8) (bits v 0 54)
  | _ => .none

/-- Whether an operand reference of class 3 has a bit besides its class (R48). -/
def opRefBad (v : Nat) : Bool := decide (bits v 62 2 = 3 ∧ bits v 0 62 ≠ 0)

/-- Whether a task record holds a reserved field that is not 0 (R46, R48). -/
def recordBad (r : List Byte) : Bool :=
  decide (2 ≤ fieldAt r 1 1 ∨ fieldAt r 3 1 ≠ 0 ∨ fieldAt r 6 2 ≠ 0) ||
    (List.range 6).any fun i => opRefBad (fieldAt r (8 + 8 * i) 8)

/-- A task from its 64-byte record (R46). -/
def taskOfBytes (r : List Byte) : Task :=
  { typ := fieldAt r 0 1, recorded := bit (fieldAt r 1 1) 0, sub := fieldAt r 2 1, unsat := fieldAt r 4 2
    ops := (List.range 6).map fun i => opRefOf (fieldAt r (8 + 8 * i) 8)
    param := BitVec.ofNat 64 (fieldAt r 56 8), reserved := recordBad r }

/-- An edge from its 8-byte record (R47). -/
def edgeOfBytes (r : List Byte) : Edge :=
  let v := ofLe r
  { src := bits v 0 16, dst := bits v 16 16, order := bits v 32 2 = 1 }

/-- Whether an edge record holds a reserved KIND or a reserved field that is not 0 (R47). -/
def edgeBad (r : List Byte) : Bool := decide (2 ≤ ofLe r / 2 ^ 32)

/-- A graph header's fields (R45). -/
structure Header where
  version : Nat
  tasks : Nat
  edges : Nat
  tag : Nat
  taskArr : OpRef
  edgeArr : OpRef
  prio : Nat
  all : Bool
deriving DecidableEq, Repr

def headerOf (b : List Byte) : Header :=
  { version := fieldAt b 0 2, tasks := fieldAt b 2 2, edges := fieldAt b 4 4, tag := fieldAt b 8 8
    taskArr := opRefOf (fieldAt b 16 8), edgeArr := opRefOf (fieldAt b 24 8), prio := bits (fieldAt b 32 1) 0 2
    all := bit (fieldAt b 33 1) 0 }

/-- Header values that R76 leaves unpredictable, a reserved field that is not 0 among them. -/
def headerBad (b : List Byte) : Bool :=
  let h := headerOf b
  decide (h.version ≠ 1 ∨ h.tasks = 0 ∨ 4096 < h.tasks ∨ 65536 < h.edges) ||
    decide (4 ≤ fieldAt b 32 1 ∨ 2 ≤ fieldAt b 33 1) || !allZero (sub b 34 30)

/-- Edges that R76 leaves unpredictable: one that names a task that the graph lacks, one with a reserved KIND or field, and a
PRED_COUNT that disagrees with the edges. -/
def edgesBad (tasks : List Task) (edges : List Edge) (eb : List (List Byte)) : Bool :=
  edges.any (fun e => decide (tasks.length ≤ e.src ∨ tasks.length ≤ e.dst)) || eb.any edgeBad ||
    (List.range tasks.length).any fun i => match tasks[i]? with
      | some k => (edges.filter fun e => e.dst == i).length != k.unsat
      | none => true

/-- Whether a pen's whole quota could hold the graph (R53, R353). -/
def everFits (s : State) (p : Nat) (h : Header) : Bool :=
  decide (h.tasks ≤ 64 * (penOf s p).taskUnits) && decide (h.edges ≤ 256 * (penOf s p).taskUnits)

/-- Whether the task table and the pen's quota have room now (R52, R352). -/
def fitsNow (s : State) (p : Nat) (h : Header) : Bool :=
  let gs := s.drover.graphs
  let mine := graphsOfPen s p
  let u := (penOf s p).taskUnits
  decide (gs.length + 1 ≤ 16384) && decide (slotsUsed gs + h.tasks ≤ 131072) && decide (edgesUsed gs + h.edges ≤ 524288) &&
  decide (mine.length + 1 ≤ 8 * u) && decide (slotsUsed mine + h.tasks ≤ 64 * u) && decide (edgesUsed mine + h.edges ≤ 256 * u)

/-- How far each queue of a pen's controllers had been fetched: the commands before a graph's acceptance (R57). -/
def fetchedOf (s : State) (p : Nat) : List (Nat × Nat × Nat) :=
  (s.port.ctls.filter fun c => penOfCtl c.1 == p).flatMap fun c => c.2.sqs.map fun q => (c.1, q.1, q.2.fetched)

/-- A graph's tasks when its edges leave it unpredictable (R76): each is unpredictable in what it does; edges to or from tasks that the
graph lacks, and those of a reserved KIND or field, are left out (log 58). -/
def wildTasks (tasks : List Task) : List Task := tasks.map fun k => { k with reserved := true }
def soundEdges (tasks : List Task) (eb : List (List Byte)) : List Edge :=
  ((eb.filter fun r => !edgeBad r).map edgeOfBytes).filter fun e => decide (e.src < tasks.length ∧ e.dst < tasks.length)

/-- The oldest submission of a queue (R53). -/
def oldestSubmit (s : State) (ctl sq : Nat) : Option (Cmd × OpRef × Nat) :=
  (tget? (ctlOf s ctl).sqs sq).bind fun q => q.submits.head?

/-- The oldest submission taken from its queue. -/
def dropSubmit (s : State) (ctl sq : Nat) : State :=
  updCtl s ctl fun c => { c with sqs := tupd c.sqs sq fun q => { q with submits := q.submits.drop 1 } }

/-- A graph entered in the task table: acceptance number, class (R366), tasks whose count is 0 ready (R60). -/
def acceptGraph (s : State) (c : Cmd) (num : Nat) (h : Header) (tasks : List Task) (edges : List Edge) : State :=
  let p := penOfCtl c.ctl
  let acc := s.drover.nextAcc
  let g : Graph :=
    { acc := acc, pen := p, cmd := c, num := num, tag := h.tag, cls := max h.prio (penOf s p).minClass, recordAll := h.all
      tasks := tasks, edges := edges, before := fetchedOf s p }
  let s := traceDecide s 0x10 (le 4 acc ++ le 2 p ++ le 2 c.sq ++ le 2 c.cid)
  { s with drover := { s.drover with
    graphs := s.drover.graphs ++ [makeReady g s.drover.nextReady]
    nextAcc := acc + 1, nextReady := s.drover.nextReady + 1 } }

/-- Whether graphs are accepted at all: not during the pen's reset, not on a fenced or quiescing node. -/
def mayAccept (s : State) (p : Nat) : Bool :=
  !(penOf s p).resetting && s.health.st != 2 && !s.port.stopped && !s.trace.stalled

/-- The reads of a graph's header, tasks and edges recorded. -/
def recGraph (s : State) (p : Nat) (ref : OpRef) (h : Header) : State :=
  recOp (recOp (recOp s 0 p ref 64) 0 p h.taskArr (64 * h.tasks)) 0 p h.edgeArr (8 * h.edges)

/-- GRAPH_ACCEPT (R53): the oldest submission of a queue. One that no quota of the pen could hold completes with
QUOTA_EXCEEDED; one without room waits. A header that R76 leaves unpredictable completes the SUBMIT with a free status; edges that it
leaves unpredictable make the graph's tasks so (log 58). -/
def execGraphAccept (ctl sq : Nat) (s : State) : Res :=
  let p := penOfCtl ctl
  match oldestSubmit s ctl sq with
  | none => .next s
  | some (c, ref, num) =>
    if !mayAccept s p || !replayAllows s 0x10 (le 4 s.drover.nextAcc) then .next s
    else match readOp s p none ref 0 64 with
      | .err e => .next (complete (dropSubmit s ctl sq) c e)
      | .ok hb =>
        let h := headerOf hb
        if !everFits s p h then .next (complete (dropSubmit s ctl sq) c stQuotaExceeded 0xFFFF)
        else if headerBad hb then .next (completeFree (dropSubmit s ctl sq) c)
        else if !fitsNow s p h then .next s
        else match readOp s p none h.taskArr 0 (64 * h.tasks), readOp s p none h.edgeArr 0 (8 * h.edges) with
          | .ok tb, .ok eb =>
            let tasks := (chunks 64 tb).map taskOfBytes
            let edges := (chunks 8 eb).map edgeOfBytes
            let s1 := recGraph (dropSubmit s ctl sq) p ref h
            .next (if edgesBad tasks edges (chunks 8 eb) then
                acceptGraph s1 c num h (wildTasks tasks) (soundEdges tasks (chunks 8 eb))
              else acceptGraph s1 c num h tasks edges)
          | .err e, _ => .next (complete (dropSubmit s ctl sq) c e)
          | _, .err e => .next (complete (dropSubmit s ctl sq) c e)

/-- NOP (R50): completes at issue. -/
def execNop (t : TaskId) (s : State) : Res :=
  match running s t 0x00 none with
  | none => .next s
  | some _ => .next (finishTask s t stSuccess 0)

/-- Whether an earlier graph lies in a task fence's scope (R57). -/
def inFenceScope (g x : Graph) (penScope : Bool) : Bool :=
  decide (x.acc < g.acc) && x.pen == g.pen && (penScope || (x.cmd.ctl == g.cmd.ctl && x.cmd.sq == g.cmd.sq))

/-- Whether an owner of units not yet on the medium lies in a durable task fence's scope (R57). -/
def ownerInScope (g : Graph) (penScope : Bool) (o : Owner) : Bool :=
  match o with
  | .cmd c n => if c.ctl == g.cmd.ctl && c.sq == g.cmd.sq then decide (n < g.num) else penScope && inLimits g.before c.ctl c.sq n
  | .task t c _ => decide (t.graph < g.acc) && penOfCtl c.ctl == g.pen && (penScope || (c.ctl == g.cmd.ctl && c.sq == g.cmd.sq))
  | .none => false

/-- FENCE (R57): completes with SUCCESS once every task of every graph in its scope has, and under DURABLE once nothing of
its scope is off the medium. -/
def execFence (t : TaskId) (s : State) : Res :=
  match running s t 0x01 none with
  | none => .next s
  | some (g, k) =>
    let penScope := bits k.param.toNat 0 2 = 1
    let open_ := s.drover.graphs.any fun x => inFenceScope g x penScope && x.tasks.any fun y => y.st != .complete
    let dirty := bit k.param.toNat 2 && (mediaOwners s).any (ownerInScope g penScope)
    actWhen (!open_ && !dirty) s (finishTask s t stSuccess 0)

/-- ALLOC (R51): the scratch object's bales charged, without homes; QUOTA_EXCEEDED when the quota cannot hold them. -/
def execAlloc (t : TaskId) (s : State) : Res :=
  match running s t 0x02 none with
  | none => .next s
  | some (g, k) =>
    let v := k.param.toNat
    let n := ceilDiv (bits v 0 40) bale
    if !quotaHolds s g.pen n then .next (finishTask s t stQuotaExceeded 0)
    else
      let r := drawTag s
      let x : Scratch := { bytes := n * bale, hint := bits v 40 3, homes := List.replicate n .none, tag := r.1 }
      let s := modGraph (chargeBales r.2 g.pen n) g.acc fun g => { g with scratch := tput g.scratch (bits v 48 8) x }
      .next (finishTask s t stSuccess 0)

/-- FREE (R51). -/
def execFree (t : TaskId) (s : State) : Res :=
  match running s t 0x03 none with
  | none => .next s
  | some (g, k) => .next (finishTask (freeScratch s g.acc (bits k.param.toNat 48 8)) t stSuccess 0)

end Sys2Proof.Machine
end

