-- ==== Sys2Proof/Machine/Operands.lean ====
section
/-!
DEFINITION. The operand forms of every task type: parameter blocks, operand ranges and their lengths, charges at issue (R67),
restartability (R73), and what an unpredictable or failed task leaves (R17).
-/

namespace Sys2Proof.Machine

/-- The MATMUL parameter block (R170). -/
structure MatParam where
  m : Nat
  n : Nat
  k : Nat
  lda : Nat
  ldw : Nat
  ldc : Nat
  afmt : Nat
  wfmt : Nat
  outfmt : Nat
  accum : Bool
  reserved : Bool
deriving DecidableEq, Repr

def matParamOf (b : List Byte) : MatParam :=
  { reserved := decide (2 ≤ fieldAt b 27 1) || !allZero (sub b 28 36)
    m := fieldAt b 0 4, n := fieldAt b 4 4, k := fieldAt b 8 4, lda := fieldAt b 12 4, ldw := fieldAt b 16 4, ldc := fieldAt b 20 4
    afmt := fieldAt b 24 1, wfmt := fieldAt b 25 1, outfmt := fieldAt b 26 1, accum := bit (fieldAt b 27 1) 0 }

/-- An operand reference some bytes on. -/
def opAdd (op : OpRef) (n : Nat) : OpRef := match op with
  | .host a => .host (a + n)
  | .obj m o => .obj m (o + n)
  | .scratch m o => .scratch m (o + n)
  | .none => .none

/-- Two operand ranges that share a byte. -/
def overlap (a : OpRef) (la : Nat) (b : OpRef) (lb : Nat) : Bool :=
  match a, b with
  | .host x, .host y => decide (x < y + lb ∧ y < x + la)
  | .obj m x, .obj n y => m == n && decide (x < y + lb ∧ y < x + la)
  | .scratch m x, .scratch n y => m == n && decide (x < y + lb ∧ y < x + la)
  | _, _ => false

/-- A task whose parameters the spec leaves unpredictable ends with unpredictable outputs, status and RESULT (R183, R202 and
their like; log 14): its output ranges hold free values. -/
def unpredictable (s : State) (t : TaskId) (g : Graph) (outs : List (OpRef × Nat)) : State :=
  let s := outs.foldl (fun s o => smudgeOp s g.pen (some g) o.1 0 o.2) s
  let r := drawTag s
  let q := drawTag r.2
  finishTask q.2 t ((Config.freeWord r.1).toNat % 2048) (Config.freeWord q.1).toNat

/-- The graph of the shard query that a fan-out runs on this node under a tag (R102). -/
def shardGraphOf (s : State) (corr : Nat) : Option Graph := s.drover.graphs.find? fun g => g.remote == some (localCtx, corr)

/-- The shards of a fan-out with the epochs that those on this node have bound (R91). -/
def boundShards (s : State) (l : List Shard) : List Shard := l.map fun sh =>
  if sh.ctx ≠ localCtx then sh
  else if sh.done then { sh with epoch := if sh.epochUsed = 0 then sh.epoch else sh.epochUsed }
  else match (shardGraphOf s sh.corrid).bind fun g => (g.tasks.head?).bind (·.bound) with
    | some e => { sh with epoch := e }
    | none => sh

/-- What a re-issue keeps: the entries that an update has applied, the MSEQ of a FLUE_SEND (R142, R404), what a peer's message
brought a shard query (R405), the epochs that a fan-out's shards on this node have bound (R91). -/
def reissueRun (s : State) (g : Graph) (k : Task) : Run := match k.run with
  | .update a b c => .update a b c
  | .send c m => .send c m
  | .walk w =>
    if g.remote.isSome then .walk { pen := w.pen, object := w.object, p := w.p, code := w.code, qvec := w.qvec }
    else if k.sub = 1 then .walk { shards := boundShards s w.shards }
    else .none
  | _ => .none

/-- A task whose unit was stopped or lost (R72, R179): issued again from its start when it may be, else UNIT_LOST. -/
def lostTask (s : State) (t : TaskId) (restart : Bool) : State :=
  match graphOf s t.graph, taskOf s t with
  | some g, some k =>
    if 3 ≤ k.issues ∨ (k.wrote ∧ !restart) then failTask s t stUnitLost
    else modTask (leaveUnit s t) t fun k => { k with st := .ready, run := reissueRun s g k, orphan := false, wrote := false }
  | _, _ => s

/-- A unit out of service: the health state is degraded (R449). -/
def markOut (s : State) : State :=
  { s with health := { s.health with st := if s.health.st = 0 then 1 else s.health.st } }

def updArr (s : State) (tile a : Nat) (f : Arr → Arr) : State := updTile s tile fun t => { t with arrs := t.arrs.modify a f }
def arrOf (s : State) (tile a : Nat) : Arr := nth (tileOf s tile).arrs a {}

/-- Good columns of an array in a range of columns (R176). -/
def goodCols (a : Arr) (lo n : Nat) : Nat := ((List.range n).filter fun c => !a.bad.getLsbD (lo + c)).length
/-- Geometry of a task (R165): 1 full, 2 half, 3 quarter. -/
def geometry (md : Mode) (n k : Nat) : Nat :=
  if k ≤ (if md = .i4 then 32 else 16) then 3 else if n ≤ 16 then 2 else 1
/-- Parts that a geometry gives (R165). -/
def geomParts (geom : Nat) : Nat := if geom = 3 then 4 else if geom = 2 then 2 else 1
/-- The columns of a part: all, the left or right half; of the quarter parts 0 to 3 the even ones lie left (R165 gives no map from quarter
part to columns: DESIGN CHOICE, log 149). -/
def partLeft (geom part : Nat) : Nat := if geom = 1 then 0 else 16 * (part % 2)
/-- The effective width of a part (R176). -/
def partWidth (a : Arr) (geom part : Nat) : Nat := if geom = 1 then goodCols a 0 32 else goodCols a (partLeft geom part) 16

/-- Sum of the effective widths of a tile's arrays or parts in service (S of R175). -/
def tileWidth (s : State) (tile geom : Nat) : Nat :=
  sumBy (fun a => if a.inService then sumBy (fun p => partWidth a geom p) (List.range (geomParts geom)) else 0) (tileOf s tile).arrs

/-- E of R175. -/
def matEstimate (md : Mode) (m n k width : Nat) : Nat :=
  let mm := min m 512
  md.tw + ceilDiv m 512 * ceilDiv n (max width 1) * ceilDiv k md.lanes * max (md.r * mm) md.tw + 39 + md.r

/-- A MATMUL's parameters and quantisation header as its task names them; or the status of a failed read. -/
def matParams (s : State) (g : Graph) (k : Task) : Option MatParam × Nat :=
  match readOp s g.pen (some g) (opRefOf k.param.toNat) 0 64 with
  | .err e => (none, e)
  | .ok b => (some (matParamOf b), 0)

def quantHeader (s : State) (g : Graph) (op : OpRef) : Option Quant × Nat :=
  match op with
  | .none => (some {}, 0)
  | _ => match readOp s g.pen (some g) op 0 64 with
    | .err e => (none, e)
    | .ok b => (some (quantOf b), 0)

/-- Bytes of a matrix of rows at a stride. -/
def rowsBytes (rows ld rowB : Nat) : Nat := if rows = 0 then 0 else (rows - 1) * ld + rowB
/-- Row size of A, W and C in bytes, and rows of W (R169). -/
def aRow (p : MatParam) : Nat := p.k * fmtBytes p.afmt
def wRow (p : MatParam) : Nat := if p.wfmt = 2 ∨ p.wfmt = 3 ∨ p.wfmt = 4 then p.n else p.n * fmtBytes p.wfmt
def wRows (p : MatParam) : Nat := if p.wfmt = 2 ∨ p.wfmt = 3 then p.k / 2 else p.k
def cRow (p : MatParam) : Nat := p.n * fmtBytes p.outfmt

/-- Parameters that R170 and R183 allow; C's rows may overlap each other. -/
def matOk (p : MatParam) (q : Quant) : Bool :=
  decide (1 ≤ p.m ∧ p.m ≤ 16777216 ∧ 1 ≤ p.n ∧ p.n ≤ 65536 ∧ 1 ≤ p.k ∧ p.k ≤ 65536) &&
  decide (aRow p ≤ p.lda ∧ wRow p ≤ p.ldw) &&
  quantOk p.afmt p.wfmt p.outfmt p.accum q && quantLayoutOk q p.m p.n p.k && !p.reserved &&
  !(decide (modeOf p.afmt p.wfmt q.cbFmt = some .i4) && decide (p.k % 2 = 1))

/-- Bytes of C in all. -/
def cBytes (p : MatParam) : Nat := rowsBytes p.m p.ldc (cRow p)

/-! Parameter blocks. -/

/-- The bytes of a task's parameter block, read where PARAM refers (R46). -/
def paramBlock (s : State) (g : Graph) (k : Task) (n : Nat) : Rd := readOp s g.pen (some g) (opRefOf k.param.toNat) 0 n

/-- A field of PARAM. -/
def par (k : Task) (lo w : Nat) : Nat := bits k.param.toNat lo w
/-- An operand of a task. -/
def opd (k : Task) (i : Nat) : OpRef := nth k.ops i .none

/-- A filter term (R89). -/
def termOf (b : List Byte) : Term :=
  { value := fieldAt b 0 8, start := fieldAt b 8 1, width := fieldAt b 9 1, op := fieldAt b 10 1, neg := bit (fieldAt b 11 1) 0 }
/-- The first n terms of a TERMS array. -/
def termsOf (b : List Byte) (n : Nat) : List Term := (List.range n).map fun i => termOf (sub b (16 * i) 16)

/-- QUERY parameters (R88). -/
def qparamsOf (b : List Byte) : QParams :=
  { k := fieldAt b 0 4, list := fieldAt b 4 2, beam := fieldAt b 6 1, entry := fieldAt b 7 1, epoch := fieldAt b 8 6
    mode := fieldAt b 15 1, budget := fieldAt b 16 4, maxRounds := fieldAt b 20 4, rerank := fieldAt b 24 4
    terms := termsOf (sub b 64 128) (fieldAt b 14 1) }

/-- Parameters that R88 and R109 allow: ENTRY counts for a flash-resident index, FILTER_MODE with terms (R88). -/
def qparamsOk (flash : Bool) (b : List Byte) : Bool :=
  let p := qparamsOf b
  decide (1 ≤ p.k ∧ 1 ≤ p.list ∧ p.list ≤ 4096 ∧ 1 ≤ p.beam ∧ p.beam ≤ 32 ∧ (p.entry ≤ 64 ∨ flash = false) ∧
    fieldAt b 14 1 ≤ 8 ∧ (p.mode ≤ 1 ∨ fieldAt b 14 1 = 0)) &&
  decide (p.rerank = 0 ∨ (p.k ≤ p.rerank ∧ p.rerank ≤ 65536)) && allZero (sub b 28 36) &&
  (List.range p.terms.length).all fun i => decide (fieldAt b (75 + 16 * i) 1 ≤ 1 ∧ fieldAt b (76 + 16 * i) 4 = 0)

/-- The index descriptor (R77). -/
def descOf (b : List Byte) : Desc :=
  { codeLog := fieldAt b 2 1, degree := fieldAt b 3 1, upperDegree := fieldAt b 4 1, levelShift := fieldAt b 5 1
    attrBytes := fieldAt b 6 1, flash := fieldAt b 7 1 = 1, capacity := fieldAt b 8 8
    channelMask := BitVec.ofNat 32 (fieldAt b 16 4), vecDim := fieldAt b 20 2, vecFmt := fieldAt b 22 1
    vecPlace := fieldAt b 23 1, metric := fieldAt b 24 1, crownBales := fieldAt b 25 1 }

/-- Descriptor values that R77 allows. -/
def descOk (b : List Byte) : Bool :=
  let d := descOf b
  decide (fieldAt b 0 2 = 1 ∧ d.codeLog ≤ 3 ∧ 8 ≤ d.degree ∧ d.degree ≤ 64 ∧ d.degree % 8 = 0 ∧ 4 ≤ d.upperDegree ∧
    d.upperDegree ≤ 32 ∧ 1 ≤ d.levelShift ∧ d.levelShift ≤ 8 ∧ fieldAt b 7 1 ≤ 1 ∧ 1 ≤ d.capacity ∧ d.vecDim ≤ 4096 ∧
    d.vecFmt ≤ 1 ∧ d.vecPlace ≤ 2 ∧ d.metric ≤ 2 ∧ 1 ≤ d.crownBales ∧ d.crownBales ≤ 16) &&
  decide (d.attrBytes ∈ [0, 8, 16]) && ((d.vecPlace == 0) == (d.vecDim == 0)) &&
  decide (d.capacity ≤ if d.flash then 2 ^ 34 else 2 ^ 36) && (!d.flash || d.channelMask != 0) && allZero (sub b 26 38)

/-- The create block (R140). -/
structure CreateBlk where
  storeKey : Nat
  attach : Bool
  hold : Nat
  list : Nat
  beam : Nat
  pct : Nat
  node : Nat
  mirrored : Bool
  object : Nat
  target : Bool
  epoch : Nat
deriving DecidableEq, Repr

def createOf (b : List Byte) : CreateBlk :=
  { storeKey := fieldAt b 0 8, attach := bit (fieldAt b 8 1) 0, hold := fieldAt b 9 1, list := fieldAt b 10 2, beam := fieldAt b 12 1
    pct := fieldAt b 13 1, node := bits (fieldAt b 14 2) 0 10, mirrored := bit (fieldAt b 14 2) 15, object := fieldAt b 16 4
    target := fieldAt b 20 1 = 1, epoch := fieldAt b 24 6 }

/-- Create-block values that R140 allows. -/
def createOk (flash : Bool) (b : List Byte) : Bool :=
  let c := createOf b
  decide (1 ≤ c.hold ∧ c.hold ≤ 16 ∧ 16 ≤ c.list ∧ c.list ≤ 1024 ∧ 1 ≤ c.beam ∧ c.beam ≤ 32 ∧ 1 ≤ c.pct ∧ c.pct ≤ 50 ∧
    fieldAt b 8 1 ≤ 1 ∧ fieldAt b 20 1 ≤ 1) &&
  (flash == (c.storeKey != 0)) && (!c.attach || flash) && bits (fieldAt b 14 2) 10 5 == 0 && allZero (sub b 21 3) &&
    allZero (sub b 30 34)

/-- Bytes of an INSERT entry (R141). -/
def entryBytes (d : Desc) : Nat := pad8 (8 + codeBytes d + d.attrBytes + vecBytes d)

/-- The index, the table or the model that an operand names. -/
def indexOf (s : State) (p : Nat) (op : OpRef) : Option (Nat × Index) := match op with
  | .obj n _ => match objOf s p n with
    | some o => match o.kind with
      | .index x => some (n, x)
      | _ => none
    | none => none
  | _ => none
def tableOf (s : State) (p : Nat) (op : OpRef) : Option (Nat × Table) := match op with
  | .obj n _ => match objOf s p n with
    | some o => match o.kind with
      | .table x => some (n, x)
      | _ => none
    | none => none
  | _ => none
def modelOf (s : State) (p : Nat) (op : OpRef) : Option (Nat × Nat × Nat) := match op with
  | .obj n _ => match objOf s p n with
    | some o => match o.kind with
      | .model b m => some (n, b, m)
      | _ => none
    | none => none
  | _ => none

/-- Whether an operand's object is lost (R237, R150). -/
def opLost (s : State) (p : Nat) (op : OpRef) : Bool := match op with
  | .obj n _ => (objOf s p n).any (·.lost)
  | _ => false

/-- Row bytes of a table, and of its slots (R216). -/
def rowBytes (t : Table) : Nat := t.width * fmtBytes t.fmt
def slotBytes (t : Table) : Nat := (rowBytes t + 63) / 64 * 64

/-- The MODEL_RUN parameter block (R212). -/
structure RunParam where
  batch : Nat
  seqLen : Nat
  first : Nat
  last : Nat
  inKind : Nat
  outKind : Nat
  k : Nat
deriving DecidableEq, Repr

def runParamOf (b : List Byte) : RunParam :=
  { batch := fieldAt b 0 4, seqLen := fieldAt b 4 2, first := fieldAt b 6 2, last := fieldAt b 8 2, inKind := fieldAt b 10 1
    outKind := fieldAt b 11 1, k := fieldAt b 12 4 }

/-- The program header of NBU_SEQ (R242): FMT, STEPS, BLEN, ELEMS. -/
structure NbuHead where
  version : Nat
  fmt : Nat
  steps : Nat
  blen : Nat
  elems : Nat
  resv : Nat
deriving DecidableEq, Repr

def nbuHeadOf (b : List Byte) : NbuHead :=
  { version := fieldAt b 0 2, fmt := fieldAt b 2 1, steps := fieldAt b 3 1, blen := fieldAt b 4 2, elems := fieldAt b 8 8
    resv := fieldAt b 6 2 }

/-! Operand ranges. -/

/-- A range of an operand: its bytes when the task's parameters give them (R62), and whether the task writes it. -/
structure Rng where
  op : OpRef
  len : Option Nat
  out : Bool := false
deriving DecidableEq, Repr

def rin (op : OpRef) (n : Nat) : Rng := { op := op, len := some n }
def rout (op : OpRef) (n : Nat) : Rng := { op := op, len := some n, out := true }
def rest (op : OpRef) : Rng := { op := op, len := none }

/-- Bytes of a result buffer (R110). -/
def resultBytes (k : Nat) : Nat := 16 + 16 * k

/-- The ranges of a QUERY (R87); a peer's brings its code and parameters in its message (R405). -/
def queryRanges (s : State) (g : Graph) (k : Task) : List Rng :=
  if g.remote.isSome then [rest (opd k 0)] else
  match paramBlock s g k 192, indexOf s g.pen (opd k 0) with
  | .ok b, some (_, x) =>
    let p := qparamsOf b
    let n := if k.sub = 1 then fieldAt (readOp s g.pen (some g) (opd k 5) 0 4).bytes 0 4 else 0
    [rest (opd k 0), rin (opd k 1) (codeBytes x.desc), rout (opd k 2) (resultBytes p.k), rout (opd k 3) (64 + 8 * n)] ++
      (if p.rerank = 0 then [] else [rin (opd k 4) (vecBytes x.desc)]) ++ (if k.sub = 1 then [rest (opd k 5)] else [])
  | _, _ => [rest (opd k 0)]

/-- The ranges of a MODEL_RUN (R212). -/
def modelRanges (s : State) (g : Graph) (k : Task) : List Rng :=
  match k.sub, paramBlock s g k 32, readOp s g.pen (some g) (opd k 0) 0 64 with
  | 0, .ok b, .ok h =>
    let p := runParamOf b
    let e := if p.inKind = 0 then 4 else fieldAt h 4 2 * fmtBytes (fieldAt h 12 1)
    let st := (readOp s g.pen (some g) (opd k 0) (fieldAt h 16 8 + 64 * p.last) 64).bytes
    let rows := p.batch * (if p.outKind = 0 then p.seqLen else 1)
    [rest (opd k 0), rin (opd k 1) (p.batch * (4 + p.seqLen * e)),
      rout (opd k 2) (if p.outKind = 2 then resultBytes p.k else rows * fieldAt st 8 4 * fmtBytes (fieldAt st 7 1)), rest (opd k 3)]
  | 1, _, _ => [rest (opd k 1)]
  | _, _, _ => [rest (opd k 0)]

/-- The ranges of a VECTOR task (R215): its standalone rows are fp32. -/
def vectorRanges (s : State) (g : Graph) (k : Task) : List Rng :=
  let n := par k 0 32
  match k.sub with
  | 0 => (match paramBlock s g k 64 with
    | .ok b =>
      let w := fieldAt b 8 4
      let rows := fieldAt b 12 4
      let outRows := if fieldAt b 1 1 = 0x0A ∨ fieldAt b 1 1 = 0x0B then 1 else rows
      [rin (opd k 0) (4 * w * rows), rin (opd k 1) (4 * w * rows), rout (opd k 2) (outRows * w * fmtBytes (fieldAt b 7 1))]
    | .err _ => [])
  | 1 => [rest (opd k 0), rin (opd k 1) 128, { op := opd k 2, len := none, out := true }]
  | 2 => [rest (opd k 0), rest (opd k 1), { op := opd k 2, len := none, out := true }, { op := opd k 3, len := none, out := true }]
  | _ =>
    let cl := par k 32 2
    let cb := 256 * 2 ^ cl
    [rin (opd k 0) (n * cb * 4), rin (opd k 1) (16 * n), rout (opd k 2) (n * pad8 (8 + cb / 8 + 8 * bits k.param.toNat 34 3))]

/-- The ranges of an INSERT or a DELETE (R139). -/
def updateRanges (s : State) (g : Graph) (k : Task) : List Rng :=
  let n := par k 0 32
  if k.typ = 0x12 then
    if k.sub = 0 then
      [rest (opd k 0), rin (opd k 1) (n * ((indexOf s g.pen (opd k 0)).map fun x => entryBytes x.2.desc).getD 0), rout (opd k 2) 16]
    else if k.sub = 3 then [rin (opd k 1) 64, rest (opd k 2)] else [rin (opd k 1) 64]
  else if k.sub = 0 then [rest (opd k 0), rin (opd k 1) (8 * n), rout (opd k 2) 16] else [rest (opd k 0)]

/-- The ranges of a GATHER or a SCATTER (R217, R218). -/
def tableRanges (s : State) (g : Graph) (k : Task) : List Rng :=
  let n := par k 0 25
  match tableOf s g.pen (opd k 0) with
  | none => if k.sub = 2 then [rin (opd k 1) 64] else []
  | some (_, t) =>
    if k.typ = 0x18 then [rest (opd k 0), rin (opd k 1) (8 * n), rout (opd k 2) (n * rowBytes t)]
    else if k.sub = 0 then [rest (opd k 0), rin (opd k 1) (8 * n), rin (opd k 2) (n * rowBytes t)]
    else if k.sub = 1 then [rest (opd k 0), rin (opd k 1) (8 * n), rin (opd k 2) (n * t.width * 4)]
    else [rest (opd k 0)]

/-- The ranges of a MATMUL (R169). -/
def matRanges (s : State) (g : Graph) (k : Task) : List Rng :=
  match matParams s g k, quantHeader s g (opd k 3) with
  | (some p, _), (some q, _) =>
    [rin (opd k 0) (rowsBytes p.m p.lda (aRow p)), rin (opd k 1) (rowsBytes (wRows p) p.ldw (wRow p)), rout (opd k 2) (cBytes p),
      rin (opd k 3) (quantBytes q p.m p.n p.k), rin (opd k 4) (4 * p.n)] ++ (if p.accum then [rin (opd k 2) (cBytes p)] else [])
  | _, _ => []

/-- The ranges of an NBU_SEQ (R241). -/
def nbuRanges (s : State) (g : Graph) (k : Task) : List Rng :=
  match paramBlock s g k 16 with
  | .ok b =>
    let h := nbuHeadOf b
    let n := h.elems * fmtBytes h.fmt
    ((List.range 4).map fun i => rin (opd k i) n) ++ [rin (opd k 4) (4 * h.blen)]
  | .err _ => []

/-- The operand ranges of a task (R62): an index, table or model operand counts as the rest of its first bale. -/
def ranges (s : State) (g : Graph) (k : Task) : List Rng :=
  let l : List Rng := match k.typ with
    | 0x04 => (if k.sub = 0 then [rin (opd k 0) (par k 0 40)] else []) ++ [rout (opd k 1) (par k 0 40)]
    | 0x08 => matRanges s g k
    | 0x09 => modelRanges s g k
    | 0x0A => vectorRanges s g k
    | 0x0C => nbuRanges s g k
    | 0x10 => queryRanges s g k
    | 0x11 => ((List.range (par k 32 3)).map fun i => rest (opd k i)) ++ [rout (opd k 5) (resultBytes (par k 0 32))]
    | 0x12 => updateRanges s g k
    | 0x13 => updateRanges s g k
    | 0x18 => tableRanges s g k
    | 0x19 => tableRanges s g k
    | 0x1C => [rin (opd k 0) (4096 * par k 0 32), rout (opd k 1) (4096 * par k 0 32)]
    | 0x1D => if k.sub = 0 then [rin (opd k 1) (4096 * par k 0 32)] else []
    | 0x20 => [rin (opd k 0) (par k 10 16 + 1)]
    | _ => []
  l.filter fun r => r.op != .none

/-- Bytes of a range that lie in its first bale: those its length gives, or the rest of the bale (R67). -/
def firstBytes (r : Rng) : Nat :=
  let room := bale - firstOff r.op
  match r.len with
  | some n => min n room
  | none => room

/-- The quad whose stacks hold the byte of an operand at an offset. -/
def quadAt (s : State) (g : Graph) (op : OpRef) (off : Nat) : Option Nat := match opSeg s g.pen (some g) op off with
  | .stk a => some (quadOfStack (dpaStack a))
  | _ => none

/-- Bytes of a range homed in a quad's stacks (R62). -/
def quadBytes (s : State) (g : Graph) (q : Nat) (r : Rng) : Nat :=
  match r.len with
  | none => if quadAt s g r.op 0 = some q then firstBytes r else 0
  | some n => sumBy (fun x => match x.1 with
      | .stk a => if quadOfStack (dpaStack a) = q then x.2 else 0
      | _ => 0) (segs s g.pen (some g) r.op 0 n)

/-- A graph's scratch object that an operand names. -/
def scratchOf (g : Graph) (op : OpRef) : Option (Nat × Scratch) := match op with
  | .scratch n _ => (tget? g.scratch n).map fun x => (n, x)
  | _ => none

/-- Unit kind of a task type (R50). -/
def unitKindOf (typ : Nat) : UnitKind :=
  if typ ≤ 3 then .drover else if typ = 0x04 then .dma else if typ = 0x0C then .nearBank
  else if typ = 0x1C ∨ typ = 0x1D then .engine else if typ = 0x20 then .flue else .tile

/-- Codes and subtypes that are not reserved (R50, R139, R204, R215 to R218, R298, R376). -/
def knownTask (k : Task) : Bool :=
  match k.typ with
  | 0x00 => k.sub == 0 | 0x01 => k.sub == 0 | 0x02 => k.sub == 0 | 0x03 => k.sub == 0
  | 0x04 => decide (k.sub ≤ 1)
  | 0x08 => k.sub == 0
  | 0x09 => decide (k.sub ≤ 2)
  | 0x0A => decide (k.sub ≤ 3)
  | 0x0C => k.sub == 0
  | 0x10 => decide (k.sub ≤ 1)
  | 0x11 => k.sub == 0
  | 0x12 => k.sub == 0 || k.sub == 2 || k.sub == 3
  | 0x13 => decide (k.sub ≤ 2)
  | 0x18 => k.sub == 0
  | 0x19 => decide (k.sub ≤ 4)
  | 0x1C => k.sub == 0
  | 0x1D => decide (k.sub ≤ 1)
  | 0x20 => k.sub == 0
  | _ => false

/-- Whether a FENCE's or an ALLOC's PARAM holds a reserved scope, hint or field (R51, R57). -/
def paramBad (k : Task) : Bool :=
  match k.typ with
  | 0x01 => decide (2 ≤ bits k.param.toNat 0 2 ∨ bits k.param.toNat 3 61 ≠ 0)
  | 0x02 => decide (3 ≤ bits k.param.toNat 40 3 ∨ bits k.param.toNat 43 5 ≠ 0 ∨ bits k.param.toNat 56 8 ≠ 0)
  | _ => false

/-- A task that R76 leaves unpredictable: a reserved code, subtype, encoding or field. -/
def reservedTask (k : Task) : Bool := !knownTask k || k.reserved || paramBad k

/-- Task types whose PARAM refers to a parameter block. -/
def hasBlock (k : Task) : Bool :=
  k.typ == 0x08 || k.typ == 0x0C || k.typ == 0x10 || (k.typ == 0x09 && k.sub == 0) || (k.typ == 0x0A && k.sub == 0) ||
    (k.typ == 0x12 && k.sub != 0)

/-- The bytes of a task's parameter block. -/
def blockBytes (s : State) (g : Graph) (k : Task) : Nat :=
  if k.typ = 0x10 then 192
  else if k.typ = 0x0C then (match paramBlock s g k 16 with
    | .ok h => 16 + 8 * (nbuHeadOf h).steps
    | .err _ => 16)
  else 64

/-- A task's parameter block as a range. -/
def blockOf (s : State) (g : Graph) (k : Task) : List (OpRef × Nat) :=
  if hasBlock k && g.remote.isNone then [(opRefOf k.param.toNat, blockBytes s g k)] else []

/-- The length of a range that only its data give: a MERGE's input result buffer (R110, R127). -/
def dataLen (s : State) (g : Graph) (k : Task) (r : Rng) : Option Nat :=
  match r.len with
  | some n => some n
  | none => if k.typ = 0x11 ∧ !r.out then (match readOp s g.pen (some g) r.op 0 4 with
      | .ok b => some (resultBytes (ofLe b))
      | .err _ => none) else none

/-- Bytes of a range that a task reads at the stacks, homed or paged there (R67); none for an operand of which it reads parts. -/
def stackRead (s : State) (g : Graph) (k : Task) (r : Rng) : Nat := match dataLen s g k r with
  | some n => sumBy (fun x => match x.1 with
      | .stk _ => x.2
      | _ => 0) (segs s g.pen (some g) r.op 0 n)
  | none => 0

/-- Whether an operand's first byte is homed on flash: an NVMe-backed region. -/
def onFlash (s : State) (p acc : Nat) (op : OpRef) : Bool := match firstBale s p acc op with
  | some (.flash _) => true
  | _ => false

/-- Operands whose first bale must be in the pool before issue (R65): those of tiles and of near-bank units homed on flash or
in host memory, and a COPY's flash-homed source. -/
def pagedOps (s : State) (g : Graph) (k : Task) : List OpRef :=
  let l : List OpRef := match unitKindOf k.typ with
    | .tile => (ranges s g k).map fun r : Rng => r.op
    | .nearBank => [opd k 4]
    | .dma => if k.sub = 0 && onFlash s g.pen g.acc (opd k 0) then [opd k 0] else []
    | _ => []
  (l.filter fun o => (firstBale s g.pen g.acc o).isSome).foldl addNew ([] : List OpRef)

/-- Whether a scratch object that an operand names has a home in the stacks, or is yet to get one (R51, R236). -/
def inPool (g : Graph) (op : OpRef) : Bool := (scratchOf g op).any fun x => x.2.homes.any fun h => match h with
  | .stack _ _ => true
  | .none => true
  | _ => false

/-- Whether a range counts in the stack charge at issue (R67): read or written at the stacks, homed or paged there. -/
def atStacks (s : State) (g : Graph) (k : Task) (r : Rng) : Bool :=
  (quadAt s g r.op 0).isSome || inPool g r.op || decide (r.op ∈ pagedOps s g k)

/-- Stack bytes charged at issue (R67). -/
def stackCharge (s : State) (g : Graph) (k : Task) : Nat :=
  sumBy firstBytes (((ranges s g k).foldl addNew ([] : List Rng)).filter (atStacks s g k))

/-- Tile cycles charged at issue on a tile (R67): the estimate of the type's chapter; 0 where it gives none. -/
def tileCharge (s : State) (g : Graph) (k : Task) (tile : Nat) : Nat :=
  match k.typ with
  | 0x08 => (match matParams s g k, quantHeader s g (opd k 3) with
    | (some p, _), (some q, _) =>
      let md := (modeOf p.afmt p.wfmt q.cbFmt).getD .i8
      matEstimate md p.m p.n p.k (tileWidth s tile (geometry md p.n p.k))
    | _, _ => 0)
  | 0x09 => if k.sub = 0 then (match paramBlock s g k 32, modelOf s g.pen (opd k 0) with
    | .ok b, some (_, _, macs) => let p := runParamOf b; 1000 + ceilDiv (p.batch * p.seqLen * macs) 4096
    | _, _ => 0) else 0
  | 0x10 => (match paramBlock s g k 192 with
    | .ok b => let p := qparamsOf b; 2000 + ceilDiv (40 * p.list * (256 + p.rerank)) 256
    | .err _ => 0)
  | 0x11 =>
    let counts := (List.range (par k 32 3)).map fun i => match readOp s g.pen (some g) (opd k i) 0 4 with
      | .ok b => ofLe b
      | .err _ => 0
    200 + ceilDiv (sumBy id counts) 8
  | 0x12 => if k.sub = 0 then par k 0 32 * (2000 + 80 * ((indexOf s g.pen (opd k 0)).map fun x => x.2.insertList).getD 0) else 2000
  | 0x13 => if k.sub = 0 then 500 + 8 * par k 0 32 else 2000
  | _ => 0

/-- Whether an index that a task names is flash-resident. -/
def namesFlashIndex (s : State) (g : Graph) (k : Task) : Bool :=
  decide (k.typ = 0x10 ∨ k.typ = 0x12 ∨ k.typ = 0x13) &&
    [opd k 0, opd k 2].any fun o => (indexOf s g.pen o).any fun x => x.2.desc.flash

/-- Flash operations charged at issue, in sixteenths (R67, R106, R298). -/
def flashCharge (s : State) (g : Graph) (k : Task) : Nat :=
  let paging := 16 * ((pagedOps s g k).filter (onFlash s g.pen g.acc)).length
  paging + (match k.typ with
    | 0x10 => if namesFlashIndex s g k then (match paramBlock s g k 192 with
        | .ok b => let p := qparamsOf b; 16 * (if p.entry = 0 then p.beam else p.entry)
        | .err _ => 0) else 0
    | 0x1C => 16 * ceilDiv (par k 0 32) 4
    | 0x1D => if k.sub = 0 then 16 * ceilDiv (par k 0 32) 4 else 0
    | _ => 0)

/-- Whether n bytes from an operand's start lie within its object; a host address bounds nothing. -/
def opFits (s : State) (g : Graph) (op : OpRef) (n : Nat) : Bool := match op with
  | .obj m o => (objOf s g.pen m).all fun x => match x.kind with
      | .region _ blocks => decide (o + n ≤ 4096 * blocks)
      | .borrowed _ _ _ _ => true
      | _ => decide (o + n ≤ x.homes.length * bale)
  | .scratch m o => (tget? g.scratch m).all fun x => decide (o + n ≤ x.bytes)
  | _ => true

/-- Whether an operand that a task names is shorter than what its parameters ask for (R109, R128, R154, R183, R225). -/
def shortOps (s : State) (g : Graph) (k : Task) : Bool := (ranges s g k).any fun r => (dataLen s g k r).any fun n => !opFits s g r.op n

/-- Bytes of a range: those its length gives, or those to the end of its object; in host memory those of its first bale. -/
def rangeRoom (s : State) (g : Graph) (r : Rng) : Nat := r.len.getD (match r.op with
  | .obj m o => ((objOf s g.pen m).map fun x => x.homes.length * bale - o).getD 0
  | .scratch m o => ((tget? g.scratch m).map fun x => x.bytes - o).getD 0
  | _ => firstBytes r)

/-- The output ranges of a task, for what is unpredictable after it. -/
def outputs (s : State) (g : Graph) (k : Task) : List (OpRef × Nat) :=
  (ranges s g k).filterMap fun r => if r.out then some (r.op, rangeRoom s g r) else none

/-- Whether some output range of a task overlaps an input range, another output (R109) or its parameter block (R73). A range whose length nothing gives
counts to the end of its object (log 141). -/
def outOverIn (s : State) (g : Graph) (k : Task) : Bool :=
  let l := ranges s g k
  let len (r : Rng) : Nat := (dataLen s g k r).getD (2 ^ 47)
  let ins := ((l.filter fun i => !i.out).map fun i => (i.op, len i)) ++ blockOf s g k
  let outs := l.filter (·.out)
  outs.any (fun o => ins.any fun i => overlap o.op (len o) i.1 i.2) ||
    (List.range outs.length).any fun i => (outs.drop (i + 1)).any fun o => outs[i]?.any fun x => overlap o.op (len o) x.op (len x)

/-- The bytes that two ranges share, as an operand and a length. -/
def shared (a : OpRef) (la : Nat) (b : OpRef) (lb : Nat) : Option (OpRef × Nat) :=
  let cut (x y : Nat) : Nat × Nat := (max x y, min (x + la) (y + lb) - max x y)
  match a, b with
  | .host x, .host y => let c := cut x y; if c.2 = 0 then none else some (.host c.1, c.2)
  | .obj m x, .obj n y => let c := cut x y; if m = n ∧ c.2 ≠ 0 then some (.obj m c.1, c.2) else none
  | .scratch m x, .scratch n y => let c := cut x y; if m = n ∧ c.2 ≠ 0 then some (.scratch m c.1, c.2) else none
  | _, _ => none

/-- The bytes that output ranges share with each other and with input ranges. -/
def sharedAll (ins : List (OpRef × Nat)) : List (OpRef × Nat) → List (OpRef × Nat)
  | [] => []
  | o :: r => (ins ++ r).filterMap (fun i => shared o.1 o.2 i.1 i.2) ++ sharedAll ins r

/-- The bytes of C that more than one of its rows holds, when LDC is below the row (R183). -/
def strideClash (c : OpRef) (p : MatParam) : List (OpRef × Nat) :=
  if cRow p ≤ p.ldc then []
  else (List.range (p.m - 1)).map fun i => (opAdd c ((i + 1) * p.ldc), cRow p - p.ldc)

/-- The output bytes of a task that its own overlaps leave unpredictable (R109, R128, R183): of a MATMUL, a QUERY and a MERGE; of a
FLASH_READ over its source region. The C that ACCUM reads is no overlap. -/
def ownClash (s : State) (g : Graph) (k : Task) : List (OpRef × Nat) :=
  let l := ranges s g k
  let ins := (l.filter fun r => !r.out).filterMap fun r => (dataLen s g k r).map fun n => (r.op, n)
  let outs := (l.filter (·.out)).filterMap fun r => (dataLen s g k r).map fun n => (r.op, n)
  match k.typ with
  | 0x08 => (match matParams s g k with
    | (some p, _) => sharedAll (if p.accum then ins.dropLast else ins) outs ++ strideClash (opd k 2) p
    | _ => [])
  | 0x10 => sharedAll (ins ++ blockOf s g k) outs
  | 0x11 => sharedAll ins outs
  | 0x1C => sharedAll [(opd k 0, 4096 * par k 0 32)] outs
  | _ => []

/-- Restartability after writing started (R73, R253). -/
def restarts (s : State) (g : Graph) (k : Task) : Bool :=
  match k.typ with
  | 0x12 => true
  | 0x13 => true
  | 0x1D => true
  | 0x20 => true
  | 0x19 => false
  | 0x0C => true
  | _ => !outOverIn s g k

/-- A task that a poisoned line or a lost bale ends (R239, R237): its outputs are unpredictable after MEDIA_ERROR. -/
def readFailed (s : State) (t : TaskId) (g : Graph) (k : Task) (status : Nat) : State :=
  let s := if status = stMediaError then (outputs s g k).foldl (fun s o => smudgeOp s g.pen (some g) o.1 0 o.2) s else s
  finishTask s t status 0

/-! Lines that the host owns (R281). -/

/-- Lines of node memory that the host holds in E or M. -/
def hostLines (s : State) : List Nat := (s.coh.slices.flatMap fun x => tkeys x.2.entries).filter (hostOwns s)

/-- Those of some lines that lie in a task's operands at the stacks. -/
def touched (s : State) (g : Graph) (k : Task) (l : List Nat) : List Nat :=
  if l.isEmpty then []
  else
    let runs := (ranges s g k).flatMap fun r => segs s g.pen (some g) r.op 0 (rangeRoom s g r)
    l.filter fun l => runs.any fun x => match x.1 with
      | .stk a => decide (a < l + line ∧ l < a + x.2)
      | _ => false

/-- Lines of a task's operands that the host owns. -/
def hostTouched (s : State) (g : Graph) (k : Task) : List Nat := touched s g k (hostLines s)

/-- The outputs of a task that R281 leaves unpredictable: all, while the host owns a line of its operands. -/
def hostClash (s : State) (g : Graph) (k : Task) : List (OpRef × Nat) := if (hostTouched s g k).isEmpty then [] else outputs s g k

/-- The host writes a line over CXL.mem: what issued tasks that use it write becomes unpredictable (R349). -/
def spoilUsers (s : State) (l : Nat) : State :=
  (allTasks s).foldl (fun s x =>
    if x.2.2.st == .issued && !(touched s x.2.1 x.2.2 [l]).isEmpty then
      modTask s x.1 fun k => { k with clash := k.clash ++ outputs s x.2.1 x.2.2 }
    else s) s

end Sys2Proof.Machine
end

