-- ==== Sys2Proof/Machine/FlueOps.lean ====
section
/-!
DEFINITION. Shared operations of Flue (15): messages cut into flits (R394, R397), routes (R400), credits and the retry buffer
(R395, R396), and sending and accepting on a peer context (R399, R402).
-/

namespace Sys2Proof.Machine

def portOf (s : State) (p : Nat) : FPort := tget s.flue.ports p
def updPort (s : State) (p : Nat) (f : FPort → FPort) : State := { s with flue := { s.flue with ports := tmod s.flue.ports p f } }
def ctxOf (s : State) (c : Nat) : Ctx := tget s.flue.ctxs c
def updCtx (s : State) (c : Nat) (f : Ctx → Ctx) : State := { s with flue := { s.flue with ctxs := tmod s.flue.ctxs c f } }

/-- The VC of a message type (R398). -/
def vcOf (type : Nat) : Nat := if type ∈ [0x03, 0x11, 0x21, 0x32, 0x42] then 1 else 0

/-- The bytes of a message: its 32 B header and its body (R397). -/
def msgBytes (m : FlueMsg) : List Byte :=
  le 2 m.dst ++ le 2 m.src ++ le 2 m.dctx ++ le 2 m.sctx ++ le 4 m.mseq ++ le 1 m.type ++ le 1 m.ttl ++ le 2 0 ++
    le 4 m.body.length ++ le 4 m.gen ++ le 8 m.corrid ++ m.body

/-- The flits of a message (R394, R397): 240 payload bytes each. -/
def msgFlits (m : FlueMsg) : List Flit :=
  let l := chunks 240 (msgBytes m)
  ((List.range l.length).zip l).map fun x =>
    { seq := 0, kind := 1, ackSeq := 0, cred0 := 0, cred1 := 0, vc := vcOf m.type, som := x.1 == 0, eom := x.1 + 1 == l.length
      len := x.2.length, payload := x.2, crcOk := true : Flit }

/-- The last SEQ accepted on a port. -/
def lastSeq (x : FPort) : Nat := (x.expSeq + 4095) % 4096

/-- A flit sent with the port's acknowledgement and freed credits (R394). -/
def emitFlit (s : State) (p : Nat) (f : Flit) : State :=
  let x := portOf s p
  let f := { f with ackSeq := lastSeq x, cred0 := min x.freed0 255, cred1 := min x.freed1 255 }
  updPort (emit s (.flit p f)) p fun x => { x with freed0 := x.freed0 - min x.freed0 255, freed1 := x.freed1 - min x.freed1 255 }

/-- DATA flits sent while the port is UP, their VC has credit and the retry buffer has room (R395, R396), by fuel. -/
def pumpPort (s : State) (p : Nat) : Nat → State
  | 0 => s
  | k + 1 =>
    let x := portOf s p
    if x.st ≠ 3 ∨ 512 ≤ x.unacked.length then s
    else match x.tx.find? (fun f => if f.vc = 0 then decide (0 < x.cred0) else decide (0 < x.cred1)) with
      | none => s
      | some f =>
        let g := { f with seq := x.sendSeq }
        let s := updPort s p fun x => { x with
          tx := dropFirst (fun y => y == f) x.tx, unacked := x.unacked ++ [g], sendSeq := (x.sendSeq + 1) % 4096
          cred0 := if f.vc = 0 then x.cred0 - 1 else x.cred0, cred1 := if f.vc = 0 then x.cred1 else x.cred1 - 1 }
        pumpPort (emitFlit s p g) p k

def pump (s : State) (p : Nat) : State := pumpPort s p (portOf s p).tx.length

/-- The port by which a message for a node leaves (R400): A while valid and UP, else B; the node's own entry is ignored. -/
def routePort (s : State) (node : Nat) : Option Nat :=
  let e := tgetD s.flue.routes node 0
  if node = s.flue.nodeId then none
  else if bit e 3 && (portOf s (bits e 0 3)).st == 3 then some (bits e 0 3)
  else if bit e 7 && (portOf s (bits e 4 3)).st == 3 then some (bits e 4 3)
  else none

/-- A message sent on its way; without a usable port it waits (R400). In replay none is sent (R454). -/
def sendMsg (s : State) (m : FlueMsg) : State :=
  if s.trace.replay then s
  else match routePort s m.dst with
  | none => { s with flue := { s.flue with outbox := s.flue.outbox ++ [m] } }
  | some p => pump (updPort s p fun x => { x with tx := x.tx ++ msgFlits m }) p

/-- Waiting messages, and those of the forward pool, sent once a port is UP. -/
def flushOutbox (s : State) : State :=
  let l := s.flue.outbox
  let s := l.foldl sendMsg { s with flue := { s.flue with outbox := [] } }
  let go := s.flue.pool.filter fun m => (routePort s m.dst).isSome
  go.foldl sendMsg { s with flue := { s.flue with pool := s.flue.pool.filter fun m => (routePort s m.dst).isNone } }

def unackedOf (x : Ctx) (vc : Nat) : List FlueMsg := if vc = 0 then x.unacked0 else x.unacked1
def setUnacked (x : Ctx) (vc : Nat) (l : List FlueMsg) : Ctx := if vc = 0 then { x with unacked0 := l } else { x with unacked1 := l }
def nextMseq (x : Ctx) (vc : Nat) : Nat := if vc = 0 then x.send0 else x.send1
def bumpMseq (x : Ctx) (vc : Nat) : Ctx :=
  if vc = 0 then { x with send0 := wrapAdd 32 x.send0 1 } else { x with send1 := wrapAdd 32 x.send1 1 }

/-- A message of a context before it is numbered. -/
def ctxMsg (s : State) (c type gen corrid : Nat) (body : List Byte) : FlueMsg :=
  let x := ctxOf s c
  { dst := x.peer, src := s.flue.nodeId, dctx := x.pctx, sctx := c, mseq := 0, type := type, ttl := 8, gen := gen, corrid := corrid
    body := body }

/-- A Flue message as an OUT record of stream 34 (R452): recorded when asked; in replay compared, a difference ending the
replay (R454, R456). -/
def flueOut (s : State) (m : FlueMsg) : State :=
  let body := le 8 m.dst ++ le 4 (msgBytes m).length ++ shake256 (msgBytes m) 16
  if s.trace.replay then
    match s.trace.outs.find? (fun o => o.1 == 34) with
    | none => s
    | some o =>
      if o.2.2 = body then { s with trace := { s.trace with outs := dropFirst (fun x => x.1 == 34) s.trace.outs } }
      else { s with trace := { s.trace with replay := false, diverged := true, divergeOff := o.2.1 } }
  else if s.trace.out_ then traceRec s 0x20 34 body else s

/-- A message numbered, kept until acknowledged, and sent (R399); in replay none is sent (R454). -/
def sendNumbered (s : State) (c : Nat) (m : FlueMsg) : State :=
  let x := ctxOf s c
  let vc := vcOf m.type
  let m := { m with mseq := nextMseq x vc }
  if s.trace.replay then flueOut (updCtx s c fun x => bumpMseq x vc) m
  else sendMsg (updCtx (flueOut s m) c fun x => bumpMseq (setUnacked x vc (unackedOf x vc ++ [m])) vc) m

/-- A message on a context (R399, R401): sent while OPEN and fewer than 65,535 wait for acknowledgement; kept while OPENING or
at that limit; nothing otherwise. -/
def ctxSend (s : State) (c type gen corrid : Nat) (body : List Byte) : State :=
  let x := ctxOf s c
  let m := ctxMsg s c type gen corrid body
  if x.st = 2 ∧ (unackedOf x (vcOf type)).length < 65535 then sendNumbered s c m
  else if x.st = 1 ∨ x.st = 2 then updCtx s c fun x => { x with waiting := x.waiting ++ [m] }
  else s

/-- Every PUT_DONE owed is sent (R404). -/
def sendOwed (s : State) : State :=
  s.flue.owed.foldl (fun s x => ctxSend s x.1 0x11 0 x.2.1 (le 2 x.2.2)) { s with flue := { s.flue with owed := [] } }

/-- Messages that waited sent in order while the context takes them, by fuel. -/
def drainCtx (s : State) (c : Nat) : Nat → State
  | 0 => s
  | k + 1 =>
    let x := ctxOf s c
    match x.waiting with
    | [] => s
    | m :: r =>
      if x.st = 2 ∧ (unackedOf x (vcOf m.type)).length < 65535 then
        drainCtx (sendNumbered (updCtx s c fun x => { x with waiting := r }) c m) c k
      else s

/-- A cumulative acknowledgement (R399): the last MSEQ accepted on VC 0 and on VC 1, 4 bytes each (log 15). -/
def sendAck (s : State) (c : Nat) : State :=
  let x := ctxOf s c
  sendMsg s (ctxMsg s c 0x03 0 0 (le 4 (wrapAdd 32 x.exp0 0xFFFFFFFF) ++ le 4 (wrapAdd 32 x.exp1 0xFFFFFFFF)))

/-- A message discarded and counted (R402, R414). -/
def rejectMsg (s : State) : State := { s with flue := { s.flue with reject := satAdd 24 s.flue.reject 1 } }

/-- Takes an assembled message of a type from the inbox. -/
def takeInbox (s : State) (m : FlueMsg) (type : Nat) : Option State :=
  if m.type = type ∧ m.dst = s.flue.nodeId ∧ m ∈ s.flue.inbox then
    some { s with flue := { s.flue with inbox := dropFirst (fun x => x == m) s.flue.inbox } }
  else none

/-- Whether a message acts on its context (R402): the context is OPEN and the sender is its peer. -/
def msgFits (s : State) (m : FlueMsg) : Bool := (ctxOf s m.dctx).st == 2 && (ctxOf s m.dctx).peer == m.src

/-- A delivered message recorded, over as many records as its bytes need (R451, R452). -/
def flueIn (s : State) (m : FlueMsg) : State := (chunks 65535 (msgBytes m)).foldl (fun s b => traceRec s 0x04 34 b) s

/-- A message of a numbered type accepted (R399, R402): the state with its MSEQ counted and acknowledged. One out of turn is
discarded and acknowledged again; one that fits no OPEN context is rejected. -/
def acceptMsg (s : State) (m : FlueMsg) (f : State → State) : State :=
  if !msgFits s m then rejectMsg s
  else
    let x := ctxOf s m.dctx
    let vc := vcOf m.type
    if m.mseq = (if vc = 0 then x.exp0 else x.exp1) then
      let s := updCtx s m.dctx fun x =>
        if vc = 0 then { x with exp0 := wrapAdd 32 x.exp0 1 } else { x with exp1 := wrapAdd 32 x.exp1 1 }
      f (sendAck (flueIn s m) m.dctx)
    else sendAck s m.dctx

/-- A message row's shape: the message is taken from the inbox, then accepted. -/
def onMsg (s : State) (m : FlueMsg) (type : Nat) (f : State → State) : Res :=
  match takeInbox s m type with
  | none => .next s
  | some s => .next (acceptMsg s m f)

/-- A pen's context to a node: the lowest one bound to it that is OPEN (R405, R408). -/
def ctxTo (s : State) (pen node : Nat) : Option Nat :=
  (s.flue.ctxs.find? fun c => c.2.st == 2 && c.2.pen == pen && c.2.peer == node).map (·.1)

/-- The next correlation tag. -/
def drawCorr (s : State) : Nat × State := (s.flue.nextCorr, { s with flue := { s.flue with nextCorr := wrapAdd 64 s.flue.nextCorr 1 } })

end Sys2Proof.Machine
end

