-- ==== Sys2Proof/Machine/Admin.lean ====
section
/-!
DEFINITION. The admin commands (R325, R326, R328, R348, R353, R361, R449). Field places of Identify and of completion
dword 0 are PRESUMED from NVMe 2.0 (log 6); bytes of NVMe structures that this spec does not fix are opaque (log 2).
-/

namespace Sys2Proof.Machine

/-- An admin command: fetched from the admin queue. -/
def withAdmin (s : State) (c : Cmd) (f : State → State) : Res :=
  withCmd s c fun s _ => if isIoCmd c then complete s c stInvalidOpcode else f s

/-- A new submission queue; with a record queue when it is a Skex queue (R328). -/
def newSq (base entries cqid : Nat) (skex : Bool) (rqBase rqEntries : Nat) : Sq :=
  { base := base, size := entries, cqid := cqid, skex := skex, rq := { base := rqBase, size := rqEntries } }

/-- The checks of a queue creation (R326, R328, R353): SUCCESS or the status that refuses it. -/
def sqCreateStatus (s : State) (c : Cmd) (qid entries cqid : Nat) (pc : Bool) : Nat :=
  let x := ctlOf s c.ctl
  if qid = 0 ∨ (penOf s (penOfCtl c.ctl)).queues < qid ∨ thas x.sqs qid then stInvalidQueueId
  else if entries < 2 ∨ 65536 < entries then stInvalidQueueSize
  else if cqid = 0 ∨ !thas x.cqs cqid then stCqInvalid
  else if !pc then stInvalidField
  else stSuccess

def putSq (s : State) (c : Cmd) (qid : Nat) (q : Sq) : State := updCtl s c.ctl fun x => { x with sqs := tput x.sqs qid q }

/-- Create I/O Submission Queue. -/
def execCreateIoSq (c : Cmd) (qid base entries cqid : Nat) (pc : Bool) (s : State) : Res :=
  withAdmin s c fun s =>
    let st := sqCreateStatus s c qid entries cqid pc
    if st != 0 then complete s c st
    else complete (putSq s c qid (newSq base entries cqid false 0 0)) c stSuccess

/-- Create Skex Queue (R328). -/
def execCreateSkexQueue (c : Cmd) (qid base entries cqid rqBase rqEntries : Nat) (pc : Bool) (s : State) : Res :=
  withAdmin s c fun s =>
    let st := sqCreateStatus s c qid entries cqid pc
    if st != 0 then complete s c st
    else if rqEntries < 2 ∨ 65536 < rqEntries then complete s c stInvalidQueueSize
    else complete (putSq s c qid (newSq base entries cqid true rqBase rqEntries)) c stSuccess

/-- Delete I/O Submission Queue, with its record queue (R328). -/
def execDeleteIoSq (c : Cmd) (qid : Nat) (s : State) : Res :=
  withAdmin s c fun s =>
    if qid = 0 ∨ !thas (ctlOf s c.ctl).sqs qid then complete s c stInvalidQueueId
    else sendOwed (complete (deleteSq s c.ctl qid) c stSuccess)

/-- Create I/O Completion Queue (R361: an IV of VECTORS or above). -/
def execCreateIoCq (c : Cmd) (qid base entries iv : Nat) (ien pc : Bool) (s : State) : Res :=
  withAdmin s c fun s =>
    let p := penOf s (penOfCtl c.ctl)
    if qid = 0 ∨ p.queues < qid ∨ thas (ctlOf s c.ctl).cqs qid then complete s c stInvalidQueueId
    else if entries < 2 ∨ 65536 < entries then complete s c stInvalidQueueSize
    else if p.vectors ≤ iv then complete s c stInvalidVector
    else if !pc then complete s c stInvalidField
    else
      let q : Cq := { base := base, size := entries, iv := iv, ien := ien }
      complete (updCtl s c.ctl fun x => { x with cqs := tput x.cqs qid q }) c stSuccess

/-- Delete I/O Completion Queue: refused while a submission queue uses it. -/
def execDeleteIoCq (c : Cmd) (qid : Nat) (s : State) : Res :=
  withAdmin s c fun s =>
    let x := ctlOf s c.ctl
    if qid = 0 ∨ !thas x.cqs qid then complete s c stInvalidQueueId
    else if x.sqs.any (fun q => q.2.cqid == qid) then complete s c stInvalidQueueDeletion
    else complete (updCtl s c.ctl fun x => { x with cqs := tdel x.cqs qid }) c stSuccess

/-- Blocks of a pen's namespace: its window, or the namespace for pen 0 (R325, R327). -/
def penBlocks (s : State) (p : Nat) : Nat := windowLen s p

/-- Mapped units within a pen's window (NUSE, R325). -/
def mappedBlocks (s : State) (p : Nat) : Nat :=
  let x := penOf s p
  sumBy (fun c => (c.2.map.filter fun e =>
    decide (e.1 < 2 ^ 40) && e.2 != mapPoison &&
      decide (x.winBase ≤ unitLba s c.1 e.1 ∧ unitLba s c.1 e.1 < x.winBase + penBlocks s p)).length) s.ftl.chans

/-- A structure of NVMe 2.0 with the fields that the spec fixes put in. -/
def nvmePage (kind idx n : Nat) (fields : List (Nat × List Byte)) : List Byte :=
  fields.foldl (fun b f => patch b f.1 f.2) ((List.range n).map fun i => Config.nvmeByte kind idx i)

/-- CAP of every controller (R325): MQES, CQR, AMS 0, TO, DSTRD 0, the NVM command set, MPSMIN and MPSMAX 0. -/
def capReg : W64 := BitVec.ofNat 64 (0xFFFF + 2 ^ 16 + 0x78 * 2 ^ 24 + 2 ^ 37)
/-- VS of every controller (R325). -/
def vsReg : W32 := 0x00020000

/-- Identify Controller (R325). -/
def identifyController (s : State) (ctl : Nat) : List Byte :=
  nvmePage 0 0 4096
    [(77, le 1 9), (78, le 2 ctl), (80, le 4 vsReg.toNat), (258, le 1 3), (259, le 1 3), (328, le 4 2), (512, le 1 0x66),
     (513, le 1 0x44), (516, le 4 1), (520, le 2 4), (525, le 1 (if s.port.wbSize = 0 then 0 else 1)), (526, le 2 0),
     (528, le 2 0), (536, le 4 0)]

/-- Identify Namespace (R325). -/
def identifyNamespace (s : State) (p : Nat) : List Byte :=
  nvmePage 1 0 4096
    [(0, le 8 (penBlocks s p)), (8, le 8 (penBlocks s p)), (16, le 8 (mappedBlocks s p)), (25, le 1 0), (26, le 1 0),
     (28, le 1 0), (29, le 1 0), (30, le 1 (b2n s.topo.hostSplit)), (33, le 1 1), (128, le 4 (12 * 65536))]

/-- The active namespace list: namespace 1. -/
def identifyList : List Byte := le 4 1 ++ List.replicate 4092 0

/-- The other structures of Identify that NVMe 2.0 asks of an NVM controller, whose bytes the spec does not fix (log 6). -/
def nvmeCns : List Nat := [0x03, 0x05, 0x06, 0x07, 0x08, 0x1C]

/-- Identify (R325). -/
def execIdentify (c : Cmd) (cns : Nat) (prp : List Nat) (s : State) : Res :=
  withAdmin s c fun s =>
    if cns = 0 then complete (prpWrite s (fnPages c prp) (identifyNamespace s (penOfCtl c.ctl))) c stSuccess
    else if cns = 1 then complete (prpWrite s (fnPages c prp) (identifyController s c.ctl)) c stSuccess
    else if cns = 2 then complete (prpWrite s (fnPages c prp) identifyList) c stSuccess
    else if cns ∈ nvmeCns then complete (prpWrite s (fnPages c prp) (nvmePage 5 cns 4096 [])) c stSuccess
    else complete s c stInvalidField

/-- Whether the unit at a score position is usable (R449: 0xFF for one that is not). -/
def scoreUsable (s : State) (i : Nat) : Bool :=
  if i < 64 then tileUsable s i
  else if i < 68 then quadUsable s (i - 64)
  else if i < 88 then stackUsable s (i - 68)
  else if i < 120 then chanUsable s (i - 88)
  else s.topo.flue.getLsbD (i - 120) && !(tget s.flue.ports (i - 120)).dead

/-- The 4,608 bytes of the Vorust health log (R449). -/
def healthPage (s : State) : List Byte :=
  let h := s.health
  let oldest := match h.log with
    | [] => h.events
    | e :: _ => e.seq
  le 2 1 ++ le 1 h.st ++ le 1 h.cause ++ le 4 h.events ++ le 4 oldest ++ le 1 h.nodeScore ++ List.replicate 51 0 ++
  ((List.range 128).flatMap fun i => le 1 (if scoreUsable s i then tgetD h.scores i 0 else 0xFF)) ++
  ((List.range 20).flatMap fun d =>
    le 1 (tgetD h.gb d 0) ++ le 1 (tgetD h.bin d 0) ++ le 2 (tgetD h.minSlack d 0)) ++
  ((List.range 20).flatMap fun n =>
    le 1 (stackOf s n).phyRate ++ le 1 (stackOf s n).eye ++ le 2 (stackOf s n).retrains) ++
  List.replicate 160 0 ++ h.log.flatMap eventBytes ++ List.replicate (4096 - 32 * h.log.length) 0

/-- The Sanitize Status log: the bytes are NVMe 2.0's; the status field (bytes 2 and 3) says in progress (2), completed (1)
or never sanitized (0). -/
def sanitizePage (s : State) : List Byte :=
  nvmePage 4 s.port.sanitized 512
    [(2, le 2 (if s.port.sanitizing.isSome then 2 else if s.port.sanitized = 0 then 0 else 1))]

/-- A log page, or none where the controller has none (R326, R449). The error log holds no entry: M is always 0 (R331). -/
def logPage (s : State) (p lid : Nat) : Option (List Byte) :=
  if lid = 0x01 then some (List.replicate 4096 0)
  else if lid = 0x02 then some (nvmePage 3 0 512 [])
  else if lid = 0x81 then some (sanitizePage s)
  else if lid = 0xC0 ∧ p = 0 then some (healthPage s)
  else none

/-- Get Log Page (R326, R449). A fenced node still answers it for page 0xC0 (R442). -/
def execGetLogPage (c : Cmd) (lid offset length : Nat) (prp : List Nat) (s : State) : Res :=
  let f (s : State) : State :=
    match logPage s (penOfCtl c.ctl) lid with
    | none => complete s c stInvalidLogPage
    | some b => complete (prpWrite s (fnPages c prp) (sub b offset length)) c stSuccess
  match sqOf (ctlOf s c.ctl) c.sq with
  | some q =>
    if s.health.st = 2 ∧ lid = 0xC0 ∧ penOfCtl c.ctl = 0 ∧ c.sq = 0 ∧ sqPending q then .next (f (doFetch s c q.fetched))
    else withAdmin s c f
  | none => .next s

/-- Abort (R348): "command not aborted". -/
def execAbort (c : Cmd) (s : State) : Res := withAdmin s c fun s => complete s c stSuccess 1

/-- The two queue counts of the Number of Queues feature: QUEUES − 1 in each half. -/
def queueCounts (s : State) (c : Cmd) : Nat := let q := (penOf s (penOfCtl c.ctl)).queues - 1; q + 65536 * q

/-- Set Features (R326): the Volatile Write Cache from pen 0 only, node-wide. -/
def execSetFeatures (c : Cmd) (fid : Nat) (value : W32) (s : State) : Res :=
  withAdmin s c fun s =>
    if fid = 0x01 then complete (updCtl s c.ctl fun x => { x with arbitration := value }) c stSuccess
    else if fid = 0x06 then
      if penOfCtl c.ctl = 0 then complete { s with port := { s.port with wce := value.getLsbD 0 } } c stSuccess
      else complete s c stInvalidField
    else if fid = 0x07 then complete s c stSuccess (queueCounts s c)
    else if fid = 0x0B then complete (updCtl s c.ctl fun x => { x with aec := value }) c stSuccess
    else complete s c stInvalidField

/-- Get Features (R326). -/
def execGetFeatures (c : Cmd) (fid : Nat) (s : State) : Res :=
  withAdmin s c fun s =>
    let x := ctlOf s c.ctl
    if fid = 0x01 then complete s c stSuccess x.arbitration.toNat
    else if fid = 0x06 then complete s c stSuccess (b2n s.port.wce)
    else if fid = 0x07 then complete s c stSuccess (queueCounts s c)
    else if fid = 0x0B then complete s c stSuccess x.aec.toNat
    else complete s c stInvalidField

/-- Asynchronous Event Request: kept until an event (R448); AERL 3 allows four (R325). -/
def execAsynchronousEventRequest (c : Cmd) (s : State) : Res :=
  withAdmin s c fun s =>
    if 4 ≤ (ctlOf s c.ctl).aers.length then complete s c stAerLimit
    else
      let s := updCtl s c.ctl fun x => { x with aers := x.aers ++ [c] }
      { s with port := { s.port with live := s.port.live.filter fun l => l.cmd != c } }

/-- Whether any pen holds an open flash-resident index or a region (R346). -/
def flashHeld (s : State) : Bool :=
  s.pens.any fun p => p.2.objects.any fun o => match o.2.kind with
    | .index x => x.desc.flash
    | .region _ _ => true
    | _ => false

/-- Sanitize (R346): block erase, from pen 0, only while no pen holds an open flash-resident index or a region. It completes
when it has begun, as NVMe 2.0 has it; SANITIZE_END ends it. -/
def execSanitize (c : Cmd) (action : Nat) (s : State) : Res :=
  withAdmin s c fun s =>
    if s.port.sanitizing.isSome then complete s c stSanitizeInProgress
    else if action ≠ 2 then complete s c stInvalidField
    else if penOfCtl c.ctl ≠ 0 ∨ flashHeld s then complete s c stCommandSequenceError
    else
      let s := { s with
        port := { s.port with sanitizing := some c }
        ftl := { s.ftl with chans := tmap s.ftl.chans fun _ ch =>
          if ch.usable then { ch with media := { ch.media with sanitizing := true } } else ch } }
      complete s c stSuccess

/-- A block erased by a sanitize: its wear counts, its contents gone. -/
def sanitizeBlock (b : Block) : Block :=
  if b.st = .retired then b
  else { b with
    st := if b.st = .anchor then .anchor else .free
    native := if b.pslc then b.native else b.native + 1
    pslcErases := if b.pslc then b.pslcErases + 1 else b.pslcErases
    wp := 0, reads := 0, relocate := false, summary := false }

/-- A channel after a sanitize: every block not in the Ashpit erased, every space gone (R346). -/
def sanitizeChan (hist : Tab Nat) (maxFmt : Nat) (ch : Chan) : Chan :=
  if ch.media.sanitizing then
    { ch with
      media := { ch.media with
        blocks := tmap ch.media.blocks fun _ b => sanitizeBlock b, sectors := [], journal := [], sanitizing := false
        ckpt := some { seq := ch.seq, map := [], blocks := tmap ch.media.blocks fun _ b => sanitizeBlock b, freeOrder := []
                       ashpit := ch.ashpit, levels := ch.levels, hist := hist, maxFmt := maxFmt } }
      map := [], mapSeq := [], vers := [], page := [], ops := [], jstage := [], jpages := [], moves := [], collecting := [], ckptBusy := none }
  else ch

/-- The end of a sanitize (R346): everything erased, the namespace formed anew over the usable channels (R471). -/
def execSanitizeEnd (s : State) : Res :=
  actWhen s.port.sanitizing.isSome s
    (let s := { s with
      ftl := { s.ftl with chans := tmap s.ftl.chans fun c ch => sanitizeChan (tget s.ftl.hist (c / 8)) (tgetD s.ftl.maxFmt (c / 8) 0) ch, stores := [] }
      port := { s.port with sanitizing := none, sanitized := s.port.sanitized + 1, wb := [] } }
    formNamespace s)

/-- Opcodes of R326 and R333. -/
def adminOpcodes : List Nat := [0x00, 0x01, 0x02, 0x04, 0x05, 0x06, 0x08, 0x09, 0x0A, 0x0C, 0x84, 0xC0]
def ioOpcodes : List Nat := [0x00, 0x01, 0x02, 0x09]
def skexOpcodes : List Nat := [0x80, 0x84, 0x85, 0x88, 0x8C, 0x90, 0x95]
/-- Whether an opcode is one that the command's queue accepts. -/
def opcodeKnown (s : State) (c : Cmd) (opcode : Nat) : Bool :=
  if isIoCmd c then decide (opcode ∈ ioOpcodes) || (onSkex s c && decide (opcode ∈ skexOpcodes)) else decide (opcode ∈ adminOpcodes)

/-- A command with an opcode that its queue does not accept (R326, R328, R333). -/
def execInvalidCommandOpcode (c : Cmd) (opcode : Nat) (s : State) : Res :=
  if opcodeKnown s c opcode then .next s else withCmd s c fun s _ => complete s c stInvalidOpcode

end Sys2Proof.Machine
end

