-- ==== Sys2Proof/Machine/Select.lean ====
section
/-!
DEFINITION. Selection (04): keys, result order, duplicates, the result buffer, and the MERGE task.
-/

namespace Sys2Proof.Machine

/-- The key of a float score (R114). -/
def floatKey (b : W32) : Nat :=
  if f32IsNan b then 0xFFFF
  else
    let v := if b = 0x80000000 then 0 else b.toNat
    (if v < 2 ^ 31 then v + 2 ^ 31 else 2 ^ 32 - 1 - v) / 65536

/-- A float SCORE field (R115). -/
def scoreField (b : W32) : W32 := if f32IsNan b then 0x7FC00000 else if b = 0x80000000 then 0 else b

/-- Result order: ascending (key, tie rank), R116. -/
def hitLt (a b : Hit) : Bool :=
  decide (a.key < b.key) || (a.key == b.key && decide ((Config.tieRank a.id).toNat < (Config.tieRank b.id).toNat))

/-- Whether a copy of an ID replaces the one that a list holds (R118): a smaller key; within one QUERY the copies of one key
are told apart by slot, so that the choice does not depend on arrival. -/
def replacesHit (new old : Hit) : Bool :=
  decide (new.key < old.key) || (new.key == old.key && decide (new.slot < old.slot))

/-- One entry offered to a selection of at most n entries (R117 to R119). -/
def offer (n : Nat) (l : List Hit) (h : Hit) : List Hit :=
  match l.find? (fun x => x.id == h.id) with
  | some old => if replacesHit h old then insSorted hitLt h (l.filter fun x => x.id != h.id) else l
  | none => (insSorted hitLt h l).take n

/-- The n best distinct entries of a list of offers in input order (R117, R118): of equal keys the earliest input counts. -/
def select (n : Nat) (l : List Hit) : List Hit :=
  let reps := l.foldl (fun acc h => match acc.find? (fun (x : Hit) => x.id == h.id) with
    | some old => if h.key < old.key then insSorted hitLt h (acc.filter fun x => x.id != h.id) else acc
    | none => insSorted hitLt h acc) []
  reps.take n

/-- A result record (R111) and a fill record (R112). -/
def hitBytes (h : Hit) : List Byte := le 8 h.id.toNat ++ le 4 h.score.toNat ++ le 2 h.source ++ le 2 0
def fillBytes (kind : Nat) : List Byte :=
  le 8 0xFFFFFFFFFFFFFFFF ++ le 4 (if kind = 0 then 0xFFFF else 0x7F800000) ++ le 2 0xFFFF ++ le 2 1

/-- A whole result buffer of K records (R110). -/
def resultBuf (kind k : Nat) (l : List Hit) : List Byte :=
  let l := l.take k
  le 4 l.length ++ le 4 k ++ le 1 kind ++ List.replicate 7 0 ++ l.flatMap hitBytes ++
    (List.replicate (k - l.length) (fillBytes kind)).flatMap id

/-- The valid records of a result buffer: records 0 to COUNT − 1 but those of the fill ID (R125), with keys of its KIND. No rule says what
becomes of SCORE[31:16] under KIND 0 and of SOURCE[15:10] when an input has them set: the model hands them on unchanged (DESIGN CHOICE,
log 148). -/
def hitsOf (b : List Byte) : List Hit :=
  let kind := fieldAt b 8 1
  ((List.range (fieldAt b 0 4)).map fun i =>
    let o := 16 + 16 * i
    let sc := BitVec.ofNat 32 (fieldAt b (o + 8) 4)
    { key := if kind = 0 then sc.toNat % 65536 else floatKey sc, id := BitVec.ofNat 64 (fieldAt b o 8)
      score := if kind = 0 then sc else scoreField sc, source := fieldAt b (o + 12) 2, slot := 0 : Hit }).filter
    fun h => h.id != 0xFFFFFFFFFFFFFFFF

/-- A result buffer read from an operand: its header gives its length. -/
def readResults (s : State) (g : Graph) (op : OpRef) : Rd :=
  match readOp s g.pen (some g) op 0 16 with
  | .err e => .err e
  | .ok h => readOp s g.pen (some g) op 0 (16 + 16 * fieldAt h 0 4)

/-- Several result buffers read in order. -/
def readAll (s : State) (g : Graph) : List OpRef → Nat × List (List Byte)
  | [] => (0, [])
  | o :: r => match readResults s g o with
    | .err e => (e, [])
    | .ok b => let x := readAll s g r; (x.1, b :: x.2)

/-- Whether the COUNT of an input of a MERGE is more than its buffer holds (R128). -/
def countBeyond (s : State) (g : Graph) (k : Task) (i : Nat) : Bool :=
  (dataLen s g k (rest (opd k i))).any fun n => !opFits s g (opd k i) n

/-- Selection mode by K (R122): 0 tile, 1 quad, 2 stream. -/
def selectMode (k : Nat) : Nat := if k ≤ 1024 then 0 else if k ≤ 65536 then 1 else 2

/-! The select unit (R120 to R122). -/

/-- Held entries by bucket of 2^w keys from the base key on. -/
def bucketCounts (w base : Nat) (l : List Hit) : Tab Nat := l.foldl (fun t h => tmod t ((h.key - base) / 2 ^ w) (· + 1)) []

/-- Halvings of w while the threshold lies in the lowest quarter of the bucket range, by fuel; the base moves so that the range ends at
the threshold or starts at 0 (R121 does not say where: log 147). -/
def narrow : Nat → SelUnit → SelUnit
  | 0, u => u
  | f + 1, u =>
    if u.w = 0 ∨ u.base + 64 * 2 ^ u.w ≤ u.theta then u
    else narrow f { u with w := u.w - 1, base := u.theta + 1 - 256 * 2 ^ (u.w - 1) }

/-- The unit after its owner's offers have brought the list to l: loaded afresh when another owned it; the key of the K-th entry is the
threshold, 0xFFFF before there is one (R121). Its latches hold 1,024 entries. -/
def latched (u : SelUnit) (t : TaskId) (n : Nat) (l : List Hit) : SelUnit :=
  let start : SelUnit := if u.owner = some t then u else {}
  let v := narrow 8 { start with owner := some t, list := l.take 1024, theta := if n ≤ l.length then ((l.drop (n - 1)).head?.map (·.key)).getD 0xFFFF else 0xFFFF }
  { v with counts := bucketCounts v.w v.base v.list }

/-- The list of a selection of n entries where its mode keeps it (R122): in the select unit of its tile, in the stores of its quad, or in
bucket runs in the pool. -/
def keepList (s : State) (t : TaskId) (k : Task) (n : Nat) (l : List Hit) : State :=
  if selectMode n = 0 then updTile s k.unitNo fun x => { x with sel := latched x.sel t n l }
  else updQuad s k.quad fun x => { x with selLists := (x.selLists.filter fun y => y.1 != t) ++ [(t, l)] }

/-- The final pass (R122): what a selection's stores hold, in result order, cut to n. -/
def finalPass (s : State) (t : TaskId) (k : Task) (n : Nat) (l : List Hit) : List Hit :=
  if selectMode n = 0 then l.take n
  else match (quadOf s k.quad).selLists.find? fun y => y.1 == t with
    | some y => y.2.take n
    | none => l.take n

/-- The result buffer of a selection written (R110): its list kept, then read by the final pass. -/
def writeResults (s : State) (t : TaskId) (g : Graph) (k : Task) (op : OpRef) (kind n : Nat) (l : List Hit) : State :=
  let s := keepList s t k n l
  writeOp s t g.pen k.quad (some g) op 0 (resultBuf kind n (finalPass s t k n l))

/-- MERGE (R125, R126): the K best of up to five result buffers. A COUNT beyond a buffer leaves the output unpredictable, and inputs of
different KIND its order and scores, COUNT and K apart (R128). -/
def execMerge (t : TaskId) (s : State) : Res :=
  match running s t 0x11 (some 0) with
  | none => .next s
  | some (g, k) =>
    let kk := par k 0 32
    let n := par k 32 3
    if kk = 0 ∨ n = 0 ∨ 5 < n ∨ par k 35 29 ≠ 0 then .next (unpredictable s t g [(opd k 5, resultBytes kk)])
    else if (List.range n).any (countBeyond s g k) then
      let r := drawTag (smudgeOp (modTask s t fun k => { k with wrote := true }) g.pen (some g) (opd k 5) 0 (resultBytes kk))
      .next (finishTask r.2 t stSuccess (Config.freeWord r.1).toNat)
    else
      let r := readAll s g ((List.range n).map (opd k))
      if r.1 != 0 then .next (readFailed s t g k r.1)
      else
        let kinds := r.2.map fun b => fieldAt b 8 1
        let hits := select kk (r.2.flatMap hitsOf)
        if kinds.any (fun x => x != kinds.headD 0 || decide (1 < x)) then
          let s := smudgeOp s g.pen (some g) (opd k 5) 0 (resultBytes kk)
          .next (finishTask (writeOp s t g.pen k.quad (some g) (opd k 5) 0 (le 4 hits.length ++ le 4 kk)) t stSuccess hits.length)
        else .next (finishTask (writeResults s t g k (opd k 5) (kinds.headD 0) kk hits) t stSuccess hits.length)

end Sys2Proof.Machine
end

