-- ==== Sys2Proof/Machine/Walk.lean ====
section
/-!
DEFINITION. The walks of a proximity graph on plain data: distances (R92), eligibility (R89, R90), the upper descent (R93), the
memory-resident base walk (R94), the flash-resident walk (R96, R97), the rerank's scores (R99), the walk report (R100).
-/

namespace Sys2Proof.Machine

/-- The 1 bits among the lowest bits of a value, by count of bits. -/
def popBits : Nat → Nat → Nat
  | 0, _ => 0
  | f + 1, v => v % 2 + popBits f (v / 2)

/-- Hamming distance of two codes of w bits (R92). -/
def hamming (w a b : Nat) : Nat := popBits w (a ^^^ b)

/-- Key order: (distance, slot) ascending (R92). -/
def keyLt (a b : Key) : Bool := decide (a.1 < b.1) || (a.1 == b.1 && decide (a.2 < b.2))

/-- What a walk reads: the descriptor, the index at one epoch, the query code, the parameters, the node's ID, and the number of
the task for what R109 leaves unpredictable. -/
structure WCtx where
  d : Desc
  sn : Snap
  code : Nat
  p : QParams
  node : Nat
  tag : Nat
deriving DecidableEq, Repr

/-- A term that R109 does not leave unpredictable. -/
def termOk (d : Desc) (t : Term) : Bool :=
  decide (t.start + t.width ≤ 8 * d.attrBytes ∧ 1 ≤ t.width ∧ t.width ≤ 64 ∧ t.op ≤ 7 ∧ t.value < 2 ^ t.width)

/-- A filter term on a slot's attributes (R89). -/
def termHolds (attr : Nat) (t : Term) : Bool :=
  let f := bits attr t.start t.width
  let r : Bool := match t.op with
    | 0 => f == t.value
    | 1 => f != t.value
    | 2 => decide (f < t.value)
    | 3 => decide (f ≤ t.value)
    | 4 => decide (t.value < f)
    | 5 => decide (t.value ≤ f)
    | 6 => (f &&& t.value) != 0
    | _ => (f &&& t.value) == t.value
  r != t.neg

/-- Whether a slot passes the filter (R88, R89); a bad term leaves it open which slots pass (R109, log 14). -/
def passes (c : WCtx) (slot attr : Nat) : Bool :=
  if c.p.terms.isEmpty then true
  else if !c.p.terms.all (termOk c.d) then Config.freeBool (2 ^ 40 * c.tag + slot)
  else if c.p.mode = 0 then c.p.terms.all (termHolds attr)
  else c.p.terms.any (termHolds attr)

/-- The key of a slot (R92). -/
def slotKey (c : WCtx) (n : Nat) : Key := (hamming (codeBits c.d) (((tget? c.sn.slots n).map (·.code)).getD 0) c.code, n)

/-- The base-layer neighbours of a slot. -/
def adjOf (c : WCtx) (n : Nat) : List Nat := ((tget? c.sn.slots n).map (·.adj)).getD []

/-- Eligibility at the query's epoch (R90). -/
def eligible (c : WCtx) (n : Nat) : Bool := match tget? c.sn.slots n with
  | some r => !r.tomb && passes c n r.attr
  | none => false

/-- The result entry of a scored slot. -/
def hitOf (c : WCtx) (k : Key) : Hit :=
  { key := k.1, id := ((tget? c.sn.slots k.2).map (·.id)).getD 0, score := BitVec.ofNat 32 k.1, source := c.node, slot := k.2 }

/-- A scored slot offered to the result list, which keeps what K and RERANK ask for (R94, R99). -/
def addHit (c : WCtx) (l : List Hit) (k : Key) : List Hit :=
  if eligible c k.2 then offer (max c.p.k c.p.rerank) l (hitOf c k) else l

/-! Upper layers (R82, R93). -/

def upperOf (c : WCtx) (l r : Nat) : Option Upper := tget? (tget c.sn.upper l) r
/-- The key of a record of an upper layer: its slot's. -/
def recKey (c : WCtx) (l r : Nat) : Key := slotKey c (((upperOf c l r).map (·.slot)).getD nullSlot)

/-- The descent within one layer (R93), by fuel: from a record and its key; the record it stops at, its key, and the comparisons
made, one for each neighbour of each record it comes to (R100). -/
def greedy (c : WCtx) (l : Nat) : Nat → Nat → Key → Nat → Nat × Key × Nat
  | 0, r, k, n => (r, k, n)
  | f + 1, r, k, n =>
    let nbs := ((upperOf c l r).map (·.nbr)).getD []
    let best := (nbs.map fun x => (x, recKey c l x)).foldl (fun (b : Nat × Key) x => if keyLt x.2 b.2 then x else b) (r, k)
    if best.1 = r then (r, k, n + nbs.length) else greedy c l f best.1 best.2 (n + nbs.length)

/-- The descent from a layer down to and with another (R93), by the number of layers; the record reached there. -/
def descend (c : WCtx) (lo : Nat) : Nat → Nat → Nat → Key → Nat → Nat × Key × Nat
  | 0, _, r, k, n => (r, k, n)
  | f + 1, l, r, k, n =>
    let g := greedy c l ((tget c.sn.upper l).length + 1) r k n
    if l ≤ lo then g
    else descend c lo f (l - 1) (((upperOf c l g.1).map (·.down)).getD 0) g.2.1 g.2.2

/-! The base walk (R94). -/

/-- Insertion into C; what it pushes out goes to O when unexpanded (R94). -/
def insertCand (b : Beam) (t : Key) : Beam :=
  let c := insSorted (fun (x y : Key × Bool) => keyLt x.1 y.1) (t, false) b.cand
  match c.drop b.list with
  | [] => { b with cand := c }
  | (k, e) :: _ =>
    { b with cand := c.take b.list, ovf := if e then b.ovf else (insSorted keyLt k b.ovf).take 65536 }

/-- One slot expanded: marked in C or taken out of O; its new neighbours are scored and enter C. -/
def expandOne (adj : Nat → List Nat) (key : Nat → Key) (x : Beam × List Key) (f : Key) : Beam × List Key :=
  let b := x.1
  let b := { b with
    cand := b.cand.map fun e => if e.1 = f then (f, true) else e
    ovf := without b.ovf f
    exp := b.exp + 1 }
  (adj f.2).foldl (fun (y : Beam × List Key) n =>
    if n = nullSlot ∨ n ∈ y.1.seen then y
    else
      let t := key n
      (insertCand { y.1 with seen := y.1.seen ++ [n] } t, y.2 ++ [t])) (b, x.2)

/-- The members of a round, fixed when it starts (R94): the n unexpanded entries of C with the smallest keys. -/
def roundSet (b : Beam) (n : Nat) : List Key := ((b.cand.filter fun e => !e.2).map (·.1)).take n

/-- A round: its members expanded in key order; the beam and the keys newly scored. -/
def beamRound (adj : Nat → List Nat) (key : Nat → Key) (b : Beam) (fs : List Key) : Beam × List Key :=
  let r := fs.foldl (expandOne adj key) (b, [])
  ({ r.1 with rounds := r.1.rounds + 1 }, r.2)

/-- Widening (R94). -/
def widen (b : Beam) : Beam :=
  let l := min (2 * b.list) 4096
  let pool := sortBy keyLt ((b.cand.filter fun e => !e.2).map (·.1) ++ b.ovf)
  { b with list := l, cand := (pool.take l).map fun k => (k, false), ovf := pool.drop l }

/-- EXPAND_BUDGET, 0 meaning 16 × LIST (R88). -/
def budgetOf (p : QParams) : Nat := if p.budget = 0 then 16 * p.list else p.budget
/-- Whether MAX_ROUNDS is reached; 0 is no limit (R88). -/
def roundsUp (p : QParams) (n : Nat) : Bool := p.maxRounds != 0 && decide (p.maxRounds ≤ n)

/-- One turn of the loop of R94: a round, a widening, or the end. -/
def memStep (c : WCtx) (w : Walk) : Walk :=
  let b := w.beam
  let be := decide (budgetOf c.p ≤ b.exp)
  let re := roundsUp c.p b.rounds
  if be || re then { w with ended := true, budgetEnd := be, roundsEnd := re }
  else
    let fs := roundSet b (min c.p.beam (budgetOf c.p - b.exp))
    if fs.isEmpty then
      if decide (c.p.k ≤ w.results.length) || b.ovf.isEmpty then { w with ended := true }
      else { w with
        beam := widen b
        counts := { w.counts with widenings := w.counts.widenings + (if b.list < 4096 then 1 else 0) } }
    else
      let r := beamRound (adjOf c) (slotKey c) b fs
      { w with
        beam := r.1
        results := r.2.foldl (addHit c) w.results
        counts := { w.counts with
          rounds := w.counts.rounds + 1, expansions := w.counts.expansions + fs.length
          scored := w.counts.scored + r.2.length } }

/-- The start of a memory-resident walk: the descent to layer 1, then the base entry (R93, R94). -/
def memStart (c : WCtx) (w : Walk) (e : Nat) : Walk :=
  let start : Key × Nat :=
    if c.sn.top = 0 then (slotKey c e, 1)
    else let g := descend c 1 c.sn.top c.sn.top e (recKey c c.sn.top e) 1; (g.2.1, g.2.2)
  { w with
    list := c.p.list
    beam := { list := c.p.list, cand := [(start.1, false)], seen := [start.1.2] }
    results := addHit c [] start.1
    counts := { w.counts with scored := start.2 } }

/-! The flash-resident walk (R96, R97). -/

/-- The channel of an index page (R85). -/
def pageChan (d : Desc) (p : Nat) : Nat :=
  let l := (List.range 32).filter fun c => d.channelMask.getLsbD c
  nth l (p % max l.length 1) 0
/-- The unit of an index page's first sector in its space: pages are numbered over the mask's channels (R85, R289). -/
def pageUnit (d : Desc) (p : Nat) : Nat := 4 * (p / max (popBits 32 d.channelMask.toNat) 1)
def slotPage (n : Nat) : Nat := n / 64
/-- Set bits of CHANNEL_MASK (R85). -/
def maskChans (d : Desc) : Nat := max (popBits 32 d.channelMask.toNat) 1
/-- VB of R290: a vector's size rounded up to a power of two, between 512 B and 16 KiB. -/
def vecSlot (d : Desc) : Nat := (([512, 1024, 2048, 4096, 8192].find? fun n => decide (vecBytes d ≤ n))).getD 16384
/-- The flash page of the vector region, on its channel, that holds a slot's vector (R290). -/
def vecGroup (d : Desc) (n : Nat) : Nat := (64 * vecSlot d * (slotPage n / maskChans d) + n % 64 * vecSlot d) / 16384
/-- The first unit of that page: the vector region follows the pages of the channel (R290 gives no order of the regions, log 69). -/
def vecUnit (d : Desc) (n : Nat) : Nat := 4 * (ceilDiv d.capacity (maskChans d) + vecGroup d n)
/-- A vector read's number among the pages that an engine reads: above every index page's. -/
def vecPage (n : Nat) : Nat := 2 ^ 34 + n
def slotChan (d : Desc) (n : Nat) : Nat := pageChan d (slotPage n)

/-- A pending slot kept with a key; an engine keeps the 1,024 smallest (R97, R98). -/
def putPend (e : EngState) (k : Key) : EngState :=
  { e with pend := (insSorted keyLt k (e.pend.filter fun x => x.2 != k.2)).take 1024 }

/-- T of R97. -/
def threshold (w : Walk) : Nat := if w.list ≤ w.best.length then (nth w.best (w.list - 1) (0xFFFF, 0)).1 else 0xFFFF

/-- A hop received (R97, step 4). -/
def hopIn (e : EngState) (k : Key) : EngState :=
  if k.2 ∈ e.scored ∨ k.2 ∈ e.expanded then e
  else match e.pend.find? (fun x => x.2 == k.2) with
    | some old => if k.1 < old.1 then putPend e k else e
    | none => putPend e k

/-- The nodes of layer 1 by slot: a record's neighbours as slots (R96). -/
def adjUpper (c : WCtx) (l n : Nat) : List Nat :=
  match (tget c.sn.upper l).find? (fun r => r.2.slot == n) with
  | none => []
  | some r => r.2.nbr.filterMap fun x => (upperOf c l x).map (·.slot)

/-- R94 run without widening and without a result list, by fuel: the beam and the comparisons made. -/
def plainWalk (adj : Nat → List Nat) (key : Nat → Key) (beam budget : Nat) : Nat → Beam → Nat → Beam × Nat
  | 0, b, n => (b, n)
  | f + 1, b, n =>
    if budget ≤ b.exp then (b, n)
    else
      let fs := roundSet b (min beam (budget - b.exp))
      if fs.isEmpty then (b, n)
      else let r := beamRound adj key b fs; plainWalk adj key beam budget f r.1 (n + r.2.length)

/-- ENTRY, 0 meaning BEAM (R88). -/
def entryOfP (p : QParams) : Nat := if p.entry = 0 then p.beam else p.entry

/-- The start of a flash-resident walk (R96): the descent to layer 2, the layer-1 walk, the base entries seeded. With top layer 0 the
one base entry is seeded with its distance, which counts no comparison (the model's choice, log 77). -/
def flashStart (c : WCtx) (w : Walk) (e : Nat) : Walk :=
  let en := entryOfP c.p
  let seeds : List Key × Nat :=
    if c.sn.top = 0 then ([slotKey c e], 0)
    else
      let at1 : Key × Nat :=
        if c.sn.top = 1 then (recKey c 1 e, 1)
        else let g := descend c 2 c.sn.top c.sn.top e (recKey c c.sn.top e) 1; (g.2.1, g.2.2)
      let b : Beam := { list := 4 * en, cand := [(at1.1, false)], seen := [at1.1.2] }
      let r := plainWalk (adjUpper c 1) (slotKey c) en (64 * en) (64 * en + 1) b at1.2
      ((r.1.cand.map (·.1)).take en, r.2)
  { w with
    flash := true, list := c.p.list, counts := { w.counts with scored := seeds.2 }
    engines := seeds.1.foldl (fun t k => tmod t (slotChan c.d k.2) fun e => putPend e k) w.engines }

/-- The chosen slots of the next round (R97, step 1). -/
def flashOffers (c : WCtx) (w : Walk) : List Key :=
  let t := threshold w
  let all := w.engines.flatMap fun e => (e.2.pend.filter fun k => decide (k.1 ≤ t)).take c.p.beam
  (sortBy keyLt all).take (min c.p.beam (budgetOf c.p - w.counts.expansions))

/-- Chosen slots by page (R97, step 2). -/
def pagesOf (l : List Key) : List (Nat × List Nat) :=
  let ps := (l.map fun k => slotPage k.2).foldl addNew []
  ps.map fun p => (p, (l.filter fun k => slotPage k.2 == p).map (·.2))

/-- A round started, or the walk widened or ended (R97). -/
def flashBegin (c : WCtx) (w : Walk) : Walk :=
  let be := decide (budgetOf c.p ≤ w.counts.expansions)
  let re := roundsUp c.p w.counts.rounds
  if be || re then { w with ended := true, budgetEnd := be, roundsEnd := re }
  else
    let l := flashOffers c w
    if l.isEmpty then
      if decide (c.p.k ≤ w.results.length) || (w.engines.all fun e => e.2.pend.isEmpty) || w.list == 4096 then { w with ended := true }
      else { w with list := min (2 * w.list) 4096, counts := { w.counts with widenings := w.counts.widenings + 1 } }
    else
      let ps := pagesOf l
      { w with
        roundOpen := true
        counts := { w.counts with rounds := w.counts.rounds + 1, pages := w.counts.pages + ps.length }
        engines := ps.foldl (fun t p => tmod t (pageChan c.d p.1) fun e => { e with todo := e.todo ++ [(p.1, p.2, false)] }) w.engines }

/-- A page read and decoded is scored and expanded, and its hops are sent (R97, step 3). -/
def flashExpand (c : WCtx) (w : Walk) (ch page : Nat) (chosen : List Nat) : Walk :=
  let e := tget w.engines ch
  let t := threshold w
  let keys := (c.sn.slots.filter fun x => slotPage x.1 == page).map fun x => slotKey c x.1
  let fresh := keys.filter fun k => !(k.2 ∈ e.scored)
  let ex := keys.filter fun k => !(k.2 ∈ e.expanded) && (decide (k.2 ∈ chosen) || decide (k.1 < t))
  let gone := ex.map (·.2) ++ chosen
  let e := { e with
    scored := e.scored ++ fresh.map (·.2), expanded := e.expanded ++ ex.map (·.2)
    pend := e.pend.filter fun k => !(k.2 ∈ gone)
    todo := e.todo.filter fun d => d.1 != page }
  let e := (fresh.filter fun k => !(k.2 ∈ gone)).foldl putPend e
  let hops : List Key := ex.flatMap fun k => ((adjOf c k.2).filter fun n => n != nullSlot).map fun n => (k.1, n)
  let eng := hops.foldl (fun t k => tmod t (slotChan c.d k.2) fun e => { e with hops := e.hops ++ [k] }) (tput w.engines ch e)
  { w with
    engines := eng
    counts := { w.counts with expansions := w.counts.expansions + ex.length, scored := w.counts.scored + fresh.length }
    returns := w.returns ++ fresh.map fun k =>
      (k, ((tget? c.sn.slots k.2).map (·.id)).getD 0, passes c k.2 (((tget? c.sn.slots k.2).map (·.attr)).getD 0)) }

/-- Whether a round's pages are all read and its hops acknowledged (R97, step 5). -/
def roundDone (w : Walk) : Bool := w.engines.all fun e => e.2.todo.isEmpty && e.2.hops.isEmpty

/-- The returns merged into S and the eligible ones into R (R97, step 6). -/
def flashMerge (c : WCtx) (w : Walk) : Walk :=
  { w with
    best := w.returns.foldl (fun l r => insSorted keyLt r.1 l) w.best
    results := w.returns.foldl (fun l r => addHit c l r.1) w.results
    returns := [], roundOpen := false }

/-- A whole round run at once: every page expanded, every hop received, the returns merged. -/
def flashRound (c : WCtx) (w : Walk) : Walk :=
  let w := flashBegin c w
  let pages := w.engines.flatMap fun e => e.2.todo.map fun d => (e.1, d)
  let w := pages.foldl (fun w x => flashExpand c w x.1 x.2.1 x.2.2.1) w
  flashMerge c { w with engines := tmap w.engines fun _ e => e.hops.foldl hopIn { e with hops := [] } }

/-- A walk run to its end, by fuel. -/
def runWalk (c : WCtx) : Nat → Walk → Walk
  | 0, w => w
  | f + 1, w => if w.ended then w else runWalk c f (if w.flash then flashRound c w else memStep c w)

/-! Rerank (R99). -/

/-- The fp32 elements of a full-precision vector. -/
def vecElems (d : Desc) (b : List Byte) : List W32 :=
  if d.vecFmt = 0 then (chunks 4 b).map fun x => BitVec.ofNat 32 (ofLe x)
  else (chunks 2 b).map fun x => toF32 (fBf16.decode (ofLe x))

/-- The sum of products in the fixed order (R99). -/
def dotOrdered (a b : List W32) : W32 := sumOrdered ((a.zip b).map fun x => f32Mul x.1 x.2)

/-- The score of R99: a zero norm under cosine gives NaN. -/
def rerankScore (metric : Nat) (a b : List W32) : W32 :=
  if metric = 0 then f32Neg (dotOrdered a b)
  else if metric = 1 then sumOrdered ((a.zip b).map fun x => let t := f32Sub x.1 x.2; f32Mul t t)
  else
    let na := f32Sqrt (dotOrdered a a)
    let nb := f32Sqrt (dotOrdered b b)
    if na.toNat % 2 ^ 31 = 0 ∨ nb.toNat % 2 ^ 31 = 0 then 0x7FC00000
    else f32Sub 0x3F800000 (f32Div (dotOrdered a b) (f32Mul na nb))

/-- The first r entries in result order scored against a query vector, the K best kept in float order (R99). -/
def rerankHits (c : WCtx) (qv : List Byte) (l : List Hit) : List Hit :=
  let q := vecElems c.d qv
  let scored := (l.take c.p.rerank).map fun h =>
    let v := rerankScore c.d.metric (vecElems c.d (((tget? c.sn.slots h.slot).map (·.vec)).getD [])) q
    { h with key := floatKey v, score := scoreField v }
  (sortBy hitLt scored).take c.p.k

/-! Outputs (R95, R100). -/

/-- FILTER_SHORT or SUCCESS (R95). -/
def walkStatus (p : QParams) (found : Nat) : Nat := if !p.terms.isEmpty && decide (found < p.k) then stFilterShort else stSuccess

def sat32n (n : Nat) : Nat := min n 0xFFFFFFFF

/-- The first 64 bytes of a walk report (R100). -/
def reportBytes (epoch : Nat) (budgetEnd roundsEnd short : Bool) (c : Counts) (found : Nat) : List Byte :=
  le 6 epoch ++ le 2 (b2n budgetEnd + 2 * b2n roundsEnd + 4 * b2n short) ++ le 4 (sat32n c.rounds) ++ le 4 (sat32n c.expansions) ++
    le 4 (sat32n c.scored) ++ le 4 (sat32n c.pages) ++ le 4 (sat32n c.widenings) ++ le 4 found ++ List.replicate 32 0

end Sys2Proof.Machine
end

