-- ==== Sys2Proof/Machine/Index.lean ====
section
/-!
DEFINITION. An index as plain data (05): levels (R78), insertion (R141 to R144), deletion (R145), the repair sweep (R146, R147), the
update log and its application (R136 to R138), the crown (R83), the bales that an index takes (R140), and index pages (R84).
-/

namespace Sys2Proof.Machine

/-- Trailing zero bits of a value, by count of bits. -/
def tzBits : Nat → Nat → Nat
  | 0, _ => 0
  | f + 1, v => if v % 2 = 1 then 0 else 1 + tzBits f (v / 2)

/-- The level of a vector ID (R78). -/
def levelOf (d : Desc) (id : W64) : Nat :=
  let h := ofLe (shake256 (le 8 id.toNat) 8)
  min 7 (tzBits 64 h / max d.levelShift 1)

def codeAt (sn : Snap) (n : Nat) : Nat := ((tget? sn.slots n).map (·.code)).getD 0
def tombAt (sn : Snap) (n : Nat) : Bool := (tget? sn.slots n).any (·.tomb)
def liveSlots (sn : Snap) : List (Nat × SlotRec) := sn.slots.filter fun r => !r.2.tomb
def tombSlots (sn : Snap) : List Nat := (sn.slots.filter fun r => r.2.tomb).map (·.1)

/-- select() of R143: slots in key order, each kept when nearer to q than to every slot kept before it; pruned ones fill up to
half of M. -/
def selectNb (w : Nat) (sn : Snap) (q : Nat) (cands : List Nat) (m : Nat) : List Nat :=
  let l := sortBy keyLt ((cands.filter fun c => !tombAt sn c).map fun c => (hamming w q (codeAt sn c), c))
  let r := l.foldl (fun (x : List Key × List Key) c =>
    if x.1.length = m then x
    else if x.1.all (fun k => decide (c.1 < hamming w (codeAt sn c.2) (codeAt sn k.2))) then (x.1 ++ [c], x.2)
    else (x.1, x.2 ++ [c])) ([], [])
  let kept := r.1.map (·.2)
  kept ++ (r.2.map (·.2)).take ((m + 1) / 2 - kept.length)

/-- The index of a slot's record in an upper layer. -/
def recOf (sn : Snap) (l slot : Nat) : Option Nat := ((tget sn.upper l).find? fun r => r.2.slot == slot).map (·.1)
def setUpper (sn : Snap) (l r : Nat) (u : Upper) : Snap := { sn with upper := tput sn.upper l (tput (tget sn.upper l) r u) }
def setAdj (sn : Snap) (n : Nat) (a : List Nat) : Snap := { sn with slots := tupd sn.slots n fun r => { r with adj := a } }

/-- A list of an upper layer's record as slots, and one set from slots. -/
def nbrSlots (sn : Snap) (l r : Nat) : List Nat :=
  (((tget? (tget sn.upper l) r).map (·.nbr)).getD []).filterMap fun x => (tget? (tget sn.upper l) x).map (·.slot)
def setNbrs (sn : Snap) (l r : Nat) (slots : List Nat) : Snap :=
  { sn with upper := tput sn.upper l (tupd (tget sn.upper l) r fun u => { u with nbr := slots.filterMap (recOf sn l) }) }

/-- The walk of an insert over the base layer of a flash-resident index (R143, R97). -/
def insertWalk0 (c : WCtx) (start : Nat) : Walk :=
  runWalk c (16 * c.p.list + 2)
    { flash := true, list := c.p.list, engines := tmod [] (slotChan c.d start) fun e => putPend e (slotKey c start) }

/-- The walk of an insert over one layer from a slot (R143): the candidate list's slots. -/
def insertWalk (c : WCtx) (l start : Nat) : List Nat :=
  if l = 0 ∧ c.d.flash then (((insertWalk0 c start).best).take c.p.list).map (·.2)
  else
    let adj := if l = 0 then adjOf c else adjUpper c l
    let b : Beam := { list := c.p.list, cand := [(slotKey c start, false)], seen := [start] }
    (plainWalk adj (slotKey c) c.p.beam (16 * c.p.list) (16 * c.p.list + 1) b 0).1.cand.map (·.1.2)

/-- The neighbour lists of a new vector in the layers from l down to 0 (R143). -/
def insertLayers (c : WCtx) : Nat → Nat → List (Nat × List Nat)
  | 0, start => [(0, selectNb (codeBits c.d) c.sn c.code (insertWalk c 0 start) c.d.degree)]
  | l + 1, start =>
    let cs := insertWalk c (l + 1) start
    (l + 1, selectNb (codeBits c.d) c.sn c.code cs c.d.upperDegree) :: insertLayers c l (cs.headD start)

/-- The slot at which the walk of layer min(lv, top) starts (R143). -/
def insertStart (c : WCtx) (lv e : Nat) : Nat :=
  if c.sn.top = 0 then e
  else
    let at_ (l r : Nat) : Nat := ((tget? (tget c.sn.upper l) r).map (·.slot)).getD nullSlot
    if c.sn.top ≤ lv then at_ c.sn.top e
    else at_ (lv + 1) (descend c (lv + 1) c.sn.top c.sn.top e (recKey c c.sn.top e) 0).1

/-- Bytes of an index page's record and records in a page (R84). -/
def pageRecBytes (d : Desc) : Nat := pad8 (codeBytes d + 5 * d.degree + 8 + d.attrBytes)
def pageRecs (d : Desc) : Nat := min 64 (16320 / max (pageRecBytes d) 1)

/-- The slot of a new vector (R144): `blocked` are freed slots not yet to be reused (R147). -/
def allocSlot (d : Desc) (sn : Snap) (blocked : List Nat) (nb : List Nat) : Option Nat :=
  let used := tkeys sn.slots ++ blocked
  if d.flash then
    let freeIn (pg : Nat) : Option Nat := ((List.range (pageRecs d)).map (64 * pg + ·)).find? fun n => !(n ∈ used)
    match nb.findSome? (fun n => freeIn (slotPage n)) with
    | some n => some n
    | none =>
      let pg := lowestFree (used.map slotPage) 0
      if pg < d.capacity then some (64 * pg) else none
  else
    let n := lowestFree used 0
    if n < d.capacity then some n else none

/-- A new vector's edges back to it in layer 0 (R143). -/
def backEdges (d : Desc) (slot : Nat) (sn : Snap) (nb : List Nat) : Snap :=
  nb.foldl (fun sn n =>
    let a := ((tget? sn.slots n).map (·.adj)).getD [] ++ [slot]
    setAdj sn n (if d.degree < a.length then selectNb (codeBits d) sn (codeAt sn n) a d.degree else a)) sn

/-- The same in an upper layer. -/
def backUpper (d : Desc) (l slot : Nat) (sn : Snap) (nb : List Nat) : Snap :=
  nb.foldl (fun sn n => match recOf sn l n with
    | none => sn
    | some r =>
      let a := nbrSlots sn l r ++ [slot]
      setNbrs sn l r (if d.upperDegree < a.length then selectNb (codeBits d) sn (codeAt sn n) a d.upperDegree else a)) sn

/-- A new vector's slot and records written, its edges drawn, the entry record moved when it rises above the top (R143). -/
def placeVec (d : Desc) (sn : Snap) (slot lv : Nat) (rec_ : SlotRec) (nbs : List (Nat × List Nat)) : Snap :=
  let nb (l : Nat) : List Nat := ((nbs.find? fun x => x.1 == l).map (·.2)).getD []
  let ix := (List.range lv).map fun i => lowestFree (tkeys (tget sn.upper (i + 1))) 0
  let sn := { sn with slots := tput sn.slots slot { rec_ with adj := nb 0 }, keymap := tput sn.keymap rec_.id.toNat slot }
  let sn := (List.range lv).foldl (fun sn i =>
    let l := i + 1
    let u : Upper := { slot := slot, down := if l = 1 then nullSlot else nth ix (i - 1) 0, nbr := (nb l).filterMap (recOf sn l) }
    setUpper sn l (nth ix i 0) u) sn
  let sn := backEdges d slot sn (nb 0)
  let sn := (List.range lv).foldl (fun sn i => backUpper d (i + 1) slot sn (nb (i + 1))) sn
  if sn.entry.isNone ∨ sn.top < lv then { sn with top := lv, entry := some (if lv = 0 then slot else nth ix (lv - 1) 0) } else sn

/-- The live slot of an ID (R145). -/
def liveOf (sn : Snap) (id : W64) : Option Nat := (tget? sn.keymap id.toNat).bind fun n => if tombAt sn n then none else some n

/-- A slot tombstoned. -/
def setTomb (sn : Snap) (n : Nat) : Snap := { sn with slots := tupd sn.slots n fun r => { r with tomb := true } }

/-- What an INSERT entry holds (R141). -/
def entryRec (d : Desc) (b : List Byte) : SlotRec :=
  let id : W64 := BitVec.ofNat 64 (fieldAt b 0 8)
  { id := id, code := fieldAt b 8 (codeBytes d), adj := [], attr := fieldAt b (8 + codeBytes d) d.attrBytes, tomb := false
    level := levelOf d id, vec := sub b (8 + codeBytes d + d.attrBytes) (vecBytes d) }

/-- One insert entry on a state (R142, R143): the new state, its slot, and whether a live ID was replaced; none when no slot is
left. -/
def insertSnap (d : Desc) (list beam : Nat) (sn : Snap) (blocked : List Nat) (r : SlotRec) : Option (Snap × Nat × Bool) :=
  let old := liveOf sn r.id
  let sn := match old with
    | some n => setTomb sn n
    | none => sn
  let c : WCtx := { d := d, sn := sn, code := r.code, p := { k := 0, list := list, beam := beam }, node := 0, tag := 0 }
  let nbs := match sn.entry with
    | none => ([] : List (Nat × List Nat))
    | some e => insertLayers c (min r.level sn.top) (insertStart c r.level e)
  let nb0 := ((nbs.find? fun x => x.1 == 0).map (·.2)).getD []
  (allocSlot d sn blocked nb0).map fun slot => (placeVec d sn slot r.level r nbs, slot, old.isSome)

/-- One ID deleted: the state and whether it was live (R145). -/
def deleteSnap (sn : Snap) (id : W64) : Snap × Bool := match liveOf sn id with
  | some n => (setTomb sn n, true)
  | none => (sn, false)

/-! The repair sweep (R146). -/

/-- The lists that hold members of T, in the sweep's order: (layer, index). -/
def repairTargets (sn : Snap) (t : List Nat) : List (Nat × Nat) :=
  let upper := (List.range 7).flatMap fun i =>
    let l := 7 - i
    ((tget sn.upper l).filter fun r => (nbrSlots sn l r.1).any fun x => decide (x ∈ t)).map fun r => (l, r.1)
  upper ++ ((sn.slots.filter fun r => r.2.adj.any fun x => decide (x ∈ t)).map fun r => (0, r.1))

/-- One list repaired: select over the list without T and the neighbours of its members of T (R146, step 3). -/
def repairOne (d : Desc) (t : List Nat) (sn : Snap) (x : Nat × Nat) : Snap :=
  if x.1 = 0 then
    let l := ((tget? sn.slots x.2).map (·.adj)).getD []
    let more := (l.filter fun n => n ∈ t).flatMap fun n => ((tget? sn.slots n).map (·.adj)).getD []
    let cands := ((l ++ more).filter fun n => !(n ∈ t) && n != x.2 && n != nullSlot).foldl addNew []
    setAdj sn x.2 (selectNb (codeBits d) sn (codeAt sn x.2) cands d.degree)
  else
    let me := ((tget? (tget sn.upper x.1) x.2).map (·.slot)).getD nullSlot
    let l := nbrSlots sn x.1 x.2
    let more := (l.filter fun n => n ∈ t).flatMap fun n => ((recOf sn x.1 n).map fun r => nbrSlots sn x.1 r).getD []
    let cands := ((l ++ more).filter fun n => !(n ∈ t) && n != me).foldl addNew []
    setNbrs sn x.1 x.2 (selectNb (codeBits d) sn (codeAt sn me) cands d.upperDegree)

/-- The live slot of the highest level, ties to the lowest number (R146, step 5). -/
def newEntrySlot (sn : Snap) : Option (Nat × SlotRec) :=
  (liveSlots sn).foldl (fun b x => match b with
    | none => some x
    | some y => if y.2.level < x.2.level then some x else some y) none

/-- The end of a sweep (R146, step 5; R147): the entry record moved when its slot is in T, then T leaves. -/
def sweepSnap (t : List Nat) (sn : Snap) : Snap :=
  let entrySlot := sn.entry.map fun e => if sn.top = 0 then e else ((tget? (tget sn.upper sn.top) e).map (·.slot)).getD nullSlot
  let sn := match entrySlot with
    | none => sn
    | some n =>
      if n ∈ t then match newEntrySlot sn with
        | none => { sn with entry := none, top := 0, upper := [] }
        | some (m, r) =>
          { sn with
            top := r.level, entry := if r.level = 0 then some m else recOf sn r.level m
            upper := tfilter sn.upper fun l _ => decide (l ≤ r.level) }
      else sn
  { sn with
    slots := tfilter sn.slots fun n _ => !(n ∈ t)
    keymap := tfilter sn.keymap fun _ n => !(n ∈ t)
    upper := tmap sn.upper fun _ u => tfilter u fun _ r => !(r.slot ∈ t) }

/-! The log (R136, R138). -/

/-- The epoch that the next seal commits. -/
def nextEpoch (x : Index) : Nat := (x.commits.foldl (fun e c => if c.sealed then max e c.epoch else e) x.latest) + 1

/-- A record appended; records older than the oldest held epoch go. -/
def logged (x : Index) (kind : Nat) (body : List Byte) : Index :=
  let oldest := ((tkeys x.epochs).drop (x.epochs.length - x.held)).headD 0
  { x with
    log := (x.log.filter fun r => decide (oldest ≤ r.epoch)) ++ [{ pos := x.logPos, kind := kind, epoch := nextEpoch x, body := body }]
    logPos := wrapAdd 64 x.logPos 1 }

/-- The oldest epoch held once every sealed commit has completed: a function of the log alone (R131, R137). -/
def logOldest (x : Index) : Nat := max x.base (nextEpoch x - x.hold)
/-- Freed slots that an insert passes over (R147). So that each record's effect depends on log state alone (R137), they follow the
epochs that the log's commits leave held; an insert that would take a slot which an epoch still keeps waits (keptSlots). DEDUCED. -/
def blockedSlots (x : Index) : List Nat := (x.freed.filter fun f => decide (logOldest x < f.2)).map (·.1)
/-- Freed slots that some held or releasing epoch of this node keeps from reuse (R147). -/
def keptSlots (x : Index) : List Nat := (x.freed.filter fun f => x.epochs.any fun e => decide (e.1 < f.2)).map (·.1)

/-- One insert entry applied and logged, with its slot and whether a live ID was replaced; none when no slot is left. -/
def applyInsert (x : Index) (b : List Byte) : Option (Index × Nat × Bool) :=
  (insertSnap x.desc x.insertList x.insertBeam x.work (blockedSlots x) (entryRec x.desc b)).map fun r =>
    (logged { x with work := r.1, freed := x.freed.filter fun f => f.1 != r.2.1 } 0 b, r.2)

/-- The slot at which the walk of layer 0 starts after those of the layers above (R143). -/
def baseStart (c : WCtx) : Nat → Nat → Nat
  | 0, start => start
  | l + 1, start => baseStart c l ((insertWalk c (l + 1) start).headD start)

/-- The state on which an insert's walks run, its old slot tombstoned (R142), with the parameters of R143. -/
def insertCtx (x : Index) (r : SlotRec) : WCtx :=
  let sn := match liveOf x.work r.id with
    | some n => setTomb x.work n
    | none => x.work
  { d := x.desc, sn := sn, code := r.code, p := { k := 0, list := x.insertList, beam := x.insertBeam }, node := 0, tag := 0 }

/-- What the channel engines read for an insert entry of a flash-resident index (R143, R97): page reads, and the pages. -/
def insertPages (x : Index) (b : List Byte) : Nat × List Nat :=
  let r := entryRec x.desc b
  let c := insertCtx x r
  match x.desc.flash, c.sn.entry with
  | true, some e =>
    let w := insertWalk0 c (baseStart c (min r.level c.sn.top) (insertStart c r.level e))
    (w.counts.pages, ((w.engines.flatMap fun y => y.2.expanded).map slotPage).foldl addNew [])
  | _, _ => (0, [])

/-- One ID deleted and logged; an ID that is not live has no effect. -/
def applyDelete (x : Index) (id : W64) : Index × Bool :=
  let r := deleteSnap x.work id
  if r.2 then (logged { x with work := r.1 } 1 (le 8 id.toNat), true) else (x, false)

/-- The state that the last commit record left (R134). -/
def lastSealed (x : Index) : Snap :=
  x.commits.foldl (fun a c => if c.sealed then c.snap else a) (tgetD x.epochs x.latest {})

/-- A sweep started: T is what is tombstoned in the epoch of the last commit record before it and not yet freed (R146): log state, so
that a target's sweep has the same T (R137). DEDUCED. -/
def startSweep (x : Index) (waiters : List TaskId) : Index :=
  let t := (tombSlots (lastSealed x)).filter fun n => tombAt x.work n
  logged { x with sweep := some { members := t, waiters := waiters, next := [], due := false } } 3 []

/-- The body of a repair record (R138). -/
def repairBody (x : Nat × Nat) : List Byte := le 1 x.1 ++ le 5 x.2 ++ le 2 0

/-- A sweep run to its end: its repairs, then its end record (R146, R147). -/
def endSweep (x : Index) (sw : Sweep) : Index :=
  let x := (repairTargets x.work sw.members).foldl (fun x r =>
    logged { x with work := repairOne x.desc sw.members x.work r } 2 (repairBody r)) x
  let e := nextEpoch x
  logged { x with
    work := sweepSnap sw.members x.work, sweep := none
    freed := x.freed ++ sw.members.map fun n => (n, e) } 4 []

/-- Whether a sweep is due after a commit (R146). -/
def sweepDue (x : Index) : Bool :=
  let sn := tgetD x.epochs x.latest {}
  let t := ((tombSlots sn).filter fun n => tombAt x.work n).length
  decide (1 ≤ t ∧ x.repairPct * (liveSlots sn).length ≤ 100 * t)

/-! Index pages (R84) and what else an index keeps on flash (R289, R134). -/

/-- The records of a page: slots of the page in order. -/
def pageSlots (sn : Snap) (page : Nat) : List (Nat × SlotRec) := sn.slots.filter fun r => slotPage r.1 == page

/-- A record's bytes. -/
def recordOfPage (d : Desc) (r : SlotRec) : List Byte :=
  let b := le (codeBytes d) r.code ++ adjBytes d.degree r.adj ++ le 8 r.id.toNat ++ le d.attrBytes r.attr
  b ++ List.replicate (pageRecBytes d - b.length) 0

/-- An empty record: no neighbour, the ID of an empty slot. -/
def emptyRec : SlotRec := { id := 0xFFFFFFFFFFFFFFFF, code := 0, adj := [], attr := 0, tomb := false, level := 0, vec := [] }

/-- The 16 KiB of an index page at an epoch (R84). -/
def pageImage (d : Desc) (sn : Snap) (epoch page : Nat) : List Byte :=
  let n := ((pageSlots sn page).foldl (fun m r => max m (r.1 % 64 + 1)) 1)
  let recs := (List.range n).flatMap fun i => recordOfPage d ((tget? sn.slots (64 * page + i)).getD emptyRec)
  let b := le 2 0x4A51 ++ le 1 n ++ le 1 0 ++ le 2 (pageRecBytes d) ++ le 2 0 ++ le 5 page ++ le 3 0 ++ le 6 epoch ++
    List.replicate 42 0 ++ recs
  b ++ List.replicate (16384 - b.length) 0

/-- The 16 KiB of a flash page of the vector region: the vectors whose groups it is, each in VB bytes (R290). -/
def vecImage (d : Desc) (sn : Snap) (n : Nat) : List Byte :=
  let per := 16384 / vecSlot d
  (List.range per).flatMap fun i =>
    let v := ((tget? sn.slots (n / per * per + i)).map (·.vec)).getD []
    v ++ List.replicate (vecSlot d - v.length) 0

/-- The first slots of the vector pages whose vectors differ between two states; none unless vectors lie on flash. -/
def changedVecs (d : Desc) (a b : Snap) : List Nat :=
  if d.vecPlace ≠ 2 then []
  else
    let per := 16384 / vecSlot d
    (((b.slots.filter fun r => (tget? a.slots r.1).map (·.vec) != some r.2.vec).map fun r => r.1 / per * per).foldl addNew [])

/-- The first unit of an epoch's checkpoint in its space, and the room it has: above every page's and vector's (log 69). -/
def ckptUnits : Nat := 2 ^ 28
def ckptBase (epoch : Nat) : Nat := 2 ^ 39 + epoch % 2 ^ 11 * ckptUnits

/-- The stack-held parts of an index at an epoch as its checkpoint holds them (R134), cut into 4 KiB units. -/
def ckptImage (d : Desc) (sn : Snap) (epoch : Nat) : List (Nat × List Host.Cell) :=
  let arrays := indexArrays d sn sn
  let n := 1 + sumBy (fun a => ceilDiv a.size bale) arrays
  let m := arraysImage sn arrays
  (List.range (16 * n)).map fun i => (ckptBase epoch + i, m.slice (4096 * i) 4096)

/-- Pages whose records differ between two states. -/
def changedPages (d : Desc) (a b : Snap) : List Nat :=
  let f (r : SlotRec) : List Nat := r.code :: r.id.toNat :: r.attr :: r.adj
  ((((b.slots.filter fun r => (tget? a.slots r.1).map f != some (f r.2)) ++
    (a.slots.filter fun r => !thas b.slots r.1)).map fun r => slotPage r.1).foldl addNew []).filter fun p =>
      p < d.capacity

end Sys2Proof.Machine
end

