-- ==== Sys2Proof/Machine/Updates.lean ====
section
/-!
DEFINITION. Index updates on the node (05): INSERT and DELETE entry by entry, create, open, rebuild, destroy, seals and commits,
repair sweeps, and the primary's side of the mirror stream (R148, R408).
-/

namespace Sys2Proof.Machine

def setIndex (s : State) (p num : Nat) (x : Index) : State := updObj s p num fun o => { o with kind := .index x }

/-- A status that the spec leaves open (log 14). -/
def freeStatus (s : State) : State × Nat := let r := drawTag s; (r.2, (Config.freeWord r.1).toNat % 2048)

/-- The bytes of a log record (R138). -/
def logBytes (r : LogRec) : List Byte := le 8 r.pos ++ le 1 r.kind ++ le 1 0 ++ le 6 r.epoch ++ r.body

/-- Whether a primary streams its log (R148): mirrored, and not stopped unless a load is under way (R409). -/
def streams (x : Index) : Bool :=
  x.mirrored && !x.target && (!x.mirrorLost || x.loading.any (fun m => decide (1 ≤ m.phase)))

/-- Log records sent to the partner: MREC, and MCOMMIT for a commit record (R408); the body is the target's object number and the
record (log 15). -/
def streamRecs (s : State) (p : Nat) (x : Index) (l : List LogRec) : State :=
  if !streams x then s
  else match ctxTo s p x.mirrorNode with
    | none => s
    | some c => l.foldl (fun s r => ctxSend s c (if r.kind = 5 then 0x31 else 0x30) 0 0 (le 4 x.mirrorObject ++ logBytes r)) s

/-- Whether the mirror's send space holds more records (R408). -/
def mirrorRoom (s : State) (p : Nat) (x : Index) : Bool :=
  !streams x || (match ctxTo s p x.mirrorNode with
    | none => true
    | some c => decide (sumBy (fun m => if m.type = 0x30 ∨ m.type = 0x31 then m.body.length else 0) (ctxOf s c).unacked0 <
        s.flue.mirrorMb * 1048576))

/-- An index in its object with the bales it now takes: homes taken and charged, or given back (R140); none when the quota or
the stacks cannot hold them. -/
def fitIndex (s : State) (p num : Nat) (x : Index) : Option State :=
  match objOf s p num with
  | none => none
  | some o =>
    let need := indexBales x
    let have_ := o.homes.length
    if need ≤ have_ then
      let s := creditBales (freeHomes' s (o.homes.drop need)) p (have_ - need)
      some (updObj s p num fun o => { o with kind := .index x, homes := o.homes.take need, bytes := need * bale })
    else if !quotaHolds s p (need - have_) then none
    else
      let quad := match o.homes.head? with
        | some (.stack n _) => quadOfStack n
        | _ => 0
      match takeHomes s quad (need - have_) with
      | none => none
      | some (s, hs) =>
        some (updObj (chargeBales s p (need - have_)) p num fun o => { o with kind := .index x, homes := o.homes ++ hs, bytes := need * bale })

/-- An index whose arrays were altered from outside stays unpredictable (R109). -/
def noteWild (s : State) (p num : Nat) (y : Index) : Index :=
  if indexSound s p (.obj num 0) then y else { y with wild := true }

/-- A host error on an index leaves its contents unpredictable (R154). -/
def spoilIndex (s : State) (p num : Nat) : State := match indexOf s p (.obj num 0) with
  | some (_, x) => setIndex s p num { x with wild := true }
  | none => s

/-- An index changed from x to y: its bales fitted, its arrays written, its new log records noted and streamed. -/
def storeIndex (s : State) (p num : Nat) (x y : Index) : Option State :=
  (fitIndex s p num (noteWild s p num y)).map fun s => streamRecs (syncIndex s p num) p y (y.log.filter fun r => decide (x.logPos ≤ r.pos))

/-- The same where nothing new is charged. -/
def keepIndex (s : State) (p num : Nat) (x y : Index) : State :=
  (storeIndex s p num x y).getD
    (streamRecs (syncIndex (setIndex s p num (noteWild s p num y)) p num) p y (y.log.filter fun r => decide (x.logPos ≤ r.pos)))

/-! INSERT and DELETE of entries (R132, R142, R145). -/

/-- The body of a LOGORD record (R452). -/
def logOrd (p num pos : Nat) (t : TaskId) (entry : Nat) : List Byte := le 2 p ++ le 2 num ++ le 8 pos ++ le 4 t.graph ++ le 2 t.idx ++ le 4 entry

/-- An update task over: its report written, its hold on the seal gone (R132, R142). -/
def finishUpdate (s : State) (t : TaskId) (g : Graph) (k : Task) (num status applied found : Nat) : State :=
  match indexOf s g.pen (.obj num 0) with
  | none => finishTask s t status 0
  | some (_, x) =>
    let e := nextEpoch x
    let s := setIndex s g.pen num { x with begun := without x.begun t }
    let s := match opd k 2 with
      | .none => s
      | o => writeOp s t g.pen k.quad (some g) o 0 (le 4 applied ++ le 4 found ++ le 6 e ++ le 2 0)
    finishTask s t status e

/-- Progress of an update: next entry, entries applied, IDs found. -/
def progress (k : Task) : Nat × Nat × Nat := match k.run with
  | .update n a f => (n, a, f)
  | _ => (0, 0, 0)

/-- Whether an update task may begin or go on: not while a seal is due and it has not begun (R132), not while the mirror's send
space is full (R408), and in replay when its log position, where the entry takes one, is next (R455). -/
def mayUpdate (s : State) (p num : Nat) (x : Index) (t : TaskId) (entry : Nat) (takes : Bool) : Bool :=
  (decide (t ∈ x.begun) || x.commits.all (·.sealed)) && mirrorRoom s p x &&
    (!takes || replayAllows s 0x11 (logOrd p num x.logPos t entry))

/-- One entry applied to the index: y is the index after it. -/
def tookEntry (s : State) (p num : Nat) (x y : Index) (t : TaskId) (entry : Nat) : Option State :=
  (storeIndex s p num x { y with begun := addNew y.begun t }).map fun s =>
    if y.logPos = x.logPos then s else traceDecide s 0x11 (logOrd p num x.logPos t entry)

/-- Whether operands that R139 gives an update as none are none. -/
def updOpsOk (k : Task) : Bool :=
  (k.ops.drop (if k.sub = 0 ∨ k.typ = 0x12 ∧ k.sub = 3 then 3 else if k.typ = 0x12 then 2 else 1)).all (· == .none)

/-- Whether an update's array is shorter than its N entries, or overlaps the report (R154). -/
def updArrayBad (s : State) (g : Graph) (k : Task) : Bool := shortOps s g k || outOverIn s g k

/-- What a read of index pages by the channel engines comes to: UNIT_LOST at a channel out of service, STATE_LOST without the map
segment, MEDIA_ERROR at a poisoned page (R143, R97, R98, R292). -/
def pagesStatus (s : State) (x : Index) (l : List Nat) : Nat :=
  let st := firstBad (fun n => chanUnitStatus s (pageChan x.desc n) (pageUnit x.desc n)) l
  if st ≠ 0 then st
  else if l.any fun n => tget? (chanOf s (pageChan x.desc n)).map (unitKey x.space (pageUnit x.desc n)) == some mapPoison then stMediaError
  else stSuccess

/-- INSERT (R141 to R144): the next entry of the array is applied to the working state, whole; after the last, or at one that
cannot be placed or charged, the task is finished. -/
def execInsert (t : TaskId) (s : State) : Res :=
  match running s t 0x12 (some 0) with
  | none => .next s
  | some (g, k) =>
    if opLost s g.pen (opd k 0) then .next (finishTask s t stStateLost 0)
    else match indexOf s g.pen (opd k 0) with
      | none => .next (finishTask s t stNotFound 0)
      | some (num, x) =>
        let n := par k 0 32
        let (i, a, f) := progress k
        if x.target || decide (n = 0 ∨ 65536 < n) || par k 32 32 != 0 || !updOpsOk k || updArrayBad s g k then
          .next (unpredictable (spoilIndex s g.pen num) t g (outputs s g k))
        else if !mayUpdate s g.pen num x t i true then .next s
        else match readOp s g.pen (some g) (opd k 1) (i * entryBytes x.desc) (entryBytes x.desc) with
          | .err e => .next (finishUpdate s t g k num e a f)
          | .ok b =>
            let pages := insertPages x b
            let st := pagesStatus s x pages.2
            if st ≠ 0 then .next (finishUpdate s t g k num st a f)
            else match applyInsert x b with
            | none => .next (finishUpdate s t g k num stIndexFull a f)
            | some (y, slot, rep) => if slot ∈ keptSlots x then .next s else match tookEntry s g.pen num x y t i with
              | none => .next (finishUpdate s t g k num stQuotaExceeded a f)
              | some s =>
                let f := if rep then f + 1 else f
                let s := modTask s t fun k => { k with
                  run := .update (i + 1) (a + 1) f, wrote := true, usedFlash := k.usedFlash + 16 * pages.1 }
                .next (if i + 1 = n then finishUpdate s t g k num stSuccess (a + 1) f else s)

/-- Whether the next ID of a DELETE's array is live: only then the entry takes a log position (R136, R145). -/
def deletesLive (s : State) (g : Graph) (k : Task) (x : Index) (i : Nat) : Bool :=
  match readOp s g.pen (some g) (opd k 1) (8 * i) 8 with
  | .err _ => false
  | .ok b => (applyDelete x (BitVec.ofNat 64 (ofLe b))).2

/-- DELETE (R145): the next ID of the array is deleted when it is live. APPLIED counts every ID of the array, live or not: the model's
reading of R142's "entries applied" (log 145). -/
def execDelete (t : TaskId) (s : State) : Res :=
  match running s t 0x13 (some 0) with
  | none => .next s
  | some (g, k) =>
    if opLost s g.pen (opd k 0) then .next (finishTask s t stStateLost 0)
    else match indexOf s g.pen (opd k 0) with
      | none => .next (finishTask s t stNotFound 0)
      | some (num, x) =>
        let n := par k 0 32
        let (i, a, f) := progress k
        if x.target || decide (n = 0 ∨ 1048576 < n) || par k 32 32 != 0 || !updOpsOk k || updArrayBad s g k then
          .next (unpredictable (spoilIndex s g.pen num) t g (outputs s g k))
        else if !mayUpdate s g.pen num x t i (deletesLive s g k x i) then .next s
        else match readOp s g.pen (some g) (opd k 1) (8 * i) 8 with
          | .err e => .next (finishUpdate s t g k num e a f)
          | .ok b =>
            let r := applyDelete x (BitVec.ofNat 64 (ofLe b))
            match tookEntry s g.pen num x r.1 t i with
            | none => .next (finishUpdate s t g k num stQuotaExceeded a f)
            | some s =>
              let f := if r.2 then f + 1 else f
              let s := modTask s t fun k => { k with run := .update (i + 1) (a + 1) f, wrote := true }
              .next (if i + 1 = n then finishUpdate s t g k num stSuccess (a + 1) f else s)

/-! Index pages on flash (R134, R289). -/

/-- The four units of 16 KiB from a unit on. -/
def pageUnits (unit : Nat) (b : List Byte) : List (Nat × List Host.Cell) :=
  let cs := chunks 4096 b
  ((List.range cs.length).zip cs).map fun c => (unit + c.1, cellsOf 0 c.2)

/-- One page version programmed at its channel (R84, R85); the one before it stays in the version list (R293). -/
def writePage (s : State) (x : Index) (sn : Snap) (epoch page : Nat) : Option State :=
  let ch := pageChan x.desc page
  let units := pageUnits (pageUnit x.desc page) (pageImage x.desc sn epoch page)
  programPage (updChan s ch fun c => keepVersions c epoch (units.map fun u => unitKey x.space u.1)) ch x.space 1 units

def writePages (s : State) (x : Index) (sn : Snap) (epoch : Nat) : List Nat → Option State
  | [] => some s
  | p :: r => match writePage s x sn epoch p with
    | none => none
    | some s => writePages s x sn epoch r

/-- The vector pages of some slots programmed at their channels (R86, R290). -/
def writeVecs (s : State) (x : Index) (sn : Snap) : List Nat → Option State
  | [] => some s
  | n :: r => match programPage s (slotChan x.desc n) x.space 2 (pageUnits (vecUnit x.desc n) (vecImage x.desc sn n)) with
    | none => none
    | some s => writeVecs s x sn r

/-- The lowest channel of an index's mask. -/
def commitChan (d : Desc) : Nat := pageChan d 0

/-- Bulk blocks of a checkpoint programmed one after another. -/
def writeBulks (s : State) (c space : Nat) : List (List (List (Nat × List Host.Cell))) → Option State
  | [] => some s
  | b :: r => match programBulk s c space b with
    | none => none
    | some s => writeBulks s c space r

/-- The checkpoint of an index's stack-held parts at an epoch written to bulk blocks of the lowest channel of its mask (R134, R294). -/
def writeCkpt (s : State) (x : Index) (sn : Snap) (epoch : Nat) : Option State :=
  let c := commitChan x.desc
  writeBulks s c x.space (chunks (max 1 (blockPages (profOf s c) false)) (chunks 4 (ckptImage x.desc sn epoch)))

/-- All that an epoch brings to flash (R134, step 3): changed pages, new vectors, the checkpoint; none while a channel has no room. -/
def writeEpoch (s : State) (x : Index) (old sn : Snap) (epoch : Nat) : Option State :=
  ((writePages s x sn epoch (changedPages x.desc old sn)).bind fun s => writeVecs s x sn (changedVecs x.desc old sn)).bind fun s =>
    writeCkpt s x sn epoch

/-- Whether a journal record of a space satisfies p on some channel without being durable yet. -/
def undurable (s : State) (p : JRec → Bool) : Bool :=
  s.ftl.chans.any fun c => c.2.jstage.any p || c.2.jpages.any fun j => j.2.any p

/-- Whether the map records of a space are all durable (R312). -/
def mapsDurable (s : State) (space : Nat) : Bool :=
  !undurable s fun r => match r with
    | .map sp _ _ _ => sp == space
    | _ => false

/-- Whether a COMMIT record is still to become durable (R312). -/
def commitPending (s : State) (space epoch : Nat) : Bool :=
  undurable s fun r => match r with
    | .commit sp e _ _ => sp == space && e == epoch
    | _ => false

/-- A COMMIT record, with the slot of the epoch's checkpoint, staged in the journal of the lowest channel (R311, R312). -/
def stageCommit (s : State) (x : Index) (epoch : Nat) : State :=
  updChan s (commitChan x.desc) fun ch =>
    let q := nextSeq ch
    stage { ch with seq := q } (.commit x.space epoch (tgetD ch.map (unitKey x.space (ckptBase epoch)) mapPoison) q)

/-- The stored index of a space changed. -/
def updStore (s : State) (space : Nat) (f : Store → Store) : State :=
  { s with ftl := { s.ftl with stores := s.ftl.stores.map fun t => if t.space = space then f t else t } }

/-- What the store of a space holds: the state of its last durable epoch. -/
def storeSnap (s : State) (space : Nat) : Snap := ((s.ftl.stores.find? fun t => t.space == space).map (·.snap)).getD {}

/-- The units whose keys satisfy p unmapped, their TRIM records staged (R311). -/
def trimWhere (s : State) (p : Nat → Bool) : State :=
  { s with ftl := { s.ftl with chans := tmap s.ftl.chans fun _ ch =>
      (ch.map.filter fun e => p e.1).foldl (fun ch e =>
        let q := nextSeq ch
        stage { ch with seq := q, map := tdel ch.map e.1, mapSeq := tput ch.mapSeq e.1 q } (.trim (e.1 / 2 ^ 40) (e.1 % 2 ^ 40) 1 q)) ch } }

/-- Every unit of a space unmapped, its old versions too. -/
def trimSpace (s : State) (space : Nat) : State :=
  let s := trimWhere s fun k => k / 2 ^ 40 == space
  { s with ftl := { s.ftl with chans := tmap s.ftl.chans fun _ ch => { ch with vers := ch.vers.filter fun v => v.1 / 2 ^ 40 != space } } }

/-- An epoch durable: the store is at it, and the checkpoint of the epoch before goes (R149, R316). -/
def landStore (s : State) (x : Index) (epoch : Nat) (sn : Snap) (pos : Nat) : State :=
  let old := ((s.ftl.stores.find? fun t => t.space == x.space).map (·.epoch)).getD epoch
  let lo := unitKey x.space (ckptBase old)
  let s := if old = epoch then s else trimWhere s fun k => decide (lo ≤ k ∧ k < lo + ckptUnits)
  updStore s x.space fun t => { t with epoch := epoch, snap := sn, logPos := pos }

/-! Commits (R132 to R135). -/

/-- EPOCH_COMMIT (R338, R134): the commit waits for its seal. A lost index gives STATE_LOST, an object that is no index NOT_FOUND;
a commit on a mirror target is none of the spec's cases, and its status is free (log 14). -/
def execEpochCommit (c : Cmd) (object : Nat) (report : OpRef) (s : State) : Res :=
  withCmd s c fun s _ =>
    let p := penOfCtl c.ctl
    if !onSkex s c then complete s c stInvalidOpcode
    else if c.bad then completeFree s c
    else if opLost s p (.obj object 0) then
      complete (writeHome s p none report 0 (le 6 0 ++ le 2 0 ++ le 2 stStateLost ++ le 6 0)) c stStateLost
    else match indexOf s p (.obj object 0) with
      | none => complete s c stNotFound
      | some (_, x) =>
        if x.target then let r := freeStatus s; complete r.1 c r.2
        else setIndex s p object { x with commits := x.commits ++
          [{ cmd := c, report := report, epoch := 0, snap := {}, sealed := false, mackPending := false }] }

/-- A commit's report and completion entry (R338). -/
def endCommit (s : State) (p : Nat) (c : Commit) (epoch status : Nat) : State :=
  complete (writeHome s p none c.report 0 (le 6 epoch ++ le 2 0 ++ le 2 status ++ le 6 0)) c.cmd status (epoch % 2 ^ 32)

/-- The first unsealed commit replaced. -/
def sealFirst (c : Commit) : List Commit → List Commit
  | [] => []
  | x :: r => if x.sealed then x :: sealFirst c r else c :: r

/-- Whether the target of a load has applied every record sent so far (R409): its installation is acknowledged and nothing on the
context waits for acknowledgement. -/
def admits (s : State) (p : Nat) (x : Index) : Bool :=
  x.loading.any (fun m => m.phase == 2) && (match ctxTo s p x.mirrorNode with
    | some c => (ctxOf s c).unacked0.isEmpty
    | none => false)

/-- The body of a SEAL record (R452). -/
def sealBody (p num epoch pos : Nat) : List Byte := le 2 p ++ le 2 num ++ le 6 epoch ++ le 8 pos

/-- SEAL (R132, R134): every update task that began has finished; the working state becomes the next epoch's, its crown rebuilt,
its changed pages on the medium, its commit record sent to the mirror. Without an epoch number left the commit ends with
INDEX_FULL. -/
def execSeal (pen object : Nat) (s : State) : Res :=
  match indexOf s pen (.obj object 0) with
  | none => .next s
  | some (_, x) => match x.commits.find? (fun c => !c.sealed) with
    | none => .next s
    | some c =>
      let e := nextEpoch x
      if !x.begun.isEmpty || opLost s pen (.obj object 0) || !replayAllows s 0x12 (sealBody pen object e x.logPos) then .next s
      else if 0xFFFFFFFFFFFF < e then
        .next (endCommit (setIndex s pen object { x with commits := x.commits.filter fun y => y.cmd != c.cmd }) pen c 0 stIndexFull)
      else
        let sn := withCrown x.desc x.work
        match (if x.desc.flash then writeEpoch s x (lastSealed x) sn e else some s) with
        | none => .next s
        | some s =>
          let adm := admits s pen x
          let c' := { c with
            epoch := e, snap := sn, sealed := true, admission := adm, mackPending := adm || (x.mirrored && !x.mirrorLost)
            pos := wrapAdd 64 x.logPos 1 }
          let y := { logged { x with work := sn } 5 [] with
            commits := sealFirst c' x.commits
            loading := x.loading.map fun m => if adm then { m with phase := 3 } else m }
          .next (traceDecide (keepIndex s pen object x y) 0x12 (sealBody pen object e x.logPos))

/-- A committed epoch becomes the latest (R134, R131). -/
def commitEpoch (x : Index) (c : Commit) : Index :=
  { x with
    epochs := tput x.epochs c.epoch c.snap, latest := c.epoch, held := min x.hold (x.held + 1)
    commits := x.commits.drop 1
    mirrorLost := x.mirrorLost && !c.admission
    loading := if c.admission then none else x.loading }

/-- MACK: the target's object, the epoch, a status. -/
def mackBody (obj e st : Nat) : List Byte := le 4 obj ++ le 6 e ++ le 2 st

/-- The next step of an epoch on its way to the medium: its pages and checkpoint, then its COMMIT record once their MAP records are
durable, then its acknowledgement (R134, R148, R312). -/
def landNext (s : State) (pen object : Nat) (x : Index) (l : Landing) : State :=
  let rest := x.landing.drop 1
  if l.stage = 0 then
    match writeEpoch s x (storeSnap s x.space) l.snap l.epoch with
    | none => s
    | some s => setIndex s pen object { x with landing := { l with stage := 1 } :: rest }
  else if l.stage = 1 then
    if !mapsDurable s x.space then s
    else setIndex (stageCommit s x l.epoch) pen object { x with landing := { l with stage := 2 } :: rest }
  else if commitPending s x.space l.epoch then s
  else
    let s := landStore (setIndex s pen object { x with landing := rest }) x l.epoch l.snap l.pos
    match l.ctx with
    | some c => ctxSend s c 0x32 0 0 (mackBody object l.epoch stSuccess)
    | none => s

/-- A task that waits for a sweep is finished with the epoch that the sweep's end record joins. -/
def finishSweepTask (e : Nat) (s : State) (t : TaskId) : State :=
  match taskOf s t with
  | some k => if k.st == .issued then finishTask s t stSuccess e else s
  | none => s

/-- A sweep run to its end: its repairs and end record, its waiting tasks finished (R146, R147). -/
def closeSweep (s : State) (p num : Nat) (x : Index) (sw : Sweep) : State :=
  let e := nextEpoch x
  let y := endSweep x sw
  let s := traceDecide (keepIndex s p num x y) 0x12 (sealBody p num e x.logPos)
  sw.waiters.foldl (finishSweepTask e) s

/-- A repair sweep begun; one whose set is empty ends at once (R146). -/
def beginSweep (s : State) (p num : Nat) (x : Index) (waiters : List TaskId) : State :=
  let s := traceDecide (keepIndex s p num x (startSweep x waiters)) 0x12 (sealBody p num (nextEpoch x) x.logPos)
  match indexOf s p (.obj num 0) with
  | some (_, y) => (match y.sweep with
    | some sw => if sw.members.isEmpty then closeSweep s p num y sw else s
    | none => s)
  | none => s

/-- COMMIT_COMPLETE (R134, R135): the oldest sealed commit, once its pages and its COMMIT record are durable and its mirror has
acknowledged. A sweep that falls due starts (R146). An epoch that a target or a rebuild has still to bring to the medium goes first
(R148, R151). -/
def execCommitComplete (pen object : Nat) (s : State) : Res :=
  match indexOf s pen (.obj object 0) with
  | none => .next s
  | some (_, x) => match x.landing.head?, x.commits.head? with
    | some l, _ => if opLost s pen (.obj object 0) then .next s else .next (landNext s pen object x l)
    | none, none => .next s
    | none, some c =>
      if !c.sealed || c.mackPending || opLost s pen (.obj object 0) then .next s
      else if x.desc.flash && !mapsDurable s x.space then .next s
      else if x.desc.flash && !c.recorded then
        .next (setIndex (stageCommit s x c.epoch) pen object { x with commits := { c with recorded := true } :: x.commits.drop 1 })
      else if x.desc.flash && commitPending s x.space c.epoch then .next s
      else
        let lost := x.mirrored && x.mirrorLost && !c.admission
        let y := commitEpoch x c
        let y := pruneEpochs (epochBusy s pen object) y
        let s := keepIndex s pen object x y
        let s := if x.desc.flash then trimVersions (landStore s x c.epoch c.snap c.pos) y else s
        let s := endCommit s pen c c.epoch (if lost then stMirrorLost else stSuccess)
        let s := match c.admission, x.loading with
          | true, some m => complete s m.cmd stSuccess
          | _, _ => s
        .next (if !sweepDue y then s
          else match y.sweep with
            | some sw => setIndex s pen object { y with sweep := some { sw with due := true } }
            | none => beginSweep s pen object y [])

/-- SWEEP_END (R146, R147): the running sweep ends; one that fell due, or for which tasks wait, starts. -/
def execSweepEnd (pen object : Nat) (s : State) : Res :=
  match indexOf s pen (.obj object 0) with
  | none => .next s
  | some (_, x) => match x.sweep with
    | none => .next s
    | some sw =>
      if x.target || opLost s pen (.obj object 0) then .next s
      else
        let s := closeSweep s pen object x sw
        match indexOf s pen (.obj object 0) with
        | none => .next s
        | some (_, y) => .next (if sw.due || !sw.next.isEmpty then beginSweep s pen object y sw.next else s)

/-- DELETE SUBTYPE 2, a repair sweep now (R146): it starts, or waits for the running one and then starts another; a sweep whose
set is empty ends at once. -/
def execRepairSweepNow (t : TaskId) (s : State) : Res :=
  match running s t 0x13 (some 2) with
  | none => .next s
  | some (g, k) =>
    if opLost s g.pen (opd k 0) then .next (finishTask s t stStateLost 0)
    else match indexOf s g.pen (opd k 0) with
      | none => .next (finishTask s t stNotFound 0)
      | some (num, x) =>
        if x.target || k.param != 0 || !updOpsOk k then .next (unpredictable s t g [])
        else match x.sweep with
          | some sw =>
            if t ∈ sw.waiters ∨ t ∈ sw.next then .next s
            else .next (setIndex s g.pen num { x with sweep := some { sw with next := sw.next ++ [t] } })
          | none => .next (beginSweep s g.pen num x [t])

/-! Creating, opening, rebuilding and destroying (R139, R140, R151). -/

/-- A new index object's fields from its descriptor and create block. -/
def newIndex (d : Desc) (c : CreateBlk) (space : Nat) : Index :=
  { desc := d, storeKey := c.storeKey, space := space, hold := c.hold, insertList := c.list, insertBeam := c.beam, repairPct := c.pct
    mirrored := c.mirrored, mirrorNode := c.node, mirrorObject := c.object, target := c.target
    epochs := [(1, {})], latest := 1, held := 1 }

/-- The number that an OPERAND0 of a create names. -/
def newNumber (op : OpRef) : Nat := match op with
  | .obj n _ => n
  | _ => 0

/-- The lowest space number not in use (R289). -/
def freeSpace (s : State) : Nat := lowestFree (s.ftl.stores.map (·.space)) 1

/-- A create's descriptor and create block, or the status of a failed read. -/
def createArgs (s : State) (g : Graph) (k : Task) : Option (List Byte × List Byte) × Nat :=
  match readOp s g.pen (some g) (opd k 1) 0 64, paramBlock s g k 64 with
  | .err e, _ => (none, e)
  | _, .err e => (none, e)
  | .ok d, .ok c => (some (d, c), 0)

/-- Whether a create's values are those of R77, R139 and R140. -/
def createFits (k : Task) (db cb : List Byte) : Bool := descOk db && createOk (descOf db).flash cb && updOpsOk k

/-- Whether a create names an object number in use, or a stored index that is open (R154). -/
def createClash (s : State) (p num : Nat) (cb : List Byte) : Bool :=
  (objOf s p num).isSome || s.ftl.stores.any fun t => (createOf cb).storeKey != 0 && t.key == (createOf cb).storeKey && t.open_

/-- The closed stores under a key gone, with their media (R140, R151). -/
def dropStores (s : State) (key : Nat) : State :=
  let gone := s.ftl.stores.filter fun t => t.key == key && !t.open_
  let s := gone.foldl (fun s t => trimSpace s t.space) s
  { s with ftl := { s.ftl with stores := s.ftl.stores.filter fun t => !(t ∈ gone) } }

/-- The index object made (R140): its entry bale charged, a store opened under its key at an epoch; 0 while none is durable. -/
def makeIndex (s : State) (p num quad : Nat) (x : Index) (cb : List Byte) (epoch : Nat) : Option State :=
  (newObject s p num quad bale (.index x)).map fun s =>
    let st : Store := { space := x.space, key := x.storeKey, desc := x.desc, create := cb, epoch := epoch, snap := {}, open_ := true }
    let s := syncIndex s p num
    if x.desc.flash then let s := dropStores s x.storeKey; { s with ftl := { s.ftl with stores := s.ftl.stores ++ [st] } } else s

/-- A create performed once its mirror target, if it has one, is confirmed. The commit of epoch 1 takes no log position, so that the
first entry takes position 0 (the model's reading of R136, log 146). -/
def createNow (s : State) (t : TaskId) (g : Graph) (k : Task) (db cb : List Byte) : State :=
  let num := newNumber (opd k 0)
  match makeIndex s g.pen num k.quad (newIndex (descOf db) (createOf cb) (freeSpace s)) cb 1 with
  | none => finishTask s t stQuotaExceeded 0
  | some s => finishTask s t stSuccess 1

/-- A create under a number or a key in use (R154): a second object is made and charged; which of the two the number then names is a
free value, and the other stays charged until the pen goes (R360). -/
def createTwice (s : State) (t : TaskId) (g : Graph) (k : Task) (db cb : List Byte) : State :=
  let num := newNumber (opd k 0)
  let old := objOf s g.pen num
  match makeIndex s g.pen num k.quad (newIndex (descOf db) (createOf cb) (freeSpace s)) cb 1 with
  | none => unpredictable s t g []
  | some s =>
    let r := drawTag s
    let s := match old, objOf r.2 g.pen num with
      | some o, some n =>
        let w := if Config.freeBool r.1 then (n, o) else (o, n)
        updPen (putObj r.2 g.pen num w.1) g.pen fun p => { p with orphans := p.orphans ++ [w.2] }
      | _, _ => r.2
    unpredictable s t g []

/-- INSERT SUBTYPE 2, create (R140): epoch 1 committed and empty. A mirrored primary first asks its partner to confirm the target
(R408), by an MCOMMIT of epoch 1 that its MACK answers (log 15); without an OPEN context it ends with PEER_LOST. -/
def execIndexCreate (t : TaskId) (s : State) : Res :=
  match running s t 0x12 (some 2) with
  | none => .next s
  | some (g, k) => match createArgs s g k with
    | (none, e) => .next (readFailed s t g k e)
    | (some (db, cb), _) =>
      let c := createOf cb
      if c.attach || k.run != .none then .next s
      else if !createFits k db cb || c.epoch != 0 then .next (unpredictable s t g [])
      else if createClash s g.pen (newNumber (opd k 0)) cb then .next (createTwice s t g k db cb)
      else if c.mirrored && !c.target then
        match ctxTo s g.pen c.node with
        | none => .next (finishTask s t stPeerLost 0)
        | some x =>
          let r := drawCorr s
          let s := modTask r.2 t fun k => { k with run := .remote [r.1] 0 }
          .next (ctxSend s x 0x31 0 r.1 (le 4 c.object ++ logBytes { pos := 0, kind := 5, epoch := 1, body := [] }))
      else .next (createNow s t g k db cb)

/-- INSERT SUBTYPE 2 with OPEN (R140, R149): the stored index under STORE_KEY reattached at its last durable epoch; NOT_FOUND
without one. A descriptor that differs is unpredictable (R154). -/
def execIndexOpen (t : TaskId) (s : State) : Res :=
  match running s t 0x12 (some 2) with
  | none => .next s
  | some (g, k) => match createArgs s g k with
    | (none, e) => .next (readFailed s t g k e)
    | (some (db, cb), _) =>
      let c := createOf cb
      let num := newNumber (opd k 0)
      if !c.attach then .next s
      else if !createFits k db cb || c.epoch != 0 then .next (unpredictable s t g [])
      else if createClash s g.pen num cb then .next (createTwice s t g k db cb)
      else match s.ftl.stores.find? (fun x => x.key == c.storeKey && x.epoch != 0) with
        | none => .next (finishTask s t stNotFound 0)
        | some st =>
          if st.desc != descOf db then .next (unpredictable s t g [])
          else
            let x : Index := { newIndex st.desc c st.space with
              epochs := [(st.epoch, st.snap)], latest := st.epoch, work := st.snap, mirrorLost := c.mirrored
              base := st.epoch, logPos := st.logPos }
            match newObject s g.pen num k.quad bale (.index x) with
            | none => .next (finishTask s t stQuotaExceeded 0)
            | some s1 => match fitIndex s1 g.pen num x with
              | none => .next (finishTask s t stQuotaExceeded 0)
              | some s2 =>
                .next (finishTask (updStore (syncIndex s2 g.pen num) st.space fun y => { y with open_ := true }) t stSuccess st.epoch)

/-- The bytes of an INSERT entry (R141). -/
def insertEntryOf (d : Desc) (r : SlotRec) : List Byte :=
  let b := le 8 r.id.toNat ++ le (codeBytes d) r.code ++ le d.attrBytes r.attr ++ r.vec
  b ++ List.replicate (entryBytes d - b.length) 0

/-- Entries applied in order: the index, or none when one finds no slot. -/
def applyAll (x : Index) : List (List Byte) → Option Index
  | [] => some x
  | b :: r => match applyInsert x b with
    | none => none
    | some y => applyAll y.1 r

/-- The rebuilt index (R151): the source's live slots by ascending ID, committed as epoch 1. -/
def rebuilt (x : Index) (src : Snap) : Option Index :=
  let rs := sortBy (fun (a b : SlotRec) => decide (a.id.toNat < b.id.toNat)) ((liveSlots src).map (·.2))
  (applyAll { x with epochs := [], latest := 0, held := 0 } (rs.map (insertEntryOf x.desc))).map fun y =>
    let y := logged y 5 []
    let sn := withCrown y.desc y.work
    { y with work := sn, epochs := [(1, sn)], latest := 1, held := 1 }

/-- A rebuild that cannot hold every vector (R151): nothing is created, and no store remains under the key. -/
def rebuildFails (s : State) (t : TaskId) (x : Index) (status : Nat) : State :=
  finishTask (if x.desc.flash then dropStores s x.storeKey else s) t status 0

/-- INSERT SUBTYPE 3, rebuild (R151): at the source epoch bound at issue. What cannot be held creates nothing. A flash-resident target
completes once its epoch 1 is durable, which COMMIT_COMPLETE brings about. -/
def execRebuildIndex (t : TaskId) (s : State) : Res :=
  match running s t 0x12 (some 3) with
  | none => .next s
  | some (g, k) => if k.run = .update 1 0 0 then
      (match indexOf s g.pen (.obj (newNumber (opd k 0)) 0) with
      | some (_, x) => if opLost s g.pen (.obj (newNumber (opd k 0)) 0) then .next (finishTask s t stStateLost 0)
        else if x.landing.isEmpty then .next (finishTask s t stSuccess 1) else .next s
      | none => .next (finishTask s t stNotFound 0))
    else match createArgs s g k with
    | (none, e) => .next (readFailed s t g k e)
    | (some (db, cb), _) =>
      let num := newNumber (opd k 0)
      let d := descOf db
      let c := createOf cb
      if opLost s g.pen (opd k 2) then .next (finishTask s t stStateLost 0)
      else if !createFits k db cb || c.attach then .next (unpredictable s t g [])
      else if createClash s g.pen num cb then .next (createTwice s t g k db cb)
      else match indexOf s g.pen (opd k 2) with
        | none => .next (finishTask s t stNotFound 0)
        | some (_, src) =>
          if d.codeLog != src.desc.codeLog || d.attrBytes != src.desc.attrBytes || d.vecDim != src.desc.vecDim ||
              d.vecFmt != src.desc.vecFmt then .next (unpredictable s t g [])
          else match k.bound.bind (tget? src.epochs) with
            | none => .next (finishTask s t stEpochGone 0)
            | some sn =>
              let new := { newIndex d c (freeSpace s) with mirrorLost := c.mirrored }
              match rebuilt new sn with
              | none => .next (rebuildFails s t new stIndexFull)
              | some x =>
                let x := if d.flash then { x with landing := [{ ctx := none, epoch := 1, snap := x.work, pos := x.logPos }] } else x
                match (makeIndex s g.pen num k.quad x cb 0).bind fun s => fitIndex s g.pen num x with
                | none => .next (rebuildFails s t x stQuotaExceeded)
                | some s =>
                  let s := syncIndex s g.pen num
                  .next (if d.flash then modTask s t fun k => { k with run := .update 1 0 0 } else finishTask s t stSuccess 1)

/-- DELETE SUBTYPE 1, destroy (R139): the object, its homes and charge go; without KEEP_FLASH its stored index too. Commits and a
load that no order put before it end with a free status (R154). -/
def execDestroy (t : TaskId) (s : State) : Res :=
  match running s t 0x13 (some 1) with
  | none => .next s
  | some (g, k) => match indexOf s g.pen (opd k 0) with
    | none => .next (finishTask s t stNotFound 0)
    | some (num, x) =>
      if par k 1 63 != 0 || !updOpsOk k then .next (unpredictable s t g [])
      else
        let s := destroyObj s g.pen num
        let s := (x.commits.map (·.cmd) ++ (x.loading.map (·.cmd)).toList).foldl completeFree s
        let s := if !x.desc.flash then s
          else if bit (par k 0 1) 0 then updStore s x.space fun y => { y with open_ := false }
          else trimSpace { s with ftl := { s.ftl with stores := s.ftl.stores.filter fun y => y.space != x.space } } x.space
        .next (finishTask s t stSuccess 0)

end Sys2Proof.Machine
end

