-- ==== Sys2Proof/Machine/Dma.lean ====
section
/-!
DEFINITION. The DMA engine (14): COPY and fill tasks (R376, R377, R412), ring channels (R380 to R387), bus errors (R378, R379, R385),
and channel tests (R388).
-/

namespace Sys2Proof.Machine

def dmaOf (s : State) (n : Nat) : Dma := tget s.dma n

/-- A channel of pen 0 software (R372). -/
def ringChan (s : State) (n : Nat) : Bool := s.boot.ready && decide (s.drover.dmaCh ≤ n ∧ n < 64)

/-- Whether some host port is up (R373). -/
def hostUp (s : State) : Bool := s.port.upA || s.port.upB

/-! The error latch (R15, R379, R385). -/

def latchDma (d : Dma) (e : BusErr) (index pen : Nat) : Dma :=
  if d.errValid then { d with errMulti := true }
  else { d with
    errValid := true, errMulti := false, errAddr := e.addr, errWrite := e.write, errKind := e.kind, errTarget := e.target
    errIndex := index, errPen := pen }

/-! COPY and fill (R376, R377). -/

/-- The object that a COPY's operand names when it is borrowed: number, context, lender's object, GEN, whether it is lost. -/
def borrowedOf (s : State) (p : Nat) (op : OpRef) : Option (Nat × Nat × Nat × Nat × Bool) := match op with
  | .obj n _ => match objOf s p n with
    | some o => match o.kind with
      | .borrowed c ob gen _ => some (n, c, ob, gen, o.lost)
      | _ => none
    | none => none
  | _ => none

/-- Bytes of a range that lie at the stacks (R67). -/
def stackPart (s : State) (g : Graph) (op : OpRef) (n : Nat) : Nat :=
  sumBy (fun x => match x.1 with
    | .stk _ => x.2
    | _ => 0) (segs s g.pen (some g) op 0 n)

/-- Offsets of poisoned lines within segments: (offset, bytes). -/
def poisonIn (s : State) (l : List (Seg × Nat)) : List (Nat × Nat) :=
  (l.foldl (fun (x : Nat × List (Nat × Nat)) sg =>
    let here := match sg.1 with
      | .stk a => (s.poison.filter fun l => decide (a < l + line ∧ l < a + sg.2)).map fun l =>
          (x.1 + (max l a - a), min (l + line) (a + sg.2) - max l a)
      | _ => []
    (x.1 + sg.2, x.2 ++ here)) (0, [])).2

/-- Source offsets of poisoned lines within a range of an operand. -/
def poisonRuns (s : State) (g : Graph) (op : OpRef) (n : Nat) : List (Nat × Nat) := poisonIn s (segs s g.pen (some g) op 0 n)

/-- The lines of stack memory that hold bytes of a range of an operand. -/
def linesAt (s : State) (g : Graph) (op : OpRef) (off n : Nat) : List Nat :=
  (segs s g.pen (some g) op off n).flatMap fun sg => match sg.1 with
    | .stk a => (List.range ((a % line + sg.2 + line - 1) / line)).map fun i => a / line * line + i * line
    | _ => []

/-- A COPY of poisoned lines (R377): MEDIA_ERROR, the output unpredictable, its lines at the stacks poisoned. -/
def copyPoisoned (s : State) (t : TaskId) (g : Graph) (k : Task) (n : Nat) : State :=
  let runs := poisonRuns s g (opd k 0) n
  let lines := runs.flatMap fun r => linesAt s g (opd k 1) r.1 r.2
  let s := readFailed s t g k stMediaError
  { s with poison := lines.foldl addNew s.poison }

/-- The units of space 0 that hold a byte range of a region, each with its new bytes put in (R376, R341). -/
def regionWrites (s : State) (g : Graph) (op : OpRef) (bs : List Byte) : List UnitWrite :=
  ((segs s g.pen (some g) op 0 bs.length).foldl (fun (x : List Byte × List UnitWrite) sg =>
    let here := match sg.1 with
      | .unit lba off => [unitPatch s lba off (x.1.take sg.2)]
      | _ => []
    (x.1.drop sg.2, x.2 ++ here)) (bs, [])).2

/-- Bytes put at a COPY's destination: units of a region are accepted as a FLASH_WRITE's, else they are written at their home. -/
def copyOut (s : State) (t : TaskId) (g : Graph) (k : Task) (n : Nat) (bs : List Byte) : State :=
  let moved := stackPart s g (opd k 0) (if k.sub = 0 then n else 0) + stackPart s g (opd k 1) n
  let s := modTask s t fun k => { k with result := n, wrote := true }
  let ws := regionWrites s g (opd k 1) bs
  let used (s : State) : State := modTask s t fun k => { k with usedStack := moved }
  if ws.isEmpty then used (finishTask (writeOp s t g.pen k.quad (some g) (opd k 1) 0 bs) t stSuccess n)
  else
    let fua := ws.any fun w => unitWriteStatus s w.lba != 0
    let s := writeUnits (modTask s t fun k => { k with run := .io }) (taskOwner t g) fua ws
    used (settleOrdered s (orderedCount s))

/-- The 64 KiB pieces of a length: index, offset, bytes. -/
def pieces (n : Nat) : List (Nat × Nat × Nat) :=
  (List.range (ceilDiv n 65536)).map fun i => (i, 65536 * i, min 65536 (n - 65536 * i))

/-- A COPY on a borrowed object (R412): one RREAD or RWRITE for each 64 KiB; without a usable context PEER_LOST, after a revoking
MAPUPD (GEN 0 here) MAP_STALE. The message
names the lender's object, the offset and the length (log 15). -/
def copyRemote (s : State) (t : TaskId) (g : Graph) (k : Task) (n : Nat) (read : Bool) (b : Nat × Nat × Nat × Nat × Bool)
    (bs : List Byte) : State :=
  let (_, c, ob, gen, lost) := b
  let st := (ctxOf s c).st
  if lost || (st != 1 && st != 2) then finishTask s t stPeerLost 0
  else if gen = 0 then readFailed s t g k stMapStale
  else
    let r := drawCorr s
    let off := match (if read then opd k 0 else opd k 1) with
      | .obj _ o => o
      | _ => 0
    let corr (i : Nat) : Nat := r.1 * 2 ^ 24 + i
    let s := (pieces n).foldl (fun s x =>
      let head := le 4 ob ++ le 8 (off + x.2.1) ++ le 4 x.2.2
      ctxSend s c (if read then 0x40 else 0x41) gen (corr x.1) (if read then head else head ++ sub bs x.2.1 x.2.2)) r.2
    modTask s t fun k => { k with run := .remote ((pieces n).map fun x => corr x.1) 0, result := n, wrote := true }

/-- Whether an operand is host memory that no port reaches: no request is sent (R378). -/
def hostCut (s : State) (op : OpRef) : Bool := match op with
  | .host _ => !hostUp s
  | _ => false

/-- The host address that an operand begins at. -/
def hostAddr (op : OpRef) : W64 := match op with
  | .host a => BitVec.ofNat 64 a
  | _ => 0

/-- A bus error in a Drover channel (R379): latched, the task completed with Data Transfer Error. -/
def droverBusError (s : State) (t : TaskId) (g : Graph) (k : Task) (e : BusErr) : State :=
  let s := updDma s k.unitNo fun d => latchDma d e 0 g.pen
  let s := (outputs s g k).foldl (fun s o => smudgeOp s g.pen (some g) o.1 0 o.2) s
  finishTask s t stDataTransferError 0

/-- A COPY or fill that breaks R376 (R390). -/
def copyBad (k : Task) : Bool :=
  par k 0 40 == 0 || par k 48 16 != 0 || (k.sub == 0 && par k 40 8 != 0) || opd k 1 == .none || (k.sub == 0) == (opd k 0 == .none) ||
    (List.range 4).any fun i => opd k (i + 2) != .none

/-- Lines of a range of an operand at the stacks that are owned when a DMA channel is to read them (R257). -/
def operandUnsettled (s : State) (g : Graph) (op : OpRef) (n : Nat) : List Nat :=
  (segs s g.pen (some g) op 0 n).flatMap fun x => match x.1 with
    | .stk a => unsettled s a x.2
    | _ => []

/-- COPY (R376, R377, R412). Owned lines of its source are asked for first (R257). -/
def execCopy (t : TaskId) (s : State) : Res :=
  match running s t 0x04 (some 0) with
  | none => .next s
  | some (g, k) =>
    let n := par k 0 40
    let src := opd k 0
    let dst := opd k 1
    if k.run != .none then .next s
    else if copyBad k then .next (unpredictable s t g (outputs s g k))
    else if hostCut s src || hostCut s dst then
      .next (droverBusError s t g k { addr := hostAddr (if hostCut s src then src else dst), write := !hostCut s src, kind := 4, target := 0 })
    else if !(operandUnsettled s g src n).isEmpty then .next (askLines s (operandUnsettled s g src n))
    else match borrowedOf s g.pen src, borrowedOf s g.pen dst with
      | some _, some _ => .next (unpredictable s t g [])
      | some b, none => .next (copyRemote s t g k n true b [])
      | none, db =>
        if !(poisonRuns s g src n).isEmpty then .next (copyPoisoned s t g k n)
        else match readOp s g.pen (some g) src 0 n with
          | .err e => .next (readFailed s t g k e)
          | .ok bs => match db with
            | some b => .next (copyRemote s t g k n false b bs)
            | none =>
              if overlap src n dst n then
                .next (finishTask (smudgeOp (modTask s t fun k => { k with wrote := true }) g.pen (some g) dst 0 n) t stSuccess n)
              else .next (copyOut s t g k n bs)

/-- COPY SUBTYPE 1, fill (R376). -/
def execFill (t : TaskId) (s : State) : Res :=
  match running s t 0x04 (some 1) with
  | none => .next s
  | some (g, k) =>
    let n := par k 0 40
    let dst := opd k 1
    let bs := List.replicate n (BitVec.ofNat 8 (par k 40 8))
    if k.run != .none then .next s
    else if copyBad k then .next (unpredictable s t g (outputs s g k))
    else if hostCut s dst then .next (droverBusError s t g k { addr := hostAddr dst, write := true, kind := 4, target := 0 })
    else match borrowedOf s g.pen dst with
      | some b => .next (copyRemote s t g k n false b bs)
      | none => .next (copyOut s t g k n bs)

/-! Rings. -/

/-- Base registers: space, entries, address (R380). -/
def baseNode (b : W64) : Bool := b.getLsbD 0
def baseEntries (b : W64) : Nat := 2 ^ bits b.toNat 1 5
def baseAddr (b : W64) : Nat := b.toNat / 4096 * 4096

/-- Memory of a space: 0 host, 1 node by device physical address. -/
def spaceRead (s : State) (node : Bool) (a n : Nat) : List Byte := if node then readStack s a n else s.hostMem.read a n
def spaceWrite (s : State) (t : Option TaskId) (node : Bool) (a : Nat) (bs : List Byte) : State :=
  if node then agentWrite s t dmaAgent a bs else hostWrite s 36 a bs
/-- The key under which a descriptor's writes through the directory are awaited. -/
def descKey (channel index : Nat) : TaskId := ⟨2 ^ 64 + channel, index⟩

/-- A node range within home slots of usable stacks (R324, R378). -/
def nodeRange (s : State) (a n : Nat) : Bool :=
  (List.range ((a % bale + n + bale - 1) / bale)).all fun i =>
    let b := a / bale * bale + i * bale
    decide (dpaStack b < 20) && stackUsable s (dpaStack b) && decide (dpaOff b / bale < homeSlots s (dpaStack b))

/-- The ring of a channel and, in host mode, its record queue: space, address, bytes (R380, R382). -/
def ringRanges (d : Dma) : List (Bool × Nat × Nat) :=
  (baseNode d.rbase, baseAddr d.rbase, 32 * baseEntries d.rbase) ::
    if d.mode then [] else [(baseNode d.cqbase, baseAddr d.cqbase, 16 * baseEntries d.cqbase)]

/-- Whether two ranges of memory share a byte. -/
def meet (x y : Bool × Nat × Nat) : Bool := x.1 == y.1 && decide (x.2.1 < y.2.1 + y.2.2 ∧ y.2.1 < x.2.1 + x.2.2)

/-- A LOG outside 4 to 16. -/
def logBad (b : W64) : Bool := decide (bits b.toNat 1 5 < 4 ∨ 16 < bits b.toNat 1 5)

/-- A channel that R390 leaves unpredictable: a LOG out of range, a VEC that is not pen 0's, its ring over its record queue. -/
def channelBad (s : State) (d : Dma) : Bool :=
  logBad d.rbase || (!d.mode && logBad d.cqbase) || (d.ien && !((tget s.vecs d.vec).assigned && (tget s.vecs d.vec).owner == 0)) ||
    (match ringRanges d with
      | x :: r => r.any (meet x)
      | [] => false)

/-- A descriptor of a ring (R380). One whose data lie over the ring or the record queue, or of a channel that R390 leaves
unpredictable, counts among those with a reserved field set: what it does is unpredictable as theirs. -/
def descrAt (s : State) (d : Dma) (i : Nat) : Descr :=
  let b := spaceRead s (baseNode d.rbase) (baseAddr d.rbase + 32 * i) 32
  let x : Descr :=
    { idx := i, src := fieldAt b 0 8, dst := fieldAt b 8 8, len := fieldAt b 16 4, flags := fieldAt b 20 2, tag := fieldAt b 22 2 }
  let data := [(bit x.flags 1, x.src, x.len), (bit x.flags 2, x.dst, x.len)]
  { x with resv := !allZero (sub b 24 8) || channelBad s d || data.any fun y => (ringRanges d).any (meet y) }

def ownBit (x : Descr) : Bool := bit x.flags 0
def descOp (x : Descr) : Nat := bits x.flags 3 2
def descFence (x : Descr) : Bool := bit x.flags 5

/-- Whether the record queue is full (R382). -/
def dmaCqFull (d : Dma) : Bool := decide ((d.cqTail + 1) % max (baseEntries d.cqbase) 1 = d.cqhead)

/-- A completion record (R382). -/
def dmaRecord (x : Descr) (phase : Bool) : List Byte :=
  le 2 x.idx ++ le 2 x.tag ++ le 2 (statusNoDnr x.status) ++ le 2 (b2n phase) ++ le 4 x.bytes ++ le 4 0

/-- A finished descriptor reported: FLAGS written back, then its record or its event pulse (R381, R382, R384). -/
def reportDesc (s : State) (n : Nat) (x : Descr) : State :=
  let d := dmaOf s n
  let s := spaceWrite s none (baseNode d.rbase) (baseAddr d.rbase + 32 * x.idx + 20) (le 2 (x.flags / 2 * 2))
  if d.mode then
    let s := updDma s n fun d =>
      if x.status = stDataTransferError then { d with skipped := satAdd 16 d.skipped 1 }
      else if x.status = stCompareFailure then { d with mismatch := satAdd 16 d.mismatch 1 }
      else { d with done := satAdd 32 d.done 1 }
    emit s (.pulse n x.idx)
  else
    let s := spaceWrite s none (baseNode d.cqbase) (baseAddr d.cqbase + 16 * d.cqTail) (dmaRecord x d.phase)
    let s := updDma s n fun d =>
      let next := (d.cqTail + 1) % max (baseEntries d.cqbase) 1
      { d with cqTail := next, phase := if next = 0 then !d.phase else d.phase }
    if d.ien && (tget s.vecs d.vec).assigned && (tget s.vecs d.vec).owner == 0 then vecCount s d.vec else s

/-- Finished descriptors reported in ring order while the queue takes them (R382), by fuel. -/
def retireDescs (s : State) (n : Nat) : Nat → State
  | 0 => s
  | k + 1 =>
    let d := dmaOf s n
    match d.descs with
    | [] => s
    | x :: r =>
      if !x.fin || (!d.mode && dmaCqFull d) then s
      else retireDescs (reportDesc (updDma s n fun d => { d with descs := r }) n x) n k

def retire1 (s : State) (n : Nat) : State := retireDescs s n (dmaOf s n).descs.length

/-- A write of EN = 1 (R387): head and record slot 0, phase 1, event counters 0. -/
def enableDma (s : State) (n : Nat) : State :=
  updDma s n fun d => { d with
    en := true, idle := false, head := 0, cqTail := 0, phase := true, descs := [], done := 0, mismatch := 0
    skipped := 0, halted := false, inFlight := [] }

/-- A write of EN = 0 (R387): descriptors not finished keep OWN 1; the records of finished ones are written. -/
def stopDma (s : State) (n : Nat) : State :=
  let s := updDma s n fun d => { d with descs := d.descs.filter fun x => x.fin }
  let s := retire1 s n
  updDma s n fun d => { d with en := false, halted := false, inFlight := [], idle := true }

/-- DMA_ENABLE (R387): on a ring channel in service. -/
def execDmaEnable (channel : Nat) (s : State) : Res :=
  actWhen (ringChan s channel && (dmaOf s channel).inService) s (enableDma s channel)

/-- DMA_STOP (R387). -/
def execDmaStop (channel : Nat) (s : State) : Res :=
  actWhen (ringChan s channel && (dmaOf s channel).en) s (stopDma s channel)

/-- A halted channel restarted (R386): the failing descriptor is read again and runs from its start, or completes with Data
Transfer Error. -/
def restartDma (s : State) (n : Nat) (skip : Bool) : State :=
  let d := dmaOf s n
  let i := d.failIdx
  let r := drawTag s
  let old := (d.descs.find? fun x => x.idx == i).getD
    { idx := i, src := 0, dst := 0, len := (Config.freeWord r.1).toNat, flags := 1, tag := (Config.freeWord r.1).toNat % 65536 }
  let new : Descr := if skip then { old with fin := true, status := stDataTransferError, bytes := old.len } else descrAt s d i
  let known := d.descs.any fun x => x.idx == i
  let s := if known then s else r.2
  let s := updDma s n fun d => { d with
    halted := false, inFlight := [], idle := false
    descs := if known then d.descs.map fun x => if x.idx = i then new else x
      else if skip then d.descs ++ [new] else d.descs
    head := if known then d.head else if skip then (i + 1) % max (baseEntries d.rbase) 1 else i }
  retire1 s n

/-- DMA_RESTART (R386): without effect while the channel is not halted. -/
def execDmaRestart (channel : Nat) (skip : Bool) (s : State) : Res :=
  actWhen (ringChan s channel && (dmaOf s channel).halted) s (restartDma s channel skip)

/-- Whether a channel has nothing running. -/
def dmaQuiet (d : Dma) : Bool := d.descs.isEmpty && (d.idle || !d.en) && !d.halted

/-- DMA_TEST (R388): requested, and begun once the channel is idle. -/
def execDmaTest (channel : Nat) (s : State) : Res :=
  actWhen (ringChan s channel && (dmaOf s channel).inService) s
    (updDma s channel fun d => { d with testWanted := true, testing := dmaQuiet d })

/-- A channel out of service (R388). -/
def loseDma (s : State) (n : Nat) : State :=
  postEvent (markOut (updDma s n fun d => { d with inService := false, testing := false, testWanted := false, descs := [], halted := false, inFlight := [] }))
    3 (.dma n) 1 n 0

/-- DMA_DOORBELL (R381): the host's writes before it stand in its memory; an idle channel fetches again. -/
def execDmaDoorbell (channel : Nat) (writes : List (Nat × Byte)) (s : State) : Res :=
  let s := { s with hostMem := s.hostMem.sets writes }
  actWhen (ringChan s channel && (dmaOf s channel).en && (dmaOf s channel).inService) s
    (updDma s channel fun d => { d with idle := false })

/-- DMA_CQHEAD_WRITE (R382): room for waiting records. -/
def execDmaCqheadWrite (channel : Nat) (value : W32) (s : State) : Res :=
  actWhen (ringChan s channel) s (retire1 (updDma s channel fun d => { d with cqhead := value.toNat % 65536 }) channel)

/-- Descriptors fetched from the head index, by count: those with OWN set; the first without makes the channel idle (R381). -/
def fetchDescs (s : State) (d : Dma) : Nat → Dma
  | 0 => d
  | k + 1 =>
    let x := descrAt s d d.head
    if ownBit x then fetchDescs s { d with descs := d.descs ++ [x], head := (d.head + 1) % max (baseEntries d.rbase) 1 } k
    else { d with idle := true }

/-- DESCRIPTOR_FETCH_DONE (R381): up to 16 ahead. -/
def execDescriptorFetchDone (channel : Nat) (s : State) : Res :=
  let d := dmaOf s channel
  actWhen (ringChan s channel && d.en && d.inService && !d.halted && !d.idle) s
    (updDma s channel fun d => fetchDescs s d (16 - d.descs.length))

/-- The descriptors that run: in order, four at once, a FENCE only with none before it (R375, R380). -/
def runningDescs (l : List Descr) : List Descr :=
  let go := l.foldl (fun (x : Bool × List Descr) d =>
    if x.1 then x else if descFence d && !(x.2.isEmpty && l.head? == some d) then (true, x.2) else (false, x.2 ++ [d])) (false, [])
  (go.2.filter fun d => !d.fin).take 4

/-- A ring channel halts on a bus error (R385): the earliest failing descriptor is latched. An error of a line still in flight after
software has cleared VALID sets it again (R15). -/
def haltDma (s : State) (n index : Nat) (e : BusErr) : State :=
  updDma s n fun d =>
    if !d.halted then
      { latchDma d e index 0 with halted := true, failIdx := index, inFlight := without ((runningDescs d.descs).map (·.idx)) index }
    else
      let ringPos (i : Nat) : Nat := (i + 65536 - ((d.descs.head?.map (·.idx)).getD 0)) % 65536
      let earlier := decide (ringPos index < ringPos d.failIdx)
      let d := { d with inFlight := without d.inFlight index, failIdx := if earlier then index else d.failIdx }
      if earlier || !d.errValid then { latchDma { d with errValid := false } e index 0 with errMulti := d.errValid }
      else { d with errMulti := true }

/-- The node-range error of a descriptor, if it has one (R378). -/
def descRangeErr (s : State) (x : Descr) : Option BusErr :=
  if descOp x != 1 && bit x.flags 1 && !nodeRange s x.src x.len then
    some { addr := BitVec.ofNat 64 x.src, write := false, kind := 5, target := 0 }
  else if bit x.flags 2 && !nodeRange s x.dst x.len then
    some { addr := BitVec.ofNat 64 x.dst, write := descOp x != 2, kind := 5, target := 0 }
  else none

/-- Offset of the first difference of two ranges. -/
def firstDiff : List Byte → List Byte → Nat → Option Nat
  | a :: r, b :: q, i => if a = b then firstDiff r q (i + 1) else some i
  | _, _, _ => none

/-- The data of a descriptor moved (R380, R382): the state, its status and BYTES. -/
def runDescr (s : State) (key : TaskId) (x : Descr) : State × Nat × Nat :=
  let src := spaceRead s (bit x.flags 1) x.src x.len
  let bad (node : Bool) (a : Nat) : Bool := node && poisoned s a x.len
  match descOp x with
  | 0 =>
    let s1 := spaceWrite s (some key) (bit x.flags 2) x.dst src
    if bad (bit x.flags 1) x.src then
      let lines := (s.poison.filter fun l => decide (x.src < l + line ∧ l < x.src + x.len)).map fun l => (x.dst + (l - x.src)) / line * line
      ({ s1 with poison := if bit x.flags 2 then lines.foldl addNew s1.poison else s1.poison }, stMediaError, x.len)
    else (s1, stSuccess, x.len)
  | 1 =>
    let pat := le 8 x.src
    (spaceWrite s (some key) (bit x.flags 2) x.dst ((List.range x.len).map fun i => nth pat (i % 8) 0), stSuccess, x.len)
  | _ =>
    let dst := spaceRead s (bit x.flags 2) x.dst x.len
    if bad (bit x.flags 1) x.src || bad (bit x.flags 2) x.dst then (s, stMediaError, x.len)
    else match firstDiff src dst 0 with
      | some i => (s, stCompareFailure, i)
      | none => (s, stSuccess, x.len)

/-- A descriptor that R390 leaves unpredictable: its destination, status and BYTES are free (log 14). -/
def descBad (x : Descr) : Bool := descOp x == 3 || x.len == 0 || bits x.flags 6 10 != 0 || x.resv
/-- A copy whose ranges overlap: its destination is unpredictable (R390). -/
def descOverlap (x : Descr) : Bool :=
  descOp x == 0 && bit x.flags 1 == bit x.flags 2 && decide (x.src < x.dst + x.len ∧ x.dst < x.src + x.len)
/-- A descriptor's destination left unpredictable. -/
def smudgeDst (s : State) (x : Descr) : State :=
  let r := drawTag s
  if bit x.flags 2 then { r.2 with mem := r.2.mem.smudge x.dst x.len r.1 } else { r.2 with hostMem := r.2.hostMem.smudge x.dst x.len r.1 }

/-- Lines of a descriptor's node ranges that are owned when it is to read them (R257). -/
def descUnsettled (s : State) (x : Descr) : List Nat :=
  (if descOp x != 1 && bit x.flags 1 then unsettled s x.src x.len else []) ++
    (if descOp x != 0 && descOp x != 1 && bit x.flags 2 then unsettled s x.dst x.len else [])

/-- DESCRIPTOR_COMPLETE (R380 to R384): the data of a running descriptor is moved; reports follow in ring order. A node range
outside the home slots is a bus error (R378). Owned lines that it reads are asked for first, and it ends once its writes are
performed (R257, R268). -/
def execDescriptorComplete (channel index : Nat) (s : State) : Res :=
  let d := dmaOf s channel
  let run := if d.halted then d.descs.filter fun x => !x.fin && decide (x.idx ∈ d.inFlight) else runningDescs d.descs
  if !(ringChan s channel && d.en && d.inService) || (!d.mode && dmaCqFull d) then .next s
  else match run.find? (fun x => x.idx == index) with
    | none => .next s
    | some x =>
      let mark (s : State) (st n : Nat) : State := retire1 (updDma s channel fun d => { d with
        descs := d.descs.map fun y => if y.idx = index then { y with fin := true, status := st, bytes := n } else y }) channel
      let key := descKey channel index
      if x.moved then actWhen (!writesOpen s key) s (mark (forgetWrites s key) x.status x.bytes)
      else if descBad x then
        let r := drawTag (smudgeDst s x)
        let q := drawTag r.2
        .next (mark q.2 ((Config.freeWord r.1).toNat % 2048) (Config.freeWord q.1).toNat)
      else match descRangeErr s x with
        | some e => .next (haltDma s channel index e)
        | none =>
          let owned := descUnsettled s x
          if !owned.isEmpty then .next (askLines s owned)
          else
            let r := if descOverlap x then (smudgeDst s x, stSuccess, x.len) else runDescr s key x
            if writesOpen r.1 key then
              .next (updDma r.1 channel fun d => { d with
                descs := d.descs.map fun y => if y.idx = index then { y with moved := true, status := r.2.1, bytes := r.2.2 } else y })
            else .next (mark r.1 r.2.1 r.2.2)

/-- A bus error of a channel (R379, R385): a ring channel latches it and halts; a Drover channel latches it, fails the task and goes
on. -/
def busErrorOn (channel index : Nat) (task : Option TaskId) (err : BusErr) (s : State) : State :=
  if ringChan s channel then
    if (dmaOf s channel).en && (dmaOf s channel).inService then haltDma s channel index err else s
  else match task with
    | none => if s.boot.ready then updDma s channel fun d => latchDma d err 0 0 else s
    | some t => match running s t 0x04 none with
      | none => s
      | some (g, k) => if k.unitNo = channel then droverBusError s t g k err else s

/-- BUS_ERROR (R379, R385). -/
def execBusError (channel index : Nat) (task : Option TaskId) (err : BusErr) (s : State) : Res :=
  .next (busErrorOn channel index task err s)

/-- ERRINFO_CLEAR (R15): VALID clears, and MULTI with it (DESIGN CHOICE, log 140: the spec says only when MULTI is 1); an error of the
same cycle is latched after it. -/
def execErrinfoClear (channel : Nat) (sameCycle : Option (Nat × Option TaskId × BusErr)) (s : State) : Res :=
  let s := updDma s channel fun d => { d with errValid := false, errMulti := false }
  match sameCycle with
  | none => .next s
  | some e => .next (busErrorOn channel e.1 e.2.1 e.2.2 s)

end Sys2Proof.Machine
end

