-- ==== Sys2Proof/Machine/Search.lean ====
section
/-!
DEFINITION. The QUERY task on one index (03): its start, the rounds of both walks, the engines' page and hop work, the rerank.
-/

namespace Sys2Proof.Machine

/-- What a query's walk reads, when its index and epoch are still held. -/
def walkCtx (s : State) (t : TaskId) (w : Walk) : Option (Index × WCtx) :=
  match indexOf s w.pen (.obj w.object 0) with
  | none => none
  | some (_, x) => (tget? x.epochs w.epoch).map fun sn =>
      (x, { d := x.desc, sn := sn, code := w.code, p := w.p, node := s.flue.nodeId, tag := t.graph * 4096 + t.idx })

/-- A walk kept in its task. -/
def setWalk (s : State) (t : TaskId) (w : Walk) : State := modTask s t fun k => { k with run := .walk w }

/-- A walk whose result list has been offered to: kept in its task, its list where its mode keeps it (R120, R122). -/
def keepWalk (s : State) (t : TaskId) (k : Task) (w : Walk) : State := keepList (setWalk s t w) t k w.p.k w.results

/-- The walk of a running QUERY of SUBTYPE 0 that has started. -/
def walkOf (s : State) (t : TaskId) : Option (Graph × Task × Walk) :=
  match running s t 0x10 (some 0) with
  | none => none
  | some (g, k) => match k.run with
    | .walk w => if w.list = 0 then none else some (g, k, w)
    | _ => none

/-- A QUERY that has its results (R95, R100): the result buffer and the report written, the task finished; a peer's query
keeps them for its ANSWER (R406). Arrays altered meanwhile leave all of it unpredictable (R109). -/
def finishQuery (s : State) (t : TaskId) (g : Graph) (k : Task) (w : Walk) : State :=
  if !indexSound s g.pen (opd k 0) then unpredictable s t g (outputs s g k) else
  let l := w.results.take w.p.k
  let st := walkStatus w.p l.length
  let s := setWalk s t { w with results := l }
  if g.remote.isSome then finishTask s t st l.length
  else
    let s := writeResults s t g k (opd k 2) (if w.p.rerank = 0 then 0 else 1) w.p.k l
    let s := match opd k 3 with
      | .none => s
      | o => writeOp s t g.pen k.quad (some g) o 0 (reportBytes w.epoch w.budgetEnd w.roundsEnd (st == stFilterShort) w.counts l.length)
    finishTask s t st l.length

/-- The start of a walk on an index at an epoch (R93, R96); an index without entry record gives an empty walk. -/
def startWalk (s : State) (t : TaskId) (g : Graph) (k : Task) (w : Walk) : State :=
  match walkCtx s t w with
  | none => finishTask s t stEpochGone 0
  | some (_, c) => match c.sn.entry with
    | none => finishQuery s t g k { w with list := w.p.list, ended := true }
    | some e => keepWalk s t k (if c.d.flash then flashStart c w e else memStart c w e)

/-- Whether a walk may start: 1,024 on its tile, 65,536 memory-resident ones in the node (R105). -/
def walkRoom (s : State) (k : Task) (flash : Bool) : Bool :=
  decide ((tileOf s k.unitNo).walks.length < 1024) && (flash || decide (s.drover.memWalks.length < 65536))

/-- A walk started when there is room for it; else its task waits in the tile's issue queue (R105). -/
def beginWalk (s : State) (t : TaskId) (g : Graph) (k : Task) (flash : Bool) (w : Walk) : State :=
  if !walkRoom s k flash then s
  else
    let s := updTile s k.unitNo fun x => { x with walks := x.walks ++ [t] }
    let s := if flash then s else { s with drover := { s.drover with memWalks := s.drover.memWalks ++ [t] } }
    startWalk s t g k w

/-- QUERY (R87 to R91): the task reads its operands and starts its walk. An operand that names no index gives NOT_FOUND; what
R109 leaves unpredictable is. A shard query of a peer brings its code and parameters in its message (R405). -/
def execQuery (t : TaskId) (s : State) : Res :=
  match running s t 0x10 (some 0) with
  | none => .next s
  | some (g, k) =>
    if opLost s g.pen (opd k 0) then .next (finishTask s t stStateLost 0)
    else match indexOf s g.pen (opd k 0), k.run with
      | none, _ => .next (finishTask s t stNotFound 0)
      | some (_, x), .walk w =>
        if w.list ≠ 0 then .next s
        else if (x.desc.flash && decide (64 < w.p.entry)) || !indexSound s g.pen (opd k 0) then .next (unpredictable s t g (outputs s g k))
        else match k.bound with
          | none => .next (finishTask s t stEpochGone 0)
          | some e => .next (beginWalk s t g k x.desc.flash { w with epoch := e })
      | some (num, x), _ =>
        match paramBlock s g k 192, readOp s g.pen (some g) (opd k 1) 0 (codeBytes x.desc) with
        | .err e, _ => .next (readFailed s t g k e)
        | _, .err e => .next (readFailed s t g k e)
        | .ok b, .ok code =>
          let p := qparamsOf b
          if !qparamsOk x.desc.flash b || (p.rerank != 0 && (x.desc.vecPlace == 0 || opd k 4 == .none)) ||
              !indexSound s g.pen (opd k 0) then
            .next (unpredictable s t g (outputs s g k))
          else match k.bound with
            | none => .next (finishTask s t stEpochGone 0)
            | some e =>
              .next (beginWalk s t g k x.desc.flash { pen := g.pen, object := num, epoch := e, p := p, code := ofLe code })

/-- WALK_ROUND (R94): one turn of a memory-resident walk's loop; at its end the results are written, or RERANK follows. -/
def execWalkRound (t : TaskId) (s : State) : Res :=
  match walkOf s t with
  | none => .next s
  | some (g, k, w) =>
    if w.flash || w.ended then .next s
    else match walkCtx s t w with
      | none => .next s
      | some (_, c) =>
        let w := memStep c w
        .next (if w.ended && w.p.rerank == 0 then finishQuery s t g k w else keepWalk s t k w)

/-- The read of the four units of an index page, or of a page of vectors, as an epoch has them, sent to its channel; one that nothing has
programmed holds no record (R97, R293). -/
def sendUnits (x : Index) (t : TaskId) (epoch : Nat) (s : State) (ch page unit : Nat) : State :=
  let p := profOf s ch
  match slotAt (chanOf s ch) (unitKey x.space unit) epoch with
  | none => modTask s t fun k => walkVerdict k ch page true
  | some slot =>
    if slot = mapPoison then modTask s t fun k => walkVerdict k ch page false
    else updChan s ch fun c =>
      let op : FlashOp :=
        { num := c.nextOp, kind := 0, lun := blkLun p (slotBlk p slot), blk := slotBlk p slot
          page := slot % max (blockSectors p) 1 / 4, cls := 1, purpose := .walk t page
          units := (List.range 4).map fun i => (x.space, unit + i, 0) }
      { c with ops := c.ops ++ [op], nextOp := c.nextOp + 1 }

/-- The read of an index page. -/
def sendPage (x : Index) (t : TaskId) (epoch : Nat) (s : State) (ch page : Nat) : State :=
  sendUnits x t epoch s ch page (pageUnit x.desc page)

/-- FLASH_WALK_ROUND (R97, R98): the returns of a finished round are merged; then a round starts, or the walk widens or ends.
An undecodable page ends the query with MEDIA_ERROR, an unusable channel with UNIT_LOST, an unloaded map segment with STATE_LOST
(R292), and no result is written; a round waits for a segment that is being rebuilt. -/
def execFlashWalkRound (t : TaskId) (s : State) : Res :=
  match walkOf s t with
  | none => .next s
  | some (g, k, w) =>
    if !w.flash || w.ended then .next s
    else if k.status = stMediaError then .next (finishTask s t stMediaError 0)
    else match walkCtx s t w with
      | none => .next s
      | some (x, c) =>
        if w.roundOpen && !roundDone w then .next s
        else
          let w := flashBegin c (if w.roundOpen then flashMerge c w else w)
          if w.ended then .next (if w.p.rerank = 0 then finishQuery s t g k w else setWalk s t w)
          else
            let pages := w.engines.flatMap fun e => e.2.todo.map fun d => (e.1, d.1)
            let units := pages.map fun y => (y.1, pageUnit x.desc y.2)
            let st := firstBad (fun y => chanUnitStatus s y.1 y.2) units
            if st ≠ 0 then .next (finishTask s t st 0)
            else if units.any fun y => decide (segOf y.1 y.2 ∈ s.ftl.reloading) then .next s
            else
              let s := keepWalk s t k w
              let s := modTask s t fun k => { k with usedFlash := k.usedFlash + 16 * pages.length }
              .next (pages.foldl (fun s y => sendPage x t w.epoch s y.1 y.2) s)

/-- ENGINE_PAGE_EXPAND (R97, step 3): a page that the engine has read and decoded. -/
def execEnginePageExpand (t : TaskId) (channel page : Nat) (s : State) : Res :=
  match walkOf s t with
  | none => .next s
  | some (_, _, w) => match walkCtx s t w, (tget w.engines channel).todo.find? (fun d => d.1 == page && d.2.2) with
    | some (_, c), some d => .next (setWalk s t (flashExpand c w channel page d.2.1))
    | _, _ => .next s

/-- HOP (R97, step 4): the oldest hop on its way to an engine arrives. -/
def execHop (t : TaskId) (channel : Nat) (s : State) : Res :=
  match walkOf s t with
  | none => .next s
  | some (_, _, w) =>
    let e := tget w.engines channel
    match e.hops with
    | [] => .next s
    | h :: r => .next (setWalk s t { w with engines := tput w.engines channel (hopIn { e with hops := r } h) })

/-- The full-precision query vector: OPERAND4, or what a peer's message carried (R87, R405). -/
def queryVec (s : State) (g : Graph) (k : Task) (w : Walk) (d : Desc) : Rd :=
  if g.remote.isSome then .ok w.qvec else readOp s g.pen (some g) (opd k 4) 0 (vecBytes d)

/-- The round of vector reads of a rerank on flash (R41, R99): one read for each entry, at the channel of its slot's page. -/
def gather (s : State) (t : TaskId) (x : Index) (w : Walk) : State :=
  let slots := (w.results.take w.p.rerank).map (·.slot)
  let units := slots.map fun n => (slotChan x.desc n, vecUnit x.desc n)
  let st := firstBad (fun y => chanUnitStatus s y.1 y.2) units
  if st ≠ 0 then finishTask s t st 0
  else if units.any fun y => decide (segOf y.1 y.2 ∈ s.ftl.reloading) then s
  else
    let w := { w with
      gathered := true, counts := { w.counts with pages := w.counts.pages + slots.length }
      engines := slots.foldl (fun e n => tmod e (slotChan x.desc n) fun y => { y with todo := y.todo ++ [(vecPage n, [], false)] }) w.engines }
    let s := modTask (setWalk s t w) t fun k => { k with usedFlash := k.usedFlash + 16 * slots.length }
    slots.foldl (fun s n => sendUnits x t w.epoch s (slotChan x.desc n) (vecPage n) (vecUnit x.desc n)) s

/-- The multiplies of a rerank of r vectors: the sums of products of R99, one for each score, under cosine also for each norm (log 151). -/
def rerankMacs (metric r dim : Nat) : Nat := if metric = 2 then (2 * r + 1) * dim else r * dim

/-- RERANK (R99, R98): the walk has ended; the vectors on flash are gathered in one round of reads, an unreadable one ending the query
with MEDIA_ERROR; then the first r eligible entries are scored and the K best kept. -/
def execRerank (t : TaskId) (s : State) : Res :=
  match walkOf s t with
  | none => .next s
  | some (g, k, w) =>
    if !w.ended || w.p.rerank == 0 then .next s
    else if k.status = stMediaError then .next (finishTask s t stMediaError 0)
    else match walkCtx s t w with
      | none => .next s
      | some (x, c) =>
        if c.d.vecPlace = 2 ∧ !w.gathered then .next (gather s t x w)
        else if w.engines.any (fun e => e.2.todo.any fun d => !d.2.2) then .next s
        else match queryVec s g k w c.d with
          | .err e => .next (readFailed s t g k e)
          | .ok qv =>
            let n := if c.d.vecPlace = 1 then min w.p.rerank w.results.length else 0
            let r := min w.p.rerank w.results.length
            let s := updTile s k.unitNo fun y => { y with macs := wrapAdd 74 y.macs (rerankMacs c.d.metric r c.d.vecDim) }
            let s := modTask s t fun k => { k with usedStack := k.usedStack + n * vecBytes c.d }
            .next (finishQuery s t g k { w with results := rerankHits c qv w.results })

end Sys2Proof.Machine
end

