-- ==== Sys2Proof/Machine/FanOut.lean ====
section
/-!
DEFINITION. Fan-out (R102, R103, R405 to R407): the shepherd's shards, the ANSWER messages of a shard, the merged result. The
bodies of QUERY and ANSWER are laid out by the model (log 15).
-/

namespace Sys2Proof.Machine

/-- Epochs that an index holds (R131): the last `held` of those it keeps. -/
def epochHeld (x : Index) (e : Nat) : Bool := e ∈ (tkeys x.epochs).drop (x.epochs.length - x.held)

/-- The entries of a shard list (R102). -/
def shardsOf (b : List Byte) (n : Nat) : List Shard :=
  (List.range n).map fun i =>
    let o := 8 + 16 * i
    { node := bits (fieldAt b o 2) 0 10, object := fieldAt b (o + 4) 4, epoch := fieldAt b (o + 8) 6, corrid := 0, done := false
      status := 0, epochUsed := 0, hits := [], counts := {}, flags := 0 : Shard }

def failShard (sh : Shard) (st : Nat) : Shard := { sh with done := true, status := st, hits := [] }

/-- The graph that a shard on this node is: one SUBTYPE 0 QUERY in the fan-out's pen and class, writing no records (R102). -/
def shardGraph (s : State) (g : Graph) (sh : Shard) (p : QParams) (code qv : List Byte) (corr : Nat) : Graph :=
  let w : Walk := { pen := g.pen, object := sh.object, p := { p with epoch := sh.epoch }, code := ofLe code, qvec := qv }
  let k : Task := { typ := 0x10, ops := [.obj sh.object 0, .none, .none, .none, .none, .none], run := .walk w }
  { acc := s.drover.nextAcc, pen := g.pen, cmd := ⟨512 + g.pen, 0, 0, false⟩, cls := g.cls, tasks := [k], remote := some (localCtx, corr) }

/-- A graph of one task taken into the task table. -/
def takeGraph (s : State) (g : Graph) : State :=
  let s := traceDecide s 0x10 (le 4 g.acc ++ le 2 g.pen ++ le 2 0 ++ le 2 0)
  { s with drover := { s.drover with
    graphs := s.drover.graphs ++ [makeReady g s.drover.nextReady]
    nextAcc := s.drover.nextAcc + 1, nextReady := s.drover.nextReady + 1 } }

/-- The pen's context for a shard's node: one that is OPEN, else one that is OPENING, on which the message waits (R401, R405). -/
def shardCtx (s : State) (pen node : Nat) : Option Nat :=
  match ctxTo s pen node with
  | some c => some c
  | none => (s.flue.ctxs.find? fun c => c.2.st == 1 && c.2.pen == pen && c.2.peer == node).map (·.1)

/-- A shard entry started: as a QUERY of its own on this node (R102), or sent as a QUERY message (R405). -/
def startShard (s : State) (g : Graph) (sh : Shard) (block code qv : List Byte) : State × Shard :=
  let p := qparamsOf block
  if sh.node = s.flue.nodeId then
    let r := drawCorr s
    (takeGraph r.2 (shardGraph r.2 g sh p code qv r.1), { sh with corrid := r.1, ctx := localCtx })
  else match shardCtx s g.pen sh.node with
    | none => (s, failShard sh stNotFound)
    | some c =>
      let r := drawCorr s
      (ctxSend r.2 c 0x20 0 r.1 (le 4 sh.object ++ le 6 sh.epoch ++ le 2 0 ++ sub block 0 192 ++ code ++ (if p.rerank = 0 then [] else qv)),
        { sh with corrid := r.1, ctx := c })

def startShards (s : State) (g : Graph) (block code qv : List Byte) : List Shard → State × List Shard
  | [] => (s, [])
  | sh :: rest =>
    let r := startShard s g sh block code qv
    let q := startShards r.1 g block code qv rest
    (q.1, r.2 :: q.2)

/-- The entries of a shard list with the epochs that an earlier issue bound (R91). -/
def keepEpochs (r : Run) (l : List Shard) : List Shard := match r with
  | .walk w => ((List.range l.length).zip l).map fun x => match w.shards[x.1]? with
      | some o => if o.ctx = localCtx ∧ o.object = x.2.object then { x.2 with epoch := o.epoch } else x.2
      | none => x.2
  | _ => l

/-- Whether a fan-out has started its shards. -/
def fanStarted (r : Run) : Bool := match r with
  | .walk w => w.list != 0
  | _ => false

def addCounts (a b : Counts) : Counts :=
  { rounds := a.rounds + b.rounds, expansions := a.expansions + b.expansions, scored := a.scored + b.scored
    pages := a.pages + b.pages, widenings := a.widenings + b.widenings }

/-- The fan-out once every shard has answered (R100, R103, R127): the failure of the lowest entry that failed, or the merged list
and the report. -/
def finishFan (s : State) (t : TaskId) (g : Graph) (k : Task) (w : Walk) : State :=
  if !w.shards.all (·.done) then setWalk s t w
  else match w.shards.find? (fun sh => isFailure sh.status) with
    | some sh => finishTask s t sh.status 0
    | none =>
      let l := select w.p.k (w.shards.flatMap fun sh => sh.hits.map fun h => { h with source := sh.node })
      let st := walkStatus w.p l.length
      let s := writeResults s t g k (opd k 2) (if w.p.rerank = 0 then 0 else 1) w.p.k l
      let fl (i : Nat) : Bool := w.shards.any fun sh => bit sh.flags i
      let first := ((w.shards.head?).map (·.epochUsed)).getD 0
      let rep := reportBytes first (fl 0) (fl 1) (st == stFilterShort) ((w.shards.map (·.counts)).foldl addCounts {}) l.length ++
        w.shards.flatMap fun sh => le 8 (sh.epochUsed + sh.node * 2 ^ 48)
      let s := match opd k 3 with
        | .none => s
        | o => writeOp s t g.pen k.quad (some g) o 0 rep
      finishTask s t st l.length

/-- Whether a shard on this node differs from OPERAND0's index in what R102 wants equal (R109). -/
def shardDiffers (s : State) (pen : Nat) (d : Desc) (sh : Shard) : Bool :=
  sh.node == s.flue.nodeId && (indexOf s pen (.obj sh.object 0)).any fun x =>
    x.2.desc.codeLog != d.codeLog || x.2.desc.attrBytes != d.attrBytes || x.2.desc.vecDim != d.vecDim ||
      x.2.desc.vecFmt != d.vecFmt || x.2.desc.metric != d.metric

/-- FAN_OUT_QUERY (R102, R405): the shards of the list started; those of other nodes go out as QUERY messages. -/
def execFanOutQuery (t : TaskId) (s : State) : Res :=
  match running s t 0x10 (some 1) with
  | none => .next s
  | some (g, k) =>
    if fanStarted k.run then .next s
    else match indexOf s g.pen (opd k 0) with
      | none => .next (finishTask s t stNotFound 0)
      | some (_, x) =>
        let rd (op : OpRef) (n : Nat) : Rd := readOp s g.pen (some g) op 0 n
        match paramBlock s g k 192, rd (opd k 1) (codeBytes x.desc), rd (opd k 5) 8 with
        | .err e, _, _ => .next (readFailed s t g k e)
        | _, .err e, _ => .next (readFailed s t g k e)
        | _, _, .err e => .next (readFailed s t g k e)
        | .ok b, .ok code, .ok h =>
          let p := qparamsOf b
          let n := fieldAt h 0 4
          if !qparamsOk x.desc.flash b || n = 0 || 64 < n || (p.rerank != 0 && (x.desc.vecPlace == 0 || opd k 4 == .none)) then
            .next (unpredictable s t g (outputs s g k))
          else
            let rq : Rd := if p.rerank = 0 then .ok [] else rd (opd k 4) (vecBytes x.desc)
            match rq, rd (opd k 5) (8 + 16 * n) with
            | .err e, _ => .next (readFailed s t g k e)
            | _, .err e => .next (readFailed s t g k e)
            | .ok qv, .ok lb =>
              let l := keepEpochs k.run (shardsOf lb n)
              if l.any (shardDiffers s g.pen x.desc) then .next (unpredictable s t g (outputs s g k))
              else
              let r := startShards s g b code qv l
              .next (finishFan r.1 t g k { pen := g.pen, p := p, code := ofLe code, list := p.list, shards := r.2 })

/-! ANSWER messages. -/

/-- The end of a shard's last ANSWER: status, epoch used, flags, counts. -/
def answerEnd (st epoch flags : Nat) (c : Counts) : List Byte :=
  le 2 st ++ le 6 epoch ++ le 4 flags ++ le 4 (sat32n c.rounds) ++ le 4 (sat32n c.expansions) ++ le 4 (sat32n c.scored) ++
    le 4 (sat32n c.pages) ++ le 4 (sat32n c.widenings)

/-- The bodies of a shard's answers (R406): up to 4,095 records after a 16 B header, whose byte 9 marks the last. -/
def answerBodies (k kind : Nat) (hits : List Hit) (tail : List Byte) : List (List Byte) :=
  let one (last : Bool) (l : List Hit) : List Byte := le 4 l.length ++ le 4 k ++ le 1 kind ++ le 1 (b2n last) ++ List.replicate 6 0 ++ l.flatMap hitBytes
  let cs := chunks 4095 hits
  let full := if ((cs.getLast?).map (·.length)).getD 0 ≤ 4093 then cs.dropLast else cs
  let rest := if ((cs.getLast?).map (·.length)).getD 0 ≤ 4093 then (cs.getLast?).getD [] else []
  full.map (one false) ++ [one true rest ++ tail]

/-- One ANSWER's records and, with the last, its end, taken into a shard. -/
def takeAnswer (sh : Shard) (b : List Byte) : Shard :=
  let n := fieldAt b 0 4
  let sh := { sh with hits := sh.hits ++ hitsOf (sub b 0 (16 + 16 * n)) }
  if fieldAt b 9 1 = 0 then sh
  else
    let e := b.drop (16 + 16 * n)
    { sh with
      done := true, status := fieldAt e 0 2, epochUsed := fieldAt e 2 6, flags := fieldAt e 8 4
      counts := { rounds := fieldAt e 12 4, expansions := fieldAt e 16 4, scored := fieldAt e 20 4, pages := fieldAt e 24 4
                  widenings := fieldAt e 28 4 } }

/-- The running fan-out and the position of its shard that waits for an answer with a tag from a context. -/
def shardOf (s : State) (pen ctx corr : Nat) : Option (TaskId × Graph × Task × Walk × Nat) :=
  (allTasks s).findSome? fun x =>
    if x.2.1.pen != pen || x.2.2.st != .issued || x.2.2.orphan || x.2.2.typ != 0x10 || x.2.2.sub != 1 then none
    else match x.2.2.run with
      | .walk w => (((List.range w.shards.length).zip w.shards).find? fun y => !y.2.done && y.2.corrid == corr && y.2.ctx == ctx).map fun y => (x.1, x.2.1, x.2.2, w, y.1)
      | _ => none

/-- The result of a shard on this node given to its fan-out (R102, R103). -/
def localAnswer (s : State) (pen corr status : Nat) (w : Walk) : State :=
  match shardOf s pen localCtx corr with
  | none => s
  | some (t, g, k, f, i) => match f.shards[i]? with
    | none => s
    | some sh =>
      let bad := isFailure status
      let sh := { sh with
        done := true, status := status, epochUsed := if bad then 0 else w.epoch, hits := if bad then [] else w.results, counts := w.counts
        flags := b2n w.budgetEnd + 2 * b2n w.roundsEnd }
      finishFan s t g k { f with shards := f.shards.set i sh }

/-- The ANSWER messages of a peer's query whose graph has completed (R406), or the answer of a shard on this node. -/
def sendAnswer (s : State) (g : Graph) : State :=
  match g.remote, g.tasks.head? with
  | some (c, corr), some k =>
    let w : Walk := match k.run with
      | .walk w => w
      | _ => {}
    let bad := isFailure k.status
    if c = localCtx then localAnswer s g.pen corr k.status w
    else
    let tail := answerEnd k.status (if bad then 0 else w.epoch) (b2n w.budgetEnd + 2 * b2n w.roundsEnd) w.counts
    (answerBodies w.p.k (if w.p.rerank = 0 then 0 else 1) (if bad then [] else w.results) tail).foldl
      (fun s b => ctxSend s c 0x21 0 corr b) s
  | _, _ => s

/-- Every ANSWER owed is sent. -/
def sendAnswers (s : State) : State :=
  let l := s.drover.doneRemote
  l.foldl sendAnswer { s with drover := { s.drover with doneRemote := [] } }

end Sys2Proof.Machine
end

