-- ==== Sys2Proof/Machine/Elementary.lean ====
section
/-!
DEFINITION. exp and tanh of R208: the correctly rounded fp32 values, from which the silicon's differ by at most 2 ulp (log 2).
-/

namespace Sys2Proof.Machine

/-- One in fixed point of 320 fraction bits. -/
def fixOne : Nat := 2 ^ 320
/-- ln 2 in fixed point: the sum of 1 / (k × 2^k). -/
def fixLn2 : Nat := (List.range 340).foldl (fun a k => a + fixOne / ((k + 1) * 2 ^ (k + 1))) 0

/-- The Taylor sum of exp at r in fixed point, from a term on, by count of terms. -/
def taylorGo (r : Nat) : Nat → Nat → Nat → Nat
  | 0, _, _ => 0
  | f + 1, i, term => term + taylorGo r f (i + 1) (term * r / ((i + 1) * fixOne))

/-- exp of a fixed-point number, as a mantissa of 320 fraction bits between 1 and 2 and a power of two. -/
def expFix (x : Int) : Nat × Int :=
  let k := x.fdiv fixLn2
  (taylorGo (x - k * fixLn2).toNat 90 0 fixOne, k)

/-- exp of a finite number. -/
def expFl (neg : Bool) (m : Nat) (e : Int) : Fl :=
  let x := signedAt neg m e (-320)
  if (128 * fixOne : Nat) < x then .inf false
  else if x < -((256 * fixOne : Nat) : Int) then .fin false 0 0
  else let r := expFix x; .fin false r.1 (r.2 - 320)

/-- tanh of a finite number. -/
def tanhFl (neg : Bool) (m : Nat) (e : Int) : Fl :=
  let x := signedAt false m e (-320)
  if (16 * fixOne : Nat) ≤ x then .fin neg 1 0
  else
    let r := expFix (2 * x)
    let n := r.1 * 2 ^ r.2.toNat
    .fin neg ((n - fixOne) * fixOne / (n + fixOne)) (-320)

/-- A float moved by d − 2 ulp, away from zero or towards it. -/
def ulpShift (a : W32) (d : Fin 5) : W32 :=
  BitVec.ofNat 32 (a.toNat / 2 ^ 31 * 2 ^ 31 + min (a.toNat % 2 ^ 31 + d.val - 2) 0x7F800000)

/-- exp of R208. -/
def expF32 (a : W32) : W32 := match flOf a with
  | .nan => 0x7FC00000
  | .inf neg => if neg then 0 else a
  | .fin neg m e => ulpShift (toF32 (expFl neg m e)) (Config.expUlp a)

/-- tanh of R208. -/
def tanhF32 (a : W32) : W32 := match flOf a with
  | .nan => 0x7FC00000
  | .inf neg => if neg then 0xBF800000 else 0x3F800000
  | .fin neg m e => ulpShift (toF32 (tanhFl neg m e)) (Config.tanhUlp a)

end Sys2Proof.Machine
end

