-- ==== Sys2Proof/Machine/Models.lean ====
section
/-!
DEFINITION. Resident models (08): the image, its steps (R205 to R208), MODEL_RUN (R209 to R214), and the VECTOR tasks (R215).
-/

namespace Sys2Proof.Machine

/-- A step record (R206). -/
structure MStep where
  kind : Nat
  op : Nat
  a : Nat
  b : Nat
  dst : Nat
  afmt : Nat
  wfmt : Nat
  ofmt : Nat
  n : Nat
  k : Nat
  heads : Nat
  transB : Bool
  causal : Bool
  f : W32
  wOff : Nat
  qOff : Nat
  biasOff : Nat
  auxOff : Nat
  zp : Int
deriving DecidableEq, Repr

def mstepOf (r : List Byte) : MStep :=
  { kind := fieldAt r 0 1, op := fieldAt r 1 1, a := fieldAt r 2 1, b := fieldAt r 3 1, dst := fieldAt r 4 1, afmt := fieldAt r 5 1
    wfmt := fieldAt r 6 1, ofmt := fieldAt r 7 1, n := fieldAt r 8 4, k := fieldAt r 12 4, heads := fieldAt r 16 2
    transB := bit (fieldAt r 18 1) 0, causal := bit (fieldAt r 18 1) 1, f := BitVec.ofNat 32 (fieldAt r 20 4), wOff := fieldAt r 24 8
    qOff := fieldAt r 32 8, biasOff := fieldAt r 40 8, auxOff := fieldAt r 48 8, zp := sext 16 (fieldAt r 56 2) }

/-- A row of a buffer: one element code a column; a column beyond its sequence's length is absent. -/
abbrev MRow := List (Option Nat)

/-- An activation buffer (R206): format, width, and the rows of each sequence; `pooled` when it holds one row per sequence. -/
structure MBuf where
  fmt : Nat := 0x0B
  width : Nat := 0
  pooled : Bool := false
  seqs : List (List MRow) := []
deriving DecidableEq, Repr, Inhabited

/-- Output formats that R201 has a row for (R184, R207). -/
def outFmtOk (f : Nat) : Bool := decide (f ∈ [0x00, 0x01, 0x0C, 0x08, 0x09, 0x0A, 0x0B])

/-! Vector ops (R207, R208) over the present elements of a row, in fp32. -/

def f32One : W32 := 0x3F800000
def meanOf (l : List W32) : W32 := f32Div (sumOrdered l) (f32OfInt l.length)
def rsqrtOf (x : W32) : W32 := f32Div f32One (f32Sqrt x)
/-- The max of a SOFTMAX row. What it is beside a NaN no rule says: the model passes over NaNs that do not come first (DESIGN CHOICE,
log 153). Such a row holds a NaN exponential, so every result of it is a NaN whatever its max. -/
def maxOf (l : List W32) : W32 := l.foldl (fun m x => if f32Lt m x then x else m) (l.headD 0)
def geluOf (a : W32) : W32 :=
  let u := f32Mul 0x3F4C422A (f32Add a (f32Mul 0x3D372713 (f32Mul (f32Mul a a) a)))
  f32Mul (f32Mul 0x3F000000 a) (f32Add f32One (tanhF32 u))
def siluOf (a : W32) : W32 := f32Div a (f32Add f32One (expF32 (f32Neg a)))

/-- A norm's gamma and beta applied to normalised elements; absent sections change nothing. -/
def affine (gamma beta : List W32) (l : List W32) : List W32 :=
  ((List.range l.length).zip l).map fun x =>
    let v := match gamma[x.1]? with
      | some g => f32Mul x.2 g
      | none => x.2
    match beta[x.1]? with
      | some b => f32Add v b
      | none => v

/-- The elements that an op gives for one row; `b` is the second operand's row (R207). -/
def rowOp (op : Nat) (f : W32) (gamma beta a b : List W32) : List W32 :=
  match op with
  | 0x01 => (a.zip b).map fun x => f32Add x.1 x.2
  | 0x02 => (a.zip b).map fun x => f32Mul x.1 x.2
  | 0x03 => a.map fun x => f32Mul x f
  | 0x04 =>
    let m := meanOf a
    let d := a.map fun x => f32Sub x m
    let r := rsqrtOf (f32Add (meanOf (d.map fun x => f32Mul x x)) f)
    affine gamma beta (d.map fun x => f32Mul x r)
  | 0x05 =>
    let r := rsqrtOf (f32Add (meanOf (a.map fun x => f32Mul x x)) f)
    affine gamma [] (a.map fun x => f32Mul x r)
  | 0x06 => a.map geluOf
  | 0x07 => a.map siluOf
  | 0x08 =>
    let m := maxOf a
    let e := a.map fun x => expF32 (f32Sub x m)
    let sum := sumOrdered e
    e.map fun x => f32Div x sum
  | 0x09 => a.map fun x => f32Mul x f
  | 0x0C =>
    if a.all (fun x => x = 0 || x = 0x80000000) then a
    else let n := f32Sqrt (dotOrdered a a); a.map fun x => f32Div x n
  | _ => a

/-- An op applied to a row with absent columns: they take no part and stay absent (R208). Under CAUSAL, SOFTMAX masks the
columns above the row's position (R206). -/
def maskedOp (st : MStep) (gamma beta : List W32) (fa fb pos : Nat) (a b : MRow) : MRow :=
  let keep (i : Nat) : Bool := !(st.op = 0x08 && st.causal) || decide (i ≤ pos)
  let idx := ((List.range a.length).zip a).filterMap fun x => match x.2 with
    | some v => if keep x.1 then some (x.1, v) else none
    | none => none
  let av := idx.map fun x => fmtF32 fa x.2
  let bv := idx.map fun x => fmtF32 fb ((nth b x.1 none).getD 0)
  let out := rowOp st.op st.f gamma beta av bv
  let zp := if st.op = 0x09 then st.zp else 0
  (List.range a.length).map fun i =>
    (((idx.zip out).find? fun y => y.1.1 == i).map fun y => outConvert st.ofmt zp y.2)

/-- The rows of one sequence pooled to one (R207). -/
def poolRows (st : MStep) (fa : Nat) (rows : List MRow) : MRow :=
  let w := (rows.headD []).length
  (List.range w).map fun c =>
    let col := rows.filterMap fun r => (nth r c none).map (fmtF32 fa)
    if st.op = 0x0B then (nth (rows.headD []) c none).map fun v => outConvert st.ofmt 0 (fmtF32 fa v)
    else if col.isEmpty then none else some (outConvert st.ofmt 0 (meanOf col))

/-- fp32 values of a section of the image. -/
def f32Section (img : List Byte) (off n : Nat) : List W32 :=
  if off = 0 then [] else (List.range n).map fun i => BitVec.ofNat 32 (fieldAt img (off + 4 * i) 4)

/-- Ops that read a second operand. -/
def binaryOp (op : Nat) : Bool := op == 0x01 || op == 0x02

/-- A vector step (R207): none for a shape or code that R225 leaves unpredictable. -/
def vecStep (img : List Byte) (st : MStep) (a b : MBuf) : Option MBuf :=
  let gamma := if st.op = 0x04 ∨ st.op = 0x05 then f32Section img st.auxOff st.n else []
  let beta := if st.op = 0x04 ∧ st.auxOff ≠ 0 then f32Section img (st.auxOff + 4 * st.n) st.n else []
  if !outFmtOk st.ofmt || decide (st.op = 0 ∨ 0x0D < st.op) || a.width != st.n || (binaryOp st.op && b.width != a.width) then none
  else if st.op = 0x0A ∨ st.op = 0x0B then
    some { fmt := st.ofmt, width := a.width, pooled := true, seqs := a.seqs.map fun r => [poolRows st a.fmt r] }
  else
    some { fmt := st.ofmt, width := a.width, pooled := a.pooled
           seqs := ((List.range a.seqs.length).zip a.seqs).map fun x =>
             ((List.range x.2.length).zip x.2).map fun r =>
               maskedOp st gamma beta a.fmt b.fmt r.1 r.2 (nth (nth b.seqs x.1 []) r.1 []) }

/-- Element codes as the bytes of a matrix row. -/
def rowCodes (fmt : Nat) (l : List Nat) : List Byte := l.flatMap (le (fmtBytes fmt))

/-- The quantisation block of a step. -/
def stepQuant (img : List Byte) (st : MStep) : Quant × List Byte :=
  if st.qOff = 0 then ({}, []) else let qb := img.drop st.qOff; (quantOf (sub qb 0 64), qb)

/-- Whether a step's quantisation block is one that R202 allows, for m rows, n columns and k lanes; it lies within the image. -/
def stepQuantOk (img : List Byte) (st : MStep) (q : Quant × List Byte) (m n k : Nat) : Bool :=
  let isInt := ((modeOf st.afmt st.wfmt q.1.cbFmt).map (·.isInt)).getD false
  quantOk st.afmt st.wfmt st.ofmt false q.1 && quantLayoutOk q.1 m n k &&
    (st.qOff == 0 || decide (st.qOff + quantBytes q.1 m n k ≤ img.length)) &&
    !((List.range n).any fun c => scaleBad isInt q.1 q.2 n k c)

/-- Lanes of a row that are absent (R208). -/
def absentLanes (r : MRow) : List Nat := ((List.range r.length).zip r).filterMap fun x => if x.2.isNone then some x.1 else none

/-- Rows numbered on over the sequences of a buffer: for each sequence the number of its first row. -/
def firstRows (l : List (List MRow)) : List Nat := (List.range l.length).map fun i => sumBy List.length (l.take i)

/-- An array step, A × W of the image (R206, R163): rows of the whole buffer are numbered on for the row zero points; absent columns of A
are absent lanes (R208). -/
def arrayStep (img : List Byte) (st : MStep) (a : MBuf) : Option MBuf :=
  let q := stepQuant img st
  if a.width != st.k || a.fmt != st.afmt || !stepQuantOk img st q (sumBy List.length a.seqs) st.n st.k then none
  else
    let rowB := if st.wfmt = 2 ∨ st.wfmt = 3 ∨ st.wfmt = 4 then st.n else st.n * fmtBytes st.wfmt
    let o : MatOps :=
      { m := (sumBy List.length a.seqs), n := st.n, k := st.k, lda := 0, ldw := rowB, afmt := st.afmt, wfmt := st.wfmt
        outfmt := st.ofmt, q := q.1, qb := q.2 }
    let w := img.drop st.wOff
    let bias := f32Section img st.biasOff st.n
    let row (m : Nat) (r : MRow) : MRow :=
      let arow := rowCodes st.afmt (r.map fun v => v.getD 0)
      (List.range st.n).map fun c => some (matCell { o with absent := absentLanes r } arow w m c (nth bias c 0))
    some { fmt := st.ofmt, width := st.n, pooled := a.pooled
           seqs := ((firstRows a.seqs).zip a.seqs).map fun x => ((List.range x.2.length).zip x.2).map fun r => row (x.1 + r.1) r.2 }

/-- Slice h of a row of some width. -/
def headSlice (r : MRow) (heads h : Nat) : MRow := let w := r.length / max heads 1; (r.drop (h * w)).take w

/-- One head of one sequence of an activation step (R206): slice times slice, or times the slice transposed, from the bias; lanes and
columns beyond the sequence's length, and masked ones, are absent (R208). The spec does not say which M, N and K the arrays of a
quantisation block have here (R190): the model numbers columns over the step's N, head h's from h × N / HEADS on, and rows over the
buffer as a KIND 0 step does (DESIGN CHOICE, log 152). -/
def headRows (st : MStep) (q : Quant × List Byte) (bias : List W32) (row0 : Nat) (a b : List MRow) (h : Nat) : List MRow :=
  let asl := a.map fun r => headSlice r st.heads h
  let bsl := b.map fun r => headSlice r st.heads h
  let outW := st.n / max st.heads 1
  let cols := if st.transB then bsl.length else (bsl.headD []).length
  let lanes := if st.transB then (bsl.headD []).length else bsl.length
  let e := fmtBytes st.wfmt
  let o : MatOps :=
    { m := a.length, n := st.n, k := lanes, lda := 0, ldw := (h * outW + cols) * e, afmt := st.afmt, wfmt := st.wfmt
      outfmt := st.ofmt, q := q.1, qb := q.2 }
  let w := (List.range lanes).flatMap fun k => List.replicate (h * outW * e) 0 ++ (List.range cols).flatMap fun c =>
    le e (((if st.transB then nth (nth bsl c []) k none else nth (nth bsl k []) c none)).getD 0)
  ((List.range asl.length).zip asl).map fun r =>
    let here := r.2.take lanes
    let arow := rowCodes st.afmt (here.map fun v => v.getD 0)
    (List.range outW).map fun c =>
      let n := h * outW + c
      if c < cols then some (matCell { o with k := min lanes here.length, absent := absentLanes here } arow w (row0 + r.1) n (nth bias n 0))
      else none

/-- An activation step (R206); shapes that disagree are unpredictable (R225). -/
def actStep (img : List Byte) (st : MStep) (a b : MBuf) : Option MBuf :=
  let q := stepQuant img st
  let heads := max st.heads 1
  if st.heads = 0 ∨ st.n % heads ≠ 0 ∨ a.fmt ≠ st.afmt ∨ b.fmt ≠ st.wfmt ∨ a.width % heads ≠ 0 ∨ b.width % heads ≠ 0 ∨
      a.seqs.length ≠ b.seqs.length ∨ a.width / heads ≠ st.k ∨ b.width / heads ≠ (if st.transB then st.k else st.n / heads) then none
  else if !stepQuantOk img st q (sumBy List.length a.seqs) st.n st.k then none
  else
    let bias := f32Section img st.biasOff st.n
    some { fmt := st.ofmt, width := st.n, pooled := a.pooled
           seqs := ((firstRows a.seqs).zip (a.seqs.zip b.seqs)).map fun x =>
             let hs := (List.range st.heads).map fun h => headRows st q bias x.1 x.2.1 x.2.2 h
             (List.range x.2.1.length).map fun i => hs.flatMap fun r => nth r i [] }

/-- One step of a model on its buffers. -/
def runStep (img : List Byte) (bufs : Nat) (st : MStep) (t : Tab MBuf) : Option (Tab MBuf) :=
  let a := tget t st.a
  let b := tget t st.b
  if bufs ≤ st.a ∨ bufs ≤ st.dst ∨ (bufs ≤ st.b ∧ (st.kind = 1 ∨ (st.kind = 2 ∧ binaryOp st.op = true))) then none
  else
    (match st.kind with
      | 0 => arrayStep img st a
      | 1 => actStep img st a b
      | 2 => vecStep img st a b
      | _ => none).map fun r => tput t st.dst r

/-- Steps run one after another: the buffers after them, and for each step the rows of each sequence of its first source. -/
def runSteps (img : List Byte) (bufs : Nat) : List MStep → Tab MBuf → Option (Tab MBuf × List (MStep × List Nat))
  | [], t => some (t, [])
  | st :: r, t => match runStep img bufs st t with
    | none => none
    | some u => (runSteps img bufs r u).map fun x => (x.1, (st, (tget t st.a).seqs.map List.length) :: x.2)

/-- MACs of a step on tile j of n (R209): a KIND 0 step is split by output column into contiguous ranges, a KIND 1 step by sequence and
head, dealt out in turn; lanes and columns beyond a sequence's length count nothing. -/
def stepMacs (n j : Nat) (x : MStep × List Nat) : Nat :=
  let st := x.1
  if st.kind = 0 then
    let w := ceilDiv st.n (max n 1)
    sumBy id x.2 * (min st.n ((j + 1) * w) - min st.n (j * w)) * st.k
  else if st.kind = 1 then
    let one (l : Nat) : Nat := l * (if st.transB then l else st.n / max st.heads 1) * (if st.transB then st.k else l)
    sumBy (fun i => sumBy (fun h => if (i * st.heads + h) % max n 1 = j then one (nth x.2 i 0) else 0) (List.range st.heads)) (List.range x.2.length)
  else 0

/-! The image's header (R205). -/

def imgSteps (h : List Byte) : Nat := fieldAt h 2 2
def imgDin (h : List Byte) : Nat := fieldAt h 4 2
def imgMaxSeq (h : List Byte) : Nat := fieldAt h 6 2
def imgVocab (h : List Byte) : Nat := fieldAt h 8 4
def imgTokFmt (h : List Byte) : Nat := fieldAt h 12 1
def imgBufs (h : List Byte) : Nat := fieldAt h 13 1
def imgStepAt (img : List Byte) (i : Nat) : MStep := mstepOf (sub img (fieldAt img 16 8 + 64 * i) 64)
def imgBytes (h : List Byte) : Nat := fieldAt h 56 8

/-- A section of n bytes at an offset that lies in the image, or is absent (R205). -/
def sectionOk (total off n : Nat) : Bool := off == 0 || (decide (off % 8 = 0 ∧ 64 ≤ off) && decide (off + n ≤ total))

/-- A step record with the values of R206 and R207, its sections within the image. -/
def imgStepOk (h r : List Byte) : Bool :=
  let st := mstepOf r
  let total := imgBytes h
  let rowB := if st.wfmt = 2 ∨ st.wfmt = 3 ∨ st.wfmt = 4 then st.n else st.n * fmtBytes st.wfmt
  let rows := if st.wfmt = 2 ∨ st.wfmt = 3 then st.k / 2 else st.k
  let usesB := st.kind = 1 || (st.kind = 2 && binaryOp st.op)
  decide (st.kind ≤ 2 ∧ 1 ≤ st.n ∧ st.a < imgBufs h ∧ st.dst < imgBufs h) && (st.kind == 2 || (st.op == 0 && st.k != 0)) &&
    (st.kind != 2 || decide (1 ≤ st.op ∧ st.op ≤ 0x0D)) && (if usesB then decide (st.b < imgBufs h) else st.b == 0xFF) &&
    (if st.kind = 1 then st.heads != 0 else st.heads == 1) && decide (fieldAt r 18 1 < 4) && fieldAt r 19 1 == 0 && allZero (sub r 58 6) &&
    (if st.kind = 0 then st.wOff != 0 && sectionOk total st.wOff (rows * rowB) else true) &&
    sectionOk total st.qOff 64 && sectionOk total st.biasOff (4 * st.n) && sectionOk total st.auxOff (if st.op = 0x04 then 8 * st.n else 4 * st.n)

/-- An image with the values of R205 and R206; R225 leaves the runs of any other unpredictable. -/
def imgOk (img : List Byte) : Bool :=
  let h := img
  decide (fieldAt h 0 2 = 1 ∧ 1 ≤ imgSteps h ∧ imgSteps h ≤ 1024 ∧ 1 ≤ imgDin h ∧ imgDin h ≤ 8192 ∧ 1 ≤ imgMaxSeq h ∧
    imgMaxSeq h ≤ 8192 ∧ (imgTokFmt h = 0x0A ∨ imgTokFmt h = 0x0B) ∧ 1 ≤ imgBufs h ∧ imgBufs h ≤ 16 ∧ fieldAt h 14 2 = 0 ∧
    fieldAt h 16 8 ≠ 0 ∧ fieldAt h 40 4 ≤ 1048576) &&
  sectionOk (imgBytes h) (fieldAt h 16 8) (64 * imgSteps h) &&
  sectionOk (imgBytes h) (fieldAt h 24 8) (imgVocab h * imgDin h * fmtBytes (imgTokFmt h)) && sectionOk (imgBytes h) (fieldAt h 32 8) 0 &&
  (List.range (imgSteps h)).all fun i => imgStepOk h (sub img (fieldAt img 16 8 + 64 * i) 64)

/-- KIND 0 multiplies per token (R214). -/
def imgMacs (img : List Byte) : Nat :=
  sumBy (fun i => let st := imgStepAt img i; if st.kind = 0 then st.n * st.k else 0) (List.range (imgSteps img))

/-- The KiB that a model's slices of KIND 0 steps take in each of n tiles (R209, R210). -/
def sliceKib (img : List Byte) (n : Nat) : Nat :=
  let step (st : MStep) : Nat :=
    if st.kind ≠ 0 then 0
    else
      let cols := ceilDiv st.n n
      let rows := if st.wfmt = 2 ∨ st.wfmt = 3 then st.k / 2 else st.k
      let w := rows * cols * (if st.wfmt = 2 ∨ st.wfmt = 3 ∨ st.wfmt = 4 then 1 else fmtBytes st.wfmt)
      let q := if st.qOff = 0 then 0 else quantBytes (stepQuant img st).1 0 cols st.k
      w + q + (if st.biasOff = 0 then 0 else 4 * cols) + (if st.auxOff = 0 then 0 else 8 * cols)
  ceilDiv (sumBy step ((List.range (imgSteps img)).map (imgStepAt img))) 1024

/-- A model's image from its home copy. -/
def modelImage (s : State) (p num bytes : Nat) : Rd := readOp s p none (.obj num 0) 0 bytes

/-- MODEL_RUN SUBTYPE 1, create (R204). -/
def execModelCreate (t : TaskId) (s : State) : Res :=
  match running s t 0x09 (some 1) with
  | none => .next s
  | some (g, k) => match readOp s g.pen (some g) (opd k 1) 0 64 with
    | .err e => .next (readFailed s t g k e)
    | .ok h =>
      let num := match opd k 0 with
        | .obj n _ => n
        | _ => 0
      if (objOf s g.pen num).isSome || k.param != 0 then .next (unpredictable s t g [])
      else match readOp s g.pen (some g) (opd k 1) 0 (imgBytes h) with
        | .err e => .next (readFailed s t g k e)
        | .ok img => match newObject s g.pen num k.quad (imgBytes h) (.model (imgBytes h) (imgMacs img)) with
          | none => .next (finishTask s t stQuotaExceeded 0)
          | some s => .next (finishTask (writeHome s g.pen none (.obj num 0) 0 img) t stSuccess 0)

/-- MODEL_RUN SUBTYPE 2, destroy (R204). -/
def execModelDestroy (t : TaskId) (s : State) : Res :=
  match running s t 0x09 (some 2) with
  | none => .next s
  | some (g, k) => match modelOf s g.pen (opd k 0) with
    | none => .next (finishTask s t stNotFound 0)
    | some (num, _, _) =>
      if k.param != 0 then .next (unpredictable s t g [])
      else
      let s := destroyObj s g.pen num
      let s := { s with quads := tmap s.quads fun _ q => { q with
        resident := q.resident.filter fun r => !(r.1 == g.pen && r.2.1 == num) } }
      .next (finishTask s t stSuccess 0)

/-- A sequence record: its length and entries of e bytes (R212). -/
def seqRecord (b : List Byte) (seqLen e i : Nat) : Nat × List (List Byte) :=
  let o := i * (4 + seqLen * e)
  let l := fieldAt b o 4
  (l, (List.range l).map fun j => sub b (o + 4 + j * e) e)

/-- The row of element codes that bytes spell in a format. -/
def codesOf (fmt : Nat) (b : List Byte) : MRow := (chunks (fmtBytes fmt) b).map fun x => some (ofLe x)

/-- Buffer 0 of a run: rows through the token table, or rows given (R212); none where R225 leaves it unpredictable. -/
def inputBuf (img inb : List Byte) (p : RunParam) : Option MBuf :=
  let fmt := imgTokFmt img
  let w := imgDin img
  let e := if p.inKind = 0 then 4 else w * fmtBytes fmt
  let recs := (List.range p.batch).map (seqRecord inb p.seqLen e)
  let bad := recs.any fun r => decide (r.1 = 0 ∨ p.seqLen < r.1) || (p.inKind = 0 && r.2.any fun b => decide (imgVocab img ≤ ofLe b))
  if bad then none
  else
    let row (b : List Byte) : MRow :=
      if p.inKind = 0 then codesOf fmt (sub img (fieldAt img 24 8 + ofLe b * w * fmtBytes fmt) (w * fmtBytes fmt)) else codesOf fmt b
    some { fmt := fmt, width := w, seqs := recs.map fun r => r.2.map row }

/-- A row's bytes; an absent column is a free value by its place (log 1). -/
def mrowBytes (free : Nat → Byte) (fmt : Nat) (r : MRow) : List Byte :=
  let e := fmtBytes fmt
  ((List.range r.length).zip r).flatMap fun v => match v.2 with
    | some x => le e x
    | none => (List.range e).map fun i => free (v.1 * e + i)

/-- Records 0 to COUNT − 1 of a result buffer: ID and SOURCE (R111). -/
def recIds (b : List Byte) : List (W64 × Nat) :=
  (List.range (fieldAt b 0 4)).map fun i => (BitVec.ofNat 64 (fieldAt b (16 + 16 * i) 8), fieldAt b (28 + 16 * i) 2)

/-- Parameters that R212 and R213 allow. -/
def runOk (img : List Byte) (p : RunParam) (b : List Byte) : Bool :=
  imgOk img && decide (1 ≤ p.batch ∧ p.batch ≤ 65536 ∧ 1 ≤ p.seqLen ∧ p.seqLen ≤ imgMaxSeq img ∧ p.first ≤ p.last ∧
    p.last < imgSteps img ∧ p.inKind ≤ 1 ∧ p.outKind ≤ 2) && allZero (sub b 16 16) &&
  (if p.outKind = 2 then decide (1 ≤ p.k ∧ p.k ≤ p.batch) else p.k == 0)

/-- A run's output written and the task finished (R212, R213); what absent columns hold depends on the image, the parameter block and
the input alone (R211). -/
def writeRun (s : State) (t : TaskId) (g : Graph) (k : Task) (p : RunParam) (out : MBuf) (tokens : Nat) (inres key : List Byte) : State :=
  let rowB := out.width * fmtBytes out.fmt
  let put (s : State) (off : Nat) (x : MRow) : State :=
    writeOp s t g.pen k.quad (some g) (opd k 2) off (mrowBytes (fun i => Config.absentByte key (off + i)) out.fmt x)
  match p.outKind with
  | 0 =>
    let s := ((List.range out.seqs.length).zip out.seqs).foldl (fun s x =>
      ((List.range x.2.length).zip x.2).foldl (fun s y => put s ((x.1 * p.seqLen + y.1) * rowB) y.2) s) s
    finishTask s t stSuccess tokens
  | 1 =>
    let s := ((List.range out.seqs.length).zip out.seqs).foldl (fun s x => put s (x.1 * rowB) (x.2.headD [])) s
    finishTask s t stSuccess tokens
  | _ =>
    let ids := recIds inres
    let hits := ((List.range p.batch).map fun i =>
      let v := f32Neg (fmtF32 out.fmt (((nth out.seqs i []).headD []).headD none |>.getD 0))
      let id := nth ids i (0, 0)
      { key := floatKey v, id := id.1, score := scoreField v, source := id.2, slot := i : Hit })
    let l := select p.k (hits.filter fun h => h.id != 0xFFFFFFFFFFFFFFFF)
    finishTask (writeResults s t g k (opd k 2) 1 p.k l) t stSuccess l.length

/-- The multiplies of a run counted on its tiles (R209), with the cycles in which they were busy: free values (log 1). -/
def countRun (s : State) (t : TaskId) (k : Task) (l : List (MStep × List Nat)) : State :=
  let tiles := (tilesOf s k.quad).filter fun u => t ∈ (tileOf s u).tasks
  ((List.range tiles.length).zip tiles).foldl (fun s x =>
    let d := drawTag s
    updTile d.2 x.2 fun y => { y with
      macs := wrapAdd 74 y.macs (sumBy (stepMacs tiles.length x.1) l), busy := wrapAdd 48 y.busy (Config.freeWord d.1).toNat }) s

/-- A run of a step range that is no pooling step, where OUT_KIND 1 asks for one (R212). -/
def poolStep (st : MStep) : Bool := st.kind == 2 && (st.op == 0x0A || st.op == 0x0B)

/-- MODEL_RUN SUBTYPE 0 (R209 to R213). Its outputs do not depend on residency, tiles or micro-batches (R211). A model destroyed since
it issued leaves it unpredictable (R225). -/
def execModelRun (t : TaskId) (s : State) : Res :=
  match running s t 0x09 (some 0) with
  | none => .next s
  | some (g, k) =>
    if opLost s g.pen (opd k 0) then .next (finishTask s t stStateLost 0)
    else match modelOf s g.pen (opd k 0), paramBlock s g k 32 with
      | none, _ => .next (if k.had then unpredictable s t g k.outs else finishTask s t stNotFound 0)
      | _, .err e => .next (readFailed s t g k e)
      | some (num, bytes, _), .ok pb => match modelImage s g.pen num bytes with
        | .err e => .next (readFailed s t g k e)
        | .ok img =>
          let p := runParamOf pb
          let e := if p.inKind = 0 then 4 else imgDin img * fmtBytes (imgTokFmt img)
          if !runOk img p pb then .next (unpredictable s t g (outputs s g k))
          else
            let inr := if p.outKind = 2 then readResults s g (opd k 3) else .ok []
            match readOp s g.pen (some g) (opd k 1) 0 (p.batch * (4 + p.seqLen * e)), inr with
            | .err e, _ => .next (readFailed s t g k e)
            | _, .err e => .next (readFailed s t g k e)
            | .ok inb, .ok inres =>
              let steps := ((List.range (p.last + 1)).drop p.first).map (imgStepAt img)
              match (inputBuf img inb p).bind fun b => (runSteps img (imgBufs img) steps [(0, b)]).map fun x => (b, x) with
              | none => .next (unpredictable s t g (outputs s g k))
              | some (b0, bufs) =>
                let last := imgStepAt img p.last
                let out := tget bufs.1 last.dst
                let s := countRun s t k bufs.2
                if p.outKind == 1 && !poolStep last then .next (unpredictable s t g (outputs s g k))
                else if p.outKind == 2 && (out.width != 1 || !out.pooled || fieldAt inres 0 4 != p.batch) then
                  let r := drawTag (k.outs.foldl (fun s o => smudgeOp s g.pen (some g) o.1 0 o.2) s)
                  .next (finishTask r.2 t stSuccess (Config.freeWord r.1).toNat)
                else .next (writeRun s t g k p out (sumBy List.length b0.seqs) inres (img ++ pb ++ inb))

/-! VECTOR (R215). -/

/-- VECTOR SUBTYPE 0: one op of R207 over standalone fp32 rows (log 16); its step record has no image, hence no gamma or beta. -/
def execVectorStep (t : TaskId) (s : State) : Res :=
  match running s t 0x0A (some 0) with
  | none => .next s
  | some (g, k) => match paramBlock s g k 64 with
    | .err e => .next (readFailed s t g k e)
    | .ok b =>
      let st := mstepOf b
      let n := 4 * st.n * st.k
      match readOp s g.pen (some g) (opd k 0) 0 n, (if binaryOp st.op then readOp s g.pen (some g) (opd k 1) 0 n else .ok []) with
      | .err e, _ => .next (readFailed s t g k e)
      | _, .err e => .next (readFailed s t g k e)
      | .ok a, .ok b2 =>
        let buf (x : List Byte) : MBuf := { fmt := 0x0B, width := st.n, seqs := [(chunks (4 * st.n) x).map (codesOf 0x0B)] }
        match (if st.kind = 2 ∧ st.heads = 1 then vecStep [] { st with auxOff := 0 } (buf a) (buf b2) else none) with
        | none => .next (unpredictable s t g (outputs s g k))
        | some out =>
          let r := drawTag s
          let bs := (out.seqs.headD []).flatMap (mrowBytes (Config.freeByte r.1) out.fmt)
          .next (finishTask (writeOp r.2 t g.pen k.quad (some g) (opd k 2) 0 bs) t stSuccess 0)

/-- A text record (R215): ID, attributes, text, and its bytes in all. -/
structure TextRec where
  id : Nat
  attr : Nat
  text : List Byte
  raw : List Byte
deriving DecidableEq, Repr

/-- n text records read from an operand, by count; or the status of a failed read. -/
def textRecs (s : State) (g : Graph) (op : OpRef) : Nat → Nat → Nat × List TextRec
  | 0, _ => (0, [])
  | f + 1, off => match readOp s g.pen (some g) op off 32 with
    | .err e => (e, [])
    | .ok h =>
      let n := fieldAt h 24 4
      match readOp s g.pen (some g) op off (32 + pad8 n) with
      | .err e => (e, [])
      | .ok b =>
        let r := textRecs s g op f (off + 32 + pad8 n)
        (r.1, { id := fieldAt b 0 8, attr := fieldAt b 8 16, text := sub b 32 n, raw := b } :: r.2)

/-- VECTOR SUBTYPE 1, FILTER (R215): the records that pass, in input order. -/
def execVectorFilter (t : TaskId) (s : State) : Res :=
  match running s t 0x0A (some 1) with
  | none => .next s
  | some (g, k) =>
    let nt := par k 32 4
    if 8 < nt then .next (unpredictable s t g (outputs s g k))
    else match readOp s g.pen (some g) (opd k 1) 0 128, textRecs s g (opd k 0) (par k 0 32) 0 with
      | .err e, _ => .next (readFailed s t g k e)
      | .ok tb, (e, recs) =>
        if e != 0 then .next (readFailed s t g k e)
        else
          let c : WCtx :=
            { d := { attrBytes := 16 }, sn := {}, code := 0, p := { terms := termsOf tb nt, mode := par k 36 1 }, node := 0
              tag := t.graph * 4096 + t.idx }
          let kept := ((List.range recs.length).zip recs).filter fun r => passes c r.1 r.2.attr
          let bs := kept.flatMap fun r => r.2.raw
          .next (finishTask (writeOp s t g.pen k.quad (some g) (opd k 2) 0 bs) t stSuccess kept.length)

/-- The lexicon's entries (R215): bytes and token, by count. -/
def lexEntries (img : List Byte) : Nat → Nat → List (List Byte × Nat)
  | 0, _ => []
  | f + 1, off =>
    let n := fieldAt img off 2
    (sub img (off + 6) n, fieldAt img (off + 2) 4) :: lexEntries img f (off + pad8 (6 + n))

/-- The longest entry that a text begins with. -/
def longestMatch (lex : List (List Byte × Nat)) (b : List Byte) : Option (List Byte × Nat) :=
  lex.foldl (fun best e =>
    if !e.1.isEmpty && b.take e.1.length == e.1 && decide (((best.map fun x => x.1.length).getD 0) < e.1.length) then some e else best) none

/-- The tokens of a text, left to right, by count of bytes. -/
def tokensOf (lex : List (List Byte × Nat)) (unk : Nat) : Nat → List Byte → List Nat
  | 0, _ => []
  | f + 1, b => match b with
    | [] => []
    | _ :: r => match longestMatch lex b with
      | some e => e.2 :: tokensOf lex unk f (b.drop e.1.length)
      | none => unk :: tokensOf lex unk f r

/-- VECTOR SUBTYPE 2, TOKENIZE (R215): chunks of each record's tokens with CLS and SEP, at most 256 a record. Entries of a
sequence record beyond its length are not written. -/
def execTokenize (t : TaskId) (s : State) : Res :=
  match running s t 0x0A (some 2) with
  | none => .next s
  | some (g, k) => match modelOf s g.pen (opd k 1) with
    | none => .next (finishTask s t (if opLost s g.pen (opd k 1) then stStateLost else stNotFound) 0)
    | some (num, bytes, _) => match modelImage s g.pen num bytes with
      | .err e => .next (readFailed s t g k e)
      | .ok img =>
        let seqLen := par k 32 16
        let cls := fieldAt img 48 4
        let sep := fieldAt img 52 4
        let pre := if cls = 0xFFFFFFFF then [] else [cls]
        let post := if sep = 0xFFFFFFFF then [] else [sep]
        let n := pre.length + post.length
        if seqLen ≤ n then .next (finishTask s t stInvalidField 0)
        else
          let r := textRecs s g (opd k 0) (par k 0 32) 0
          if r.1 != 0 then .next (readFailed s t g k r.1)
          else
            let lex := lexEntries img (fieldAt img 40 4) (fieldAt img 32 8)
            let out := r.2.flatMap fun x =>
              let cs := (chunks (seqLen - n) (tokensOf lex (fieldAt img 44 4) x.text.length x.text)).take 256
              ((List.range cs.length).zip cs).map fun c => (x, c.1, pre ++ c.2 ++ post)
            let s := ((List.range out.length).zip out).foldl (fun s y =>
              let ids := y.2.2.2
              let s := writeOp s t g.pen k.quad (some g) (opd k 2) (y.1 * (4 + 4 * seqLen)) (le 4 ids.length ++ ids.flatMap (le 4))
              writeOp s t g.pen k.quad (some g) (opd k 3) (16 * y.1) (le 8 y.2.1.id ++ le 2 y.2.2.1 ++ le 6 y.2.1.attr)) s
            .next (finishTask s t stSuccess out.length)

/-- VECTOR SUBTYPE 3, PACK (R215): codes from the signs of fp32 rows, entries of R141. The attribute field counts groups of
8 bytes (log 16). The rows of the embeddings follow one another, 4 × 256 × 2^CODE_LOG bytes each: R215 gives no stride (DESIGN CHOICE,
log 155). -/
def execPack (t : TaskId) (s : State) : Res :=
  match running s t 0x0A (some 3) with
  | none => .next s
  | some (g, k) =>
    let n := par k 0 32
    let cb := 256 * 2 ^ par k 32 2
    let ab := 8 * par k 34 3
    if 16 < ab ∨ par k 37 27 ≠ 0 then .next (unpredictable s t g (outputs s g k))
    else match readOp s g.pen (some g) (opd k 0) 0 (n * cb * 4), readOp s g.pen (some g) (opd k 1) 0 (16 * n) with
      | .err e, _ => .next (readFailed s t g k e)
      | _, .err e => .next (readFailed s t g k e)
      | .ok emb, .ok meta_ =>
        let entry (i : Nat) : List Byte :=
          let m := sub meta_ (16 * i) 16
          let code := ofBools ((List.range cb).map fun j =>
            f32Lt 0 (BitVec.ofNat 32 (fieldAt emb ((i * cb + j) * 4) 4)))
          let b := le 8 (fieldAt m 0 8 + fieldAt m 8 2) ++ le (cb / 8) code ++ le ab (fieldAt m 10 6)
          b ++ List.replicate (pad8 b.length - b.length) 0
        .next (finishTask (writeOp s t g.pen k.quad (some g) (opd k 2) 0 ((List.range n).flatMap entry)) t stSuccess 0)

end Sys2Proof.Machine
end

