-- ==== Sys2Proof/Machine/Nbu.lean ====
section
/-!
DEFINITION. Near-bank units (09): the NBU_SEQ task, its micro-ops, refresh and parity, and the patrol scrub of a stack.
-/

namespace Sys2Proof.Machine

/-- A step word (R243). -/
structure NStep where
  op : Nat
  dst : Nat
  sa : Nat
  sb : Nat
  sc : Nat
  resv : Nat
  imm : W32
deriving DecidableEq, Repr

def nstepOf (b : List Byte) : NStep :=
  let w := ofLe b
  { op := bits w 0 8, dst := bits w 8 4, sa := bits w 12 4, sb := bits w 16 4, sc := bits w 20 4, resv := bits w 24 8
    imm := BitVec.ofNat 32 (bits w 32 32) }

/-- The sources that an op uses (R244). -/
def nsources (x : NStep) : List Nat :=
  if x.op = 0x04 then [x.sa, x.sb, x.sc] else if x.op ∈ [0x01, 0x02, 0x03, 0x05, 0x06] then [x.sa, x.sb] else [x.sa]

/-- A program: its header and its steps (R242). -/
structure NProg where
  head : NbuHead
  steps : List NStep
deriving DecidableEq, Repr

def nprogOf (b : List Byte) : NProg :=
  let h := nbuHeadOf b
  { head := h, steps := (List.range h.steps).map fun i => nstepOf (sub b (16 + 8 * i) 8) }

/-- The program block of a task. -/
def nbuProg (s : State) (g : Graph) (k : Task) : Option NProg × Nat :=
  match paramBlock s g k 16 with
  | .err e => (none, e)
  | .ok h => match paramBlock s g k (16 + 8 * (nbuHeadOf h).steps) with
    | .err e => (none, e)
    | .ok b => (some (nprogOf b), 0)

def NProg.isSum (p : NProg) : Bool := p.steps.any fun x => x.op == 0x0B
/-- Bank operands that some step loads, and that some step stores to. -/
def NProg.loads (p : NProg) : List Nat :=
  (List.range 4).filter fun i => p.steps.any fun x => (4 + i) ∈ nsources x
def NProg.stores (p : NProg) : List Nat :=
  (List.range 4).filter fun i => p.steps.any fun x => x.op != 0x0B && x.dst == 4 + i
/-- Whether an operand is of class 1 or 2 (R241). -/
def classed (op : OpRef) : Bool := match op with
  | .obj _ _ => true
  | .scratch _ _ => true
  | _ => false
/-- Bank operands of a task, lowest first: those that a step uses, and those given though no step uses them (R241, R247). OPERAND3
of a BALE_SUM is none (R246). -/
def NProg.banks (p : NProg) (k : Task) : List Nat := (List.range 4).filter fun i =>
  i ∈ p.loads || i ∈ p.stores || (classed (opd k i) && !(p.isSum && i == 3))
/-- Element size, bytes of an operand, bales (R247). -/
def NProg.size (p : NProg) : Nat := fmtBytes p.head.fmt
def NProg.bytes (p : NProg) : Nat := p.head.elems * p.size
def NProg.bales (p : NProg) : Nat := ceilDiv p.bytes bale

/-- The homes of the bales of a bank operand, and its bytes from there on: class 1 or 2, on a bale boundary (R241). -/
def bankHomes (s : State) (g : Graph) (op : OpRef) : Option (List Home × Nat) :=
  match op with
  | .obj n o => if o % bale ≠ 0 then none else (objOf s g.pen n).bind fun x => match x.kind with
      | .region _ _ => none
      | _ => some (x.homes.drop (o / bale), x.bytes - o)
  | .scratch n o => if o % bale ≠ 0 then none else (tget? g.scratch n).map fun x => (x.homes.drop (o / bale), x.bytes - o)
  | _ => none

/-- A step that R243, R244 and R254 allow. -/
def nstepOk (p : NProg) (i : Nat) (x : NStep) : Bool :=
  decide (1 ≤ x.op ∧ x.op ≤ 0x0B ∧ (x.dst ≤ 7 ∨ x.op = 0x0B) ∧ x.resv = 0) && (nsources x).all (fun c => decide (c ≤ 9)) &&
  decide (((nsources x).filter fun c => decide (4 ≤ c ∧ c ≤ 7)).length ≤ 1) && (!(8 ∈ nsources x) || p.head.blen != 0) &&
  (x.op != 0x0B || i + 1 == p.head.steps)

/-- A program that R242 to R246 and R254 allow, over operands that hold it. -/
def nprogOk (s : State) (g : Graph) (k : Task) (p : NProg) : Bool :=
  decide (p.head.version = 1 ∧ (p.head.fmt = 0x0A ∨ p.head.fmt = 0x0B) ∧ 1 ≤ p.head.steps ∧ p.head.steps ≤ 16 ∧ p.head.blen ≤ 512 ∧
    1 ≤ p.head.elems ∧ p.head.elems ≤ 2 ^ 37 ∧ p.head.resv = 0) &&
  ((List.range p.steps.length).zip p.steps).all (fun x => nstepOk p x.1 x.2) &&
  (p.banks k).all (fun i => match bankHomes s g (opd k i) with
    | some (_, n) => decide (p.bytes ≤ n)
    | none => false) &&
  !(p.isSum && (p.loads ++ p.stores).any (· == 3)) && !(p.isSum && opd k 3 == .none)

/-- The output ranges of a program: its store targets and the array of bale sums. -/
def nbuOuts (k : Task) (p : NProg) : List (OpRef × Nat) :=
  (p.stores.map fun i => (opd k i, p.bytes)) ++ (if p.isSum then [(opd k 3, 4 * p.bales)] else [])

/-- The input ranges of a program: what it loads, the broadcast operand, the program block. -/
def nbuIns (k : Task) (p : NProg) : List (OpRef × Nat) :=
  (p.loads.map fun i => (opd k i, p.bytes)) ++ [(opd k 4, 4 * p.head.blen), (opRefOf k.param.toNat, 16 + 8 * p.head.steps)]

/-- Restartable after writing (R253): no output lies in a range that a step loads, nor in the program or the broadcast (R254). -/
def nbuRestart (k : Task) (p : NProg) : Bool :=
  !((nbuOuts k p).any fun o => (nbuIns k p).any fun i => overlap o.1 o.2 i.1 i.2)

/-! Co-placement (R247). -/

/-- A stack with all its near-bank units in service. -/
def stackFull (s : State) (n : Nat) : Bool := stackUsable s n && (stackOf s n).nbuBad.isEmpty

/-- The home of bale j of a bank operand. -/
def bankHome (s : State) (g : Graph) (op : OpRef) (j : Nat) : Home := match bankHomes s g op with
  | some (l, _) => nth l j .none
  | none => .none

/-- S_j: of the lowest bank operand whose bale j lies in a full stack; else the full stack of the running quad with the most
free slots; none while no stack serves. -/
def chooseStack (s : State) (g : Graph) (k : Task) (p : NProg) (j : Nat) : Option Nat :=
  let homed := (p.banks k).filterMap fun i => match bankHome s g (opd k i) j with
    | .stack n _ => if stackFull s n then some n else none
    | _ => none
  match homed.head? with
  | some n => some n
  | none => mostFree (freeHomes s) ((stacksOf s k.quad).filter (stackFull s))

/-- A bank operand's bale given a home. -/
def setBankHome (s : State) (g : Graph) (op : OpRef) (j : Nat) (h : Home) : State :=
  match op with
  | .obj n o => updObj s g.pen n fun x => { x with homes := setAt x.homes (o / bale + j) h }
  | .scratch n o => modGraph s g.acc fun g => { g with scratch := tupd g.scratch n fun x => { x with homes := setAt x.homes (o / bale + j) h } }
  | _ => s

/-- The lines of a range that have a directory entry are invalidated through the directory (R252). -/
def clrLines (s : State) (a n : Nat) : State :=
  let ls := (s.coh.slices.flatMap fun x => tkeys x.2.entries).filter fun l => decide (a < l + line ∧ l < a + n)
  ls.foldl (fun s l => send s { kind := .clr, src := droverAgent, dst := homeId, line := l }) s

/-- One bale moved from a home to a slot of another stack, with its poisoned lines (R228, R239). -/
def moveBale (s : State) (old : Home) (n slot : Nat) : State :=
  let b := slotAddr n slot
  match old with
  | .stack m x =>
    let a := slotAddr m x
    let bad := s.poison.filter fun l => decide (a ≤ l ∧ l < a + bale)
    let s1 := agentWrite (clrLines s a bale) none dmaAgent b (readStack s a bale)
    let s2 := { s1 with poison := (bad.map fun l => b + (l - a)).foldl addNew (s1.poison.filter fun l => !(l ∈ bad)) }
    freeHome s2 old
  | .tile t o => agentWrite s none dmaAgent b (s.sram.read (t * 2 ^ 32 + o) bale)
  | _ => zeroHome s (.stack n slot)

/-- Bale j of a bank operand brought into a stack; none while the stack has no free slot. A move is charged the bytes that it
carries (R248); a bale that takes its first home there moves nothing. -/
def coPlace (s : State) (t : TaskId) (g : Graph) (op : OpRef) (j n : Nat) : Option State :=
  let h := bankHome s g op j
  let inPlace := match h with
    | .stack m _ => m == n
    | _ => false
  if inPlace then some s
  else if freeHomes s n = 0 then none
  else
    let slot := lowestFree (stackOf s n).homesUsed 0
    let s := updStack s n fun x => { x with homesUsed := x.homesUsed ++ [slot] }
    let s := setBankHome (moveBale s h n slot) g op j (.stack n slot)
    some (if h == .none then s else modTask s t fun k => { k with usedStack := k.usedStack + bale })

/-- Every bale position placed, in order: the node and the stack of each position (R247). -/
def placeAll (s : State) (t : TaskId) (k : Task) (p : NProg) : List Nat → Option (State × List Nat)
  | [] => some (s, [])
  | j :: rest =>
    match graphOf s t.graph with
    | none => none
    | some g => match chooseStack s g k p j with
      | none => none
      | some n =>
        let r := (p.banks k).foldl (fun (a : Option State) i => a.bind fun s => match graphOf s t.graph with
          | some g => coPlace s t g (opd k i) j n
          | none => none) (some s)
        match r with
        | none => none
        | some s1 => (placeAll s1 t k p rest).map fun x => (x.1, n :: x.2)

/-! Positions of a unit (R230, R245). -/

/-- First element of a chunk of a unit's part of a bale, and the elements of the chunk that exist. -/
def chunkElems (p : NProg) (u j c : Nat) : Nat × Nat :=
  let first := (j * bale + 512 * u + 256 * c) / p.size
  (first, min (256 / p.size) (p.head.elems - first))

/-- The chunks of a unit in a stack, in increasing element order: bale position and chunk. -/
def unitChunks (p : NProg) (stks : List Nat) (n u : Nat) : List (Nat × Nat) :=
  ((List.range stks.length).filter fun j => stks[j]? == some n).flatMap fun j =>
    ([0, 1].filter fun c => decide (0 < (chunkElems p u j c).2)).map fun c => (j, c)

/-- The chunk after a position. -/
def nextChunk (l : List (Nat × Nat)) (j c : Nat) : Option (Nat × Nat) :=
  l.find? fun x => decide (j < x.1 ∨ (j = x.1 ∧ c < x.2))

/-- The units of a stack at the start of a sequence: those without an element are done. -/
def startUnits (t : TaskId) (p : NProg) (stks : List Nat) (bc : List W32) (n : Nat) (old : Tab Nbu) : Tab Nbu :=
  (List.range 128).map fun u =>
    let o : Nbu := tget old u
    match (unitChunks p stks n u).head? with
    | some (j, c) => (u, { o with latch := [], bcast := bc, balePos := j, chunk := c, step := 0, running := some t, done := false })
    | none => (u, { o with latch := [], bcast := bc, running := none, done := true })

/-- Whether another NBU_SEQ that runs or waits in a stack keeps a task from it: one runs there, or one before it in the order of R61
waits for it (R248). -/
def stackBusy (s : State) (t : TaskId) (g : Graph) (k : Task) (n : Nat) : Bool :=
  (match (stackOf s n).nbuTask with
    | some x => x != t
    | none => false) ||
  (allTasks s).any fun x =>
    x.1 != t && x.2.2.typ == 0x0C && x.2.2.st == .issued && x.2.2.run == .none && !x.2.2.orphan &&
    lexLt (candRank s .nearBank x) (candRank s .nearBank (t, g, k)) &&
    (match nbuProg s x.2.1 x.2.2 with
      | (some q, _) => nprogOk s x.2.1 x.2.2 q && (List.range q.bales).any fun j => chooseStack s x.2.1 x.2.2 q j == some n
      | _ => false)

/-- Whether a bank operand that MAP pins lies in another stack than its position's (R339). -/
def pinnedByMap (s : State) (g : Graph) (k : Task) (p : NProg) (stks : List Nat) : Bool :=
  (p.banks k).any fun i => match opd k i with
    | .obj o _ => (objOf s g.pen o).any (·.mapped) && (List.range stks.length).any fun j => match bankHome s g (opd k i) j with
        | .stack m _ => stks[j]? != some m
        | _ => false
    | _ => false

/-- The homes of the bales that an issued task pins (R66, R247): every bank operand's for a running NBU_SEQ, else the first 8 of
each operand in the stacks. -/
def pinnedHomes (s : State) (g : Graph) (k : Task) : List Home :=
  match k.run with
  | .nbu st => (match nbuProg s g k with
      | (some q, _) => (List.range st.length).flatMap fun j => (q.banks k).map fun i => bankHome s g (opd k i) j
      | _ => [])
  | _ => (ranges s g k).flatMap fun r =>
      let homes : List Home × Nat := match r.op with
        | .obj n o => (((objOf s g.pen n).map (·.homes)).getD [], o)
        | .scratch n o => (((tget? g.scratch n).map (·.homes)).getD [], o)
        | _ => ([], 0)
      let n := match r.len with
        | some n => ceilDiv (homes.2 % bale + n) bale
        | none => 1
      (homes.1.drop (homes.2 / bale)).take (min 8 n)

/-- Whether a bale that another issued task or MAP pins is among those to move (R228, R339). -/
def pinnedByNbu (s : State) (t : TaskId) (g : Graph) (k : Task) (p : NProg) (stks : List Nat) : Bool :=
  let wanted := (List.range stks.length).flatMap fun j => ((p.banks k).map fun i => bankHome s g (opd k i) j).filter fun h => match h with
    | .stack m _ => stks[j]? != some m
    | _ => false
  pinnedByMap s g k p stks || (!wanted.isEmpty && (allTasks s).any fun x =>
    x.1 != t && x.2.2.st == .issued && (pinnedHomes s x.2.1 x.2.2).any fun h => h ∈ wanted)

/-- The operand ranges whose lines are invalidated at issue (R252, R257): every bank operand, a BALE_SUM's output and the broadcast
operand. -/
def clrRanges (k : Task) (p : NProg) : List (OpRef × Nat) :=
  ((p.banks k).map fun i => (opd k i, p.bytes)) ++ (if p.isSum then [(opd k 3, 4 * p.bales)] else []) ++ [(opd k 4, 4 * p.head.blen)]

/-- The lines of an operand's range in the stacks invalidated. -/
def clrOperand (s : State) (g : Graph) (op : OpRef) (n : Nat) : State :=
  (segs s g.pen (some g) op 0 n).foldl (fun s x => match x.1 with
    | .stk a => clrLines s a x.2
    | _ => s) s

/-- Whether a Clr of the Drover for a line of a stack is still to be done (R252): in flight, waiting, or its Acks awaited. -/
def clrOpen (s : State) (n : Nat) : Bool :=
  let mine (m : Msg) : Bool := m.kind == .clr && dpaStack m.line == n
  (s.coh.net ++ s.coh.held).any mine || s.coh.slices.any fun x => x.2.retry.any mine ||
    x.2.entries.any fun e => !isStable e.2 && e.2.act == .clr && dpaStack e.1 == n

/-- The stacks of the positions before anything moves. -/
def planStacks (s : State) (g : Graph) (k : Task) (p : NProg) : List Nat :=
  (List.range p.bales).map fun j => (chooseStack s g k p j).getD 20

/-- NBU_SEQ (R241, R247, R248, R252): co-places the bales, takes the stacks and hands the program and the broadcast operand to
their units; waits while a stack is busy, without room, or its bales are pinned. -/
def execNbuSeq (t : TaskId) (s : State) : Res :=
  match running s t 0x0C (some 0) with
  | none => .next s
  | some (g, k) =>
    if k.run != .none then .next s
    else match nbuProg s g k with
      | (none, e) => .next (readFailed s t g k e)
      | (some p, _) =>
        if !nprogOk s g k p then .next (unpredictable s t g (nbuOuts k p))
        else
          let plan := planStacks s g k p
          if plan.any (fun n => decide (20 ≤ n) || stackBusy s t g k n) || pinnedByNbu s t g k p plan then .next s
          else match placeAll s t k p (List.range p.bales) with
            | none => .next s
            | some (s1, stks) =>
              if stks.any (fun n => stackBusy s1 t g k n) then .next s
              else
                let rb : Rd := if p.head.blen = 0 then .ok [] else readOp s1 g.pen (graphOf s1 t.graph) (opd k 4) 0 (4 * p.head.blen)
                match rb with
                | .err e => .next (readFailed s1 t g k e)
                | .ok b =>
                  let bc := (chunks 4 b).map fun x => BitVec.ofNat 32 (ofLe x)
                  let used := stks.foldl addNew ([] : List Nat)
                  let s2 := used.foldl (fun s n => updStack s n fun x =>
                    { x with nbuTask := some t, units := startUnits t p stks bc n x.units }) s1
                  let g1 := (graphOf s2 t.graph).getD g
                  let s3 := (clrRanges k p).foldl (fun s x => clrOperand s g1 x.1 x.2) s2
                  .next (setRun s3 t (.nbu stks))

/-! Micro-ops (R244 to R246). -/

/-- One op on fp32 values, one rounding (R244). -/
def nbuOp (op : Nat) (a b c : W32) : W32 :=
  match op with
  | 0x01 => f32Add a b
  | 0x02 => f32Sub a b
  | 0x03 => f32Mul a b
  | 0x04 => toF32 (flAdd (flMul (flOf a) (flOf b)) (flOf c))
  | 0x05 => if f32IsNan a || f32IsNan b then 0x7FC00000 else if f32Lt a b then b else a
  | 0x06 => if f32IsNan a || f32IsNan b then 0x7FC00000 else if f32Lt b a then b else a
  | 0x07 => if f32IsNan a then 0x7FC00000 else if f32Lt a 0 then 0 else a
  | 0x08 => geluOf a
  | 0x09 => siluOf a
  | _ => a

/-- The value of a source for an element (R243): a latch not written for this chunk is a free value (R254). -/
def nbuSource (un : Nbu) (loaded : List W32) (imm : W32) (tag first i src : Nat) : W32 :=
  if src ≤ 3 then ((tget? un.latch src).bind fun t => tget? t i).getD (Config.freeWord tag)
  else if src ≤ 7 then nth loaded i 0
  else if src = 8 then nth un.bcast ((first + i) % max un.bcast.length 1) 0
  else imm

/-- A unit that fails its parity check (R253): out of service, the task handled as a unit loss. -/
def loseUnit (s : State) (n u : Nat) : State :=
  let s := updStack s n fun x => { x with nbuBad := addNew x.nbuBad u, nbuFaults := satAdd 16 x.nbuFaults 1 }
  markOut (postEvent s 3 (.nearBank n u) 1 0 0)

/-- The partial of a unit for a bale once its last chunk is done (R246). -/
def closePartial (p : NProg) (stks : List Nat) (n u : Nat) (un : Nbu) : Nbu :=
  let last := match nextChunk (unitChunks p stks n u) un.balePos un.chunk with
    | some (j, _) => j != un.balePos
    | none => true
  if p.isSum && last then
    let vals : List W32 := (tgetD un.latch 4 []).map fun x => x.2
    { un with latch := tput (tdel un.latch 4) 5 (tput (tgetD un.latch 5 []) un.balePos (sumOrdered vals)) }
  else un

/-- The bale sum once every unit with an element has its partial: added in unit order (R246). -/
def baleSum (s : State) (p : NProg) (n j : Nat) : Option W32 :=
  let us := (List.range 128).filter fun u => decide (0 < (chunkElems p u j 0).2)
  let parts := us.map fun u => (tget? (tget (stackOf s n).units u).latch 5).bind fun t => tget? t j
  if parts.all (·.isSome) then
    match parts.filterMap id with
    | [] => none
    | a :: r => some (r.foldl f32Add a)
  else none

/-- The oldest access of a waiting line performed at the boundary (R251); a host read's wait is counted. -/
def serveWaiting (s : State) (n l : Nat) : State :=
  match (sliceOf s l).accesses.find? (fun a => a.line == l) with
  | none => s
  | some a =>
    let host := !a.write && a.owed.any fun m => m.dst == hostAgent
    performAccess (if host then updStack s n fun x => { x with hostWaits := satAdd 24 x.hostWaits 1 } else s) a

/-- The boundary after a micro-op (R250, R251): the waiting accesses are served in arrival order, then a due refresh, which is
counted. -/
def boundary (s : State) (n u : Nat) : State :=
  let un := tget (stackOf s n).units u
  let due := un.refreshDue
  let s := un.waiting.foldl (fun s l => serveWaiting s n l) s
  updStack s n fun x => { x with
    cuts := if due then satAdd 24 x.cuts 1 else x.cuts
    units := tupd x.units u fun y => { y with waiting := [], refreshDue := false } }

/-- The sequence after a unit has no further micro-op: a stack whose units are all done is free, and the task is finished
when every one of its stacks is (R248). -/
def settleNbu (s : State) (t : TaskId) (stks : List Nat) (n : Nat) : State :=
  let s := if (stackOf s n).units.all (fun x => x.2.done) then updStack s n fun x => { x with nbuTask := none } else s
  if stks.any (fun m => (stackOf s m).nbuTask == some t) then s else finishTask s t stSuccess 0

/-- A unit moved on by one step: the next step of the chunk, the first of the next chunk, or the end (R245). -/
def advanceUnit (p : NProg) (stks : List Nat) (n u : Nat) (un : Nbu) : Nbu :=
  if un.step + 1 < p.head.steps then { un with step := un.step + 1 }
  else
    let un := closePartial p stks n u un
    let keep := un.latch.filter fun x => decide (4 ≤ x.1)
    match nextChunk (unitChunks p stks n u) un.balePos un.chunk with
    | some (j, c) => { un with latch := keep, balePos := j, chunk := c, step := 0 }
    | none => { un with latch := keep, running := none, done := true }

/-- The micro-op of a unit performed: its loads, its op, its latch or its store (R243 to R246). -/
def runMicro (s : State) (t : TaskId) (g : Graph) (k : Task) (p : NProg) (stks : List Nat) (n u : Nat) (un : Nbu) : State :=
  let x := nth p.steps un.step { op := 0, dst := 0, sa := 0, sb := 0, sc := 0, resv := 0, imm := 0 }
  let ce := chunkElems p u un.balePos un.chunk
  let off := ce.1 * p.size % bale
  let addr (i : Nat) : Option Nat := match bankHome s g (opd k i) un.balePos with
    | .stack m slot => if m = n then some (slotAddr m slot + off) else none
    | _ => none
  let load := (nsources x).find? fun c => decide (4 ≤ c ∧ c ≤ 7)
  let store := if 4 ≤ x.dst ∧ x.op ≠ 0x0B then some (x.dst - 4) else none
  let la := load.bind fun c => addr (c - 4)
  let sa := store.bind addr
  if (load.isSome && la.isNone) || (store.isSome && sa.isNone) then finishTask s t stStateLost 0
  else
    let n8 := ce.2 * p.size
    let moved (s : State) (b : Nat) : State := modTask s t fun k => { k with usedStack := k.usedStack + b }
    if la.any (fun a => poisoned s a n8) then
      let ls := match sa with
        | some a => (List.range ((a + n8 + line - 1) / line - a / line)).map fun i => (a / line + i) * line
        | none => []
      finishTask { moved s n8 with poison := ls.foldl addNew s.poison } t stMediaError 0
    else
      let r := drawTag s
      let s := r.2
      let loaded : List W32 := match la with
        | some a => (chunks p.size (readStack s a n8)).map fun b => fmtF32 p.head.fmt (ofLe b)
        | none => []
      let val (i c : Nat) : W32 := nbuSource un loaded x.imm r.1 ce.1 i c
      let vals := (List.range ce.2).map fun i => nbuOp x.op (val i x.sa) (val i x.sb) (val i x.sc)
      let s := if la.isSome then moved s n8 else s
      let s := match sa with
        | some a => modTask (writeStack (moved s n8) a (vals.flatMap fun v => le p.size (outConvert p.head.fmt 0 v))) t
            fun k => { k with wrote := true }
        | none => s
      let un1 : Nbu :=
        if x.op = 0x0B then { un with latch := tput un.latch 4 (tgetD un.latch 4 [] ++ (List.range ce.2).zip vals) }
        else if x.dst ≤ 3 then { un with latch := tput un.latch x.dst ((List.range ce.2).zip vals) }
        else un
      let s := updStack s n fun y => { y with units := tput y.units u (advanceUnit p stks n u un1) }
      let had := ((tget? un.latch 5).bind fun t => tget? t un.balePos).isSome
      let has := ((tget? (tget (stackOf s n).units u).latch 5).bind fun t => tget? t un.balePos).isSome
      let s := if has && !had then (match baleSum s p n un.balePos with
          | some v => writeOp s t g.pen k.quad (some g) (opd k 3) (4 * un.balePos) (le 4 v.toNat)
          | none => s) else s
      settleNbu (boundary s n u) t stks n

/-- MICRO_OP (R245, R253, R445): the next step of a unit on its chunk, not while its stack retrains nor before the lines of the
operands are invalidated (R252); a parity failure takes the unit out of service. -/
def execMicroOp (stack unit : Nat) (parityFail : Bool) (s : State) : Res :=
  let un : Nbu := tget (stackOf s stack).units unit
  if (stackOf s stack).retraining || clrOpen s stack then .next s else
  match un.running with
  | none => .next s
  | some t => match running s t 0x0C (some 0) with
    | none => .next s
    | some (g, k) => match k.run, nbuProg s g k with
      | .nbu stks, (some p, _) =>
        if parityFail then .next (lostTask (loseUnit s stack unit) t (nbuRestart k p))
        else .next (runMicro s t g k p stks stack unit un)
      | _, (none, e) => .next (readFailed s t g k e)
      | _, _ => .next s

/-- REFRESH_DUE (R250): it pre-empts the unit's sequence at its next boundary. -/
def execRefreshDue (stack unit : Nat) (s : State) : Res :=
  actWhen ((tget (stackOf s stack).units unit).running.isSome) s
    (updStack s stack fun x => { x with units := tupd x.units unit fun u => { u with refreshDue := true } })

/-- PATROL_SCRUB (R238, R239): corrected lines are counted, uncorrectable ones become poisoned, and the end of a pass is counted.
No row reports an error that another reader meets: such a line is one that a part of the pass finds just before that read (log 143). -/
def execPatrolScrub (stack : Nat) (correctable : List Nat) (rest : ScrubEnd) (s : State) : Res :=
  if !stackUsable s stack then .next s
  else
    let bad := (rest.uncorrectable.filter fun l => decide (l < stackBytes / line)).filter fun l => !(dpa stack (l * line) ∈ s.poison)
    let s := updStack s stack fun x => { x with eccCorr := satAdd 32 x.eccCorr correctable.length, scrubs := satAdd 16 x.scrubs (b2n rest.passDone) }
    .next (bad.foldl (fun s l => postEvent (poisonLine s (dpa stack (l * line))) 1 (.stack stack) 1 l 0) s)

end Sys2Proof.Machine
end

