-- ==== Sys2Proof/Machine/Pens.lean ====
section
/-!
DEFINITION. Pens (13): creation, quotas, dampers, interrupt vectors, and the start of a pen reset.
-/

namespace Sys2Proof.Machine

/-- Existing pens with their numbers. -/
def alivePens (s : State) : List (Nat × Pen) := s.pens.filter fun p => p.2.alive

/-- GiB of home slots in the stacks usable at readiness (R352). -/
def homeGib (s : State) : Nat := sumBy (fun n => homeSlots s n) ((List.range 4).flatMap (layoutStacks s)) / 16384

/-- A quota setting put on a pen (R359): VECTORS and the window are not touched. -/
def applyQuota (p : Pen) (args : List Byte) : Pen :=
  { p with
    queues := fieldAt args 2 2, taskUnits := fieldAt args 6 2, baleGib := fieldAt args 8 2, poolPct := fieldAt args 10 1,
    minClass := bits (fieldAt args 11 1) 0 2, dclass := bits (fieldAt args 11 1) 2 2, peerCtx := fieldAt args 12 2 }

/-- A pen once the first n of its deferred settings have taken effect (R359). -/
def penAfter (p : Pen) (n : Nat) : Pen := (p.deferred.take n).foldl (fun p d => match d with
  | .quota a => applyQuota p a
  | .damper _ => p) p

/-- What a pen reserves of a quota (R352): the most of its value in effect and of those that its deferred PEN_QUOTAs give it, whose
reservations are made at acceptance (R359). -/
def reserved (f : Pen → Nat) (p : Pen) : Nat := ((List.range (p.deferred.length + 1)).map fun n => f (penAfter p n)).foldl max 0

/-- What the existing pens reserve of a quota, pen p left out (R352). -/
def reservedBut (s : State) (p : Nat) (f : Pen → Nat) : Nat := sumBy (fun x => reserved f x.2) ((alivePens s).filter fun x => x.1 != p)

/-- Whether the reserving quotas of pen p fit the node totals (R352): queues, task units, bales, peer contexts. -/
def quotasFit (s : State) (p queues units gib ctx : Nat) : Bool :=
  decide (reservedBut s p (·.queues) + queues ≤ 4096) &&
  decide (reservedBut s p (·.taskUnits) + units ≤ 2048) &&
  decide (reservedBut s p (·.baleGib) + gib ≤ homeGib s) &&
  decide (reservedBut s p (·.peerCtx) + ctx ≤ 1024)

/-- Whether node vectors [b, b + n) are free. -/
def vecsFree (s : State) (b n : Nat) : Bool :=
  decide (b + n ≤ 4096) && (alivePens s).all fun x => decide (b + n ≤ x.2.vbase ∨ x.2.vbase + x.2.vectors ≤ b)

/-- The lowest free range of n node vectors (R361): it starts at 0 or where a pen's range ends. -/
def freeVecs (s : State) (n : Nat) : Option Nat :=
  argMin id ((0 :: (alivePens s).map fun x => x.2.vbase + x.2.vectors).filter fun b => vecsFree s b n)

/-- The vectors [b, b + n) given to a pen, THR and TIME 0 (R361, R362). -/
def giveVecs (s : State) (p b n : Nat) : State :=
  { s with vecs := (List.range n).foldl (fun t i => tput t (b + i) { owner := p, assigned := true, masked := (tget t (b + i)).masked }) s.vecs }
/-- A pen's vectors taken back. -/
def takeVecs (s : State) (p : Nat) : State :=
  { s with vecs := tmap s.vecs fun _ v => if v.assigned && v.owner == p then { masked := v.masked } else v }

/-- Every class at RATE 0xFFFF and BURST 1, buckets at their caps (R359, R364). -/
def openDampers (p : Pen) : Pen :=
  let keys := List.range 12
  let p := { p with rates := keys.map fun k => (k, 0xFFFF), bursts := (List.range 4).map fun k => (k, 1) }
  { p with buckets := keys.map fun k => (k, bktCap p (k / 3) (k % 3)) }

/-- Whether the fields that PEN_CREATE and PEN_QUOTA share hold values in their ranges (R352, R359). -/
def quotaArgsOk (b : List Byte) : Bool :=
  let f (off n lo hi : Nat) : Bool := decide (lo ≤ fieldAt b off n ∧ fieldAt b off n ≤ hi)
  f 2 2 1 4095 && f 6 2 1 2048 && f 8 2 0 1440 && f 10 1 1 100 && f 11 1 0 15 && f 12 2 0 1024 && f 14 2 0 0
/-- The same with VECTORS, PEN and the window left out (R352, R359). -/
def penArgsOk (b : List Byte) : Bool := quotaArgsOk b && decide (1 ≤ fieldAt b 4 2 ∧ fieldAt b 4 2 ≤ 2048)

/-- Whether a PEN_DAMPER argument block holds values in their ranges, PEN left out (R363, R365). -/
def damperArgsOk (b : List Byte) : Bool :=
  decide (fieldAt b 2 1 ≤ 3 ∧ fieldAt b 3 1 = 0 ∧ 1 ≤ fieldAt b 10 2) && allZero (sub b 12 20)

/-- A block with PEN alone: every other byte is reserved (R360). -/
def penOnly (b : List Byte) : Bool := allZero (sub b 2 30)

/-- PEN_CREATE (R359). -/
def penCreate (s : State) (c : Cmd) (b : KBlock) : State :=
  let p := karg b 0 2
  let x := penOf s p
  let queues := karg b 2 2
  let vectors := karg b 4 2
  let units := karg b 6 2
  let gib := karg b 8 2
  let ctx := karg b 12 2
  let base := karg b 16 8
  let len := karg b 24 8
  if x.alive ∨ x.gen = 0xFFFFFF ∨ s.ftl.nsBlocks < base + len then complete s c stInvalidField
  else if !quotasFit s p queues units gib ctx then complete s c stQuotaExceeded
  else match freeVecs s vectors with
    | none => complete s c stQuotaExceeded
    | some v =>
      let pen : Pen := openDampers
        { alive := true, queues := queues, vectors := vectors, taskUnits := units, baleGib := gib, poolPct := karg b 10 1,
          peerCtx := ctx, minClass := bits (karg b 11 1) 0 2, dclass := bits (karg b 11 1) 2 2, vbase := v, gen := x.gen + 1,
          winBase := base, winLen := len }
      complete (giveVecs { s with pens := tput s.pens p pen } p v vectors) c stSuccess

/-- PEN_CREATE (R359), from pen 0. -/
def execPenCreate (c : Cmd) (b : KBlock) (s : State) : Res :=
  withKeyedArgs s c b 0x0001 onlyPen0
      (penArgsOk b.args && decide (1 ≤ karg b 0 2 ∧ karg b 0 2 ≤ 255 ∧ 1 ≤ karg b 24 8)) fun s _ => penCreate s c b

/-- PEN_QUOTA (R359): only a raised reserving quota is tested. -/
def quotaRaiseFits (s : State) (p : Nat) (args : List Byte) : Bool :=
  let x := penAfter (penOf s p) (penOf s p).deferred.length
  let n := applyQuota x args
  (decide (n.queues ≤ x.queues) || decide (reservedBut s p (·.queues) + n.queues ≤ 4096)) &&
  (decide (n.taskUnits ≤ x.taskUnits) || decide (reservedBut s p (·.taskUnits) + n.taskUnits ≤ 2048)) &&
  (decide (n.baleGib ≤ x.baleGib) || decide (reservedBut s p (·.baleGib) + n.baleGib ≤ homeGib s)) &&
  (decide (n.peerCtx ≤ x.peerCtx) || decide (reservedBut s p (·.peerCtx) + n.peerCtx ≤ 1024))

/-- PEN_QUOTA (R359), from pen 0. -/
def execPenQuota (c : Cmd) (b : KBlock) (s : State) : Res :=
  withKeyedArgs s c b 0x0003 onlyPen0 (quotaArgsOk b.args && decide (karg b 0 2 ≤ 255)) fun s _ =>
    let p := karg b 0 2
    let x := penOf s p
    if !x.alive then complete s c stInvalidField
    else if !quotaRaiseFits s p b.args then complete s c stQuotaExceeded
    else
      let s := updPen s p fun x =>
        if x.resetting then { x with deferred := x.deferred ++ [.quota b.args] } else applyQuota x b.args
      complete s c stSuccess

/-- A damper setting put on a pen (R364, R365): values clamped to the new caps, never raised. -/
def applyDamper (p : Pen) (args : List Byte) : Pen :=
  let cls := fieldAt args 2 1
  let rate (r : Nat) : Nat := fieldAt args (4 + 2 * r) 2
  let p := { p with
    rates := (List.range 3).foldl (fun t r => tput t (bktKey cls r) (rate r)) p.rates
    bursts := tput p.bursts cls (fieldAt args 10 2) }
  { p with buckets := (List.range 3).foldl (fun t r =>
      tput t (bktKey cls r) (min (tgetD t (bktKey cls r) 0) (bktCap p cls r))) p.buckets }

/-- PEN_DAMPER (R365), from pen 0. -/
def execPenDamper (c : Cmd) (b : KBlock) (s : State) : Res :=
  withKeyedArgs s c b 0x0004 onlyPen0 (damperArgsOk b.args && decide (karg b 0 2 ≤ 255)) fun s _ =>
    let p := karg b 0 2
    if !(penOf s p).alive then complete s c stInvalidField
    else
      let s := updPen s p fun x =>
        if x.resetting then { x with deferred := x.deferred ++ [.damper b.args] } else applyDamper x b.args
      complete s c stSuccess

/-- One tick of every bucket of a pen (R363). -/
def tickPen (p : Pen) : Pen :=
  (List.range 12).foldl (fun p k => bktAdd p (k / 3) (k % 3) (bktRate p (k / 3) (k % 3) * rateUnit (k % 3) : Nat)) p

/-- DAMPER_TICK (R363): the same for every pen. -/
def execDamperTick (s : State) : Res :=
  .next { s with pens := tmap s.pens fun _ p => if p.alive then tickPen p else p }

/-- TIME has passed since a vector's oldest counted entry (R362). -/
def execVectorTimeExpiry (vector : Nat) (s : State) : Res :=
  let v := tget s.vecs vector
  actWhen (v.assigned && decide (0 < v.pend) && decide (0 < v.time)) s (vecSend s vector)

/-- A vector unmasked: its pending message is sent (R362). -/
def execMsixUnmask (vector : Nat) (s : State) : Res :=
  let v := tget s.vecs vector
  let t := { s with vecs := tput s.vecs vector { v with masked := false, pba := false } }
  .next (if v.pba then emit t (.msix vector) else t)

/-- A write to PEN_VMOD (R362): THR and TIME of the selected vector, when it is assigned. -/
def execPenVmodWrite (value : W64) (s : State) : Res :=
  let v := tget s.vecs s.vsel
  actWhen (v.assigned && s.boot.ready) s
    { s with vecs := tput s.vecs s.vsel { v with thr := bits value.toNat 0 8, time := bits value.toNat 8 12 } }

/-! Pen reset (R368). -/

/-- A pen's tasks that have not issued and not completed. -/
def unissued (s : State) (p : Nat) : List TaskId :=
  ((allTasks s).filter fun x => x.2.1.pen == p && (x.2.2.st == .waiting || x.2.2.st == .ready)).map (·.1)
/-- A pen's tasks that have issued and not completed. -/
def issuedTasks (s : State) (p : Nat) : List TaskId :=
  ((allTasks s).filter fun x => x.2.1.pen == p && (x.2.2.st == .issued || x.2.2.st == .finished)).map (·.1)

/-- A task ended by a reset: no record, nothing charged beyond what it used (R368). -/
def abortTask (s : State) (t : TaskId) : State := failTask s t stResetAborted

/-- Submissions of a pen not yet accepted stay in their queues (R367: queues kept); its graphs' unissued tasks end. -/
def beginPenReset (s : State) (p : Nat) (w : List (Cmd × Bool)) : State :=
  let s := updPen s p fun x => { x with resetting := true, resetWait := x.resetWait ++ w }
  (unissued s p).foldl abortTask s

/-- PEN_RESET (R368): from pen 0 for any pen, from a pen for itself. -/
def execPenReset (c : Cmd) (b : KBlock) (s : State) : Res :=
  withKeyedArgs s c b 0x0005 (fun p => p == 0 || p == karg b 0 2) (penOnly b.args) fun s _ =>
    let p := karg b 0 2
    if !(penOf s p).alive then complete s c stInvalidField
    else if (penOf s p).resetting then updPen s p fun x => { x with resetWait := x.resetWait ++ [(c, false)] }
    else beginPenReset s p [(c, false)]

/-- PEN_DESTROY (R360): a pen reset, then the destruction (PEN_RESET_END). -/
def execPenDestroy (c : Cmd) (b : KBlock) (s : State) : Res :=
  withKeyedArgs s c b 0x0002 onlyPen0 (penOnly b.args) fun s _ =>
    let p := karg b 0 2
    if p = 0 ∨ !(penOf s p).alive then complete s c stInvalidField
    else if (penOf s p).resetting then updPen s p fun x => { x with resetWait := x.resetWait ++ [(c, true)] }
    else beginPenReset s p [(c, true)]

/-- Control codes that a chapter defines (R358, R403, R434). -/
def controlCodes : List Nat :=
  [1, 2, 3, 4, 5, 6, 7, 0x0200, 0x0201, 0x0202, 0x0203, 0x0300, 0x0301, 0x0302, 0x0303, 0x0304, 0x0305]

/-- A keyed command with a code that no chapter defines: permitted to no pen (R357). -/
def execUndefinedControlCode (c : Cmd) (code : BitVec 16) (b : KBlock) (s : State) : Res :=
  if code.toNat ∈ controlCodes then .next s
  else withKeyed s c b code.toNat (fun _ => false) fun s _ => s

end Sys2Proof.Machine
end

