-- ==== Sys2Proof/Machine/Tables.lean ====
section
/-!
DEFINITION. Embedding tables (08): GATHER, SCATTER and its subtypes (R216 to R220), the row cache and its sketch (R221), hot-row
migration (R222 to R224).
-/

namespace Sys2Proof.Machine

/-- Rows of a table in one bale, and its bales: no row straddles a bale (R216). -/
def rowsPerBale (t : Table) : Nat := bale / max (slotBytes t) 1
def tableBales (t : Table) : Nat := ceilDiv (t.bases * t.rows) (max (rowsPerBale t) 1)
/-- Byte offset of a row of a base in its object. -/
def rowOff (t : Table) (base row : Nat) : Nat :=
  let i := base * t.rows + row
  i / max (rowsPerBale t) 1 * bale + i % max (rowsPerBale t) 1 * slotBytes t

/-- The quad whose stacks serve a row: the one it has migrated to, else its home's (R222). -/
def rowQuad (s : State) (p num : Nat) (t : Table) (base row : Nat) : Nat := match opSeg s p none (.obj num (rowOff t base row)) 0 with
  | .stk a => quadOfStack (dpaStack a)
  | _ => 0

/-! The sketch and the row cache (R221). -/

def sketchKey (i pen num base row : Nat) : Nat := i * 65536 + Config.sketchHash i pen num base row % 65536
/-- A row's estimate: the smallest of its four counters. -/
def estimate (q : Quad) (pen num base row : Nat) : Nat :=
  ((List.range 4).map fun i => tgetD q.sketch (sketchKey i pen num base row) 0).foldl min 0xFFFF
/-- A read counted: four counters, each saturating. -/
def countRead (q : Quad) (pen num base row : Nat) : Quad :=
  { q with
    sketchReads := q.sketchReads + 1
    sketch := (List.range 4).foldl (fun t i => let k := sketchKey i pen num base row; tput t k (satAdd 16 (tgetD t k 0) 1)) q.sketch }

/-- Bytes of a row cache in one tile, from CACHE. -/
def cacheBytes (units : Nat) : Nat := units * 262144

/-- The set that a row falls in, with its tile of the quad (log 137): rows of one slot size share 8-way sets dealt out over the 16
tiles. -/
def rowSet (units slot pen num base row : Nat) : Nat × Nat :=
  let n := Config.rowCacheSet units pen num base row % max 1 (16 * cacheBytes units / (8 * max slot 1))
  (slot * 2 ^ 32 + n, n % 16)

/-- Bytes that the rows of a cache take. -/
def cacheUsed (q : Quad) : Nat := sumBy (fun x => x.1 / 2 ^ 32 * x.2.length) q.rowCache

/-- A cached table's row looked up: a hit moves to the most recent place; a miss is admitted to a free way while the tiles' shares have
room, or in place of the least recent way when its estimate is higher (R221). -/
def cacheRead (q : Quad) (set room slot pen num base row : Nat) : Quad :=
  let ways := tgetD q.rowCache set []
  let me := (pen, num, base, row)
  if me ∈ ways then { q with rowHits := wrapAdd 32 q.rowHits 1, rowCache := tput q.rowCache set (without ways me ++ [me]) }
  else
    let q := { q with rowMisses := wrapAdd 32 q.rowMisses 1 }
    if ways.length < 8 ∧ cacheUsed q + slot ≤ room then { q with rowCache := tput q.rowCache set (ways ++ [me]) }
    else match ways with
      | [] => q
      | v :: r =>
        if estimate q v.1 v.2.1 v.2.2.1 v.2.2.2 < estimate q pen num base row then { q with rowCache := tput q.rowCache set (r ++ [me]) }
        else q

/-- One row read by a quad: counted for a cached table, and for a migrating one homed elsewhere (R221, R222); the share of a tile that
is out of service holds nothing. -/
def readRow (s : State) (quad p num : Nat) (t : Table) (base row : Nat) : State :=
  let far := t.migrate && s.drover.migThresh != 0 && rowQuad s p num t base row != quad
  let s := if t.cache || far then updQuad s quad fun q => countRead q p num base row else s
  let u := s.drover.mdlCache
  let c := rowSet u (slotBytes t) p num base row
  if t.cache && u != 0 then updQuad s quad fun q =>
    if tileUsable s (16 * quad + c.2) then cacheRead q c.1 ((tilesOf s quad).length * cacheBytes u) (slotBytes t) p num base row
    else { q with rowMisses := wrapAdd 32 q.rowMisses 1 }
  else s

/-- A row dropped from every quad's cache (R221). -/
def uncacheRow (s : State) (p num base row : Nat) : State :=
  { s with quads := tmap s.quads fun _ q => { q with rowCache := tmap q.rowCache fun _ w => without w (p, num, base, row) } }

/-- SKETCH_HALVING (R221): after every 2^20 row reads. -/
def execSketchHalving (quad : Nat) (s : State) : Res :=
  actWhen (decide (1048576 ≤ (quadOf s quad).sketchReads)) s
    (updQuad s quad fun q => { q with sketch := tmap q.sketch fun _ v => v / 2, sketchReads := q.sketchReads - 1048576 })

/-! Rows and their updates. -/

/-- The base that PARAM selects: the current one as bound at issue, or base select − 1 (R217, R219). -/
def baseOf (k : Task) : Nat := if par k 25 3 = 0 then k.bound.getD 0 else par k 25 3 - 1

/-- Distinct rows of each window of 65,536 indices, in first-use order (R220). -/
def windowRows (l : List Nat) : List Nat := (chunks 65536 l).flatMap fun w => w.foldl addNew []

/-- Values summed in fp32 in an unspecified order (R218): two of them at a time, chosen by free values, give way to their sum (log 1);
by count of sums. -/
def sumAny : Nat → Nat → List W32 → W32
  | _, _, [] => 0
  | _, _, [a] => a
  | _, _, [a, b] => f32Add a b
  | 0, _, a :: _ => a
  | f + 1, tag, l =>
    let i := (Config.freeWord tag).toNat % l.length
    let r := l.eraseIdx i
    let j := (Config.freeWord (tag + f + 1)).toNat % r.length
    sumAny f (tag + 1) (f32Add (nth l i 0) (nth r j 0) :: r.eraseIdx j)

/-- A row after contributions of WIDTH fp32 values each (R218, R220): widened, those of each window of the coalescer added in turn,
rounded once. -/
def addRow (tag : Nat) (t : Table) (old : List Byte) (wins : List (List Byte)) : List Byte :=
  let e := fmtBytes t.fmt
  (List.range t.width).flatMap fun i =>
    let v := wins.foldl (fun acc w =>
      let cs := (chunks (4 * t.width) w).map fun c => BitVec.ofNat 32 (fieldAt c (4 * i) 4)
      sumAny cs.length tag (acc :: cs)) (fmtF32 t.fmt (fieldAt old (i * e) e))
    le e (outConvert t.fmt 0 v)

/-- A held or direct update of a row: a whole row, or contributions by window (R218, R223). -/
def updatedRow (tag : Nat) (t : Table) (old : List Byte) (add : Bool) (src : List (List Byte)) : List Byte :=
  if add then addRow tag t old src else src.headD []

/-- The running migration of a row. -/
def migOf (s : State) (p num base row : Nat) : Option Migration :=
  s.migs.find? fun m => m.pen == p && m.object == num && m.base == base && m.row == row

/-- One row updated by a task (R218, R223): held when the row migrates, else written at its home after it leaves the row caches.
The migrations that the task must wait for are collected; a failed read gives a status. -/
def updateRow (t : TaskId) (g : Graph) (k : Task) (num : Nat) (tb : Table) (base : Nat) (x : State × List (Nat × Nat) × Nat)
    (u : Nat × Bool × List (List Byte)) : State × List (Nat × Nat) × Nat :=
  let (s, waits, st) := x
  if st != 0 then x
  else match migOf s g.pen num base u.1 with
    | some m =>
      let s := { s with migs := s.migs.map fun y =>
        if y.quad = m.quad ∧ y.entry = m.entry then { y with hold := y.hold ++ [(t, u.2.1, u.2.2)] } else y }
      (s, addNew waits (m.quad, m.entry), 0)
    | none => match readOp s g.pen (some g) (.obj num (rowOff tb base u.1)) 0 (rowBytes tb) with
      | .err e => (s, waits, e)
      | .ok old =>
        let r := drawTag s
        let s := uncacheRow r.2 g.pen num base u.1
        (writeOp s t g.pen k.quad (some g) (.obj num (rowOff tb base u.1)) 0 (updatedRow r.1 tb old u.2.1 u.2.2), waits, 0)

/-- A SCATTER's rows updated; it is finished, or waits for the migrations of its rows to commit (R223). -/
def applyRows (s : State) (t : TaskId) (g : Graph) (k : Task) (num : Nat) (tb : Table) (base result : Nat)
    (us : List (Nat × Bool × List (List Byte))) : State :=
  let r := us.foldl (updateRow t g k num tb base) (s, [], 0)
  let s := modTask r.1 t fun k => { k with wrote := true }
  if r.2.2 != 0 then readFailed s t g k r.2.2
  else if r.2.1.isEmpty then finishTask s t stSuccess result
  else modTask s t fun k => { k with run := .migrate r.2.1, result := result }

/-- A task's rows noted: object, base, indices (R225). -/
def noteRows (s : State) (t : TaskId) (num base : Nat) (idx : List Nat) : State := modTask s t fun k => { k with rows := some (num, base, idx) }

/-- The pen's tables left unpredictable by a row or a base that a table lacks (R225), and the task with them. -/
def spoilTables (s : State) (t : TaskId) (g : Graph) (k : Task) : State :=
  let all := (penOf s g.pen).objects.filterMap fun o => match o.2.kind with
    | .table tb => some (OpRef.obj o.1 0, tableBales tb * bale)
    | _ => none
  unpredictable s t g (outputs s g k ++ all)

/-- Parameters of GATHER and SCATTER that R225 leaves unpredictable. -/
def rowsBad (k : Task) (t : Table) (idx : List Nat) : Bool :=
  decide (par k 0 25 = 0 ∨ 16777216 < par k 0 25 ∨ 4 < par k 25 3 ∨ t.bases ≤ baseOf k) || par k 28 36 != 0 ||
    idx.any fun i => decide (t.rows ≤ i)

/-- The row indices of OPERAND1. -/
def rowIndices (b : List Byte) : List Nat := (chunks 8 b).map ofLe

/-- Rows read and joined, or the status of the first that cannot be read. -/
def readRows (s : State) (g : Graph) (num : Nat) (t : Table) (base : Nat) : List Nat → Rd
  | [] => .ok []
  | i :: r => match readOp s g.pen (some g) (.obj num (rowOff t base i)) 0 (rowBytes t) with
    | .err e => .err e
    | .ok b => match readRows s g num t base r with
      | .err e => .err e
      | .ok bs => .ok (b ++ bs)

/-- A task that names no table: NOT_FOUND, or unpredictable when the table was destroyed while the task ran (R225). -/
def goneTable (s : State) (t : TaskId) (g : Graph) (k : Task) : State :=
  if k.had then unpredictable s t g k.outs else finishTask s t stNotFound 0

/-- GATHER (R217, R220): output row i is row IDX[i] of the selected base. -/
def execGather (t : TaskId) (s : State) : Res :=
  match running s t 0x18 (some 0) with
  | none => .next s
  | some (g, k) =>
    if opLost s g.pen (opd k 0) then .next (finishTask s t stStateLost 0)
    else match tableOf s g.pen (opd k 0), readOp s g.pen (some g) (opd k 1) 0 (8 * par k 0 25) with
      | none, _ => .next (goneTable s t g k)
      | _, .err e => .next (readFailed s t g k e)
      | some (num, tb), .ok ib =>
        let idx := rowIndices ib
        if rowsBad k tb idx then .next (unpredictable s t g (outputs s g k))
        else match readRows s g num tb (baseOf k) idx with
          | .err e => .next (readFailed s t g k e)
          | .ok bs =>
            let s := (windowRows idx).foldl (fun s i => readRow s k.quad g.pen num tb (baseOf k) i) (noteRows s t num (baseOf k) idx)
            .next (finishTask (writeOp s t g.pen k.quad (some g) (opd k 2) 0 bs) t stSuccess (par k 0 25))

/-- The source rows of a SCATTER by index: (row, source). -/
def sources (idx : List Nat) (n : Nat) (b : List Byte) : List (Nat × List Byte) :=
  ((List.range idx.length).zip idx).map fun x => (x.2, sub b (x.1 * n) n)

/-- SCATTER SUBTYPE 0, write (R218): the last occurrence of a row wins. -/
def execScatterWrite (t : TaskId) (s : State) : Res :=
  match running s t 0x19 (some 0) with
  | none => .next s
  | some (g, k) =>
    if k.run != .none then .next s
    else if opLost s g.pen (opd k 0) then .next (finishTask s t stStateLost 0)
    else match tableOf s g.pen (opd k 0) with
      | none => .next (goneTable s t g k)
      | some (num, tb) =>
        match readOp s g.pen (some g) (opd k 1) 0 (8 * par k 0 25), readOp s g.pen (some g) (opd k 2) 0 (rowBytes tb * par k 0 25) with
        | .err e, _ => .next (readFailed s t g k e)
        | _, .err e => .next (readFailed s t g k e)
        | .ok ib, .ok sb =>
          let idx := rowIndices ib
          if rowsBad k tb idx then .next (spoilTables s t g k)
          else
            let src := sources idx (rowBytes tb) sb
            let us := (idx.foldl addNew []).map fun r => (r, false, [((src.reverse.find? fun x => x.1 == r).map (·.2)).getD []])
            .next (applyRows (noteRows s t num (baseOf k) idx) t g k num tb (baseOf k) 0 us)

/-! The order of concurrent SCATTER adds (R452, ROWORD; R455). -/

/-- The table, base and rows of a SCATTER add that is issued or finished: as it noted them, or as its indices spell them. -/
def addRows (s : State) (g : Graph) (k : Task) : Option (Nat × Nat × List Nat) :=
  if k.typ ≠ 0x19 ∨ k.sub ≠ 1 ∨ !(k.st == .issued || k.st == .finished) then none
  else if k.rows.isSome then k.rows
  else match tableOf s g.pen (opd k 0), readOp s g.pen (some g) (opd k 1) 0 (8 * par k 0 25) with
    | some (num, _), .ok ib => some (num, baseOf k, rowIndices ib)
    | _, _ => none

/-- The pen's other SCATTER adds that name a row. -/
def rowPeers (s : State) (t : TaskId) (p num base row : Nat) : List TaskId :=
  ((allTasks s).filter fun x => x.1 != t && x.2.1.pen == p && (match addRows s x.2.1 x.2.2 with
    | some (n, b, l) => n == num && b == base && decide (row ∈ l)
    | none => false)).map (·.1)

/-- Whether a supplied record orders a task on a row: the last that it names. -/
def ordersTask (t : TaskId) (r : TRec) : Bool := r.stream == 1 && r.kind == 0x14 && r.body.drop (r.body.length - 6) == bindKey t

/-- In replay a SCATTER add applies when its turn on its rows has come (R455). -/
def rowTurn (s : State) (t : TaskId) : Bool :=
  !s.trace.replay || !s.trace.supplied.any (ordersTask t) ||
    (match s.trace.supplied.find? (fun r => r.stream == 1) with
      | some r => ordersTask t r
      | none => true)

/-- The place of a SCATTER add among those of each of its rows recorded: a ROWORD for each row that another such task names, with the
tasks that have applied to it, this one last; in replay its records are taken. -/
def noteOrder (s : State) (t : TaskId) (p num base : Nat) (rows : List Nat) : State :=
  let before := s.drover.applied.filter fun u => (taskOf s u).any fun k => k.st == .issued || k.st == .finished
  let s := { s with drover := { s.drover with applied := before ++ [t] } }
  if s.trace.replay then
    let r := s.trace.supplied.partition (ordersTask t)
    { s with trace := { s.trace with supplied := r.2, decisions := s.trace.decisions + r.1.length } }
  else rows.foldl (fun s row =>
    let l := rowPeers s t p num base row
    if l.isEmpty then s
    else traceDecide s 0x14 (le 4 num ++ le 1 base ++ le 5 row ++ ((before.filter fun u => u ∈ l) ++ [t]).flatMap bindKey)) s

/-- SCATTER SUBTYPE 1, add (R218): fp32 contributions, atomically per row. On an int8 or E4M3 table the rows named hold free
values (R225). -/
def execScatterAdd (t : TaskId) (s : State) : Res :=
  match running s t 0x19 (some 1) with
  | none => .next s
  | some (g, k) =>
    if k.run != .none || !rowTurn s t then .next s
    else if opLost s g.pen (opd k 0) then .next (finishTask s t stStateLost 0)
    else match tableOf s g.pen (opd k 0) with
      | none => .next (goneTable s t g k)
      | some (num, tb) =>
        match readOp s g.pen (some g) (opd k 1) 0 (8 * par k 0 25), readOp s g.pen (some g) (opd k 2) 0 (4 * tb.width * par k 0 25) with
        | .err e, _ => .next (readFailed s t g k e)
        | _, .err e => .next (readFailed s t g k e)
        | .ok ib, .ok sb =>
          let idx := rowIndices ib
          if rowsBad k tb idx then .next (spoilTables s t g k)
          else
            let rows := idx.foldl addNew []
            if tb.fmt != 0x0A && tb.fmt != 0x0B then
              .next (unpredictable s t g (rows.map fun r => (.obj num (rowOff tb (baseOf k) r), rowBytes tb)))
            else
              let wins := chunks 65536 (sources idx (4 * tb.width) sb)
              let us := rows.map fun r => (r, true, (wins.map fun w => (w.filter fun x => x.1 == r).flatMap (·.2)).filter fun w => !w.isEmpty)
              let s := (windowRows idx).foldl (fun s i => readRow s k.quad g.pen num tb (baseOf k) i)
                (noteOrder (noteRows s t num (baseOf k) idx) t g.pen num (baseOf k) rows)
              .next (applyRows s t g k num tb (baseOf k) 0 us)

/-- SCATTER SUBTYPE 4, clone (R218): base PARAM[3:2] becomes a copy of base PARAM[1:0]. -/
def execClone (t : TaskId) (s : State) : Res :=
  match running s t 0x19 (some 4) with
  | none => .next s
  | some (g, k) =>
    if k.run != .none then .next s
    else if opLost s g.pen (opd k 0) then .next (finishTask s t stStateLost 0)
    else match tableOf s g.pen (opd k 0) with
      | none => .next (goneTable s t g k)
      | some (num, tb) =>
        let src := par k 0 2
        let dst := par k 2 2
        if tb.bases ≤ src ∨ tb.bases ≤ dst ∨ par k 28 36 ≠ 0 then .next (unpredictable s t g [])
        else match readRows s g num tb src (List.range tb.rows) with
          | .err e => .next (readFailed s t g k e)
          | .ok bs =>
            let us := (List.range tb.rows).map fun r => (r, false, [sub bs (r * rowBytes tb) (rowBytes tb)])
            .next (applyRows s t g k num tb dst 0 us)

/-- A table descriptor (R216). -/
def tableDesc (b : List Byte) : Table :=
  { fmt := fieldAt b 2 1, bases := fieldAt b 3 1, width := fieldAt b 4 2, cache := bit (fieldAt b 6 1) 0, migrate := bit (fieldAt b 6 1) 1
    rows := fieldAt b 8 8 }
def tableDescOk (b : List Byte) : Bool :=
  let t := tableDesc b
  decide (fieldAt b 0 2 = 1 ∧ t.fmt ∈ [0x00, 0x08, 0x0A, 0x0B] ∧ 1 ≤ t.bases ∧ t.bases ≤ 4 ∧ 1 ≤ t.width ∧ t.width ≤ 4096 ∧
    fieldAt b 6 1 < 4 ∧ fieldAt b 7 1 = 0 ∧ 1 ≤ t.rows ∧ t.rows ≤ 2 ^ 40) && allZero (sub b 16 48)

/-- A bale's contents zeroed at its home. -/
def zeroBale (s : State) (h : Home) : State :=
  match h with
  | .stack n slot =>
    let a := slotAddr n slot
    { s with
      mem := s.mem.zero a bale
      poison := s.poison.filter fun l => !(decide (a ≤ l ∧ l < a + bale))
      coh := { s.coh with agents := tmap s.coh.agents fun _ ag =>
        { ag with lines := tmap ag.lines fun l x => if a ≤ l ∧ l < a + bale then { x with data := x.data.map fun _ => 0 } else x } } }
  | _ => s

/-- SCATTER SUBTYPE 2, create (R216): every row of every base zero; the whole size charged. -/
def execTableCreate (t : TaskId) (s : State) : Res :=
  match running s t 0x19 (some 2) with
  | none => .next s
  | some (g, k) => match readOp s g.pen (some g) (opd k 1) 0 64 with
    | .err e => .next (readFailed s t g k e)
    | .ok b =>
      let num := match opd k 0 with
        | .obj n _ => n
        | _ => 0
      let tb := tableDesc b
      if !tableDescOk b || (objOf s g.pen num).isSome then .next (unpredictable s t g [])
      else match newObject s g.pen num k.quad (tableBales tb * bale) (.table tb) with
        | none => .next (finishTask s t stQuotaExceeded 0)
        | some s =>
          let hs := ((objOf s g.pen num).map (·.homes)).getD []
          .next (finishTask (hs.foldl zeroBale s) t stSuccess 0)

/-- SCATTER SUBTYPE 3, destroy (R216): once the table's running migrations have committed. -/
def execTableDestroy (t : TaskId) (s : State) : Res :=
  match running s t 0x19 (some 3) with
  | none => .next s
  | some (g, k) => match tableOf s g.pen (opd k 0) with
    | none => .next (finishTask s t stNotFound 0)
    | some (num, _) =>
      if s.migs.any (fun m => m.pen == g.pen && m.object == num) then .next s
      else
        let s := destroyObj s g.pen num
        let drop (w : List (Nat × Nat × Nat × Nat)) : List (Nat × Nat × Nat × Nat) := w.filter fun r => !(r.1 == g.pen && r.2.1 == num)
        let s := { s with quads := tmap s.quads fun _ q => { q with rowCache := tmap q.rowCache fun _ w => drop w } }
        .next (finishTask s t stSuccess 0)

/-! Migration (R222, R223). -/

/-- Bales that hold migrated rows of a table, with the places taken there: those of its remap and of running migrations. -/
def movesOf (s : State) (p num : Nat) (t : Table) : List RowMove :=
  t.remap ++ (s.migs.filter fun m => m.pen == p && m.object == num).map (·.move)

/-- A place for a row in a quad's stacks: in a bale where rows of the table have already come, else in a home slot of the stack with the
most (the spec does not say how a migrated row lies in its stack: log 156). -/
def takeSpot (s : State) (quad p num : Nat) (t : Table) : Option (State × Nat × Nat × Nat) :=
  let l := movesOf s p num t
  let places (x : Nat × Nat) : List Nat := (l.filter fun r => r.stack == x.1 && r.slot == x.2).map (·.idx)
  let open_ := (((l.map fun r => (r.stack, r.slot)).foldl addNew []).filter fun x => x.1 ∈ stacksOf s quad).filter fun x =>
    decide ((places x).length < rowsPerBale t)
  match open_.head? with
  | some x => some (s, x.1, x.2, lowestFree (places x) 0)
  | none => (mostFree (freeHomes s) (stacksOf s quad)).map fun n =>
      let slot := lowestFree (stackOf s n).homesUsed 0
      (updStack s n fun x => { x with homesUsed := x.homesUsed ++ [slot] }, n, slot, 0)

/-- A place given back; its bale too once no row of the table lies there. -/
def dropSpot (s : State) (p num : Nat) (x : RowMove) : State :=
  match tableOf s p (.obj num 0) with
  | some (_, t) => if (movesOf s p num t).any fun r => r.stack == x.stack && r.slot == x.slot then s else freeHome s (.stack x.stack x.slot)
  | none => freeHome s (.stack x.stack x.slot)

/-- MIGRATION_START (R222): a row homed in another quad whose estimate has reached MIG_THRESH, with a free hold entry and remap
room; its new home and the pool slot of its hold list (R223, R236) are taken. -/
def execMigrationStart (quad pen object base row : Nat) (s : State) : Res :=
  match tableOf s pen (.obj object 0) with
  | none => .next s
  | some (_, t) =>
    let mine := (s.migs.filter fun m => m.quad == quad).map (·.entry)
    let ok := t.migrate && s.drover.migThresh != 0 && decide (s.drover.migThresh ≤ estimate (quadOf s quad) pen object base row) &&
      rowQuad s pen object t base row != quad && decide (mine.length < 256) && (migOf s pen object base row).isNone &&
      decide (t.remap.length < 1048576 ∧ base < t.bases ∧ row < t.rows) && quotaHolds s pen 1
    match ok, mostFree (freePool s) (stacksOf s quad), takeSpot s quad pen object t with
    | true, some h, some (s, st, slot, idx) =>
      let r := takePool (chargeBales s pen 1) h
      let mv : RowMove := { base := base, row := row, off := rowOff t base row, size := slotBytes t, stack := st, slot := slot, idx := idx }
      .next { r.1 with migs := r.1.migs ++
        [{ quad := quad, entry := lowestFree mine 0, pen := pen, object := object, base := base, row := row, phase := 0, move := mv
           holdStack := h, holdSlot := r.2 }] }
    | _, _, _ => .next s

/-- A migration by its quad and hold entry. -/
def findMig (s : State) (quad entry : Nat) : Option Migration := s.migs.find? fun m => m.quad == quad && m.entry == entry
def modMig (s : State) (m : Migration) (f : Migration → Migration) : State :=
  { s with migs := s.migs.map fun y => if y.quad = m.quad ∧ y.entry = m.entry then f y else y }

/-- A waiting SCATTER hears that a migration is over: it is finished when it waits for no other. -/
def migrationOver (quad entry status : Nat) (s : State) (t : TaskId) : State :=
  match taskOf s t with
  | some k => match k.run with
    | .migrate w =>
      let w := without w (quad, entry)
      if w.isEmpty || status != 0 then finishTask s t status k.result else modTask s t fun k => { k with run := .migrate w }
    | _ => s
  | none => s

/-- A row after updates in list order (R223, R224). -/
def applyAllTo (tag : Nat) (t : Table) (old : List Byte) (l : List (TaskId × Bool × List (List Byte))) : List Byte :=
  l.foldl (fun b h => updatedRow tag t b h.2.1 h.2.2) old

/-- The address of a migration's new copy. -/
def newCopy (m : Migration) : Nat := slotAddr m.move.stack m.move.slot + m.move.idx * m.move.size

/-- A migration ended: its entry and its pool slot freed, its waiting SCATTERs told. -/
def endMig (s : State) (m : Migration) (status : Nat) : State :=
  let s := { s with migs := s.migs.filter fun y => !(y.quad == m.quad && y.entry == m.entry) }
  let s := creditBales (updStack s m.holdStack fun x => { x with poolUsed := without x.poolUsed m.holdSlot }) m.pen 1
  (((m.done ++ m.hold).map (·.1)).foldl addNew []).foldl (migrationOver m.quad m.entry status) s

/-- A migration given up: its row keeps its home, the new one is given back. -/
def dropMig (s : State) (m : Migration) (status : Nat) : State := dropSpot (endMig s m status) m.pen m.object m.move

/-- MIGRATION_COPY_END (R223): the old copy is written into the new home at the end of COPY; in APPLY the held updates are applied to the
new copy in list order. Readers still see the old copy. One that cannot be read ends the migration as a failed read ends its tasks
(R239). -/
def execMigrationCopyEnd (quad entry : Nat) (s : State) : Res :=
  match findMig s quad entry with
  | none => .next s
  | some m => match tableOf s m.pen (.obj m.object 0) with
    | none => .next s
    | some (_, t) =>
      let old : Rd := if m.phase = 0 then readOp s m.pen none (.obj m.object (rowOff t m.base m.row)) 0 (rowBytes t)
        else .ok (readStack s (newCopy m) (rowBytes t))
      match old with
      | .err e => .next (dropMig s m e)
      | .ok b =>
        let r := drawTag s
        let s := agentWrite r.2 none dmaAgent (newCopy m) (applyAllTo r.1 t b m.hold)
        .next (modMig s m fun y => { y with phase := 1, hold := [], done := y.done ++ m.hold })

/-- What a migration's updates make of the old copy when it is abandoned (R224). -/
def applyOld (s : State) (m : Migration) : State :=
  match tableOf s m.pen (.obj m.object 0) with
  | none => s
  | some (_, t) =>
    let o := OpRef.obj m.object (rowOff t m.base m.row)
    let r := drawTag s
    let l := m.done ++ m.hold
    if l.isEmpty then s
    else uncacheRow (writeHome r.2 m.pen none o 0 (applyAllTo r.1 t (readOp s m.pen none o 0 (rowBytes t)).bytes l)) m.pen m.object m.base m.row

/-- MIGRATION_COMMIT (R223): with the hold list empty the remap switches, the old copy leaves every row cache, waiting SCATTERs complete. -/
def execMigrationCommit (quad entry : Nat) (s : State) : Res :=
  match findMig s quad entry with
  | none => .next s
  | some m =>
    if m.phase = 0 || !m.hold.isEmpty then .next s
    else match objOf s m.pen m.object with
      | none => .next (endMig s m stSuccess)
      | some o => match o.kind with
        | .table t =>
          let was := t.remap.filter fun r => r.base == m.base && r.row == m.row
          let remap := (t.remap.filter fun r => !(r.base == m.base && r.row == m.row)) ++ [m.move]
          let s := updObj s m.pen m.object fun o => { o with kind := .table { t with remap := remap } }
          let s := was.foldl (fun s r => dropSpot s m.pen m.object r) s
          let s := uncacheRow s m.pen m.object m.base m.row
          let s := updQuad s quad fun q => { q with migDone := satAdd 32 q.migDone 1 }
          .next (endMig s m stSuccess)
        | _ => .next (endMig s m stSuccess)

/-- The rows that a SCATTER names left holding part of its updates, free values here (R218, log 157). -/
def spoilRows (s : State) (g : Graph) (k : Task) : State :=
  match tableOf s g.pen (opd k 0), readOp s g.pen (some g) (opd k 1) 0 (8 * par k 0 25) with
  | some (num, tb), .ok ib =>
    let rows := ((rowIndices ib).foldl addNew []).filter fun i => decide (i < tb.rows)
    rows.foldl (fun s i => uncacheRow (smudgeOp s g.pen none (.obj num (rowOff tb (baseOf k) i)) 0 (rowBytes tb)) g.pen num (baseOf k) i) s
  | _, _ => s

/-! Tasks with no order between them (R225). -/

/-- The table rows, or the output rows of a GATHER, that two unordered tasks of a pen leave unpredictable: rows that both name, one of
them in a SCATTER; two adds are excepted (R59). -/
def rowClash (s : State) (p : Nat) (k l : Task) : List (OpRef × Nat) :=
  match k.rows, l.rows with
  | some (m, b, i), some (n, c, j) =>
    if m ≠ n ∨ b ≠ c ∨ (k.typ = 0x18 ∧ l.typ = 0x18) ∨ (k.typ = 0x19 ∧ k.sub = 1 ∧ l.typ = 0x19 ∧ l.sub = 1) then []
    else match tableOf s p (.obj m 0) with
      | none => []
      | some (_, t) =>
        let both (r : Nat) : Bool := decide (r ∈ i ∧ r ∈ j)
        if k.typ = 0x18 then ((List.range i.length).zip i).filterMap fun x =>
          if both x.2 then some (opAdd (opd k 2) (x.1 * rowBytes t), rowBytes t) else none
        else if l.typ = 0x18 then []
        else ((i.foldl addNew []).filter both).map fun r => (.obj m (rowOff t b r), rowBytes t)
  | _, _ => []

end Sys2Proof.Machine
end

