-- ==== Sys2Proof/Machine/Drover.lean ====
section
/-!
DEFINITION. The Drover's arbitration and issue (R61, R62, R65 to R68) and the completion of tasks (R60).
-/

namespace Sys2Proof.Machine

/-- The ready tasks that need a kind of unit, in the order of R61. -/
def readyTasks (s : State) (kind : UnitKind) : List (TaskId × Graph × Task) :=
  sortBy (fun a b => lexLt (candRank s kind a) (candRank s kind b))
    ((allTasks s).filter fun x => x.2.2.st == .ready && unitKindOf x.2.2.typ == kind && !(penOf s x.2.1.pen).resetting)

/-! What a task names. -/

/-- The objects that a task names. -/
def named (k : Task) : List Nat :=
  (k.ops ++ (if hasBlock k then [opRefOf k.param.toNat] else [])).filterMap fun o => match o with
    | .obj n _ => some n
    | _ => none

/-- A task that destroys the object it names: the one thing that a lost object still allows (R237, R150, R414). -/
def destroys (k : Task) : Bool :=
  (k.typ == 0x09 && k.sub == 2) || (k.typ == 0x13 && k.sub == 1) || (k.typ == 0x19 && k.sub == 3)

/-- The status with which an object's state ends a task that names it before it issues: lost (R237), lost with its lender (R414),
borrowed and named by another type than COPY (R412), lent (R411). -/
def objStatus (k : Task) (o : Obj) : Nat :=
  let far := match o.kind with
    | .borrowed _ _ _ _ => true
    | _ => false
  if o.lost && !destroys k then (if far then stPeerLost else stStateLost)
  else if far && k.typ != 0x04 then stNotFound
  else if o.lent.isSome then stMapStale
  else 0

/-- A scratch object of the graph that a unit's loss took, among those that a task reads (R72, R237). -/
def scratchGone (s : State) (g : Graph) (k : Task) : Bool :=
  (ranges s g k).any fun r => !r.out && (scratchOf g r.op).any fun x => x.2.lost

/-- The first such status over the objects that a task names; 0 for none. -/
def namedStatus (s : State) (g : Graph) (k : Task) : Nat :=
  if scratchGone s g k then stStateLost
  else ((named k).filterMap fun n => (objOf s g.pen n).map (objStatus k)).find? (· != 0) |>.getD 0

/-- The walk that a peer's shard query brings (R405). -/
def remoteWalk (g : Graph) (k : Task) : Option Walk := match g.remote, k.run with
  | some _, .walk w => some w
  | _, _ => none

/-- A QUERY's parameters: from its parameter block, or from the peer's message. -/
def queryParams (s : State) (g : Graph) (k : Task) : QParams := match remoteWalk g k with
  | some w => w.p
  | none => match paramBlock s g k 192 with
    | .ok b => qparamsOf b
    | .err _ => {}

/-- Results that a selection keeps (R122): K of a QUERY, of a MERGE, or of a MODEL_RUN that reranks (R213). -/
def selectK (s : State) (g : Graph) (k : Task) : Nat :=
  if k.typ = 0x10 then (queryParams s g k).k
  else if k.typ = 0x11 then par k 0 32
  else if k.typ = 0x09 ∧ k.sub = 0 then (match paramBlock s g k 32 with
    | .ok b => if (runParamOf b).outKind = 2 then (runParamOf b).k else 0
    | .err _ => 0)
  else 0

def quadMode (n : Nat) : Bool := decide (1024 < n ∧ n ≤ 65536)
def streamMode (n : Nat) : Bool := decide (65536 < n)

/-- Bales of request state (R236): a stream-mode store of 16 × K bytes (R123), walk state above LIST 256 (R94), the records
that a fan-out's other nodes return (R406), and a MODEL_RUN's activation spills, whose number is not given. -/
def reqBales (s : State) (g : Graph) (k : Task) : Nat :=
  let n := selectK s g k
  (if streamMode n then ceilDiv (16 * n) bale else 0) +
  (if k.typ = 0x10 ∧ k.sub = 0 ∧ 256 < (queryParams s g k).list then 1 else 0) +
  (if k.typ = 0x10 ∧ k.sub = 1 then
    (match readOp s g.pen (some g) (opd k 5) 0 8 with
    | .ok b => ceilDiv (16 * n * fieldAt b 0 4) bale
    | .err _ => 0) else 0) +
  (if k.typ = 0x09 ∧ k.sub = 0 then
    (match paramBlock s g k 32, modelOf s g.pen (opd k 0) with
    | .ok b, some (_, n, macs) => Config.spillBales (runParamOf b).batch (runParamOf b).seqLen n macs
    | _, _ => 0) else 0)

/-- The resources that a task uses (R68): tile time, stack bandwidth, flash operations. -/
def uses (s : State) (g : Graph) (k : Task) : List Nat :=
  (if unitKindOf k.typ = .tile then [0] else []) ++
  (if k.typ = 0x0C || (ranges s g k).any (atStacks s g k) || reqBales s g k != 0 then [1] else []) ++
  (if k.typ = 0x1C || k.typ = 0x1D || namesFlashIndex s g k || k.ops.any (onFlash s g.pen g.acc) then [2] else [])

/-! Placement (R62, R181, R209). -/

/-- An array task: one that is placed only on tiles with an array in service (R181). -/
def arrayTask (s : State) (g : Graph) (k : Task) : Bool :=
  k.typ == 0x08 || k.typ == 0x09 || (k.typ == 0x10 && (queryParams s g k).rerank != 0)

/-- The tiles of a quad that may take a task. -/
def tilesFor (s : State) (q : Nat) (arr : Bool) : List Nat := (tilesOf s q).filter fun t => !arr || tileHasArray s t

/-- The lowest-numbered quad that satisfies p. -/
def lowQuad (p : Nat → Bool) : Option Nat := (List.range 4).find? p

/-- The quad whose stacks hold the most bytes of some ranges, ties to the lower number (R62). -/
def quadByBytes (s : State) (g : Graph) (rs : List Rng) : Nat :=
  (argMin (fun q => 2 ^ 64 - sumBy (fun r => quadBytes s g q r) rs) (List.range 4)).getD 0

/-- The quad of an index's entry bale, its first home (R40). -/
def entryQuad (s : State) (g : Graph) (k : Task) : Option Nat := match opd k 0 with
  | .obj n _ => match (objOf s g.pen n).bind fun o => o.homes.head? with
    | some (.stack m _) => some (quadOfStack m)
    | _ => none
  | _ => none

/-- Quads on which a model is whole-resident. -/
def residentOn (s : State) (p : Nat) (op : OpRef) (q : Nat) : Bool := match op with
  | .obj n _ => (quadOf s q).resident.any fun r => r.1 == p && r.2.1 == n
  | _ => false

/-- The quad that R62 names for a task of a tile or of near-bank units. Of several quads on which a model is whole-resident the lowest is
taken: R209 says `a quad` (DESIGN CHOICE, log 154). -/
def wantedQuad (s : State) (g : Graph) (k : Task) : Nat :=
  if k.typ = 0x10 then (entryQuad s g k).getD 0
  else if k.typ = 0x09 ∧ k.sub = 0 then
    match lowQuad fun q => residentOn s g.pen (opd k 0) q && !(tilesFor s q true).isEmpty with
    | some q => q
    | none => quadByBytes s g ((ranges s g k).filter fun r => !r.out && r.op != opd k 0)
  else quadByBytes s g (ranges s g k)

/-- The quad where a task runs, or whose pool serves it (R62, R51): the lowest that can when the one named cannot. -/
def placeQuad (s : State) (g : Graph) (k : Task) (kind : UnitKind) : Option Nat :=
  match kind with
  | .tile =>
    let can (q : Nat) : Bool := !(tilesFor s q (arrayTask s g k)).isEmpty
    let q := wantedQuad s g k
    if can q then some q else lowQuad can
  | .nearBank =>
    let can (q : Nat) : Bool := !(stacksOf s q).isEmpty
    let q := wantedQuad s g k
    if can q then some q else lowQuad can
  | .drover => some 0
  | _ => lowQuad fun q => !(tilesOf s q).isEmpty && !(stacksOf s q).isEmpty

/-- The tile of a quad with the fewest issued and unfinished tasks, ties to the lower number; none while each holds 2,048. -/
def placeTile (s : State) (q : Nat) (arr : Bool) : Option Nat :=
  match argMin (fun t => (tileOf s t).tasks.length) (tilesFor s q arr) with
  | some t => if (tileOf s t).tasks.length < 2048 then some t else none
  | none => none

/-- The channel of a FLASH task: that of its first unit (R62). -/
def placeChannel (s : State) (g : Graph) (k : Task) : Nat :=
  let op := if k.typ = 0x1C then opd k 0 else opd k 1
  match opSeg s g.pen (some g) op 0 with
  | .unit l _ => ((lbaUnit s l).map (·.1)).getD 0
  | _ => 0

/-- Whether a Drover DMA channel can take a COPY (R372, R388). -/
def copyChannel (s : State) (n : Nat) : Bool :=
  decide (n < s.drover.dmaCh) && (dmaOf s n).inService && !(dmaOf s n).testing

/-- UNIT kind and number of a placement (R69): none when no unit takes the task now. -/
def placeUnit (s : State) (g : Graph) (k : Task) (kind : UnitKind) (q channel : Nat) : Option (Nat × Nat) :=
  match kind with
  | .tile => if (quadOf s q).binStage = 0 then (placeTile s q (arrayTask s g k)).map fun t => (1, t) else none
  | .engine => some (2, placeChannel s g k)
  | .dma => if copyChannel s channel then some (3, channel) else none
  | .drover => some (0, 0)
  | .nearBank => some (3, q)
  | .flue => some (3, (routePort s (ctxOf s (par k 0 10)).peer).getD 0)

/-- Whether operands that the type's chapter gives as none are none (R109, R127, R169, R212). -/
def spareBad (s : State) (g : Graph) (k : Task) : Bool :=
  let used : List Nat := match k.typ with
    | 0x08 => [0, 1, 2, 3, 4]
    | 0x09 => if k.sub = 0 then (match paramBlock s g k 32 with
        | .ok b => if (runParamOf b).outKind = 2 then [0, 1, 2, 3] else [0, 1, 2]
        | .err _ => [0, 1, 2, 3]) else if k.sub = 1 then [0, 1] else [0]
    | 0x10 => if k.sub = 1 then [0, 1, 2, 3, 4, 5] else [0, 1, 2, 3, 4]
    | 0x11 => 5 :: List.range (par k 32 3)
    | _ => [0, 1, 2, 3, 4, 5]
  (List.range 6).any fun i => !(i ∈ used) && opd k i != .none

/-- A task that its chapter leaves unpredictable for what its operands are: shorter than its parameters ask for, or given where
none is (R109, R128, R183, R225). INSERT and DELETE, and near-bank sequences, look at theirs as they run. -/
def operandsBad (s : State) (g : Graph) (k : Task) : Bool :=
  decide (k.typ ∈ [0x08, 0x09, 0x0A, 0x10, 0x11, 0x18, 0x19]) && g.remote.isNone &&
    ((if k.typ = 0x11 then !opFits s g (opd k 5) (resultBytes (par k 0 32)) else shortOps s g k) || spareBad s g k)

/-- The output bytes that a task's own overlaps leave unpredictable (R109, R128, R183, R254). -/
def clashOf (s : State) (g : Graph) (k : Task) : List (OpRef × Nat) :=
  if k.typ = 0x0C then
    (match nbuProg s g k with
      | (some p, _) => sharedAll (nbuIns k p) (nbuOuts k p)
      | _ => [])
  else ownClash s g k

/-! Limits at issue (R98, R123). -/

/-- Whether a quad-mode selection waits for a store on a quad (R123, R124). -/
def quadWaits (s : State) (q : Nat) : Bool :=
  decide (4 ≤ (quadOf s q).quadSel.length) && (allTasks s).any fun x =>
    x.2.2.st == .ready && quadMode (selectK s x.2.1 x.2.2) && placeQuad s x.2.1 x.2.2 .tile == some q

/-- Whether the owning chapters' limits let a task issue on a quad. -/
def limitsAllow (s : State) (g : Graph) (k : Task) (q : Nat) : Bool :=
  let n := selectK s g k
  (!quadMode n || decide ((quadOf s q).quadSel.length < 4)) &&
  (!streamMode n || decide (sumBy (fun x => x.2.streamSel.length) s.quads < 16)) &&
  (!(k.typ == 0x10 && k.sub == 0 && namesFlashIndex s g k) || decide (s.drover.flashWalks.length < 128))

/-! Paging (R65). -/

/-- Whether a bale has a copy in a quad that a task can pin. -/
def resident (s : State) (q : Nat) (b : BaleId) : Bool := (copyOf s b q).any fun c => c.st != .filling

/-- The bales of a range that are homed on flash or in host memory, the first 8 (R65, R66). -/
def rangeBales (s : State) (g : Graph) (r : Rng) : List BaleId :=
  let n := match r.len with
    | some n => ceilDiv (firstOff r.op + n) bale
    | none => 1
  (List.range (min 8 (max 1 n))).filterMap fun j => baleAt s g.pen g.acc r.op (if j = 0 then 0 else j * bale - firstOff r.op)

/-- The first bales of the operands that must be paged before a task issues (R65). -/
def firstBales (s : State) (g : Graph) (k : Task) : List BaleId :=
  ((pagedOps s g k).filterMap fun o => firstBale s g.pen g.acc o).foldl addNew ([] : List BaleId)

/-- The bales that a task pins from its issue on: up to 8 of each operand (R65, R66). -/
def pagedBales (s : State) (g : Graph) (k : Task) : List BaleId :=
  (((ranges s g k).filter fun r => r.op ∈ pagedOps s g k).flatMap (rangeBales s g)).foldl addNew (firstBales s g k)

/-- The bales of its output ranges among them. -/
def outputBales (s : State) (g : Graph) (k : Task) : List BaleId :=
  (((ranges s g k).filter fun r => r.out && r.op ∈ pagedOps s g k).flatMap (rangeBales s g)).foldl addNew ([] : List BaleId)

/-- Moves begun for the bales that are absent (R65); one for which no slot can be had waits (R66). -/
def pageIn (s : State) (t : TaskId) (g : Graph) (q : Nat) (l : List BaleId) : State :=
  l.foldl (fun s b => if resident s q b then s else (startFill s g.pen q b t).getD s) s

/-! Pool slots for request state and scratch (R236, R51). -/

/-- The usable stack of a quad with the most free pool slots, ties to the lower number. -/
def roomiest (s : State) (q : Nat) : Option Nat := argMin (fun n => 2 ^ 40 - freePool s n) (stacksOf s q)

/-- Copies of a stack evicted, smallest age first, until n slots are free (R234, R66), by fuel; none when they cannot be. -/
def makeRoom (s : State) (st n : Nat) : Nat → Option State
  | 0 => if n ≤ freePool s st then some s else none
  | f + 1 =>
    if n ≤ freePool s st then some s
    else match victim (s.drover.copies.filter fun c => c.stack == st) with
      | some c => makeRoom (dropCopy s c) st n f
      | none => none

/-- Bales of a tile's working space, and those that crowns and scratch objects take (R203). -/
def sramBales (s : State) : Nat := 92 - 4 * (s.drover.mdlPart + s.drover.mdlCache)
def sramUsed (s : State) (t : Nat) : List Nat :=
  ((tileOf s t).crowns.flatMap (·.slots)) ++ s.drover.graphs.flatMap fun g => g.scratch.flatMap fun x => x.2.homes.filterMap fun h => match h with
    | .tile u o => if u = t then some (o / bale) else none
    | _ => none

/-- The lowest n numbers that are not in a list. -/
def lowestFrees (used : List Nat) : Nat → List Nat
  | 0 => []
  | n + 1 => let x := lowestFree used 0; x :: lowestFrees (x :: used) n

/-- The operands whose scratch objects get homes as request state does when the task is placed (R51): all, but for the bank operands of
an NBU_SEQ (R247). -/
def placedOps (s : State) (g : Graph) (k : Task) : List OpRef :=
  if k.typ = 0x0C then
    (match nbuProg s g k with
      | (some p, _) => if p.isSum then [opd k 3, opd k 4] else [opd k 4]
      | _ => [])
  else k.ops

/-- The scratch objects with a bale that has no home yet, among those a task names (R51). -/
def homeless (s : State) (g : Graph) (k : Task) : List (Nat × Scratch) :=
  ((placedOps s g k).filterMap (scratchOf g)).foldl (fun l x =>
    if x.2.homes.any (· == .none) && !(l.any fun y => y.1 == x.1) then l ++ [x] else l) []

/-- Bales of a scratch object without a home. -/
def bare (x : Scratch) : Nat := (x.homes.filter fun h => h == .none).length

/-- Homes put in the places of a list that have none, in order. -/
def fillHomes : List Home → List Home → List Home
  | .none :: r, h :: hs => h :: fillHomes r hs
  | x :: r, hs => x :: fillHomes r hs
  | [], _ => []

/-- Homes given to the bales of a scratch object that have none; what they held is undefined to the graph (R51). -/
def homeScratch (s : State) (acc n : Nat) (homes : List Home) (tag : Nat) : State :=
  let s := modGraph s acc fun g => { g with scratch := tupd g.scratch n fun x => { x with homes := fillHomes x.homes homes } }
  homes.foldl (fun s h => match h with
    | .stack m slot => { s with mem := s.mem.smudge (slotAddr m slot) bale tag }
    | .tile u o => { s with sram := s.sram.smudge (u * 2 ^ 32 + o) bale tag }
    | _ => s) s

/-- One scratch object placed: in the tile's working space when the Drover honours hint 1 (its own choice: a free value), else
in pool slots of a stack. It leaves the room of a crown (R83). -/
def placeScratch (s : State) (acc : Nat) (tile : Option Nat) (st : Nat) (x : Nat × Scratch) : State :=
  let n := bare x.2
  let r := drawTag s
  let sram := match tile with
    | some u => if x.2.hint = 1 ∧ Config.freeBool r.1 = true ∧ (sramUsed s u).length + n + 16 ≤ sramBales s then some u else none
    | none => none
  match sram with
  | some u => homeScratch r.2 acc x.1 ((lowestFrees (sramUsed s u) n).map fun i => .tile u (i * bale)) x.2.tag
  | none =>
    let q := takePools r.2 st n
    homeScratch q.1 acc x.1 (q.2.map fun slot => .stack st slot) x.2.tag

/-- Request state of n bales pinned in a stack and charged (R236). -/
def takeReq (s : State) (t : TaskId) (p q st n : Nat) : State :=
  if n = 0 then s
  else
    let r := takePools s st n
    let s := chargeBales r.1 p n
    { s with drover := { s.drover with reqs := s.drover.reqs ++ [{ task := t, pen := p, quad := q, stack := st, slots := r.2 }] } }

/-- The stack in which the scratch objects of a graph with hint 2 lie, when one does in a quad (R247). -/
def hintStack (s : State) (g : Graph) (q : Nat) : Option Nat :=
  (g.scratch.flatMap fun x => if x.2.hint = 2 then x.2.homes.filterMap fun h => match h with
    | .stack n _ => if n ∈ stacksOf s q then some n else none
    | _ => none else []).head?

/-- The stack for a task's request state: the roomiest (R236); for scratch objects with hint 2 the one where the graph's others lie, when
the Drover honours the hint (its own choice: a free value) and it has the room (R247). -/
def stateStack (s : State) (g : Graph) (q : Nat) (hs : List (Nat × Scratch)) (need : Nat) : State × Option Nat :=
  match if hs.any (fun x => x.2.hint == 2) then hintStack s g q else none with
  | some n =>
    let r := drawTag s
    (r.2, if Config.freeBool r.1 && decide (need ≤ freePool s n) then some n else roomiest s q)
  | none => (s, roomiest s q)

/-- The slots that a task needs before it issues: request state and homes for scratch objects; none while there is no room. -/
def placeSlots (s : State) (t : TaskId) (g : Graph) (k : Task) (q : Nat) (tile : Option Nat) : Option State :=
  let req := reqBales s g k
  let hs := homeless s g k
  let need := req + sumBy (fun x => bare x.2) hs
  if need = 0 then some s
  else
    let r := stateStack s g q hs need
    match r.2 with
    | none => none
    | some st => (makeRoom r.1 st need (s.drover.copies.length + 1)).map fun s =>
        hs.foldl (fun s x => placeScratch s g.acc tile st x) (takeReq s t g.pen q st req)

/-! Charges (R67). -/

/-- What a task is charged at issue on a unit. -/
def issueCharge (s : State) (g : Graph) (k : Task) (unit : Nat × Nat) : Charge :=
  match remoteWalk g k with
  | some w =>
    { tile := 2000 + ceilDiv (40 * w.p.list * (256 + w.p.rerank)) 256, stack := stackCharge s g k
      flash := if namesFlashIndex s g k then 16 * entryOfP w.p else 0 }
  | none => { tile := if unit.1 = 1 then tileCharge s g k unit.2 else 0, stack := stackCharge s g k, flash := flashCharge s g k }

/-! Choices bound at issue (R88, R151, R219). -/

/-- The epoch that an operand's index is read at: the one named when it is held, the latest for 0. -/
def boundEpoch (s : State) (g : Graph) (op : OpRef) (e : Nat) : Option Nat := match indexOf s g.pen op with
  | none => none
  | some (_, x) => if e = 0 then some x.latest else if epochHeld x e then some e else none

/-- The epoch that a task names, with its index operand: a QUERY's, a rebuild's. -/
def namedEpoch (s : State) (g : Graph) (k : Task) : Option (OpRef × Nat) :=
  if k.typ = 0x10 ∧ k.sub = 0 then
    match remoteWalk g k with
    | some w => some (opd k 0, w.p.epoch)
    | none => some (opd k 0, (queryParams s g k).epoch)
  else if k.typ = 0x12 ∧ k.sub = 3 then
    match paramBlock s g k 64 with
    | .ok b => some (opd k 2, (createOf b).epoch)
    | .err _ => none
  else none

/-- Whether a task leaves the base to its issue (R219). -/
def bindsBase (k : Task) : Bool := (k.typ == 0x18 || (k.typ == 0x19 && decide (k.sub ≤ 1))) && par k 25 3 == 0

/-- The value a task binds at its first issue, and whether the node chose it. -/
def bindValue (s : State) (g : Graph) (k : Task) : Option Nat × Bool :=
  match namedEpoch s g k with
  | some (op, e) => (boundEpoch s g op e, e == 0)
  | none =>
    if bindsBase k then ((tableOf s g.pen (opd k 0)).map fun x => x.2.current, true) else (none, false)

/-- The value of the BIND record that replay supplies next. -/
def replayBind (s : State) : Nat := match s.trace.supplied.find? fun r => r.stream == 1 with
  | some r => fieldAt r.body 6 8
  | none => 0

/-- A task's binding made and recorded; in replay the recorded one (R455). A re-issue keeps what it has bound (R91). -/
def bindTask (s : State) (t : TaskId) (g : Graph) (k : Task) : State :=
  if k.bound.isSome then s
  else
    let b := bindValue s g k
    match b.1 with
    | none => s
    | some v =>
      let v := if s.trace.replay && b.2 then replayBind s else v
      let s := if b.2 then traceDecide s 0x13 (bindKey t ++ le 8 v) else s
      modTask s t fun k => { k with bound := some v }

/-- Whether replay holds an issue back until decisions before its binding have been taken (R455). -/
def bindHeld (s : State) (t : TaskId) (g : Graph) (k : Task) : Bool :=
  k.bound.isNone && (bindValue s g k).2 && !replayAllows s 0x13 (bindKey t)

/-! Crowns (R83). -/

/-- The index and epoch whose crown a QUERY needs: object, descriptor, epoch, state. -/
def crownOf (s : State) (g : Graph) (k : Task) : Option (Nat × Desc × Nat × Snap) :=
  if k.typ = 0x10 ∧ k.sub = 0 then
    match indexOf s g.pen (opd k 0), k.bound.or (bindValue s g k).1 with
    | some (n, x), some e => (tget? x.epochs e).map fun sn => (n, x.desc, e, sn)
    | _, _ => none
  else none

/-- The crown of a QUERY's index paged into its tile's SRAM, or shared with the queries that have it there; none while it has no
room (R83). -/
def pageCrown (s : State) (t : TaskId) (g : Graph) (k : Task) (u : Nat) : Option State :=
  match crownOf s g k with
  | none => some s
  | some (num, d, e, sn) =>
    let same (c : CrownCopy) : Bool := c.pen == g.pen && c.object == num && c.epoch == e
    if (tileOf s u).crowns.any same then
      some (updTile s u fun x => { x with crowns := x.crowns.map fun c => if same c then { c with users := c.users ++ [t] } else c })
    else
      let n := crownBales d sn
      let used := sramUsed s u
      if sramBales s < used.length + n then none
      else
        let slots := lowestFrees used n
        let s := updTile s u fun x => { x with crowns := x.crowns ++ [{ pen := g.pen, object := num, epoch := e, slots := slots, users := [t] }] }
        some ((slots.zip (chunks bale (crownImage d sn))).foldl (fun s x =>
          { s with sram := s.sram.write (u * 2 ^ 32 + x.1 * bale) x.2 }) s)

/-! Model residency (R210). -/

/-- KiB per tile that a model needs to be whole-resident on a quad. -/
def modelKib (s : State) (g : Graph) (k : Task) (q : Nat) : Nat := match modelOf s g.pen (opd k 0) with
  | none => 0
  | some (num, bytes, _) => match modelImage s g.pen num bytes with
    | .ok img => sliceKib img (tilesFor s q true).length
    | .err _ => 0

/-- The models of a partition yielded, least recently run first, until one of n KiB fits; those with a running task stay. -/
def yieldModels (busy : Nat × Nat × Nat → Bool) (room n : Nat) : Nat → List (Nat × Nat × Nat) → Option (List (Nat × Nat × Nat))
  | 0, l => if sumBy (fun r => r.2.2) l + n ≤ room then some l else none
  | f + 1, l =>
    if sumBy (fun r => r.2.2) l + n ≤ room then some l
    else match l.find? fun r => !busy r with
      | none => none
      | some r => yieldModels busy room n f (without l r)

/-- The residency chosen at issue for a MODEL_RUN (R210): whole when the model is resident or its slices fit, else streamed. -/
def modelResidency (s : State) (t : TaskId) (g : Graph) (k : Task) (q : Nat) : State :=
  match opd k 0 with
  | .obj num _ =>
    let x := quadOf s q
    let running (r : Nat × Nat × Nat) : Bool := x.runs.any fun u => !(u ∈ x.streaming) && (match graphOf s u.graph, taskOf s u with
      | some h, some j => h.pen == r.1 && opd j 0 == .obj r.2.1 0
      | _, _ => false)
    let start (x : Quad) : Quad := { x with runs := x.runs ++ [t] }
    match x.resident.find? fun r => r.1 == g.pen && r.2.1 == num with
    | some r => updQuad s q fun x => start { x with resident := without x.resident r ++ [r] }
    | none =>
      let n := modelKib s g k q
      match yieldModels running (256 * s.drover.mdlPart) n x.resident.length x.resident with
      | some l => updQuad s q fun x => start { x with resident := l ++ [(g.pen, num, n)] }
      | none => updQuad s q fun x => start { x with streaming := x.streaming ++ [t] }
  | _ => s

/-! Issue. -/

/-- What an attempt to issue a task comes to. -/
inductive Try where
  /-- it has issued, or ended without issuing: the cycle's task (R64) -/
  | done (s : State)
  /-- it holds back no other task (R61); bales may be on their way -/
  | passed (s : State)

/-- The tiles whose issue lists hold a task: every tile of the quad with an array in service for a MODEL_RUN (R209). -/
def issueTiles (s : State) (k : Task) (q : Nat) (unit : Nat × Nat) : List Nat :=
  if k.typ = 0x09 ∧ k.sub = 0 then tilesFor s q true else if unit.1 = 1 then [unit.2] else []

/-- The lists that a selection and a flash-resident walk enter at issue (R98, R123). -/
def enterLists (s : State) (t : TaskId) (g : Graph) (k : Task) (q : Nat) : State :=
  let n := selectK s g k
  let s := if quadMode n then updQuad s q fun x => { x with quadSel := x.quadSel ++ [t] }
    else if streamMode n then updQuad s q fun x => { x with streamSel := x.streamSel ++ [t] } else s
  if k.typ == 0x10 && k.sub == 0 && namesFlashIndex s g k then
    { s with drover := { s.drover with flashWalks := s.drover.flashWalks ++ [t] } } else s

/-- What a task reads from host memory recorded as it issues: its parameter block and its class 0 operands (R452). -/
def recInputs (s : State) (g : Graph) (k : Task) : State :=
  if !s.trace.recording then s
  else
    let blk := blockOf s g k
    let ins := (ranges s g k).filterMap fun r => if r.out then none else some (r.op, r.len.getD (firstBytes r))
    (blk ++ ins).foldl (fun s x => recOp s (if k.typ = 0x04 then 36 else 0) g.pen x.1 x.2) s

/-- A task that has all it needs issued: charged at its first issue (R67), bound, its bales pinned or on their way (R65, R66). -/
def issueTask (s : State) (t : TaskId) (g : Graph) (k : Task) (kind : UnitKind) (q : Nat) (unit : Nat × Nat) : State :=
  let c := issueCharge s g k unit
  let first := k.issues == 0
  let s := if first then chargePen s g.pen g.cls c else s
  let s := enterLists s t g k q
  let s := (issueTiles s k q unit).foldl (fun s u => updTile s u fun x => { x with tasks := x.tasks ++ [t] }) s
  let s := if k.typ = 0x09 ∧ k.sub = 0 then modelResidency s t g k q else s
  let s := recInputs (bindTask s t g k) g k
  let s := modTask s t fun k => { k with
    st := .issued, issues := k.issues + 1, unitKind := unit.1, unitNo := unit.2, quad := q
    window := pagedBales s g k, outBales := outputBales s g k, clash := clashOf s g k ++ hostClash s g k
    outs := outputs s g k, had := (named k).all fun n => (objOf s g.pen n).isSome
    chargeTile := if first then c.tile else k.chargeTile
    chargeStack := if first then c.stack else k.chargeStack
    chargeFlash := if first then c.flash else k.chargeFlash }
  let s := (pagedBales s g k).foldl (fun s b => pinBale s g.pen q t b) s
  { s with drover := { s.drover with
    robin := tput s.drover.robin (robinKey kind g.cls) g.pen
    reissues := if first then s.drover.reissues else satAdd 32 s.drover.reissues 1 } }

/-- One ready task tried (R61, R62, R65 to R68). -/
def tryIssue (s : State) (t : TaskId) (g : Graph) (k : Task) (kind : UnitKind) (channel : Nat) : Try :=
  let st := namedStatus s g k
  if st ≠ 0 then .done (failTask s t st)
  else if !((uses s g k).all fun r => bktPositive (penOf s g.pen) g.cls r) then .passed s
  else match placeQuad s g k kind with
    | none => .passed s
    | some q => match placeUnit s g k kind q channel with
      | none => .passed s
      | some unit =>
        if reservedTask k || operandsBad s g k then .done (unpredictable (issueTask s t g k kind q unit) t g (outputs s g k))
        else if !limitsAllow s g k q || bindHeld s t g k then .passed s
        else
          let absent := (firstBales s g k).filter fun b => !resident s q b
          if !absent.isEmpty then .passed (pageIn s t g q absent)
          else if !quotaHolds s g.pen (reqBales s g k) then .done (failTask s t stQuotaExceeded)
          else match placeSlots s t g k q (if unit.1 = 1 then some unit.2 else none) with
            | none => .passed s
            | some s1 => match if unit.1 = 1 then pageCrown s1 t g k unit.2 else some s1 with
              | none => .passed s
              | some s2 => .done (issueTask s2 t ((graphOf s2 t.graph).getD g) k kind q unit)

/-- The candidates tried in order until one is done. -/
def tryAll (kind : UnitKind) (channel : Nat) : State → List (TaskId × Graph × Task) → State
  | s, [] => s
  | s, x :: r => match tryIssue s x.1 x.2.1 x.2.2 kind channel with
    | .done s => s
    | .passed s => tryAll kind channel s r

/-- Whether the Drover issues at all (R369, R442, R450). -/
def mayIssue (s : State) : Bool := s.boot.ready && !s.drover.stopped && s.health.st != 2 && !s.trace.stalled

/-- TASK_ISSUE (R61): the next task for a kind of unit; bales that issued tasks lack are asked for again (R65). -/
def execTaskIssue (kind : UnitKind) (channel : Nat) (s : State) : Res :=
  actWhen (mayIssue s) s (sendAnswers (tryAll kind channel (fetchAhead s) (readyTasks s kind)))

/-! Completion. -/

/-- A FLUE_SEND whose message has left its context's queue: a pen reset does not stop it (R404). -/
def flueSent (s : State) (t : TaskId) (k : Task) : Bool := match k.run with
  | .send c _ => !((ctxOf s c).waiting.any fun m => m.type == 0x10 && m.corrid == t.graph * 65536 + t.idx)
  | _ => false

/-- The status with which a finished task completes: a pen reset under way has stopped it, FLUE_SENDs apart (R368, R404). -/
def endStatus (s : State) (g : Graph) (k : Task) : Nat :=
  if (penOf s g.pen).resetting && k.typ != 0x20 then stResetAborted else k.status

/-- Bytes of the records that a walk read at the stacks (R67, R106): an adjacency list for each expansion, a code and its
attributes for each score. -/
def walkBytes (s : State) (g : Graph) (k : Task) : Nat := match k.run, indexOf s g.pen (opd k 0) with
  | .walk w, some (_, x) =>
    if x.desc.flash then 0 else 4 * x.desc.degree * w.counts.expansions + (codeBytes x.desc + x.desc.attrBytes) * w.counts.scored
  | _, _ => 0

/-- What a task used in all (R67): its unit's cycles where it ran on a tile, the bytes it moved at the stacks, its flash operations. -/
def usedAll (s : State) (g : Graph) (k : Task) (cycles : Nat) : Charge :=
  let reads := if k.typ = 0x04 ∨ k.typ = 0x0C then 0 else sumBy (stackRead s g k) ((ranges s g k).filter fun r => !r.out)
  { tile := if k.unitKind = 1 then cycles else 0, stack := k.usedStack + reads + walkBytes s g k, flash := k.usedFlash }

/-! Tasks with no order between them (R76). -/

/-- The tasks that a path of edges leads to from some tasks, by fuel. -/
def reachGo (es : List Edge) : Nat → List Nat → List Nat
  | 0, l => l
  | f + 1, l =>
    let next := (es.filter fun e => e.src ∈ l).map (·.dst)
    let l' := next.foldl addNew l
    if l'.length = l.length then l else reachGo es f l'
def reaches (g : Graph) (a b : Nat) : Bool := decide (b ∈ reachGo g.edges g.tasks.length [a])

/-- Whether a pen's two tasks have no order (R56, R57): no path of edges in one graph; in two, no fence in the later. -/
def unordered (t u : TaskId) (g h : Graph) : Bool :=
  if t.graph = u.graph then t.idx != u.idx && !reaches g t.idx u.idx && !reaches g u.idx t.idx
  else g.pen == h.pen && !((if t.graph < u.graph then h else g).tasks.any fun k => k.typ == 0x01)

/-- The bytes that two unordered tasks both access, one of them writing (R76): those of a range of known length. SCATTER adds are
excepted (R59). -/
def clashes (s : State) (t : TaskId) (g : Graph) (k : Task) : List (OpRef × Nat) :=
  let mine := (ranges s g k).filterMap fun r => (dataLen s g k r).map fun n => (r, n)
  let others := (allTasks s).filter fun x => (x.2.2.st == .finished || x.2.2.st == .complete) && unordered t x.1 g x.2.1 &&
    !(k.typ == 0x19 && k.sub == 1 && x.2.2.typ == 0x19 && x.2.2.sub == 1)
  others.flatMap fun x => (ranges s x.2.1 x.2.2).flatMap fun r => match dataLen s x.2.1 x.2.2 r with
    | none => []
    | some n => mine.filterMap fun m =>
        let same := match m.1.op with
          | .scratch _ _ => t.graph == x.1.graph
          | _ => true
        if (m.1.out || r.out) && same then shared m.1.op m.2 r.op n else none

/-- Those bytes, and those of its own overlaps, left unpredictable as the later of the tasks completes (log 142); what lines of the host
leave so is looked at as the task issues and as it completes (R281, log 158). -/
def smudgeClashes (s : State) (t : TaskId) (g : Graph) (k : Task) : State :=
  let others := (allTasks s).filter fun x => (x.2.2.st == .finished || x.2.2.st == .complete) && x.2.1.pen == g.pen && unordered t x.1 g x.2.1
  let s := others.foldl (fun s x =>
    let s := (rowClash s g.pen k x.2.2).foldl (fun s c => smudgeOp s g.pen (some g) c.1 0 c.2) s
    if k.typ = 0x19 ∧ x.2.2.typ = 0x18 then
      (rowClash s g.pen x.2.2 k).foldl (fun s c => smudgeOp s g.pen (some x.2.1) c.1 0 c.2) s else s) s
  let host := hostTouched s g k
  let s := (clashes s t g k ++ hostClash s g k ++ (if k.wrote then k.clash else [])).foldl (fun s c => smudgeOp s g.pen (some g) c.1 0 c.2) s
  host.foldl wildLine s

end Sys2Proof.Machine
end

