-- ==== Sys2Proof/Machine/Lend.lean ====
section
/-!
DEFINITION. Lent memory (R411 to R413): LEND, hand-overs, and the messages of the lender and the borrower. The bodies of MAPUPD,
RREAD, RWRITE and RRESP are laid out by the model (log 15).
-/

namespace Sys2Proof.Machine

/-- GEN counts from 1 and wraps from 0xFFFF_FFFF to 1 (R411). -/
def nextGen (n : Nat) : Nat := if 0xFFFFFFFF ≤ n then 1 else n + 1

/-- MAPUPD: grant or revoke, the number at the borrower, the lender's object, its bytes. -/
def sendMapupd (s : State) (c gen : Nat) (grant : Bool) (num obj bytes : Nat) : State :=
  ctxSend s c 0x43 gen 0 (le 1 (b2n grant) ++ le 1 0 ++ le 2 num ++ le 4 obj ++ le 8 bytes)

/-- Stack lines of an object. -/
def objLines (o : Obj) : List (Nat × Nat) := o.homes.filterMap fun h => match h with
  | .stack n slot => some (slotAddr n slot, bale)
  | _ => none
def inObj (o : Obj) (l : Nat) : Bool := (objLines o).any fun r => decide (r.1 ≤ l ∧ l < r.1 + r.2)

/-- Lines of an object that the host holds, by the directory. -/
def hostHeld (s : State) (o : Obj) : List Nat :=
  s.coh.slices.flatMap fun x => (x.2.entries.filter fun e =>
    inObj o e.1 && (decide (hostAgent ∈ e.2.sharers) || (e.2.st != .S && e.2.owner == hostAgent))).map (·.1)

/-- The host's lines of an object invalidated, as victims are (R413, R266); one in a transient state follows when that is over. -/
def evictHost (s : State) (o : Obj) : State :=
  (hostHeld s o).foldl (fun s l => if (entryOf s l).any isStable then evict s l else s) s

/-- An object homed wholly in the stacks. -/
def inStacks (o : Obj) : Bool := !o.homes.isEmpty && o.homes.all fun h => match h with
  | .stack _ _ => true
  | _ => false
def homeFailed (s : State) (o : Obj) : Bool := o.homes.any fun h => match h with
  | .stack n _ => !stackUsable s n
  | _ => false

/-- An object lent anew, or handed over: the entry names the borrower at the next GEN; the old borrower's entry is revoked, the
new one granted, and the host's lines of the object are evicted when it was the borrower (R411, R413). A lend on an OPENING context
waits (R401). -/
def lendTo (s : State) (p num kind c bnum : Nat) (cmd : Cmd) : State :=
  match objOf s p num with
  | none => complete s cmd stNotFound
  | some o =>
    let gen := nextGen o.lentGen
    let grant (s : State) : State := if kind = 0 then sendMapupd s c gen true bnum num o.bytes else s
    match o.lent with
    | none =>
      if kind = 2 then complete s cmd stSuccess
      else
        let wait := kind == 0 && (ctxOf s c).st == 1
        let e : Lent := { kind := kind, ctx := c, borrower := bnum, gen := gen, handover := if wait then some cmd else none }
        let s := grant (updObj s p num fun o => { o with lent := some e, lentGen := gen })
        if wait then s else complete s cmd stSuccess
    | some old =>
      let e : Lent := { old with kind := kind, ctx := c, borrower := bnum, gen := gen, handover := some cmd }
      let s := updObj s p num fun o => { o with lent := some e, lentGen := gen }
      let s := if old.kind = 0 then sendMapupd s old.ctx gen false old.borrower num o.bytes else s
      let s := grant s
      if old.kind = 1 then evictHost s o else s

/-- LEND's argument block (R403). -/
def lendOk (b : KBlock) : Bool :=
  decide (karg b 2 1 ≤ 2 ∧ karg b 4 2 ≤ 1023) && allZero (sub b.args 3 1) && allZero (sub b.args 6 2) && allZero (sub b.args 10 22)

/-- LEND (R403, R411, R413). -/
def execLend (c : Cmd) (b : KBlock) (s : State) : Res :=
  withKeyedArgs s c b 0x0303 (fun _ => true) (lendOk b) fun s p =>
    let num := karg b 0 2
    let kind := karg b 2 1
    let ctx := karg b 4 2
    let x := ctxOf s ctx
    match objOf s p num with
    | none => complete s c stNotFound
    | some o =>
      if kind = 0 && (x.st == 0 || x.pen != p) then complete s c stInvalidField
      else if o.lost || homeFailed s o then complete s c stStateLost
      else if !inStacks o then complete s c stNotFound
      else if kind = 0 && x.st == 3 then complete s c stPeerLost
      else match o.lent with
        | some l =>
          if l.handover.isSome then
            updObj s p num fun o => { o with lent := some { l with queued := l.queued ++ [(c, kind, ctx, karg b 8 2)] } }
          else lendTo s p num kind ctx (karg b 8 2) c
        | none => lendTo s p num kind ctx (karg b 8 2) c

/-! Requests at the lender (R412, R413). -/

/-- RRESP: a status and, for a read, its data; with MEDIA_ERROR the poisoned runs of the range, offset and length (log 15). -/
def sendRresp (s : State) (m : FlueMsg) (st : Nat) (data : List Byte) : State :=
  let s := if st = stMapStale then { s with flue := { s.flue with stale := satAdd 16 s.flue.stale 1 } } else s
  ctxSend s m.dctx 0x42 m.gen m.corrid (le 2 st ++ le 2 0 ++ data)

/-- A request performed on the lent object, as RdC or Wr: its answer sent. -/
def serveLent (s : State) (p : Nat) (m : FlueMsg) : State :=
  let num := fieldAt m.body 0 4
  let off := fieldAt m.body 4 8
  let n := fieldAt m.body 12 4
  match objOf s p num with
  | none => sendRresp s m stMapStale []
  | some o =>
    let op : OpRef := .obj num off
    if o.bytes < off + n then sendRresp s m stInvalidField []
    else match readOp s p none op 0 n with
      | .err e => if m.type = 0x41 ∧ e = stMediaError then sendRresp (writeHome s p none op 0 (sub (m.body.drop 16) 0 n)) m stSuccess []
        else sendRresp s m e (if e = stMediaError then (poisonIn s (segs s p none op 0 n)).flatMap fun r => le 4 r.1 ++ le 4 r.2 else [])
      | .ok bs =>
        if m.type = 0x40 then sendRresp s m stSuccess bs
        else sendRresp (writeHome s p none op 0 (sub (m.body.drop 16) 0 n)) m stSuccess []

/-- A request that has arrived: served under the current entry, kept while a hand-over drains, or answered MAP_STALE. -/
def takeRequest (s : State) (m : FlueMsg) : State :=
  let p := (ctxOf s m.dctx).pen
  let num := fieldAt m.body 0 4
  match (objOf s p num).bind (·.lent) with
  | none => sendRresp s m stMapStale []
  | some l =>
    if l.kind ≠ 0 ∨ l.ctx ≠ m.dctx ∨ l.gen ≠ m.gen then sendRresp s m stMapStale []
    else if l.handover.isSome then updObj s p num fun o => { o with lent := some { l with waiting := l.waiting ++ [m] } }
    else serveLent s p m

/-- The lines of an RREAD's range that its RdC finds owned or not at rest (R257, R412). -/
def readUnsettled (s : State) (p : Nat) (m : FlueMsg) : List Nat :=
  match objOf s p (fieldAt m.body 0 4) with
  | none => []
  | some o =>
    let off := fieldAt m.body 4 8
    let n := fieldAt m.body 12 4
    if m.type ≠ 0x40 ∨ o.bytes < off + n then []
    else (segs s p none (.obj (fieldAt m.body 0 4) off) 0 n).flatMap fun x => match x.1 with
      | .stk a => unsettled s a x.2
      | _ => []

/-- Whether a request would be served as it arrives: next in turn on its context, from the current borrower at the current GEN. -/
def servedNow (s : State) (m : FlueMsg) : Bool :=
  decide (m ∈ s.flue.inbox) && m.dst == s.flue.nodeId && msgFits s m && m.mseq == (ctxOf s m.dctx).exp0 &&
    (match (objOf s (ctxOf s m.dctx).pen (fieldAt m.body 0 4)).bind (·.lent) with
      | some l => l.kind == 0 && l.ctx == m.dctx && l.gen == m.gen && l.handover.isNone
      | none => false)

/-- RREAD (R412, R413), performed as RdC: one whose lines are owned asks for them first and stays where it is (R257). -/
def execRread (m : FlueMsg) (s : State) : Res :=
  let l := readUnsettled s (ctxOf s m.dctx).pen m
  if servedNow s m && !l.isEmpty then .next (askLines s l) else onMsg s m 0x40 fun s => takeRequest s m

/-- RWRITE (R412, R413). -/
def execRwrite (m : FlueMsg) (s : State) : Res := onMsg s m 0x41 fun s => takeRequest s m

/-- LEND_HANDOVER_DONE (R413, step 4): nothing of the old entry is left and the host holds no line that it must give up: the LEND
completes, requests that waited are served, and the next LEND of the object begins. Else lines that it still holds are given up. -/
def execLendHandoverDone (pen object : Nat) (s : State) : Res :=
  match objOf s pen object with
  | none => .next s
  | some o => match o.lent with
    | none => .next s
    | some l => match l.handover with
      | none => .next s
      | some cmd =>
        if !l.draining.isEmpty || (l.kind == 0 && (ctxOf s l.ctx).st == 1) then .next s
        else if l.kind != 1 && !(hostHeld s o).isEmpty then .next (evictHost s o)
        else if !(l.waiting.flatMap (readUnsettled s pen)).isEmpty then .next (askLines s (l.waiting.flatMap (readUnsettled s pen)))
        else
          let l' : Lent := { l with handover := none, waiting := [], queued := [] }
          let s := updObj s pen object fun o => { o with lent := if l.kind = 2 then none else some l' }
          let s := complete s cmd stSuccess
          let s := l.waiting.foldl (fun s m => serveLent s pen m) s
          match l.queued with
          | [] => .next s
          | (c, k, x, n) :: rest =>
            let s := lendTo s pen object k x n c
            .next (rest.foldl (fun s q => match (objOf s pen object).bind (·.lent) with
              | some l => if l.handover.isSome then
                  updObj s pen object fun o => { o with lent := some { l with queued := l.queued ++ [q] } }
                else lendTo s pen object q.2.1 q.2.2.1 q.2.2.2 q.1
              | none => lendTo s pen object q.2.1 q.2.2.1 q.2.2.2 q.1) s)

/-! At the borrower (R412, R413). -/

/-- The running COPY that waits for an answer with a tag. -/
def copyWaiting (s : State) (p corr : Nat) : Option (TaskId × Graph × Task × List Nat × Nat) :=
  (allTasks s).findSome? fun x =>
    if x.2.1.pen != p || x.2.2.st != .issued || x.2.2.orphan || x.2.2.typ != 0x04 then none
    else match x.2.2.run with
      | .remote l f => if corr ∈ l then some (x.1, x.2.1, x.2.2, l, f) else none
      | _ => none

/-- Lines of a COPY's destination poisoned where the lender returned poison (R377, R412). -/
def poisonOut (s : State) (g : Graph) (k : Task) (m : FlueMsg) : State :=
  let b := m.body.drop 4
  let at_ := 65536 * (m.corrid % 2 ^ 24)
  let lines := (List.range (b.length / 8)).flatMap fun i => linesAt s g (opd k 1) (at_ + fieldAt b (8 * i) 4) (fieldAt b (8 * i + 4) 4)
  { s with poison := lines.foldl addNew s.poison }

/-- An answer taken by its COPY: a read's data is written; after the last, the task ends with the first failure, its output
unpredictable, or with SUCCESS (R377, R412). -/
def takeRresp (s : State) (m : FlueMsg) : State :=
  match copyWaiting s (ctxOf s m.dctx).pen m.corrid with
  | none => s
  | some (t, g, k, l, f) =>
    let st := fieldAt m.body 0 2
    let f := if f = 0 then st else f
    let l := without l m.corrid
    let s := if st = stSuccess && k.sub == 0 && (borrowedOf s g.pen (opd k 0)).isSome then
        writeOp s t g.pen k.quad (some g) (opd k 1) (65536 * (m.corrid % 2 ^ 24)) (m.body.drop 4)
      else if st = stMediaError && k.sub == 0 && (borrowedOf s g.pen (opd k 0)).isSome then poisonOut s g k m
      else s
    let s := modTask s t fun k => { k with run := .remote l f }
    if !l.isEmpty then s
    else if f = stSuccess then finishTask s t stSuccess k.result
    else
      let s := (outputs s g k).foldl (fun s o => if (borrowedOf s g.pen o.1).isSome then s else smudgeOp s g.pen (some g) o.1 0 o.2) s
      finishTask s t f 0

/-- RRESP (R412). -/
def execRresp (m : FlueMsg) (s : State) : Res := onMsg s m 0x42 fun s => takeRresp s m

/-- MAPUPD (R411, R413): a grant adds the borrowed object at its number, unless an object of the pen's own is there (R415); a
revocation makes later accesses stale. -/
def execMapupd (m : FlueMsg) (s : State) : Res :=
  onMsg s m 0x43 fun s =>
    let p := (ctxOf s m.dctx).pen
    let num := fieldAt m.body 2 2
    let ob := fieldAt m.body 4 4
    let grant := fieldAt m.body 0 1 = 1
    let new (g : Nat) : Obj := { kind := .borrowed m.dctx ob g (fieldAt m.body 8 8), bytes := fieldAt m.body 8 8 }
    match objOf s p num with
    | none => if grant then putObj s p num (new m.gen) else s
    | some o => match o.kind with
      | .borrowed c ob' _ _ => if c = m.dctx ∧ ob' = ob then putObj s p num (new (if grant then m.gen else 0)) else s
      | _ => s

/-- What a lost context leaves of lent and borrowed objects (R414): lent ones return to the owner with the next GEN, borrowed ones
are lost and their COPYs end with PEER_LOST. -/
def loseLends (s : State) (c : Nat) : State :=
  let p := (ctxOf s c).pen
  let cmds : List (Cmd × Nat) := (penOf s p).objects.flatMap fun o => match o.2.lent with
    | some l => if l.kind = 0 ∧ l.ctx = c then
        (l.handover.toList.map fun m => (m, stPeerLost)) ++ (l.queued.map fun q => (q.1, stPeerLost)) else []
    | none => []
  let f (o : Obj) : Obj :=
    let o := match o.lent with
      | some l => if l.kind = 0 ∧ l.ctx = c then { o with lent := none, lentGen := nextGen o.lentGen } else o
      | none => o
    match o.kind with
    | .borrowed x _ _ _ => if x = c then { o with lost := true } else o
    | _ => o
  let ts := (allTasks s).filter fun x => x.2.1.pen == p && x.2.2.st == .issued && x.2.2.typ == 0x04 && (match x.2.2.run with
    | .remote _ _ => [opd x.2.2 0, opd x.2.2 1].any fun o => (borrowedOf s p o).any fun b => b.2.1 == c
    | _ => false)
  let s := ts.foldl (fun s x => finishTask s x.1 stPeerLost 0) s
  let s := updPen s p fun x => { x with objects := tmap x.objects fun _ o => f o }
  cmds.foldl (fun s m => complete s m.1 m.2) s

end Sys2Proof.Machine
end

