-- ==== Sys2Proof/Machine/Mirror.lean ====
section
/-!
DEFINITION. Mirrors (R148, R408 to R410): the mirror stream at its target, acknowledgements at the primary, the load of a target,
promotion. The bodies of MREC, MCOMMIT, MACK and LOAD are laid out by the model (log 15).
-/

namespace Sys2Proof.Machine

/-- A log record as MREC and MCOMMIT carry it (R138). -/
def logRecOf (b : List Byte) : LogRec := { pos := fieldAt b 0 8, kind := fieldAt b 8 1, epoch := fieldAt b 10 6, body := b.drop 16 }

/-- A record's effect on an index's state and log (R137): all kinds but the commit. -/
def replayRec (x : Index) (r : LogRec) : Index :=
  match r.kind with
  | 0 => ((applyInsert x r.body).map (·.1)).getD x
  | 1 => (applyDelete x (BitVec.ofNat 64 (fieldAt r.body 0 8))).1
  | 2 =>
    let t := (x.sweep.map (·.members)).getD []
    logged { x with work := repairOne x.desc t x.work (fieldAt r.body 0 1, fieldAt r.body 1 5) } 2 r.body
  | 3 => startSweep x []
  | 4 =>
    let t := (x.sweep.map (·.members)).getD []
    logged { x with work := sweepSnap t x.work, sweep := none, freed := x.freed ++ t.map fun n => (n, r.epoch) } 4 []
  | _ => x

/-- A target's epoch acknowledged on its context: at once, or, when it is flash-resident, once it is durable (R148, R134). -/
def ackEpoch (s : State) (c num e : Nat) (flash : Bool) : State :=
  if flash then s else ctxSend s c 0x32 0 0 (mackBody num e stSuccess)

/-- A target's index with an epoch still to be brought to the medium. -/
def toLand (x : Index) (c e : Nat) (sn : Snap) : Index :=
  if x.desc.flash then { x with landing := x.landing ++ [{ ctx := some c, epoch := e, snap := sn, pos := x.logPos }] } else x

/-- A commit record at the target (R148): the epoch is committed and acknowledged. -/
def targetCommit (s : State) (p num c : Nat) (x : Index) (e : Nat) : State :=
  let sn := withCrown x.desc x.work
  let y := logged { x with work := sn } 5 []
  let y := { y with epochs := tput y.epochs e sn, latest := e, held := min y.hold (y.held + 1) }
  ackEpoch (keepIndex s p num x (pruneEpochs (epochBusy s p num) (toLand y c e sn))) c num e x.desc.flash

/-- One streamed record applied at a target, on the context that brought it. -/
def targetRec (s : State) (p num c : Nat) (r : LogRec) : State :=
  match indexOf s p (.obj num 0) with
  | none => s
  | some (_, x) =>
    if r.kind = 5 then targetCommit s p num c x r.epoch else keepIndex s p num x (replayRec x r)

/-- The mirror target that a message names in its context's pen. -/
def targetOf (s : State) (m : FlueMsg) : Option (Nat × Nat × Index) :=
  let p := (ctxOf s m.dctx).pen
  let num := fieldAt m.body 0 4
  match indexOf s p (.obj num 0) with
  | some (_, x) => if x.target && !opLost s p (.obj num 0) then some (p, num, x) else none
  | none => none

/-- A streamed record taken by a target: held until its load is installed (R409), else applied; a commit is acknowledged. -/
def takeRec (s : State) (m : FlueMsg) : State :=
  match targetOf s m with
  | none => s
  | some (p, num, x) =>
    let r := logRecOf (m.body.drop 4)
    if x.epochs.isEmpty then setIndex s p num { x with heldLog := x.heldLog ++ [r] } else targetRec s p num m.dctx r

/-- MREC (R148). -/
def execMrec (m : FlueMsg) (s : State) : Res := onMsg s m 0x30 fun s => takeRec s m

/-- MCOMMIT (R148, R408): one with a tag asks whether the target exists; any other is a commit of the stream. -/
def execMcommit (m : FlueMsg) (s : State) : Res :=
  onMsg s m 0x31 fun s =>
    if m.corrid ≠ 0 then
      ctxSend s m.dctx 0x32 0 m.corrid (mackBody (fieldAt m.body 0 4) 1 (if (targetOf s m).isSome then stSuccess else stNotFound))
    else takeRec s m

/-! The load (R409). -/

/-- A descriptor's bytes (R77). -/
def descBytes (d : Desc) : List Byte :=
  le 2 1 ++ le 1 d.codeLog ++ le 1 d.degree ++ le 1 d.upperDegree ++ le 1 d.levelShift ++ le 1 d.attrBytes ++ le 1 (b2n d.flash) ++
    le 8 d.capacity ++ le 4 d.channelMask.toNat ++ le 2 d.vecDim ++ le 1 d.vecFmt ++ le 1 d.vecPlace ++ le 1 d.metric ++
    le 1 d.crownBales ++ List.replicate 38 0

def slotPart (n : Nat) (r : SlotRec) : List Byte :=
  le 5 n ++ le 8 r.id.toNat ++ le 1 r.level ++ le 1 (b2n r.tomb) ++ le 16 r.attr ++ le 256 r.code ++ le 1 r.adj.length ++
    r.adj.flatMap (le 5) ++ r.vec
def slotOfPart (b : List Byte) : Nat × SlotRec :=
  let n := fieldAt b 287 1
  (fieldAt b 0 5,
    { id := BitVec.ofNat 64 (fieldAt b 5 8), level := fieldAt b 13 1, tomb := fieldAt b 14 1 = 1, attr := fieldAt b 15 16
      code := fieldAt b 31 256, adj := (List.range n).map fun i => fieldAt b (288 + 5 * i) 5, vec := b.drop (288 + 5 * n) })

def upperPart (l i : Nat) (r : Upper) : List Byte := le 1 l ++ le 5 i ++ le 5 r.slot ++ le 5 r.down ++ le 1 r.nbr.length ++ r.nbr.flatMap (le 5)
def upperOfPart (b : List Byte) : Nat × Nat × Upper :=
  (fieldAt b 0 1, fieldAt b 1 5,
    { slot := fieldAt b 6 5, down := fieldAt b 11 5, nbr := (List.range (fieldAt b 16 1)).map fun i => fieldAt b (17 + 5 * i) 5 })

/-- The body of one LOAD message: the target's object, the part's kind, the CRC-32C of its bytes, the bytes. -/
def loadBody (obj part : Nat) (b : List Byte) : List Byte := le 4 obj ++ le 1 part ++ le 3 0 ++ le 4 (crc32c b).toNat ++ b

/-- Every part of an epoch: slots (1), upper records (2), the key map (3), the free lists (4), and last what closes it (5). -/
def loadParts (x : Index) (e : Nat) (sn : Snap) : List (Nat × List Byte) :=
  let pos := ((x.log.find? fun r => r.kind == 5 && r.epoch == e).map (·.pos + 1)).getD 0
  (sn.slots.map fun r => (1, slotPart r.1 r.2)) ++
  (sn.upper.flatMap fun u => u.2.map fun r => (2, upperPart u.1 r.1 r.2)) ++
  (sn.keymap.map fun k => (3, le 8 k.1 ++ le 5 k.2)) ++
  ((x.freed.filter fun f => decide (f.2 ≤ e)).map fun f => (4, le 5 f.1 ++ le 6 f.2)) ++
  [(5, le 6 e ++ le 8 pos ++ le 1 sn.top ++ le 1 (b2n sn.entry.isSome) ++ le 5 (sn.entry.getD 0) ++ le 1 sn.crownFloor ++ le 1 (b2n sn.crownEmpty) ++
    le 6 x.base)]

/-- The primary that a MACK answers: the index of the context's pen whose mirror is the target named. -/
def primaryOf (s : State) (m : FlueMsg) : Option (Nat × Nat × Index) :=
  let c := ctxOf s m.dctx
  let obj := fieldAt m.body 0 4
  ((penOf s c.pen).objects.findSome? fun o => match o.2.kind with
    | .index x => if x.mirrored && !x.target && x.mirrorNode == c.peer && x.mirrorObject == obj then some (o.1, x) else none
    | _ => none).map fun y => (c.pen, y.1, y.2)

/-- The parts of the held epoch and the log after it sent (R409, steps 2 and 3). -/
def sendLoad (s : State) (p num c : Nat) (x : Index) (m : MirrorLoad) : State :=
  let sn := tgetD x.epochs m.epoch {}
  let y := { x with loading := some { m with phase := 1 } }
  let s := (loadParts x m.epoch sn).foldl (fun s b => ctxSend s c 0x33 0 0 (loadBody x.mirrorObject b.1 b.2)) (setIndex s p num y)
  streamRecs s p y (y.log.filter fun r => decide (m.epoch < r.epoch))

/-- The answer to a create's question to its partner (R408). -/
def confirmCreate (s : State) (m : FlueMsg) : State :=
  match (allTasks s).find? (fun x => x.2.2.st == .issued && x.2.2.typ == 0x12 && x.2.2.sub == 2 &&
      x.2.1.pen == (ctxOf s m.dctx).pen && x.2.2.run == .remote [m.corrid] 0) with
  | none => s
  | some (t, g, k) =>
    if fieldAt m.body 10 2 ≠ stSuccess then finishTask s t stPeerLost 0
    else match createArgs s g k with
      | (none, e) => readFailed s t g k e
      | (some (db, cb), _) => createNow s t g k db cb

/-- An acknowledgement at the primary: of the load's first message, of its installation, or of a commit. -/
def takeMack (s : State) (m : FlueMsg) : State :=
  match primaryOf s m with
  | none => s
  | some (p, num, x) =>
    let e := fieldAt m.body 4 6
    let st := fieldAt m.body 10 2
    match x.loading with
    | some l =>
      if l.phase = 0 then
        if st = stSuccess then sendLoad s p num m.dctx x l
        else complete (setIndex s p num (pruneEpochs (epochBusy s p num) { x with loading := none })) l.cmd stInvalidField
      else if l.phase = 1 && l.epoch == e then setIndex s p num { x with loading := some { l with phase := 2 } }
      else setIndex s p num { x with commits := x.commits.map fun y => if y.sealed && y.epoch == e then { y with mackPending := false } else y }
    | none => setIndex s p num { x with commits := x.commits.map fun y => if y.sealed && y.epoch == e then { y with mackPending := false } else y }

/-- MACK (R134, R408, R409). -/
def execMack (m : FlueMsg) (s : State) : Res :=
  onMsg s m 0x32 fun s => if m.corrid ≠ 0 then confirmCreate s m else takeMack s m

/-- The load installed at its target: the epoch, then the held records, each commit acknowledged (R409, step 4). -/
def installLoad (s : State) (p num c : Nat) (x : Index) (b : List Byte) : State :=
  let e := fieldAt b 0 6
  let sn := { x.work with
    top := fieldAt b 14 1, entry := if fieldAt b 15 1 = 1 then some (fieldAt b 16 5) else none, crownFloor := fieldAt b 21 1
    crownEmpty := fieldAt b 22 1 = 1 }
  let y := { x with
    epochs := [(e, sn)], latest := e, held := 1, work := sn, log := [], logPos := fieldAt b 6 8, heldLog := [], base := fieldAt b 23 6 }
  let y := toLand y c e sn
  let s := ackEpoch (keepIndex s p num y y) c num e y.desc.flash
  x.heldLog.foldl (fun s r => targetRec s p num c r) s

/-- One part of a load at its target. -/
def loadPart (s : State) (m : FlueMsg) (p num : Nat) (x : Index) : State :=
  let b := m.body.drop 12
  let w := x.work
  match fieldAt m.body 4 1 with
  | 0 =>
    if b = descBytes x.desc then
      let s := setIndex s p num { x with
        epochs := [], latest := 0, held := 0, work := {}, log := [], sweep := none, freed := [], heldLog := [], landing := [] }
      ctxSend s m.dctx 0x32 0 0 (mackBody num 0 stSuccess)
    else ctxSend s m.dctx 0x32 0 0 (mackBody num 0 stInvalidField)
  | 1 => let r := slotOfPart b; setIndex s p num { x with work := { w with slots := tput w.slots r.1 r.2 } }
  | 2 => let r := upperOfPart b; setIndex s p num { x with work := { w with upper := tmod w.upper r.1 fun t => tput t r.2.1 r.2.2 } }
  | 3 => setIndex s p num { x with work := { w with keymap := tput w.keymap (fieldAt b 0 8) (fieldAt b 8 5) } }
  | 4 => setIndex s p num { x with freed := x.freed ++ [(fieldAt b 0 5, fieldAt b 5 6)] }
  | _ => installLoad s p num m.dctx x b

/-- LOAD (R409): each part's CRC-32C is checked on arrival; a part that fails it, or after the epoch is installed, is discarded. -/
def execLoad (m : FlueMsg) (s : State) : Res :=
  onMsg s m 0x33 fun s => match targetOf s m with
    | none => if fieldAt m.body 4 1 = 0 then ctxSend s m.dctx 0x32 0 0 (mackBody (fieldAt m.body 0 4) 0 stInvalidField) else s
    | some (p, num, x) =>
      if BitVec.ofNat 32 (fieldAt m.body 8 4) != crc32c (m.body.drop 12) then rejectMsg s
      else if fieldAt m.body 4 1 != 0 && !x.epochs.isEmpty then s
      else loadPart s m p num x

/-- MIRROR_LOAD (R409), from the primary's pen: the latest epoch is held and the target's descriptor checked. Without an OPEN
context PEER_LOST; on what is no mirrored primary, or while a load runs, the status is free (log 14). -/
def execMirrorLoad (c : Cmd) (b : KBlock) (s : State) : Res :=
  withKeyedArgs s c b 0x0304 (fun _ => true) (allZero (sub b.args 2 30)) fun s p =>
    let num := karg b 0 2
    if opLost s p (.obj num 0) then complete s c stStateLost
    else match indexOf s p (.obj num 0) with
      | none => complete s c stNotFound
      | some (_, x) =>
        if !x.mirrored || x.target || x.loading.isSome then completeFree s c
        else match ctxTo s p x.mirrorNode with
          | none => complete s c stPeerLost
          | some ctx =>
            let s := setIndex s p num { x with loading := some { cmd := c, epoch := x.latest, phase := 0 }, mirrorLost := true }
            ctxSend s ctx 0x33 0 0 (loadBody x.mirrorObject 0 (descBytes x.desc))

/-- MIRROR_PROMOTE (R410), from the target's pen: the latest committed epoch becomes the working state of an unmirrored primary.
On what is no target with an epoch the status is free (log 14). -/
def execMirrorPromote (c : Cmd) (b : KBlock) (s : State) : Res :=
  withKeyedArgs s c b 0x0305 (fun _ => true) (allZero (sub b.args 2 30)) fun s p =>
    let num := karg b 0 2
    if opLost s p (.obj num 0) then complete s c stStateLost
    else match indexOf s p (.obj num 0) with
      | none => complete s c stNotFound
      | some (_, x) => match tget? x.epochs x.latest with
        | none => completeFree s c
        | some sn =>
          if !x.target then completeFree s c
          else
            let kept := x.log.filter fun r => decide (r.epoch ≤ x.latest)
            let late := (x.log.filter fun r => decide (x.latest < r.epoch)).any fun r => r.kind == 3
            let y := { x with
              target := false, mirrored := false, work := sn, log := kept, heldLog := []
              logPos := ((kept.getLast?).map (·.pos + 1)).getD x.logPos
              sweep := if late then none else x.sweep, freed := x.freed.filter fun f => decide (f.2 ≤ x.latest) }
            complete (keepIndex s p num y y) c stSuccess

/-- The mirrors of a pen after its context to the partner is lost (R148, R402, R409): the stream stops, waiting commits go on
without it, a load ends with PEER_LOST, a target's unfinished load is dropped. -/
def loseMirrors (s : State) (c : Nat) : State :=
  let x := ctxOf s c
  let used := ctxTo s x.pen x.peer == some c
  let cmds : List Cmd := (penOf s x.pen).objects.filterMap fun o => match o.2.kind with
    | .index ix => if used && ix.mirrored && !ix.target && ix.mirrorNode == x.peer then ix.loading.map (·.cmd) else none
    | _ => none
  let f (o : Obj) : Obj := match o.kind with
    | .index ix =>
      if used && ix.mirrored && !ix.target && ix.mirrorNode == x.peer then
        { o with kind := .index { ix with
          mirrorLost := true, loading := none, commits := ix.commits.map fun y => { y with mackPending := false, admission := false } } }
      else if ix.target && ix.epochs.isEmpty then { o with kind := .index { ix with work := {}, heldLog := [], freed := [] } }
      else o
    | _ => o
  let s := updPen s x.pen fun p => { p with objects := tmap p.objects fun _ o => f o }
  let s := releaseEpochs s x.pen
  cmds.foldl (fun s cmd => complete s cmd stPeerLost) s

end Sys2Proof.Machine
end

