-- ==== Sys2Proof/Machine/Skex.lean ====
section
/-!
DEFINITION. Skex commands other than KEYED and EPOCH_COMMIT (R333 to R339).
-/

namespace Sys2Proof.Machine

/-- A Skex command: on a queue made by Create Skex Queue; elsewhere Invalid Command Opcode (R328). One with a wrong NSID or a reserved
field that is not 0 does nothing and completes with a free status (R349, log 162). -/
def withSkex (s : State) (c : Cmd) (f : State → Nat → State) : Res :=
  withCmd s c fun s n => if !onSkex s c then complete s c stInvalidOpcode else if c.bad then completeFree s c else f s n

/-- SUBMIT (R334): the graph waits for acceptance in the order of its queue (R53). -/
def execSubmit (c : Cmd) (graph : OpRef) (s : State) : Res :=
  withSkex s c fun s n =>
    updCtl s c.ctl fun x => { x with sqs := tupd x.sqs c.sq fun q => { q with submits := q.submits ++ [(c, graph, n)] } }

/-- The limits of a fence's scope (R335): entries before it in its queue; under PEN also what doorbells covered before the
one that covers it. -/
def fenceLimits (s : State) (c : Cmd) (n : Nat) (penScope : Bool) : List (Nat × Nat × Nat) :=
  let own := [(c.ctl, c.sq, n)]
  if !penScope then own
  else match sqOf (ctlOf s c.ctl) c.sq with
    | none => own
    | some q => match q.marks.find? (fun m => decide (n < m.upto)) with
      | some m => own ++ m.others
      | none => own

/-- FENCE (R335): completes with SUCCESS once its scope has. -/
def execSkexFence (c : Cmd) (penScope durable : Bool) (s : State) : Res :=
  withSkex s c fun s n =>
    wake { s with port := { s.port with
      fences := s.port.fences ++ [{ cmd := c, limits := fenceLimits s c n penScope, durable := durable }] } }

/-- ORDERED_WRITE (R336): accepted only after the queue's previous ordered write has completed. -/
def execOrderedWrite (c : Cmd) (slba blocks : Nat) (fua : Bool) (prp : List Nat) (s : State) : Res :=
  if !ioPositive s (penOfCtl c.ctl) || rangeWaits s (penOfCtl c.ctl) slba blocks then .next s
  else withSkex s c fun s n =>
    let p := penOfCtl c.ctl
    let us := windowUnits s p slba blocks
    let st := if s.port.sanitizing.isSome then stSanitizeInProgress else if us.isNone then stLbaOutOfRange else 0
    let s := if st != 0 then s else
      let s := prpRec p prp (4096 * blocks) s
      chargeIo s p (if !fua && wbInUse s then 4096 * blocks else 0) (ceilDiv blocks 4)
    let w : OrdWrite := { cmd := c, units := dataUnits (us.getD []) (prpRead s (fnPages c prp) (4096 * blocks)), fua := fua, st := st }
    match sqOf (ctlOf s c.ctl) c.sq with
    | none => s
    | some q =>
      let s := if q.owCur.isSome || !q.owWait.isEmpty then
          updCtl s c.ctl fun x => setSq x c.sq { q with owWait := q.owWait ++ [w] }
        else startOrdered s w n
      settleOrdered s (orderedCount s)

/-- TABLE_SWITCH (R337, R219): makes a base of a table current; it completes with SUCCESS. A number in use by no table is a
host error, and so is a base that the table lacks, after which some base of the table is current: the status is free (R349, log 13). -/
def execTableSwitch (c : Cmd) (object base : Nat) (s : State) : Res :=
  withSkex s c fun s _ =>
    let p := penOfCtl c.ctl
    let put (s : State) (t : Table) (b : Nat) : State := updObj s p object fun o => { o with kind := .table { t with current := b } }
    match objOf s p object with
    | none => completeFree s c
    | some o => match o.kind with
      | .table t =>
        if base < t.bases then complete (put s t base) c stSuccess
        else let r := drawTag s; completeFree (put r.2 t ((Config.freeWord r.1).toNat % max t.bases 1)) c
      | _ => completeFree s c

/-- OBJECT REGION_CREATE (R339, R327). A number in use is a field out of range: the object stays, and the status is free (R349, log 162). -/
def execRegionCreate (c : Cmd) (object first blocks : Nat) (s : State) : Res :=
  withSkex s c fun s _ =>
    let p := penOfCtl c.ctl
    if (objOf s p object).isSome then completeFree s c
    else match windowUnits s p first blocks with
      | none => complete s c stLbaOutOfRange
      | some _ =>
        complete (putObj s p object { kind := .region first blocks, bytes := 4096 * blocks, homes := [] }) c stSuccess

/-- OBJECT REGION_DESTROY (R339): the units keep their data. -/
def execRegionDestroy (c : Cmd) (object : Nat) (s : State) : Res :=
  withSkex s c fun s _ =>
    let p := penOfCtl c.ctl
    match objOf s p object with
    | none => complete s c stNotFound
    | some o => match o.kind with
      | .region _ _ => complete (dropObj s p object) c stSuccess
      | _ => complete s c stNotFound

/-- Stack homes of an object: stack and slot. -/
def stackHomes (o : Obj) : List (Nat × Nat) := o.homes.filterMap fun h => match h with
  | .stack n slot => some (n, slot)
  | _ => none

/-- OBJECT MAP (R339): pins every stack-homed bale and lists their device physical addresses. A capacity below the bale count leaves the
list's memory unpredictable, within the capacity given (R349). -/
def execMap (c : Cmd) (object capacity : Nat) (list : OpRef) (s : State) : Res :=
  withSkex s c fun s _ =>
    let p := penOfCtl c.ctl
    match objOf s p object with
    | none => complete s c stNotFound
    | some o =>
      let hs := stackHomes o
      if hs.isEmpty then complete s c stNotFound
      else if o.lost || hs.any (fun h => !stackUsable s h.1) then complete s c stStateLost
      else
        let s := updObj s p object fun o => { o with mapped := true }
        let s := if capacity < hs.length then smudgeOp s p none list 0 (8 * capacity)
          else writeHome s p none list 0 (hs.flatMap fun h => le 8 (slotAddr h.1 h.2))
        complete s c stSuccess hs.length

/-- OBJECT UNMAP (R339): the pins of MAP are released. -/
def execUnmap (c : Cmd) (object : Nat) (s : State) : Res :=
  withSkex s c fun s _ =>
    let p := penOfCtl c.ctl
    match objOf s p object with
    | none => complete s c stNotFound
    | some _ => complete (updObj s p object fun o => { o with mapped := false }) c stSuccess

end Sys2Proof.Machine
end

