-- ==== Sys2Proof/Machine/FlueCtx.lean ====
section
/-!
DEFINITION. Peer contexts (R399, R401 to R403), FLUE_SEND and PUT (R404), shard queries and answers (R405, R406), and what a lost
context ends (R402, R407, R414).
-/

namespace Sys2Proof.Machine

/-- OPEN as this node sends it: byte 0 is 1 while the sender is OPENING and asks for an OPEN in return (log 15). -/
def sendOpen (s : State) (c : Nat) : State := sendMsg s (ctxMsg s c 0x01 0 0 [if (ctxOf s c).st = 1 then 1 else 0])

/-- Messages that a context holds, in all. -/
def ctxLoad (x : Ctx) : Nat := x.waiting.length + x.unacked0.length + x.unacked1.length

/-- OPEN (R401): it names this node's context as its peer; the context becomes OPEN with MSEQ 0 on both VCs and sends what waited.
One that names no such context is discarded and counted (R402). -/
def execOpenMsg (m : FlueMsg) (s : State) : Res :=
  match takeInbox s m 0x01 with
  | none => .next s
  | some s =>
    let x := ctxOf s m.dctx
    if !((x.st == 1 || x.st == 2) && x.peer == m.src && x.pctx == m.sctx) then .next (rejectMsg s)
    else
      let s := flueIn s m
      let s := if x.st = 1 then updCtx s m.dctx fun x => { x with st := 2, send0 := 0, send1 := 0, exp0 := 0, exp1 := 0 } else s
      let s := if x.st = 1 ∨ fieldAt m.body 0 1 = 1 then sendOpen s m.dctx else s
      .next (drainCtx s m.dctx x.waiting.length)

/-- Tasks that wait on a context: its FLUE_SENDs, and creates that ask its peer (R402, R408). -/
def ctxTasks (s : State) (c : Nat) : List TaskId :=
  let x := ctxOf s c
  ((allTasks s).filter fun y => y.2.2.st == .issued && (match y.2.2.run with
    | .send d _ => d == c
    | .remote _ _ => y.2.2.typ == 0x12 && y.2.1.pen == x.pen && ctxTo s x.pen x.peer == some c && (match createArgs s y.2.1 y.2.2 with
        | (some (_, cb), _) => (createOf cb).node == x.peer
        | _ => false)
    | _ => false)).map (·.1)

/-- The shards of one fan-out that wait on a context fail with PEER_LOST (R407). -/
def loseShards (s : State) (c : Nat) (t : TaskId) : State :=
  match graphOf s t.graph, taskOf s t with
  | some g, some k => (match k.run with
    | .walk w =>
      let l := w.shards.map fun sh => if !sh.done && sh.ctx == c && sh.node != s.flue.nodeId then failShard sh stPeerLost else sh
      if k.typ = 0x10 ∧ k.sub = 1 ∧ k.st = .issued ∧ g.pen = (ctxOf s c).pen ∧ l ≠ w.shards then finishFan s t g k { w with shards := l } else s
    | _ => s)
  | _, _ => s

/-- A context lost (R402, R414): everything waiting on it ends with PEER_LOST, its messages are discarded. -/
def loseCtx (s : State) (c : Nat) : State :=
  let s := (ctxTasks s c).foldl (fun s t => finishTask s t stPeerLost 0) s
  let s := ((allTasks s).map (·.1)).foldl (fun s t => loseShards s c t) s
  let s := loseLends (loseMirrors s c) c
  updCtx s c fun x => { x with st := 3, unacked0 := [], unacked1 := [], waiting := [], wait0 := 1, wait1 := 1 }

/-- CLOSE (R402): accepted in MSEQ order (R399). -/
def execClose (m : FlueMsg) (s : State) : Res := onMsg s m 0x02 fun s => loseCtx s m.dctx

/-- Whether an acknowledgement covers a message, modulo 2^32 (R399). -/
def covers (a seq : Nat) : Bool := decide ((a + 2 ^ 32 - seq) % 2 ^ 32 < 2 ^ 31)

/-- ACK (R399): every covered message is acknowledged; messages that waited for the limit go. -/
def execFlueAck (m : FlueMsg) (s : State) : Res :=
  match takeInbox s m 0x03 with
  | none => .next s
  | some s =>
    if !msgFits s m then .next (rejectMsg s)
    else
      let a0 := fieldAt m.body 0 4
      let a1 := fieldAt m.body 4 4
      let n := ctxLoad (ctxOf s m.dctx)
      let s := updCtx s m.dctx fun x =>
        let u0 := x.unacked0.filter fun y => !covers a0 y.mseq
        let u1 := x.unacked1.filter fun y => !covers a1 y.mseq
        { x with
          unacked0 := u0, unacked1 := u1
          wait0 := if u0.length < x.unacked0.length then 1 else x.wait0
          wait1 := if u1.length < x.unacked1.length then 1 else x.wait1 }
      .next (drainCtx s m.dctx n)

/-- RESEND_TIMEOUT (R399): every unacknowledged message of a VC is sent again in order and the wait doubles, up to 64; an OPENING
context repeats its OPEN. -/
def execResendTimeout (ctx vc : Nat) (s : State) : Res :=
  let x := ctxOf s ctx
  if x.st = 1 ∧ vc = 0 then .next (sendOpen s ctx)
  else if x.st ≠ 2 ∨ (unackedOf x vc).isEmpty then .next s
  else
    let s := (unackedOf x vc).foldl sendMsg s
    .next (updCtx s ctx fun x => if vc = 0 then { x with wait0 := min 64 (2 * x.wait0) } else { x with wait1 := min 64 (2 * x.wait1) })

/-- PEER_TIMEOUT (R399, R402): a message has gone unacknowledged for PEER_TMO. -/
def execPeerTimeout (ctx : Nat) (s : State) : Res :=
  let x := ctxOf s ctx
  actWhen (x.st == 2 && !(x.unacked0.isEmpty && x.unacked1.isEmpty)) s (loseCtx s ctx)

/-! Controls (R403). -/

/-- Contexts bound to a pen. -/
def penCtxs (s : State) (p : Nat) : Nat := (s.flue.ctxs.filter fun c => c.2.st != 0 && c.2.pen == p).length

/-- FLUE_CTX_OPEN's argument block (R403). -/
def ctxOpenOk (b : KBlock) : Bool :=
  decide (karg b 0 2 ≤ 1023 ∧ karg b 2 2 ≤ 1023 ∧ karg b 4 2 ≤ 1023 ∧ karg b 6 1 ≤ 3) && allZero (sub b.args 7 1) && allZero (sub b.args 10 2) &&
    bits (karg b 12 4) 15 16 == 0 && allZero (sub b.args 16 16)

/-- FLUE_CTX_OPEN (R401, R403). -/
def execFlueCtxOpen (c : Cmd) (b : KBlock) (s : State) : Res :=
  withKeyedArgs s c b 0x0300 (fun _ => true) (ctxOpenOk b) fun s p =>
    let n := karg b 0 2
    if (ctxOf s n).st != 0 then complete s c stInvalidField
    else if (penOf s p).peerCtx ≤ penCtxs s p then complete s c stQuotaExceeded
    else
      let q := karg b 8 2
      let land := karg b 12 4
      let x : Ctx :=
        { st := 1, pen := p, peer := bits (karg b 2 2) 0 10, pctx := karg b 4 2, cls := bits (karg b 6 1) 0 2
          arrival := if q = 0 then none else some (c.ctl, q), landing := if bit land 31 then none else some (bits land 0 15) }
      let s := { updCtx s n (fun _ => x) with trace := { s.trace with touched := true } }
      complete (sendOpen s n) c stSuccess

/-- A context closed by this node (R402, R403): CLOSE is sent, its work ends with PEER_LOST, it is CLOSED. -/
def closeCtx (s : State) (n : Nat) : State :=
  let s := if (ctxOf s n).st = 2 then sendMsg s { ctxMsg s n 0x02 0 0 [] with mseq := (ctxOf s n).send0 } else s
  let s := if (ctxOf s n).st = 0 then s else loseCtx s n
  updCtx s n fun _ => {}

/-- FLUE_CTX_CLOSE (R403): of a context bound to the issuing pen. -/
def execFlueCtxClose (c : Cmd) (b : KBlock) (s : State) : Res :=
  withKeyedArgs s c b 0x0301 (fun _ => true) (decide (karg b 0 2 ≤ 1023) && allZero (sub b.args 2 30)) fun s p =>
    let n := karg b 0 2
    let x := ctxOf s n
    if x.st = 0 ∨ x.pen ≠ p then complete s c stInvalidField else complete (closeCtx s n) c stSuccess

/-- FLUE_ROUTE (R400, R403), from pen 0. -/
def execFlueRoute (c : Cmd) (b : KBlock) (s : State) : Res :=
  withKeyedArgs s c b 0x0302 onlyPen0 (decide (karg b 0 2 ≤ 1023) && allZero (sub b.args 3 29)) fun s _ =>
    let s := { s with flue := { s.flue with routes := tput s.flue.routes (bits (karg b 0 2) 0 10) (karg b 2 1) } }
    complete (flushOutbox s) c stSuccess

/-! FLUE_SEND and PUT (R404). A PUT's body is the offset, the sender graph's tag, and the data; its tag names the task (log 15). -/

/-- FLUE_SEND: a context not bound to the pen gives Invalid Field in Command (log 14); a LOST one PEER_LOST. -/
def execFlueSend (t : TaskId) (s : State) : Res :=
  match running s t 0x20 (some 0) with
  | none => .next s
  | some (g, k) =>
    let c := par k 0 10
    let n := par k 10 16 + 1
    let x := ctxOf s c
    if k.run != .none then .next s
    else if par k 58 6 != 0 || par k 26 32 % 8 != 0 || opd k 0 == .none || (List.range 5).any fun i => opd k (i + 1) != .none then .next (unpredictable s t g [])
    else if x.st = 0 ∨ x.pen ≠ g.pen then .next (finishTask s t stInvalidField 0)
    else if x.st = 3 then .next (finishTask s t stPeerLost 0)
    else match readOp s g.pen (some g) (opd k 0) 0 n with
      | .err e => .next (readFailed s t g k e)
      | .ok b =>
        let s := modTask s t fun k => { k with
          run := .send c x.send0, result := n, usedStack := k.usedStack + stackPart s g (opd k 0) n }
        .next (ctxSend s c 0x10 0 (t.graph * 65536 + t.idx) (le 8 (par k 26 32) ++ le 8 g.tag ++ b))

/-- The arrival record of a PUT (R404). -/
def arrivalRec (m : FlueMsg) (q off n : Nat) : Rec :=
  { status := 0, taskIndex := 0xFFFF, graphTag := fieldAt m.body 8 8, result := off + (n - 1) * 2 ^ 32 + bits m.sctx 0 10 * 2 ^ 48
    sqId := q, cid := 0, issues := 0, unit := 3, graph := 2 ^ 64, put := some (m.dctx, m.corrid) }

/-- PUT_DONE with a status. -/
def putAnswer (s : State) (m : FlueMsg) (st : Nat) : State := ctxSend s m.dctx 0x11 0 m.corrid (le 2 st)

/-- A PUT delivered: its range checked against the landing object, its body written, its arrival recorded, and PUT_DONE returned once
the record is written. Where the landing object or the arrival queue is gone the PUT is unpredictable (R415): a free status, and free
bytes in the range that it names. -/
def takePut (s : State) (m : FlueMsg) : State :=
  let x := ctxOf s m.dctx
  let off := fieldAt m.body 0 8
  let data := m.body.drop 16
  match x.landing with
  | none => putAnswer s m stInvalidField
  | some n => match objOf s x.pen n with
    | none => let r := freeStatus s; putAnswer r.1 m r.2
    | some o =>
      if o.bytes < off + data.length ∨ data.isEmpty then putAnswer s m stInvalidField
      else match x.arrival with
        | none => putAnswer (writeHome s x.pen none (.obj n off) 0 data) m stSuccess
        | some (ctl, q) =>
          if thas (ctlOf s ctl).sqs q then
            let w := postRec (writeHome s x.pen none (.obj n off) 0 data) ctl q (arrivalRec m q off data.length)
            if w.2 then putAnswer w.1 m stSuccess else w.1
          else
            let r := freeStatus (smudgeOp s x.pen none (.obj n off) 0 data.length)
            putAnswer r.1 m r.2

/-- PUT (R404). -/
def execPut (m : FlueMsg) (s : State) : Res := onMsg s m 0x10 fun s => takePut s m

/-- PUT_DONE (R404): the FLUE_SEND completes with the receiver's status. -/
def execPutDone (m : FlueMsg) (s : State) : Res :=
  onMsg s m 0x11 fun s =>
    let t : TaskId := ⟨m.corrid / 65536, m.corrid % 65536⟩
    match running s t 0x20 (some 0) with
    | none => s
    | some (_, k) => match k.run with
      | .send c _ =>
        if c ≠ m.dctx then s
        else let st := fieldAt m.body 0 2; finishTask s t st (if st = stSuccess then k.result else 0)
      | _ => s

/-! Shard queries (R405, R406). -/

/-- The graph that a peer's query is accepted as: one QUERY task in the context's pen and class, writing no records. -/
def remoteGraph (s : State) (m : FlueMsg) (p num : Nat) (x : Index) : Graph :=
  let b := m.body
  let q := { qparamsOf (sub b 12 192) with epoch := fieldAt b 4 6 }
  let n := codeBytes x.desc
  let w : Walk := { pen := p, object := num, p := q, code := fieldAt b 204 n, qvec := b.drop (204 + n) }
  let k : Task := { typ := 0x10, ops := [.obj num 0, .none, .none, .none, .none, .none], run := .walk w }
  { acc := s.drover.nextAcc, pen := p, cmd := ⟨512 + p, 0, 0, false⟩, cls := max (ctxOf s m.dctx).cls (penOf s p).minClass, tasks := [k]
    remote := some (m.dctx, m.corrid) }

/-- A shard query that cannot run is answered with its status. -/
def refuseQuery (s : State) (m : FlueMsg) (st : Nat) : State :=
  (answerBodies (fieldAt m.body 12 4) 0 [] (answerEnd st 0 0 {})).foldl (fun s b => ctxSend s m.dctx 0x21 0 m.corrid b) s

/-- A graph of one task without edges, as R53 sees it. -/
def oneTask : Header := { version := 1, tasks := 1, edges := 0, tag := 0, taskArr := .none, edgeArr := .none, prio := 0, all := false }

/-- A shard query accepted (R405). -/
def takeQuery (s : State) (m : FlueMsg) : State :=
  let p := (ctxOf s m.dctx).pen
  match indexOf s p (.obj (fieldAt m.body 0 4) 0) with
  | none => refuseQuery s m stNotFound
  | some (num, x) =>
    if !everFits s p oneTask then refuseQuery s m stQuotaExceeded
    else
      takeGraph s (remoteGraph s m p num x)

/-- QUERY_MESSAGE (R405): one that the pen's quotas cannot hold now waits, as R53 has it. -/
def execQueryMessage (m : FlueMsg) (s : State) : Res :=
  let p := (ctxOf s m.dctx).pen
  if msgFits s m && everFits s p oneTask && !(mayAccept s p && fitsNow s p oneTask && replayAllows s 0x10 (le 4 s.drover.nextAcc)) then .next s
  else onMsg s m 0x20 fun s => takeQuery s m

/-- ANSWER (R406): a shard's records; the last completes its entry, and the fan-out with it when none is left. -/
def execAnswer (m : FlueMsg) (s : State) : Res :=
  onMsg s m 0x21 fun s => match shardOf s (ctxOf s m.dctx).pen m.dctx m.corrid with
    | none => s
    | some (t, g, k, w, i) =>
      let sh : Option Shard := w.shards[i]?
      match sh with
      | none => s
      | some sh => finishFan s t g k { w with shards := w.shards.set i (takeAnswer sh m.body) }

end Sys2Proof.Machine
end

