-- ==== Sys2Proof/Machine/HostPort.lean ====
section
/-!
DEFINITION. The host port (12, 16): links, resets of the port and of controllers (R322), CC.EN (R419) and the doorbells
(R323, R329, R335).
-/

namespace Sys2Proof.Machine

/-- A trained width and rate that R320 allows: a split port has 8 lanes at most. -/
def linkOk (split : Bool) (width rate : Nat) : Bool :=
  (width == 4 || width == 8 || (width == 16 && !split)) && decide (rate ≤ 2)

/-- A port's link up. -/
def linkUp (s : State) (portB : Bool) (width rate : Nat) : State :=
  if portB then
    { s with
      topo := { s.topo with hostSplit := true }
      port := { s.port with upB := true, widthB := width, rateB := rate } }
  else
    { s with
      port := { s.port with upA := true, widthA := width, rateA := rate }
      coh := { s.coh with deadHost := false } }

/-- HOST_LINK_UP (R320): a link without 256 B flits stays down. Port A's training clears DIR_DEAD1.HOST (R280). Two ports are
in use once port B has trained before readiness; HOST_SPLIT does not change after it (R38, log 17). -/
def execHostLinkUp (portB : Bool) (width rate : Nat) (flit256 : Bool) (s : State) : Res :=
  let split := if portB then s.topo.hostSplit || (!s.boot.ready && decide (s.port.widthA ≤ 8)) else s.topo.hostSplit
  let may := hostPortOn s && flit256 && linkOk split width rate && (!portB || split) && !(hostAgent ∈ s.coh.toSweep)
  actWhen may s (linkUp s portB width rate)

/-- The controllers on a port (R321). -/
def portCtls (s : State) (portB : Bool) : List Nat := (tkeys s.port.ctls).filter fun c => if portB then decide (256 ≤ c) else decide (c < 256)

/-- A controller cleared by CC.EN 1 → 0 or an FLR (R322): its queues go, and CFS with them. -/
def clearCtl (s : State) (ctl : Nat) : State :=
  if thas s.port.ctls ctl then sendOwed (updCtl (resetCtl s ctl) ctl fun c => { c with cfs := false, dead := false }) else s

/-- The port's registers after its link went down: a link-down is counted when it was up. -/
def portDown (x : Port) (portB : Bool) : Port :=
  if portB then { x with upB := false, widthB := 0, rateB := 0, downsB := if x.upB then satAdd 16 x.downsB 1 else x.downsB }
  else { x with upA := false, widthA := 0, rateA := 0, downsA := if x.upA then satAdd 16 x.downsA 1 else x.downsA }

/-- A link down, a hot reset or a secondary bus reset of a port (R322). -/
def linkDown (s : State) (portB : Bool) : State :=
  let s := { s with port := portDown s.port portB }
  let s := (portCtls s portB).foldl clearCtl s
  if portB then s else declareDead s hostAgent

/-- LINK_DOWN (R322). -/
def execLinkDown (portB : Bool) (s : State) : Res := actWhen (hostPortOn s) s (linkDown s portB)

/-- CXL_RESET (R322): the host agent is declared dead, the HDM decoders are cleared. -/
def execCxlReset (s : State) : Res :=
  actWhen (hostPortOn s) s (declareDead { s with port := { s.port with hdm := [] } } hostAgent)

/-- The DMA ring channels stopped by an FLR of the physical function (R389). -/
def stopRings (s : State) : State :=
  ((tkeys s.dma).filter fun n => ringChan s n && (dmaOf s n).en).foldl stopDma s

/-- CONTROLLER_RESET (R322): CC.EN from 1 to 0, or an FLR of the function. -/
def execControllerReset (ctl : Nat) (flr : Bool) (s : State) : Res :=
  let s1 := clearCtl s ctl
  let s2 := if flr && penOfCtl ctl == 0 then stopRings s1 else s1
  actWhen (flr || (ctlOf s ctl).en) s s2

/-- Whether a controller sets CSTS.CFS rather than RDY (R425, R442). -/
def nodeFailed (s : State) : Bool := s.boot.phase == 15 || s.health.st == 2

/-- A controller enabled with its admin queues (R419, R350). -/
def enableCtl (s : State) (ctl asq asqs acq acqs : Nat) : State :=
  updCtl s ctl fun c => { c with
    en := true
    cfs := nodeFailed s
    rdy := s.boot.ready && !nodeFailed s && (penOf s (penOfCtl ctl)).alive
    dead := false
    admin := { base := asq, size := asqs, cqid := 0 }
    adminCq := { base := acq, size := acqs, ien := true, iv := 0 } }

/-- CONTROLLER_ENABLE (R419): a pen 0 controller takes CC.EN = 1 at any time; a virtual function answers from readiness on.
Controllers 256 and above exist in split mode only (R321). -/
def execControllerEnable (ctl asq asqs acq acqs : Nat) (s : State) : Res :=
  let here := decide (ctl < 256) || (decide (ctl < 512) && s.topo.hostSplit)
  actWhen (hostPortOn s && here && !(ctlOf s ctl).en && (penOfCtl ctl == 0 || s.boot.ready)) s
    (enableCtl s ctl asq asqs acq acqs)

/-! CXL.mem. -/

/-- Whether a CXL.mem request writes. -/
def isMemWr (r : CxlReq) : Bool := match r with
  | .wr _ _ => true
  | _ => false

/-- HOST_CXL_MEM_REQUEST (R264, R324, R349). -/
def execHostCxlMemRequest (req : CxlReq) (l : Nat) (s : State) : Res :=
  hostMemRow req l (if isMemWr req && hostReaches s l && homeLine s l then spoilUsers s l else s)

/-! Doorbells. -/

/-- Whether a controller takes doorbells: it works, or it is a fenced node's pen 0 controller, which still answers Get Log Page for the
health log (R442). -/
def takesDoorbell (s : State) (ctl : Nat) : Bool :=
  ctlUp s ctl || (s.health.st == 2 && (ctlOf s ctl).en && penOfCtl ctl == 0)

/-- The entries that doorbells have covered in every queue of a pen but one (R335). -/
def coverage (s : State) (p ctl sq : Nat) : List (Nat × Nat × Nat) :=
  (s.port.ctls.filter fun c => penOfCtl c.1 == p).flatMap fun c =>
    ((0, c.2.admin) :: c.2.sqs).filterMap fun q => if c.1 = ctl ∧ q.1 = sq then none else some (c.1, q.1, q.2.covered)

/-- Entries a tail doorbell adds to a queue. -/
def newEntries (q : Sq) (tail : Nat) : Nat := (tail + q.size - q.covered % q.size) % q.size

/-- Whether a tail value keeps R349: below the size, not past the head. -/
def tailOk (q : Sq) (tail : Nat) : Bool := decide (tail < q.size ∧ q.covered - q.fetched + newEntries q tail < q.size)

/-- A queue after its tail doorbell: more entries covered, and what the pen's other queues had covered by then. -/
def coverSq (q : Sq) (tail : Nat) (others : List (Nat × Nat × Nat)) : Sq :=
  { q with
    covered := q.covered + newEntries q tail
    marks := (q.marks.filter fun m => decide (q.fetched < m.upto)) ++ [{ upto := q.covered + newEntries q tail, others := others }] }

/-- A free tail that keeps R349, for a doorbell that does not. -/
def freeTail (q : Sq) (tag : Nat) : Nat :=
  let room := q.size - 1 - (q.covered - q.fetched)
  (q.covered + (Config.freeWord tag).toNat % (room + 1)) % max q.size 1

/-- SQ_TAIL_DOORBELL (R335, R323): the covered entries may be fetched. Host memory written before the doorbell is visible
(R54). A value that breaks R349 leaves that queue unpredictable: the doorbell covers a free number of new entries within the queue
(log 134). -/
def execSqTailDoorbell (ctl sq tail : Nat) (writes : List (Nat × Byte)) (s : State) : Res :=
  let s1 := { s with hostMem := s.hostMem.sets (writes.map fun w => (hostKey (penOfCtl ctl) w.1, w.2)) }
  if !takesDoorbell s ctl then .next s1
  else match sqOf (ctlOf s ctl) sq with
    | none => .next s1
    | some q =>
      let ok := tailOk q tail
      let r := drawTag s1
      let t := if ok then tail else freeTail q r.1
      .next (updCtl (if ok then s1 else r.2) ctl fun c => setSq c sq (coverSq q t (coverage s (penOfCtl ctl) ctl sq)))

/-- CQ_HEAD_DOORBELL (R323, R330): entries consumed; waiting entries are written. A value that breaks R349 leaves a free head (log 134). -/
def execCqHeadDoorbell (ctl cq head : Nat) (s : State) : Res :=
  if !takesDoorbell s ctl then .next s
  else match cqOf (ctlOf s ctl) cq with
    | none => .next s
    | some q =>
      let r := drawTag s
      let ok := decide (head < q.size)
      let h := if ok then head else (Config.freeWord r.1).toNat % max q.size 1
      .next (drainCq (updCtl (if ok then s else r.2) ctl fun c => setCq c cq { q with head := h }) ctl cq q.waiting.length)

/-- Whether a record-queue head keeps R349: below the size, not beyond the entries written. -/
def rqHeadOk (q : Rq) (head : Nat) : Bool :=
  decide (head < q.size ∧ (head + q.size - q.head) % q.size ≤ (q.tail + q.size - q.head) % q.size)

/-- RECORD_QUEUE_HEAD_DOORBELL (R329): records consumed; waiting records are written and their graphs may complete. A
value that breaks R349 leaves a free head (log 134). -/
def execRecordQueueHeadDoorbell (ctl sq head : Nat) (s : State) : Res :=
  if !ctlUp s ctl then .next s
  else match tget? (ctlOf s ctl).sqs sq with
    | none => .next s
    | some x =>
      if !x.skex then .next s
      else
        let r := drawTag s
        let ok := rqHeadOk x.rq head
        let h := if ok then head else (Config.freeWord r.1).toNat % max x.rq.size 1
        let s := updCtl (if ok then s else r.2) ctl fun c =>
          { c with sqs := tupd c.sqs sq fun y => { y with rq := { y.rq with head := h } } }
        .next (sendOwed (drainRq s ctl sq x.rq.waiting.length))

end Sys2Proof.Machine
end

