-- ==== Sys2Proof/Machine/Image.lean ====
section
/-!
DEFINITION. The Dindan image (16): its header, directory and sections (R421, R422), verification (R423, R428), the load checks
(R424), the selection of a slot (R420), and the fields that an image loads.
-/

namespace Sys2Proof.Machine

/-! Domains (R462, R36, R37). -/

/-- HUB, SPN, SEC and HX: the domains on from step 1 of R465. -/
def coreDomains : BitVec 20 := BitVec.ofNat 20 (2 ^ 13 + 2 ^ 16 + 2 ^ 17 + 2 ^ 18)

/-! Header and directory (R421). -/

/-- Bytes of an image slot. -/
def slotBytesMax : Nat := 0x03E00000

/-- n bytes of a configuration flash device. -/
def cfgRead (s : State) (slot off n : Nat) : List Byte := (tget s.cfgFlash slot).read off n

/-- A directory entry. -/
structure SecEntry where
  typ : Nat
  flags : Nat
  off : Nat
  len : Nat
  crc : Nat
deriving DecidableEq, Repr

/-- A header and its directory. -/
structure ImgHead where
  magic : Nat
  version : Nat
  count : Nat
  sequence : Nat
  bytes : Nat
  sigOff : Nat
  nodeId : Nat
  svn : Nat
  resv : List Byte
  dir : List SecEntry
deriving DecidableEq, Repr

def secEntryOf (b : List Byte) : SecEntry :=
  { typ := fieldAt b 0 2, flags := fieldAt b 2 2, off := fieldAt b 4 4, len := fieldAt b 8 4, crc := fieldAt b 12 4 }

def imgHead (s : State) (slot : Nat) : ImgHead :=
  let h := cfgRead s slot 0 64
  let n := fieldAt h 6 2
  { magic := fieldAt h 0 4, version := fieldAt h 4 2, count := n, sequence := fieldAt h 8 8, bytes := fieldAt h 16 4
    sigOff := fieldAt h 20 4, nodeId := fieldAt h 24 2, svn := fieldAt h 26 2, resv := sub h 28 36
    dir := (List.range (min n 64)).map fun i => secEntryOf (cfgRead s slot (64 + 16 * i) 16) }

def findSec (h : ImgHead) (typ : Nat) : Option SecEntry := h.dir.find? fun e => e.typ == typ
/-- A section's content; empty when it is absent. -/
def secBytes (s : State) (slot : Nat) (h : ImgHead) (typ : Nat) : List Byte :=
  match findSec h typ with
  | some e => cfgRead s slot e.off e.len
  | none => []

def knownTypes : List Nat := [0x0001, 0x0002, 0x0003, 0x0010, 0x0011, 0x0012, 0x0013, 0x0014, 0x0015, 0x0016]
def requiredTypes : List Nat := [0x0001, 0x0002, 0x0003, 0x0010, 0x0011, 0x0014, 0x0015, 0x0016]

/-- The length that a section's content has (R422; log 18). -/
def lengthFits (e : SecEntry) : Bool :=
  if e.typ = 0x0010 then e.len % 16 == 0
  else if e.typ = 0x0011 then e.len == 12
  else if e.typ = 0x0012 then e.len % 4 == 0 && decide (512 < e.len)
  else if e.typ = 0x0013 then e.len == 1024
  else if e.typ = 0x0014 then e.len == 160
  else if e.typ = 0x0015 then e.len == 320
  else if e.typ = 0x0016 then e.len == 4
  else true

/-- A section inside the image's body: behind the directory, before the signature block. -/
def entryFits (h : ImgHead) (e : SecEntry) : Bool :=
  e.flags == 0 && decide (e.typ ∈ knownTypes) && e.off % 8 == 0 && decide (64 + 16 * h.count ≤ e.off ∧ e.off + e.len ≤ h.sigOff) &&
    lengthFits e

/-- Every pair of a list, in order. -/
def allPairs {α : Type} (p : α → α → Bool) : List α → Bool
  | [] => true
  | x :: r => r.all (p x) && allPairs p r

/-- Two sections of different types that do not overlap. -/
def apart (a b : SecEntry) : Bool := a.typ != b.typ && decide (a.off + a.len ≤ b.off ∨ b.off + b.len ≤ a.off)

/-- Whether a header and its directory are well formed (R421, R422). -/
def headOk (h : ImgHead) : Bool :=
  h.version == 1 && decide (1 ≤ h.count ∧ h.count ≤ 64 ∧ 128 ≤ h.bytes ∧ h.bytes ≤ slotBytesMax) && h.sigOff == h.bytes - 128 &&
  h.sigOff % 8 == 0 && decide (h.nodeId < 1024) && allZero h.resv && h.dir.all (entryFits h) && allPairs apart h.dir &&
  requiredTypes.all fun t => (findSec h t).isSome

/-! Content (R422). -/

/-- A part profile from its bytes (R284, R422). -/
def profileOf (b : List Byte) : Profile :=
  let f := Config.profileField b
  { cell := f 0, npl := f 1, nl := f 2, nb := f 3, np := f 4, npPslc := f 5, pageBytes := f 6, spare := f 7, suspend := f 8
    eraseLimit := f 9, pslcLimit := f 10, disturbLimit := f 11, tMax := f 12, targets := f 13 }

/-- The image that a slot's bytes spell. -/
def imageOf (s : State) (slot : Nat) (h : ImgHead) : Image :=
  let fwCore := secBytes s slot h 0x0001
  let fwEngine := secBytes s slot h 0x0002
  let dom := secBytes s slot h 0x0011
  let prof := secBytes s slot h 0x0012
  let pen0 := secBytes s slot h 0x0014
  let reg := secBytes s slot h 0x0015
  let set := secBytes s slot h 0x0010
  let mib (n k : Nat) : Nat := fieldAt reg (16 * n + 4 * k) 4
  { sequence := h.sequence, svn := h.svn, nodeId := h.nodeId
    domains := BitVec.ofNat 20 (fieldAt dom 0 4), smb3 := bits (fieldAt dom 0 4) 20 4
    ports := (List.range 8).map fun p => fieldAt dom (4 + p) 1
    profiles := if prof.isEmpty then [] else (List.range 4).map fun g => profileOf (sub prof (prof.length / 4 * g) (prof.length / 4))
    routes := (secBytes s slot h 0x0013).map (·.toNat)
    pen0 := sub pen0 0 32, dampers := (List.range 4).map fun k => sub pen0 (32 + 32 * k) 32
    regions := (List.range 20).map fun n => (mib n 0, mib n 1, mib n 2, mib n 3)
    hubmem := bits (fieldAt (secBytes s slot h 0x0016) 0 4) 0 14
    settings := (List.range (set.length / 16)).map fun i => (fieldAt set (16 * i) 4, fieldAt set (16 * i + 8) 8)
    digFwCore := sha3_512 fwCore, digFwEngine := sha3_512 fwEngine
    digImage := sha3_512 (cfgRead s slot 0 h.sigOff)
    digOwner := sha3_512 (Config.leafCert (secBytes s slot h 0x0003))
    digM := sha3_512 (fwCore ++ fwEngine ++ le 2 h.svn) }

def portType (img : Image) (p : Nat) : Nat := bits (nth img.ports p 0) 0 2
def portEnabled (img : Image) (p : Nat) : Bool := bit (nth img.ports p 0) 7
def domEnabled (img : Image) (d : Nat) : Bool := img.domains.getLsbD d
def anyPort (img : Image) : Bool := (List.range 8).any (portEnabled img)

/-- Whether the sections that depend on others are present (R422). -/
def sectionsMeet (h : ImgHead) (img : Image) : Bool :=
  (!((List.range 4).any fun g => domEnabled img (domF g)) || (findSec h 0x0012).isSome) &&
  (!anyPort img || (findSec h 0x0013).isSome)

/-! Settings (R422): the registers that an image loads, by their offset in BAR2 (R469). -/

def offDrvCfg : Nat := 0x00000110
def offMdlCfg : Nat := 0x00000400
def offTrcCfg : Nat := 0x00050000
def offHstWb : Nat := 0x00060008
def offFluCfg : Nat := 0x00090000
def offFtlCfg : Nat := 0x000B0008
def offDirCtl : Nat := 0x000C0000
def offPool (q : Nat) : Nat := 0x00100060 + 0x10000 * q

/-- The value an image gives a register; the last record counts, and without one the fields keep their reset value 0 (log 18). -/
def setting (img : Image) (off : Nat) : Nat := ((img.settings.reverse.find? fun x => x.1 == off).map (·.2)).getD 0

/-- Check 10 of R424 for one record. -/
def settingOk (img : Image) (x : Nat × Nat) : Bool :=
  let f := bits x.2
  if x.1 = offDrvCfg then decide (8 ≤ f 0 7 ∧ f 0 7 ≤ 64)
  else if x.1 = offMdlCfg then decide (f 0 5 ≤ 16 ∧ f 8 4 ≤ 8)
  else if x.1 = offTrcCfg ∨ x.1 = offHstWb then true
  else if x.1 = offFluCfg then f 0 10 == img.nodeId && decide (1 ≤ f 10 8 ∧ 1 ≤ f 18 12 ∧ 1 ≤ f 35 12)
  else if x.1 = offFtlCfg then
    decide (1 ≤ f 0 4 ∧ f 0 4 ≤ 10 ∧ 1 ≤ f 20 4 ∧ f 20 4 < f 4 8 ∧ f 4 8 < f 12 8 ∧ 1 ≤ f 24 4)
  else if x.1 = offDirCtl then decide (1 ≤ f 8 8)
  else (List.range 4).any fun q => x.1 == offPool q

/-! Load checks (R424). -/

/-- Stacks whose Q and M domains an image enables. -/
def imgStacks (img : Image) : List Nat := (List.range 20).filter fun n => domEnabled img (domQ (n / 5)) && domEnabled img (domM n)
def regionOf (img : Image) (n : Nat) : Nat × Nat × Nat × Nat := nth img.regions n (0, 0, 0, 0)
/-- MiB of a stack's four regions. -/
def regionSum (r : Nat × Nat × Nat × Nat) : Nat := r.1 + r.2.1 + r.2.2.1 + r.2.2.2

/-- Check 2: R37's dependencies of the stacks, the flash groups and the Flue ports. -/
def domainsMeet (img : Image) : Bool :=
  ((List.range 20).all fun n => !domEnabled img (domM n) || domEnabled img (domQ (n / 5))) &&
  ((List.range 4).all fun g => !domEnabled img (domF g) || (List.range 5).any fun m => domEnabled img (4 + m)) &&
  ((List.range 8).all fun p => !portEnabled img p || domEnabled img (domFL p))

/-- Raw flash units of 4 KiB that the enabled profiles declare. -/
def rawUnits (img : Image) : Nat :=
  sumBy (fun g => if domEnabled img (domF g) then
      let p := nth img.profiles g {}
      8 * p.targets * p.nl * p.nb * p.np * p.npl * 4
    else 0) (List.range 4)

/-- Check 6. The free map room of the other stacks, once the whole map stands in the shares, holds one stack's share exactly when
the others' shares alone hold the map (log 18). -/
def regionsFit (img : Image) : Bool :=
  let mapMib (n : Nat) : Nat := (regionOf img n).2.1
  let all := sumBy mapMib (imgStacks img)
  let need := 4 * rawUnits img
  ((List.range 20).all fun n => decide (regionSum (regionOf img n) ≤ 71 * 1024)) && decide (need ≤ all * 2 ^ 20) &&
    (imgStacks img).all fun n => decide (need ≤ (all - mapMib n) * 2 ^ 20)

/-- GiB of home slots that the regions leave (check 9). -/
def imgHomeGib (img : Image) : Nat := sumBy (fun n => 72 * 1024 - regionSum (regionOf img n)) (imgStacks img) / 1024

/-- Check 9. -/
def pen0Ok (img : Image) : Bool :=
  penArgsOk img.pen0 && decide (fieldAt img.pen0 8 2 ≤ imgHomeGib img) && img.dampers.all damperArgsOk &&
    (List.range 4).all fun k => (img.dampers.filter fun b => fieldAt b 2 1 == k).length == 1

/-- The smallest pool of an enabled quad, in slots. -/
def smallestPool (img : Image) : Nat :=
  let l := ((List.range 4).filter fun q => domEnabled img (domQ q)).map fun q => bits (setting img (offPool q)) 0 23
  l.foldl min (l.headD 0)

/-- The load checks in order, with whether each holds (R424). -/
def loadChecks (img : Image) : List Bool :=
  [ domEnabled img 16 && domEnabled img 17 && domEnabled img 18
  , domainsMeet img
  , !(domEnabled img 12 && img.smb3 == 1) &&
      !((portEnabled img 6 && portType img 6 == 0 || portEnabled img 7 && portType img 7 == 0) && img.smb3 == 0)
  , decide (bits (setting img offMdlCfg) 0 5 + bits (setting img offMdlCfg) 8 4 ≤ 19)
  , decide (img.hubmem ≤ 8192 ∧ 20608 + (if anyPort img then 4096 else 0) + img.hubmem ≤ 32768)
  , regionsFit img
  , decide (bits (setting img offHstWb) 0 20 ≤ sumBy (fun n => (regionOf img n).2.2.1) (List.range 20))
  , decide (16 * bits (setting img offFluCfg) 35 12 ≤ smallestPool img)
  , pen0Ok img
  , img.settings.all (settingOk img) ]

/-- The number of the first load check that fails. -/
def failedCheck (img : Image) : Option Nat :=
  (((List.range 10).zip (loadChecks img)).find? fun x => !x.2).map fun x => x.1 + 1

/-! Verification (R423, R428). -/

/-- A firmware section: code, certificate, signature (R422, R428). -/
def firmwareOk (b : List Byte) : Bool :=
  let n := Config.firmwareCode b
  let cert := sub b n (b.length - 114 - n)
  match Config.certLeafKey cert with
  | none => false
  | some key => Config.ed448phVerify key (ascii "VN-J720 FW") (b.take n) (b.drop (b.length - 114))

/-- The signatures, in the order of the reason codes of CFG_SLOTA: 4 the owner's chain, 5 the image, 6 the firmware. -/
def signatureFault (s : State) (slot : Nat) (h : ImgHead) : Nat :=
  match Config.certLeafKey (secBytes s slot h 0x0003) with
  | none => 4
  | some key =>
    if !Config.ed448phVerify key (ascii "VN-J720 DINDAN") (cfgRead s slot 0 h.sigOff) (cfgRead s slot h.sigOff 114) then 5
    else if !(firmwareOk (secBytes s slot h 0x0001) && firmwareOk (secBytes s slot h 0x0002)) then 6
    else 0

/-- What the header and directory of a slot come to: 1 no image, 2 malformed, else 0 (R421, R422). -/
def headFault (s : State) (slot : Nat) : Nat :=
  let h := imgHead s slot
  if h.magic ≠ 0x4E444E44 then 1 else if headOk h && sectionsMeet h (imageOf s slot h) then 0 else 2

/-- A slot's register with a reason: SVN and SEQ_LO read 0 under reasons 1 and 2 (CFG_SLOTA). -/
def slotReg (h : ImgHead) (reason check : Nat) : SlotReg :=
  if reason = 1 ∨ reason = 2 then { reason := reason }
  else { reason := reason, check := check, svn := h.svn, seqLo := h.sequence % 2 ^ 32 }

/-- R421 to R424 on a slot. -/
def judgeSlot (s : State) (slot : Nat) : SlotReg :=
  let h := imgHead s slot
  let f := headFault s slot
  if f ≠ 0 then slotReg h f 0
  else if h.dir.any fun e => (crc32c (cfgRead s slot e.off e.len)).toNat != e.crc then slotReg h 3 0
  else
    let g := signatureFault s slot h
    if g ≠ 0 then slotReg h g 0
    else match failedCheck (imageOf s slot h) with
      | some n => slotReg h 7 n
      | none => slotReg h 0 0

def slotRegOf (s : State) (slot : Nat) : SlotReg := if slot = 0 then s.boot.slotA else s.boot.slotB
def setSlotReg (s : State) (slot : Nat) (r : SlotReg) : State :=
  { s with boot := if slot = 0 then { s.boot with slotA := r } else { s.boot with slotB := r } }

/-- The candidates of R420 in the order in which they are tried. -/
def slotOrder (s : State) : List Nat :=
  let ok := [0, 1].filter fun n => headFault s n == 0
  if (imgHead s 0).sequence < (imgHead s 1).sequence then ok.reverse else ok

/-- The slot that R420 loads. -/
def selectSlot (s : State) : Option Nat := (slotOrder s).find? fun n => (judgeSlot s n).reason == 0

/-- The slot registers that R420 latches: a candidate after the loaded one is not examined. -/
def latchSlots (s : State) : State :=
  let tried (n : Nat) : Bool := match selectSlot s with
    | some m => n == m || (slotOrder s).head? == some n
    | none => true
  [0, 1].foldl (fun t n =>
    setSlotReg t n (if headFault s n != 0 || tried n then judgeSlot s n else slotReg (imgHead s n) 8 0)) s

/-- The first slot, in the order of R420, that verified before it failed a load check (R427). -/
def verifiedSlot (s : State) : Option Nat := (slotOrder s).find? fun n => (judgeSlot s n).reason == 7

/-! What a loaded image sets (R416 phase POWER). -/

/-- The part of the state that an image loads, put on a state. -/
def loadImage (s : State) : State :=
  let img := s.boot.image
  let v := fun off lo w => bits (setting img off) lo w
  let quads := (List.range 4).foldl (fun t q => tmod t q fun x => { x with poolSize := v (offPool q) 0 23 }) s.quads
  { s with
    quads := quads
    drover := { s.drover with
      dmaCh := v offDrvCfg 0 7, bgShare := v offDrvCfg 8 8
      mdlPart := v offMdlCfg 0 5, mdlCache := v offMdlCfg 8 4, migThresh := v offMdlCfg 16 16 }
    port := { s.port with wbSize := v offHstWb 0 20 }
    coh := { s.coh with en := bit (setting img offDirCtl) 0, bisnpTmo := v offDirCtl 8 8 }
    ftl := { s.ftl with
      profiles := img.profiles, kindlePct := v offFtlCfg 0 4, gcLow := v offFtlCfg 4 8, gcHigh := v offFtlCfg 12 8
      gcUrgent := v offFtlCfg 20 4, ckpt := v offFtlCfg 24 4, formatBlank := bit (setting img offFtlCfg) 28 }
    flue := { s.flue with
      nodeId := img.nodeId, peerTmo := v offFluCfg 10 8, rto := v offFluCfg 18 12, qual := v offFluCfg 30 5
      mirrorMb := v offFluCfg 35 12, routes := (List.range img.routes.length).zip img.routes }
    trace := { s.trace with
      rec_ := bit (setting img offTrcCfg) 0, full := bit (setting img offTrcCfg) 1, out_ := bit (setting img offTrcCfg) 2
      headMax := 1024 * img.hubmem } }

end Sys2Proof.Machine
end

