-- ==== Sys2Proof/Machine/Resets.lean ====
section
/-!
DEFINITION. Resets (R367 to R370, R360): the end of a pen reset and of a pen, what a channel and the node keep without power (R466),
the quiesce of WARM_RESET and COLD_RESET, and the start that follows.
-/

namespace Sys2Proof.Machine

/-- The state of a result that acts; the given state where the command stops. -/
def resOr (r : Res) (s : State) : State := match r with
  | .next t => t
  | .fault _ => s
  | .refused _ => s

/-! The end of a pen reset (R368). -/

/-- A FLUE_SEND not yet sent leaves its context's queue (R404). -/
def unqueueSend (s : State) (t : TaskId) (k : Task) : State := match k.run with
  | .send c _ => updCtx s c fun x => { x with
      waiting := x.waiting.filter fun m => !(m.type == 0x10 && m.corrid == t.graph * 65536 + t.idx) }
  | _ => s

/-- The new object of a create or rebuild that a reset stops is lost (R368). -/
def loseNew (s : State) (g : Graph) (k : Task) : State :=
  if k.typ = 0x12 ∧ (k.sub = 2 ∨ k.sub = 3) then updObj s g.pen (newNumber (opd k 0)) fun o => { o with lost := true } else s

/-- An issued task stopped at its stop point (R368): its outputs are unpredictable and it ends with RESET_ABORTED; a finished
FLUE_SEND ends with its own status (R404). Units of a write not yet accepted are dropped; the rows of a SCATTER are as after UNIT_LOST
(R218). -/
def stopTask (s : State) (t : TaskId) : State :=
  match graphOf s t.graph, taskOf s t with
  | some g, some k =>
    if k.typ = 0x20 ∧ k.st = .finished then completeTask s t 0
    else
      let s := (outputs s g k).foldl (fun s o => smudgeOp s g.pen (some g) o.1 0 o.2) s
      let r := drawTag s
      let s := if k.typ = 0x19 ∧ k.sub ≤ 1 ∧ k.st = .issued then (if Config.freeBool r.1 then spoilRows r.2 g k else r.2) else s
      let s := unqueueSend (loseNew s g k) t k
      let mine (o : Owner) : Bool := match o with
        | .task u _ _ => u == t
        | _ => false
      let s := { s with port := { s.port with wbWait := s.port.wbWait.filter fun w => !mine w.owner } }
      abortTask s t
  | _, _ => s

/-- Issued tasks of a pen whose FLUE_SEND message has left and is not yet answered. -/
def sentTasks (s : State) (p : Nat) : List TaskId :=
  (issuedTasks s p).filter fun t => match taskOf s t with
    | some k => k.typ == 0x20 && k.st == .issued && flueSent s t k
    | none => false

/-- Scratch objects of a pen's graphs and its MAP pins released (R368 step 5). -/
def releasePen (s : State) (p : Nat) : State :=
  let s := (graphsOfPen s p).foldl (fun s g => (tkeys g.scratch).foldl (fun s n => freeScratch s g.acc n) s) s
  updPen s p fun x => { x with objects := tmap x.objects fun _ o => if o.lent.isNone then { o with mapped := false } else o }

/-- Settings accepted during the reset take effect, in order (R359). -/
def applyDeferred (x : Pen) : Pen :=
  { x.deferred.foldl (fun p d => match d with
      | .quota a => applyQuota p a
      | .damper a => applyDamper p a) x with deferred := [], resetting := false, resetWait := [] }

/-- Every vector of a pen that has counted entries sends its message (R370). -/
def flushVecs (s : State) (p : Nat) : State :=
  ((s.vecs.filter fun v => v.2.assigned && v.2.owner == p && decide (0 < v.2.pend)).map (·.1)).foldl vecSend s

/-- A controller of a destroyed pen (R360): its queues are gone, RDY clear, and it answers nothing until EN is cleared and set. -/
def orphanCtl (s : State) (ctl : Nat) : State :=
  let en := (ctlOf s ctl).en
  let s := resetCtl s ctl
  if en then updCtl s ctl fun x => { x with en := true, dead := true } else s

/-- A pen destroyed (R360): contexts closed, flash-resident indexes closed and kept, objects, migrations, copies, queues, quotas and
vectors gone; its generation stays. -/
def destroyPen (s : State) (p : Nat) : State :=
  let ctxs := (s.flue.ctxs.filter fun c => c.2.st != 0 && c.2.pen == p).map (·.1)
  let s := ctxs.foldl closeCtx s
  let lone := (penOf s p).orphans
  let spaces := ((penOf s p).objects.map (·.2) ++ lone).filterMap fun o => match o.kind with
    | .index x => if x.desc.flash then some x.space else none
    | _ => none
  let s := spaces.foldl (fun s n => updStore s n fun t => { t with open_ := false }) s
  let s := (s.migs.filter fun m => m.pen == p).foldl (fun s m => dropMig s m stResetAborted) s
  let s := { s with
    quads := tmap s.quads fun _ q => { q with resident := q.resident.filter fun r => r.1 != p } }
  let s := (s.drover.copies.filter fun c => c.pen == p && evictable c).foldl dropCopy s
  let s := (tkeys (penOf s p).objects).foldl (fun s n => destroyObj s p n) s
  let s := lone.foldl (fun s o => freeHomes' s o.homes) s
  let s := [p, 256 + p].foldl orphanCtl s
  let s := takeVecs s p
  updPen s p fun x => { gen := x.gen }

/-- PEN_RESET_END (R368): every issued task of the pen has reached its stop point; what the reset releases is released, fetching
resumes, and the commands that waited complete. -/
def execPenResetEnd (pen : Nat) (s : State) : Res :=
  let x := penOf s pen
  if !x.alive || !x.resetting || !(sentTasks s pen).isEmpty then .next s
  else
    let s := (issuedTasks s pen).foldl stopTask s
    let s := releasePen s pen
    let s := updPen s pen applyDeferred
    let s := flushVecs s pen
    let s := if x.resetWait.any (·.2) then destroyPen s pen else s
    .next (sendAnswers (wake (x.resetWait.foldl (fun s w => complete s w.1 stSuccess) s)))

/-! What the node keeps (R466, R367). -/

/-- Sectors on the medium when power goes: of a Kindling page whose program is cut short, each decodes at the rebuild or does
not (R316: a free choice, log 1). -/
def cutSectors (p : Profile) (tag c : Nat) (ch : Chan) : Tab Sector :=
  (ch.ops.filter fun o => o.kind == 1 && (blkOf ch o.blk).pslc).foldl (fun t o =>
    ((List.range o.sectors.length).zip o.sectors).foldl (fun t x =>
      let slot := slotNo p o.blk o.page x.1
      if holdsUnit x.2.1 ∧ !thas t slot ∧ (Config.freeByte tag (c * 2 ^ 40 + slot)).getLsbD 0 then tput t slot x.2.1 else t) t)
    ch.media.sectors

/-- A channel with its domain off: the media. A block whose erase was cut short is erased again (R316). -/
def bareChan (p : Profile) (tag c : Nat) (ch : Chan) : Chan :=
  { media := { ch.media with sectors := cutSectors p tag c ch, blocks := tmap ch.media.blocks fun _ b => if b.st = .erasing then { b with st := .toErase } else b } }

/-- Stored indexes at the epoch of their last durable COMMIT record, closed (R316, R149). -/
def durableStores (s : State) : List Store :=
  let recs : List (Nat × Nat × Snap × Nat) := s.pens.flatMap fun p => p.2.objects.flatMap fun o => match o.2.kind with
    | .index x => if x.desc.flash then
        ((x.commits.filter fun c => c.sealed && c.recorded && !commitPending s x.space c.epoch).map fun c => (x.space, c.epoch, c.snap, c.pos)) ++
        ((x.landing.filter fun l => l.stage == 2 && !commitPending s x.space l.epoch).map fun l => (x.space, l.epoch, l.snap, l.pos))
      else []
    | _ => []
  s.ftl.stores.map fun t =>
    let t := recs.foldl (fun (t : Store) r =>
      if r.1 = t.space ∧ t.epoch < r.2.1 then { t with epoch := r.2.1, snap := r.2.2.1, logPos := r.2.2.2 } else t) t
    { t with open_ := false }

/-- The node with every domain off (R466): the media and the configuration flash, beside the model's own fields and host memory. -/
def offState (s : State) : State :=
  { pending := s.pending, out := s.out, nfree := s.nfree + 1, cfgFlash := s.cfgFlash, hostMem := s.hostMem
    power := { vin := s.power.vin, resetN := s.power.resetN, progEn := s.power.progEn, boards := s.power.boards, faultN := s.power.faultN }
    ftl := { chans := tmap s.ftl.chans fun c ch => bareChan (profOf s c) s.nfree c ch, stores := durableStores s, nsChannels := s.ftl.nsChannels
             nsBlocks := s.ftl.nsBlocks } }

/-- A start at step 1 of R465: SPN, HUB, SEC and HX on, phase ROM to come, FAULT_N released (R459). -/
def startNode (s : State) (reason : Nat) : State :=
  let t := offState s
  { t with
    power := { t.power with on := coreDomains, faultN := false }
    boot := { t.boot with phase := 1, reason := reason } }

/-- A start that fails (R425): only HUB, SPN, SEC and HX stay on; pen 0 controllers with CC.EN 1 set CFS; no
secret outlives the ROM (R427). -/
def failStart (s : State) : State :=
  { s with
    power := { s.power with on := s.power.on &&& coreDomains }
    boot := { s.boot with phase := 15, ready := false, secret := none }
    port := { s.port with ctls := tmap s.port.ctls fun c x => if c % 256 = 0 ∧ x.en then { x with cfs := true, rdy := false } else x } }

/-! Units that training leaves usable (R417, R37). -/

def groupTrain (s : State) (g : Nat) : GroupTrain := nth s.boot.trainGroups g { present := false, matched := false, channels := [] }
/-- Whether a group's profile passes training (R284, R285). -/
def groupOk (s : State) (g : Nat) : Bool :=
  let t := groupTrain s g
  let p := nth s.ftl.profiles g {}
  t.present && t.matched && s.power.on.getLsbD (domF g) && decide (16 * p.nl * p.nb * p.np * p.npl * 4 ≤ 2 ^ 31)
/-- The targets of a channel that training found; none when the channel did not train. -/
def trainTargets (s : State) (c : Nat) : List Nat :=
  let e := nth (groupTrain s (c / 8)).channels (c % 8) (false, [])
  if groupOk s (c / 8) && e.1 then e.2 else []

/-- Whether a quad, a stack and a tile are usable, given the units that failed their tests. -/
def quadGood (s : State) (failed : List HwUnit) (q : Nat) : Bool :=
  s.power.on.getLsbD (domQ q) && s.power.on.getLsbD domSPN && s.power.on.getLsbD domHUB && !decide (HwUnit.quad q ∈ failed) &&
    !(hubModules q).all fun m => m ∈ s.topo.d2dDown
def stackGood (s : State) (failed : List HwUnit) (n : Nat) : Bool :=
  quadGood s failed (n / 5) && s.power.on.getLsbD (domM n) && !decide (n ∈ s.boot.trainStacks) && !decide (HwUnit.stack n ∈ failed)
def tileGood (s : State) (failed : List HwUnit) (t : Nat) : Bool := quadGood s failed (t / 16) && !decide (HwUnit.tile t ∈ failed)

/-- The bits of the numbers below w that satisfy p. -/
def maskOf (w : Nat) (p : Nat → Bool) : BitVec w := BitVec.ofNat w (ofBools ((List.range w).map p))

/-- The usable quads, stacks and tiles, and the targets of every channel, after training and some failed tests. -/
def setUsable (s : State) (failed : List HwUnit) : State :=
  let s := { s with topo := { s.topo with
    quadOk := maskOf 4 (quadGood s failed), stackOk := maskOf 20 (stackGood s failed), tileOk := maskOf 64 (tileGood s failed) } }
  (List.range 32).foldl (fun s c =>
    let ts := if HwUnit.engine c ∈ failed then [] else (trainTargets s c).filter fun t => !decide (HwUnit.target c t ∈ failed)
    updChan { s with ftl := { s.ftl with chans := if thas s.ftl.chans c then s.ftl.chans else tput s.ftl.chans c {} } } c fun ch =>
      { ch with
        targets := ts, usable := ch.usable && !ts.isEmpty, rebuilt := ch.rebuilt && !ts.isEmpty
        rebuilding := ch.rebuilding && !ts.isEmpty }) s

/-! Draining (R369, R442). -/

/-- One step of a channel's drain: a program ends, a buffered unit is taken, a partial page or journal page is programmed. -/
def drainStep (s : State) (c : Nat) : State :=
  let ch := chanOf s c
  match ch.ops.find? fun o => o.kind == 1 with
  | some o => resOr (endProgram c o.num true s) s
  | none =>
    if (oldestBuffered s c).isSome && ch.usable && !ch.media.readOnly then resOr (execWriteBufferDrain c s) s
    else if !ch.page.isEmpty then kickChan (resOr (execKindlingPad c s) s) c
    else if !ch.jstage.isEmpty then resOr (execJournalPageTimeout c s) s
    else s

/-- The buffer and the journals written out, by fuel over the channels. -/
def drainGo (s : State) : Nat → State
  | 0 => s
  | k + 1 => drainGo ((List.range 32).foldl drainStep s) k

/-- Steps that a drain of everything staged can take. -/
def drainFuel (s : State) : Nat :=
  64 + 16 * (s.port.wb.length + sumBy (fun w => w.units.length) s.port.wbWait +
    sumBy (fun c => c.2.page.length + c.2.ops.length + c.2.jstage.length) s.ftl.chans)

/-- The write buffer drained to the medium, the journal durable (R369 step 3): every program passes. -/
def drainMedia (s : State) : State := drainGo s (drainFuel s)

/-- Index objects with a commit under way: pen and object number. -/
def commitObjs (s : State) : List (Nat × Nat) := s.pens.flatMap fun p => p.2.objects.filterMap fun o => match o.2.kind with
  | .index x => if x.commits.isEmpty && x.landing.isEmpty then none else some (p.1, o.1)
  | _ => none

/-- A commit hurried to its end: no update task and no mirror is waited for (R369; log 21). -/
def hurryCommit (s : State) (p n : Nat) : State :=
  let f (o : Obj) : Obj := match o.kind with
    | .index x => { o with kind := .index { x with
        begun := [], mirrorLost := x.mirrorLost || x.mirrored, commits := x.commits.map fun c => { c with mackPending := false } } }
    | _ => o
  let s := updObj s p n f
  let s := resOr (execSeal p n s) s
  drainMedia (resOr (execCommitComplete p n (drainMedia (updObj s p n f))) s)

/-- Every commit under way completed, by fuel. -/
def finishCommits (s : State) : Nat → State
  | 0 => s
  | k + 1 => match commitObjs s with
    | [] => s
    | l => finishCommits (l.foldl (fun s x => hurryCommit s x.1 x.2) s) k

/-- COLD_RESET's quiesce (R369): fetching stopped, the buffer drained, index commits completed. -/
def quiesceCold (s : State) : State :=
  let s := { s with port := { s.port with stopped := true }, drover := { s.drover with stopped := true } }
  let n := sumBy (fun x => match indexOf s x.1 (.obj x.2 0) with
    | some (_, i) => i.commits.length + i.landing.length
    | none => 0) (commitObjs s)
  drainMedia (finishCommits (drainMedia s) (3 * n + 3))

/-! WARM_RESET and COLD_RESET (R369). In replay they are not performed (R454). -/

/-- WARM_RESET (R369): nothing is fetched or issued any more, and every task ends; what has left for a peer goes on. -/
def execWarmReset (c : Cmd) (b : KBlock) (s : State) : Res :=
  withKeyedArgs s c b 0x0006 onlyPen0 (allZero (sub b.args 2 30)) fun s _ =>
    if s.trace.replay then completeFree s c
    else
      let s := { s with port := { s.port with stopped := true, warm := some c }, drover := { s.drover with stopped := true } }
      let open_ := ((allTasks s).filter fun x => x.2.2.st != .complete).map (·.1)
      let keep := (alivePens s).flatMap fun p => sentTasks s p.1
      sendAnswers ((open_.filter fun t => !decide (t ∈ keep)).foldl (fun s t => match taskOf s t with
        | some k => if k.st == .issued || k.st == .finished then stopTask s t else abortTask s t
        | none => s) s)

/-- Whether nothing that a warm reset waits for is left (R369): tasks, writes, commits, controls, hand-overs. -/
def quiesced (s : State) : Bool :=
  ((allTasks s).all fun x => x.2.2.st == .complete) && s.port.wb.isEmpty && s.port.wbWait.isEmpty && s.port.ioWait.isEmpty &&
  s.port.flushes.isEmpty && (commitObjs s).isEmpty &&
  (s.port.ctls.all fun c => c.2.sqs.all fun q => q.2.owWait.isEmpty && q.2.owCur.isNone) &&
  (s.ftl.chans.all fun c => c.2.page.isEmpty && c.2.jstage.isEmpty && c.2.jpages.isEmpty &&
    c.2.ops.all fun o => o.kind != 1 || c.2.moves.any fun m => m.dst == o.blk) &&
  s.pens.all fun p => p.2.objects.all fun o => match o.2.lent with
    | some l => l.handover.isNone && l.queued.isEmpty
    | none => true

/-- The node as a warm reset leaves it at phase CLEAR (R367, R416): the image, the domains, the training, the host link, the MSI-X
masks, the margins and the medium stay. The host agent is dead, K0 and every session are gone. -/
def warmState (s : State) : State :=
  let t := offState s
  let b := s.boot
  let t := { t with
    power := { s.power with peak := s.power.watts, dsel := 0 }
    boot := { b with
      phase := 5, ready := false, reason := 3, session := false, sessionSecret := [], k0 := none, tested := false
      secret := none }
    topo := { d2dDown := s.topo.d2dDown, d2dSpares := s.topo.d2dSpares, hostSplit := s.topo.hostSplit }
    quads := tmap s.quads fun _ q => { tileMhz := q.tileMhz, nocMhz := q.nocMhz }
    stks := tmap s.stks fun _ x => { phyRate := x.phyRate, eye := x.eye, trainedTemp := x.trainedTemp, hot := x.hot }
    vecs := tmap s.vecs fun _ v => { masked := v.masked }
    port := { upA := s.port.upA, widthA := s.port.widthA, rateA := s.port.rateA, upB := s.port.upB, widthB := s.port.widthB
              rateB := s.port.rateB }
    coh := { deadHost := true }
    health := { gb := s.health.gb, bin := s.health.bin, gen := s.health.gen } }
  setUsable (loadImage t) []

/-- WARM_RESET_BEGIN (R369): with the quiesce over, open contexts are closed, the WARM_RESET completes, and the reset begins. -/
def execWarmResetBegin (s : State) : Res :=
  match s.port.warm with
  | none => .next s
  | some c =>
    if !quiesced s then .next s
    else
      let opens := (s.flue.ctxs.filter fun x => x.2.st == 2).map (·.1)
      .next (warmState (complete (opens.foldl closeCtx s) c stSuccess))

/-- COLD_RESET (R369): after its quiesce and its completion the module starts anew, reason 2. -/
def execColdReset (c : Cmd) (b : KBlock) (s : State) : Res :=
  withKeyedArgs s c b 0x0007 onlyPen0 (allZero (sub b.args 2 30)) fun s _ =>
    if s.trace.replay then completeFree s c else startNode (complete (quiesceCold s) c stSuccess) 2

end Sys2Proof.Machine
end

