-- ==== Sys2Proof/Machine/Boot.lean ====
section
/-!
DEFINITION. The phases of a start (R416 to R418, R425 to R427, R465): ROM, IMAGE, POWER, TRAIN, CLEAR, TEST, READY. A phase acts while
it is the phase in progress and the domains of step 1 of R465 are on.
-/

namespace Sys2Proof.Machine

/-- Whether the node is in a phase of its start. -/
def inPhase (s : State) (n : Nat) : Bool := s.boot.phase == n && (s.power.on &&& coreDomains) == coreDomains

/-! Units excluded (R417, R448). -/

/-- The units that go with a unit (R417, R440): a quad takes its tiles and its stacks. -/
def withUnit (u : HwUnit) : List HwUnit := match u with
  | .quad q => .quad q :: ((List.range 16).map fun i => .tile (16 * q + i)) ++ (List.range 5).map fun i => .stack (5 * q + i)
  | _ => [u]

/-- The order of records within one hub control cycle: KIND, then UNIT (R448). -/
def unitLt (a b : HwUnit) : Bool := lexLt [(hwUnitCode a).1, (hwUnitCode a).2] [(hwUnitCode b).1, (hwUnitCode b).2]

/-- Whether a unit is usable now: the units that an exclusion or a UNIT fault can take. -/
def unitUp (s : State) (u : HwUnit) : Bool := match u with
  | .tile t => decide (t < 64) && tileUsable s t
  | .array t a => decide (t < 64) && tileUsable s t && decide (a < 4) && (arrOf s t a).inService
  | .quad q => decide (q < 4) && quadUsable s q
  | .stack n => decide (n < 20) && stackUsable s n
  | .nearBank n u => decide (n < 20 ∧ u < 128) && stackUsable s n && !decide (u ∈ (stackOf s n).nbuBad)
  | .engine c => decide (c < 32) && !(chanOf s c).targets.isEmpty
  | .target c t => decide (c < 32) && decide (t ∈ (chanOf s c).targets)
  | .dma n => decide (n < 64) && (dmaOf s n).inService
  | .fluePort p => decide (p < 8) && s.topo.flue.getLsbD p && !(tget s.flue.ports p).dead
  | .d2d m => decide (m < 24) && !decide (m ∈ s.topo.d2dDown)
  | .domain d => decide (d < 20) && s.power.on.getLsbD d

/-- A UNIT record for each of some units, in the order of R448; a unit is out of service (R449). -/
def postLosses (s : State) (what : Nat) (l : List HwUnit) : State :=
  let l := sortBy unitLt (l.foldl addNew ([] : List HwUnit))
  l.foldl (fun s u => postEvent s 3 u what 0 0) (if l.isEmpty then s else markOut s)

/-! ROM (R416, R426, R427). -/

/-- The identity area of a configuration flash device (R420). -/
def identityArea (s : State) (slot : Nat) : List Byte := cfgRead s slot slotBytesMax 0x00200000

/-- The device secret that an identity area gives against the PUF's readings (R427). -/
def secretFrom (s : State) (puf : List Byte) (slot : Nat) : Option (List Byte) := Config.pufReconstruct (puf ++ identityArea s slot)

/-- PHASE_ROM (R416, R426): the device secret reconstructed from area A, else from area B, else none. -/
def execPhaseRom (selfTest : Bool) (puf : List Byte) (s : State) : Res :=
  if !inPhase s 1 then .next s
  else if !selfTest then .next (failStart s)
  else
    let b := match secretFrom s puf 0, secretFrom s puf 1 with
      | some x, _ => { s.boot with secret := some x, ident := true, idsrc := 0 }
      | none, some x => { s.boot with secret := some x, ident := true, idsrc := 1 }
      | none, none => { s.boot with secret := none, ident := false, idsrc := 0 }
    .next { s with boot := { b with phase := 2 } }

/-! IMAGE (R420, R427). -/

/-- The alias key and its certificate for an image's M (R427); the device secret is cleared. -/
def makeAlias (b : Boot) (img : Image) : Boot := match b.secret with
  | none => b
  | some x =>
    let key := shake256 (ascii "VN-J720 ALIAS" ++ x ++ img.digM) 57
    let dik := shake256 (ascii "VN-J720 DIK" ++ x) 57
    { b with
      hasAlias := true, aliasKey := key, aliasCert := Config.aliasCert (Config.ed448Public key ++ img.digM) dik, secret := none }

def imageIn (s : State) (slot : Nat) : Image := imageOf s slot (imgHead s slot)

/-- PHASE_IMAGE (R420, R425, R427): the first slot that passes is loaded; with none the start fails, and the alias key is that of
the first slot that verified before it failed a load check. -/
def execPhaseImage (s : State) : Res :=
  if !inPhase s 2 then .next s
  else
    let s := latchSlots s
    match selectSlot s with
    | some n =>
      let img := imageIn s n
      .next { s with boot := { makeAlias s.boot img with
        image := img, loaded := true, slot := n, seqRunning := img.sequence, secret := none, phase := 3 } }
    | none =>
      let b := match verifiedSlot s with
        | some n => { makeAlias s.boot (imageIn s n) with verified := some (n, imageIn s n) }
        | none => s.boot
      .next (failStart { s with boot := { b with secret := none } })

/-! POWER (R464, R465). -/

/-- The units that depend on a domain and that the image enables (R36, R37, R439). -/
def domainUnits (img : Image) (d : Nat) : List HwUnit :=
  if d < 4 then (withUnit (.quad d)).filter fun u => match u with
    | .stack n => domEnabled img (domM n)
    | _ => true
  else if d < 9 then ((List.range 4).map fun i => 4 * (d - 4) + i).filterMap fun n =>
    if domEnabled img (domQ (n / 5)) then some (.stack n) else none
  else if d < 13 then (List.range 8).map fun i => .engine (8 * (d - 9) + i)
  else if d = 14 ∨ d = 15 then ((List.range 4).map fun i => 4 * (d - 14) + i).filterMap fun p =>
    if portEnabled img p then some (.fluePort p) else none
  else []

/-- PHASE_POWER (R465): the enabled domains switch on and the image's fields are loaded. A domain that misses power-good has had a
rail fault and stays off (R463). -/
def execPhasePower (late : List Nat) (s : State) : Res :=
  if !inPhase s 3 then .next s
  else
    let img := s.boot.image
    let bad := late.filter fun d => decide (d < 20) && domEnabled img d && !coreDomains.getLsbD d
    let off := maskOf 20 fun d => decide (d ∈ bad)
    let s := loadImage s
    let s := { s with
      power := { s.power with on := coreDomains ||| (img.domains &&& ~~~ off), fault := s.power.fault ||| off }
      trace := { s.trace with broken := s.trace.broken || decide (19 ∈ bad) }
      boot := { s.boot with phase := 4 } }
    .next (postLosses s 1 (bad.flatMap (domainUnits img)))

/-! TRAIN (R416, R417, R31). -/

/-- The units that training can exclude and that no test has found wanting: those whose domains are on (R417). -/
def trainable (s : State) : List HwUnit :=
  let quads := (List.range 4).filter fun q => s.power.on.getLsbD (domQ q)
  (quads.flatMap fun q => (withUnit (.quad q)).filter fun u => match u with
    | .stack n => s.power.on.getLsbD (domM n)
    | _ => true) ++
  (List.range 32).filterMap fun c =>
    if s.power.on.getLsbD (domF (c / 8)) && (groupTrain s (c / 8)).present then some (.engine c) else none

/-- Targets that a trained channel's profile expects and that did not answer (R306, R417). -/
def missingTargets (s : State) (c : Nat) : List Nat :=
  if (trainTargets s c).isEmpty then []
  else (List.range (profOf s c).targets).filter fun t => !decide (t ∈ trainTargets s c)

/-- PHASE_TRAIN (R416, R417): the modules, stacks and channels that fail are excluded, with a record for each unit. -/
def execPhaseTrain (modulesFailed stacksFailed : List Nat) (groups : List GroupTrain) (s : State) : Res :=
  if !inPhase s 4 then .next s
  else
    let down := modulesFailed.filter fun m => decide (m < 24)
    let pairs := (down.map pairOf).foldl addNew []
    let s := { s with
      power := { s.power with boards := maskOf 4 fun g => (nth groups g { present := false, matched := false, channels := [] }).present }
      boot := { s.boot with trainModules := down, trainStacks := stacksFailed, trainGroups := groups, phase := 5 }
      topo := { s.topo with d2dDown := down, d2dList := pairs.map (fun p => (p, pairUp down p)) |> sortBy fun a b => decide (a.1 < b.1) } }
    let s := setUsable s []
    let lost := (trainable s).filter fun u => !unitUp s u
    let targets := (List.range 32).flatMap fun c => (missingTargets s c).map fun t => HwUnit.target c t
    .next (postLosses s 2 (lost ++ down.map HwUnit.d2d ++ targets))

/-! CLEAR (R416). -/

/-- PHASE_CLEAR (R416): every line of every usable stack is written with good check bits; those that cannot be are poisoned, with
a record each (R239). -/
def execPhaseClear (badLines : List Nat) (s : State) : Res :=
  if !inPhase s 5 then .next s
  else
    let bad := (badLines.filter fun l => l % line == 0 && stackUsable s (dpaStack l)).foldl addNew []
    let s := { s with mem := {}, poison := [], boot := { s.boot with phase := 6 } }
    .next (bad.foldl (fun s l => postEvent (poisonLine s l) 1 (.stack (dpaStack l)) 1 (dpaOff l / line) 0) s)

/-! TEST (R417). -/

/-- The columns that a test found bad in an array. -/
def badColumns (columns : List (Nat × Nat × W32)) (t a : Nat) : W32 :=
  (columns.filter fun x => x.1 == t && x.2.1 == a).foldl (fun m x => m ||| x.2.2) 0

/-- An array after its start-up test (R176, R177, R180). -/
def testedArr (failed : List HwUnit) (columns : List (Nat × Nat × W32)) (t a : Nat) : Arr :=
  let bad := badColumns columns t a
  let x : Arr := { bad := bad }
  { x with inService := !decide (HwUnit.array t a ∈ failed) && decide (24 ≤ goodCols x 0 32) }

/-- A tile after its start-up tests. -/
def testedTile (failed : List HwUnit) (columns : List (Nat × Nat × W32)) (t : Nat) : Tile :=
  { arrs := (List.range 4).map (testedArr failed columns t)
    testFail := ((List.range 4).filter fun a => badColumns columns t a != 0).length }

/-- Near-bank units of a stack that failed their self-test. -/
def failedNbus (failed : List HwUnit) (n : Nat) : List Nat := (List.range 128).filter fun u => decide (HwUnit.nearBank n u ∈ failed)

/-- Map segments in the shares of stacks that are not usable placed in others (R292). -/
def moveSegs (s : State) : State :=
  let gone := (s.ftl.segs.filter fun x => !stackUsable s x.1).flatMap (·.2)
  gone.foldl placeSeg { s with ftl := { s.ftl with segs := tfilter s.ftl.segs fun n _ => stackUsable s n } }

/-- Targets that failed on channels already rebuilt (R306). -/
def loseTargets (s : State) (failed : List HwUnit) : State :=
  failed.foldl (fun s u => match u with
    | .target c t => if (chanOf s c).rebuilt then updChan s c fun ch => loseTarget (profOf s c) ch t else s
    | _ => s) s

/-- The units as the self-tests leave them (R417). -/
def applyTests (s : State) (failed : List HwUnit) (columns : List (Nat × Nat × W32)) : State :=
  let s := setUsable (loseTargets s failed) failed
  let group (g : Nat) : Bool := groupOk s g && (List.range 8).any fun i =>
    !(trainTargets s (8 * g + i)).isEmpty && !decide (HwUnit.engine (8 * g + i) ∈ failed)
  let s := { s with
    tiles := ((List.range 64).filter (tileUsable s)).map fun t => (t, testedTile failed columns t)
    dma := (List.range 64).map fun n => (n, { inService := !decide (HwUnit.dma n ∈ failed) })
    topo := { s.topo with chgrp := maskOf 4 group } }
  moveSegs (((List.range 20).filter (stackUsable s)).foldl (fun s n =>
    updStack s n fun x => { x with nbuBad := failedNbus failed n }) s)

/-- The units that the tests take, with those excluded beside them: among those usable before (R417). -/
def testLosses (s t : State) (failed : List HwUnit) : List HwUnit :=
  let all := (failed.flatMap withUnit) ++ (List.range 4).flatMap fun q => withUnit (.quad q)
  let direct (u : HwUnit) : Bool := match u with
    | .nearBank n x => decide (HwUnit.nearBank n x ∈ failed) && stackUsable t n
    | .array _ _ => false
    | .dma _ => true
    | .target c x => decide (x ∈ (chanOf s c).targets) && !(chanOf t c).targets.isEmpty
    | u => unitUp s u && !unitUp t u
  all.filter direct

/-- Array tests that failed, and arrays out of service, in usable tiles: the unit, the model's event number, the mask. -/
def arrayLosses (t : State) (failed : List HwUnit) (columns : List (Nat × Nat × W32)) : List (HwUnit × Nat × Nat) :=
  ((List.range 64).filter (tileUsable t)).flatMap fun n => (List.range 4).flatMap fun a =>
    let bad := badColumns columns n a
    (if bad = 0 then [] else [(HwUnit.array n a, 3, bad.toNat)]) ++
      (if (testedArr failed columns n a).inService then [] else [(HwUnit.array n a, 1, 0)])

/-- One record of a failed array test; DATA1 of a test is a free value (R448: the cycles since its last passing test). -/
def postArrayTest (s : State) (x : HwUnit × Nat × Nat) : State :=
  if x.2.1 = 3 then
    let r := drawTag s
    postEvent r.2 3 x.1 3 x.2.2 (Config.freeWord r.1).toNat
  else postEvent s 3 x.1 x.2.1 x.2.2 0

/-- The records of TEST in the order of R448: tiles, then arrays, then the other kinds. -/
def postTests (s : State) (units : List HwUnit) (arrays : List (HwUnit × Nat × Nat)) : State :=
  let first := units.filter fun u => (hwUnitCode u).1 == 1
  let last := units.filter fun u => (hwUnitCode u).1 != 1
  let s := if arrays.any fun x => x.2.1 == 1 then markOut s else s
  postLosses (arrays.foldl postArrayTest (postLosses s 2 first)) 2 last

/-- Units that training keeps excluded: after a warm reset the node is degraded by them too (R416, R449). -/
def trainOut (s : State) : Bool := (trainable s).any (fun u => !unitUp s u) || !s.boot.trainModules.isEmpty

/-- PHASE_TEST (R417): the units that fail are excluded until the next reset, with a record each. -/
def execPhaseTest (failed : List HwUnit) (columns : List (Nat × Nat × W32)) (s : State) : Res :=
  if !inPhase s 6 || s.boot.tested then .next s
  else
    let t := applyTests s failed columns
    let u := if trainOut s then markOut t else t
    let v := postTests u (testLosses s t failed) (arrayLosses t failed columns)
    .next { v with boot := { v.boot with tested := true } }

/-! READY (R418, R351, R393, R447). -/

/-- The first two conditions of R418. -/
def canStart (s : State) : Bool :=
  ((List.range 4).any fun q => quadUsable s q && !(stacksOf s q).isEmpty) &&
    (List.range 64).any fun n => decide (n < s.drover.dmaCh) && (dmaOf s n).inService

/-- Whether every channel has rebuilt or has been left unusable. -/
def rebuildsOver (s : State) : Bool :=
  (List.range 32).all fun c => (chanOf s c).targets.isEmpty || ((chanOf s c).rebuilt && !(chanOf s c).rebuilding)

/-- Set bits of a mask. -/
def popCount (w : Nat) (m : BitVec w) : Nat := ((List.range w).filter fun i => m.getLsbD i).length

/-- HUB_TOPO latched (R38). -/
def latchTopo (s : State) : State :=
  { s with topo := { s.topo with
    quad := s.topo.quadOk, stack := s.topo.stackOk, flue := maskOf 8 (portEnabled s.boot.image)
    tiles := popCount 64 s.topo.tileOk
    targets := sumBy (fun c => if (chanOf s c).usable then (chanOf s c).targets.length else 0) (List.range 32) } }

/-- Pen 0 from the image (R351): its quotas, with BALE_GIB no more than the node holds; vectors from 0 on; each damper at its cap. -/
def makePen0 (s : State) : State :=
  let a := s.boot.image.pen0
  let p : Pen :=
    { alive := true, queues := fieldAt a 2 2, vectors := fieldAt a 4 2, taskUnits := fieldAt a 6 2
      baleGib := min (fieldAt a 8 2) (homeGib s), poolPct := fieldAt a 10 1, peerCtx := fieldAt a 12 2
      minClass := bits (fieldAt a 11 1) 0 2, dclass := bits (fieldAt a 11 1) 2 2, winLen := s.ftl.nsBlocks }
  let p := s.boot.image.dampers.foldl applyDamper p
  let p := { p with buckets := (List.range 12).map fun k => (k, bktCap p (k / 3) (k % 3)) }
  giveVecs { s with pens := tput s.pens 0 p } 0 0 p.vectors

/-- Pen 0's enabled controllers set CSTS.RDY (R419). -/
def readyCtls (s : State) : State :=
  { s with port := { s.port with ctls := tmap s.port.ctls fun c x => if penOfCtl c = 0 ∧ x.en then { x with rdy := true } else x } }

/-- Flue ports begin training at readiness (R393). -/
def trainPorts (s : State) : State :=
  { s with flue := { s.flue with
    ports := ((List.range 8).filter fun p => portEnabled s.boot.image p && s.power.on.getLsbD (domFL p)).map fun p =>
      (p, { st := 1, typ := portType s.boot.image p }) } }

/-- The margin plan of the highest generation on any channel (R447). -/
def bestPlan (s : State) : Option MarginPlan :=
  (s.ftl.chans.filterMap fun c => if c.2.usable then c.2.media.plan else none).foldl (fun b x => match b with
    | none => some x
    | some y => if y.gen < x.gen then some x else some y) none

/-- Tile clock of a bin, in MHz (R444). -/
def binMhz (b : Nat) : Nat := 2400 - 100 * b

/-- The plan taken up (R447): the greater guard band, the lower bin, the lower PHY rate. MIN of the plan's last window is no window of
this start: HLT_MARGIN.MIN keeps its reset value. -/
def loadPlan (s : State) : State := match bestPlan s with
  | none => s
  | some x =>
    let gb := (List.range 20).map fun d => (d, max (tgetD s.health.gb d 0) (tgetD x.gb d 0))
    let bin := (List.range 20).map fun d => (d, max (tgetD s.health.bin d 0) (tgetD x.bin d 0))
    let s := { s with health := { s.health with gb := gb, bin := bin, gen := x.gen } }
    let s := (List.range 4).foldl (fun s q => updQuad s q fun y => { y with tileMhz := binMhz (tgetD bin q 0) }) s
    (List.range 20).foldl (fun s n => updStack s n fun y => { y with phyRate := max y.phyRate (tgetD x.rates n 0) }) s

/-- The hub control cycle of readiness (R418). -/
def becomeReady (s : State) : State :=
  let s := { s with
    boot := { s.boot with phase := 7, ready := true }
    trace := { s.trace with recording := s.trace.rec_ && s.power.on.getLsbD domTRC, touched := false } }
  trainPorts (readyCtls (makePen0 (latchTopo (loadPlan s))))

/-- READINESS (R418): READY once TEST has ended and every usable channel has rebuilt; FAILED when TEST has ended without a usable quad
with a usable stack, or without a Drover DMA channel. -/
def execReadiness (s : State) : Res :=
  if !inPhase s 6 || !s.boot.tested then .next s
  else if !canStart s then .next (failStart s)
  else actWhen (rebuildsOver s) s (becomeReady s)

end Sys2Proof.Machine
end

