-- ==== Sys2Proof/Machine/CfgUpdate.lean ====
section
/-!
DEFINITION. Updating the image (R434): CFG_ERASE, CFG_WRITE, CFG_VERIFY and CFG_ACTIVATE. Each runs to its end when it is accepted, so
that none waits for another. In replay erase, write and activate are not performed (R454).
-/

namespace Sys2Proof.Machine

/-- A control of a configuration flash device: accepted from pen 0 only; the slot loaded at this start is refused (R434). -/
def withSlot (s : State) (c : Cmd) (b : KBlock) (code : Nat) (argsOk : Bool) (f : State → Nat → State) : Res :=
  withKeyedArgs s c b code onlyPen0 (argsOk && decide (karg b 0 1 ≤ 1)) fun s _ =>
    if karg b 0 1 = s.boot.slot then complete s c stInvalidField else f s (karg b 0 1)

/-- A slot's bytes changed. -/
def updSlot (s : State) (n : Nat) (f : Mem → Mem) : State := { s with cfgFlash := tmod s.cfgFlash n f }

/-- CFG_ERASE (R434): the image slot; never the identity area. Erased bytes read 0 (log 5). -/
def execCfgErase (c : Cmd) (b : KBlock) (s : State) : Res :=
  withSlot s c b 0x0200 (allZero (sub b.args 1 31)) fun s n =>
    if s.trace.replay then completeFree s c
    else complete (updSlot s n fun m => m.zero 0 slotBytesMax) c stSuccess

/-- CFG_WRITE's offset, length and source (R434). -/
def cfgWriteOk (b : KBlock) : Bool :=
  let off := karg b 4 4
  let n := karg b 8 4
  allZero (sub b.args 1 3) && allZero (sub b.args 12 4) && allZero (sub b.args 24 8) && off % 4096 == 0 && n % 4096 == 0 &&
    decide (off < slotBytesMax ∧ n ≤ 1048576 ∧ off + n ≤ slotBytesMax) &&
    (match opRefOf (karg b 16 8) with
      | .host _ => true
      | .obj _ _ => true
      | _ => false)

/-- CFG_WRITE (R434): the source's bytes programmed into the slot; a source that cannot be read ends it with that status. -/
def execCfgWrite (c : Cmd) (b : KBlock) (s : State) : Res :=
  withSlot s c b 0x0201 (cfgWriteOk b) fun s n =>
    if s.trace.replay then completeFree s c
    else match readOp s 0 none (opRefOf (karg b 16 8)) 0 (karg b 8 4) with
      | .err e => complete s c e
      | .ok bs => complete (updSlot s n fun m => m.write (karg b 4 4) bs) c stSuccess

/-- CFG_VERIFY (R434): R421 to R424 on the slot; the outcome is latched in its register. -/
def execCfgVerify (c : Cmd) (b : KBlock) (s : State) : Res :=
  withSlot s c b 0x0202 (allZero (sub b.args 1 31)) fun s n =>
    let r := judgeSlot s n
    complete (setSlotReg s n r) c (if r.reason = 0 then stSuccess else stInvalidFirmwareImage)

/-- CFG_ACTIVATE (R434): verified as CFG_VERIFY does; a slot that R420 would not select is refused; else its completion is written
and the node performs a cold reset. -/
def execCfgActivate (c : Cmd) (b : KBlock) (s : State) : Res :=
  withSlot s c b 0x0203 (allZero (sub b.args 1 31)) fun s n =>
    if s.trace.replay then completeFree s c
    else
      let r := judgeSlot s n
      let t := setSlotReg s n r
      if r.reason ≠ 0 ∨ (imgHead s n).sequence ≤ s.boot.seqRunning then complete t c stInvalidFirmwareImage
      else startNode (complete (quiesceCold t) c stSuccess) 4

end Sys2Proof.Machine
end

