-- ==== Sys2Proof/Machine/FlashTasks.lean ====
section
/-!
DEFINITION. The FLASH tasks (11, R298, R319): FLASH_READ, FLASH_WRITE and deallocation.
-/

namespace Sys2Proof.Machine

/-- A flash task that breaks R298 or names units beyond its region (R319). -/
def flashBad (s : State) (g : Graph) (k : Task) : Bool :=
  let n := par k 0 32
  let del := k.typ == 0x1D && k.sub == 1
  let extra := if k.typ == 0x1D && k.sub == 0 then 33 else 32
  let rest := (List.range 6).any fun i => (decide (2 ≤ i) || (del && i == 1)) && opd k i != .none
  decide (n = 0 ∨ 65536 < n) || par k extra (64 - extra) != 0 || rest || (!del && opd k 1 == .none) ||
    match opd k 0 with
    | .obj o off => decide (off % 4096 ≠ 0) || (match objOf s g.pen o with
        | some x => (match x.kind with
            | .region _ blocks => decide (blocks < off / 4096 + n)
            | _ => true)
        | none => false)
    | _ => true

/-- FLASH_READ (R298): every unit read on its channel; completes with the status of the lowest unit that failed. -/
def execFlashRead (t : TaskId) (s : State) : Res :=
  match running s t 0x1C (some 0) with
  | none => .next s
  | some (g, k) =>
    if k.run != .none || (flashLbas s g k).any (unitWaits s) then .next s
    else if flashBad s g k then .next (unpredictable s t g (outputs s g k))
    else
      let us := flashLbas s g k
      if us.isEmpty then .next (finishTask s t stSuccess 0)
      else
        let s := modTask (setRun s t .io) t fun k => { k with usedFlash := k.usedFlash + 16 * ceilDiv us.length 4, wrote := true }
        .next (readUnits s (taskOwner t g) (putTask t) ((List.range us.length).zip us |>.map fun x => (x.2, 4096 * x.1)))

/-- FLASH_WRITE SUBTYPE 0 (R298, R341). -/
def execFlashWrite (t : TaskId) (s : State) : Res :=
  match running s t 0x1D (some 0) with
  | none => .next s
  | some (g, k) =>
    if k.run != .none || (flashLbas s g k).any (unitWaits s) then .next s
    else if flashBad s g k then .next (unpredictable s t g [])
    else
      let us := flashLbas s g k
      match readOp s g.pen (some g) (nth k.ops 1 .none) 0 (4096 * us.length) with
      | .err e => .next (finishTask s t e us.length)
      | .ok bs =>
        let s := modTask (setRun s t .io) t fun k => { k with usedFlash := k.usedFlash + 16 * ceilDiv us.length 4, wrote := true }
        let fua := bit k.param.toNat 32 || firstBad (unitWriteStatus s) us != 0
        let s := writeUnits s (taskOwner t g) fua (dataUnits us bs)
        .next (settleOrdered s (orderedCount s))

/-- FLASH_WRITE SUBTYPE 1: deallocation of N units (R298, R341). -/
def execDeallocate (t : TaskId) (s : State) : Res :=
  match running s t 0x1D (some 1) with
  | none => .next s
  | some (g, k) =>
    let us := flashLbas s g k
    if us.any (unitWaits s) then .next s
    else if flashBad s g k then .next (unpredictable s t g [])
    else
    let st := firstBad (unitWriteStatus s) us
    let s := (us.filter fun u => unitWriteStatus s u == 0).foldl trimUnit s
    .next (wake (finishTask s t st us.length))

end Sys2Proof.Machine
end

