-- ==== Sys2Proof/Machine/FlueLink.lean ====
section
/-!
DEFINITION. Flue ports (R391 to R396): FEC blocks, flits, credits, link-level retry, training and qualification; messages for
other nodes (R400).
-/

namespace Sys2Proof.Machine

/-- A flit's fields from its 256 bytes (R394). -/
def flitOf (b : List Byte) : Flit :=
  let h := fieldAt b 0 12
  let n := bits h 64 8
  { seq := bits h 0 12, kind := bits h 12 4, ackSeq := bits h 16 12, cred0 := bits h 32 8, cred1 := bits h 40 8, vc := bits h 48 1
    som := bit h 49, eom := bit h 50, len := n, payload := sub b 12 (min n 240)
    crcOk := crc32c (sub b 0 252) == BitVec.ofNat 32 (fieldAt b 252 4) }

/-- An IDLE or a RETRY_REQ flit. -/
def plainFlit (kind : Nat) : Flit :=
  { seq := 0, kind := kind, ackSeq := 0, cred0 := 0, cred1 := 0, vc := 0, som := false, eom := false, len := 0, payload := [], crcOk := true }

/-- Whether a DATA flit's SEQ lies at or before an acknowledgement, modulo 4,096. -/
def ackedBy (a seq : Nat) : Bool := decide ((a + 4096 - seq) % 4096 < 2048)

/-- The acknowledgement and the credits that a good flit carries (R394, R395, R396). -/
def takeReturns (x : FPort) (f : Flit) : FPort :=
  { x with
    unacked := x.unacked.filter fun g => !ackedBy f.ackSeq g.seq
    cred0 := min (x.cred0 + f.cred0) 256, cred1 := min (x.cred1 + f.cred1) 256 }

/-- A port that leaves UP (R396, R414): its retry buffer and what it had not sent are discarded; R399 recovers the messages. -/
def dropPort (s : State) (p st : Nat) : State :=
  updPort s p fun x => { x with
    st := st, drops := if x.st = 3 then satAdd 16 x.drops 1 else x.drops, rx := [], asm0 := [], asm1 := [], tx := [], unacked := []
    lastAsk := none, askCount := 0, asked := false, freed0 := 0, freed1 := 0 }

/-- FEC_BLOCK (R392): corrected symbols are counted; a block with a codeword that cannot be corrected is discarded whole. Its
flits wait for DATA_FLIT, IDLE_FLIT and RETRY_REQ; one whose CRC fails is counted, and one of a reserved KIND goes. -/
def execFecBlock (port : Nat) (correctable : Bool) (corrected : Nat) (flits : List (List Byte)) (s : State) : Res :=
  if (portOf s port).st ≠ 3 then .next s
  else
    let s := updPort s port fun x => { x with corrSym := wrapAdd 32 x.corrSym corrected, blockCount := (x.blockCount + 1) % 256 }
    if !correctable then .next (updPort s port fun x => { x with blockDrop := satAdd 16 x.blockDrop 1 })
    else
      let fs := flits.map flitOf
      let bad := (fs.filter fun f => !f.crcOk).length
      .next (updPort s port fun x => { x with
        crcErr := satAdd 16 x.crcErr bad, rx := x.rx ++ fs.filter fun f => decide (f.kind ≤ 2) })

/-- The oldest received flit of a port that is UP, when it is of a kind; the state without it. -/
def takeFlit (s : State) (p kind : Nat) : Option (State × Flit) :=
  let x := portOf s p
  match x.rx with
  | [] => none
  | f :: r => if x.st = 3 ∧ f.kind = kind then some (updPort s p fun x => { x with rx := r }, f) else none

/-- Message types that R398 defines. -/
def knownType (t : Nat) : Bool :=
  t ∈ [0x01, 0x02, 0x03, 0x10, 0x11, 0x20, 0x21, 0x30, 0x31, 0x32, 0x33, 0x40, 0x41, 0x42, 0x43]

/-- The message that a run of payload bytes spells (R397). -/
def messageOf (b : List Byte) : FlueMsg :=
  { dst := bits (fieldAt b 0 2) 0 10, src := bits (fieldAt b 2 2) 0 10, dctx := fieldAt b 4 2, sctx := fieldAt b 6 2
    mseq := fieldAt b 8 4, type := fieldAt b 12 1, ttl := fieldAt b 13 1, gen := fieldAt b 20 4, corrid := fieldAt b 24 8
    body := b.drop 32 }

/-- A whole message received on a VC: kept for its command, or discarded and counted when malformed (R414): a LENGTH above 65,536 or
other than its flits hold, a reserved TYPE, a TYPE of the other VC, a context above 1,023. -/
def arriveMsg (s : State) (vc : Nat) (b : List Byte) : State :=
  let m := messageOf b
  if b.length < 32 ∨ fieldAt b 16 4 ≠ m.body.length ∨ 65536 < m.body.length ∨ !knownType m.type ∨ vcOf m.type ≠ vc ∨ 1023 < m.dctx then
    rejectMsg s
  else { s with flue := { s.flue with inbox := s.flue.inbox ++ [m] } }

/-- An accepted DATA flit's payload added to its VC's message (R395, R397); its buffer is freed. -/
def assemble (s : State) (p : Nat) (f : Flit) : State :=
  let x := portOf s p
  let old := if f.vc = 0 then x.asm0 else x.asm1
  let b := (if f.som then [] else old) ++ f.payload
  let keep := if f.eom then [] else b
  let s := updPort s p fun x =>
    if f.vc = 0 then { x with asm0 := keep, freed0 := x.freed0 + 1 } else { x with asm1 := keep, freed1 := x.freed1 + 1 }
  if f.eom then arriveMsg s f.vc b else s

/-- Freed credits returned in an IDLE flit when no DATA flit took them along (R394, R395). -/
def returnCredits (s : State) (p : Nat) : State :=
  let x := portOf s p
  if x.freed0 = 0 ∧ x.freed1 = 0 then s else emitFlit s p (plainFlit 0)

/-- DATA_FLIT (R396): accepted with good CRC and the expected SEQ; else discarded, with one RETRY_REQ for each expected SEQ. -/
def execDataFlit (port : Nat) (s : State) : Res :=
  match takeFlit s port 1 with
  | none => .next s
  | some (s, f) =>
    let x := portOf s port
    if f.crcOk && f.seq == x.expSeq then
      let s := updPort s port fun x => { takeReturns x f with expSeq := (x.expSeq + 1) % 4096, asked := false }
      .next (returnCredits (pump (assemble s port f) port) port)
    else
      let s := if f.crcOk then updPort s port fun x => takeReturns x f else s
      let s := if x.asked then s else emitFlit (updPort s port fun x => { x with asked := true }) port (plainFlit 2)
      .next (pump s port)

/-- IDLE_FLIT (R395): acknowledgement and credits. -/
def execIdleFlit (port : Nat) (s : State) : Res :=
  match takeFlit s port 0 with
  | none => .next s
  | some (s, f) => if f.crcOk then .next (pump (updPort s port fun x => takeReturns x f) port) else .next s

/-- RETRY_REQ (R396): every DATA flit after its ACK is sent again in order; 16 for one ACK drop the port to TRAINING. -/
def execRetryReq (port : Nat) (s : State) : Res :=
  match takeFlit s port 2 with
  | none => .next s
  | some (s, f) =>
    if !f.crcOk then .next s
    else
      let s := updPort s port fun x =>
        { takeReturns x f with
          retries := wrapAdd 32 x.retries 1, lastAsk := some f.ackSeq
          askCount := if x.lastAsk = some f.ackSeq then x.askCount + 1 else 1 }
      if 16 ≤ (portOf s port).askCount then .next (dropPort s port 1)
      else .next (pump ((portOf s port).unacked.foldl (fun s g => emitFlit s port g) s) port)

/-- PORT_TRAINING (R393): an enabled port has trained and enters QUALIFYING. -/
def execPortTraining (port : Nat) (s : State) : Res :=
  let x := portOf s port
  actWhen (s.boot.ready && s.topo.flue.getLsbD port && decide (port < 8 ∧ x.st ≤ 1) && !x.dead) s
    (updPort s port fun x => { x with st := 2 })

/-- Bytes in the forward pool. -/
def poolBytes (s : State) : Nat := sumBy (fun m => 32 + m.body.length) s.flue.pool

/-- FORWARD (R400): a message for another node goes on with TTL reduced, or is dropped and counted. -/
def execForward (m : FlueMsg) (s : State) : Res :=
  if m.dst = s.flue.nodeId ∨ !(m ∈ s.flue.inbox) then .next s
  else
    let s := { s with flue := { s.flue with inbox := dropFirst (fun x => x == m) s.flue.inbox } }
    if m.ttl = 0 ∨ 4 * 1048576 < poolBytes s + 32 + m.body.length then
      .next { s with flue := { s.flue with fwdDrop := satAdd 24 s.flue.fwdDrop 1 } }
    else
      let n := { m with ttl := m.ttl - 1 }
      match routePort s n.dst with
      | some _ => .next (sendMsg s n)
      | none => .next { s with flue := { s.flue with pool := s.flue.pool ++ [n] } }

end Sys2Proof.Machine
end

