-- ==== Sys2Proof/Machine/Matrix.lean ====
section
/-!
DEFINITION. Matrix arrays (06): the MATMUL task, its units, array tests and faults.
-/

namespace Sys2Proof.Machine

/-- The initial accumulator words of R170, row by row. -/
def matInit (isInt : Bool) (p : MatParam) (c bias : Option (List Byte)) : List W32 :=
  (List.range p.m).flatMap fun m => (List.range p.n).map fun n =>
    let cw := c.map fun b => BitVec.ofNat 32 (fieldAt b (m * p.ldc + 4 * n) 4)
    let bw := bias.map fun b => BitVec.ofNat 32 (fieldAt b (4 * n) 4)
    match cw, bw with
    | some x, some y => accWord isInt x y
    | some x, none => x
    | none, some y => y
    | none, none => 0

/-- A MATMUL to run: parameters, initial values, operands. -/
def matRun (p : MatParam) (init : List W32) (a w qb : List Byte) : MatRun :=
  { m := p.m, n := p.n, k := p.k, lda := p.lda, ldw := p.ldw, ldc := p.ldc, afmt := p.afmt, wfmt := p.wfmt, outfmt := p.outfmt
    accum := p.accum, init := init, a := a, w := w, qb := qb }

/-- MATMUL (R169, R170): its operands are paged into tile SRAM and its initial values read, as the task begins (log 150); the units of R171
follow. Parameters that R183 or R202 rules out leave the task's result unpredictable. -/
def execMatmul (t : TaskId) (s : State) : Res :=
  match running s t 0x08 (some 0) with
  | none => .next s
  | some (g, k) =>
    if k.run != .none then .next s
    else match matParams s g k, quantHeader s g (opd k 3) with
      | (none, e), _ => .next (readFailed s t g k e)
      | _, (none, e) => .next (readFailed s t g k e)
      | (some p, _), (some q, _) =>
        if !matOk p q then .next (unpredictable s t g [(opd k 2, cBytes p)])
        else
          let rd (op : OpRef) (n : Nat) : Rd := readOp s g.pen (some g) op 0 n
          let opt (op : OpRef) (n : Nat) : Rd := if op = .none then .ok [] else rd op n
          let rc := if p.accum then rd (opd k 2) (cBytes p) else .ok []
          match rc, opt (opd k 4) (4 * p.n), opt (opd k 3) (quantBytes q p.m p.n p.k),
              rd (opd k 0) (rowsBytes p.m p.lda (aRow p)), rd (opd k 1) (rowsBytes (wRows p) p.ldw (wRow p)) with
          | .err e, _, _, _, _ => .next (readFailed s t g k e)
          | _, .err e, _, _, _ => .next (readFailed s t g k e)
          | _, _, .err e, _, _ => .next (readFailed s t g k e)
          | _, _, _, .err e, _ => .next (readFailed s t g k e)
          | _, _, _, _, .err e => .next (readFailed s t g k e)
          | .ok cb, .ok bb, .ok qb, .ok a, .ok w =>
            let isInt := ((modeOf p.afmt p.wfmt q.cbFmt).map (·.isInt)).getD false
            let init := matInit isInt p (if p.accum then some cb else none) (if opd k 4 = .none then none else some bb)
            .next (setRun s t (.mat (matRun p init a w qb)))

/-! Units (R171). -/

/-- The quantisation block of a run, and its cell mode. -/
def MatRun.quant (r : MatRun) : Quant := if r.qb.isEmpty then {} else quantOf (sub r.qb 0 64)
def MatRun.mode (r : MatRun) : Mode := (modeOf r.afmt r.wfmt r.quant.cbFmt).getD .i8
/-- The operands of a run. -/
def MatRun.ops (r : MatRun) : MatOps :=
  { m := r.m, n := r.n, k := r.k, lda := r.lda, ldw := r.ldw, afmt := r.afmt, wfmt := r.wfmt, outfmt := r.outfmt, q := r.quant, qb := r.qb }

/-- A unit (R171): its M-block's rows and its N-tile's columns. -/
structure MUnit where
  row0 : Nat
  rows : Nat
  col0 : Nat
  cols : Nat
deriving DecidableEq, Repr

/-- The next unit of a run for a part of some width. -/
def MatRun.unit (r : MatRun) (width : Nat) : MUnit :=
  { row0 := 512 * r.nextBlock, rows := min 512 (r.m - 512 * r.nextBlock), col0 := r.nextCol, cols := min width (r.n - r.nextCol) }

/-- Row i of the activations of a unit. -/
def MatRun.arow (r : MatRun) (m : Nat) : List Byte := sub r.a (m * r.lda) (r.k * fmtBytes r.afmt)

/-- The accumulator entries of a unit, row by row (R163). -/
def unitAccs (r : MatRun) (u : MUnit) : List (List W32) :=
  (List.range u.rows).map fun i => (List.range u.cols).map fun j =>
    let m := u.row0 + i
    let c := u.col0 + j
    matAcc r.ops (r.arow m) r.w m c (nth r.init (m * r.n + c) 0)

/-- The bytes of column c of a drained row; a column with a scale out of range holds free values (R202, log 14). -/
def drainBytes (o : MatOps) (tag m c : Nat) (a : W32) : List Byte :=
  let e := fmtBytes o.outfmt
  if scaleBad (((modeOf o.afmt o.wfmt o.q.cbFmt).map (·.isInt)).getD false) o.q o.qb o.n o.k c then
    (List.range e).map fun i => Config.freeByte tag ((m * o.n + c) * e + i)
  else le e (matDrain o c a)

/-- The rows of a unit as they drain (R164): offset in C, and bytes. -/
def unitRows (r : MatRun) (u : MUnit) (tag : Nat) (accs : List (List W32)) : List (Nat × List Byte) :=
  ((List.range u.rows).zip accs).map fun x =>
    ((u.row0 + x.1) * r.ldc + u.col0 * fmtBytes r.outfmt,
      ((List.range u.cols).zip x.2).flatMap fun y => drainBytes r.ops tag (u.row0 + x.1) (u.col0 + y.1) y.2)

/-! The array's registers (R155, R156, R164). -/

/-- The good physical columns of a part in order: the logical columns of an N-tile map onto them (R176). -/
def partCols (a : Arr) (geom part : Nat) : List Nat :=
  ((List.range (if geom = 1 then 32 else 16)).map (partLeft geom part + ·)).filter fun c => !a.bad.getLsbD c
/-- The array rows of a part. -/
def partRows (geom part : Nat) : List Nat := (List.range (if geom = 3 then 16 else 32)).map (16 * (if geom = 3 then part / 2 else 0) + ·)

/-- The registers of a row of cells from what each lane of it holds: I4 rows hold two lanes. -/
def laneRegs (md : Mode) (rows k : Nat) (f : Nat → Nat) (i : Nat) : Option Nat :=
  if md = .i4 then
    (lastLane (2 * rows) k (2 * i)).map fun a => f a + (((lastLane (2 * rows) k (2 * i + 1)).map fun b => f b).getD 0) * 2 ^ 8
  else (lastLane rows k i).map f

/-- An array after a unit (R155, R159, R164): the weights of the last pass in both registers of each cell, the last row's lanes in the
activation registers, the unit's entries in one half of the store. What the spec leaves open of these is in log 149. -/
def unitArr (r : MatRun) (u : MUnit) (geom part : Nat) (accs : List (List W32)) (a : Arr) : Arr :=
  let rows := partRows geom part
  let cols := partCols a geom part
  let e := fmtBytes r.afmt
  let ar := r.arow (u.row0 + u.rows - 1)
  let cells (f : Nat → Nat → Nat) (t : Tab Nat) : Tab Nat :=
    ((List.range u.cols).zip cols).foldl (fun t c => ((List.range rows.length).zip rows).foldl (fun t x =>
      match laneRegs r.mode rows.length r.k (fun k => f k (u.col0 + c.1)) x.1 with
      | some v => tput t (32 * x.2 + c.2) v
      | none => t) t) t
  let weights := cells (heldWeight r.ops r.w)
  let base := 512 * (if geom = 3 then part / 2 else a.half)
  { a with
    active := weights a.active, shadow := weights a.shadow, acts := cells (fun k _ => fieldAt ar (k * e) e) a.acts
    acc := ((List.range u.rows).zip accs).foldl (fun t x =>
      (cols.zip x.2).foldl (fun t y => tput t (32 * (base + x.1) + y.1) y.2) t) a.acc
    half := 1 - a.half }

/-! Output bales (R168). -/

/-- Where, from C's first byte, the output bales end whose rows have all drained when those below row m have. -/
def drainedTo (c : OpRef) (ldc m : Nat) : Nat := (firstOff c + m * ldc) / bale * bale - firstOff c

/-- Drained rows cut at an offset: what lies below it, and the rest. -/
def cutRows (lim : Nat) (l : List (Nat × List Byte)) : List (Nat × List Byte) × List (Nat × List Byte) :=
  ((l.map fun x => (x.1, x.2.take (lim - x.1))).filter fun x => !x.2.isEmpty,
   (l.map fun x => (max x.1 lim, x.2.drop (lim - x.1))).filter fun x => !x.2.isEmpty)

/-- Rows written to C. -/
def writeRows (s : State) (t : TaskId) (g : Graph) (k : Task) (l : List (Nat × List Byte)) : State :=
  l.foldl (fun s x => writeOp s t g.pen k.quad (some g) (opd k 2) x.1 x.2) s

/-- The next unit of a MATMUL done on an array part (R171): its rows drain to tile SRAM, and the output bales whose rows have all
drained are written (R168). The cycles in which some array of the tile multiplied depend on timing: a free value (log 1). -/
def runUnit (s : State) (t : TaskId) (g : Graph) (k : Task) (r : MatRun) (array geom part : Nat) : State :=
  let u := r.unit (partWidth (arrOf s k.unitNo array) geom part)
  let accs := unitAccs r u
  let d := drawTag s
  let s := updArr d.2 k.unitNo array (unitArr r u geom part accs)
  let s := updTile s k.unitNo fun x => { x with
    macs := wrapAdd 74 x.macs (u.rows * u.cols * r.k)
    busy := wrapAdd 48 x.busy (Config.freeWord d.1).toNat }
  let lastCol := decide (r.n ≤ r.nextCol + u.cols)
  let r := { r with
    out := r.out ++ unitRows r u d.1 accs
    nextCol := if lastCol then 0 else r.nextCol + u.cols
    nextBlock := if lastCol then r.nextBlock + 1 else r.nextBlock
    unitsDone := r.unitsDone + 1 }
  if r.m ≤ 512 * r.nextBlock then finishTask (writeRows s t g k r.out) t stSuccess 0
  else
    let c := cutRows (drainedTo (opd k 2) r.ldc (512 * r.nextBlock)) r.out
    setRun (if lastCol then writeRows s t g k c.1 else s) t (.mat (if lastCol then { r with out := c.2 } else r))

/-- An array leaves service (R180): with an event record. -/
def arrayOut (s : State) (tile a : Nat) : State :=
  markOut (postEvent (updArr s tile a fun x => { x with inService := false, testing := false, testWanted := false }) 3 (.array tile a) 1 0 0)

/-! Who uses an array (R172). -/

/-- A task's use of an array: its tile, the array there, mode, geometry, restartability, and the MATMUL that has units to run. -/
structure ArrayJob where
  g : Graph
  k : Task
  tile : Nat
  arr : Nat
  mode : Mode
  geom : Nat
  restart : Bool
  run : Option MatRun

/-- The array steps of a MODEL_RUN (R206, R209). -/
def arraySteps (s : State) (g : Graph) (k : Task) : List MStep :=
  match modelOf s g.pen (opd k 0), paramBlock s g k 32 with
  | some (num, bytes, _), .ok pb => (match modelImage s g.pen num bytes with
    | .ok img => (((List.range ((runParamOf pb).last + 1)).drop (runParamOf pb).first).map (imgStepAt img)).filter fun st => decide (st.kind ≤ 1)
    | .err _ => [])
  | _, _ => []

/-- The array task that a task is while it has array work left: a MATMUL with units to run, a MODEL_RUN with array steps, whose arrays
are numbered over the tiles it runs on, or a QUERY whose rerank is to come (R172). -/
def arrayJob (s : State) (t : TaskId) (a : Nat) : Option ArrayJob :=
  match running s t 0x08 (some 0), running s t 0x09 (some 0), running s t 0x10 (some 0) with
  | some (g, k), _, _ => (match k.run with
    | .mat r =>
      some { g := g, k := k, tile := k.unitNo, arr := a, mode := r.mode, geom := geometry r.mode r.n r.k
             restart := !r.accum && restarts s g k, run := some r }
    | _ => none)
  | _, some (g, k), _ => (match arraySteps s g k with
    | [] => none
    | st :: _ =>
      let tiles := (tilesOf s k.quad).filter fun u => t ∈ (tileOf s u).tasks
      let md := (modeOf st.afmt st.wfmt 0).getD .i8
      some { g := g, k := k, tile := nth tiles (a / 4) k.unitNo, arr := a % 4, mode := md, geom := geometry md st.n st.k
             restart := restarts s g k, run := none })
  | _, _, some (g, k) => (match k.run, indexOf s g.pen (opd k 0) with
    | .walk w, some (_, x) =>
      if w.ended && w.p.rerank != 0 then
        some { g := g, k := k, tile := k.unitNo, arr := a, mode := .f32, geom := geometry .f32 w.p.rerank x.desc.vecDim
               restart := restarts s g k, run := none }
      else none
    | _, _ => none)
  | _, _, _ => none

/-- Whether an array takes a task's unit (R172): the task holds it, or it is free and the task is the first of the tile's array tasks in
the order of R61. -/
def arrayTurn (s : State) (t : TaskId) (tile a : Nat) : Bool :=
  match (arrOf s tile a).holder with
  | some h => h == t
  | none =>
    let rank (x : TaskId × Graph × Task) : List Nat := candRank s .tile x
    match (allTasks s).find? fun x => x.1 == t with
    | none => false
    | some me => ((tileOf s tile).tasks.filter fun u => u != t && (arrayJob s u 0).isSome).all fun u =>
        ((allTasks s).filter fun x => x.1 == u).all fun x => lexLt (rank me) (rank x)

/-- ARRAY_UNIT (R171, R172): the task's next unit on an array part. A residue mismatch in an integer mode stops it, the array is
tested and the task is treated as R179 says (R178); so does a double-bit accumulator error (R164), and a second one takes the
array out of service (R180). A unit of a MODEL_RUN or of a rerank gives its results in MODEL_RUN and RERANK. -/
def execArrayUnit (t : TaskId) (array part : Nat) (residueFail accCorr accUncorr : Bool) (s : State) : Res :=
  match arrayJob s t array with
  | none => .next s
  | some j =>
    let x := arrOf s j.tile j.arr
    if !x.inService || x.testing || decide (geomParts j.geom ≤ part) || partWidth x j.geom part == 0 || decide (4 ≤ j.arr) ||
        !arrayTurn s t j.tile j.arr then .next s
    else
      let s := if accCorr then updTile s j.tile fun y => { y with accCorr := satAdd 16 y.accCorr 1, corrected := y.corrected + 1 } else s
      if residueFail && j.mode.isInt then
        let s := updTile s j.tile fun y => { y with residue := satAdd 16 y.residue 1 }
        let s := updArr s j.tile j.arr fun y => { y with testing := true }
        .next (lostTask s t j.restart)
      else if accUncorr then
        let s := updTile s j.tile fun y => { y with accUncorr := satAdd 16 y.accUncorr 1, dataErrs := y.dataErrs + 1 }
        let s := updArr s j.tile j.arr fun y => { y with doubleErrs := y.doubleErrs + 1 }
        let s := postEvent s 1 (.array j.tile j.arr) 2 0 0
        let s := if 2 ≤ (arrOf s j.tile j.arr).doubleErrs then arrayOut s j.tile j.arr else s
        .next (lostTask s t j.restart)
      else
        let s := updArr s j.tile j.arr fun y => { y with holder := some t, geom := j.geom, mode := j.mode.code }
        match j.run with
        | some r => .next (runUnit s t j.g j.k r j.arr j.geom part)
        | none =>
          let d := drawTag s
          .next (updTile d.2 j.tile fun y => { y with busy := wrapAdd 48 y.busy (Config.freeWord d.1).toNat })

/-- ARRAY_TEST (R177): an in-service array's test begins between units, which is when a command finds it; a task that held it goes on
with the others. -/
def execArrayTest (tile array : Nat) (s : State) : Res :=
  let x := arrOf s tile array
  actWhen (x.inService && !x.testing && decide (array < 4)) s
    (updArr s tile array fun y => { y with testing := true, holder := none, geom := 0 })

/-- ARRAY_TEST_REQUEST (R177): TLn_ARR_CTL.TEST; a bit of an array out of service has no effect. -/
def execArrayTestRequest (tile : Nat) (mask : BitVec 4) (s : State) : Res :=
  let want (l : List Arr) : List Arr := ((List.range l.length).zip l).map fun x =>
    if mask.getLsbD x.1 && x.2.inService then { x.2 with testWanted := true } else x.2
  actWhen s.boot.ready s (updTile s tile fun t => { t with arrs := want t.arrs })

/-- ARRAY_TEST_DONE (R176, R177, R180): bad columns stay bad; more than 8, or a port that failed, take the array out of
service. A failing test posts an event record whose DATA1, the cycles since the last passing test, is a free value (R182); TEST_FAIL counts
those that failed a column. -/
def execArrayTestDone (tile array : Nat) (bad : W32) (portFail : Bool) (s : State) : Res :=
  let x := arrOf s tile array
  if !x.testing then .next s
  else
    let s := updArr s tile array fun y => { y with testing := false, testWanted := false, bad := y.bad ||| bad }
    let s := if bad != 0 then updTile s tile fun y => { y with testFail := satAdd 16 y.testFail 1 } else s
    let s := if bad != 0 || portFail then
        let r := drawTag s
        postEvent r.2 3 (.array tile array) 3 bad.toNat (Config.freeWord r.1).toNat
      else s
    .next (if portFail ∨ 8 < 32 - goodCols (arrOf s tile array) 0 32 then arrayOut s tile array else s)

end Sys2Proof.Machine
end

