-- ==== Sys2Proof/Machine/Losses.lean ====
section
/-!
DEFINITION. Units that leave service (R440, R437 to R439) with what is lost and what becomes of the work, the fence of a NODE fault
(R441, R442), and the exhaustion of a domain (R443, R463).
-/

namespace Sys2Proof.Machine

/-! The fence (R442). -/

/-- Tasks not yet issued are discarded: they end, and write no record. -/
def discardUnissued (s : State) : State :=
  let f (k : Task) : Task := if k.st = .waiting ∨ k.st = .ready then { k with st := .complete, status := stResetAborted } else k
  { s with drover := { s.drover with graphs := s.drover.graphs.map fun g => { g with tasks := g.tasks.map f } } }

/-- CLOSE sent on every OPEN context when the FL domains and the hub can do so. -/
def closeOpen (s : State) : State :=
  if domainOn s domHUB && (domainOn s 14 || domainOn s 15) then
    ((s.flue.ctxs.filter fun x => x.2.st == 2).map (·.1)).foldl closeCtx s
  else s

/-- The node fences itself (R442). Before readiness the start fails instead (R425; log 22). A fenced node stays as it is. -/
def fenceNode (s : State) (cause : Nat) (canDrain : Bool) : State :=
  if s.health.st = 2 ∨ s.boot.phase = 15 then s
  else if !s.boot.ready then failStart { s with power := { s.power with faultN := true } }
  else
    let s := { s with port := { s.port with stopped := true }, drover := { s.drover with stopped := true } }
    let s := closeOpen (discardUnissued s)
    let s := if canDrain then drainMedia s else { s with port := { s.port with wb := [], wbWait := [] } }
    let s := orphanAll (fun _ => true) s
    let s := { s with
      power := { s.power with faultN := true }
      port := { s.port with ctls := tmap s.port.ctls fun _ x => { x with cfs := true, aers := [] } }
      health := { s.health with st := 2, cause := cause, drained := canDrain } }
    postNodeEvent s 4 cause 0 0

/-- The node faults that losses of units come to (R441): no Drover DMA channel, no usable quad, no usable stack. Before
readiness READINESS examines them (R418). -/
def fenceIfBare (s : State) : State :=
  if !s.boot.ready then s else
  let s := if (List.range 64).any fun n => decide (n < s.drover.dmaCh) && (dmaOf s n).inService then s else fenceNode s 4 true
  if (List.range 4).any (quadUsable s) && (List.range 20).any (stackUsable s) then s else fenceNode s 5 true

/-! Tiles (R72, R440). -/

/-- Scratch objects with a home that satisfies p are lost. -/
def loseScratch (s : State) (p : Home → Bool) : State :=
  { s with drover := { s.drover with graphs := s.drover.graphs.map fun g => { g with
      scratch := tmap g.scratch fun _ x => if x.homes.any p then { x with lost := true } else x } } }

/-- Issued tasks ended or issued again wait for the reclaim sweep of their unit (R275). -/
def orphanTasks (s : State) (l : List TaskId) : State :=
  l.foldl (fun s t => modTask s t fun k => if k.st = .issued then { k with orphan := true } else k) s

/-- A tile lost: its agent dead, its SRAM gone, its tasks held until the sweep has ended. -/
def loseTile (s : State) (t : Nat) : State :=
  let s := { s with topo := { s.topo with tileOk := s.topo.tileOk &&& ~~~ (1#64 <<< t) } }
  let s := loseScratch s fun h => match h with
    | .tile u _ => u == t
    | _ => false
  let s := updQuad s (quadOfTile t) fun q => { q with resident := [], rowCache := tfilter q.rowCache fun k _ => k % 2 ^ 32 % 16 != t % 16 }
  let s := orphanTasks (updTile s t fun x => { x with dead := true }) (tileOf s t).tasks
  declareDead s t

/-! Stacks (R237, R345, R292). -/

def inStack (n : Nat) (h : Home) : Bool := match h with
  | .stack i _ => i == n
  | _ => false

/-- Whether a task reads a byte from a stack, or an index, table or model with a bale in it. -/
def readsStack (s : State) (g : Graph) (k : Task) (n : Nat) : Bool :=
  (ranges s g k).any fun r => !r.out && (match r.len with
    | some len => (segs s g.pen (some g) r.op 0 len).any fun x => match x.1 with
        | .stk a => dpaStack a == n
        | _ => false
    | none => match r.op with
      | .obj m _ => (objOf s g.pen m).any fun o => (o.homes ++ moveHomes o).any (inStack n)
      | _ => false)

/-- Issued tasks that read from a stack. -/
def stackReaders (s : State) (n : Nat) : List TaskId :=
  ((allTasks s).filter fun x => x.2.2.st == .issued && readsStack s x.2.1 x.2.2 n).map (·.1)

/-- The commits and the mirror load of a lost index end with a status (R150). -/
def failCommits (s : State) (p num : Nat) (status : Nat) : State :=
  match indexOf s p (.obj num 0) with
  | some (_, x) =>
    let s := updObj s p num fun o => { o with kind := .index { x with commits := [], loading := none } }
    let s := x.commits.foldl (fun s c => endCommit s p c c.epoch status) s
    match x.loading with
    | some m => complete s m.cmd status
    | none => s
  | none => s

/-- Tasks, running or waiting, with request state in a stack (R236, R237): what they keep there themselves, and bales of scratch
objects that they name. -/
def stateIn (s : State) (n : Nat) : List TaskId :=
  (s.drover.reqs.filter fun r => r.stack == n).map (·.task) ++
    ((allTasks s).filter fun x => (x.2.2.st == .waiting || x.2.2.st == .ready || x.2.2.st == .issued) &&
      (x.2.2.ops.filterMap (scratchOf x.2.1)).any fun y => y.2.homes.any (inStack n)).map (·.1)

/-- Objects of the pens with a home in a stack: pen and number. -/
def objsIn (s : State) (n : Nat) : List (Nat × Nat) := s.pens.flatMap fun p =>
  (p.2.objects.filter fun o => (o.2.homes ++ moveHomes o.2).any (inStack n)).map fun o => (p.1, o.1)

/-- A copy in a failed stack (R237): clean ones are dropped and their tasks issued again; what tasks had not written back is lost,
and they end with STATE_LOST. -/
def loseCopy (s : State) (c : BaleCopy) : State :=
  let s := c.dirty.foldl (fun s x => smudgeRun s c.bale x.2.1 x.2.2) (dropCopy s c)
  let writers := (c.dirty.map (·.1)).foldl addNew ([] : List TaskId)
  let s := writers.foldl (fun s t => failTask s t stStateLost) s
  (c.pins.filter fun t => !(t ∈ writers)).foldl (fun s t => match graphOf s t.graph, taskOf s t with
    | some g, some k => if k.st = .issued then lostTask s t (restarts s g k) else s
    | _, _ => s) s

/-- The undrained units of a share of the write buffer are lost (R345): their map entries are poisoned unless a later write holds
them. -/
def loseShare (s : State) (n : Nat) : State :=
  let gone := s.port.wb.filter fun u => u.stack == n && !u.draining
  if (nth s.boot.image.regions n (0, 0, 0, 0)).2.2.1 = 0 then s
  else
    let s := { s with port := { s.port with wb := s.port.wb.filter fun u => !(u.stack == n && !u.draining), degraded := true } }
    let s := gone.foldl (fun s u => match lbaUnit s u.lba with
      | some (c, x) => if s.port.wb.any fun w => w.lba == u.lba then s
          else updChan s c fun ch => { ch with map := tput ch.map (unitKey 0 x) mapPoison }
      | none => s) s
    wake (asyncEvent (postEvent s 1 (.stack n) 2 gone.length 0))

/-- The map segments of a stack are rebuilt into other shares; one for which no share has room stays unloaded (R292). -/
def loseSegs (s : State) (n : Nat) : State :=
  let l := tget s.ftl.segs n
  let s := l.foldl placeSeg { s with ftl := { s.ftl with segs := tdel s.ftl.segs n } }
  { s with ftl := { s.ftl with reloading := s.ftl.reloading ++ l.filter fun x => !decide (x ∈ s.ftl.unloaded) } }

/-- Migrations that a stack's failure ends (R224, R237): with the old copy or the hold list the waiting SCATTERs' updates are lost; a
migration into the stack is abandoned, the updates applied to the old copy. -/
def loseMigs (s : State) (n : Nat) : State :=
  let dead (m : Migration) : Bool := m.holdStack == n || (objOf s m.pen m.object).any (·.lost)
  (s.migs.filter fun m => m.move.stack == n || dead m).foldl (fun s m =>
    let s := if dead m then dropMig s m stStateLost else dropMig (applyOld s m) m stSuccess
    if m.move.stack = n then updQuad s m.quad fun q => { q with migAbandoned := satAdd 16 q.migAbandoned 1 } else s) s

/-- A stack lost (R237, R440). -/
def loseStack (s : State) (n : Nat) : State :=
  let readers := stackReaders s n
  let req := stateIn s n
  let near := (stackOf s n).nbuTask
  let objs := objsIn s n
  let s := { s with topo := { s.topo with stackOk := s.topo.stackOk &&& ~~~ (1#20 <<< n) } }
  let s := loseScratch s (inStack n)
  let s := objs.foldl (fun s x => updObj s x.1 x.2 fun o => { o with lost := true }) s
  let s := (readers ++ req).foldl (fun s t => failTask s t stStateLost) s
  let s := objs.foldl (fun s x => failCommits s x.1 x.2 stStateLost) s
  let s := (s.drover.copies.filter fun c => c.stack == n).foldl loseCopy s
  let s := match near with
    | some t => (match graphOf s t.graph, taskOf s t with
      | some g, some k => if k.st = .issued then lostTask s t (restarts s g k) else s
      | _, _ => s)
    | none => s
  loseMigs (loseSegs (loseShare s n) n) n

/-! Quads (R440, R278). -/

/-- Lines of a quad's stacks leave the agents, and messages about them are gone with the slice. -/
def loseSlice (s : State) (q : Nat) : State :=
  { s with coh := { keepMsgs s.coh (fun m => sliceNo m.line != q) with
      slices := tdel s.coh.slices q
      agents := tmap s.coh.agents fun _ a => { a with
        lines := tfilter a.lines fun l _ => sliceNo l != q, parked := a.parked.filter fun x => sliceNo x.1 != q
        collects := a.collects.filter fun c => sliceNo c.line != q } } }

/-- A quad lost: its tiles, its stacks, its slice. -/
def loseQuad (s : State) (q : Nat) : State :=
  let tiles := tilesOf s q
  let stks := stacksOf s q
  let s := { s with topo := { s.topo with quadOk := s.topo.quadOk &&& ~~~ (1#4 <<< q) } }
  let s := tiles.foldl loseTile s
  let s := stks.foldl loseStack s
  loseSlice (updQuad s q fun x => { x with quadSel := [], streamSel := [], selLists := [], resident := [], rowCache := [] }) q

/-! Flash channels and targets (R309, R306). -/

/-- An owner's unit on a lost channel ends with UNIT_LOST. -/
def ownerLost (s : State) (o : Owner) (lba : Nat) : State := ownerStep s o lba stUnitLost

/-- A flash-resident walk on a lost channel: UNIT_LOST when it still needs a page there, STATE_LOST when only its state was there
(R72, R74, R309). -/
def walkLoss (c : Nat) (k : Task) : Nat := match k.run with
  | .walk w => match tget? w.engines c with
    | some e =>
      if !e.todo.isEmpty || !e.hops.isEmpty || !e.pend.isEmpty then stUnitLost
      else if !e.expanded.isEmpty || !e.scored.isEmpty then stStateLost
      else 0
    | none => 0
  | _ => 0

/-- Flash-resident indexes that use a channel (R77): pen and object. -/
def indexesOn (s : State) (c : Nat) : List (Nat × Nat) := s.pens.flatMap fun p => p.2.objects.filterMap fun o => match o.2.kind with
  | .index x => if x.desc.flash && x.desc.channelMask.getLsbD c then some (p.1, o.1) else none
  | _ => none

/-- Tasks of the lost channel: FLASH tasks queued on its engine, and walks. -/
def chanTasks (s : State) (c : Nat) : List (TaskId × Nat) := ((allTasks s).filter fun x => x.2.2.st == .issued).filterMap fun x =>
  if x.2.2.unitKind = 2 ∧ x.2.2.unitNo = c then some (x.1, stUnitLost)
  else let st := walkLoss c x.2.2
    if st = 0 then none else some (x.1, st)

/-- A channel engine lost (R309): its targets are out of reach, what it staged is lost; the media keep their contents. -/
def loseEngine (s : State) (c : Nat) : State :=
  let ch := chanOf s c
  let staged := (ch.page ++ ch.ops.flatMap fun o => o.sectors).filter fun x => x.1.kind == 0
  let reads := ch.ops.flatMap fun o => match o.purpose with
    | .io w => if o.kind = 0 then o.units.map fun u => (w, u.2.1) else []
    | _ => []
  let mine (lba : Nat) : Bool := (lbaUnit s lba).any fun x => x.1 == c
  let waits := s.port.wbWait.filter fun w => w.units.any fun u => mine u.lba
  let s := updChan s c fun ch => { ch with
    usable := false, rebuilt := false, rebuilding := false, targets := [], page := [], ops := [], jstage := [], jpages := [], moves := []
    collecting := [], ckptBusy := none }
  let s := { s with port := { s.port with
    wb := s.port.wb.filter fun u => !mine u.lba, wbWait := s.port.wbWait.filter fun w => !(w.units.any fun u => mine u.lba) } }
  let s := staged.foldl (fun s x => ownerLost s x.2 (unitLba s c x.1.unit)) s
  let s := reads.foldl (fun s x => ownerLost s x.1 (unitLba s c x.2)) s
  let s := waits.foldl (fun s w => ownerDone s w.owner stUnitLost) s
  let s := (chanTasks s c).foldl (fun s x => failTask s x.1 x.2) s
  let s := (indexesOn s c).foldl (fun s x => failCommits s x.1 x.2 stUnitLost) s
  let s := declareDead s (64 + c)
  settleOrdered (wake s) (orderedCount s)

/-- Read operations on a target that no longer answers: every unit fails to decode at every step (R300). -/
def failReads (s : State) (c : Nat) (ops : List FlashOp) : State :=
  ops.foldl (fun s o => iter 8 (fun s => resOr (execPageReadDone c o.num [] s) s) s) s

/-- A flash target lost (R306): its operations fail, its blocks are retired, entries into it poisoned. -/
def loseTargetUnit (s : State) (c t : Nat) : State :=
  let p := profOf s c
  let mine := (chanOf s c).ops.filter fun o => lunTarget p o.lun == t
  let s := updChan s c fun ch => { ch with targets := without ch.targets t }
  let s := failReads s c (mine.filter fun o => o.kind == 0)
  let s := (mine.filter fun o => o.kind == 1).foldl (fun s o => resOr (execProgramDone c o.num false s) s) s
  let s := (mine.filter fun o => o.kind == 2).foldl (fun s o => resOr (execEraseDone c o.num false s) s) s
  checkReadOnly (updChan s c fun ch => loseTarget p ch t) c

/-! DMA channels and near-bank units (R388, R253). -/

/-- Tasks on a Drover DMA channel. -/
def dmaTasks (s : State) (n : Nat) : List TaskId := ((allTasks s).filter fun x =>
  x.2.2.st == .issued && x.2.2.typ == 0x04 && x.2.2.unitNo == n).map (·.1)

/-- A SCATTER whose tile is lost before its command has come: whether it had begun is a free value; then its rows may hold part of its
updates, free values here, and it ends with UNIT_LOST (R218, log 157). -/
def loseScatter (s : State) (t : TaskId) (g : Graph) (k : Task) : State :=
  let r := drawTag s
  if Config.freeBool r.1 then
    failTask (spoilRows r.2 g k) t stUnitLost
  else lostTask r.2 t false

/-- Tasks issued again, or ended, as R72 and R73 state. -/
def relaunch (s : State) (l : List TaskId) : State := l.foldl (fun s t => match graphOf s t.graph, taskOf s t with
  | some g, some k =>
    if scratchGone s g k then failTask s t stStateLost
    else if k.typ = 0x19 ∧ k.sub ≤ 1 ∧ k.st = .issued ∧ k.run = .none then loseScatter s t g k
    else lostTask s t (restarts s g k)
  | _, _ => s) s

/-- A DMA channel out of service with its work (R388). -/
def loseDmaUnit (s : State) (n : Nat) : State :=
  let l := if n < s.drover.dmaCh then dmaTasks s n else []
  fenceIfBare (relaunch (loseDma s n) l)

/-- DMA_TEST_DONE (R388): TEST clears; a failing channel leaves service. -/
def execDmaTestDone (channel : Nat) (failed : Bool) (s : State) : Res :=
  let d := dmaOf s channel
  if !(d.testing || (d.testWanted && dmaQuiet d)) then .next s
  else
    let s := updDma s channel fun d => { d with testing := false, testWanted := false }
    .next (if failed then loseDmaUnit s channel else s)

/-- A near-bank unit out of service with the sequence that runs there (R253). -/
def loseNearBank (s : State) (n u : Nat) : State :=
  let near := (tget (stackOf s n).units u).running
  let s := loseUnit s n u
  match near with
  | some t => (match running s t 0x0C (some 0) with
    | some (g, k) => (match nbuProg s g k with
      | (some p, _) => lostTask s t (nbuRestart k p)
      | _ => lostTask s t false)
    | none => s)
  | none => s

/-- A matrix array out of service with the task that holds it (R180, R179). -/
def loseArray (s : State) (t a : Nat) : State :=
  let holder := (arrOf s t a).holder
  let s := arrayOut s t a
  match holder with
  | some h => relaunch s [h]
  | none => s

/-- A Flue port down for good (R440): messages go on by the other port of their routes. -/
def losePort (s : State) (p : Nat) : State :=
  flushOutbox ({ dropPort s p 0 with flue := { (dropPort s p 0).flue with
    ports := tupd (dropPort s p 0).flue.ports p fun x => { x with dead := true } } })

/-! Die-to-die modules (R29, R31). -/

/-- A module taken down (R31): its pair keeps the list it had until it has drained. -/
def downModule (s : State) (m : Nat) : State :=
  let pair := pairOf m
  { s with topo := { s.topo with
      d2dList := tput s.topo.d2dList pair (inUse s pair)
      d2dDown := s.topo.d2dDown ++ [m], d2dDraining := addNew s.topo.d2dDraining pair
      d2dFlight := tput s.topo.d2dFlight pair (inFlight s pair) } }

/-! A unit leaves service (R440). -/

/-- The loss itself, its record posted by the caller where the operation posts none. -/
def loseOne (s : State) (u : HwUnit) : State := match u with
  | .tile t => loseTile s t
  | .array t a => loseArray s t a
  | .quad q => loseQuad s q
  | .stack n => loseStack s n
  | .nearBank n x => loseNearBank s n x
  | .engine c => loseEngine s c
  | .target c t => loseTargetUnit s c t
  | .dma n => loseDmaUnit s n
  | .fluePort p => losePort s p
  | .d2d m => downModule s m
  | .domain _ => s

/-- Units whose loss posts its own record. -/
def postsOwn (u : HwUnit) : Bool := match u with
  | .array _ _ => true
  | .nearBank _ _ => true
  | .dma _ => true
  | _ => false

/-- Units lost together: a record for each, then the losses (R440, R448). -/
def loseUnits (s : State) (l : List HwUnit) : State :=
  let up := l.filter (unitUp s)
  let s := postLosses s 1 ((up.flatMap withUnit).filter fun u => unitUp s u && !postsOwn u)
  let s := up.foldl (fun s u => if unitUp s u then loseOne s u else s) s
  if up.isEmpty then s else fenceIfBare s

/-- A domain exhausted (R443, R439, R441): UNIT faults of its functions, a NODE fault, or the end of recording. It switches off. -/
def exhaust (s : State) (d : Nat) : State :=
  if coreDomains.getLsbD d then fenceNode s 3 (decide (d = domSEC ∨ d = domHX))
  else
    let s := loseUnits s (domainUnits s.boot.image d)
    let s := if d = domTRC then { s with trace := { s.trace with recording := false, broken := true } } else s
    { s with power := { s.power with on := s.power.on &&& ~~~ (1#20 <<< d) } }

/-- A module down; the quad whose every hub module is lost goes with them (R31, R439). -/
def moduleDown (s : State) (m : Nat) : State :=
  let s := loseUnits s [.d2d m]
  if m < 16 ∧ (pairUp s.topo.d2dDown (m / 4)).isEmpty then loseUnits s [.quad (m / 4)] else s

/-- UNIT_FAULT (R440). Of a domain it is its exhaustion (R443), of a module its taking down (R31). -/
def execUnitFault (u : HwUnit) (s : State) : Res :=
  if !unitUp s u then .next s
  else match u with
    | .domain d => .next (exhaust s d)
    | .d2d m => .next (moduleDown s m)
    | u => .next (loseUnits s [u])

/-- NODE_FAULT (R442). -/
def execNodeFault (cause : Nat) (canDrain : Bool) (s : State) : Res :=
  actWhen ((s.power.on &&& coreDomains) == coreDomains && decide (1 ≤ cause ∧ cause ≤ 6)) s (fenceNode s cause canDrain)

/-- DIE_TO_DIE_MODULE_DOWN (R31). -/
def execDieToDieModuleDown (module : Nat) (s : State) : Res :=
  actWhen (unitUp s (.d2d module) && domainOn s domSPN) s (moduleDown s module)

/-- Whether a pair's modules have delivered every message that they had accepted before the change of its list (R31). -/
def drained (s : State) (pair : Nat) : Bool :=
  !(tget s.topo.d2dFlight pair).any fun n => decide (n ∈ s.coh.net.map (·.num))

/-- ROUTE_LIST_RESUME (R31): the pair goes on with its new list, and takes the messages held for it. -/
def execRouteListResume (pair : Nat) (s : State) : Res :=
  actWhen (decide (pair ∈ s.topo.d2dDraining) && drained s pair) s
    (resend { s with topo := { s.topo with
        d2dDraining := without s.topo.d2dDraining pair, d2dFlight := tdel s.topo.d2dFlight pair
        d2dList := tput s.topo.d2dList pair (pairUp s.topo.d2dDown pair) } })

/-- Redundant lanes in use in a direction of a module (R28). -/
def sparesUsed (s : State) (module : Nat) (back : Bool) : Nat := tgetD s.topo.d2dSpares (2 * module + b2n back) 0

/-- LANE_FAILURE (R31, R28): a lane is repaired from a redundant one, four in each direction of a module; with none left the module
is taken down. -/
def execLaneFailure (x : Lanes) (s : State) : Res :=
  actWhen (unitUp s (.d2d x.module) && domainOn s domSPN) s
    (if sparesUsed s x.module x.back < 4 then
      { s with topo := { s.topo with
          d2dSpares := tput s.topo.d2dSpares (2 * x.module + b2n x.back) (sparesUsed s x.module x.back + 1) } }
    else moduleDown s x.module)

/-! The end of a sweep (R275). -/

/-- Orphans whose dead units' sweeps have all ended. -/
def sweptTasks (s : State) : List TaskId := ((allTasks s).filter fun x => x.2.2.orphan && x.2.2.st == .issued &&
  !(s.coh.toSweep.any fun a => decide (a < 64) && decide (x.1 ∈ (tileOf s a).tasks))).map (·.1)

/-- An agent's dead bit set (DIR_DEAD0, DIR_DEAD1). -/
def markDead (s : State) (a : Nat) : State :=
  if a < 64 then { s with coh := { s.coh with deadTiles := s.coh.deadTiles ||| (1#64 <<< a) } }
  else if a < 96 then { s with coh := { s.coh with deadEngines := s.coh.deadEngines ||| (1#32 <<< (a - 64)) } }
  else { s with coh := { s.coh with deadHost := true } }

/-- RECLAIM_SWEEP_DONE (R275): every slice has swept; the Drover issues the lost unit's tasks again, as R72 and R73 allow. -/
def execReclaimSweepDone (s : State) : Res :=
  match s.coh.toSweep with
  | [] => .next s
  | a :: rest =>
    if !s.coh.sweeping then .next s
    else
      let s := markDead { s with coh := { s.coh with toSweep := rest, sweeping := false } } a
      .next (relaunch s (sweptTasks s))

/-- QUALIFICATION_END (R393, R439): UP when no block was discarded and the corrected symbols number at most 2^QUAL; else TRAINING, and
the sixteenth failure in a row is a UNIT fault of the port. -/
def execQualificationEnd (port corrected discarded : Nat) (s : State) : Res :=
  if (portOf s port).st ≠ 2 then .next s
  else
    let s := updPort s port fun x => { x with
      corrSym := wrapAdd 32 x.corrSym corrected, blockDrop := satAdd 16 x.blockDrop discarded }
    if discarded = 0 ∧ corrected ≤ 2 ^ s.flue.qual then
      .next (flushOutbox (updPort s port fun x => { x with
        st := 3, cred0 := 256, cred1 := 256, expSeq := 0, sendSeq := 0, rx := [], tx := [], unacked := [], asm0 := [], asm1 := []
        lastAsk := none, askCount := 0, asked := false, freed0 := 0, freed1 := 0, failedQual := 0 }))
    else
      let s := updPort s port fun x => { x with st := 1, failedQual := x.failedQual + 1 }
      .next (if 16 ≤ (portOf s port).failedQual then loseUnits s [.fluePort port] else s)

/-! The end of a task (R60, R67), and what its tile's SRAM showed meanwhile (R437). -/

/-- Words of its tile's SRAM that a task read in error: those with a double-bit error, or those corrected. Each is the byte offset of a
64-bit word in the SRAM. -/
def sramWords (k : Task) (two : Bool) (sram : List (Nat × Bool)) : List Nat :=
  if k.unitKind = 1 then (sram.filter fun x => x.2 == two).map fun x => k.unitNo * 2 ^ 32 + x.1 % 2 ^ 32 / 8 * 8 else []

/-- The errors counted; a word with a double-bit error is poisoned, with a DATA record (R437). -/
def noteSram (s : State) (k : Task) (sram : List (Nat × Bool)) : State :=
  let one := sramWords k false sram
  let two := sramWords k true sram
  let s := if one.isEmpty then s else updTile s k.unitNo fun x => { x with corrected := x.corrected + one.length }
  two.foldl (fun s w => postEvent
    (updTile s k.unitNo fun x => { x with dataErrs := x.dataErrs + 1, sramPoison := addNew x.sramPoison w }) 1 (.tile k.unitNo) 2 (w % 2 ^ 32) 0) s

/-- Whether the errors are a UNIT fault of the tile: a second double-bit error within 2^46 hub control cycles, of the last one before
(soon), or of this task's own. -/
def sramFault (s : State) (k : Task) (sram : List (Nat × Bool)) (soon : Bool) : Bool :=
  let n := (sramWords k true sram).length
  decide (2 ≤ n) || (n == 1 && soon && decide (0 < (tileOf s k.unitNo).dataErrs))

/-- A task that read a word with a double-bit error: MEDIA_ERROR, its outputs unpredictable (R437). -/
def spoiltBySram (s : State) (t : TaskId) (g : Graph) (k : Task) (sram : List (Nat × Bool)) : State :=
  if (sramWords k true sram).isEmpty || isFailure k.status then s
  else
    let s := (outputs s g k).foldl (fun s o => smudgeOp s g.pen (some g) o.1 0 o.2) s
    modTask s t fun k => { k with status := stMediaError, result := 0 }

/-- The status of a task that its unit has finished, with what its tile's SRAM showed. -/
def lastStatus (s : State) (g : Graph) (k : Task) (sram : List (Nat × Bool)) : Nat :=
  if (sramWords k true sram).isEmpty || isFailure (endStatus s g k) then endStatus s g k else stMediaError

/-- TASK_COMPLETE (R60, R67, R437): the task's unit has finished it, its writes are performed and its copies are written back; charges
are settled for the cycles its unit was held, edges satisfied. A peer's query is answered (R406). -/
def execTaskComplete (t : TaskId) (x : TaskEnd) (s : State) : Res :=
  match graphOf s t.graph, taskOf s t with
  | some g, some k =>
    actWhen (k.st == .finished && !writesLeft s t && !writesOpen s t) s
      (let u := spoiltBySram (noteSram s k x.sram) t g k x.sram
      let u := sendAnswers (endTask (forgetWrites (smudgeClashes u t g k) t) t (lastStatus s g k x.sram) (usedAll s g k x.cycles))
      if sramFault s k x.sram x.soon then loseUnits u [.tile k.unitNo] else u)
  | _, _ => .next s

end Sys2Proof.Machine
end

