-- ==== Sys2Proof/Machine/Health.lean ====
section
/-!
DEFINITION. Scores (R438), guard bands and frequency bins (R443, R444), stack retraining (R445), and the latches that software clears
(R15, R239, R277).
-/

namespace Sys2Proof.Machine

/-! Scores (R438). -/

/-- The unit at a position of the table of R449. -/
def scoreUnit (i : Nat) : HwUnit :=
  if i < 64 then .tile i else if i < 68 then .quad (i - 64) else if i < 88 then .stack (i - 68)
  else if i < 120 then .engine (i - 88) else .fluePort (i - 120)

/-- A unit's guard band, and its bin or PHY rate (R438): those of its domain. -/
def scoreMargin (s : State) (u : HwUnit) : Nat × Nat :=
  let gb (d : Nat) : Nat := tgetD s.health.gb d 0
  let bin (d : Nat) : Nat := tgetD s.health.bin d 0
  match u with
  | .tile t => (gb (t / 16), bin (t / 16))
  | .quad q => (gb q, bin q)
  | .stack n => (gb (domM n), (stackOf s n).phyRate)
  | .engine c => (gb (domF (c / 8)), 0)
  | .fluePort p => (gb (domFL p), 0)
  | _ => (0, 0)

/-- A channel's wear: erases of its blocks, and its Ashpit. -/
def scoreWear (s : State) (u : HwUnit) : Nat := match u with
  | .engine c => sumBy (fun b => b.2.native + b.2.pslcErases) (chanOf s c).media.blocks + (chanOf s c).ashpit.length
  | _ => 0

/-- One score by the firmware's formula; the counts of the last 24 windows are free values (log 1). -/
def scoreOf (s : State) (tag : Nat) (u : HwUnit) : Nat :=
  min 100 (Config.scoreFormula (hwUnitCode u).1 (hwUnitCode u).2 (Config.freeWord tag).toNat (Config.freeWord (tag + 1)).toNat
    (scoreMargin s u).1 (scoreMargin s u).2 (scoreWear s u))

/-- SCORE_RECOMPUTE (R438): every unit's score and the node's. -/
def execScoreRecompute (s : State) : Res :=
  let n := s.nfree
  let scores := (List.range 128).map fun i => (i, if scoreUsable s i then scoreOf s (n + 2 * i) (scoreUnit i) else 0)
  let node := min 100 (Config.scoreFormula 0 0 (Config.freeWord (n + 256)).toNat (Config.freeWord (n + 257)).toNat 0 0 0)
  actWhen s.boot.ready s { s with nfree := n + 258, health := { s.health with scores := scores, nodeScore := node } }

/-! Guard bands and bins (R443, R444). -/

/-- Whether a domain has a lower bin left: only Q domains have bins, 0 to 4. -/
def binLeft (s : State) (d : Nat) : Bool := decide (d < 4) && decide (tgetD s.health.bin d 0 < 4)

/-- GB and bin, as an event's detail (R448). -/
def marginDetail (s : State) (d : Nat) : Nat := tgetD s.health.gb d 0 + 65536 * tgetD s.health.bin d 0

/-- A guard band raised by one step, with its event record. -/
def raiseGb (s : State) (d : Nat) : State :=
  let s := { s with health := { s.health with
    gb := tput s.health.gb d (tgetD s.health.gb d 0 + 5), raises := tput s.health.raises d (satAdd 16 (tgetD s.health.raises d 0) 1) } }
  postEvent s 2 (.domain d) 1 (marginDetail s d) 0

/-- A bin lowering begun: the Drover places no work on the quad's tiles (R444). -/
def startBin (s : State) (d : Nat) : State :=
  updQuad s d fun q => if q.binStage = 0 then { q with binStage := 1, binNext := tgetD s.health.bin d 0 + 1 } else q

/-- One domain's evaluation: the first row of R443 that applies. -/
def evaluateDomain (s : State) (d min_ : Nat) : State :=
  let s := { s with health := { s.health with minSlack := tput s.health.minSlack d min_ } }
  let gb := tgetD s.health.gb d 0
  if min_ < 8 ∧ 75 ≤ gb ∧ binLeft s d = false then exhaust s d
  else if min_ < 20 ∧ gb < 75 then raiseGb s d
  else if min_ < 20 ∧ binLeft s d = true then startBin s d
  else s

/-- MARGIN_EVALUATION (R443): every domain that is on, in domain order. -/
def execMarginEvaluation (mins : List Nat) (s : State) : Res :=
  actWhen (s.boot.ready && mins.length == 20) s
    ((List.range 20).foldl (fun s d => if s.power.on.getLsbD d then evaluateDomain s d (nth mins d 0) else s) s)

/-- Whether a walk on a tile of a quad is within a round (R444): a flash-resident one, whose engines still owe it pages or hops. -/
def inRound (s : State) (quad : Nat) : Bool := (allTasks s).any fun x =>
  x.2.2.st == .issued && x.2.2.unitKind == 1 && quadOfTile x.2.2.unitNo == quad && (match x.2.2.run with
    | .walk w => w.roundOpen && !roundDone w
    | _ => false)

/-- BIN_QUIESCE_DONE (R444): the quad's work stands still, every walk between two rounds; its tile PLL relocks. -/
def execBinQuiesceDone (quad : Nat) (s : State) : Res :=
  actWhen (decide (quad < 4) && (quadOf s quad).binStage == 1 && !inRound s quad) s (updQuad s quad fun q => { q with binStage := 2 })

/-- PLL_RELOCK_DONE (R444): work resumes at the lower bin, in the cycle in which TILE_MHZ changes. -/
def execPllRelockDone (quad : Nat) (s : State) : Res :=
  let b := (quadOf s quad).binNext
  actWhen (decide (quad < 4) && (quadOf s quad).binStage == 2) s
    (let s := updQuad s quad fun q => { q with binStage := 0, tileMhz := binMhz b }
    let s := { s with health := { s.health with bin := tput s.health.bin quad b } }
    postEvent s 2 (.domain quad) 2 (marginDetail s quad) 0)

/-! Stack retraining (R445). -/

/-- Whether a stack's temperature has moved by 10 °C since its last training. -/
def tempMoved (s : State) (n : Nat) : Bool :=
  let t := tgetD s.power.stackTemp n 0
  let u := (stackOf s n).trainedTemp
  decide (u + 10 ≤ t ∨ t + 10 ≤ u)

/-- PHY_RETRAIN (R445): an eye margin below 15 per cent, or a move of 10 °C. -/
def execPhyRetrain (stack margin : Nat) (s : State) : Res :=
  actWhen (stackUsable s stack && (decide (margin < 15) || tempMoved s stack) && !(stackOf s stack).retraining) s
    (updStack s stack fun x => { x with retraining := true, eye := margin })

/-- A stack after a retraining that reached a margin: the rate is kept, or lowered where it is not the lowest. -/
def trained (s : State) (n margin : Nat) : Stack :=
  let x := stackOf s n
  { x with
    retraining := false, retrains := satAdd 16 x.retrains 1, eye := margin, trainedTemp := tgetD s.power.stackTemp n 0
    phyRate := if 15 ≤ margin then x.phyRate else min 2 (x.phyRate + 1) }

/-- PHY_RETRAIN_DONE (R445): a retraining that cannot reach 15 per cent lowers the PHY rate; at 6.4 Gb/s it is a UNIT fault. -/
def execPhyRetrainDone (stack margin : Nat) (s : State) : Res :=
  let x := stackOf s stack
  if !x.retraining then .next s
  else
    let t := postEvent (updStack s stack fun _ => trained s stack margin) 2 (.stack stack) 3 margin (trained s stack margin).phyRate
    if 15 ≤ margin then .next t
    else if x.phyRate < 2 then .next (postEvent t 2 (.stack stack) 4 margin (x.phyRate + 1))
    else .next (loseUnits t [.stack stack])

/-! Latches (R15). -/

/-- POISON_LATCH_CLEAR: MEM_POISON.VALID of the selected stack clears, unless a line is poisoned in the same cycle. -/
def execPoisonLatchClear (sameCycle : Option Nat) (s : State) : Res :=
  let n := s.stackSel
  if !s.boot.ready ∨ 20 ≤ n then .next s
  else
    let t := updStack s n fun x => { x with poisonValid := false }
    match sameCycle with
    | none => .next t
    | some l => if stackUsable s n && decide (l < stackBytes / line) then .next (postEvent (poisonLine t (dpa n (l * line))) 1 (.stack n) 1 l 0)
      else .next t

/-- RECLAIM_LATCH_CLEAR: DIR_RECLAIM.VALID clears, unless a line is lost in the same cycle (R277). -/
def execReclaimLatchClear (sameCycle : Option Nat) (s : State) : Res :=
  if !s.boot.ready then .next s
  else
    let t := { s with coh := { s.coh with reclaimValid := false } }
    match sameCycle with
    | none => .next t
    | some l => if isLine l then .next (loseLine t l) else .next t

end Sys2Proof.Machine
end

