-- ==== Sys2Proof/Machine/Power.lean ====
section
/-!
DEFINITION. The module's pins, input power, rails and sensors (18): turn-on and loss of power (R460, R465), RESET_N, PROG_EN and PERST
(R459), rail faults (R463), thermal limits (R468) and the input-power throttle (R461).
-/

namespace Sys2Proof.Machine

/-- Whether the module's pins let a start begin (R459, R465). -/
def released (p : Power) : Bool := p.vin && p.resetN && !p.progEn

/-- The output pins (R459): PWR_GOOD while every domain that the image enables is on (before an image is loaded, the domains of step 1
of R465), READY as CFG_STAT.READY, FAULT_N as its level, true for high. -/
def pinPwrGood (s : State) : Bool :=
  let want := if 3 ≤ s.boot.phase && s.boot.loaded then coreDomains ||| s.boot.image.domains else coreDomains
  (s.power.on &&& want) == want
def pinReady (s : State) : Bool := s.boot.ready
def pinFaultN (s : State) : Bool := !s.power.faultN

/-- TURN_ON (R460, R465): VIN has held; with RESET_N and PROG_EN released the first domains switch on and a start begins. -/
def execTurnOn (s : State) : Res :=
  let t := { s with power := { s.power with vin := true } }
  actWhen (!s.power.vin) s (if released t.power then startNode t 0 else t)

/-- LOSS_OF_POWER (R460, R466): every rail falls; the flash media and the configuration flash stay. -/
def execLossOfPower (s : State) : Res :=
  let t := offState s
  .next { t with power := { t.power with vin := false, faultN := false } }

/-- RESET_N held low (R459): power is removed from every domain. -/
def execResetN (s : State) : Res :=
  let t := offState s
  .next { t with power := { t.power with resetN := false } }

/-- PROG_EN high (R459): the module holds itself as with RESET_N low. -/
def execProgEn (s : State) : Res :=
  let t := offState s
  .next { t with power := { t.power with progEn := true } }

/-- RESET_N_HIGH (R459, R465): RESET_N goes high after it was held low, or PROG_EN goes low; with VIN present a start begins. -/
def execResetNHigh (s : State) : Res :=
  let t := { s with power := { s.power with resetN := true, progEn := false } }
  actWhen (!s.power.resetN || s.power.progEn) s (if s.power.vin then startNode t 1 else t)

/-- PERST (R459, R322): a link-down of its port; the node is not reset. -/
def execPerst (portB : Bool) (s : State) : Res := actWhen (hostPortOn s) s (linkDown s portB)

/-- RAIL_FAULT (R463): the domain switches off, its fault bit is set, and it is handled as exhausted. -/
def execRailFault (domain : Nat) (s : State) : Res :=
  let t := exhaust { s with power := { s.power with fault := s.power.fault ||| (1#20 <<< domain) } } domain
  actWhen (decide (domain < 20) && s.power.on.getLsbD domain) s
    { t with power := { t.power with on := t.power.on &&& ~~~ (1#20 <<< domain) } }

/-! Sensors (R468, R461). -/

/-- Whether some die or stack reaches its limit: dies the first, stacks the second. -/
def anyAt (s : State) (die stack : Nat) : Bool :=
  decide (die ≤ s.power.hubTemp) || ((List.range 4).any fun q => decide (die ≤ tgetD s.power.quadTemp q 0)) ||
    (List.range 20).any fun n => decide (stack ≤ tgetD s.power.stackTemp n 0)

/-- Whether throttling begins or goes on (R461, R468): it ends when every sensor is 5 °C below its throttle limit and the input power
is at or below 1,750 W. -/
def throttles (s : State) : Bool :=
  anyAt s 105 95 || decide (1750 < s.power.watts) || (s.power.hot && anyAt s 101 91)

/-- The throttle flags after a sample. -/
def setThrottle (s : State) : State :=
  { s with power := { s.power with hot := throttles s, pcap := decide (1750 < s.power.watts) } }

/-- The samples stored, and HOT of each stack: refresh doubles from 85 °C (R250). -/
def storeTemps (s : State) (quads : List Nat) (hub : Nat) (temps : List Nat) : State :=
  let s := { s with power := { s.power with
    quadTemp := (List.range 4).map fun q => (q, nth quads q 0)
    hubTemp := hub, stackTemp := (List.range 20).map fun n => (n, nth temps n 0) } }
  (List.range 20).foldl (fun s n => updStack s n fun x => { x with hot := decide (85 ≤ nth temps n 0) }) s

/-- Every domain off but HUB, SPN, SEC and HX, with what stood in them (R466, R468). -/
def darken (s : State) : State :=
  { s with
    power := { s.power with on := s.power.on &&& coreDomains }
    topo := { s.topo with quadOk := 0, stackOk := 0, tileOk := 0 }
    ftl := { s.ftl with chans := tmap s.ftl.chans fun c ch => bareChan (profOf s c) s.nfree c ch }
    nfree := s.nfree + 1
    flue := { s.flue with ports := tmap s.flue.ports fun _ p => { p with st := 0 } }
    trace := { s.trace with recording := false } }

/-- THERMAL_SAMPLE (R468): HOT, throttle, the trip (a NODE fault, then domains off) and the hard limit (power removed, FAULT_N low). -/
def execThermalSample (quads : List Nat) (hub : Nat) (stackTemps : List Nat) (s : State) : Res :=
  let t := storeTemps s quads hub stackTemps
  if !(s.power.on &&& coreDomains == coreDomains) then .next s
  else if anyAt t 125 115 then
    let o := offState t
    .next { o with power := { o.power with faultN := true } }
  else if anyAt t 115 105 then .next (setThrottle (darken (fenceNode t 6 true)))
  else .next (setThrottle t)

/-- INPUT_POWER_SAMPLE (R461, PWR_IN, PWR_DOM): the 1 ms averages, the highest since start, and the throttle. -/
def execInputPowerSample (vin iin watts : Nat) (domains : List (Nat × Nat)) (s : State) : Res :=
  let t := { s with power := { s.power with
    vinNow := vin, iin := iin, watts := watts, peak := max s.power.peak watts
    rails := (List.range 20).map fun d => (d, nth domains d (0, 0)) } }
  actWhen (s.power.on &&& coreDomains == coreDomains) s (setThrottle t)

end Sys2Proof.Machine
end

