-- ==== Sys2Proof/Machine/Regs.lean ====
section
/-!
DEFINITION. The registers of BAR2 (R12 to R15, R419, R469): what a read of each returns, computed from the state, and
REGISTER_WRITE, which sets the fields that no other command sets. Reads are views and not commands: no row of the table reads.
-/

namespace Sys2Proof.Machine

/-- A register from its fields, lowest first, as (width, value). -/
def packFields : List (Nat × Nat) → Nat
  | [] => 0
  | (w, v) :: r => v % 2 ^ w + 2 ^ w * packFields r

/-- A value held at its field's maximum (saturating fields). -/
def capAt (w v : Nat) : Nat := min v (2 ^ w - 1)

/-- A mask of the numbers below n that satisfy p. -/
def maskNat (n : Nat) (p : Nat → Bool) : Nat := sumBy (fun i => b2n (p i) * 2 ^ i) (List.range n)

/-- `HUB_TOPO` (R38). -/
def hubTopo (s : State) : Nat :=
  packFields [(4, s.topo.quad.toNat), (20, s.topo.stack.toNat), (4, s.topo.chgrp.toNat), (8, s.topo.flue.toNat),
    (1, b2n s.topo.hostSplit), (3, 0), (7, s.topo.tiles), (1, 0), (10, s.topo.targets)]

/-- The index that `HUB_IDX_SEL` names. -/
def selIndex (s : State) : Option (Obj × Index) :=
  (objOf s s.drover.idxPen s.drover.idxObject).bind fun o => match o.kind with
    | .index x => some (o, x)
    | _ => none

/-- Block `HUB_` (01, 02, 05, 06, 08). -/
def readHub (s : State) (off : Nat) : Nat :=
  let d := s.drover
  match off with
  | 0x010 => hubTopo s
  | 0x100 => packFields [(18, slotsUsed d.graphs), (15, d.graphs.length),
      (1, b2n (s.port.ctls.any fun c => c.2.sqs.any fun q => !q.2.submits.isEmpty)), (20, edgesUsed d.graphs)]
  | 0x108 => packFields [(32, capAt 32 d.reissues), (32, capAt 32 d.abandoned)]
  | 0x110 => packFields [(7, d.dmaCh), (1, 0), (8, d.bgShare)]
  | 0x200 => packFields [(15, d.idxObject), (8, d.idxPen)]
  | 0x208 => match selIndex s with
    | some (o, x) => packFields [(48, x.latest), (5, x.held), (1, 1), (1, b2n x.mirrorLost), (1, b2n x.sweep.isSome),
        (1, b2n x.target), (1, b2n o.lost)]
    | none => 0
  | 0x210 => match selIndex s with
    | some (_, x) => packFields [(40, (liveSlots x.work).length)]
    | none => 0
  | 0x218 => match selIndex s with
    | some (_, x) => packFields [(40, ((tombSlots x.work).filter fun n => !(x.freed.any fun f => f.1 == n)).length)]
    | none => 0
  | 0x300 =>
    let arrs := (List.range 64).flatMap fun t => if tileUsable s t then (tileOf s t).arrs.filter (·.inService) else []
    packFields [(14, sumBy (fun a => goodCols a 0 32) arrs), (9, arrs.length)]
  | 0x400 => packFields [(5, d.mdlPart), (3, 0), (4, d.mdlCache), (4, 0), (16, d.migThresh)]
  | _ => 0

/-- Blocks `CFG_` and `SEC_` (16). -/
def readCfg (s : State) (off : Nat) : Nat :=
  let b := s.boot
  let slot (r : SlotReg) : Nat := packFields [(4, r.reason), (4, r.check), (16, r.svn), (8, 0), (32, r.seqLo)]
  match off with
  | 0x00 => packFields [(4, b.phase), (1, b2n b.ready), (1, b.slot), (3, b.reason)]
  | 0x08 => slot b.slotA
  | 0x10 => slot b.slotB
  | 0x18 => b.seqRunning
  | _ => 0
/-- `SEC_STAT` (16). -/
def readSec (s : State) (off : Nat) : Nat :=
  let b := s.boot
  match off with
  | 0x00 => packFields [(1, b2n b.ident), (1, b.idsrc), (1, b2n b.hasAlias), (1, b2n b.session), (1, b2n b.k0.isSome)]
  | _ => 0

/-- Nominal voltage of a domain's first rail in mV (R462). -/
def nominalMv (d : Nat) : Nat := if 4 ≤ d ∧ d ≤ 8 then 1050 else 750

/-- The hottest usable stack, the lowest number first (`PWR_TEMP`). -/
def hottestStack (s : State) : Nat × Nat :=
  ((List.range 20).filter (stackUsable s)).foldl
    (fun b n => let t := tgetD s.power.stackTemp n 0; if b.1 < t then (t, n) else b) (0, 0)

/-- Block `PWR_` (18). -/
def readPwr (s : State) (off : Nat) : Nat :=
  let p := s.power
  match off with
  | 0x00 => packFields [(20, p.on.toNat), (20, p.fault.toNat), (1, b2n p.hot), (1, b2n (p.hot && p.pcap))]
  | 0x08 => packFields [(16, p.vinNow), (16, p.iin), (16, p.watts), (16, p.peak)]
  | 0x10 => packFields [(8, tgetD p.quadTemp 0 0), (8, tgetD p.quadTemp 1 0), (8, tgetD p.quadTemp 2 0),
      (8, tgetD p.quadTemp 3 0), (8, p.hubTemp), (8, (hottestStack s).1), (5, (hottestStack s).2)]
  | 0x18 => p.dsel
  | 0x20 => if 20 ≤ p.dsel then 0 else
      packFields [(12, if p.on.getLsbD p.dsel then nominalMv p.dsel + tgetD s.health.gb p.dsel 0 else 0),
        (16, (tgetD p.rails p.dsel (0, 0)).1), (16, (tgetD p.rails p.dsel (0, 0)).2)]
  | _ => 0

/-- Block `HLT_` (17). -/
def readHlt (s : State) (off : Nat) : Nat :=
  let h := s.health
  match off with
  | 0x00 => packFields [(2, h.st), (6, h.cause), (1, b2n h.drained), (7, 0), (8, h.nodeScore), (8, 0), (32, h.events)]
  | 0x08 => h.msel
  | 0x10 => if 20 ≤ h.msel then 0 else
      packFields [(8, tgetD h.gb h.msel 0), (3, tgetD h.bin h.msel 0), (5, 0), (16, tgetD h.minSlack h.msel 0),
        (16, capAt 16 (tgetD h.raises h.msel 0)), (16, h.gen)]
  | _ => 0

/-- Block `TRC_` (17). -/
def readTrc (s : State) (off : Nat) : Nat :=
  let t := s.trace
  match off with
  | 0x00 => packFields [(1, b2n t.rec_), (1, b2n t.full), (1, b2n t.out_)]
  | 0x08 => packFields [(1, b2n t.go), (1, b2n t.replay)]
  | 0x10 => packFields [(6, t.log), (6, 0), (52, t.addr / 4096)]
  | 0x18 => packFields [(40, t.rprod)]
  | 0x20 => packFields [(40, t.rcons)]
  | 0x28 => packFields [(1, b2n t.recording), (1, b2n t.broken), (1, b2n (t.replay && !t.diverged)), (1, b2n t.diverged),
      (28, 0), (32, capAt 32 t.hostmem)]
  | 0x30 => packFields [(40, t.divergeOff)]
  | _ => 0

/-- Block `HST_` (12). -/
def readHst (s : State) (off : Nat) : Nat :=
  let p := s.port
  match off with
  | 0x00 => packFields [(1, b2n p.upA), (5, p.widthA), (2, p.rateA), (1, b2n p.upB), (5, p.widthB), (2, p.rateB),
      (16, capAt 16 p.downsA), (16, capAt 16 p.downsB)]
  | 0x08 => packFields [(20, p.wbSize), (1, b2n p.wce), (1, b2n p.degraded), (2, 0), (28, p.wb.length)]
  | 0x10 => packFields [(13, sumBy (fun c => c.2.sqs.length) p.ctls), (13, sumBy (fun c => c.2.cqs.length) p.ctls)]
  | 0x18 => packFields [(32, p.cmds), (32, p.wbHits)]
  | _ => 0

/-- Block `PEN_` (13): the pen, bucket and vector that the selectors name. -/
def readPen (s : State) (off : Nat) : Nat :=
  let n := s.penSel
  let p := penOf s n
  let v := tget s.vecs s.vsel
  match off with
  | 0x00 => n
  | 0x08 => packFields [(1, b2n p.alive), (1, b2n p.resetting), (2, p.minClass), (2, p.dclass), (10, 0), (12, p.vectors % 2048),
      (12, p.vbase), (24, p.gen)]
  | 0x10 => packFields [(12, p.queues), (12, p.taskUnits % 2048), (11, p.baleGib), (7, p.poolPct), (11, p.peerCtx)]
  | 0x18 => packFields [(12, sumBy (fun c => if penOfCtl c.1 = n then c.2.sqs.length else 0) s.port.ctls),
      (18, slotsUsed (graphsOfPen s n)), (15, (graphsOfPen s n).length)]
  | 0x20 => packFields [(32, p.bales), (32, (s.drover.copies.filter fun c => c.pen == n).length)]
  | 0x28 => p.winBase
  | 0x30 => p.winLen
  | 0x38 => p.kctr
  | 0x40 => packFields [(16, capAt 16 p.krej)]
  | 0x48 => packFields [(2, s.bselClass), (2, s.bselRes), (12, 0), (16, bktBurst p s.bselClass)]
  | 0x50 => if s.bselRes = 3 then 0 else
      packFields [(48, (bktVal p s.bselClass s.bselRes % (2 ^ 48 : Int)).toNat), (16, bktRate p s.bselClass s.bselRes)]
  | 0x58 => s.vsel
  | 0x60 => packFields [(8, v.thr), (12, v.time), (8, capAt 8 v.pend), (8, v.owner), (1, b2n v.assigned)]
  | 0x68 =>
    let used (f : Pen → Nat) : Nat := sumBy (fun x => reserved f x.2) (alivePens s)
    packFields [(13, 4096 - used (·.queues)), (13, 4096 - used (·.vectors)), (12, (2048 - used (·.taskUnits)) % 2048),
      (11, homeGib s - used (·.baleGib)), (11, 1024 - used (·.peerCtx))]
  | _ => 0

/-- `DMA_CH_` registers of channel n (14); a Drover channel shows its state in STAT and its latch alone. -/
def readDmaChan (s : State) (n off : Nat) : Nat :=
  let d := dmaOf s n
  let drover := decide (n < s.drover.dmaCh)
  match off with
  | 0x00 => packFields [(1, b2n d.en), (1, b2n d.mode), (1, b2n d.ien), (2, 0), (1, b2n d.testWanted), (10, 0), (12, d.vec)]
  | 0x08 => packFields [(2, if !d.inService then 3 else if d.halted then 2 else if d.en && !d.idle then 1 else 0),
      (1, b2n drover), (1, b2n d.testing), (16, d.head), (16, d.cqTail), (1, b2n d.phase),
      (1, b2n (d.en && !d.mode && dmaCqFull d && (d.descs.head?.map (·.fin)).getD false))]
  | 0x10 => d.rbase.toNat
  | 0x18 => d.cqbase.toNat
  | 0x28 => packFields [(16, d.cqhead)]
  | 0x30 => d.errAddr.toNat
  | 0x38 => packFields [(1, b2n d.errValid), (1, b2n d.errWrite), (3, d.errKind), (2, d.errTarget), (1, b2n d.errMulti),
      (16, d.errIndex), (8, d.errPen)]
  | 0x40 => packFields [(32, capAt 32 d.done), (16, capAt 16 d.mismatch), (16, capAt 16 d.skipped)]
  | _ => 0
/-- Block `DMA_` (14). -/
def readDma (s : State) (off : Nat) : Nat :=
  if off = 0 then maskNat 64 fun n => (dmaOf s n).inService
  else if off = 8 then maskNat 64 fun n => (dmaOf s n).halted
  else if 0x1000 ≤ off ∧ off < 0x3000 then readDmaChan s ((off - 0x1000) / 0x80) ((off - 0x1000) % 0x80)
  else 0

/-- Block `FLU_` (15). -/
def readFlu (s : State) (off : Nat) : Nat :=
  let f := s.flue
  let p := tget f.ports f.psel
  let c := tget f.ctxs f.csel
  match off with
  | 0x00 => packFields [(10, f.nodeId), (8, f.peerTmo), (12, f.rto), (5, f.qual), (12, f.mirrorMb)]
  | 0x08 => f.psel
  | 0x10 => packFields [(3, p.st), (2, p.typ), (11, 0), (16, capAt 16 p.drops), (32, p.retries)]
  | 0x18 => packFields [(32, p.corrSym), (16, capAt 16 p.blockDrop), (16, capAt 16 p.crcErr)]
  | 0x20 => f.csel
  | 0x28 => packFields [(2, c.st), (8, c.pen), (10, c.peer), (10, c.pctx), (2, c.cls),
      (16, c.unacked0.length + c.unacked1.length)]
  | 0x30 => f.rsel
  | 0x38 => packFields [(8, tgetD f.routes f.rsel 0)]
  | 0x40 => packFields [(24, capAt 24 f.fwdDrop), (24, capAt 24 f.reject), (16, capAt 16 f.stale)]
  | _ => 0

/-- Mean of a count over blocks, rounded down. -/
def wearMean (f : Block → Nat) (n : Nat) (l : List (Nat × Block)) : Nat := if n = 0 then 0 else sumBy (fun b => f b.2) l / n

/-- Block `FCH_` (11): the selected channel. -/
def readFch (s : State) (off : Nat) : Nat :=
  let c := s.ftl.sel
  let ch := chanOf s c
  let p := profOf s c
  let g := c / 8
  let good := ch.media.blocks.filter fun b => b.2.st != .retired
  match off with
  | 0x00 => c
  | 0x08 => packFields [(1, b2n ch.usable), (1, b2n ch.media.readOnly), (1, b2n (!ch.collecting.isEmpty || ch.moves.any fun m => !m.fold)),
      (1, b2n (ch.moves.any fun m => m.fold)), (5, if ch.usable then ch.targets.length else 0),
      (7, if ch.usable then (lunsOf p ch).length else 0),
      (24, capAt 24 (if ch.usable then sumBy (lunFree p ch) (lunsOf p ch) else 0)),
      (24, sumBy (fun l => (lunKindling p ch l).length) (lunsOf p ch))]
  | 0x10 => packFields [(32, ch.reads), (32, ch.programs)]
  | 0x18 => packFields [(32, ch.erases), (32, ch.retries)]
  | 0x20 => packFields [(16, capAt 16 ch.uncorr), (16, capAt 16 ch.progFail), (16, capAt 16 ch.eraseFail), (16, capAt 16 ch.ashpit.length)]
  | 0x28 => packFields [(16, wearMean (·.native) (usableBlocks p ch) good), (16, (good.map (·.2.native)).foldl max 0),
      (16, wearMean (·.pslcErases) (usableBlocks p ch) good), (16, (good.map (·.2.pslcErases)).foldl max 0)]
  | 0x30 => packFields [(8, tgetD s.ftl.temp g 0), (8, tgetD s.ftl.maxFmt g 0), (8, tgetD s.ftl.maxRst g 0), (1, b2n (s.ftl.slow.getLsbD g))]
  | 0x38 => packFields [(5, s.ftl.histBin), (3, 0), (56, tgetD (tget s.ftl.hist g) s.ftl.histBin 0)]
  | _ => 0

/-- Block `FTL_` (11); the spaces in use are space 0 and those of the stores. -/
def readFtl (s : State) (off : Nat) : Nat :=
  let f := s.ftl
  match off with
  | 0x00 => packFields [(32, maskNat 32 fun c => (chanOf s c).rebuilt), (12, 1 + f.stores.length), (1, b2n f.mapDegraded)]
  | 0x08 => packFields [(4, f.kindlePct), (8, f.gcLow), (8, f.gcHigh), (4, f.gcUrgent), (4, f.ckpt), (1, b2n f.formatBlank)]
  | _ => 0

/-- Whether a directory entry is transient (R262). -/
def transientD (x : DState) : Bool := !(x == .S || x == .M)

/-- Block `DIR_` (10): the selected slice. -/
def readDir (s : State) (off : Nat) : Nat :=
  let c := s.coh
  let x := tget c.slices c.sel
  match off with
  | 0x00 => packFields [(1, b2n c.en), (7, 0), (8, c.bisnpTmo)]
  | 0x08 => c.sel
  | 0x10 => packFields [(16, x.entries.length), (16, (x.entries.filter fun e => transientD e.2.st).length), (7, x.retry.length),
      (1, b2n (decide (64 ≤ x.retry.length))), (1, b2n c.sweeping)]
  | 0x18 => packFields [(32, x.reqs), (32, x.retried)]
  | 0x20 => packFields [(32, x.evicts), (32, x.bisnps)]
  | 0x28 => packFields [(16, capAt 16 x.eccCorr)]
  | 0x30 => packFields [(1, b2n c.reclaimValid), (5, c.reclaimStack), (31, c.reclaimOffset), (16, capAt 16 c.lost), (7, c.lastDead)]
  | 0x38 => c.deadTiles.toNat
  | 0x40 => packFields [(32, c.deadEngines.toNat), (1, b2n c.deadHost)]
  | _ => 0

/-- Block `MEM_` (09): the selected stack. -/
def readMem (s : State) (off : Nat) : Nat :=
  let x := stackOf s s.stackSel
  if off = 0 then s.stackSel else if 20 ≤ s.stackSel then 0 else
  match off with
  | 0x08 => packFields [(1, b2n (stackUsable s s.stackSel)), (1, b2n x.hot),
      (8, if stackUsable s s.stackSel then 128 - x.nbuBad.length else 0), (1, b2n x.nbuTask.isSome)]
  | 0x10 => packFields [(32, capAt 32 x.eccCorr), (16, capAt 16 x.eccUncorr), (16, capAt 16 x.scrubs)]
  | 0x18 => packFields [(1, b2n x.poisonValid), (5, 0), (31, x.poisonOffset)]
  | _ => 0

/-- Block `NBU_` (09): the selected stack. -/
def readNbu (s : State) (off : Nat) : Nat :=
  let x := stackOf s s.nbuSel
  let inService (u : Nat) : Bool := stackUsable s s.nbuSel && !(u ∈ x.nbuBad)
  if off = 0 then s.nbuSel else if 20 ≤ s.nbuSel then 0 else
  match off with
  | 0x08 => maskNat 64 fun u => inService u
  | 0x10 => maskNat 64 fun u => inService (64 + u)
  | 0x18 => packFields [(24, capAt 24 x.cuts), (24, capAt 24 x.hostWaits), (16, capAt 16 x.nbuFaults)]
  | _ => 0

/-- Pool slots of a quad that hold request state, which is pinned (R236): those that hold no copy. -/
def stateSlots (s : State) (n : Nat) : Nat :=
  sumBy (fun m => (stackOf s m).poolUsed.length - (s.drover.copies.filter fun c => c.stack == m).length) (stacksOf s n)

/-- Block `QDn_` (01, 04, 08, 09). -/
def readQd (s : State) (n off : Nat) : Nat :=
  let q := quadOf s n
  match off with
  | 0x08 => packFields [(12, q.tileMhz), (12, q.nocMhz)]
  | 0x40 => packFields [(3, (q.quadSel.take 4).length), (1, b2n (quadWaits s n)), (5, q.streamSel.length)]
  | 0x48 => packFields [(5, q.resident.length), (13, sumBy (fun r => r.2.2) q.resident), (6, q.runs.length), (1, b2n (!q.streaming.isEmpty))]
  | 0x50 => packFields [(32, q.rowHits), (32, q.rowMisses)]
  | 0x58 => packFields [(9, (s.migs.filter fun m => m.quad == n).length), (7, 0), (32, capAt 32 q.migDone),
      (16, capAt 16 q.migAbandoned)]
  | 0x60 => packFields [(23, q.poolSize), (23, sumBy (freePool s) (stacksOf s n)),
      (18, capAt 18 ((s.drover.copies.filter fun c => c.quad == n && !c.pins.isEmpty).length + stateSlots s n))]
  | _ => 0

/-- Block `TLn_` (06). -/
def readTl (s : State) (n off : Nat) : Nat :=
  let t := tileOf s n
  let a (i : Nat) : Arr := nth t.arrs i {}
  let st (i : Nat) : Nat := packFields [(6, if (a i).inService then goodCols (a i) 0 32 else 0), (1, b2n (a i).inService),
    (1, b2n (a i).testing), (2, (a i).geom), (3, (a i).mode)]
  match off with
  | 0x100 => maskNat 4 fun i => (a i).testWanted
  | 0x108 => packFields [(16, st 0), (16, st 1), (16, st 2), (16, st 3)]
  | 0x110 => packFields [(32, (a 0).bad.toNat), (32, (a 1).bad.toNat)]
  | 0x118 => packFields [(32, (a 2).bad.toNat), (32, (a 3).bad.toNat)]
  | 0x120 => packFields [(16, capAt 16 t.residue), (16, capAt 16 t.accCorr), (16, capAt 16 t.accUncorr), (16, capAt 16 t.testFail)]
  | 0x128 => packFields [(48, t.busy)]
  | 0x130 => packFields [(64, t.macs / 1024)]
  | _ => 0

/-- The 64 bits at an 8-byte aligned address of BAR2 (R469): 0 before readiness but for `CFG_`, `SEC_`, `HST_LINK` and
`TRC_CFG` (R419), 0 in the blocks of quads and tiles that `HUB_TOPO` does not report, 0 at every address with no register. -/
def regRead64 (s : State) (addr : Nat) : Nat :=
  let off := addr % 0x10000
  let early : Nat := match addr / 0x10000 with
    | 0x1 => readCfg s off
    | 0x2 => readSec s off
    | 0x5 => if off = 0 ∧ 3 ≤ s.boot.phase ∧ s.boot.loaded = true then readTrc s off else 0
    | 0x6 => if off = 0 then readHst s off else 0
    | _ => 0
  if !s.boot.ready then early else
  match addr / 0x10000 with
  | 0x0 => readHub s off
  | 0x1 => readCfg s off
  | 0x2 => readSec s off
  | 0x3 => readPwr s off
  | 0x4 => readHlt s off
  | 0x5 => readTrc s off
  | 0x6 => readHst s off
  | 0x7 => readPen s off
  | 0x8 => readDma s off
  | 0x9 => readFlu s off
  | 0xA => readFch s off
  | 0xB => readFtl s off
  | 0xC => readDir s off
  | 0xD => readMem s off
  | 0xE => readNbu s off
  | b =>
    if 0x10 ≤ b ∧ b < 0x14 then (if s.topo.quad.getLsbD (b - 0x10) then readQd s (b - 0x10) off else 0)
    else if 0x20 ≤ b ∧ b < 0x60 then (if s.topo.quad.getLsbD ((b - 0x20) / 16) && tileUsable s (b - 0x20) then readTl s (b - 0x20) off else 0)
    else 0

/-- Whether an access keeps the width and alignment of R13. -/
def regAligned (addr : Nat) (wide : Bool) : Bool := addr % (if wide then 8 else 4) == 0

/-- A read of BAR2 (R13): 64 bits, or one 32-bit half. -/
def regRead (s : State) (addr : Nat) (wide : Bool) : Nat :=
  let v := regRead64 s (addr / 8 * 8)
  if wide then v else bits v (8 * (addr % 8)) 32

/-- The 64 bits at a register after a write of it or of one half. -/
def mergeWrite (old addr : Nat) (wide : Bool) (v : Nat) : Nat :=
  if wide then v else if addr % 8 = 0 then old / 2 ^ 32 * 2 ^ 32 + v % 2 ^ 32 else old % 2 ^ 32 + v % 2 ^ 32 * 2 ^ 32

/-- The fields of a ring channel that no row of its own sets: MODE, IEN and VEC of `DMA_CH_CTL`, and the two bases. -/
def writeDmaChan (s : State) (n off v : Nat) : State :=
  if !ringChan s n then s else
  match off with
  | 0x00 => updDma s n fun d => { d with mode := bit v 1, ien := bit v 2, vec := bits v 16 12 }
  | 0x10 => updDma s n fun d => { d with rbase := BitVec.ofNat 64 (v - bits v 6 6 * 64) }
  | 0x18 => updDma s n fun d => { d with cqbase := BitVec.ofNat 64 (v - bits v 6 6 * 64) }
  | _ => s

/-- A register's new 64 bits at its 8-byte aligned address: the RW fields that no other command sets take them; reserved and
RO fields, other registers and unnamed addresses keep what they hold (R13, R14, R469). -/
def regWrite64 (s : State) (addr v : Nat) : State :=
  match addr with
  | 0x00200 => { s with drover := { s.drover with idxObject := bits v 0 15, idxPen := bits v 15 8 } }
  | 0x30018 => { s with power := { s.power with dsel := bits v 0 5 } }
  | 0x40008 => { s with health := { s.health with msel := bits v 0 5 } }
  | 0x50010 => if s.trace.go || s.trace.replay then s else
      { s with trace := { s.trace with log := bits v 0 6, addr := bits v 12 52 * 4096 } }
  | 0x70000 => { s with penSel := bits v 0 8 }
  | 0x70048 => { s with bselClass := bits v 0 2, bselRes := bits v 2 2 }
  | 0x70058 => { s with vsel := bits v 0 12 }
  | 0x90008 => { s with flue := { s.flue with psel := bits v 0 3 } }
  | 0x90020 => { s with flue := { s.flue with csel := bits v 0 10 } }
  | 0x90030 => { s with flue := { s.flue with rsel := bits v 0 10 } }
  | 0xA0000 => { s with ftl := { s.ftl with sel := bits v 0 5 } }
  | 0xA0038 => { s with ftl := { s.ftl with histBin := bits v 0 5 } }
  | 0xC0008 => { s with coh := { s.coh with sel := bits v 0 2 } }
  | 0xD0000 => { s with stackSel := bits v 0 5 }
  | 0xE0000 => { s with nbuSel := bits v 0 5 }
  | a => if 0x81000 ≤ a ∧ a < 0x83000 then writeDmaChan s ((a - 0x81000) / 0x80) ((a - 0x81000) % 0x80) v else s

/-- A free 64-bit value. -/
def free64 (tag : Nat) : Nat := (Config.freeWord tag).toNat + 2 ^ 32 * (Config.freeWord (tag + 1)).toNat

/-- A write of BAR2 that breaks the width or the alignment of R13: each 8-byte block it touches takes a free value (R470). -/
def wildWrite (s : State) (addr : Nat) (wide : Bool) : State :=
  let n := if wide then 8 else 4
  let blocks := [addr / 8 * 8, (addr + n - 1) / 8 * 8].foldl addNew ([] : List Nat)
  blocks.foldl (fun s a => let r := drawTag s; let q := drawTag r.2; regWrite64 q.2 a (free64 r.1)) s

/-- REGISTER_WRITE (R13, R14, R419, R469): without effect before readiness; fields with rows of their own (EN, RESTART and TEST of
`DMA_CH_CTL`, PEN_VMOD, TRC_CTL, the W1C latches and the like) change through those rows only. An access that breaks R13 leaves free
values in the registers of the blocks it touches (R470, log 136). -/
def execRegisterWrite (addr : Nat) (wide : Bool) (value : W64) (s : State) : Res :=
  if !regAligned addr wide then actWhen s.boot.ready s (wildWrite s addr wide)
  else actWhen s.boot.ready s
    (regWrite64 s (addr / 8 * 8) (mergeWrite (regRead64 s (addr / 8 * 8)) addr wide value.toNat))

end Sys2Proof.Machine
end

