-- ==== Sys2Proof/Machine/Spdm.lean ====
section
/-!
DEFINITION. The SPDM responder (16): which requests it answers (R425, R426, R429, R430, R432, R442), identity, measurements (R431), the
session and K0 (R433). Responses are sent outside as SpdmResp.
-/

namespace Sys2Proof.Machine

/-- The DOE mailbox answers from the end of phase IMAGE until the next reset, in FAILED too (R419, R425, R430). -/
def spdmUp (s : State) : Bool :=
  (s.power.on &&& coreDomains) == coreDomains && decide (3 ≤ s.boot.phase)

/-- A failed start or a fenced node answers only GET_VERSION, GET_CAPABILITIES and GET_MEASUREMENTS (R425, R442). -/
def spdmLimited (s : State) : Bool := s.boot.phase == 15 || s.health.st == 2

def answer (s : State) (r : SpdmResp) : State := emit s (.spdm r)

/-- A request that a session does not answer (R432), and that a failed or fenced node does not (R425): UnsupportedRequest. -/
def withSpdm (s : State) (f : State → State) : Res :=
  if !spdmUp s then .next s
  else .next (if spdmLimited s || s.boot.session then answer s (.error 1) else f s)

/-- GET_VERSION (R429): answered in FAILED too. -/
def execGetVersion (s : State) : Res :=
  if !spdmUp s then .next s else .next (answer s (if s.boot.session then .error 1 else .version))

/-- GET_CAPABILITIES (R429): answered in FAILED too. -/
def execGetCapabilities (s : State) : Res :=
  if !spdmUp s then .next s else .next (answer s (if s.boot.session then .error 1 else .capabilities))

/-- NEGOTIATE_ALGORITHMS (R429): one choice of each kind. -/
def execNegotiateAlgorithms (ed448 sha3 secp384 aesGcm : Bool) (s : State) : Res :=
  withSpdm s fun s => answer s (.algorithms (ed448 && sha3 && secp384 && aesGcm))

/-- The chain of slot 0 (R429): the certificates of the identity area used, then the alias certificate. -/
def chain0 (s : State) : List Byte := Config.deviceChain (identityArea s (b2n (s.boot.idsrc == 1))) ++ s.boot.aliasCert

/-- Whether the node has an identity and an alias certificate to show (R426, R427). -/
def hasIdentity (s : State) : Bool := s.boot.ident && s.boot.hasAlias

/-- GET_DIGESTS (R429): slot 0. -/
def execGetDigests (s : State) : Res :=
  withSpdm s fun s => answer s (if hasIdentity s then .digests (sha3_512 (chain0 s)) else .error 0)

/-- GET_CERTIFICATE (R429, R426): a part of slot 0's chain; other slots do not exist. -/
def execGetCertificate (slot offset length : Nat) (s : State) : Res :=
  withSpdm s fun s =>
    if !hasIdentity s then answer s (.error 0)
    else if slot ≠ 0 ∨ (chain0 s).length ≤ offset then answer s (.error 2)
    else answer s (.certificate (((chain0 s).drop offset).take length))

/-- A signature with the alias key over a request's transcript (R428). -/
def spdmSign (s : State) (kind : Nat) (nonce body : List Byte) : State × List Byte :=
  let r := drawTag s
  (r.2, Config.ed448Sign s.boot.aliasKey (Config.spdmTranscript kind nonce body r.1))

/-- CHALLENGE (R429). -/
def execChallenge (slot : Nat) (nonce : List Byte) (s : State) : Res :=
  withSpdm s fun s =>
    if !hasIdentity s then answer s (.error 0)
    else if slot ≠ 0 then answer s (.error 2)
    else
      let r := spdmSign s 0x83 nonce (sha3_512 (chain0 s))
      answer r.1 (.challengeAuth r.2)

/-- The slot and image that the measurements describe: the loaded ones, or those of a failed start's verified slot (R431). -/
def measured (s : State) : Option (Nat × Image) :=
  if s.boot.loaded then some (s.boot.slot, s.boot.image) else s.boot.verified

/-- The measurement blocks that exist, by index (R431). -/
def measurements (s : State) : List (Nat × List Byte) :=
  (1, Config.romDigest) :: match measured s with
    | none => []
    | some (slot, img) =>
      [(2, img.digFwCore), (3, img.digFwEngine), (4, img.digImage),
       (5, le 8 img.sequence ++ le 2 img.svn ++ le 1 slot ++ le 1 s.boot.reason), (6, img.digOwner)]

/-- The blocks that a request names: 0 their count, 255 all of them, else one. -/
def askedBlocks (s : State) (index : Nat) : List (Nat × List Byte) :=
  if index = 0 then [(0, le 1 (measurements s).length)]
  else if index = 255 then measurements s
  else (measurements s).filter fun x => x.1 == index

/-- GET_MEASUREMENTS (R431, R427): within a session and in FAILED too; a signature needs the alias key. -/
def execGetMeasurements (index : Nat) (sign : Bool) (nonce : List Byte) (s : State) : Res :=
  if !spdmUp s then .next s
  else if (askedBlocks s index).isEmpty then .next (answer s (.error 2))
  else if !sign then .next (answer s (.measurements (askedBlocks s index) none))
  else if !s.boot.hasAlias then .next (answer s (.error 0))
  else
    let r := spdmSign s 0xE0 nonce ((askedBlocks s index).flatMap fun x => le 1 x.1 ++ x.2)
    .next (answer r.1 (.measurements (askedBlocks s index) (some r.2)))

/-- KEY_EXCHANGE (R429, R426): one session at a time; its secret is fixed here, and FINISH opens the session. -/
def execKeyExchange (secret : List Byte) (s : State) : Res :=
  withSpdm s fun s =>
    if !hasIdentity s then answer s (.error 0)
    else
      let r := spdmSign { s with boot := { s.boot with sessionSecret := secret } } 0xE4 [] (sha3_512 (chain0 s))
      answer r.1 (.keyExchangeRsp r.2)

/-- K0 of a session's export master secret (R433). -/
def deriveK0 (secret : List Byte) : List Byte := kmac256 secret [] 32 (ascii "VN-J720 K0")

/-- FINISH (R433): opens the session that KEY_EXCHANGE began; the first of a start establishes K0, later ones leave it. -/
def execFinish (verified : Bool) (s : State) : Res :=
  withSpdm s fun s =>
    if s.boot.sessionSecret.isEmpty then answer s (.error 1)
    else if !verified then answer { s with boot := { s.boot with sessionSecret := [] } } (.error 0)
    else
      let k0 := match s.boot.k0 with
        | some k => k
        | none => deriveK0 s.boot.sessionSecret
      answer { s with boot := { s.boot with session := true, k0 := some k0 } } .finishRsp

/-- END_SESSION (R432, R433): the session ends, K0 stays. -/
def execEndSession (s : State) : Res :=
  if !spdmUp s then .next s
  else if s.boot.session && !spdmLimited s then
    .next (answer { s with boot := { s.boot with session := false, sessionSecret := [] } } .endSessionAck)
  else .next (answer s (.error 1))

/-- Request codes of R429, by SPDM 1.3: those of the table's requests. -/
def spdmCodes : List Nat := [0x84, 0xE1, 0xE3, 0x81, 0x82, 0x83, 0xE0, 0xE4, 0xE5, 0xEC]

/-- A request that R429 does not list: UnsupportedRequest. -/
def execUnsupportedSpdmRequest (code : Nat) (s : State) : Res :=
  if code ∈ spdmCodes then .next s
  else actWhen (spdmUp s) s (answer s (.error 1))

end Sys2Proof.Machine
end

