-- ==== Sys2Proof/Machine/TraceRec.lean ====
section
/-!
DEFINITION. Recording and replay as software drives them (R450, R454 to R456).
-/

namespace Sys2Proof.Machine

/-- TRC_GO (R450): the ring comes into use; the head buffer empties into it, and a stalled node goes on. -/
def execTrcGo (s : State) : Res :=
  if !s.boot.ready || s.trace.replay then .next s
  else
    let s := { s with trace := { s.trace with go := true } }
    let s := drainHead s s.trace.headBuf.length
    .next { s with trace := { s.trace with stalled := s.trace.stalled && headFull s.trace } }

/-- TRC_REPLAY (R454): only with REC 0 and before any command was fetched or context opened. -/
def execTrcReplay (s : State) : Res :=
  actWhen (s.boot.ready && !s.trace.rec_ && !s.trace.touched && !s.trace.replay && !s.trace.diverged) s
    { s with trace := { s.trace with replay := true, touched := true, rcons := 0, rprod := 0 } }

/-- Records parsed from n bytes of the ring from an offset on (R451), by fuel: each with its offset. -/
def parseRecs (s : State) : Nat → Nat → Nat → List (Nat × TRec)
  | 0, _, _ => []
  | f + 1, off, n =>
    if n < 16 then []
    else
      let size := ringSize s
      let get (i k : Nat) : List Byte := (List.range k).map fun j => s.hostMem.byte (s.trace.addr + (off + i + j) % size)
      let len := ofLe (get 2 2)
      let r : TRec := { kind := ofLe (get 0 1), stream := ofLe (get 4 2), sseq := ofLe (get 8 4), body := get 16 len }
      (off, r) :: parseRecs s f ((off + recLen r) % size) (n - recLen r)

/-- One supplied record consumed (R454): a message that spans several arrives with the last of them (R451); host data and flash data become what the node reads, arrivals go to the inbox, OUT
records wait for their match, commands and decisions are kept in order. -/
def consume (s : State) (x : Nat × TRec) : State :=
  let b := x.2.body
  match x.2.kind with
  | 0x02 => { s with hostMem := s.hostMem.write (hostKey (fieldAt b 0 2) (fieldAt b 2 8)) (b.drop 10) }
  | 0x03 =>
    let d : Option (List Host.Cell) := if b.length < 4102 then none else some (cellsOf 0 (sub b 6 4096))
    { s with trace := { s.trace with flash := tput s.trace.flash (unitKey (fieldAt b 0 2) (fieldAt b 2 4)) d } }
  | 0x04 =>
    let b := s.trace.arriving ++ b
    let m : FlueMsg :=
      { dst := fieldAt b 0 2, src := fieldAt b 2 2, dctx := fieldAt b 4 2, sctx := fieldAt b 6 2, mseq := fieldAt b 8 4
        type := fieldAt b 12 1, ttl := fieldAt b 13 1, gen := fieldAt b 20 4, corrid := fieldAt b 24 8, body := b.drop 32 }
    if b.length < 32 + fieldAt b 16 4 then { s with trace := { s.trace with arriving := b } }
    else { s with trace := { s.trace with arriving := [] }, flue := { s.flue with inbox := s.flue.inbox ++ [m] } }
  | 0x20 => { s with trace := { s.trace with outs := s.trace.outs ++ [(x.2.stream, x.1, b)] } }
  | _ => { s with trace := { s.trace with supplied := s.trace.supplied ++ [x.2] } }

/-- TRC_RPROD_WRITE (R455): in replay, the records between the old offset and the new one are consumed; while recording the
write has no effect. -/
def execTrcRprodWrite (off : Nat) (writes : List (Nat × Byte)) (s : State) : Res :=
  let s := { s with hostMem := s.hostMem.sets writes }
  if !s.trace.replay then
    .next (if !s.boot.ready || s.trace.recording then s else { s with trace := { s.trace with rprod := off % 2 ^ 40 } })
  else
    let n := (off + ringSize s - s.trace.rprod) % ringSize s
    let recs := parseRecs s (n / 16 + 1) s.trace.rprod n
    let s := recs.foldl consume s
    .next { s with trace := { s.trace with rprod := off % 2 ^ 40, rcons := off % 2 ^ 40 } }

/-- TRC_RCONS_WRITE (R450): room in the ring; a stalled node goes on. In replay the write has no effect. -/
def execTrcRconsWrite (off : Nat) (s : State) : Res :=
  if !s.boot.ready || s.trace.replay then .next s
  else
    let s := { s with trace := { s.trace with rcons := off % 2 ^ 40 } }
    let s := drainHead s s.trace.headBuf.length
    .next { s with trace := { s.trace with stalled := s.trace.stalled && headFull s.trace } }

end Sys2Proof.Machine
end

