-- ==== Sys2Proof/Machine/Dispatch.lean ====
section
/-!
DEFINITION. One arm per command: a direct call of its meaning.
-/

namespace Sys2Proof.Machine

/-- The effect of a command on everything but the queue. -/
def exec (i : Instr) (s : State) : Host.Outcome State Fault Refusal :=
  match i with
  | .turnOn => Sys2Proof.Machine.execTurnOn s
  | .lossOfPower => Sys2Proof.Machine.execLossOfPower s
  | .resetN => Sys2Proof.Machine.execResetN s
  | .progEn => Sys2Proof.Machine.execProgEn s
  | .perst portB => Sys2Proof.Machine.execPerst portB s
  | .railFault domain => Sys2Proof.Machine.execRailFault domain s
  | .thermalSample quads hub stackTemps => Sys2Proof.Machine.execThermalSample quads hub stackTemps s
  | .inputPowerSample vin iin watts domains => Sys2Proof.Machine.execInputPowerSample vin iin watts domains s
  | .phaseRom selfTest puf => Sys2Proof.Machine.execPhaseRom selfTest puf s
  | .phaseImage => Sys2Proof.Machine.execPhaseImage s
  | .phasePower late => Sys2Proof.Machine.execPhasePower late s
  | .phaseTrain modulesFailed stacksFailed groups => Sys2Proof.Machine.execPhaseTrain modulesFailed stacksFailed groups s
  | .phaseClear badLines => Sys2Proof.Machine.execPhaseClear badLines s
  | .phaseTest failed columns => Sys2Proof.Machine.execPhaseTest failed columns s
  | .readiness => Sys2Proof.Machine.execReadiness s
  | .rebuild channel segment => Sys2Proof.Machine.execRebuild channel segment s
  | .rebuildDone channel => Sys2Proof.Machine.execRebuildDone channel s
  | .getVersion => Sys2Proof.Machine.execGetVersion s
  | .getCapabilities => Sys2Proof.Machine.execGetCapabilities s
  | .negotiateAlgorithms ed448 sha3 secp384 aesGcm => Sys2Proof.Machine.execNegotiateAlgorithms ed448 sha3 secp384 aesGcm s
  | .getDigests => Sys2Proof.Machine.execGetDigests s
  | .getCertificate slot offset length => Sys2Proof.Machine.execGetCertificate slot offset length s
  | .challenge slot nonce => Sys2Proof.Machine.execChallenge slot nonce s
  | .getMeasurements index sign nonce => Sys2Proof.Machine.execGetMeasurements index sign nonce s
  | .keyExchange secret => Sys2Proof.Machine.execKeyExchange secret s
  | .finish verified => Sys2Proof.Machine.execFinish verified s
  | .endSession => Sys2Proof.Machine.execEndSession s
  | .cfgErase c b => Sys2Proof.Machine.execCfgErase c b s
  | .cfgWrite c b => Sys2Proof.Machine.execCfgWrite c b s
  | .cfgVerify c b => Sys2Proof.Machine.execCfgVerify c b s
  | .cfgActivate c b => Sys2Proof.Machine.execCfgActivate c b s
  | .penCreate c b => Sys2Proof.Machine.execPenCreate c b s
  | .penDestroy c b => Sys2Proof.Machine.execPenDestroy c b s
  | .penQuota c b => Sys2Proof.Machine.execPenQuota c b s
  | .penDamper c b => Sys2Proof.Machine.execPenDamper c b s
  | .penReset c b => Sys2Proof.Machine.execPenReset c b s
  | .penResetEnd pen => Sys2Proof.Machine.execPenResetEnd pen s
  | .warmReset c b => Sys2Proof.Machine.execWarmReset c b s
  | .warmResetBegin => Sys2Proof.Machine.execWarmResetBegin s
  | .coldReset c b => Sys2Proof.Machine.execColdReset c b s
  | .damperTick => Sys2Proof.Machine.execDamperTick s
  | .vectorTimeExpiry vector => Sys2Proof.Machine.execVectorTimeExpiry vector s
  | .msixUnmask vector => Sys2Proof.Machine.execMsixUnmask vector s
  | .penVmodWrite value => Sys2Proof.Machine.execPenVmodWrite value s
  | .hostLinkUp portB width rate flit256 => Sys2Proof.Machine.execHostLinkUp portB width rate flit256 s
  | .linkDown portB => Sys2Proof.Machine.execLinkDown portB s
  | .cxlReset => Sys2Proof.Machine.execCxlReset s
  | .controllerReset ctl flr => Sys2Proof.Machine.execControllerReset ctl flr s
  | .controllerEnable ctl asq asqs acq acqs => Sys2Proof.Machine.execControllerEnable ctl asq asqs acq acqs s
  | .sqTailDoorbell ctl sq tail writes => Sys2Proof.Machine.execSqTailDoorbell ctl sq tail writes s
  | .cqHeadDoorbell ctl cq head => Sys2Proof.Machine.execCqHeadDoorbell ctl cq head s
  | .recordQueueHeadDoorbell ctl sq head => Sys2Proof.Machine.execRecordQueueHeadDoorbell ctl sq head s
  | .createIoSq c qid base entries cqid pc => Sys2Proof.Machine.execCreateIoSq c qid base entries cqid pc s
  | .deleteIoSq c qid => Sys2Proof.Machine.execDeleteIoSq c qid s
  | .createIoCq c qid base entries iv ien pc => Sys2Proof.Machine.execCreateIoCq c qid base entries iv ien pc s
  | .deleteIoCq c qid => Sys2Proof.Machine.execDeleteIoCq c qid s
  | .identify c cns prp => Sys2Proof.Machine.execIdentify c cns prp s
  | .getLogPage c lid offset length prp => Sys2Proof.Machine.execGetLogPage c lid offset length prp s
  | .abort c => Sys2Proof.Machine.execAbort c s
  | .setFeatures c fid value => Sys2Proof.Machine.execSetFeatures c fid value s
  | .getFeatures c fid => Sys2Proof.Machine.execGetFeatures c fid s
  | .asynchronousEventRequest c => Sys2Proof.Machine.execAsynchronousEventRequest c s
  | .sanitize c action => Sys2Proof.Machine.execSanitize c action s
  | .sanitizeEnd => Sys2Proof.Machine.execSanitizeEnd s
  | .createSkexQueue c qid base entries cqid rqBase rqEntries pc => Sys2Proof.Machine.execCreateSkexQueue c qid base entries cqid rqBase rqEntries pc s
  | .flush c => Sys2Proof.Machine.execFlush c s
  | .write c slba blocks fua prp => Sys2Proof.Machine.execWrite c slba blocks fua prp s
  | .read c slba blocks prp => Sys2Proof.Machine.execRead c slba blocks prp s
  | .datasetManagement c ranges deallocate => Sys2Proof.Machine.execDatasetManagement c ranges deallocate s
  | .writeBufferAdmit => Sys2Proof.Machine.execWriteBufferAdmit s
  | .writeBufferDrain channel => Sys2Proof.Machine.execWriteBufferDrain channel s
  | .submit c graph => Sys2Proof.Machine.execSubmit c graph s
  | .skexFence c penScope durable => Sys2Proof.Machine.execSkexFence c penScope durable s
  | .orderedWrite c slba blocks fua prp => Sys2Proof.Machine.execOrderedWrite c slba blocks fua prp s
  | .tableSwitch c object base => Sys2Proof.Machine.execTableSwitch c object base s
  | .epochCommit c object report => Sys2Proof.Machine.execEpochCommit c object report s
  | .regionCreate c object first blocks => Sys2Proof.Machine.execRegionCreate c object first blocks s
  | .regionDestroy c object => Sys2Proof.Machine.execRegionDestroy c object s
  | .map c object capacity list => Sys2Proof.Machine.execMap c object capacity list s
  | .unmap c object => Sys2Proof.Machine.execUnmap c object s
  | .graphAccept ctl sq => Sys2Proof.Machine.execGraphAccept ctl sq s
  | .taskIssue kind channel => Sys2Proof.Machine.execTaskIssue kind channel s
  | .baleMoveDone copy ok => Sys2Proof.Machine.execBaleMoveDone copy ok s
  | .writeBackDone copy => Sys2Proof.Machine.execWriteBackDone copy s
  | .taskComplete t x => Sys2Proof.Machine.execTaskComplete t x s
  | .nop t => Sys2Proof.Machine.execNop t s
  | .fence t => Sys2Proof.Machine.execFence t s
  | .alloc t => Sys2Proof.Machine.execAlloc t s
  | .free t => Sys2Proof.Machine.execFree t s
  | .copy t => Sys2Proof.Machine.execCopy t s
  | .fill t => Sys2Proof.Machine.execFill t s
  | .matmul t => Sys2Proof.Machine.execMatmul t s
  | .arrayUnit t array part residueFail accCorr accUncorr => Sys2Proof.Machine.execArrayUnit t array part residueFail accCorr accUncorr s
  | .arrayTest tile array => Sys2Proof.Machine.execArrayTest tile array s
  | .arrayTestRequest tile mask => Sys2Proof.Machine.execArrayTestRequest tile mask s
  | .arrayTestDone tile array bad portFail => Sys2Proof.Machine.execArrayTestDone tile array bad portFail s
  | .modelRun t => Sys2Proof.Machine.execModelRun t s
  | .modelCreate t => Sys2Proof.Machine.execModelCreate t s
  | .modelDestroy t => Sys2Proof.Machine.execModelDestroy t s
  | .vectorStep t => Sys2Proof.Machine.execVectorStep t s
  | .vectorFilter t => Sys2Proof.Machine.execVectorFilter t s
  | .tokenize t => Sys2Proof.Machine.execTokenize t s
  | .pack t => Sys2Proof.Machine.execPack t s
  | .nbuSeq t => Sys2Proof.Machine.execNbuSeq t s
  | .microOp stack unit parityFail => Sys2Proof.Machine.execMicroOp stack unit parityFail s
  | .refreshDue stack unit => Sys2Proof.Machine.execRefreshDue stack unit s
  | .query t => Sys2Proof.Machine.execQuery t s
  | .walkRound t => Sys2Proof.Machine.execWalkRound t s
  | .flashWalkRound t => Sys2Proof.Machine.execFlashWalkRound t s
  | .enginePageExpand t channel page => Sys2Proof.Machine.execEnginePageExpand t channel page s
  | .hop t channel => Sys2Proof.Machine.execHop t channel s
  | .rerank t => Sys2Proof.Machine.execRerank t s
  | .fanOutQuery t => Sys2Proof.Machine.execFanOutQuery t s
  | .merge t => Sys2Proof.Machine.execMerge t s
  | .insert t => Sys2Proof.Machine.execInsert t s
  | .indexCreate t => Sys2Proof.Machine.execIndexCreate t s
  | .indexOpen t => Sys2Proof.Machine.execIndexOpen t s
  | .rebuildIndex t => Sys2Proof.Machine.execRebuildIndex t s
  | .delete t => Sys2Proof.Machine.execDelete t s
  | .destroy t => Sys2Proof.Machine.execDestroy t s
  | .repairSweepNow t => Sys2Proof.Machine.execRepairSweepNow t s
  | .gather t => Sys2Proof.Machine.execGather t s
  | .scatterWrite t => Sys2Proof.Machine.execScatterWrite t s
  | .scatterAdd t => Sys2Proof.Machine.execScatterAdd t s
  | .tableCreate t => Sys2Proof.Machine.execTableCreate t s
  | .tableDestroy t => Sys2Proof.Machine.execTableDestroy t s
  | .clone t => Sys2Proof.Machine.execClone t s
  | .flashRead t => Sys2Proof.Machine.execFlashRead t s
  | .flashWrite t => Sys2Proof.Machine.execFlashWrite t s
  | .deallocate t => Sys2Proof.Machine.execDeallocate t s
  | .flueSend t => Sys2Proof.Machine.execFlueSend t s
  | .seal pen object => Sys2Proof.Machine.execSeal pen object s
  | .commitComplete pen object => Sys2Proof.Machine.execCommitComplete pen object s
  | .sweepEnd pen object => Sys2Proof.Machine.execSweepEnd pen object s
  | .sketchHalving quad => Sys2Proof.Machine.execSketchHalving quad s
  | .migrationStart quad pen object base row => Sys2Proof.Machine.execMigrationStart quad pen object base row s
  | .migrationCopyEnd quad entry => Sys2Proof.Machine.execMigrationCopyEnd quad entry s
  | .migrationCommit quad entry => Sys2Proof.Machine.execMigrationCommit quad entry s
  | .patrolScrub stack correctable rest => Sys2Proof.Machine.execPatrolScrub stack correctable rest s
  | .rds r line => Sys2Proof.Machine.execRds r line s
  | .rde r line => Sys2Proof.Machine.execRde r line s
  | .rdc r line => Sys2Proof.Machine.execRdc r line s
  | .wr r line => Sys2Proof.Machine.execWr r line s
  | .clr line => Sys2Proof.Machine.execClr line s
  | .putb r line => Sys2Proof.Machine.execPutb r line s
  | .pute r line => Sys2Proof.Machine.execPute r line s
  | .putm r line => Sys2Proof.Machine.execPutm r line s
  | .ack r line => Sys2Proof.Machine.execAck r line s
  | .wbd r line => Sys2Proof.Machine.execWbd r line s
  | .cack r line => Sys2Proof.Machine.execCack r line s
  | .stackAccessDone line => Sys2Proof.Machine.execStackAccessDone line s
  | .inv a line => Sys2Proof.Machine.execInv a line s
  | .memberAck a line member => Sys2Proof.Machine.execMemberAck a line member s
  | .rcl a line => Sys2Proof.Machine.execRcl a line s
  | .rclS a line => Sys2Proof.Machine.execRclS a line s
  | .dataS a line => Sys2Proof.Machine.execDataS a line s
  | .dataB a line => Sys2Proof.Machine.execDataB a line s
  | .dataE a line => Sys2Proof.Machine.execDataE a line s
  | .cmp a line => Sys2Proof.Machine.execCmp a line s
  | .agentLoad a line => Sys2Proof.Machine.execAgentLoad a line s
  | .agentStore a line data mask => Sys2Proof.Machine.execAgentStore a line data mask s
  | .agentReplace a line => Sys2Proof.Machine.execAgentReplace a line s
  | .hostCxlMemRequest req line => Sys2Proof.Machine.execHostCxlMemRequest req line s
  | .snpInv line data => Sys2Proof.Machine.execSnpInv line data s
  | .snpData line => Sys2Proof.Machine.execSnpData line s
  | .snpCur line => Sys2Proof.Machine.execSnpCur line s
  | .bisnpTimeout line => Sys2Proof.Machine.execBisnpTimeout line s
  | .reclaimSweep agent => Sys2Proof.Machine.execReclaimSweep agent s
  | .reclaimSweepDone => Sys2Proof.Machine.execReclaimSweepDone s
  | .pageReadDone channel op decoded => Sys2Proof.Machine.execPageReadDone channel op decoded s
  | .programDone channel op pass => Sys2Proof.Machine.execProgramDone channel op pass s
  | .eraseDone channel op pass => Sys2Proof.Machine.execEraseDone channel op pass s
  | .kindlingPad channel => Sys2Proof.Machine.execKindlingPad channel s
  | .journalPageTimeout channel => Sys2Proof.Machine.execJournalPageTimeout channel s
  | .foldStart channel lun => Sys2Proof.Machine.execFoldStart channel lun s
  | .gcStart channel lun => Sys2Proof.Machine.execGcStart channel lun s
  | .checkpointStart channel => Sys2Proof.Machine.execCheckpointStart channel s
  | .patrolRead channel late rest => Sys2Proof.Machine.execPatrolRead channel late rest s
  | .readLevelReplan channel lun group tried => Sys2Proof.Machine.execReadLevelReplan channel lun group tried s
  | .flashTemperatureSample temps => Sys2Proof.Machine.execFlashTemperatureSample temps s
  | .dmaEnable channel => Sys2Proof.Machine.execDmaEnable channel s
  | .dmaStop channel => Sys2Proof.Machine.execDmaStop channel s
  | .dmaRestart channel skip => Sys2Proof.Machine.execDmaRestart channel skip s
  | .dmaTest channel => Sys2Proof.Machine.execDmaTest channel s
  | .dmaTestDone channel failed => Sys2Proof.Machine.execDmaTestDone channel failed s
  | .dmaDoorbell channel writes => Sys2Proof.Machine.execDmaDoorbell channel writes s
  | .dmaCqheadWrite channel value => Sys2Proof.Machine.execDmaCqheadWrite channel value s
  | .descriptorFetchDone channel => Sys2Proof.Machine.execDescriptorFetchDone channel s
  | .descriptorComplete channel index => Sys2Proof.Machine.execDescriptorComplete channel index s
  | .busError channel index task err => Sys2Proof.Machine.execBusError channel index task err s
  | .errinfoClear channel sameCycle => Sys2Proof.Machine.execErrinfoClear channel sameCycle s
  | .poisonLatchClear sameCycle => Sys2Proof.Machine.execPoisonLatchClear sameCycle s
  | .reclaimLatchClear sameCycle => Sys2Proof.Machine.execReclaimLatchClear sameCycle s
  | .portTraining port => Sys2Proof.Machine.execPortTraining port s
  | .qualificationEnd port corrected discarded => Sys2Proof.Machine.execQualificationEnd port corrected discarded s
  | .dataFlit port => Sys2Proof.Machine.execDataFlit port s
  | .idleFlit port => Sys2Proof.Machine.execIdleFlit port s
  | .retryReq port => Sys2Proof.Machine.execRetryReq port s
  | .forward m => Sys2Proof.Machine.execForward m s
  | .openMsg m => Sys2Proof.Machine.execOpenMsg m s
  | .close m => Sys2Proof.Machine.execClose m s
  | .flueAck m => Sys2Proof.Machine.execFlueAck m s
  | .put m => Sys2Proof.Machine.execPut m s
  | .putDone m => Sys2Proof.Machine.execPutDone m s
  | .queryMessage m => Sys2Proof.Machine.execQueryMessage m s
  | .answer m => Sys2Proof.Machine.execAnswer m s
  | .mrec m => Sys2Proof.Machine.execMrec m s
  | .mcommit m => Sys2Proof.Machine.execMcommit m s
  | .mack m => Sys2Proof.Machine.execMack m s
  | .load m => Sys2Proof.Machine.execLoad m s
  | .rread m => Sys2Proof.Machine.execRread m s
  | .rwrite m => Sys2Proof.Machine.execRwrite m s
  | .rresp m => Sys2Proof.Machine.execRresp m s
  | .mapupd m => Sys2Proof.Machine.execMapupd m s
  | .resendTimeout ctx vc => Sys2Proof.Machine.execResendTimeout ctx vc s
  | .peerTimeout ctx => Sys2Proof.Machine.execPeerTimeout ctx s
  | .flueCtxOpen c b => Sys2Proof.Machine.execFlueCtxOpen c b s
  | .flueCtxClose c b => Sys2Proof.Machine.execFlueCtxClose c b s
  | .flueRoute c b => Sys2Proof.Machine.execFlueRoute c b s
  | .lend c b => Sys2Proof.Machine.execLend c b s
  | .lendHandoverDone pen object => Sys2Proof.Machine.execLendHandoverDone pen object s
  | .mirrorLoad c b => Sys2Proof.Machine.execMirrorLoad c b s
  | .mirrorPromote c b => Sys2Proof.Machine.execMirrorPromote c b s
  | .scoreRecompute => Sys2Proof.Machine.execScoreRecompute s
  | .marginEvaluation mins => Sys2Proof.Machine.execMarginEvaluation mins s
  | .binQuiesceDone quad => Sys2Proof.Machine.execBinQuiesceDone quad s
  | .pllRelockDone quad => Sys2Proof.Machine.execPllRelockDone quad s
  | .phyRetrain stack margin => Sys2Proof.Machine.execPhyRetrain stack margin s
  | .phyRetrainDone stack margin => Sys2Proof.Machine.execPhyRetrainDone stack margin s
  | .dieToDieModuleDown module => Sys2Proof.Machine.execDieToDieModuleDown module s
  | .routeListResume pair => Sys2Proof.Machine.execRouteListResume pair s
  | .unitFault u => Sys2Proof.Machine.execUnitFault u s
  | .nodeFault cause canDrain => Sys2Proof.Machine.execNodeFault cause canDrain s
  | .trcGo => Sys2Proof.Machine.execTrcGo s
  | .trcReplay => Sys2Proof.Machine.execTrcReplay s
  | .trcRprodWrite off writes => Sys2Proof.Machine.execTrcRprodWrite off writes s
  | .trcRconsWrite off => Sys2Proof.Machine.execTrcRconsWrite off s
  | .registerWrite addr wide value => Sys2Proof.Machine.execRegisterWrite addr wide value s
  | .resetNHigh => Sys2Proof.Machine.execResetNHigh s
  | .laneFailure x => Sys2Proof.Machine.execLaneFailure x s
  | .fecBlock port correctable corrected flits => Sys2Proof.Machine.execFecBlock port correctable corrected flits s
  | .invalidCommandOpcode c opcode => Sys2Proof.Machine.execInvalidCommandOpcode c opcode s
  | .undefinedControlCode c code b => Sys2Proof.Machine.execUndefinedControlCode c code b s
  | .unsupportedSpdmRequest code => Sys2Proof.Machine.execUnsupportedSpdmRequest code s

end Sys2Proof.Machine
end

