-- ==== Sys2Proof/Safety.lean ====
section
/-!
DEFINITION. What claims call a safe state of the node, in the terms of State: the byte memories in canonical form, the device
secret held by the ROM alone, readiness only in its phase, and every selector within its field.
-/

namespace Sys2Proof.Machine

/-- Every byte memory of the node is in its canonical form. -/
abbrev State.memWf (s : State) : Prop := s.mem.wf ∧ s.sram.wf ∧ s.hostMem.wf

/-- What the spec promises of every state: canonical memories; a device secret only while the ROM holds it, between phases ROM and
IMAGE (R427); READY only in phase READY (R416, R418); the selectors of 09 and 13 within their widths (R13). -/
structure State.Inv (s : State) : Prop where
  mem : s.mem.wf
  sram : s.sram.wf
  host : s.hostMem.wf
  secret : s.boot.secret.isSome = true → s.boot.phase = 2
  ready : s.boot.ready = true → s.boot.phase = 7
  penSel : s.penSel < 256
  bselClass : s.bselClass < 4
  bselRes : s.bselRes < 4
  vsel : s.vsel < 4096
  stackSel : s.stackSel < 32
  nbuSel : s.nbuSel < 32

/-- The node once a keyed command has been fetched and accepted (R357): the outcome recorded, the pen's counter advanced. -/
def State.afterKeyed (s : State) (c : Cmd) (b : KBlock) (n : Nat) : State :=
  let u := doFetch s c n
  let u := traceRec u 0x15 0 (le 4 u.trace.decisions ++ le 1 1)
  let u := if u.trace.replay then
      { u with trace := { u.trace with supplied := dropFirst (fun r => r.stream == 0 && r.kind == 0x15) u.trace.supplied } }
    else u
  updPen u (penOfCtl c.ctl) fun x => { x with kctr := b.counter.toNat }

/-- The node once a keyed command has been fetched and turned away (R357): the outcome recorded, KREJ counted. -/
def State.afterReject (s : State) (c : Cmd) (n : Nat) : State :=
  let u := doFetch s c n
  let u := traceRec u 0x15 0 (le 4 u.trace.decisions ++ le 1 0)
  let u := if u.trace.replay then
      { u with trace := { u.trace with supplied := dropFirst (fun r => r.stream == 0 && r.kind == 0x15) u.trace.supplied } }
    else u
  updPen u (penOfCtl c.ctl) fun x => { x with krej := satAdd 16 x.krej 1 }

/-- The keyed commands, each with its code and the pens that may send it (R358, R403, R434). -/
def keyedForm : Instr → Option (Cmd × KBlock × Nat × (Nat → Bool))
  | .penCreate c b => some (c, b, 0x0001, onlyPen0)
  | .penDestroy c b => some (c, b, 0x0002, onlyPen0)
  | .penQuota c b => some (c, b, 0x0003, onlyPen0)
  | .penDamper c b => some (c, b, 0x0004, onlyPen0)
  | .penReset c b => some (c, b, 0x0005, fun p => p == 0 || p == karg b 0 2)
  | .warmReset c b => some (c, b, 0x0006, onlyPen0)
  | .coldReset c b => some (c, b, 0x0007, onlyPen0)
  | .cfgErase c b => some (c, b, 0x0200, onlyPen0)
  | .cfgWrite c b => some (c, b, 0x0201, onlyPen0)
  | .cfgVerify c b => some (c, b, 0x0202, onlyPen0)
  | .cfgActivate c b => some (c, b, 0x0203, onlyPen0)
  | .flueCtxOpen c b => some (c, b, 0x0300, fun _ => true)
  | .flueCtxClose c b => some (c, b, 0x0301, fun _ => true)
  | .flueRoute c b => some (c, b, 0x0302, onlyPen0)
  | .lend c b => some (c, b, 0x0303, fun _ => true)
  | .mirrorLoad c b => some (c, b, 0x0304, fun _ => true)
  | .mirrorPromote c b => some (c, b, 0x0305, fun _ => true)
  | _ => none

/-- The commands of the home slices and of the caching agents (R266 to R271). -/
def coherenceRow : Instr → Bool
  | .rds .. => true
  | .rde .. => true
  | .rdc .. => true
  | .wr .. => true
  | .clr .. => true
  | .putb .. => true
  | .pute .. => true
  | .putm .. => true
  | .ack .. => true
  | .wbd .. => true
  | .cack .. => true
  | .stackAccessDone .. => true
  | .inv .. => true
  | .memberAck .. => true
  | .rcl .. => true
  | .rclS .. => true
  | .dataS .. => true
  | .dataB .. => true
  | .dataE .. => true
  | .cmp .. => true
  | .agentLoad .. => true
  | .agentStore .. => true
  | .agentReplace .. => true
  | _ => false

/-- The messages that R399 numbers, each with its type (R398). QUERY, which may have to wait, is apart. -/
def numberedForm : Instr → Option (FlueMsg × Nat)
  | .close m => some (m, 0x02)
  | .put m => some (m, 0x10)
  | .putDone m => some (m, 0x11)
  | .answer m => some (m, 0x21)
  | .mrec m => some (m, 0x30)
  | .mcommit m => some (m, 0x31)
  | .mack m => some (m, 0x32)
  | .load m => some (m, 0x33)
  | .rread m => some (m, 0x40)
  | .rwrite m => some (m, 0x41)
  | .rresp m => some (m, 0x42)
  | .mapupd m => some (m, 0x43)
  | _ => none

/-- The MSEQ that a context expects on a VC (R399). -/
def expectedMseq (x : Ctx) (vc : Nat) : Nat := if vc = 0 then x.exp0 else x.exp1

/-- The node once a numbered message in its turn has been taken (R399): the MSEQ counted, the message recorded and acknowledged. -/
def State.afterMsg (s : State) (m : FlueMsg) : State :=
  let u := updCtx s m.dctx fun x =>
    if vcOf m.type = 0 then { x with exp0 := wrapAdd 32 x.exp0 1 } else { x with exp1 := wrapAdd 32 x.exp1 1 }
  sendAck (flueIn u m) m.dctx

/-- t differs from s in what coherence moves: directory and agents, stack lines and their poison, unit counters and what is sent or
recorded. -/
def State.onlyCoherence (s t : State) : Prop :=
  t = { s with coh := t.coh, mem := t.mem, poison := t.poison, out := t.out }

end Sys2Proof.Machine
end

