-- ==== Sys2Proof/Certificates/Slice0/Obligations.lean ====
section
/-!
DEFINITION. The statements about the model, by chapter of the spec. Each docstring names the rules it formalises. Where a statement
rests on a choice of the model it says so and names the log entry. "next t" in a conclusion is the command's own effect: the hypotheses speak
of the state before and the operands alone. A next state written as an update of s says what the command leaves unchanged as well.
-/

open Sys2Proof Sys2Proof.Machine

/-! The machine as a whole. -/

/-- A step performs the command at the front of the queue on the node with the queue's rest; on an empty queue it idles (log 11). -/
def Obligations.StepRunsTheFrontCommand : Prop :=
  (∀ (c : Instr) (q : List Instr) (s : State), step { s with pending := c :: q } = exec c { s with pending := q }) ∧
  ∀ s : State, s.pending = [] → step s = .next s

/-- R419, R416, R35, R38: what registers read after reset, before any start: CFG_STAT shows phase 1 and no readiness, the slot
registers show 8 (not examined), every block but CFG_ reads 0, and no command waits. -/
def Obligations.ResetReadsAsTheTablesSay : Prop :=
  regRead State.reset 0x10000 false = 1 ∧ regRead State.reset 0x10008 true = 8 ∧ regRead State.reset 0x10010 true = 8 ∧
  (∀ addr wide, addr / 0x10000 ≠ 1 → regRead State.reset addr wide = 0) ∧ State.reset.pending = [] ∧ State.reset.power.on = 0 ∧
  (quadOf State.reset 0).tileMhz = 0x960 ∧ (quadOf State.reset 0).nocMhz = 0x640

/-- The state after reset has the invariant of Safety. -/
def Obligations.ResetHasTheInvariant : Prop := State.reset.Inv

/-- Every step keeps the invariant: canonical memories, the device secret with the ROM alone (R427), READY in its phase alone
(R416, R418), selectors within their fields. -/
def Obligations.EveryStepKeepsTheInvariant : Prop :=
  ∀ s t : State, s.Inv → step s = .next t → t.Inv

/-- No command touches the queue of those that wait behind it. -/
def Obligations.NoCommandTouchesTheQueue : Prop :=
  ∀ (i : Instr) (s t : State), exec i s = .next t → t.pending = s.pending

/-- Every command is performed: the node answers each with a next state, refuses none and stops at none. What the spec calls
unpredictable after a command leaves free values, and the node goes on (R17, R76, R281, R349, R371, R470). -/
def Obligations.EveryCommandIsPerformed : Prop :=
  ∀ (i : Instr) (s : State), ∃ t, exec i s = .next t

/-! Registers (R13, R14, R419, R469, R470). -/

/-- R469: after readiness each block of the table reads at its base, those of a quad or tile that HUB_TOPO does not report as usable read
as 0, and a write to the block of a quad or tile changes no register. Outside the blocks BAR2 reads 0 and a write has no effect. -/
def Obligations.AddressesOutsideTheBlocksDoNothing : Prop :=
  (∀ (s : State) (addr : Nat) (wide : Bool) (v : W64), regAligned addr wide = true →
    (¬(addr / 0x10000 < 0xF ∨ 0x10 ≤ addr / 0x10000 ∧ addr / 0x10000 < 0x14 ∨ 0x20 ≤ addr / 0x10000 ∧ addr / 0x10000 < 0x60) →
      regRead s addr wide = 0 ∧ exec (.registerWrite addr wide v) s = .next s) ∧
    (0x10 ≤ addr / 0x10000 → exec (.registerWrite addr wide v) s = .next s)) ∧
  ∀ (s : State) (off : Nat), s.boot.ready = true → off < 0x10000 → off % 8 = 0 →
    (∀ x, x ∈ [(0x00000, readHub), (0x10000, readCfg), (0x20000, readSec), (0x30000, readPwr), (0x40000, readHlt), (0x50000, readTrc),
        (0x60000, readHst), (0x70000, readPen), (0x80000, readDma), (0x90000, readFlu), (0xA0000, readFch), (0xB0000, readFtl),
        (0xC0000, readDir), (0xD0000, readMem), (0xE0000, readNbu)] → regRead s (x.1 + off) true = x.2 s off) ∧
    (∀ n, n < 4 → regRead s (0x100000 + 0x10000 * n + off) true = if s.topo.quad.getLsbD n then readQd s n off else 0) ∧
    (∀ n, n < 64 → regRead s (0x200000 + 0x10000 * n + off) true =
      if s.topo.quad.getLsbD (n / 16) && tileUsable s n then readTl s n off else 0)

/-- R419, R13: before readiness a register write has no effect; a write anywhere in the blocks CFG_, SEC_ and HST_, whose registers are
all read-only, changes nothing. -/
def Obligations.WritesWithoutEffect : Prop :=
  ∀ (s : State) (addr : Nat) (wide : Bool) (v : W64), regAligned addr wide = true →
    (s.boot.ready = false → exec (.registerWrite addr wide v) s = .next s) ∧
    (addr / 0x10000 = 1 ∨ addr / 0x10000 = 2 ∨ addr / 0x10000 = 6 → exec (.registerWrite addr wide v) s = .next s)

/-- R13, R14: a write of a selector register sets its field from the value's low bits and nothing else: PEN_SEL, PEN_BSEL, PEN_VSEL,
MEM_SEL, NBU_SEL, PWR_DSEL, HLT_MSEL, FLU_PSEL, FLU_CSEL, FLU_RSEL, FCH_SEL, DIR_SEL, HUB_IDX_SEL. -/
def Obligations.SelectorWritesSetTheirField : Prop :=
  ∀ (s : State) (v : W64), s.boot.ready = true →
    exec (.registerWrite 0x70000 true v) s = .next { s with penSel := v.toNat % 2 ^ 8 } ∧
    exec (.registerWrite 0x70048 true v) s = .next { s with bselClass := v.toNat % 4, bselRes := v.toNat / 4 % 4 } ∧
    exec (.registerWrite 0x70058 true v) s = .next { s with vsel := v.toNat % 2 ^ 12 } ∧
    exec (.registerWrite 0xD0000 true v) s = .next { s with stackSel := v.toNat % 2 ^ 5 } ∧
    exec (.registerWrite 0xE0000 true v) s = .next { s with nbuSel := v.toNat % 2 ^ 5 } ∧
    exec (.registerWrite 0x30018 true v) s = .next { s with power := { s.power with dsel := v.toNat % 2 ^ 5 } } ∧
    exec (.registerWrite 0x40008 true v) s = .next { s with health := { s.health with msel := v.toNat % 2 ^ 5 } } ∧
    exec (.registerWrite 0x90008 true v) s = .next { s with flue := { s.flue with psel := v.toNat % 2 ^ 3 } } ∧
    exec (.registerWrite 0x90020 true v) s = .next { s with flue := { s.flue with csel := v.toNat % 2 ^ 10 } } ∧
    exec (.registerWrite 0x90030 true v) s = .next { s with flue := { s.flue with rsel := v.toNat % 2 ^ 10 } } ∧
    exec (.registerWrite 0xA0000 true v) s = .next { s with ftl := { s.ftl with sel := v.toNat % 2 ^ 5 } } ∧
    exec (.registerWrite 0xC0008 true v) s = .next { s with coh := { s.coh with sel := v.toNat % 2 ^ 2 } } ∧
    exec (.registerWrite 0x00200 true v) s = .next { s with drover := { s.drover with
      idxObject := v.toNat % 2 ^ 15, idxPen := v.toNat / 2 ^ 15 % 2 ^ 8 } }

/-! Pins, power and sensors (18). -/

/-- R466, R459, R460: LOSS_OF_POWER, RESET_N and PROG_EN switch every domain off. Of what the node held only the flash media and the
configuration flash are left, every sector of the media among it (a page whose program is cut short may add some, R316); host memory
and the model's own fields are outside the node. -/
def Obligations.PowerOffKeepsTheMediaAlone : Prop :=
  ∀ (i : Instr) (s : State), i = .lossOfPower ∨ i = .resetN ∨ i = .progEn →
    ∃ t, exec i s = .next t ∧ t.power.on = 0 ∧ t.cfgFlash = s.cfgFlash ∧ t.hostMem = s.hostMem ∧
      (∀ c slot x, tget? (chanOf s c).media.sectors slot = some x → tget? (chanOf t c).media.sectors slot = some x) ∧
      (∀ c, (chanOf t c).media.journal = (chanOf s c).media.journal ∧ (chanOf t c).media.ckpt = (chanOf s c).media.ckpt ∧
        (chanOf t c).map = [] ∧ (chanOf t c).usable = false) ∧
      t.boot = {} ∧ t.topo = {} ∧ t.quads = [] ∧ t.tiles = [] ∧ t.stks = [] ∧ t.mem = {} ∧ t.sram = {} ∧ t.pens = [] ∧ t.vecs = [] ∧
      t.port = {} ∧ t.drover = {} ∧ t.coh = {} ∧ t.dma = [] ∧ t.flue = {} ∧ t.health = {} ∧ t.trace = {} ∧
      t.power.resetN = (if i = .resetN then false else s.power.resetN) ∧ t.power.progEn = (if i = .progEn then true else s.power.progEn) ∧
      t.power.vin = (if i = .lossOfPower then false else s.power.vin)

/-- R465, R459, R416: TURN_ON with RESET_N and PROG_EN released, and RESET_N_HIGH with VIN present, begin a start: SPN, HUB, SEC and HX on
and no other domain, phase ROM, FAULT_N released, nothing ready; the reason is 0 or 1. -/
def Obligations.StartsBeginInPhaseRom : Prop :=
  ∀ s : State,
    (s.power.vin = false → s.power.resetN = true → s.power.progEn = false →
      ∃ t, exec .turnOn s = .next t ∧ t.power.on = coreDomains ∧ t.boot = { phase := 1, reason := 0 } ∧ t.power.faultN = false ∧
        t.power.vin = true ∧ t.cfgFlash = s.cfgFlash ∧ t.pens = []) ∧
    (s.power.vin = true → s.power.resetN = false ∨ s.power.progEn = true →
      ∃ t, exec .resetNHigh s = .next t ∧ t.power.on = coreDomains ∧ t.boot = { phase := 1, reason := 1 } ∧ t.power.faultN = false ∧
        t.power.resetN = true ∧ t.power.progEn = false ∧ t.cfgFlash = s.cfgFlash ∧ t.pens = [])

/-- R463: a rail fault of a domain that is on switches that domain off, sets its fault bit and is handled as its exhaustion. -/
def Obligations.RailFaultSwitchesItsDomainOff : Prop :=
  ∀ (s : State) (d : Nat), d < 20 → s.power.on.getLsbD d = true →
    ∃ t, exec (.railFault d) s = .next t ∧ t.power.on.getLsbD d = false ∧
      t = (let u := exhaust { s with power := { s.power with fault := s.power.fault ||| (1#20 <<< d) } } d
           { u with power := { u.power with on := u.power.on &&& ~~~ (1#20 <<< d) } })

/-- R468: a sample below every trip limit stores the temperatures, sets HOT of the stacks from 85 °C on, and sets or keeps the throttle;
one that reaches a hard limit removes power without a drain and drives FAULT_N low; one that reaches a trip limit fences the node and
leaves on no domain but HUB, SPN, SEC and HX. R461 and PWR_IN: a sample of the input power stores its values; PEAK is the highest WATTS since
start; above 1,750 W the node throttles and PCAP is set. Throttling begins at 105 °C of a die, 95 °C of a stack or above 1,750 W, and goes on
until every sensor is 5 °C below its limit and the power no higher. -/
def Obligations.SensorSamplesAct : Prop :=
  (∀ (s u : State) (quads : List Nat) (hub : Nat) (temps : List Nat), s.power.on &&& coreDomains = coreDomains →
    u = storeTemps s quads hub temps →
    (anyAt u 115 105 = false → exec (.thermalSample quads hub temps) s = .next { u with power := { u.power with
      hot := anyAt u 105 95 || decide (1750 < s.power.watts) || (s.power.hot && anyAt u 101 91), pcap := decide (1750 < s.power.watts) } }) ∧
    (u.power.hubTemp = hub ∧ (∀ q, q < 4 → tgetD u.power.quadTemp q 0 = quads.getD q 0) ∧ u.power.on = s.power.on ∧
      (∀ n, n < 20 → tgetD u.power.stackTemp n 0 = temps.getD n 0 ∧ (stackOf u n).hot = decide (85 ≤ temps.getD n 0)) ∧
      u.mem = s.mem ∧ u.pens = s.pens ∧ u.drover = s.drover ∧ u.port = s.port ∧ u.health = s.health) ∧
    (anyAt u 125 115 = true → ∃ t, exec (.thermalSample quads hub temps) s = .next t ∧ t.power.on = 0 ∧ t.power.faultN = true ∧
      t.port = {} ∧ t.boot = {}) ∧
    (anyAt u 115 105 = true → anyAt u 125 115 = false → ∃ t, exec (.thermalSample quads hub temps) s = .next t ∧
      t.power.on &&& ~~~ coreDomains = 0 ∧ t = setThrottle (darken (fenceNode u 6 true)))) ∧
  ∀ (s : State) (vin iin watts : Nat) (domains : List (Nat × Nat)), s.power.on &&& coreDomains = coreDomains →
    exec (.inputPowerSample vin iin watts domains) s = .next { s with power := { s.power with
      vinNow := vin, iin := iin, watts := watts, peak := max s.power.peak watts, pcap := decide (1750 < watts)
      hot := anyAt s 105 95 || decide (1750 < watts) || (s.power.hot && anyAt s 101 91)
      rails := (List.range 20).map fun d => (d, domains.getD d (0, 0)) } }

/-- R320, R321, R322, R459: a port trains when it offers 256 B flits at a width and rate of R320 on the host port's domains; port B only
on a split port; port A not before the sweep of a host lost before has ended (R280, the model's choice, log 23). LINK_DOWN and PERST are
link-downs of their port: it is down, a fall from up is counted, its controllers are reset; that of port A declares the host agent dead.
CXL_RESET clears the HDM decoders and declares the host agent dead. -/
def Obligations.HostLinksComeUpAndGoDown : Prop :=
  ∀ (s : State) (width rate : Nat), hostPortOn s = true →
    (¬hostAgent ∈ s.coh.toSweep → linkOk s.topo.hostSplit width rate = true →
      exec (.hostLinkUp false width rate true) s = .next { s with
        port := { s.port with upA := true, widthA := width, rateA := rate }, coh := { s.coh with deadHost := false } }) ∧
    (¬hostAgent ∈ s.coh.toSweep → s.topo.hostSplit = true → linkOk true width rate = true →
      exec (.hostLinkUp true width rate true) s = .next { s with
        port := { s.port with upB := true, widthB := width, rateB := rate } }) ∧
    (∀ portB, exec (.hostLinkUp portB width rate false) s = .next s) ∧
    (∀ i, i = .linkDown true ∨ i = .perst true → exec i s = .next ((portCtls s true).foldl clearCtl { s with
      port := { s.port with upB := false, widthB := 0, rateB := 0, downsB := if s.port.upB then satAdd 16 s.port.downsB 1 else s.port.downsB } })) ∧
    (∀ i, i = .linkDown false ∨ i = .perst false → exec i s = .next (declareDead ((portCtls s false).foldl clearCtl { s with
      port := { s.port with upA := false, widthA := 0, rateA := 0, downsA := if s.port.upA then satAdd 16 s.port.downsA 1 else s.port.downsA } })
      hostAgent)) ∧
    exec .cxlReset s = .next (declareDead { s with port := { s.port with hdm := [] } } hostAgent)

/-! Startup (16). -/

/-- R416, R425, R426, R427: ROM reconstructs the device secret from area A, else from area B, else has none; a failed self-test fails the
start. IMAGE loads the first slot that passes and clears the secret; with none the start fails. In POWER the domains that the image
enables switch on, late ones excepted; TRAIN notes what failed; CLEAR writes all stack memory with zero and leaves the lines that fail
poisoned; TEST ends once. -/
def Obligations.PhasesFollowOneAnother : Prop :=
  ∀ s : State,
    (inPhase s 1 = true → ∀ puf : List Byte,
      exec (.phaseRom false puf) s = .next (failStart s) ∧
      ∃ t, exec (.phaseRom true puf) s = .next t ∧ t = { s with boot := { s.boot with
        secret := t.boot.secret, ident := t.boot.secret.isSome, idsrc := t.boot.idsrc, phase := 2 } } ∧
        t.boot.secret = (secretFrom s puf 0).or (secretFrom s puf 1) ∧
        (t.boot.idsrc = 1 ↔ secretFrom s puf 0 = none ∧ (secretFrom s puf 1).isSome = true)) ∧
    (inPhase s 2 = true →
      (∀ n, selectSlot (latchSlots s) = some n → ∃ t, exec .phaseImage s = .next t ∧ t.boot.phase = 3 ∧ t.boot.loaded = true ∧
        t.boot.slot = n ∧ t.boot.image = imageIn (latchSlots s) n ∧ t.boot.secret = none ∧ t.boot.ready = s.boot.ready ∧ t.power = s.power) ∧
      (selectSlot (latchSlots s) = none → ∃ t, exec .phaseImage s = .next t ∧ t.boot.phase = 15 ∧ t.boot.secret = none ∧
        t.power.on = s.power.on &&& coreDomains)) ∧
    (inPhase s 3 = true → exec (.phasePower []) s = .next { loadImage s with
      power := { (loadImage s).power with on := coreDomains ||| s.boot.image.domains }
      boot := { (loadImage s).boot with phase := 4 } }) ∧
    (inPhase s 4 = true → ∀ m x g, ∃ t, exec (.phaseTrain m x g) s = .next t ∧ t.boot.phase = 5 ∧ t.boot.trainStacks = x ∧
      t.topo.d2dDown = m.filter fun n => decide (n < 24)) ∧
    (inPhase s 5 = true → exec (.phaseClear []) s = .next { s with
        mem := {}, poison := [], boot := { s.boot with phase := 6 } } ∧
      ∀ l, l % line = 0 → stackUsable s (dpaStack l) = true → ∃ t, exec (.phaseClear [l]) s = .next t ∧ t.mem = {} ∧ t.poison = [l] ∧
        t.boot.phase = 6) ∧
    (inPhase s 6 = true → s.boot.tested = false → ∀ failed columns, ∃ t, exec (.phaseTest failed columns) s = .next t ∧ t.boot.tested = true ∧
      t.boot.phase = 6)

/-- R418, R419, R38, R393: READINESS, with the self-tests over, some quad, stack and Drover DMA channel usable and no channel left to
rebuild, makes the node ready: phase READY, HUB_TOPO latched, Flue ports of the image and of lit domains in training. Without a usable
quad or DMA channel the start fails. -/
def Obligations.ReadinessOpensTheNode : Prop :=
  ∀ s : State, inPhase s 6 = true → s.boot.tested = true →
    (canStart s = true → rebuildsOver s = true → ∃ t, exec .readiness s = .next t ∧ t.boot.phase = 7 ∧ t.boot.ready = true ∧
      t.topo.quad = s.topo.quadOk ∧ t.topo.stack = s.topo.stackOk ∧ t.topo.tiles = popCount 64 s.topo.tileOk ∧
      (∀ p, p < 8 → (portOf t p).st = if portEnabled s.boot.image p && s.power.on.getLsbD (domFL p) then 1 else 0) ∧
      t.mem = s.mem ∧ t.power = s.power) ∧
    (canStart s = false → exec .readiness s = .next (failStart s)) ∧
    (failStart s).boot.phase = 15 ∧ (failStart s).boot.ready = false ∧ (failStart s).power.on = s.power.on &&& coreDomains

/-- R429, R430: with the mailbox up, outside a session and on a node neither failed nor fenced, each request of R429 is answered by its
response; a node without an identity answers GET_DIGESTS, GET_CERTIFICATE and CHALLENGE with Unspecified, and a slot other than 0 does
not exist; a request that R429 does not list is unsupported. Responses change nothing but what is sent (and the free value of a
signature). -/
def Obligations.SpdmRequestsAreAnswered : Prop :=
  ∀ s : State, spdmUp s = true → spdmLimited s = false → s.boot.session = false →
    exec .getVersion s = .next (emit s (.spdm .version)) ∧
    exec .getCapabilities s = .next (emit s (.spdm .capabilities)) ∧
    (∀ a b c d : Bool, exec (.negotiateAlgorithms a b c d) s = .next (emit s (.spdm (.algorithms (a && b && c && d))))) ∧
    (∀ code, ¬code ∈ spdmCodes → exec (.unsupportedSpdmRequest code) s = .next (emit s (.spdm (.error 1)))) ∧
    (hasIdentity s = false → exec .getDigests s = .next (emit s (.spdm (.error 0))) ∧
      (∀ slot off n, exec (.getCertificate slot off n) s = .next (emit s (.spdm (.error 0)))) ∧
      ∀ slot nonce, exec (.challenge slot nonce) s = .next (emit s (.spdm (.error 0)))) ∧
    (hasIdentity s = true → exec .getDigests s = .next (emit s (.spdm (.digests (sha3_512 (chain0 s))))) ∧
      (∀ off n, off < (chain0 s).length →
        exec (.getCertificate 0 off n) s = .next (emit s (.spdm (.certificate (((chain0 s).drop off).take n))))) ∧
      (∀ nonce, exec (.challenge 0 nonce) s = .next { s with nfree := s.nfree + 1, out := s.out ++ [.spdm (.challengeAuth
        (Config.ed448Sign s.boot.aliasKey (Config.spdmTranscript 0x83 nonce (sha3_512 (chain0 s)) s.nfree)))] }) ∧
      ∀ slot nonce, slot ≠ 0 → exec (.challenge slot nonce) s = .next (emit s (.spdm (.error 2))))

/-- R431, R425, R432: an unsigned GET_MEASUREMENTS is answered whenever the mailbox is up, in a session, after a failed start and on a
fenced node too, with the measurement blocks it names: a start without a verified image has ROM's alone. -/
def Obligations.MeasurementsAreAlwaysAnswered : Prop :=
  ∀ (s : State) (nonce : List Byte), spdmUp s = true →
    exec (.getMeasurements 1 false nonce) s = .next (emit s (.spdm (.measurements [(1, Config.romDigest)] none))) ∧
    (s.boot.loaded = true →
      exec (.getMeasurements 0 false nonce) s = .next (emit s (.spdm (.measurements [(0, [6])] none))) ∧
      exec (.getMeasurements 4 false nonce) s = .next (emit s (.spdm (.measurements [(4, s.boot.image.digImage)] none)))) ∧
    (s.boot.loaded = false → s.boot.verified = none →
      exec (.getMeasurements 0 false nonce) s = .next (emit s (.spdm (.measurements [(0, [1])] none))))

/-- R433: the first session that FINISH opens after a start establishes K0 from the session's export master secret; a later one leaves
it as it is. END_SESSION ends the session and K0 stays. Without K0 no KEYED command of any pen is accepted (in replay the recorded
outcome decides); SEC_STAT.K0 shows whether K0 exists. -/
def Obligations.SessionsEstablishK0Once : Prop :=
  ∀ s : State,
    (s.boot.k0 = none → s.trace.replay = false → ∀ p code b permitted, keyedOk s p code b permitted = false) ∧
    (regRead s 0x20000 true).testBit 4 = s.boot.k0.isSome ∧
    (spdmUp s = true → spdmLimited s = false →
    (s.boot.session = false → hasIdentity s = true → ∀ secret, ∃ t, exec (.keyExchange secret) s = .next t ∧
      t = { s with nfree := s.nfree + 1, out := t.out, boot := { s.boot with sessionSecret := secret } }) ∧
    (s.boot.session = false → s.boot.sessionSecret ≠ [] →
      exec (.finish true) s = .next (emit { s with boot := { s.boot with
        session := true, k0 := s.boot.k0.or (some (kmac256 s.boot.sessionSecret [] 32 (ascii "VN-J720 K0"))) } } (.spdm .finishRsp)) ∧
      exec (.finish false) s = .next (emit { s with boot := { s.boot with sessionSecret := [] } } (.spdm (.error 0)))) ∧
    (s.boot.session = true → exec .endSession s = .next (emit { s with boot := { s.boot with
      session := false, sessionSecret := [] } } (.spdm .endSessionAck))))

/-! Updating the image (R434), pens (13), resets. -/

/-- R357: every keyed command fetched from a Skex queue whose counter, sender or tag fails the checks (in replay: whose recorded outcome
says so) completes with TAG_REJECTED and none of its effect; KREJ of its pen counts it. A control code that no chapter defines is
permitted to no pen. -/
def Obligations.KeyedCommandsAreTurnedAway : Prop :=
  ∀ (s : State) (c : Cmd) (b : KBlock) (n : Nat), canFetch s c = some n → onSkex s c = true → c.bad = false →
    (∀ i code permit, keyedForm i = some (c, b, code, permit) →
      keyedOk s (penOfCtl c.ctl) code b (permit (penOfCtl c.ctl)) = false →
      exec i s = .next (complete (s.afterReject c n) c stTagRejected)) ∧
    ∀ code : BitVec 16, ¬code.toNat ∈ controlCodes → s.trace.replay = false →
      exec (.undefinedControlCode c code b) s = .next (complete (s.afterReject c n) c stTagRejected)

/-- R434: accepted from pen 0 for the slot that this start did not load, CFG_ERASE erases the image slot, CFG_WRITE programs the bytes of
its source at its offset, CFG_VERIFY latches the outcome of the checks and completes by it, and CFG_ACTIVATE of a slot that passes with a
higher SEQUENCE completes with SUCCESS and starts the node anew, reason 4. In replay the first, the second and the last are not performed
and complete with a status the recording gives, here a free one (R454, log 14). u is the node once the command is accepted. A control that names the slot loaded at this start completes with Invalid Field in Command and changes no slot. -/
def Obligations.TheImageIsUpdated : Prop :=
  (∀ (s : State) (c : Cmd) (b : KBlock) (n slot : Nat) (u : State), canFetch s c = some n → u = s.afterKeyed c b n →
    allZero b.resv = true → slot = karg b 0 1 → slot ≤ 1 → slot ≠ u.boot.slot →
    (keyedAccepted s c b 0x0200 onlyPen0 = true → allZero (sub b.args 1 31) = true → u.trace.replay = false →
      exec (.cfgErase c b) s = .next (complete { u with cfgFlash := tmod u.cfgFlash slot fun m => m.zero 0 slotBytesMax } c stSuccess)) ∧
    (∀ bytes, keyedAccepted s c b 0x0201 onlyPen0 = true → cfgWriteOk b = true → u.trace.replay = false →
      readOp u 0 none (opRefOf (karg b 16 8)) 0 (karg b 8 4) = .ok bytes →
      exec (.cfgWrite c b) s = .next (complete { u with cfgFlash := tmod u.cfgFlash slot fun m => m.write (karg b 4 4) bytes } c stSuccess)) ∧
    (keyedAccepted s c b 0x0202 onlyPen0 = true → allZero (sub b.args 1 31) = true →
      exec (.cfgVerify c b) s = .next (complete (setSlotReg u slot (judgeSlot u slot)) c
        (if (judgeSlot u slot).reason = 0 then stSuccess else stInvalidFirmwareImage))) ∧
    (keyedAccepted s c b 0x0203 onlyPen0 = true → allZero (sub b.args 1 31) = true → u.trace.replay = false →
      (judgeSlot u slot).reason = 0 → u.boot.seqRunning < (imgHead u slot).sequence →
      exec (.cfgActivate c b) s = .next (startNode (complete (quiesceCold (setSlotReg u slot (judgeSlot u slot))) c stSuccess) 4)) ∧
    (u.trace.replay = true → allZero (sub b.args 1 31) = true →
      (keyedAccepted s c b 0x0200 onlyPen0 = true → exec (.cfgErase c b) s = .next (completeFree u c)) ∧
      (keyedAccepted s c b 0x0203 onlyPen0 = true → exec (.cfgActivate c b) s = .next (completeFree u c)))) ∧
  ∀ (s : State) (c : Cmd) (b : KBlock) (n : Nat) (u : State), canFetch s c = some n → u = s.afterKeyed c b n →
    allZero b.resv = true → karg b 0 1 ≤ 1 → karg b 0 1 = u.boot.slot →
    (allZero (sub b.args 1 31) = true →
      (keyedAccepted s c b 0x0200 onlyPen0 = true → exec (.cfgErase c b) s = .next (complete u c stInvalidField)) ∧
      (keyedAccepted s c b 0x0202 onlyPen0 = true → exec (.cfgVerify c b) s = .next (complete u c stInvalidField)) ∧
      (keyedAccepted s c b 0x0203 onlyPen0 = true → exec (.cfgActivate c b) s = .next (complete u c stInvalidField))) ∧
    (cfgWriteOk b = true → keyedAccepted s c b 0x0201 onlyPen0 = true →
      exec (.cfgWrite c b) s = .next (complete u c stInvalidField))

/-- R352, R359, R361, R365, R368, R360: PEN_CREATE of a number not in use within the node totals makes the pen with open dampers, its
vectors the lowest free range. PEN_QUOTA and PEN_DAMPER of an existing pen take effect at once, or when its reset has ended. PEN_RESET and
PEN_DESTROY of an existing pen begin its reset, which ends its unissued tasks; their completion waits. -/
def Obligations.PensAreCreatedAndSet : Prop :=
  ∀ (s : State) (c : Cmd) (b : KBlock) (n p v : Nat) (u : State), canFetch s c = some n → u = s.afterKeyed c b n →
    allZero b.resv = true → p = karg b 0 2 → p ≤ 255 →
    (keyedAccepted s c b 0x0001 onlyPen0 = true → penArgsOk b.args = true → 1 ≤ p → 1 ≤ karg b 24 8 → (penOf u p).alive = false →
      (penOf u p).gen ≠ 0xFFFFFF → karg b 16 8 + karg b 24 8 ≤ u.ftl.nsBlocks →
      quotasFit u p (karg b 2 2) (karg b 6 2) (karg b 8 2) (karg b 12 2) = true → freeVecs u (karg b 4 2) = some v →
      exec (.penCreate c b) s = .next (complete (giveVecs { u with pens := tput u.pens p (openDampers
        { alive := true, queues := karg b 2 2, vectors := karg b 4 2, taskUnits := karg b 6 2, baleGib := karg b 8 2
          poolPct := karg b 10 1, peerCtx := karg b 12 2, minClass := bits (karg b 11 1) 0 2, dclass := bits (karg b 11 1) 2 2, vbase := v
          gen := (penOf u p).gen + 1, winBase := karg b 16 8, winLen := karg b 24 8 }) } p v (karg b 4 2)) c stSuccess)) ∧
    (keyedAccepted s c b 0x0003 onlyPen0 = true → quotaArgsOk b.args = true → (penOf u p).alive = true → quotaRaiseFits u p b.args = true →
      exec (.penQuota c b) s = .next (complete (updPen u p fun x =>
        if x.resetting then { x with deferred := x.deferred ++ [.quota b.args] } else applyQuota x b.args) c stSuccess)) ∧
    (keyedAccepted s c b 0x0004 onlyPen0 = true → damperArgsOk b.args = true → (penOf u p).alive = true →
      exec (.penDamper c b) s = .next (complete (updPen u p fun x =>
        if x.resetting then { x with deferred := x.deferred ++ [.damper b.args] } else applyDamper x b.args) c stSuccess)) ∧
    (keyedAccepted s c b 0x0005 (fun q => q == 0 || q == p) = true → penOnly b.args = true → (penOf u p).alive = true →
      (penOf u p).resetting = false → ∀ w, w = updPen u p (fun x => { x with resetting := true, resetWait := x.resetWait ++ [(c, false)] }) →
      exec (.penReset c b) s = .next ((unissued w p).foldl (fun x t => failTask x t stResetAborted) w)) ∧
    (keyedAccepted s c b 0x0002 onlyPen0 = true → penOnly b.args = true → p ≠ 0 → (penOf u p).alive = true →
      (penOf u p).resetting = false → ∀ w, w = updPen u p (fun x => { x with resetting := true, resetWait := x.resetWait ++ [(c, true)] }) →
      exec (.penDestroy c b) s = .next ((unissued w p).foldl (fun x t => failTask x t stResetAborted) w))

/-- R368, R369, R416: PEN_RESET_END, with no sent FLUE_SEND of the pen unanswered, stops its issued tasks, releases its scratch objects
and pins, applies deferred settings, sends its vectors' counted messages, and completes the commands that waited. WARM_RESET stops
fetching and issue and ends every task but sent messages; once all has quiesced WARM_RESET_BEGIN leaves the node at phase CLEAR, reason 3,
without pens, keys or memory. COLD_RESET starts it anew, reason 2. -/
def Obligations.ResetsRunToTheirEnd : Prop :=
  (∀ (s : State) (p : Nat), (penOf s p).alive = true → (penOf s p).resetting = true → sentTasks s p = [] →
    ((penOf s p).resetWait.any (·.2)) = false →
    exec (.penResetEnd p) s = .next (sendAnswers (wake ((penOf s p).resetWait.foldl (fun x w => complete x w.1 stSuccess)
      (flushVecs (updPen (releasePen ((issuedTasks s p).foldl stopTask s) p) p applyDeferred) p))))) ∧
  (∀ x : Pen, (applyDeferred x).resetting = false ∧ (applyDeferred x).deferred = [] ∧ (applyDeferred x).resetWait = []) ∧
  (∀ (s : State) (c : Cmd) (b : KBlock) (n : Nat) (u : State), canFetch s c = some n → u = s.afterKeyed c b n →
    allZero b.resv = true → allZero (sub b.args 2 30) = true →
    (keyedAccepted s c b 0x0006 onlyPen0 = true → u.trace.replay = false → ∀ w sent,
      w = { u with port := { u.port with stopped := true, warm := some c }, drover := { u.drover with stopped := true } } →
      sent = ((alivePens w).flatMap fun p => sentTasks w p.1) →
      exec (.warmReset c b) s = .next (sendAnswers (((((allTasks w).filter fun x => x.2.2.st != .complete).map (·.1)).filter
        fun t => !decide (t ∈ sent)).foldl (fun x t => match taskOf x t with
          | some k => if k.st == .issued || k.st == .finished then stopTask x t else failTask x t stResetAborted
          | none => x) w))) ∧
    (keyedAccepted s c b 0x0007 onlyPen0 = true → u.trace.replay = false →
      ∃ t, exec (.coldReset c b) s = .next t ∧ t.boot = { phase := 1, reason := 2 } ∧ t.power.on = coreDomains ∧ t.pens = [] ∧
        t.mem = {} ∧ t.drover = {} ∧ t.port = {})) ∧
  ∀ (s : State) (c : Cmd), s.port.warm = some c → quiesced s = true →
    ∃ t, exec .warmResetBegin s = .next t ∧ t.boot.phase = 5 ∧ t.boot.reason = 3 ∧ t.boot.ready = false ∧ t.boot.k0 = none ∧
      t.boot.session = false ∧ t.mem = {} ∧ t.pens = [] ∧ t.drover.graphs = [] ∧ t.coh.deadHost = true

/-- R362, R363: DAMPER_TICK adds RATE × unit to every bucket of every pen, up to its cap (RATE 0xFFFF: the bucket stays); TIME's expiry on a vector
with counted entries sends its message, or keeps it pending while masked; unmasking sends the pending one; a write of PEN_VMOD sets THR
and TIME of the selected vector. -/
def Obligations.TicksAndVectors : Prop :=
  ∀ s : State,
    (∃ t, exec .damperTick s = .next t ∧ ∀ p k r, k < 4 → r < 3 → (penOf s p).alive = true →
      bktVal (penOf t p) k r = (if bktFree (penOf s p) k r then bktVal (penOf s p) k r else
        min (bktVal (penOf s p) k r + (bktRate (penOf s p) k r * rateUnit r : Nat)) (bktCap (penOf s p) k r))) ∧
    (∀ v x, x = tget s.vecs v → x.assigned = true → 0 < x.pend → 0 < x.time →
      exec (.vectorTimeExpiry v) s = .next (if x.masked then { s with vecs := tput s.vecs v { x with pend := 0, pba := true } }
        else { s with vecs := tput s.vecs v { x with pend := 0 }, out := s.out ++ [.msix v] })) ∧
    (∀ v x, x = tget s.vecs v →
      exec (.msixUnmask v) s = .next { s with
        vecs := tput s.vecs v { x with masked := false, pba := false }, out := if x.pba then s.out ++ [.msix v] else s.out }) ∧
    (∀ (w : W64) x, x = tget s.vecs s.vsel → s.boot.ready = true → x.assigned = true →
      exec (.penVmodWrite w) s = .next { s with
        vecs := tput s.vecs s.vsel { x with thr := w.toNat % 256, time := w.toNat / 256 % 4096 } })

/-! The host port (12). -/

/-- R419, R322, R323, R329, R335: CC.EN = 1 puts the admin queues in place, RDY or CFS as the node stands; CC.EN = 0 and an FLR clear the
controller, an FLR of a physical function stops its DMA rings too. A tail doorbell covers the new entries; a head doorbell frees entries
and writes those that waited. A doorbell value that R349 forbids leaves a free tail or head within the queue (the model's choice, log 134),
and nothing else. -/
def Obligations.ControllersAndDoorbells : Prop :=
  ∀ (s : State) (ctl : Nat),
    (∀ asq asqs acq acqs, hostPortOn s = true → ctl < 256 ∨ ctl < 512 ∧ s.topo.hostSplit = true → (ctlOf s ctl).en = false → (penOfCtl ctl = 0 ∨ s.boot.ready = true) →
      exec (.controllerEnable ctl asq asqs acq acqs) s = .next (updCtl s ctl fun x => { x with
        en := true, cfs := nodeFailed s, dead := false
        rdy := s.boot.ready && !nodeFailed s && (penOf s (penOfCtl ctl)).alive
        admin := { base := asq, size := asqs, cqid := 0 }, adminCq := { base := acq, size := acqs, ien := true, iv := 0 } })) ∧
    ((ctlOf s ctl).en = true → exec (.controllerReset ctl false) s = .next (clearCtl s ctl)) ∧
    exec (.controllerReset ctl true) s = .next (if penOfCtl ctl = 0 then stopRings (clearCtl s ctl) else clearCtl s ctl) ∧
    (∀ sq tail q writes, takesDoorbell s ctl = true → sqOf (ctlOf s ctl) sq = some q → ∀ f t, f = (if tailOk q tail then 0 else 1) →
      t = (if tailOk q tail then tail else freeTail q s.nfree) →
      exec (.sqTailDoorbell ctl sq tail writes) s = .next { s with
        nfree := s.nfree + f
        hostMem := s.hostMem.sets (writes.map fun w => (hostKey (penOfCtl ctl) w.1, w.2))
        port := { s.port with ctls := tmod s.port.ctls ctl fun x => setSq x sq { q with
          covered := q.covered + (t + q.size - q.covered % q.size) % q.size
          marks := (q.marks.filter fun m => decide (q.fetched < m.upto)) ++
            [{ upto := q.covered + (t + q.size - q.covered % q.size) % q.size, others := coverage s (penOfCtl ctl) ctl sq }] } } }) ∧
    (∀ q tag, 0 < q.size → q.covered - q.fetched < q.size → tailOk q (freeTail q tag) = true) ∧
    (∀ cq head q, takesDoorbell s ctl = true → cqOf (ctlOf s ctl) cq = some q →
      (head < q.size → exec (.cqHeadDoorbell ctl cq head) s =
        .next (drainCq (updCtl s ctl fun x => setCq x cq { q with head := head }) ctl cq q.waiting.length)) ∧
      (q.size ≤ head → exec (.cqHeadDoorbell ctl cq head) s = .next (drainCq (updCtl { s with nfree := s.nfree + 1 } ctl fun x =>
        setCq x cq { q with head := (Config.freeWord s.nfree).toNat % max q.size 1 }) ctl cq q.waiting.length))) ∧
    (∀ sq head q, ctlUp s ctl = true → tget? (ctlOf s ctl).sqs sq = some q → q.skex = true → rqHeadOk q.rq head = true →
      exec (.recordQueueHeadDoorbell ctl sq head) s = .next (sendOwed (drainRq (updCtl s ctl fun x => { x with
        sqs := tupd x.sqs sq fun y => { y with rq := { y.rq with head := head } } }) ctl sq q.rq.waiting.length)))

/-- R326, R328, R353: queues are created within the pen's QUEUES, with 2 to 65,536 entries, a completion queue that exists and a vector
below VECTORS, and deleted (PUTs whose arrival records waited there are answered); each completes with SUCCESS. u is the node once the command is fetched. -/
def Obligations.QueuesAreCreatedAndDeleted : Prop :=
  ∀ (s : State) (c : Cmd) (n qid base entries : Nat) (u : State), canFetch s c = some n → c.sq = 0 → u = doFetch s c n →
    (∀ cqid, sqCreateStatus u c qid entries cqid true = stSuccess →
      exec (.createIoSq c qid base entries cqid true) s = .next (complete (updCtl u c.ctl fun x => { x with
        sqs := tput x.sqs qid { base := base, size := entries, cqid := cqid } }) c stSuccess) ∧
      ∀ rqBase rqEntries, 2 ≤ rqEntries → rqEntries ≤ 65536 →
        exec (.createSkexQueue c qid base entries cqid rqBase rqEntries true) s = .next (complete (updCtl u c.ctl fun x => { x with
          sqs := tput x.sqs qid { base := base, size := entries, cqid := cqid, skex := true, rq := { base := rqBase, size := rqEntries } } })
            c stSuccess)) ∧
    (∀ cqid, 1 ≤ qid → qid ≤ (penOf s (penOfCtl c.ctl)).queues → thas (ctlOf u c.ctl).sqs qid = false → 2 ≤ entries → entries ≤ 65536 →
      cqid ≠ 0 → thas (ctlOf u c.ctl).cqs cqid = true → sqCreateStatus u c qid entries cqid true = stSuccess) ∧
    (∀ iv ien, 1 ≤ qid → qid ≤ (penOf s (penOfCtl c.ctl)).queues → thas (ctlOf u c.ctl).cqs qid = false → 2 ≤ entries → entries ≤ 65536 →
      iv < (penOf s (penOfCtl c.ctl)).vectors →
      exec (.createIoCq c qid base entries iv ien true) s = .next (complete (updCtl u c.ctl fun x => { x with
        cqs := tput x.cqs qid { base := base, size := entries, iv := iv, ien := ien } }) c stSuccess)) ∧
    (qid ≠ 0 → thas (ctlOf u c.ctl).sqs qid = true → exec (.deleteIoSq c qid) s = .next (sendOwed (complete (deleteSq u c.ctl qid) c stSuccess))) ∧
    (qid ≠ 0 → thas (ctlOf u c.ctl).cqs qid = true → (∀ q ∈ (ctlOf u c.ctl).sqs, q.2.cqid ≠ qid) →
      exec (.deleteIoCq c qid) s = .next (complete (updCtl u c.ctl fun x => { x with cqs := tdel x.cqs qid }) c stSuccess))

/-- R325, R326, R346, R348, R448, R449: the other admin commands. Identify and Get Log Page write their page through the PRP list; Abort
aborts nothing and says so; features keep their values, the write cache from pen 0 only; an Asynchronous Event Request is kept without a
completion; a sanitize begins when no pen holds a flash-resident index or a region, and its end forms the namespace anew. An opcode that
the queue does not accept completes with Invalid Command Opcode. u is the node once the command is fetched. -/
def Obligations.AdminCommandsComplete : Prop :=
  ∀ (s : State) (c : Cmd) (n : Nat) (u : State), canFetch s c = some n → u = doFetch s c n →
    (c.sq = 0 →
      (∀ prp, exec (.identify c 0 prp) s = .next (complete (prpWrite u (fnPages c prp) (identifyNamespace u (penOfCtl c.ctl))) c stSuccess) ∧
        exec (.identify c 1 prp) s = .next (complete (prpWrite u (fnPages c prp) (identifyController u c.ctl)) c stSuccess) ∧
        exec (.identify c 2 prp) s = .next (complete (prpWrite u (fnPages c prp) (le 4 1 ++ List.replicate 4092 0)) c stSuccess)) ∧
      (∀ lid off len prp page, logPage u (penOfCtl c.ctl) lid = some page →
        exec (.getLogPage c lid off len prp) s = .next (complete (prpWrite u (fnPages c prp) (sub page off len)) c stSuccess)) ∧
      exec (.abort c) s = .next (complete u c stSuccess 1) ∧
      (∀ v : W32, exec (.setFeatures c 0x01 v) s = .next (complete (updCtl u c.ctl fun x => { x with arbitration := v }) c stSuccess) ∧
        exec (.setFeatures c 0x0B v) s = .next (complete (updCtl u c.ctl fun x => { x with aec := v }) c stSuccess) ∧
        (penOfCtl c.ctl = 0 →
          exec (.setFeatures c 0x06 v) s = .next (complete { u with port := { u.port with wce := v.getLsbD 0 } } c stSuccess))) ∧
      exec (.getFeatures c 0x01) s = .next (complete u c stSuccess (ctlOf u c.ctl).arbitration.toNat) ∧
      exec (.getFeatures c 0x06) s = .next (complete u c stSuccess (if u.port.wce then 1 else 0)) ∧
      exec (.getFeatures c 0x0B) s = .next (complete u c stSuccess (ctlOf u c.ctl).aec.toNat) ∧
      ((ctlOf u c.ctl).aers.length < 4 → ∃ t, exec (.asynchronousEventRequest c) s = .next t ∧
        (ctlOf t c.ctl).aers = (ctlOf u c.ctl).aers ++ [c] ∧ t.out = u.out ∧ t.hostMem = u.hostMem) ∧
      (penOfCtl c.ctl = 0 → u.port.sanitizing = none → flashHeld u = false →
        ∃ t, exec (.sanitize c 2) s = .next (complete t c stSuccess) ∧ t.port = { u.port with sanitizing := some c } ∧
          ∀ ch, (chanOf t ch).media.sanitizing = ((chanOf u ch).media.sanitizing || (chanOf u ch).usable))) ∧
    (∀ opcode, opcodeKnown s c opcode = false → exec (.invalidCommandOpcode c opcode) s = .next (complete u c stInvalidOpcode)) ∧
    (∀ c', s.port.sanitizing = some c' → ∃ t, exec .sanitizeEnd s = .next t ∧ t.port.sanitizing = none ∧ t.port.wb = [] ∧
      t.ftl.stores = [] ∧ ∀ ch, (chanOf s ch).media.sanitizing = true →
        (chanOf t ch).map = [] ∧ (chanOf t ch).media.sectors = [] ∧ (chanOf t ch).media.journal = [] ∧
        (chanOf t ch).media.sanitizing = false)

/-- R330, R60, R331: the completion entry of a command whose completion queue has room: its 16 bytes at the queue's tail hold dword 0, the
queue's sequence number, the submission queue's head and number, the command's identifier, the phase bit and the status, little-endian;
the tail moves on, the phase changes where it wraps, the sequence number rises by 1. Where the controller's queues overlap there (R349) the
16 bytes are free. Nothing outside the entry changes in the host memory of the controller's function or of another. -/
def Obligations.CompletionEntriesAreWritten : Prop :=
  ∀ (s : State) (ctl n at_ : Nat) (q : Cq) (e : Cqe), at_ = hostKey (penOfCtl ctl) (q.base + 16 * q.tail) → s.trace.replay = false → s.trace.recording = false →
    cqOf (ctlOf s ctl) n = some q → q.waiting = [] → (q.tail + 1) % q.size ≠ q.head →
    e.status < 2 ^ 15 → e.cid < 2 ^ 16 → e.sq < 2 ^ 16 → e.sqHead < 2 ^ 16 → q.seq < 2 ^ 32 →
    (∀ a, ¬(at_ ≤ a ∧ a < at_ + 16) → (postCqe s ctl n e).hostMem.byte a = s.hostMem.byte a) ∧
    (∀ i, i < 16 → (postCqe s ctl n e).hostMem.byte (at_ + i) =
      if ringClash (ctlOf s ctl) (q.base + 16 * q.tail) 16 then Config.freeByte s.nfree (at_ + i) else
        (le 4 e.dw0.toNat ++ le 4 q.seq ++ le 2 e.sqHead ++ le 2 e.sq ++ le 2 e.cid ++ le 2 (b2n q.phase + 2 * e.status)).getD i 0) ∧
    (∃ q', cqOf (ctlOf (postCqe s ctl n e) ctl) n = some q' ∧ q'.tail = (q.tail + 1) % q.size ∧
      q'.phase = (if q.tail + 1 = q.size then !q.phase else q.phase) ∧ q'.seq = (q.seq + 1) % 2 ^ 32 ∧ q'.head = q.head) ∧
    (postCqe s ctl n e).mem = s.mem ∧ (postCqe s ctl n e).pens = s.pens ∧ (postCqe s ctl n e).drover.graphs = s.drover.graphs

/-- R322, R329: a full completion queue keeps the entry in order, and a queue that is gone takes none. -/
def Obligations.FullAndGoneQueuesTakeNoEntry : Prop :=
  ∀ (s : State) (ctl n : Nat) (e : Cqe),
    (cqOf (ctlOf s ctl) n = none → postCqe s ctl n e = s) ∧
    (∀ q, cqOf (ctlOf s ctl) n = some q → (q.waiting ≠ [] ∨ (q.tail + 1) % q.size = q.head) →
      postCqe s ctl n e = updCtl s ctl fun x => setCq x n { q with waiting := q.waiting ++ [e] })

/-- R327, R341, R343, R344, R326: the I/O commands on an I/O queue with no sanitize under way. A Flush waits for what was buffered and
trimmed before it; a Write of units that can be written hands its data over; a Read begins the read of every unit; data through a
malformed PRP list are free values (R349); Dataset Management
without the deallocate attribute does nothing, with it every unit is trimmed; a range that leaves the pen's window writes nothing. The
write buffer admits writes that wait, and drains its oldest unit of a channel. u is the node once the command is fetched. -/
def Obligations.IoCommandsComplete : Prop :=
  (∀ (s : State) (c : Cmd) (n slba blocks : Nat) (prp : List Nat) (u : State), canFetch s c = some n → u = doFetch s c n → c.sq ≠ 0 →
    exec (.flush c) s = .next (wake { u with port := { u.port with
      flushes := u.port.flushes ++ [{ cmd := c, upto := u.port.wbSeq, trims := staleTrims u }] } }) ∧
    (u.port.sanitizing = none → ioPositive s (penOfCtl c.ctl) = true → rangeWaits s (penOfCtl c.ctl) slba blocks = false →
      (∀ fua us v w, windowUnits u (penOfCtl c.ctl) slba blocks = some us → (∀ x ∈ us, unitWriteStatus u x = 0) →
        v = chargeIo (prpRec (penOfCtl c.ctl) prp (4096 * blocks) u) (penOfCtl c.ctl)
          (if !fua && wbInUse (prpRec (penOfCtl c.ctl) prp (4096 * blocks) u) then 4096 * blocks else 0) (ceilDiv blocks 4) →
        w = writeUnits v (.cmd c n) fua (dataUnits us (prpRead v (fnPages c prp) (4096 * blocks))) →
        exec (.write c slba blocks fua prp) s = .next (settleOrdered w (orderedCount w))) ∧
      (∀ fua, windowUnits u (penOfCtl c.ctl) slba blocks = none →
        exec (.write c slba blocks fua prp) s = .next (complete u c stLbaOutOfRange)) ∧
      (∀ us v, windowUnits u (penOfCtl c.ctl) slba blocks = some us → v = chargeIo u (penOfCtl c.ctl) 0 (ceilDiv blocks 4) →
        exec (.read c slba blocks prp) s = .next (if prpOk prp (4096 * blocks)
          then readUnits v (.cmd c n) putHost (us.zip (unitPlaces (fnPages c prp)))
          else completeFree (wildPages v (fnPages c prp)) c)) ∧
      (∀ us, windowUnits u (penOfCtl c.ctl) slba blocks = some us →
        exec (.datasetManagement c [(slba, blocks)] false) s = .next (complete u c stSuccess) ∧
        ((∀ x ∈ us, unitWriteStatus u x = 0) → ∀ v, v = us.foldl trimUnit u →
          exec (.datasetManagement c [(slba, blocks)] true) s = .next (complete { v with ftl := { v.ftl with
            chans := tmap v.ftl.chans fun c ch => journalFull v (profOf v c) ch } } c stSuccess))))) ∧
  ∀ s : State,
    (∀ v, v = admitWaiting s s.port.wbWait.length → exec .writeBufferAdmit s = .next (settleOrdered v (orderedCount v))) ∧
    ∀ c x, oldestBuffered s c = some x → (chanOf s c).usable = true → (chanOf s c).media.readOnly = false → unitWaits s x.lba = false →
      ∀ sec : Sector, sec = { unit := ((lbaUnit s x.lba).map (·.2)).getD 0, space := 0, kind := 0, seq := 0, data := x.data } →
      exec (.writeBufferDrain c) s = .next (kickChan (updChan { s with port := { s.port with
        wb := s.port.wb.map fun y => if y.acc = x.acc then { y with draining := true } else y } } c
          fun ch => { ch with page := ch.page ++ [(sec, x.owner)] }) c)

/-- R334 to R339, R219, R327: the Skex commands on a Skex queue. SUBMIT queues the graph for acceptance; FENCE waits for its scope;
ORDERED_WRITE on a queue with none before it begins at once; TABLE_SWITCH makes a base current; regions are made within the pen's window
and given up; MAP pins an object's stack-homed bales, lists their device physical addresses and returns their number; UNMAP releases the
pins. A command with a wrong NSID or a reserved field that is not 0 does nothing and completes with a free status (R349, log 162). u is the
node once the command is fetched. -/
def Obligations.SkexCommandsComplete : Prop :=
  ∀ (s : State) (c : Cmd) (n : Nat) (u : State), canFetch s c = some n → onSkex s c = true → u = doFetch s c n →
    (c.bad = true → ∀ i, (∃ graph, i = .submit c graph) ∨ (∃ p d, i = .skexFence c p d) ∨ (∃ o b, i = .tableSwitch c o b) ∨
      (∃ o f b, i = .regionCreate c o f b) ∨ (∃ o, i = .regionDestroy c o ∨ i = .unmap c o) ∨ (∃ o m l, i = .map c o m l) →
      exec i s = .next (completeFree u c)) ∧
    (c.bad = false →
    (∀ graph, exec (.submit c graph) s = .next (updCtl u c.ctl fun x => { x with
      sqs := tupd x.sqs c.sq fun q => { q with submits := q.submits ++ [(c, graph, n)] } })) ∧
    (∀ durable, exec (.skexFence c false durable) s = .next (wake { u with port := { u.port with
      fences := u.port.fences ++ [{ cmd := c, limits := [(c.ctl, c.sq, n)], durable := durable }] } })) ∧
    (∀ slba blocks fua prp us q v w, ioPositive s (penOfCtl c.ctl) = true → rangeWaits s (penOfCtl c.ctl) slba blocks = false →
      u.port.sanitizing = none → windowUnits u (penOfCtl c.ctl) slba blocks = some us →
      v = chargeIo (prpRec (penOfCtl c.ctl) prp (4096 * blocks) u) (penOfCtl c.ctl)
        (if !fua && wbInUse (prpRec (penOfCtl c.ctl) prp (4096 * blocks) u) then 4096 * blocks else 0) (ceilDiv blocks 4) →
      sqOf (ctlOf v c.ctl) c.sq = some q → q.owCur = none → q.owWait = [] →
      w = startOrdered v { cmd := c, units := dataUnits us (prpRead v (fnPages c prp) (4096 * blocks)), fua := fua, st := 0 } n →
      exec (.orderedWrite c slba blocks fua prp) s = .next (settleOrdered w (orderedCount w))) ∧
    (∀ object base o t, objOf u (penOfCtl c.ctl) object = some o → o.kind = .table t → base < t.bases →
      exec (.tableSwitch c object base) s = .next (complete (updObj u (penOfCtl c.ctl) object
        fun _ => { o with kind := .table { t with current := base } }) c stSuccess)) ∧
    (∀ object first blocks us, objOf u (penOfCtl c.ctl) object = none → windowUnits u (penOfCtl c.ctl) first blocks = some us →
      exec (.regionCreate c object first blocks) s = .next (complete (putObj u (penOfCtl c.ctl) object
        { kind := .region first blocks, bytes := 4096 * blocks, homes := [] }) c stSuccess)) ∧
    (∀ object o first blocks, objOf u (penOfCtl c.ctl) object = some o → o.kind = .region first blocks →
      exec (.regionDestroy c object) s = .next (complete (dropObj u (penOfCtl c.ctl) object) c stSuccess)) ∧
    (∀ object capacity list o, objOf u (penOfCtl c.ctl) object = some o → stackHomes o ≠ [] → o.lost = false →
      (∀ h ∈ stackHomes o, stackUsable u h.1 = true) → (stackHomes o).length ≤ capacity →
      exec (.map c object capacity list) s = .next (complete (writeHome (updObj u (penOfCtl c.ctl) object fun o => { o with mapped := true })
        (penOfCtl c.ctl) none list 0 ((stackHomes o).flatMap fun h => le 8 (h.1 * 77309411328 + h.2 * 65536)))
        c stSuccess (stackHomes o).length)) ∧
    (∀ object o, objOf u (penOfCtl c.ctl) object = some o →
      exec (.unmap c object) s = .next (complete (updObj u (penOfCtl c.ctl) object fun o => { o with mapped := false }) c stSuccess)) ∧
    (∀ object, objOf u (penOfCtl c.ctl) object = none →
      exec (.unmap c object) s = .next (complete u c stNotFound) ∧ exec (.regionDestroy c object) s = .next (complete u c stNotFound)))

/-! The Drover (01, 02). -/

/-- R45 to R49, R53, R60, R366: the oldest submission of a queue whose graph fits is accepted: it enters the task table under the next
acceptance number, in the class of its priority or of the pen's least class, and its tasks with no predecessor are ready. One that the
pen's quota could never hold completes with QUOTA_EXCEEDED; one without room now waits. Of a header that R76 leaves unpredictable the SUBMIT
completes with a free status, and edges that it leaves unpredictable make every task of the accepted graph so (the model's choice, log 58).
(Outside recording and replay.) -/
def Obligations.GraphsAreAccepted : Prop :=
  ∀ (s : State) (ctl sq : Nat) (c : Cmd) (ref : OpRef) (num : Nat) (hb tb eb : List Byte) (h : Header),
    oldestSubmit s ctl sq = some (c, ref, num) → mayAccept s (penOfCtl ctl) = true → s.trace.replay = false → s.trace.recording = false →
    readOp s (penOfCtl ctl) none ref 0 64 = .ok hb → h = headerOf hb →
    (headerBad hb = false → everFits s (penOfCtl ctl) h = true → fitsNow s (penOfCtl ctl) h = true → readOp s (penOfCtl ctl) none h.taskArr 0 (64 * h.tasks) = .ok tb →
      readOp s (penOfCtl ctl) none h.edgeArr 0 (8 * h.edges) = .ok eb →
      c.ctl % 256 = penOfCtl ctl → ∀ bad tasks edges,
      bad = edgesBad ((chunks 64 tb).map taskOfBytes) ((chunks 8 eb).map edgeOfBytes) (chunks 8 eb) →
      tasks = ((chunks 64 tb).map taskOfBytes).map (fun k => if bad then { k with reserved := true } else k) →
      edges = (if bad then soundEdges ((chunks 64 tb).map taskOfBytes) (chunks 8 eb) else (chunks 8 eb).map edgeOfBytes) →
      ∃ t, exec (.graphAccept ctl sq) s = .next t ∧ t.drover.graphs = s.drover.graphs ++ [makeReady
          { acc := s.drover.nextAcc, pen := penOfCtl ctl, cmd := c, num := num, tag := h.tag, cls := max h.prio (penOf s (penOfCtl ctl)).minClass
            recordAll := h.all, tasks := tasks, edges := edges, before := fetchedOf (dropSubmit s ctl sq) (penOfCtl ctl) } s.drover.nextReady] ∧
        t.drover.nextAcc = s.drover.nextAcc + 1 ∧ t.mem = s.mem ∧ t.hostMem = s.hostMem ∧ t.pens = s.pens) ∧
    (everFits s (penOfCtl ctl) h = false →
      exec (.graphAccept ctl sq) s = .next (complete (dropSubmit s ctl sq) c stQuotaExceeded 0xFFFF)) ∧
    (everFits s (penOfCtl ctl) h = true → headerBad hb = true → exec (.graphAccept ctl sq) s = .next (completeFree (dropSubmit s ctl sq) c)) ∧
    (everFits s (penOfCtl ctl) h = true → headerBad hb = false → fitsNow s (penOfCtl ctl) h = false → exec (.graphAccept ctl sq) s = .next s)

/-- R61, R62, R65 to R67: TASK_ISSUE takes the ready task of a kind that stands first by class, turn and order; a NOP, which names nothing
and needs no slot, issues at once on the Drover. (The first candidate of a kind that cannot issue is passed, so the next is tried.) -/
def Obligations.TheFirstReadyTaskIssues : Prop :=
  ∀ (s : State) (kind : UnitKind) (channel : Nat), mayIssue s = true →
    exec (.taskIssue kind channel) s = .next (sendAnswers (tryAll kind channel (fetchAhead s) (readyTasks s kind))) ∧
    (∀ x r, readyTasks s kind = x :: r → ∀ t, tryIssue (fetchAhead s) x.1 x.2.1 x.2.2 kind channel = .done t →
      exec (.taskIssue kind channel) s = .next (sendAnswers t)) ∧
    (∀ t g k r v, v = fetchAhead s → readyTasks s .drover = (t, g, k) :: r → graphOf v t.graph = some g → k.typ = 0 → k.ops = [] →
      reservedTask k = false → exec (.taskIssue .drover channel) s = .next (sendAnswers (issueTask v t g k .drover 0 (0, 0)))) ∧
    (readyTasks s kind = [] → exec (.taskIssue kind channel) s = .next (sendAnswers (fetchAhead s)))

/-- R60, R67, R56, R70, R437: a finished task whose writes are performed and whose copies are written back completes with the status its unit
gave (RESET_ABORTED where its pen's reset has stopped it), its charges settled for the cycles its unit was held; a double-bit error in a word
of its tile's SRAM poisons the word, is counted and completes it with MEDIA_ERROR. The last task of a graph to complete, all records
written, completes the graph: RESET_ABORTED first, then the lowest-indexed failure other than PRED_FAILED, then PRED_FAILED, then a
warning, else SUCCESS with 0xFFFF. -/
def Obligations.FinishedTasksComplete : Prop :=
  (∀ (s : State) (t : TaskId) (g : Graph) (k : Task) (cycles : Nat), graphOf s t.graph = some g → taskOf s t = some k →
    k.st = .finished → writesLeft s t = false → writesOpen s t = false →
    exec (.taskComplete t ⟨cycles, [], false⟩) s = .next (sendAnswers (endTask (forgetWrites (smudgeClashes s t g k) t) t
      (if (penOf s g.pen).resetting && k.typ != 0x20 then stResetAborted else k.status)
      { tile := if k.unitKind = 1 then cycles else 0, stack := (usedAll s g k cycles).stack, flash := k.usedFlash })) ∧
    (k.unitKind = 1 → isFailure k.status = false → (penOf s g.pen).resetting = false → ∀ a u, a % 8 = 0 → a < 2 ^ 32 →
      u = spoiltBySram (noteSram s k [(a, true)]) t g k [(a, true)] →
      exec (.taskComplete t ⟨cycles, [(a, true)], false⟩) s = .next (sendAnswers (endTask (forgetWrites (smudgeClashes u t g k) t) t
        stMediaError { tile := cycles, stack := (usedAll s g k cycles).stack, flash := k.usedFlash })) ∧
      (tileOf (noteSram s k [(a, true)]) k.unitNo).dataErrs = (tileOf s k.unitNo).dataErrs + 1 ∧
      k.unitNo * 2 ^ 32 + a ∈ (tileOf (noteSram s k [(a, true)]) k.unitNo).sramPoison)) ∧
  (∀ (s : State) (acc : Nat) (g : Graph), graphOf s acc = some g →
    ((∃ k, k ∈ g.tasks ∧ k.st ≠ .complete) ∨ g.recsWaiting ≠ 0 → tryGraph s acc = s) ∧
    ((∀ k, k ∈ g.tasks → k.st = .complete) → g.recsWaiting = 0 → g.remote = none → ∀ r u, r = graphStatus (g.tasks.map (·.status)) →
      u = (tkeys g.scratch).foldl (fun x n => freeScratch x acc n) s →
      tryGraph s acc = complete { u with drover := { u.drover with graphs := u.drover.graphs.filter fun x => x.acc != acc } } g.cmd r.1 r.2)) ∧
  (∀ (l : List Nat), (∀ st ∈ l, st = 0) → graphStatus l = (0, 0xFFFF)) ∧
  (∀ (l : List Nat) i st, l[i]? = some st → isFailure st = true → st ≠ stPredFailed → (∀ x ∈ l, x ≠ stResetAborted) →
    (∀ j x, j < i → l[j]? = some x → isFailure x = false ∨ x = stPredFailed) → graphStatus l = (st, i)) ∧
  (∀ (l : List Nat) i, l[i]? = some stResetAborted → (∀ j, j < i → l[j]? ≠ some stResetAborted) → graphStatus l = (stResetAborted, i))

/-- R50, R51, R57: the Drover's own tasks. NOP finishes with SUCCESS. FENCE finishes once every task of every earlier graph in its scope has
completed, under DURABLE once nothing of its scope is off the medium, and until then nothing changes. ALLOC charges the object's bales and
enters it without homes, QUOTA_EXCEEDED where the quota cannot hold them; FREE gives homes and charge back. -/
def Obligations.ControlTasksFinish : Prop :=
  ∀ (s : State) (t : TaskId) (g : Graph) (k : Task),
    (running s t 0x00 none = some (g, k) → exec (.nop t) s = .next (finishTask s t stSuccess 0)) ∧
    (running s t 0x01 none = some (g, k) → bit k.param.toNat 2 = false →
      ((∀ x ∈ s.drover.graphs, inFenceScope g x (bits k.param.toNat 0 2 = 1) = true → ∀ y ∈ x.tasks, y.st = .complete) →
        exec (.fence t) s = .next (finishTask s t stSuccess 0)) ∧
      (∀ x ∈ s.drover.graphs, inFenceScope g x (bits k.param.toNat 0 2 = 1) = true → (∃ y ∈ x.tasks, y.st ≠ .complete) →
        exec (.fence t) s = .next s)) ∧
    (running s t 0x02 none = some (g, k) →
      ∀ m, m = (bits k.param.toNat 0 40 + 65535) / 65536 →
        (∀ y : Scratch, y = { bytes := m * 65536, hint := bits k.param.toNat 40 3, homes := List.replicate m .none, tag := s.nfree } →
          quotaHolds s g.pen m = true → exec (.alloc t) s = .next (finishTask (modGraph (chargeBales { s with nfree := s.nfree + 1 } g.pen m)
            g.acc fun x => { x with scratch := tput x.scratch (bits k.param.toNat 48 8) y }) t stSuccess 0)) ∧
        (quotaHolds s g.pen m = false → exec (.alloc t) s = .next (finishTask s t stQuotaExceeded 0))) ∧
    (running s t 0x03 none = some (g, k) →
      exec (.free t) s = .next (finishTask (freeScratch s g.acc (bits k.param.toNat 48 8)) t stSuccess 0))


/-! Copies, COPY tasks and the DMA engine (09, 14). -/

/-- R231, R232, R233, R66, R239: a move that succeeded puts the home's bytes into the copy's slot and leaves it CLEAN with no waiter; one
whose home cannot be read, or that failed, drops the copy and ends its waiters with MEDIA_ERROR. A write-back puts exactly the runs of the
tasks it was begun for at the home; runs of other tasks stay, and leave the copy DIRTY. -/
def Obligations.CopiesMoveAndComeHome : Prop :=
  ∀ (s : State) (n : Nat) (c : BaleCopy), baleWaits s c.bale = false →
    (s.drover.copies.find? (fun x => x.num == n && x.st == .filling) = some c →
      (∀ cells, homeCells s c.bale = some cells → exec (.baleMoveDone n true) s = .next (fetchAhead (modCopy (fillSlot (chargeFill s c) c cells) n
        fun x => { x with st := .clean, waiters := [] }))) ∧
      (homeCells s c.bale = none →
        exec (.baleMoveDone n true) s = .next (c.waiters.foldl (fun x t => failTask x t stMediaError) (dropCopy s c))) ∧
      exec (.baleMoveDone n false) s = .next (c.waiters.foldl (fun x t => failTask x t stMediaError) (dropCopy s c))) ∧
    (s.drover.copies.find? (fun x => x.num == n && x.st == .writing) = some c →
      exec (.writeBackDone n) s = .next (fetchAhead (modCopy ((c.dirty.filter fun x => decide (x.1 ∈ c.wb)).foldl (fun y x => writeBackOne y c x) s) n
        fun d => { d with
          dirty := d.dirty.filter fun x => !decide (x.1 ∈ c.wb)
          wb := d.wb.filter fun t => !decide (t ∈ c.wb)
          st := if (d.dirty.filter fun x => !decide (x.1 ∈ c.wb)) = [] then .clean else .dirty }))) ∧
    (∀ (t : TaskId) (off len : Nat), poisoned s (slotAddr c.stack c.slot + off) len = false →
      writeBackOne s c (t, off, len) = writeBackRun (modTask s t fun k => { k with
        usedStack := k.usedStack + len, usedFlash := k.usedFlash + pageOps c.bale off len }) c.bale off
          (readStack s (slotAddr c.stack c.slot + off) len))

/-- R376, R67: a COPY of n bytes between operands whose source can be read, holds no poison and does not overlap the destination writes the
bytes read, and a fill its byte n times, at the destination; it finishes with SUCCESS and RESULT n. -/
def Obligations.CopiesAndFillsFinish : Prop :=
  ∀ (s : State) (t : TaskId) (g : Graph) (k : Task) (n used : Nat) (bs : List Byte) (w : State),
    k.run = .none → copyBad k = false → n = par k 0 40 → hostCut s (opd k 1) = false → borrowedOf s g.pen (opd k 1) = none →
    regionWrites (modTask s t fun x => { x with result := n, wrote := true }) g (opd k 1) bs = [] →
    w = finishTask (writeOp (modTask s t fun x => { x with result := n, wrote := true }) t g.pen k.quad (some g) (opd k 1) 0 bs) t stSuccess n →
    used = stackPart s g (opd k 0) (if k.sub = 0 then n else 0) + stackPart s g (opd k 1) n →
    (running s t 0x04 (some 0) = some (g, k) → k.sub = 0 → hostCut s (opd k 0) = false → operandUnsettled s g (opd k 0) n = [] → borrowedOf s g.pen (opd k 0) = none →
      poisonRuns s g (opd k 0) n = [] → readOp s g.pen (some g) (opd k 0) 0 n = .ok bs → overlap (opd k 0) n (opd k 1) n = false →
      exec (.copy t) s = .next (modTask w t fun x => { x with usedStack := used })) ∧
    (running s t 0x04 (some 1) = some (g, k) → k.sub = 1 → bs = List.replicate n (BitVec.ofNat 8 (par k 40 8)) →
      exec (.fill t) s = .next (modTask w t fun x => { x with usedStack := used }))

/-- R376, R227, R232: bytes that a task writes at an operand that lies in stack memory, at its home or in a copy, with no line of the
range in the directory, land there and nowhere else in memory; in a copy they are noted as a run to be written back. u is the state with
the bytes charged. -/
def Obligations.WritesLandAtTheHome : Prop :=
  ∀ (s u w : State) (t : TaskId) (p quad a : Nat) (g h : Graph) (op : OpRef) (bs : List Byte), s.mem.wf → bs ≠ [] →
    u = modTask s t (fun k => { k with wrote := true, usedStack := k.usedStack + bs.length }) → h = { g with view := some (t, quad) } →
    segs u p (some h) op 0 bs.length = [(.stk a, bs.length)] → busyLines u a bs.length = [] → w = writeOp s t p quad (some g) op 0 bs →
    (∀ i, i < bs.length → w.mem.byte (a + i) = bs.getD i 0) ∧
    (∀ b, ¬(a ≤ b ∧ b < a + bs.length) → w.mem.byte b = s.mem.byte b) ∧
    w.hostMem = s.hostMem ∧ w.sram = s.sram ∧ w.pens = s.pens ∧
    (viewCopy u p (some h) op 0 = none → w.drover.copies = s.drover.copies) ∧
    (∀ c, viewCopy u p (some h) op 0 = some c → c.st ≠ .writing → w.drover.copies = s.drover.copies.map fun d =>
      if d.num = c.num then { d with st := if d.st == .writing then .writing else .dirty
                                     dirty := d.dirty ++ [(t, firstOff op % bale, bs.length)] } else d)

/-- R380 to R388, R372: a ring channel. EN = 1 starts it at slot 0, phase 1, its counters 0; EN = 0 keeps unfinished descriptors' OWN and
reports the finished ones; RESTART acts on a halted channel alone; a test begins once the channel is quiet and, passed, ends; a doorbell
makes it fetch again; a fetch takes descriptors up to the first without OWN, where it goes idle; CQHEAD makes room. A bus error halts a
running channel and latches the failing descriptor. -/
def Obligations.RingChannelsRun : Prop :=
  ∀ (s : State) (n : Nat), ringChan s n = true →
    ((dmaOf s n).inService = true → exec (.dmaEnable n) s = .next (updDma s n fun d => { d with
      en := true, idle := false, head := 0, cqTail := 0, phase := true, descs := [], done := 0, mismatch := 0
      skipped := 0, halted := false, inFlight := [] })) ∧
    ((dmaOf s n).en = true → exec (.dmaStop n) s = .next (updDma (retire1 (updDma s n fun d => { d with
      descs := d.descs.filter fun x => x.fin }) n) n fun d => { d with
        en := false, halted := false, inFlight := [], idle := true })) ∧
    (∀ skip, ((dmaOf s n).halted = true → exec (.dmaRestart n skip) s = .next (restartDma s n skip)) ∧
      ((dmaOf s n).halted = false → exec (.dmaRestart n skip) s = .next s)) ∧
    ((dmaOf s n).inService = true → exec (.dmaTest n) s = .next (updDma s n fun d => { d with testWanted := true, testing := dmaQuiet d })) ∧
    ((dmaOf s n).testing = true → exec (.dmaTestDone n false) s = .next (updDma s n fun d => { d with testing := false, testWanted := false })) ∧
    (∀ writes, (dmaOf s n).en = true → (dmaOf s n).inService = true → exec (.dmaDoorbell n writes) s =
      .next (updDma { s with hostMem := s.hostMem.sets writes } n fun d => { d with idle := false })) ∧
    (∀ v : W32, exec (.dmaCqheadWrite n v) s = .next (retire1 (updDma s n fun d => { d with cqhead := v.toNat % 65536 }) n)) ∧
    ((dmaOf s n).en = true → (dmaOf s n).inService = true → (dmaOf s n).halted = false → (dmaOf s n).idle = false →
      (dmaOf s n).descs.length < 16 →
      exec (.descriptorFetchDone n) s = .next (updDma s n fun d => fetchDescs s d (16 - d.descs.length)) ∧
      (ownBit (descrAt s (dmaOf s n) (dmaOf s n).head) = false →
        exec (.descriptorFetchDone n) s = .next (updDma s n fun d => { d with idle := true }))) ∧
    (∀ i e, (dmaOf s n).en = true → (dmaOf s n).inService = true → (dmaOf s n).halted = false → (dmaOf s n).errValid = false →
      exec (.busError n i none e) s = .next (updDma s n fun d => { d with
        errValid := true, errMulti := false, errAddr := e.addr, errWrite := e.write, errKind := e.kind, errTarget := e.target
        errIndex := i, errPen := 0, halted := true, failIdx := i, inFlight := without ((runningDescs d.descs).map (·.idx)) i })) ∧
    (∀ i x r, (dmaOf s n).en = true → (dmaOf s n).inService = true → (dmaOf s n).halted = false → (dmaOf s n).mode = true →
      (runningDescs (dmaOf s n).descs).find? (fun y => y.idx == i) = some x → descBad x = false → descOverlap x = false →
      descRangeErr s x = none → x.moved = false → descUnsettled s x = [] → r = runDescr s (descKey n i) x → writesOpen r.1 (descKey n i) = false →
      exec (.descriptorComplete n i) s = .next (retire1 (updDma r.1 n fun d => { d with
        descs := d.descs.map fun y => if y.idx = i then { y with fin := true, status := r.2.1, bytes := r.2.2 } else y }) n))

/-- R380, R382: what a descriptor does. A copy between host ranges puts the source's bytes at the destination and changes no other host
byte; a fill repeats the 8 bytes of SRC; a compare changes nothing and reports the first offset at which the ranges differ. -/
def Obligations.DescriptorsMoveTheirBytes : Prop :=
  ∀ (s : State) (key : TaskId) (x : Descr), s.hostMem.wf → s.trace.replay = false → s.trace.out_ = false →
    (descOp x = 0 → bit x.flags 1 = false → bit x.flags 2 = false →
      (∀ i, i < x.len → (runDescr s key x).1.hostMem.byte (x.dst + i) = s.hostMem.byte (x.src + i)) ∧
      (∀ b, ¬(x.dst ≤ b ∧ b < x.dst + x.len) → (runDescr s key x).1.hostMem.byte b = s.hostMem.byte b) ∧
      (runDescr s key x).2 = (stSuccess, x.len)) ∧
    (descOp x = 1 → bit x.flags 2 = false →
      (∀ i, i < x.len → (runDescr s key x).1.hostMem.byte (x.dst + i) = (le 8 x.src).getD (i % 8) 0) ∧ (runDescr s key x).2 = (stSuccess, x.len)) ∧
    (descOp x = 2 → bit x.flags 1 = false → bit x.flags 2 = false → (runDescr s key x).1 = s ∧
      ((∀ i, i < x.len → s.hostMem.byte (x.src + i) = s.hostMem.byte (x.dst + i)) → (runDescr s key x).2 = (stSuccess, x.len)) ∧
      ∀ i, i < x.len → s.hostMem.byte (x.src + i) ≠ s.hostMem.byte (x.dst + i) →
        (∀ j, j < i → s.hostMem.byte (x.src + j) = s.hostMem.byte (x.dst + j)) → (runDescr s key x).2 = (stCompareFailure, i))

/-- R15, R385, R239, R277: an error of the cycle in which software clears its latch is latched after the clear, so VALID reads 1
afterwards, on a halted channel too; without one VALID is clear. The three latches hold every W1C bit of the node. -/
def Obligations.SetByHardwareWins : Prop :=
  ∀ s : State,
    (∀ n, exec (.errinfoClear n none) s = .next (updDma s n fun d => { d with errValid := false, errMulti := false })) ∧
    (∀ n i e, ringChan s n = true → (dmaOf s n).en = true → (dmaOf s n).inService = true →
      ∃ t, exec (.errinfoClear n (some (i, none, e))) s = .next t ∧ (dmaOf t n).errValid = true ∧ (dmaOf t n).errAddr = e.addr) ∧
    (s.boot.ready = true → s.stackSel < 20 →
      exec (.poisonLatchClear none) s = .next (updStack s s.stackSel fun x => { x with poisonValid := false }) ∧
      ∀ l, stackUsable s s.stackSel = true → l < stackBytes / line → ∃ t, exec (.poisonLatchClear (some l)) s = .next t ∧
        (stackOf t s.stackSel).poisonValid = true ∧ (stackOf t s.stackSel).poisonOffset = l ∧ dpa s.stackSel (l * line) ∈ t.poison) ∧
    (s.boot.ready = true →
      exec (.reclaimLatchClear none) s = .next { s with coh := { s.coh with reclaimValid := false } } ∧
      ∀ l, isLine l = true → ∃ t, exec (.reclaimLatchClear (some l)) s = .next t ∧ t.coh.reclaimValid = true)

/-! Matrix arrays (06). -/

/-- R169 to R172, R165, R178, R179: a MATMUL with parameters that R183 and R202 allow begins with its operands read and its initial
accumulators from C, from the bias, from their sum, or 0; each ARRAY_UNIT on an array in service whose turn it is, with a part of the
geometry and no fault, computes the next block of columns. An integer residue mismatch starts the array's test and gives the task up, and
so does a double-bit accumulator error; both are counted. -/
def Obligations.MatmulRunsByUnits : Prop :=
  (∀ (s : State) (t : TaskId) (g : Graph) (k : Task) (p : MatParam) (q : Quant) (e1 e2 : Nat), running s t 0x08 (some 0) = some (g, k) →
    k.run = .none → matParams s g k = (some p, e1) → quantHeader s g (opd k 3) = (some q, e2) →
    (matOk p q = false → exec (.matmul t) s = .next (unpredictable s t g [(opd k 2, cBytes p)])) ∧
    (matOk p q = true → ∀ isInt cb bb qb ab wb, isInt = ((modeOf p.afmt p.wfmt q.cbFmt).map (·.isInt)).getD false →
      (p.accum = true → readOp s g.pen (some g) (opd k 2) 0 (cBytes p) = .ok cb) →
      (opd k 4 ≠ .none → readOp s g.pen (some g) (opd k 4) 0 (4 * p.n) = .ok bb) →
      (opd k 3 = .none → qb = []) → (opd k 3 ≠ .none → readOp s g.pen (some g) (opd k 3) 0 (quantBytes q p.m p.n p.k) = .ok qb) →
      readOp s g.pen (some g) (opd k 0) 0 (rowsBytes p.m p.lda (aRow p)) = .ok ab →
      readOp s g.pen (some g) (opd k 1) 0 (rowsBytes (wRows p) p.ldw (wRow p)) = .ok wb →
      exec (.matmul t) s = .next (setRun s t (.mat (matRun p (matInit isInt p (if p.accum then some cb else none)
        (if opd k 4 = .none then none else some bb)) ab wb qb))))) ∧
  (∀ (isInt : Bool) (p : MatParam) (cb bb : List Byte) (m n : Nat), m < p.m → n < p.n →
    nth (matInit isInt p none none) (m * p.n + n) 1 = 0 ∧
    nth (matInit isInt p (some cb) none) (m * p.n + n) 1 = BitVec.ofNat 32 (fieldAt cb (m * p.ldc + 4 * n) 4) ∧
    nth (matInit isInt p none (some bb)) (m * p.n + n) 1 = BitVec.ofNat 32 (fieldAt bb (4 * n) 4) ∧
    nth (matInit isInt p (some cb) (some bb)) (m * p.n + n) 1 =
      accWord isInt (BitVec.ofNat 32 (fieldAt cb (m * p.ldc + 4 * n) 4)) (BitVec.ofNat 32 (fieldAt bb (4 * n) 4))) ∧
  ∀ (s : State) (t : TaskId) (a part : Nat) (j : ArrayJob) (x : Arr),
    (∀ g k r, running s t 0x08 (some 0) = some (g, k) → k.run = .mat r → arrayJob s t a = some {
      g := g, k := k, tile := k.unitNo, arr := a, mode := r.mode, geom := geometry r.mode r.n r.k, restart := !r.accum && restarts s g k, run := some r }) ∧
    (arrayJob s t a = some j → x = arrOf s j.tile j.arr → x.inService = true → x.testing = false → part < geomParts j.geom →
      partWidth x j.geom part ≠ 0 → j.arr < 4 → arrayTurn s t j.tile j.arr = true →
      (∀ r, j.run = some r → exec (.arrayUnit t a part false false false) s = .next (runUnit (updArr s j.tile j.arr fun y => { y with
        holder := some t, geom := j.geom, mode := j.mode.code }) t j.g j.k r j.arr j.geom part)) ∧
      (j.mode.isInt = true → exec (.arrayUnit t a part true false false) s = .next (lostTask (updArr (updTile s j.tile
        fun y => { y with residue := satAdd 16 y.residue 1 }) j.tile j.arr fun y => { y with testing := true }) t j.restart)) ∧
      ∀ u, u = postEvent (updArr (updTile s j.tile fun y => { y with accUncorr := satAdd 16 y.accUncorr 1, dataErrs := y.dataErrs + 1 })
        j.tile j.arr fun y => { y with doubleErrs := y.doubleErrs + 1 }) 1 (.array j.tile j.arr) 2 0 0 →
        exec (.arrayUnit t a part false false true) s =
          .next (lostTask (if 2 ≤ (arrOf u j.tile j.arr).doubleErrs then arrayOut u j.tile j.arr else u) t j.restart))

/-- R176, R177, R180: an array's test begins on an idle array in service, or is asked for by TLn_ARR_CTL; it ends with the bad columns added to
those found before, and the array leaves service when more than 8 columns are bad or a port failed. -/
def Obligations.ArraysAreTested : Prop :=
  ∀ (s : State) (tile a : Nat), a < 4 →
    ((arrOf s tile a).inService = true → (arrOf s tile a).testing = false →
      exec (.arrayTest tile a) s = .next (updArr s tile a fun y => { y with testing := true, holder := none, geom := 0 })) ∧
    (s.boot.ready = true → (tileOf s tile).arrs.length = 4 → ∀ mask : BitVec 4, ∃ t, exec (.arrayTestRequest tile mask) s = .next t ∧
      ∀ b, b < 4 → (arrOf t tile b).testWanted =
        (if mask.getLsbD b && (arrOf s tile b).inService then true else (arrOf s tile b).testWanted)) ∧
    ((arrOf s tile a).testing = true → (tileOf s tile).arrs.length = 4 →
      (8 ≥ 32 - goodCols (arrOf s tile a) 0 32 → exec (.arrayTestDone tile a 0 false) s =
        .next (updArr s tile a fun y => { y with testing := false, testWanted := false })) ∧
      ∀ (bad : W32) (x : Arr), bad ≠ 0 → x = arrOf s tile a → ∃ t, exec (.arrayTestDone tile a bad false) s = .next t ∧
        (arrOf t tile a).bad = (arrOf s tile a).bad ||| bad ∧ (arrOf t tile a).testing = false ∧
        (8 < 32 - goodCols { x with bad := x.bad ||| bad } 0 32 → (arrOf t tile a).inService = false))

/-! Models and vector tasks (08), near-bank units (09), tables (08). -/

/-- R204, R209 to R213, R215: creating a model reads its image, charges it and writes it to its home; destroying one drops the object and its
resident slices. A MODEL_RUN whose parameters R212 and R213 allow runs its steps in order on buffer 0 and writes what the last one made.
A VECTOR task applies its op, keeps the records that pass in input order, cuts each record's tokens into chunks with CLS and SEP, or packs
sign codes (the layouts of subtypes 0 and 3 are the model's, log 16); each finishes with SUCCESS, FILTER with the records kept and TOKENIZE with
the sequences written as RESULT. -/
def Obligations.ModelAndVectorTasksFinish : Prop :=
  ∀ (s : State) (t : TaskId) (g : Graph) (k : Task),
    (running s t 0x09 (some 1) = some (g, k) → k.param = 0 → ∀ num off h img, opd k 0 = .obj num off → objOf s g.pen num = none →
      readOp s g.pen (some g) (opd k 1) 0 64 = .ok h → readOp s g.pen (some g) (opd k 1) 0 (imgBytes h) = .ok img →
      (∀ u, newObject s g.pen num k.quad (imgBytes h) (.model (imgBytes h) (imgMacs img)) = some u →
        exec (.modelCreate t) s = .next (finishTask (writeHome u g.pen none (.obj num 0) 0 img) t stSuccess 0)) ∧
      (newObject s g.pen num k.quad (imgBytes h) (.model (imgBytes h) (imgMacs img)) = none →
        exec (.modelCreate t) s = .next (finishTask s t stQuotaExceeded 0))) ∧
    (running s t 0x09 (some 2) = some (g, k) → k.param = 0 → ∀ num bytes macs u, modelOf s g.pen (opd k 0) = some (num, bytes, macs) →
      u = destroyObj s g.pen num →
      exec (.modelDestroy t) s = .next (finishTask { u with quads := tmap u.quads fun _ q => { q with
        resident := q.resident.filter fun r => !(r.1 == g.pen && r.2.1 == num) } } t stSuccess 0)) ∧
    (running s t 0x09 (some 0) = some (g, k) → opLost s g.pen (opd k 0) = false → ∀ num bytes macs pb img inb p b0 bufs out,
      modelOf s g.pen (opd k 0) = some (num, bytes, macs) → paramBlock s g k 32 = .ok pb → modelImage s g.pen num bytes = .ok img →
      p = runParamOf pb → runOk img p pb = true → p.outKind ≤ 1 → (p.outKind = 1 → poolStep (imgStepAt img p.last) = true) →
      readOp s g.pen (some g) (opd k 1) 0 (p.batch * (4 + p.seqLen * (if p.inKind = 0 then 4 else imgDin img * fmtBytes (imgTokFmt img)))) =
        .ok inb → inputBuf img inb p = some b0 →
      runSteps img (imgBufs img) (((List.range (p.last + 1)).drop p.first).map (imgStepAt img)) [(0, b0)] = some bufs →
      out = tget bufs.1 (imgStepAt img p.last).dst →
      exec (.modelRun t) s = .next (writeRun (countRun s t k bufs.2) t g k p out (sumBy List.length b0.seqs) [] (img ++ pb ++ inb))) ∧
    (running s t 0x0A (some 0) = some (g, k) → ∀ b st a out x, paramBlock s g k 64 = .ok b → st = mstepOf b → st.kind = 2 → st.heads = 1 →
      binaryOp st.op = false → readOp s g.pen (some g) (opd k 0) 0 (4 * st.n * st.k) = .ok a →
      x = { fmt := 0x0B, width := st.n, seqs := [(chunks (4 * st.n) a).map (codesOf 0x0B)] } →
      vecStep [] { st with auxOff := 0 } x { x with seqs := [[]] } = some out →
      exec (.vectorStep t) s = .next (finishTask (writeOp (drawTag s).2 t g.pen k.quad (some g) (opd k 2) 0
        ((out.seqs.headD []).flatMap (mrowBytes (Config.freeByte (drawTag s).1) out.fmt))) t stSuccess 0)) ∧
    (running s t 0x0A (some 1) = some (g, k) → par k 32 4 ≤ 8 → ∀ tb recs c kept, readOp s g.pen (some g) (opd k 1) 0 128 = .ok tb →
      textRecs s g (opd k 0) (par k 0 32) 0 = (0, recs) →
      c = { d := { attrBytes := 16 }, sn := {}, code := 0, p := { terms := termsOf tb (par k 32 4), mode := par k 36 1 }, node := 0
            tag := t.graph * 4096 + t.idx } →
      kept = (((List.range recs.length).zip recs).filter fun r => passes c r.1 r.2.attr) →
      exec (.vectorFilter t) s = .next (finishTask (writeOp s t g.pen k.quad (some g) (opd k 2) 0 (kept.flatMap fun r => r.2.raw)) t
        stSuccess kept.length)) ∧
    (running s t 0x0A (some 2) = some (g, k) → ∀ num bytes macs img, modelOf s g.pen (opd k 1) = some (num, bytes, macs) →
      modelImage s g.pen num bytes = .ok img →
      (par k 32 16 ≤ (if fieldAt img 48 4 = 0xFFFFFFFF then 0 else 1) + (if fieldAt img 52 4 = 0xFFFFFFFF then 0 else 1) →
        exec (.tokenize t) s = .next (finishTask s t stInvalidField 0)) ∧
      (par k 0 32 = 0 → 2 < par k 32 16 → exec (.tokenize t) s = .next (finishTask s t stSuccess 0)) ∧
      (2 < par k 32 16 → ∀ recs, textRecs s g (opd k 0) (par k 0 32) 0 = (0, recs) → ∃ u n, exec (.tokenize t) s =
        .next (finishTask u t stSuccess n) ∧ n ≤ 256 * recs.length)) ∧
    (running s t 0x0A (some 3) = some (g, k) → 8 * par k 34 3 ≤ 16 → par k 37 27 = 0 → ∀ emb heads, par k 0 32 = 1 →
      readOp s g.pen (some g) (opd k 0) 0 (256 * 2 ^ par k 32 2 * 4) = .ok emb → readOp s g.pen (some g) (opd k 1) 0 16 = .ok heads →
      ∃ bs, exec (.pack t) s = .next (finishTask (writeOp s t g.pen k.quad (some g) (opd k 2) 0 bs) t stSuccess 0) ∧
        bs.length % 8 = 0)

/-- R238, R239, R241 to R248, R250, R253: an NBU_SEQ whose bales lie together hands its units their chunks; MICRO_OP performs one step: a
step from latches, broadcast or immediate into a latch writes that latch for its chunk, and refreshes run at its boundary; a parity
failure takes the unit out of service and gives the task up. A patrol pass counts corrected lines and poisons the others. -/
def Obligations.NearBankUnitsRun : Prop :=
  ∀ (s : State) (n u : Nat),
    (∀ t g k p, running s t 0x0C (some 0) = some (g, k) → k.run = .none → nbuProg s g k = (some p, 0) → nprogOk s g k p = true →
      (∀ i, i ∈ planStacks s g k p → i < 20 ∧ stackBusy s t g k i = false) → pinnedByNbu s t g k p (planStacks s g k p) = false →
      ∀ v stks b, placeAll s t k p (List.range p.bales) = some (v, stks) → (∀ i, i ∈ stks → stackBusy v t g k i = false) →
      (p.head.blen = 0 → b = []) → (p.head.blen ≠ 0 → readOp v g.pen (graphOf v t.graph) (opd k 4) 0 (4 * p.head.blen) = .ok b) →
      ∃ w, exec (.nbuSeq t) s = .next w ∧
        w.mem = v.mem ∧ ∀ i, i ∈ stks → (stackOf w i).nbuTask = some t ∧
          (stackOf w i).units = startUnits t p stks ((chunks 4 b).map fun x => BitVec.ofNat 32 (ofLe x)) i (stackOf v i).units) ∧
    (∀ t g k p stks x ce un, (stackOf s n).retraining = false → un = tget (stackOf s n).units u → un.running = some t →
      clrOpen s n = false → running s t 0x0C (some 0) = some (g, k) → k.run = .nbu stks → nbuProg s g k = (some p, 0) →
      (∀ w, w = loseUnit s n u → exec (.microOp n u true) s = .next (lostTask w t (nbuRestart k p))) ∧
      (p.steps[un.step]? = some x → x.dst ≤ 3 → x.op ≠ 0x0B → (∀ c, c ∈ nsources x → c < 4 ∨ 8 ≤ c) → un.step + 1 < p.head.steps →
        (tget? un.latch 5) = none → ce = chunkElems p u un.balePos un.chunk → ∀ val vals,
        val = (fun i c => nbuSource un [] x.imm s.nfree ce.1 i c) →
        vals = ((List.range ce.2).map fun i => nbuOp x.op (val i x.sa) (val i x.sb) (val i x.sc)) →
        exec (.microOp n u false) s = .next (settleNbu (boundary (updStack (drawTag s).2 n fun y => { y with
          units := tput y.units u { un with latch := tput un.latch x.dst ((List.range ce.2).zip vals), step := un.step + 1 } }) n u) t
          stks n))) ∧
    ((tget (stackOf s n).units u).running.isSome = true → exec (.refreshDue n u) s = .next (updStack s n fun x => { x with
      units := tupd x.units u fun y => { y with refreshDue := true } })) ∧
    (stackUsable s n = true → ∀ c l ov, l < stackBytes / line → ¬dpa n (l * line) ∈ s.poison → ∃ v,
      exec (.patrolScrub n c ⟨[l], ov⟩) s = .next v ∧ dpa n (l * line) ∈ v.poison ∧
      (stackOf v n).scrubs = satAdd 16 (stackOf s n).scrubs (if ov then 1 else 0) ∧
      (stackOf v n).eccCorr = satAdd 32 (stackOf s n).eccCorr c.length ∧ v.mem = s.mem)

/-- R216 to R218, R220: GATHER writes the rows that its indices name, one after the other; SCATTER writes rows (the last source of a row
wins), adds contributions by window, in replay in the recorded order, clones a base into another, and creates or destroys tables: created
ones read zero. -/
def Obligations.TableTasksFinish : Prop :=
  (∀ (s : State) (t : TaskId) (g : Graph) (k : Task) (num : Nat) (tb : Table), opLost s g.pen (opd k 0) = false → k.run = .none →
    (tableOf s g.pen (opd k 0) = some (num, tb) →
      (∀ ib idx, readOp s g.pen (some g) (opd k 1) 0 (8 * par k 0 25) = .ok ib → idx = rowIndices ib → rowsBad k tb idx = false →
      (running s t 0x18 (some 0) = some (g, k) → ∀ bs, readRows s g num tb (baseOf k) idx = .ok bs →
        exec (.gather t) s = .next (finishTask (writeOp ((windowRows idx).foldl (fun x i => readRow x k.quad g.pen num tb (baseOf k) i)
          (noteRows s t num (baseOf k) idx)) t g.pen k.quad (some g) (opd k 2) 0 bs) t stSuccess (par k 0 25))) ∧
      (running s t 0x19 (some 0) = some (g, k) → ∀ sb, readOp s g.pen (some g) (opd k 2) 0 (rowBytes tb * par k 0 25) = .ok sb →
        exec (.scatterWrite t) s = .next (applyRows (noteRows s t num (baseOf k) idx) t g k num tb (baseOf k) 0
          ((idx.foldl addNew []).map fun r =>
            (r, false, [(((sources idx (rowBytes tb) sb).reverse.find? fun x => x.1 == r).map (·.2)).getD []])))) ∧
      (running s t 0x19 (some 1) = some (g, k) → tb.fmt = 0x0A ∨ tb.fmt = 0x0B → rowTurn s t = true → ∀ sb r u,
        readOp s g.pen (some g) (opd k 2) 0 (4 * tb.width * par k 0 25) = .ok sb → idx = [r] →
        u = readRow (noteOrder (noteRows s t num (baseOf k) [r]) t g.pen num (baseOf k) [r]) k.quad g.pen num tb (baseOf k) r →
        sub sb 0 (4 * tb.width) ≠ [] →
        exec (.scatterAdd t) s = .next (applyRows u t g k num tb (baseOf k) 0 [(r, true, [sub sb 0 (4 * tb.width)])]))) ∧
    (running s t 0x19 (some 4) = some (g, k) → par k 0 2 < tb.bases → par k 2 2 < tb.bases → par k 28 36 = 0 → ∀ bs,
      readRows s g num tb (par k 0 2) (List.range tb.rows) = .ok bs →
      exec (.clone t) s = .next (applyRows s t g k num tb (par k 2 2) 0 ((List.range tb.rows).map fun r =>
        (r, false, [sub bs (r * rowBytes tb) (rowBytes tb)])))) ∧
    (running s t 0x19 (some 3) = some (g, k) → (∀ m, m ∈ s.migs → ¬(m.pen = g.pen ∧ m.object = num)) → ∀ u,
      u = destroyObj s g.pen num → exec (.tableDestroy t) s = .next (finishTask { u with quads := tmap u.quads fun _ q => { q with
        rowCache := tmap q.rowCache fun _ w => w.filter fun r => !(r.1 == g.pen && r.2.1 == num) } } t stSuccess 0))) ∧
    (running s t 0x19 (some 2) = some (g, k) → ∀ b off u, readOp s g.pen (some g) (opd k 1) 0 64 = .ok b → opd k 0 = .obj num off →
      objOf s g.pen num = none → tableDescOk b = true →
      newObject s g.pen num k.quad (tableBales (tableDesc b) * bale) (.table (tableDesc b)) = some u →
      exec (.tableCreate t) s = .next (finishTask ((((objOf u g.pen num).map (·.homes)).getD []).foldl zeroBale u) t stSuccess 0))) ∧
  (∀ (idx : List Nat) (n r : Nat) (b : List Byte) (i : Nat), idx[i]? = some r → (∀ j, i < j → idx[j]? ≠ some r) →
    ((sources idx n b).reverse.find? fun x => x.1 == r) = some (r, sub b (i * n) n)) ∧
  ∀ (s : State) (n slot a : Nat), slotAddr n slot ≤ a → a < slotAddr n slot + bale → s.mem.wf → (zeroBale s (.stack n slot)).mem.byte a = 0

/-- R219, R221 to R224: a row update is a whole row or fp32 contributions rounded once; a row that migrates holds it, any other row takes it at
its home and leaves the row caches. After 2^20 row reads the sketch halves. A migration starts for a hot row of another quad, in a place of
its own there; at the end of COPY the old copy, with what was held applied in list order, stands in the new home while readers still see
the old one; COMMIT waits for an empty hold list, then switches the row's home and finishes the SCATTERs that waited. -/
def Obligations.HotRowsMigrate : Prop :=
  ∀ (s : State) (q : Nat),
    (1048576 ≤ (quadOf s q).sketchReads → exec (.sketchHalving q) s = .next (updQuad s q fun x => { x with
      sketch := tmap x.sketch fun _ v => v / 2, sketchReads := x.sketchReads - 1048576 })) ∧
    (∀ p num base row tb h u st slot idx v, tableOf s p (.obj num 0) = some (num, tb) → tb.migrate = true → 1 ≤ s.drover.migThresh →
      s.drover.migThresh ≤ estimate (quadOf s q) p num base row → rowQuad s p num tb base row ≠ q → migOf s p num base row = none →
      (∀ m, m ∈ s.migs → m.quad ≠ q) → tb.remap.length < 1048576 → base < tb.bases → row < tb.rows → quotaHolds s p 1 = true →
      mostFree (freePool s) (stacksOf s q) = some h → takeSpot s q p num tb = some (u, st, slot, idx) → v = takePool (chargeBales u p 1) h →
      exec (.migrationStart q p num base row) s = .next { v.1 with migs := v.1.migs ++
        [{ quad := q, entry := 0, pen := p, object := num, base := base, row := row, phase := 0
           move := { base := base, row := row, off := rowOff tb base row, size := slotBytes tb, stack := st, slot := slot, idx := idx }
           holdStack := h, holdSlot := v.2 }] }) ∧
    (∀ e m tb b r, findMig s q e = some m → tableOf s m.pen (.obj m.object 0) = some (m.object, tb) →
      (m.phase = 0 → readOp s m.pen none (.obj m.object (rowOff tb m.base m.row)) 0 (rowBytes tb) = .ok b → r = drawTag s →
        exec (.migrationCopyEnd q e) s = .next (modMig (agentWrite r.2 none dmaAgent (newCopy m) (applyAllTo r.1 tb b m.hold)) m fun y =>
          { y with phase := 1, hold := [], done := y.done ++ m.hold })) ∧
      (m.phase = 1 → m.hold ≠ [] → exec (.migrationCommit q e) s = .next s) ∧
      (m.phase = 1 → m.hold = [] → ∀ o u, objOf s m.pen m.object = some o → o.kind = .table tb →
        u = updObj s m.pen m.object (fun x => { x with
          kind := .table { tb with remap := (tb.remap.filter fun r => !(r.base == m.base && r.row == m.row)) ++ [m.move] } }) →
        (∀ r, r ∈ tb.remap → ¬(r.base = m.base ∧ r.row = m.row)) →
        exec (.migrationCommit q e) s = .next (endMig (updQuad (uncacheRow u m.pen m.object m.base m.row) q
          fun x => { x with migDone := satAdd 32 x.migDone 1 }) m stSuccess))) ∧
    (∀ (t : TaskId) (g : Graph) (k : Task) (num base r : Nat) (tb : Table) (add : Bool) (src : List (List Byte)) (ws : List (Nat × Nat)),
      (∀ m, migOf s g.pen num base r = some m → updateRow t g k num tb base (s, ws, 0) (r, add, src) = ({ s with migs := s.migs.map fun y =>
        if y.quad = m.quad ∧ y.entry = m.entry then { y with hold := y.hold ++ [(t, add, src)] } else y },
          addNew ws (m.quad, m.entry), 0)) ∧
      (migOf s g.pen num base r = none → ∀ old, readOp s g.pen (some g) (.obj num (rowOff tb base r)) 0 (rowBytes tb) = .ok old →
        (updateRow t g k num tb base (s, ws, 0) (r, add, src)).1 = writeOp (uncacheRow (drawTag s).2 g.pen num base r) t g.pen k.quad (some g)
          (.obj num (rowOff tb base r)) 0 (if add then addRow (drawTag s).1 tb old src else src.headD [])))

/-! Search (03, 04). -/

/-- R87, R93 to R97, R99, R102, R103, R117 to R119, R125: a QUERY begins its walk at the bound epoch. A WALK_ROUND ends the walk at its
budget or round limit, else expands the nearest unexpanded entries, else widens, or ends with K results or nothing left. A flash walk
opens a round of pages, its engines expand pages and receive hops. RERANK scores the first entries and keeps K. MERGE writes the K best of its
inputs: distinct IDs in order, taken from them. A fan-out starts the shards of its list, those of this
node as queries of their own; once all have ended it reports the failure of the first that failed, else the merged list. -/
def Obligations.SearchesRun : Prop :=
  (∀ (n : Nat) (l : List Hit), (select n l).length ≤ n ∧ (select n l).Pairwise (fun a b => a.id ≠ b.id ∧ hitLt b a = false) ∧
    ∀ h, h ∈ select n l → h ∈ l) ∧
  (∀ (s : State) (t : TaskId) (g : Graph) (k : Task),
    (running s t 0x10 (some 0) = some (g, k) → opLost s g.pen (opd k 0) = false → k.run = .none → ∀ num x b code e,
      indexOf s g.pen (opd k 0) = some (num, x) → paramBlock s g k 192 = .ok b → qparamsOk x.desc.flash b = true →
      ((qparamsOf b).rerank ≠ 0 → x.desc.vecPlace ≠ 0 ∧ opd k 4 ≠ .none) → indexSound s g.pen (opd k 0) = true →
      readOp s g.pen (some g) (opd k 1) 0 (codeBytes x.desc) = .ok code → k.bound = some e →
      exec (.query t) s = .next (beginWalk s t g k x.desc.flash
        { pen := g.pen, object := num, epoch := e, p := qparamsOf b, code := ofLe code })) ∧
    (running s t 0x11 (some 0) = some (g, k) → ∀ bs kind hits, par k 0 32 ≠ 0 → 1 ≤ par k 32 3 → par k 32 3 ≤ 5 → par k 35 29 = 0 →
      (∀ i, i < par k 32 3 → countBeyond s g k i = false) → readAll s g ((List.range (par k 32 3)).map (opd k)) = (0, bs) → kind ≤ 1 → (∀ b, b ∈ bs → fieldAt b 8 1 = kind) → bs ≠ [] →
      hits = select (par k 0 32) (bs.flatMap hitsOf) →
      exec (.merge t) s = .next (finishTask (writeResults s t g k (opd k 5) kind (par k 0 32) hits) t stSuccess hits.length)) ∧
    (running s t 0x10 (some 1) = some (g, k) → k.run = .none → ∀ num x b code h lb p r, indexOf s g.pen (opd k 0) = some (num, x) →
      paramBlock s g k 192 = .ok b → qparamsOk x.desc.flash b = true → p = qparamsOf b → p.rerank = 0 →
      readOp s g.pen (some g) (opd k 1) 0 (codeBytes x.desc) = .ok code → readOp s g.pen (some g) (opd k 5) 0 8 = .ok h →
      1 ≤ fieldAt h 0 4 → fieldAt h 0 4 ≤ 64 → readOp s g.pen (some g) (opd k 5) 0 (8 + 16 * fieldAt h 0 4) = .ok lb →
      (∀ sh, sh ∈ shardsOf lb (fieldAt h 0 4) → shardDiffers s g.pen x.desc sh = false) →
      r = startShards s g b code [] (shardsOf lb (fieldAt h 0 4)) → exec (.fanOutQuery t) s =
        .next (finishFan r.1 t g k { pen := g.pen, p := p, code := ofLe code, list := p.list, shards := r.2 })) ∧
    (∀ sh b code qv, sh.node = s.flue.nodeId → ∃ u, startShard s g sh b code qv = (takeGraph u (shardGraph u g sh (qparamsOf b) code qv
      (startShard s g sh b code qv).2.corrid), (startShard s g sh b code qv).2) ∧ (startShard s g sh b code qv).2.ctx = localCtx ∧
      (startShard s g sh b code qv).2.done = sh.done) ∧
    ∀ (w : Walk) (sh : Shard), w.shards.all (·.done) = true → w.shards.find? (fun y => isFailure y.status) = some sh →
      finishFan s t g k w = finishTask s t sh.status 0) ∧
  ∀ (s : State) (t : TaskId) (g : Graph) (k : Task) (w : Walk), walkOf s t = some (g, k, w) →
    ∀ (x : Index) (c : WCtx), walkCtx s t w = some (x, c) →
    (w.flash = false → w.ended = false →
      (budgetOf c.p ≤ w.beam.exp ∨ roundsUp c.p w.beam.rounds = true → ∀ v, v = { w with
          ended := true, budgetEnd := decide (budgetOf c.p ≤ w.beam.exp), roundsEnd := roundsUp c.p w.beam.rounds } →
        exec (.walkRound t) s = .next (if w.p.rerank = 0 then finishQuery s t g k v else keepWalk s t k v)) ∧
      (w.beam.exp < budgetOf c.p → roundsUp c.p w.beam.rounds = false → ∀ fs, fs = roundSet w.beam (min c.p.beam (budgetOf c.p - w.beam.exp)) →
        (∀ r, fs ≠ [] → r = beamRound (adjOf c) (slotKey c) w.beam fs → ∃ v, exec (.walkRound t) s = .next (keepWalk s t k v) ∧
          v.beam = r.1 ∧ v.results = r.2.foldl (addHit c) w.results ∧ v.counts.expansions = w.counts.expansions + fs.length ∧
          v.counts.scored = w.counts.scored + r.2.length ∧ v.counts.rounds = w.counts.rounds + 1 ∧ v.ended = false) ∧
        (fs = [] → w.results.length < c.p.k → w.beam.ovf ≠ [] → ∃ v, exec (.walkRound t) s = .next (keepWalk s t k v) ∧
          v.beam = widen w.beam ∧ v.ended = false) ∧
        (fs = [] → c.p.k ≤ w.results.length ∨ w.beam.ovf = [] → w.p.rerank = 0 →
          exec (.walkRound t) s = .next (finishQuery s t g k { w with ended := true })))) ∧
    (w.flash = true → w.ended = false → k.status ≠ stMediaError → w.roundOpen = false → ∀ v pages, v = flashBegin c w → v.ended = false →
      pages = (v.engines.flatMap fun e => e.2.todo.map fun d => (e.1, d.1)) →
      (∀ y, y ∈ pages → chanUnitStatus s y.1 (pageUnit x.desc y.2) = 0 ∧ ¬segOf y.1 (pageUnit x.desc y.2) ∈ s.ftl.reloading) → ∀ u,
      u = modTask (keepWalk s t k v) t (fun y => { y with usedFlash := y.usedFlash + 16 * pages.length }) →
      exec (.flashWalkRound t) s = .next (pages.foldl (fun a y => sendPage x t v.epoch a y.1 y.2) u)) ∧
    (∀ ch page d, (tget w.engines ch).todo.find? (fun d => d.1 == page && d.2.2) = some d →
      exec (.enginePageExpand t ch page) s = .next (setWalk s t (flashExpand c w ch page d.2.1))) ∧
    (∀ ch h r e, e = tget w.engines ch → e.hops = h :: r →
      (h.2 ∈ e.scored ∨ h.2 ∈ e.expanded → exec (.hop t ch) s = .next (setWalk s t { w with engines := tput w.engines ch { e with hops := r } })) ∧
      (¬(h.2 ∈ e.scored ∨ h.2 ∈ e.expanded) → (∀ y, y ∈ e.pend → y.2 ≠ h.2) →
        exec (.hop t ch) s = .next (setWalk s t { w with engines := tput w.engines ch (putPend { e with hops := r } h) }))) ∧
    (w.ended = true → w.p.rerank ≠ 0 → k.status ≠ stMediaError →
      (c.d.vecPlace = 2 → w.gathered = false → exec (.rerank t) s = .next (gather s t x w)) ∧
      (c.d.vecPlace ≠ 2 ∨ w.gathered = true → (∀ e, e ∈ w.engines → ∀ d, d ∈ e.2.todo → d.2.2 = true) → ∀ qv r u,
        queryVec s g k w c.d = .ok qv → r = min w.p.rerank w.results.length →
        u = modTask (updTile s k.unitNo fun y => { y with macs := wrapAdd 74 y.macs (rerankMacs c.d.metric r c.d.vecDim) }) t
          (fun y => { y with usedStack := y.usedStack + (if c.d.vecPlace = 1 then r else 0) * vecBytes c.d }) →
        exec (.rerank t) s = .next (finishQuery u t g k { w with results := rerankHits c qv w.results })))

/-! Index updates (05). -/

/-- R132, R134, R136, R139 to R146, R151: INSERT and DELETE apply the next entry to the working state, the last one finishes the task with the
epoch that it joins; an entry without room ends it with INDEX_FULL. A create makes epoch 1 empty, an open attaches the stored index at its
durable epoch, a rebuild commits the live slots as epoch 1, a destroy drops the object. A repair sweep asked for begins, or waits for the
one that runs. (That the creation's commit takes no log position is the model's reading, log 146.) -/
def Obligations.IndexesAreUpdated : Prop :=
  (∀ (s : State) (t : TaskId) (g : Graph) (k : Task),
    (∀ num x n i a f, opLost s g.pen (opd k 0) = false → indexOf s g.pen (opd k 0) = some (num, x) → progress k = (i, a, f) → n = par k 0 32 →
      x.target = false → 1 ≤ n → par k 32 32 = 0 → updOpsOk k = true → updArrayBad s g k = false →
      (running s t 0x12 (some 0) = some (g, k) → n ≤ 65536 → mayUpdate s g.pen num x t i true = true → ∀ b,
        readOp s g.pen (some g) (opd k 1) (i * entryBytes x.desc) (entryBytes x.desc) = .ok b → pagesStatus s x (insertPages x b).2 = 0 →
        (applyInsert x b = none → exec (.insert t) s = .next (finishUpdate s t g k num stIndexFull a f)) ∧
        ∀ y slot rep u w, applyInsert x b = some (y, slot, rep) → ¬slot ∈ keptSlots x → tookEntry s g.pen num x y t i = some u →
          w = modTask u t (fun z => { z with
            run := .update (i + 1) (a + 1) (if rep then f + 1 else f), wrote := true, usedFlash := z.usedFlash + 16 * (insertPages x b).1 }) →
          exec (.insert t) s = .next (if i + 1 = n then finishUpdate w t g k num stSuccess (a + 1) (if rep then f + 1 else f) else w)) ∧
      (running s t 0x13 (some 0) = some (g, k) → n ≤ 1048576 → mayUpdate s g.pen num x t i (deletesLive s g k x i) = true → ∀ b r u w,
        readOp s g.pen (some g) (opd k 1) (8 * i) 8 = .ok b → r = applyDelete x (BitVec.ofNat 64 (ofLe b)) →
        tookEntry s g.pen num x r.1 t i = some u →
        w = modTask u t (fun z => { z with run := .update (i + 1) (a + 1) (if r.2 then f + 1 else f), wrote := true }) →
        exec (.delete t) s = .next (if i + 1 = n then finishUpdate w t g k num stSuccess (a + 1) (if r.2 then f + 1 else f) else w))) ∧
    (running s t 0x12 (some 2) = some (g, k) → ∀ db cb, createArgs s g k = (some (db, cb), 0) → (createOf cb).epoch = 0 →
      createFits k db cb = true → createClash s g.pen (newNumber (opd k 0)) cb = false →
      ((createOf cb).attach = false → k.run = .none → (createOf cb).mirrored = false ∨ (createOf cb).target = true →
        ∀ u, makeIndex s g.pen (newNumber (opd k 0)) k.quad (newIndex (descOf db) (createOf cb) (freeSpace s)) cb 1 = some u →
        exec (.indexCreate t) s = .next (finishTask u t stSuccess 1)) ∧
      ((createOf cb).attach = true →
        ((∀ st, st ∈ s.ftl.stores → st.key ≠ (createOf cb).storeKey) → exec (.indexOpen t) s = .next (finishTask s t stNotFound 0)) ∧
        ∀ st x u v, s.ftl.stores.find? (fun y => y.key == (createOf cb).storeKey && y.epoch != 0) = some st → st.desc = descOf db →
          x = { newIndex st.desc (createOf cb) st.space with
            epochs := [(st.epoch, st.snap)], latest := st.epoch, work := st.snap, mirrorLost := (createOf cb).mirrored
            base := st.epoch, logPos := st.logPos } →
          newObject s g.pen (newNumber (opd k 0)) k.quad bale (.index x) = some u → fitIndex u g.pen (newNumber (opd k 0)) x = some v →
          exec (.indexOpen t) s = .next (finishTask (updStore (syncIndex v g.pen (newNumber (opd k 0))) st.space
            fun y => { y with open_ := true }) t stSuccess st.epoch))) ∧
    (running s t 0x12 (some 3) = some (g, k) → k.run ≠ .update 1 0 0 → opLost s g.pen (opd k 2) = false → ∀ db cb num src sn x u v,
      createArgs s g k = (some (db, cb), 0) → createFits k db cb = true → (createOf cb).attach = false →
      createClash s g.pen (newNumber (opd k 0)) cb = false →
      indexOf s g.pen (opd k 2) = some (num, src) → (descOf db).codeLog = src.desc.codeLog → (descOf db).attrBytes = src.desc.attrBytes →
      (descOf db).vecDim = src.desc.vecDim → (descOf db).vecFmt = src.desc.vecFmt → (descOf db).flash = false →
      k.bound.bind (tget? src.epochs) = some sn →
      rebuilt { newIndex (descOf db) (createOf cb) (freeSpace s) with mirrorLost := (createOf cb).mirrored } sn = some x →
      makeIndex s g.pen (newNumber (opd k 0)) k.quad x cb 0 = some u → fitIndex u g.pen (newNumber (opd k 0)) x = some v →
      exec (.rebuildIndex t) s = .next (finishTask (syncIndex v g.pen (newNumber (opd k 0))) t stSuccess 1)) ∧
    (∀ num x, indexOf s g.pen (opd k 0) = some (num, x) → updOpsOk k = true →
      (running s t 0x13 (some 1) = some (g, k) → par k 1 63 = 0 → x.desc.flash = false → x.commits = [] → x.loading = none →
        exec (.destroy t) s = .next (finishTask (destroyObj s g.pen num) t stSuccess 0)) ∧
      (running s t 0x13 (some 2) = some (g, k) → opLost s g.pen (opd k 0) = false → x.target = false → k.param = 0 →
        (∀ sw, x.sweep = some sw → ¬(t ∈ sw.waiters ∨ t ∈ sw.next) → exec (.repairSweepNow t) s =
          .next (setIndex s g.pen num { x with sweep := some { sw with next := sw.next ++ [t] } })) ∧
        (x.sweep = none → exec (.repairSweepNow t) s = .next (beginSweep s g.pen num x [t]))))) ∧
  (∀ (d : Desc) (c : CreateBlk) (space : Nat), (newIndex d c space).epochs = [(1, {})] ∧ (newIndex d c space).latest = 1 ∧
    (newIndex d c space).logPos = 0 ∧ liveSlots (newIndex d c space).work = []) ∧
  ∀ (x y : Index) (sn : Snap), rebuilt x sn = some y → y.latest = 1 ∧ y.held = 1 ∧ y.epochs = [(1, y.work)]

/-- R132, R134, R146 to R148, R338: EPOCH_COMMIT queues a commit behind its seal. SEAL waits for the update tasks that began; the working state
with its crown becomes the sealed epoch's. COMMIT_COMPLETE first brings a target's epoch to the medium; a sealed commit whose MAP records
are durable has its COMMIT record staged, and one that nothing holds up makes its epoch the latest, keeps at most the held epochs and
writes the report and the completion entry. A sweep runs to its end record, and one that fell due starts. -/
def Obligations.CommitsMakeEpochs : Prop :=
  ∀ (s : State) (p num num' : Nat) (x : Index) (c : Commit), indexOf s p (.obj num 0) = some (num', x) → opLost s p (.obj num 0) = false →
    (x.commits.find? (fun y => !y.sealed) = some c → s.trace.replay = false →
      (x.begun ≠ [] → exec (.seal p num) s = .next s) ∧
      (x.begun = [] → x.desc.flash = false → nextEpoch x ≤ 0xFFFFFFFFFFFF → ∃ t, exec (.seal p num) s = .next t ∧
        (∃ y, indexOf t p (.obj num 0) = some (num, y) ∧ y.work = withCrown x.desc x.work ∧
          y.logPos = wrapAdd 64 x.logPos 1 ∧ y.latest = x.latest ∧ y.commits.length = x.commits.length ∧
          ∃ d, d ∈ y.commits ∧ d.sealed = true ∧ d.epoch = nextEpoch x ∧ d.snap = withCrown x.desc x.work))) ∧
    (∀ l r, x.landing = l :: r → exec (.commitComplete p num) s = .next (landNext s p num x l)) ∧
    (x.landing = [] → x.commits.head? = some c → c.sealed = true → c.mackPending = false →
      (x.desc.flash = true → mapsDurable s x.space = true → c.recorded = false → exec (.commitComplete p num) s =
        .next (setIndex (stageCommit s x c.epoch) p num { x with commits := { c with recorded := true } :: x.commits.drop 1 })) ∧
      (c.admission = false → x.desc.flash = false → ∀ y u, y = pruneEpochs (epochBusy s p num) (commitEpoch x c) →
        u = keepIndex s p num x y → sweepDue y = false →
        exec (.commitComplete p num) s = .next (endCommit u p c c.epoch (if x.mirrored && x.mirrorLost then stMirrorLost else stSuccess))) ∧
      (commitEpoch x c).latest = c.epoch ∧ tget? (commitEpoch x c).epochs c.epoch = some c.snap ∧ (commitEpoch x c).held ≤ x.hold) ∧
    (∀ sw u y, x.sweep = some sw → x.target = false → u = closeSweep s p num x sw → indexOf u p (.obj num 0) = some (num, y) →
      (sw.due = false → sw.next = [] → exec (.sweepEnd p num) s = .next u) ∧
      (sw.due = true → exec (.sweepEnd p num) s = .next (beginSweep u p num y sw.next))) ∧
    (∀ (cmd : Cmd) (n : Nat) (u : State) (report : OpRef), canFetch s cmd = some n → onSkex s cmd = true → cmd.bad = false →
      p = penOfCtl cmd.ctl → x.target = false → u = doFetch s cmd n → indexOf u p (.obj num 0) = some (num', x) →
      opLost u p (.obj num 0) = false → exec (.epochCommit cmd num report) s = .next (setIndex u p num { x with commits := x.commits ++
        [{ cmd := cmd, report := report, epoch := 0, snap := {}, sealed := false, mackPending := false }] }))

/-! Flash tasks and media (11). -/

/-- R298, R341, R300, R294, R306, R311: FLASH_READ sends the reads of its units, FLASH_WRITE its units to the buffer or the medium, a
deallocation unmaps its units and finishes. A page read whose sectors do not all decode goes to the next ladder step until step 7.
A page program with pass status puts its sectors on the medium and maps them, a failed one is programmed again; a Kindling page not
filled is padded to four units; a journal page is programmed with the staged records. -/
def Obligations.FlashTasksReachTheMedia : Prop :=
  ∀ (s : State) (t : TaskId) (g : Graph) (k : Task),
    ((flashLbas s g k).any (unitWaits s) = false → flashBad s g k = false → ∀ us, us = flashLbas s g k → ∀ n, n = 16 * ceilDiv us.length 4 →
      (running s t 0x1C (some 0) = some (g, k) → k.run = .none → us ≠ [] → ∀ u,
        u = modTask (setRun s t .io) t (fun x => { x with usedFlash := x.usedFlash + n, wrote := true }) →
        exec (.flashRead t) s = .next (readUnits u (taskOwner t g) (putTask t)
          ((List.range us.length).zip us |>.map fun x => (x.2, 4096 * x.1)))) ∧
      (running s t 0x1D (some 0) = some (g, k) → k.run = .none → ∀ bs u fua,
        readOp s g.pen (some g) (nth k.ops 1 .none) 0 (4096 * us.length) = .ok bs →
        u = modTask (setRun s t .io) t (fun x => { x with usedFlash := x.usedFlash + n, wrote := true }) →
        (fua = true ↔ bit k.param.toNat 32 = true ∨ firstBad (unitWriteStatus s) us ≠ 0) → ∀ v,
        v = writeUnits u (taskOwner t g) fua (dataUnits us bs) →
        exec (.flashWrite t) s = .next (settleOrdered v (orderedCount v))) ∧
      (running s t 0x1D (some 1) = some (g, k) → (∀ u, u ∈ us → unitWriteStatus s u = 0) →
        exec (.deallocate t) s = .next (wake (finishTask (us.foldl trimUnit s) t stSuccess us.length)))) ∧
    (∀ c n o dec, servedOp (chanOf s c) n 0 = some o → allDecoded o.units.length dec = false → o.step < 7 → ∃ v,
      exec (.pageReadDone c n dec) s = .next v ∧ v.mem = s.mem ∧ v.drover = s.drover ∧ (chanOf v c).uncorr = (chanOf s c).uncorr ∧
        (chanOf v c).reads = wrapAdd 32 (chanOf s c).reads 1 ∧
        (chanOf v c).ops = (chanOf s c).ops.map fun x => if x.num = n then { x with step := x.step + 1 } else x) ∧
    (∀ c n o dec walker page, servedOp (chanOf s c) n 0 = some o → allDecoded o.units.length dec = true → o.purpose = .walk walker page →
      ∃ v, exec (.pageReadDone c n dec) s = .next (modTask v walker fun x => walkVerdict x c page true) ∧ v.mem = s.mem ∧
        v.drover = s.drover ∧ (∀ op, op ∈ (chanOf v c).ops → op.num ≠ n) ∧ (chanOf v c).uncorr = (chanOf s c).uncorr) ∧
    (∀ c n o p, servedOp (chanOf s c) n 1 = some o → p = profOf s c → (chanOf s c).jpages = [] → (chanOf s c).moves = [] →
      (chanOf s c).ckptBusy = none →
      exec (.programDone c n true) s = .next (afterProgram c (landOwners (updChan s c fun ch => closeIfFull p (landSectors p { removeOp ch n with
        programs := wrapAdd 32 ch.programs 1 } o.blk o.page 0 o.sectors) o.blk) c o.sectors)) ∧
      exec (.programDone c n false) s = .next (afterProgram c (kickChan (updChan s c fun ch => failKindling { removeOp ch n with
        programs := wrapAdd 32 ch.programs 1, progFail := satAdd 16 ch.progFail 1
        page := (o.sectors.filter fun x => x.1.kind != 6) ++ ch.page } o.blk) c))) ∧
    (∀ c, 1 ≤ (chanOf s c).page.length → (chanOf s c).page.length < 4 → ∃ ch, exec (.kindlingPad c) s = .next (kickChan (updChan s c fun _ => ch) c) ∧
      ch.page.length = 4 ∧ ch.page.take (chanOf s c).page.length = (chanOf s c).page ∧
      ∀ x, x ∈ ch.page.drop (chanOf s c).page.length → x.1.kind = 6) ∧
    (∀ c, exec (.journalPageTimeout c) s = .next (updChan s c fun ch => startJournal s (profOf s c) ch))

/-- R296, R297, R302, R303, R306, R313 to R315, R318, R446: a block taken is a free one of its LUN with the least wear. A channel rebuilds by the
candidate of the highest SEQ of each unit. Erases free or retire their block; folds and collections start when they are due and take their
victim, a checkpoint takes a native block; a patrol marks blocks, a replan keeps the current set first, a temperature sample stores the groups'
values. A blank channel is not formatted unless FORMAT_BLANK allows. -/
def Obligations.FlashMediaAreManaged : Prop :=
  (∀ (l : List Cand) (c : Cand), c ∈ l → ∃ d, tget? (winners l) c.key = some d ∧ d ∈ l ∧ d.key = c.key ∧ c.seq ≤ d.seq) ∧
  (∀ (p : Profile) (ch v : Chan) (lun b : Nat) (st : BlkState) (pslc : Bool), takeBlock p ch lun st pslc = some (v, b) →
    (blkOf ch b).st = .free ∧ lun * p.nb ≤ b ∧ b < (lun + 1) * p.nb ∧ (blkOf v b).st = st ∧ (blkOf v b).pslc = pslc ∧
    ∀ x, lun * p.nb ≤ x → x < (lun + 1) * p.nb → (blkOf ch x).st = .free → wear p (blkOf ch b) ≤ wear p (blkOf ch x)) ∧
  ∀ (s : State) (c : Nat) (p : Profile), p = profOf s c →
    (∀ n o, servedOp (chanOf s c) n 2 = some o → (chanOf s c).collecting = [] →
      (∀ x u, x = blkOf (chanOf s c) o.blk → x.pslc = false → u = updChan s c (fun ch => blockEvent (wipeBlock p (setBlk { removeOp ch n with
            erases := wrapAdd 32 ch.erases 1 } o.blk { x with
            native := x.native + 1, st := .free, wp := 0, reads := 0, summary := false }) o.blk) o.blk 4) →
        exec (.eraseDone c n true) s = .next (kickChan (checkReadOnly u c) c)) ∧
      (∀ u, u = updChan s c (fun ch => retire p { removeOp ch n with erases := wrapAdd 32 ch.erases 1, eraseFail := satAdd 16 ch.eraseFail 1 }
            o.blk 1) → exec (.eraseDone c n false) s = .next (kickChan (checkReadOnly u c) c))) ∧
    ((chanOf s c).usable = true →
      (∀ lun b, kindleLimit s p < 2 * (lunKindling p (chanOf s c) lun).length → (∀ m, m ∈ (chanOf s c).moves → ¬(m.fold = true ∧ m.lun = lun)) →
        foldSource p (chanOf s c) lun = some b → p.cell ≠ 0 → mappedSlots p (chanOf s c) b ≠ [] →
        exec (.foldStart c lun) s = .next (checkReadOnly (updChan s c fun ch => startMove p ch true lun b) c)) ∧
      (∀ lun, lun ∈ lunsOf p (chanOf s c) → lunFree p (chanOf s c) lun < s.ftl.gcLow → (∀ m, m ∈ (chanOf s c).moves → ¬(m.fold = false ∧ m.lun = lun)) →
        exec (.gcStart c lun) s = .next (checkReadOnly (updChan s c fun ch =>
          startVictim p { ch with collecting := addNew ch.collecting lun } lun) c)) ∧
      ((chanOf s c).ckptBusy = none → s.ftl.ckpt * 64000000 < journalBytes (chanOf s c) → ∀ lun ch b,
        (lunsOf p (chanOf s c)).head? = some lun → takeBlock p (chanOf s c) lun .openCkpt false = some (ch, b) → ∃ v,
        exec (.checkpointStart c) s = .next v ∧ (chanOf v c).ckptBusy = some ((chanOf s c).seq, ch.nextOp)) ∧
      (∀ late groups, ∃ v, exec (.patrolRead c late ⟨[], groups⟩) s = .next v ∧ (chanOf v c).uncorr = (chanOf s c).uncorr ∧
        ∀ b x, tget? (chanOf s c).media.blocks b = some x → x.st = .closed → ∃ y, tget? (chanOf v c).media.blocks b = some y ∧
          (b ∈ late → y.relocate = true) ∧ x.reads ≤ y.reads ∧ y.st = .closed ∧ y.group = (tget? groups b).getD x.group) ∧
      (∀ lun g tried, ∃ v, exec (.readLevelReplan c lun g tried) s = .next (postEvent v 2 (.engine c) 1 lun g) ∧
        tget (chanOf v c).levels (levelKey lun g) = nth (tget (chanOf s c).levels (levelKey lun g)) 0 [] :: bestSets tried)) ∧
    (∀ temps g, g < 4 → s.topo.chgrp.getLsbD g = true → ∃ v, exec (.flashTemperatureSample temps) s = .next v ∧
      tgetD v.ftl.temp g 0 = nth temps g 0 ∧ tgetD v.ftl.maxFmt g 0 = max (nth temps g 0) (tgetD s.ftl.maxFmt g 0) ∧
      tgetD v.ftl.maxRst g 0 = max (nth temps g 0) (tgetD s.ftl.maxRst g 0) ∧ v.ftl.chans = s.ftl.chans) ∧
    ((chanOf s c).rebuilt = false → (chanOf s c).targets ≠ [] →
      exec (.rebuild c none) s = .next (updChan s c fun ch => { ch with rebuilding := true })) ∧
    ((chanOf s c).rebuilding = true → (chanOf s c).rebuilt = false →
      ((chanOf s c).media.formatted = false → s.ftl.formatBlank = false →
        exec (.rebuildDone c) s = .next (updChan s c fun ch => { ch with rebuilding := false, usable := false, targets := [] })) ∧
      ((chanOf s c).media.formatted = true ∨ s.ftl.formatBlank = true → ∃ v, exec (.rebuildDone c) s = .next v ∧
        (chanOf v c).rebuilt = true ∧ (chanOf v c).usable = true ∧ (chanOf v c).rebuilding = false ∧ (chanOf v c).media.formatted = true)) ∧
    ((chanOf s c).rebuilding = true → (chanOf s c).rebuilt = true → ∃ v, exec (.rebuildDone c) s = .next v ∧
      (chanOf v c).rebuilding = false ∧ v.ftl.reloading = s.ftl.reloading.filter fun x => x.1 != c)

/-! Coherence (10). -/

/-- R265 to R268, R280: with nothing waiting in the slice, a request for a line in I with a free way is answered from the stack and makes its
entry, S with the requester or M owned by it; for a line in M it recalls the owner and takes MS_A, MM_A or MI_A. A Put from no holder is
answered with Cmp alone; the owner's gives the line up. The last Ack completes an invalidation, the owner's WbD or CAck a recall. A
stack access of the line reads or writes memory and sends what it owes. With EN = 0 a read makes no entry. The rows of the home and of the
agents change nothing but the directory, the agents, stack lines, their poison and what is sent. -/
def Obligations.HomeSliceAnswers : Prop :=
  (∀ (i : Instr) (s t : State), coherenceRow i = true → (∀ l, i = .stackAccessDone l → runningUnit s l = none) →
      exec i s = .next t → s.onlyCoherence t) ∧
  ∀ (s : State) (r l : Nat) (m : Msg) (u : State), (sliceOf s l).retry = [] →
    u = updSlice (dropMsg s m) l (fun x => { x with reqs := wrapAdd 32 x.reqs 1 }) →
    (entryOf s l = none →
      (findMsg s (· == .rdS) r homeId l = some m → s.coh.en = true → wayFree s l = true → exec (.rds r l) s = .next (rdAcc (setEntry u l
        { st := .S, sharers := [r], bells := if r = hostAgent then [] else [r] }) l .dataB r)) ∧
      (findMsg s (· == .rdE) r homeId l = some m → s.coh.en = true → wayFree s l = true → exec (.rde r l) s = .next (rdAcc (setEntry u l
        { st := .M, owner := r }) l .dataE r)) ∧
      (findMsg s (· == .rdC) r homeId l = some m → exec (.rdc r l) s = .next (rdAcc u l .dataC r)) ∧
      (findMsg s (· == .wr) r homeId l = some m → exec (.wr r l) s = .next (wrAcc u l m.data m.mask (owedCmp r l false))) ∧
      (findMsg s (· == .clr) droverAgent homeId l = some m → exec (.clr l) s = .next (tell u (.cmp false) droverAgent l)) ∧
      (findMsg s (· == .putB) r homeId l = some m → exec (.putb r l) s = .next (tell u (.cmp false) r l)) ∧
      (findMsg s (· == .putE) r homeId l = some m → exec (.pute r l) s = .next (tell u (.cmp false) r l)) ∧
      (findMsg s (· == .putM) r homeId l = some m → exec (.putm r l) s = .next (tell u (.cmp false) r l))) ∧
    (s.coh.en = false → (∀ e, entryOf s l = some e → e.flips = 0) → findMsg s (· == .rdS) r homeId l = some m → exec (.rds r l) s =
      .next (rdAcc u l (if r = hostAgent then .dataC else .dataS) r)) ∧
    (∀ e v, entryOf s l = some e → e.flips = 0 → e.st = .M → s.coh.en = true → v = setEntry u l e →
      (findMsg s (· == .rdS) r homeId l = some m → exec (.rds r l) s = .next (tell (putEntry v l { e with
        st := .MS_A, act := .rdS, req := r, data := m.data, mask := m.mask }) .rclS e.owner l)) ∧
      (findMsg s (· == .rdE) r homeId l = some m → exec (.rde r l) s = .next (tell (putEntry v l { e with
        st := .MM_A, act := .rdE, req := r, data := m.data, mask := m.mask }) .rcl e.owner l)) ∧
      (findMsg s (· == .wr) r homeId l = some m → r ≠ e.owner → exec (.wr r l) s = .next (tell (putEntry v l { e with
        st := .MI_A, act := .wr, req := r, data := m.data, mask := m.mask }) .rcl e.owner l)) ∧
      (findMsg s (· == .wr) r homeId l = some m → r = e.owner → exec (.wr r l) s = .next (wrAcc v l m.data m.mask (owedCmp r l false))) ∧
      (findMsg s (· == .clr) droverAgent homeId l = some m → e.owner = hostAgent → exec (.clr l) s = .next (tell v (.cmp false) droverAgent l)) ∧
      (findMsg s (· == .clr) droverAgent homeId l = some m → e.owner ≠ hostAgent → exec (.clr l) s = .next (tell (putEntry v l { e with
        st := .MI_A, act := .clr, req := droverAgent, data := m.data, mask := m.mask }) .rcl e.owner l)) ∧
      (findMsg s (· == .putE) r homeId l = some m → e.owner = r → exec (.pute r l) s = .next (tell (dropEntry v l) (.cmp false) r l)) ∧
      (findMsg s (· == .putM) r homeId l = some m → e.owner = r →
        exec (.putm r l) s = .next (wrAcc (dropEntry v l) l m.data m.mask (owedCmp r l false)))) ∧
    (∀ e, entryOf s l = some e → e.flips = 1 → findMsg s (· == .rdC) r homeId l = some m → exec (.rdc r l) s = exec (.rdc r l)
      (updSlice (putEntry s l { e with flips := 0 }) l fun x => { x with eccCorr := satAdd 16 x.eccCorr 1 })) ∧
    (∀ e, entryOf s l = some e → e.flips = 0 → e.st = .S → r ≠ hostAgent → r ∈ e.bells → membersIn e (agentGroup r) = [r] → e.sharers = [r] →
      findMsg s (· == .putB) r homeId l = some m → exec (.putb r l) s = .next (tell (dropEntry (setEntry u l e) l) (.cmp false) r l)) ∧
    (∀ e, entryOf s l = some e → e.st = .SM_A → e.awaited = [r] → e.held = none → findMsg s (· == .ack) r homeId l = some m →
      exec (.ack r l) s = .next (putEntry (dropMsg s m) l { st := .M, owner := e.req })) ∧
    (∀ e, entryOf s l = some e → e.st = .MM_A → e.owner = r → r ≠ hostAgent →
      (findMsg s isWbd r homeId l = some m → exec (.wbd r l) s = .next (rdAcc (putEntry (wrAcc (dropMsg s m) l m.data m.mask none) l
        { st := .M, owner := e.req }) l .dataE e.req)) ∧
      (findMsg s isCack r homeId l = some m → exec (.cack r l) s = .next (rdAcc (putEntry (dropMsg s m) l
        { st := .M, owner := e.req }) l .dataE e.req))) ∧
    (∀ a, (sliceOf s l).accesses.find? (fun a => a.line == l) = some a → (stackOf s (dpaStack l)).retraining = false →
      (∀ n, runningUnit s l = some n → exec (.stackAccessDone l) s = .next (updStack s (dpaStack l) fun x => { x with
        units := tupd x.units n fun y => { y with waiting := addNew y.waiting l } })) ∧
      (runningUnit s l = none →
        ∀ v, v = updSlice s l (fun x => { x with accesses := dropFirst (fun b => b.line == l) x.accesses }) →
        exec (.stackAccessDone l) s = .next (if a.poison then payOwed { v with poison := addNew v.poison l } l [] a.owed
          else if a.write then payOwed (writeLine v l a.data a.mask) l [] a.owed
          else payOwed v l (s.mem.read l 64) a.owed)))

/-- R269, R271, R272, R257, R261, R270: with no transaction of the agent on the line open and the agent not blocked, a load that misses asks
the home and waits, a hit is served; a tile's store writes through and gives no ownership, an engine's store to its own lines asks for
ownership. A load in a transient state waits. S is dropped silently, B, E and M are given up by a Put. Inv drops S and B and is
acknowledged; a Bellwether collects its group's Acks and sends one. Rcl and RclS are answered from E or M with the line's data when it is
dirty. Data fills the line and its waiting accesses run; Cmp ends a Put. A blocked agent answers neither Inv nor recall. -/
def Obligations.AgentsKeepTheirLines : Prop :=
  ∀ (s : State) (a l : Nat),
    (agentUp s a = true → isLine l = true → wrOpen s a l = false → blocked s a = false → isParked s a l = false →
      (aline s a l = none → cacheRoom s a l = true → exec (.agentLoad a l) s = .next (toHome (setAline (park s a l none) a l
        { st := if s.coh.en then .IS_D else .II_D }) .rdS a l)) ∧
      (aline s a l = none → cacheRoom s a l = false → exec (.agentLoad a l) s = .next (park s a l none)) ∧
      (∀ data mask, a < 64 → aline s a l = none → exec (.agentStore a l data mask) s = .next (writeThrough s a l data mask)) ∧
      (∀ data mask, takesOwner s a l = true → aline s a l = none → cacheRoom s a l = true → exec (.agentStore a l data mask) s =
        .next (toHome (setAline (park s a l (some (data, mask))) a l { st := .IE_D }) .rdE a l))) ∧
    (∀ x, aline s a l = some x → agentUp s a = true → isLine l = true → isParked s a l = false →
      (x.st = .S ∨ x.st = .B ∨ x.st = .E ∨ x.st = .M → exec (.agentLoad a l) s = .next (serve s a 1)) ∧
      (x.st ≠ .S → x.st ≠ .B → x.st ≠ .E → x.st ≠ .M → exec (.agentLoad a l) s = .next (park s a l none)) ∧
      (∀ data mask, x.st = .E ∨ x.st = .M → exec (.agentStore a l data mask) s = .next (setAline s a l
        { x with st := .M, data := maskBytes x.data data mask }))) ∧
    (∀ x, aline s a l = some x → isDead s a = false → wrOpen s a l = false → blocked s a = false →
      (x.st = .S → exec (.agentReplace a l) s = .next (unpark (dropAline s a l) a)) ∧
      (x.st = .B → exec (.agentReplace a l) s = .next (toHome (setAline s a l { st := .BI_P }) .putB a l)) ∧
      (x.st = .E → exec (.agentReplace a l) s = .next (toHome (setAline s a l { st := .EI_P }) .putE a l)) ∧
      (x.st = .M → exec (.agentReplace a l) s = .next (send (setAline s a l { st := .MI_P, data := x.data })
        { kind := .putM, src := a, dst := homeId, line := l, data := x.data, mask := allMask }))) ∧
    (∀ m, findInv s a l = some m → (blocked s a = true → exec (.inv a l) s = .next s) ∧ (blocked s a = false →
      (m.group = [] → exec (.inv a l) s = .next (send (ownInv (dropMsg s m) a l) { kind := .ack, src := a, dst := m.src, line := l })) ∧
      (m.group = [a] → (agentOf s a).collects.length < 32 → exec (.inv a l) s = .next (toHome (ownInv (dropMsg s m) a l) .ack a l)))) ∧
    (∀ m c b, findMsg s (· == .ack) b a l = some m → (agentOf s a).collects = [c] → c.line = l → c.awaiting = [b] →
      exec (.memberAck a l b) s = .next (toHome (updAgent (dropMsg s m) a fun g => { g with collects := [] }) .ack a l)) ∧
    (∀ m x, aline s a l = some x →
      (blocked s a = true → findMsg s (· == .rcl) homeId a l = some m → exec (.rcl a l) s = .next s) ∧
      (blocked s a = false → (findMsg s (· == .rcl) homeId a l = some m →
        (x.st = .M → exec (.rcl a l) s = .next (unpark (send (dropAline (dropMsg s m) a l)
          { kind := .wbD false, src := a, dst := homeId, line := l, data := x.data, mask := allMask }) a)) ∧
        (x.st = .E → exec (.rcl a l) s = .next (unpark (toHome (dropAline (dropMsg s m) a l) (.cAck false) a l) a))) ∧
      (findMsg s (· == .rclS) homeId a l = some m → (x.st = .M → exec (.rclS a l) s = .next (unpark (send (setAline (dropMsg s m) a l
          { st := .B, data := x.data }) { kind := .wbD true, src := a, dst := homeId, line := l, data := x.data, mask := allMask }) a)) ∧
        (x.st = .E → exec (.rclS a l) s = .next (unpark (toHome (setAline (dropMsg s m) a l { st := .B, data := x.data })
          (.cAck true) a l) a)))) ∧
      (x.st = .IS_D →
        (findMsg s (· == .dataS) homeId a l = some m → exec (.dataS a l) s =
          .next (unpark (setAline (dropMsg s m) a l { x with st := .S, data := m.data }) a)) ∧
        (findMsg s (· == .dataB) homeId a l = some m → exec (.dataB a l) s =
          .next (unpark (setAline (dropMsg s m) a l { x with st := .B, data := m.data }) a))) ∧
      (x.st = .IE_D → x.held = none → findMsg s (· == .dataE) homeId a l = some m → exec (.dataE a l) s =
        .next (unpark (setAline (dropMsg s m) a l { st := .E, data := m.data }) a)) ∧
      (x.st = .BI_P → findMsg s (fun k => k == .cmp false || k == .cmp true) homeId a l = some m →
        exec (.cmp a l) s = .next (unpark (dropAline (dropMsg s m) a l) a))) ∧
    ((agentOf s a).parked = [] → unpark s a = s) ∧
    (∀ x, (agentOf s a).parked = [x] → unpark s a = access (updAgent s a fun g => { g with parked := [] }) a x.1 x.2)

/-- R264, R275 to R277, R279, R281, R324: the host's reads and writes of a line of the home slots become requests at the home; outside them a
read is answered as poison and a write completes without effect; a write during a recording is counted (HOSTMEM). MemClnEvct gives the line
up, or answers a recall under way; the host's answers to a snoop become the Ack or the answer that the home awaits, and a BIConflict is
acknowledged. A read of a line that the host owns returns free bytes and leaves that line's entry to a free choice (the model's choice, log
139). A snoop of a host line that the node caches is answered as a hit, SnpInv drops it. A BISnp that stays unanswered declares the host dead;
a sweep that finds no entry poisons nothing; its end takes the agent off the list and issues the lost unit's tasks again. -/
def Obligations.TheHostIsCoherent : Prop :=
  ∀ (s : State) (l : Nat) (q : State → MsgKind → List Byte → List Bool → State), q = (fun x k d mask =>
      send x { kind := k, src := hostAgent, dst := homeId, line := l, data := d, mask := mask }) →
    (hostReaches s l = true →
      (homeLine s l = false → exec (.hostCxlMemRequest .rdShared l) s = .next (emit s (.memData l (List.replicate line 0) true 0)) ∧
        exec (.hostCxlMemRequest .rdOwn l) s = .next (emit s (.memData l (List.replicate line 0) true 0)) ∧
        exec (.hostCxlMemRequest .rdCur l) s = .next (emit s (.memData l (List.replicate line 0) true 0)) ∧
        ∀ d mask, exec (.hostCxlMemRequest (.wr d mask) l) s = .next (emit (countHostWrite s) (.memCmp l))) ∧
      (homeLine s l = true → exec (.hostCxlMemRequest .rdCur l) s = .next (q s .rdC [] [])) ∧
      (homeLine s l = true → hostOwns s l = false →
        exec (.hostCxlMemRequest .rdShared l) s = .next (q s .rdS [] []) ∧
        exec (.hostCxlMemRequest .rdOwn l) s = .next (q s .rdE [] [])) ∧
      (homeLine s l = true → ∀ d mask u, u = countHostWrite (spoilUsers s l) →
        exec (.hostCxlMemRequest (.wr d mask) l) s = .next (if hostRecalled s l then q u (.wbD false) d mask
          else if hostOwns s l then q u .putM d mask else q u .wr d mask)) ∧
      (hostRecalled s l = false → exec (.hostCxlMemRequest .clnEvct l) s = .next (q s (if hostOwns s l then .putE else .putB) [] [])) ∧
      (hostRecalled s l = true → exec (.hostCxlMemRequest .clnEvct l) s =
        .next (q { s with port := { s.port with biStray := addNew s.port.biStray l } } .putE [] [])) ∧
      (hostSnooped s l = true → exec (.hostCxlMemRequest .biRspI l) s = .next (q s .ack [] [])) ∧
      (hostSnooped s l = false → hostRecalled s l = true → exec (.hostCxlMemRequest .biRspI l) s = .next (q s (.cAck false) [] [])) ∧
      (∀ e, entryOf s l = some e → e.owner = hostAgent → e.st = .MS_A →
        exec (.hostCxlMemRequest .biRspS l) s = .next (q s (.cAck true) [] [])) ∧
      (hostSnooped s l = true ∨ hostRecalled s l = true →
        exec (.hostCxlMemRequest .biConflict l) s = .next (emit s (.biConflictAck l))) ∧
      (homeLine s l = true → hostOwns s l = true → ∀ r, r = emit { s with nfree := s.nfree + 1 } (.memData l
          ((List.range 64).map fun i => Config.freeByte s.nfree i) false ((Config.freeByte s.nfree 64).toNat % 3)) →
        ∀ i, i = .hostCxlMemRequest .rdShared l ∨ i = .hostCxlMemRequest .rdOwn l →
        exec i s = .next (if Config.freeBool r.nfree then dropEntry { r with nfree := r.nfree + 1 } l else { r with nfree := r.nfree + 1 }))) ∧
    (∀ data, ∃ t, exec (.snpInv l data) s = .next t ∧ cached t l = false ∧ t.hostMem = s.hostMem.sets data ∧
      t.out = s.out ++ [.snpRsp l (if cached s l then 0 else 1)] ∧ t.mem = s.mem) ∧
    exec (.snpData l) s = .next (emit s (.snpRsp l (if cached s l then 2 else 1))) ∧
    exec (.snpCur l) s = .next (emit s (.snpRsp l (if cached s l then 3 else 1))) ∧
    (∀ e, entryOf s l = some e → e.owner = hostAgent → e.st = .MS_A ∨ e.st = .MI_A ∨ e.st = .MM_A →
      exec (.bisnpTimeout l) s = .next (declareDead s hostAgent)) ∧
    (∀ a, a ∈ s.coh.toSweep → s.coh.sweeping = false → ∃ t, exec (.reclaimSweep a) s = .next t ∧ t.coh.sweeping = true ∧
      ((∀ x, x ∈ s.coh.slices → x.2.entries = []) → t.poison = s.poison ∧ t.coh.lost = s.coh.lost)) ∧
    (∀ a r, s.coh.sweeping = true → s.coh.toSweep = a :: r → ∀ u, u = markDead { s with coh := { s.coh with toSweep := r, sweeping := false } } a →
      exec .reclaimSweepDone s = .next (relaunch u (sweptTasks u)))

/-! Flue (15). -/

/-- R393 to R397, R400: a message's bytes read back as the message, and its flits carry them in order. A port trains, qualifies and comes up
with full credits, or goes back to training. A block that cannot be corrected is dropped and counted; the flits of another wait. A DATA
flit in its turn is taken and assembled, one out of turn is asked for once; an IDLE flit returns credits; the sixteenth RETRY_REQ for one
ACK drops the port. A message for another node goes on with TTL reduced, or is dropped and counted at TTL 0. -/
def Obligations.FlueLinksCarryMessages : Prop :=
  (∀ m : FlueMsg, m.dst < 2 ^ 10 → m.src < 2 ^ 10 → m.dctx < 2 ^ 16 → m.sctx < 2 ^ 16 → m.mseq < 2 ^ 32 → m.type < 2 ^ 8 → m.ttl < 2 ^ 8 →
    m.gen < 2 ^ 32 → m.corrid < 2 ^ 64 → messageOf (msgBytes m) = m ∧ (msgFlits m).flatMap (·.payload) = msgBytes m ∧
      ∀ f, f ∈ msgFlits m → f.len = f.payload.length ∧ f.len ≤ 240 ∧ f.vc = vcOf m.type) ∧
  ∀ (s : State) (p : Nat),
    (s.boot.ready = true → s.topo.flue.getLsbD p = true → p < 8 → (portOf s p).st ≤ 1 → (portOf s p).dead = false →
      exec (.portTraining p) s = .next (updPort s p fun x => { x with st := 2 })) ∧
    ((portOf s p).st = 2 → ∀ corr dis u, u = updPort s p (fun x => { x with
        corrSym := wrapAdd 32 x.corrSym corr, blockDrop := satAdd 16 x.blockDrop dis }) →
      (dis = 0 → corr ≤ 2 ^ s.flue.qual → exec (.qualificationEnd p corr dis) s = .next (flushOutbox (updPort u p fun x => { x with
        st := 3, cred0 := 256, cred1 := 256, expSeq := 0, sendSeq := 0, rx := [], tx := [], unacked := [], asm0 := [], asm1 := []
        lastAsk := none, askCount := 0, asked := false, freed0 := 0, freed1 := 0, failedQual := 0 }))) ∧
      (dis ≠ 0 ∨ 2 ^ s.flue.qual < corr → (portOf s p).failedQual < 15 → exec (.qualificationEnd p corr dis) s =
        .next (updPort u p fun x => { x with st := 1, failedQual := x.failedQual + 1 }))) ∧
    ((portOf s p).st = 3 → ∀ corr fs u, u = updPort s p (fun x => { x with
        corrSym := wrapAdd 32 x.corrSym corr, blockCount := (x.blockCount + 1) % 256 }) →
      exec (.fecBlock p false corr fs) s = .next (updPort u p fun x => { x with blockDrop := satAdd 16 x.blockDrop 1 }) ∧
      ((∀ b, b ∈ fs → (flitOf b).crcOk = true ∧ (flitOf b).kind ≤ 2) → exec (.fecBlock p true corr fs) s = .next (updPort u p fun x => { x with
        crcErr := satAdd 16 x.crcErr 0, rx := x.rx ++ fs.map flitOf }))) ∧
    (∀ u f, takeFlit s p 1 = some (u, f) →
      (f.crcOk = true → f.seq = (portOf u p).expSeq → ∀ v, v = updPort u p (fun x => { takeReturns x f with
          expSeq := (x.expSeq + 1) % 4096, asked := false }) →
        exec (.dataFlit p) s = .next (returnCredits (pump (assemble v p f) p) p)) ∧
      (f.crcOk = false → (portOf u p).asked = true → exec (.dataFlit p) s = .next (pump u p)) ∧
      (f.crcOk = false → (portOf u p).asked = false → exec (.dataFlit p) s =
        .next (pump (emitFlit (updPort u p fun x => { x with asked := true }) p (plainFlit 2)) p))) ∧
    (∀ u f, takeFlit s p 0 = some (u, f) → f.crcOk = true → exec (.idleFlit p) s = .next (pump (updPort u p fun x => takeReturns x f) p)) ∧
    (∀ u f v, takeFlit s p 2 = some (u, f) → f.crcOk = true → (portOf u p).lastAsk = some f.ackSeq → v = updPort u p (fun x =>
        { takeReturns x f with retries := wrapAdd 32 x.retries 1, lastAsk := some f.ackSeq, askCount := x.askCount + 1 }) →
      (15 ≤ (portOf u p).askCount → exec (.retryReq p) s = .next (dropPort v p 1)) ∧
      ((portOf u p).askCount < 15 → exec (.retryReq p) s = .next (pump ((portOf v p).unacked.foldl (fun x g => emitFlit x p g) v) p))) ∧
    (∀ m, m ∈ s.flue.inbox → m.dst ≠ s.flue.nodeId → ∀ u,
      u = { s with flue := { s.flue with inbox := dropFirst (fun x => x == m) s.flue.inbox } } →
      (m.ttl = 0 → exec (.forward m) s = .next { u with flue := { u.flue with fwdDrop := satAdd 24 s.flue.fwdDrop 1 } }) ∧
      (m.ttl ≠ 0 → poolBytes s + 32 + m.body.length ≤ 4 * 1048576 → ∀ q, routePort s m.dst = some q →
        exec (.forward m) s = .next (sendMsg u { m with ttl := m.ttl - 1 })))

/-- R399 to R404: the controls open and close a context of the issuing pen and set routes; the peer's OPEN makes it OPEN with MSEQ 0, its
CLOSE or a silence of PEER_TMO loses it, and all that waited ends. An ACK drops what it covers; a resend repeats the unacknowledged in
order and doubles the wait. A numbered message that fits no OPEN context is rejected, one out of turn only acknowledged again.
FLUE_SEND reads its bytes and sends a PUT. -/
def Obligations.FlueContextsLive : Prop :=
  ∀ s : State,
    (∀ c b n u, canFetch s c = some n → u = s.afterKeyed c b n → allZero b.resv = true →
      (keyedAccepted s c b 0x0300 (fun _ => true) = true → ctxOpenOk b = true → (ctxOf u (karg b 0 2)).st = 0 →
        penCtxs u (penOfCtl c.ctl) < (penOf u (penOfCtl c.ctl)).peerCtx → ∃ v, exec (.flueCtxOpen c b) s =
          .next (complete (sendOpen v (karg b 0 2)) c stSuccess) ∧ (ctxOf v (karg b 0 2)).st = 1 ∧
          (ctxOf v (karg b 0 2)).pen = penOfCtl c.ctl ∧ (ctxOf v (karg b 0 2)).peer = karg b 2 2 ∧
          (ctxOf v (karg b 0 2)).pctx = karg b 4 2 ∧ (ctxOf v (karg b 0 2)).waiting = []) ∧
      (keyedAccepted s c b 0x0301 (fun _ => true) = true → karg b 0 2 ≤ 1023 → allZero (sub b.args 2 30) = true →
        (ctxOf u (karg b 0 2)).st ≠ 0 → (ctxOf u (karg b 0 2)).pen = penOfCtl c.ctl →
        exec (.flueCtxClose c b) s = .next (complete (closeCtx u (karg b 0 2)) c stSuccess) ∧
        ctxOf (closeCtx u (karg b 0 2)) (karg b 0 2) = {}) ∧
      (keyedAccepted s c b 0x0302 onlyPen0 = true → karg b 0 2 ≤ 1023 → allZero (sub b.args 3 29) = true →
        exec (.flueRoute c b) s = .next (complete (flushOutbox { u with flue := { u.flue with
          routes := tput u.flue.routes (karg b 0 2) (karg b 2 1) } }) c stSuccess))) ∧
    (∀ m u, takeInbox s m 0x01 = some u →
      ((ctxOf u m.dctx).st = 1 → (ctxOf u m.dctx).peer = m.src → (ctxOf u m.dctx).pctx = m.sctx → ∃ v, exec (.openMsg m) s =
        .next (drainCtx (sendOpen v m.dctx) m.dctx (ctxOf u m.dctx).waiting.length) ∧ (ctxOf v m.dctx).st = 2 ∧
        (ctxOf v m.dctx).exp0 = 0 ∧ (ctxOf v m.dctx).exp1 = 0 ∧ (ctxOf v m.dctx).send0 = 0 ∧ (ctxOf v m.dctx).send1 = 0) ∧
      ((ctxOf u m.dctx).st = 0 ∨ (ctxOf u m.dctx).peer ≠ m.src → exec (.openMsg m) s = .next (rejectMsg u))) ∧
    (∀ i m type u, numberedForm i = some (m, type) → takeInbox s m type = some u →
      (msgFits u m = false → exec i s = .next (rejectMsg u)) ∧
      (msgFits u m = true → m.mseq ≠ expectedMseq (ctxOf u m.dctx) (vcOf m.type) → exec i s = .next (sendAck u m.dctx))) ∧
    (∀ m u, takeInbox s m 0x02 = some u → msgFits u m = true → m.mseq = expectedMseq (ctxOf u m.dctx) (vcOf m.type) →
      exec (.close m) s = .next (loseCtx (u.afterMsg m) m.dctx)) ∧
    (∀ m u, takeInbox s m 0x03 = some u → msgFits u m = true → ∃ v, exec (.flueAck m) s = .next (drainCtx v m.dctx (ctxLoad (ctxOf u m.dctx))) ∧
      (ctxOf v m.dctx).unacked0 = (ctxOf u m.dctx).unacked0.filter (fun y => !covers (fieldAt m.body 0 4) y.mseq) ∧
      (ctxOf v m.dctx).unacked1 = (ctxOf u m.dctx).unacked1.filter (fun y => !covers (fieldAt m.body 4 4) y.mseq)) ∧
    (∀ c, (ctxOf s c).st = 2 → (ctxOf s c).unacked0 ≠ [] →
      exec (.resendTimeout c 0) s = .next (updCtx ((ctxOf s c).unacked0.foldl sendMsg s) c fun x => { x with wait0 := min 64 (2 * x.wait0) }) ∧
      exec (.peerTimeout c) s = .next (loseCtx s c)) ∧
    (∀ c, (ctxOf (loseCtx s c) c).st = 3 ∧ (ctxOf (loseCtx s c) c).unacked0 = [] ∧
      (ctxOf (loseCtx s c) c).unacked1 = [] ∧ (ctxOf (loseCtx s c) c).waiting = []) ∧
    (∀ t g k c n b, running s t 0x20 (some 0) = some (g, k) → k.run = .none → c = par k 0 10 → n = par k 10 16 + 1 → par k 58 6 = 0 →
      par k 26 32 % 8 = 0 → opd k 0 ≠ .none → (∀ i, i < 5 → opd k (i + 1) = .none) → (ctxOf s c).st ≠ 0 → (ctxOf s c).pen = g.pen →
      ((ctxOf s c).st = 3 → exec (.flueSend t) s = .next (finishTask s t stPeerLost 0)) ∧
      ((ctxOf s c).st ≠ 3 → readOp s g.pen (some g) (opd k 0) 0 n = .ok b → ∀ v,
        v = modTask s t (fun x => { x with
          run := .send c (ctxOf s c).send0, result := n, usedStack := x.usedStack + stackPart s g (opd k 0) n }) →
        exec (.flueSend t) s = .next (ctxSend v c 0x10 0 (t.graph * 65536 + t.idx) (le 8 (par k 26 32) ++ le 8 g.tag ++ b))))

/-- R134, R148, R404 to R406, R409 to R413: what a message in its turn does. PUT writes its data into the landing object's home and answers
PUT_DONE, which ends the FLUE_SEND; a shard query becomes a graph and its ANSWER fills the fan-out's shard; log records reach the mirror
target, a commit is answered by MACK, which lets the primary's commit go on (a flash-resident target answers once the epoch is durable); LOAD takes a part whose CRC holds; a request on a lent object is
served under the current GEN, once no line of a read's range is owned, or answered MAP_STALE, its answer ends the COPY; MAPUPD grants and revokes. LEND names a borrower; a hand-over
completes once nothing of the old entry is left; a mirror is loaded and promoted. The bodies are the model's (log 15). -/
def Obligations.FlueMessagesAct : Prop :=
  (∀ (s : State) (m : FlueMsg) (u v : State) (x : Ctx), x = ctxOf u m.dctx → msgFits u m = true → m.mseq = expectedMseq x (vcOf m.type) →
    v = u.afterMsg m → (takeInbox s m m.type = some u →
    (m.type = 0x10 → exec (.put m) s = .next (takePut v m) ∧ ∀ n o, x.landing = some n → objOf v x.pen n = some o → (ctxOf v m.dctx).pen = x.pen →
      (ctxOf v m.dctx).landing = some n → (ctxOf v m.dctx).arrival = none → m.body.drop 16 ≠ [] →
      fieldAt m.body 0 8 + (m.body.drop 16).length ≤ o.bytes → exec (.put m) s = .next (ctxSend (writeHome v x.pen none
        (.obj n (fieldAt m.body 0 8)) 0 (m.body.drop 16)) m.dctx 0x11 0 m.corrid (le 2 stSuccess))) ∧
    (m.type = 0x11 → ∀ t g k q, t = ⟨m.corrid / 65536, m.corrid % 65536⟩ → running v t 0x20 (some 0) = some (g, k) → k.run = .send m.dctx q →
      exec (.putDone m) s = .next (finishTask v t (fieldAt m.body 0 2) (if fieldAt m.body 0 2 = stSuccess then k.result else 0))) ∧
    (m.type = 0x21 → ∀ t g k w i sh, shardOf v (ctxOf v m.dctx).pen m.dctx m.corrid = some (t, g, k, w, i) → w.shards[i]? = some sh →
      exec (.answer m) s = .next (finishFan v t g k { w with shards := w.shards.set i (takeAnswer sh m.body) })) ∧
    (∀ p num y r, targetOf v m = some (p, num, y) → r = logRecOf (m.body.drop 4) → y.epochs ≠ [] →
      (m.type = 0x30 → r.kind ≠ 5 → exec (.mrec m) s = .next (targetRec v p num m.dctx r)) ∧
      (m.type = 0x31 → r.kind = 5 → m.corrid = 0 → ∀ sn w z, sn = withCrown y.desc y.work → w = logged { y with work := sn } 5 [] →
        z = { w with epochs := tput w.epochs r.epoch sn, latest := r.epoch, held := min w.hold (w.held + 1) } →
        exec (.mcommit m) s = .next (if y.desc.flash then keepIndex v p num y (pruneEpochs (epochBusy v p num)
            { z with landing := z.landing ++ [{ ctx := some m.dctx, epoch := r.epoch, snap := sn, pos := z.logPos }] })
          else ctxSend (keepIndex v p num y (pruneEpochs (epochBusy v p num) z)) m.dctx 0x32 0 0 (mackBody num r.epoch stSuccess)))) ∧
    (m.type = 0x32 → m.corrid = 0 → ∀ p num y, primaryOf v m = some (p, num, y) → y.loading = none → exec (.mack m) s =
      .next (setIndex v p num { y with commits := y.commits.map fun z =>
        if z.sealed && z.epoch == fieldAt m.body 4 6 then { z with mackPending := false } else z })) ∧
    (m.type = 0x33 → ∀ p num y, targetOf v m = some (p, num, y) →
      (BitVec.ofNat 32 (fieldAt m.body 8 4) ≠ crc32c (m.body.drop 12) → exec (.load m) s = .next (rejectMsg v)) ∧
      (BitVec.ofNat 32 (fieldAt m.body 8 4) = crc32c (m.body.drop 12) → fieldAt m.body 4 1 = 0 ∨ y.epochs = [] →
        exec (.load m) s = .next (loadPart v m p num y))) ∧
    (∀ l, readUnsettled s (ctxOf s m.dctx).pen m = [] → (objOf v (ctxOf v m.dctx).pen (fieldAt m.body 0 4)).bind (·.lent) = some l →
      (l.kind = 0 → l.ctx = m.dctx → l.gen = m.gen → l.handover = none →
        (m.type = 0x40 → exec (.rread m) s = .next (serveLent v (ctxOf v m.dctx).pen m)) ∧
        (m.type = 0x41 → exec (.rwrite m) s = .next (serveLent v (ctxOf v m.dctx).pen m))) ∧
      (l.gen ≠ m.gen → (m.type = 0x40 → exec (.rread m) s = .next (sendRresp v m stMapStale [])) ∧
        (m.type = 0x41 → exec (.rwrite m) s = .next (sendRresp v m stMapStale [])))) ∧
    (m.type = 0x42 → ∀ t g k, copyWaiting v (ctxOf v m.dctx).pen m.corrid = some (t, g, k, [m.corrid], 0) → fieldAt m.body 0 2 = stSuccess →
      k.sub = 0 → borrowedOf v g.pen (opd k 0) = none → exec (.rresp m) s =
        .next (finishTask (modTask v t fun y => { y with run := .remote [] 0 }) t stSuccess k.result)) ∧
    (m.type = 0x43 → fieldAt m.body 0 1 = 1 → objOf v (ctxOf v m.dctx).pen (fieldAt m.body 2 2) = none → exec (.mapupd m) s =
      .next (putObj v (ctxOf v m.dctx).pen (fieldAt m.body 2 2)
        { kind := .borrowed m.dctx (fieldAt m.body 4 4) m.gen (fieldAt m.body 8 8), bytes := fieldAt m.body 8 8 }))) ∧
    (takeInbox s m 0x20 = some u → everFits s (ctxOf s m.dctx).pen oneTask = true → mayAccept s (ctxOf s m.dctx).pen = true →
      fitsNow s (ctxOf s m.dctx).pen oneTask = true → s.trace.replay = false → exec (.queryMessage m) s = .next (takeQuery v m)) ∧
    (servedNow s m = true → ∀ r, r = readUnsettled s (ctxOf s m.dctx).pen m → r ≠ [] → exec (.rread m) s = .next (askLines s r))) ∧
  (∀ (s : State) (c : Cmd) (b : KBlock) (n p num : Nat) (u : State), canFetch s c = some n → u = s.afterKeyed c b n → allZero b.resv = true →
    p = penOfCtl c.ctl → num = karg b 0 2 →
    (keyedAccepted s c b 0x0303 (fun _ => true) = true → lendOk b = true → ∀ o, objOf u p num = some o → o.lost = false →
      homeFailed u o = false → inStacks o = true → o.lent = none →
      (karg b 2 1 = 0 → (ctxOf u (karg b 4 2)).pen = p ∧ ((ctxOf u (karg b 4 2)).st = 1 ∨ (ctxOf u (karg b 4 2)).st = 2)) →
      exec (.lend c b) s = .next (lendTo u p num (karg b 2 1) (karg b 4 2) (karg b 8 2) c)) ∧
    (allZero (sub b.args 2 30) = true → opLost u p (.obj num 0) = false → ∀ y, indexOf u p (.obj num 0) = some (num, y) →
      (keyedAccepted s c b 0x0304 (fun _ => true) = true → y.mirrored = true → y.target = false → y.loading = none →
        ∀ ctx, ctxTo u p y.mirrorNode = some ctx → exec (.mirrorLoad c b) s = .next (ctxSend (setIndex u p num { y with
          loading := some { cmd := c, epoch := y.latest, phase := 0 }, mirrorLost := true }) ctx 0x33 0 0
          (loadBody y.mirrorObject 0 (descBytes y.desc)))) ∧
      (keyedAccepted s c b 0x0305 (fun _ => true) = true → y.target = true → ∀ sn, tget? y.epochs y.latest = some sn → ∃ z,
        exec (.mirrorPromote c b) s = .next (complete (keepIndex u p num z z) c stSuccess) ∧ z.target = false ∧ z.mirrored = false ∧
          z.work = sn ∧ z.latest = y.latest ∧ z.epochs = y.epochs))) ∧
  ∀ (s : State) (p num : Nat) (o : Obj) (l : Lent) (cmd : Cmd), objOf s p num = some o → o.lent = some l → l.handover = some cmd →
    l.draining = [] → l.kind ≠ 0 ∨ (ctxOf s l.ctx).st ≠ 1 → l.kind = 1 ∨ hostHeld s o = [] → l.waiting = [] → l.queued = [] →
    exec (.lendHandoverDone p num) s = .next (complete (updObj s p num fun x => { x with
      lent := if l.kind = 2 then none else some { l with handover := none, waiting := [], queued := [] } }) cmd stSuccess)

/-! Health, losses, die-to-die links (17, 01), recording and replay (17). -/

/-- R31, R438 to R445, R442: scores lie within 100. A window with every slack at 20 ps or more changes nothing but the slacks read; below that the
first row of R443 that applies raises the guard band, lowers the bin, or exhausts the domain. A bin lowering, its walks between rounds, and a PHY retraining run to
their ends. A module repairs four lanes in each direction; the next failure takes it down. A faulted tile leaves service; a faulted node is fenced: nothing is fetched or issued any more, FAULT_N is low, and of the admin
commands it answers log page 0xC0 of pen 0. A module that is down is listed; its pair resumes with the list of those left. -/
def Obligations.HealthIsKept : Prop :=
  ∀ s : State,
    (s.boot.ready = true → ∃ t, exec .scoreRecompute s = .next t ∧ t.health.nodeScore ≤ 100 ∧ (∀ i x, (i, x) ∈ t.health.scores → i < 128 ∧ x ≤ 100) ∧
      t = { s with nfree := t.nfree, health := { s.health with scores := t.health.scores, nodeScore := t.health.nodeScore } }) ∧
    (s.boot.ready = true → ∀ mins, mins.length = 20 → (∀ d, d < 20 → 20 ≤ nth mins d 0) → ∃ t, exec (.marginEvaluation mins) s = .next t ∧
      t = { s with health := { s.health with minSlack := t.health.minSlack } } ∧
      ∀ d, d < 20 → s.power.on.getLsbD d = true → tgetD t.health.minSlack d 0 = nth mins d 0) ∧
    (∀ d m u, u = { s with health := { s.health with minSlack := tput s.health.minSlack d m } } →
      (m < 20 → tgetD s.health.gb d 0 < 75 → evaluateDomain s d m = raiseGb u d) ∧
      (8 ≤ m → m < 20 → 75 ≤ tgetD s.health.gb d 0 → binLeft s d = true → evaluateDomain s d m = startBin u d) ∧
      (m < 8 → 75 ≤ tgetD s.health.gb d 0 → binLeft s d = false → evaluateDomain s d m = exhaust u d)) ∧
    (∀ q, q < 4 → ((quadOf s q).binStage = 1 → inRound s q = false → exec (.binQuiesceDone q) s = .next (updQuad s q fun x => { x with binStage := 2 })) ∧
      ((quadOf s q).binStage = 2 → ∃ u, exec (.pllRelockDone q) s = .next (postEvent u 2 (.domain q) 2 (marginDetail u q) 0) ∧
        (quadOf u q).tileMhz = binMhz (quadOf s q).binNext ∧ tgetD u.health.bin q 0 = (quadOf s q).binNext ∧ (quadOf u q).binStage = 0)) ∧
    (∀ n m, stackUsable s n = true → (stackOf s n).retraining = false → m < 15 →
      exec (.phyRetrain n m) s = .next (updStack s n fun x => { x with retraining := true, eye := m })) ∧
    (∀ n m, (stackOf s n).retraining = true → 15 ≤ m → ∃ u, exec (.phyRetrainDone n m) s =
      .next (postEvent u 2 (.stack n) 3 m (stackOf s n).phyRate) ∧ (stackOf u n).retraining = false ∧ (stackOf u n).eye = m ∧
        (stackOf u n).phyRate = (stackOf s n).phyRate ∧ (stackOf u n).retrains = satAdd 16 (stackOf s n).retrains 1) ∧
    (∀ n, unitUp s (.tile n) = true → ∃ t, exec (.unitFault (.tile n)) s = .next t ∧ t.topo.tileOk.getLsbD n = false) ∧
    (∀ cause drain, s.power.on &&& coreDomains = coreDomains → 1 ≤ cause → cause ≤ 6 → s.boot.ready = true → s.boot.phase ≠ 15 → s.health.st ≠ 2 →
      ∃ t, exec (.nodeFault cause drain) s = .next t ∧ t.health.st = 2 ∧ t.health.cause = cause ∧ t.health.drained = drain ∧
        t.power.faultN = true ∧ t.port.stopped = true ∧ t.drover.stopped = true ∧ (∀ c, canFetch t c = none) ∧ ∀ k c, exec (.taskIssue k c) t = .next t) ∧
    (∀ c off len prp q u, s.health.st = 2 → penOfCtl c.ctl = 0 → c.sq = 0 → sqOf (ctlOf s c.ctl) 0 = some q → sqPending q = true →
      u = doFetch s c q.fetched → exec (.getLogPage c 0xC0 off len prp) s = .next (complete (prpWrite u (fnPages c prp) (sub (healthPage u) off len)) c stSuccess)) ∧
    (∀ m, unitUp s (.d2d m) = true → domainOn s domSPN = true → (∃ t, exec (.dieToDieModuleDown m) s = .next t ∧ m ∈ t.topo.d2dDown) ∧
      (∀ back n, n = tgetD s.topo.d2dSpares (2 * m + b2n back) 0 →
        (n < 4 → exec (.laneFailure ⟨m, back⟩) s = .next { s with topo := { s.topo with
          d2dSpares := tput s.topo.d2dSpares (2 * m + b2n back) (n + 1) } }) ∧
        (4 ≤ n → exec (.laneFailure ⟨m, back⟩) s = exec (.dieToDieModuleDown m) s))) ∧
    (∀ p, p ∈ s.topo.d2dDraining → (∀ x ∈ s.coh.net, ¬x.num ∈ tget s.topo.d2dFlight p) → ∃ u, exec (.routeListResume p) s = .next (resend u) ∧
      tget u.topo.d2dList p = pairUp s.topo.d2dDown p ∧ ¬p ∈ u.topo.d2dDraining ∧ u.coh = s.coh)

/-- R450 to R456: a record put into the ring is read back from it whole, wherever the ring wraps. GO empties the head buffer into the ring, a
write of RCONS makes room, both while no replay runs; while recording RPROD keeps its value; in replay a write of RPROD consumes the records
up to it. REPLAY begins only before anything was touched. -/
def Obligations.TraceRecordsReadBack : Prop :=
  (∀ (s u : State) (r : TRec), r.kind < 256 → r.stream < 65536 → r.sseq < 2 ^ 32 → r.body.length < 65536 → recLen r ≤ ringSize s →
    s.trace.rprod < ringSize s → u = ringPut s r → parseRecs u 1 s.trace.rprod (recLen r) = [(s.trace.rprod, r)] ∧
      u.trace.rprod = (s.trace.rprod + recLen r) % ringSize s) ∧
  ∀ s : State,
    (s.boot.ready = true → s.trace.replay = false →
      (∀ u, u = drainHead { s with trace := { s.trace with go := true } } s.trace.headBuf.length →
        exec .trcGo s = .next { u with trace := { u.trace with stalled := u.trace.stalled && headFull u.trace } }) ∧
      (∀ off u, u = drainHead { s with trace := { s.trace with rcons := off % 2 ^ 40 } } s.trace.headBuf.length →
        exec (.trcRconsWrite off) s = .next { u with trace := { u.trace with stalled := u.trace.stalled && headFull u.trace } }) ∧
      ∀ off writes, exec (.trcRprodWrite off writes) s = .next { s with
        hostMem := s.hostMem.sets writes
        trace := if s.trace.recording then s.trace else { s.trace with rprod := off % 2 ^ 40 } }) ∧
    (s.boot.ready = true → s.trace.rec_ = false → s.trace.touched = false → s.trace.replay = false → s.trace.diverged = false →
      exec .trcReplay s = .next { s with trace := { s.trace with replay := true, touched := true, rcons := 0, rprod := 0 } }) ∧
    (s.trace.touched = true → exec .trcReplay s = .next s) ∧
    (s.trace.replay = true → ∀ off writes u n, u = { s with hostMem := s.hostMem.sets writes } →
      n = (off + ringSize s - s.trace.rprod) % ringSize s → ∀ v, v = (parseRecs u (n / 16 + 1) s.trace.rprod n).foldl consume u →
      exec (.trcRprodWrite off writes) s = .next { v with trace := { v.trace with rprod := off % 2 ^ 40, rcons := off % 2 ^ 40 } })
end

