-- ==== Sys2Proof/Laws/Tab.lean ====
section
/-!
SUPPORT. Laws of the tables: what a read gives after a put, a removal and a change, and that each keeps the keys in strictly
rising order.
-/

namespace Sys2Proof.Machine

variable {α : Type}

/-- Keys in strictly rising order. -/
abbrev TabOk (t : Tab α) : Prop := t.Pairwise fun x y => x.1 < y.1

@[simp] theorem tget?_nil (k : Nat) : tget? ([] : Tab α) k = none := rfl

theorem tget?_eq_none_of_lt (t : Tab α) (k : Nat) (h : ∀ x ∈ t, k < x.1) : tget? t k = none := by
  induction t with
  | nil => rfl
  | cons x r ih =>
    have h1 := h x (by simp)
    have h2 : x.1 ≠ k := by omega
    simp only [tget?, h2, if_false]
    exact ih fun y hy => h y (by simp [hy])

@[simp] theorem tget?_tput_same (t : Tab α) (k : Nat) (v : α) : tget? (tput t k v) k = some v := by
  induction t with
  | nil => simp [tput, tget?]
  | cons x r ih =>
    obtain ⟨j, w⟩ := x
    simp only [tput]
    split
    · simp [tget?]
    · split
      · simp [tget?]
      · rename_i h1 h2
        have : j ≠ k := fun e => h2 e.symm
        simp [tget?, this, ih]

theorem tget?_tput_ne (t : Tab α) (k i : Nat) (v : α) (h : i ≠ k) : tget? (tput t k v) i = tget? t i := by
  induction t with
  | nil => simp [tput, tget?, Ne.symm h]
  | cons x r ih =>
    obtain ⟨j, w⟩ := x
    simp only [tput]
    split
    · simp [tget?, Ne.symm h]
    · split
      · rename_i h1 h2
        subst h2
        simp [tget?, Ne.symm h]
      · simp only [tget?, ih]

@[simp] theorem tget_tput_same [Inhabited α] (t : Tab α) (k : Nat) (v : α) : tget (tput t k v) k = v := by simp [tget]

theorem tget_tput_ne [Inhabited α] (t : Tab α) (k i : Nat) (v : α) (h : i ≠ k) : tget (tput t k v) i = tget t i := by
  simp [tget, tget?_tput_ne t k i v h]

@[simp] theorem tget_tmod_same [Inhabited α] (t : Tab α) (k : Nat) (f : α → α) : tget (tmod t k f) k = f (tget t k) := by
  simp [tmod]

theorem tget_tmod_ne [Inhabited α] (t : Tab α) (k i : Nat) (f : α → α) (h : i ≠ k) : tget (tmod t k f) i = tget t i := by
  simp [tmod, tget_tput_ne t k i _ h]

theorem tget?_tupd_same (t : Tab α) (k : Nat) (f : α → α) : tget? (tupd t k f) k = (tget? t k).map f := by
  induction t with
  | nil => rfl
  | cons x r ih =>
    obtain ⟨j, w⟩ := x
    simp only [tupd, tget?]
    split
    · rename_i h; simp [tget?, h]
    · rename_i h; simp [tget?, h, ih]

theorem tget?_tupd_ne (t : Tab α) (k i : Nat) (f : α → α) (h : i ≠ k) : tget? (tupd t k f) i = tget? t i := by
  induction t with
  | nil => rfl
  | cons x r ih =>
    obtain ⟨j, w⟩ := x
    simp only [tupd]
    split
    · rename_i hj
      subst hj
      simp [tget?, Ne.symm h]
    · simp only [tget?, ih]

theorem tget?_tdel_same (t : Tab α) (k : Nat) (ok : TabOk t) : tget? (tdel t k) k = none := by
  induction t with
  | nil => rfl
  | cons x r ih =>
    obtain ⟨j, w⟩ := x
    have hr := (List.pairwise_cons.1 ok).1
    simp only [tdel]
    split
    · rename_i hj
      subst hj
      exact tget?_eq_none_of_lt r j fun y hy => hr y hy
    · rename_i hj
      simp [tget?, hj, ih ok.of_cons]

theorem tget?_tdel_ne (t : Tab α) (k i : Nat) (h : i ≠ k) : tget? (tdel t k) i = tget? t i := by
  induction t with
  | nil => rfl
  | cons x r ih =>
    obtain ⟨j, w⟩ := x
    simp only [tdel]
    split
    · rename_i hj
      subst hj
      simp [tget?, Ne.symm h]
    · simp only [tget?, ih]

theorem mem_tput (t : Tab α) (k : Nat) (v : α) (x : Nat × α) (h : x ∈ tput t k v) : x = (k, v) ∨ x ∈ t := by
  induction t with
  | nil => simpa [tput] using h
  | cons y r ih =>
    obtain ⟨j, w⟩ := y
    simp only [tput] at h
    split at h
    · simpa using h
    · split at h
      · rcases List.mem_cons.1 h with h | h
        · exact .inl h
        · exact .inr (List.mem_cons_of_mem _ h)
      · rcases List.mem_cons.1 h with h | h
        · exact .inr (by simp [h])
        · rcases ih h with h | h
          · exact .inl h
          · exact .inr (List.mem_cons_of_mem _ h)

theorem tput_ok (t : Tab α) (k : Nat) (v : α) (ok : TabOk t) : TabOk (tput t k v) := by
  induction t with
  | nil => simp [tput, TabOk]
  | cons y r ih =>
    obtain ⟨j, w⟩ := y
    have hr := (List.pairwise_cons.1 ok).1
    simp only [tput]
    split
    · rename_i hk
      refine List.pairwise_cons.2 ⟨fun x hx => ?_, ok⟩
      rcases List.mem_cons.1 hx with hx | hx
      · subst hx; exact hk
      · exact Nat.lt_trans hk (hr x hx)
    · split
      · rename_i h1 h2
        subst h2
        exact List.pairwise_cons.2 ⟨fun x hx => hr x hx, ok.of_cons⟩
      · rename_i h1 h2
        refine List.pairwise_cons.2 ⟨fun x hx => ?_, ih ok.of_cons⟩
        rcases mem_tput r k v x hx with hx | hx
        · subst hx; show j < k; omega
        · exact hr x hx

theorem tmod_ok [Inhabited α] (t : Tab α) (k : Nat) (f : α → α) (ok : TabOk t) : TabOk (tmod t k f) := tput_ok t k _ ok

theorem keys_tupd (t : Tab α) (k : Nat) (f : α → α) : (tupd t k f).map (·.1) = t.map (·.1) := by
  induction t with
  | nil => rfl
  | cons y r ih =>
    obtain ⟨j, w⟩ := y
    simp only [tupd]
    split <;> simp [*]

theorem tupd_ok (t : Tab α) (k : Nat) (f : α → α) (ok : TabOk t) : TabOk (tupd t k f) := by
  have h : (t.map (·.1)).Pairwise (· < ·) := List.pairwise_map.2 ok
  rw [← keys_tupd t k f] at h
  exact List.pairwise_map.1 h

theorem tdel_sublist (t : Tab α) (k : Nat) : (tdel t k).Sublist t := by
  induction t with
  | nil => exact .slnil
  | cons y r ih =>
    obtain ⟨j, w⟩ := y
    simp only [tdel]
    split
    · exact List.sublist_cons_self _ _
    · exact ih.cons_cons _

theorem tdel_ok (t : Tab α) (k : Nat) (ok : TabOk t) : TabOk (tdel t k) := ok.sublist (tdel_sublist t k)

end Sys2Proof.Machine
end

