-- ==== Sys2Proof/Laws/Commands.lean ====
section
/-!
SUPPORT. What fetching a command leaves as it was, and what becomes of a keyed command that is accepted or turned away.
-/

namespace Sys2Proof.Machine

/-- A record written to the ring leaves all but host memory, the free values and the recording as they were. -/
theorem ringPut_frame (s : State) (r : TRec) :
    ringPut s r = { s with nfree := (ringPut s r).nfree, hostMem := (ringPut s r).hostMem, trace := (ringPut s r).trace } := rfl

theorem ringPut_trace (s : State) (r : TRec) : (ringPut s r).trace = { s.trace with rprod := (ringPut s r).trace.rprod } := rfl

/-- What a recording touches: host memory, free values, and of the recording itself neither mode nor supplies. -/
structure Traced (s t : State) : Prop where
  rest : t = { s with nfree := t.nfree, hostMem := t.hostMem, trace := t.trace }
  replay : t.trace.replay = s.trace.replay
  supplied : t.trace.supplied = s.trace.supplied

theorem Traced.refl (s : State) : Traced s s := ⟨rfl, rfl, rfl⟩

theorem Traced.trans {s t u : State} (h : Traced s t) (k : Traced t u) : Traced s u := by
  refine ⟨?_, k.replay.trans h.replay, k.supplied.trans h.supplied⟩
  have e := k.rest
  rw [h.rest] at e
  exact e

theorem drainHead_traced (s : State) (n : Nat) : Traced s (drainHead s n) := by
  induction n generalizing s with
  | zero => exact .refl s
  | succ k ih =>
    unfold drainHead
    split
    · exact .refl s
    · next r rest _ =>
      split
      · exact Traced.trans (t := ringPut { s with trace := { s.trace with headBuf := rest } } r) ⟨rfl, rfl, rfl⟩ (ih _)
      · exact .refl s

theorem traceRec_traced (s : State) (kind stream : Nat) (body : List Byte) : Traced s (traceRec s kind stream body) := by
  unfold traceRec
  extract_lets a s1 r b t s2
  have h1 : Traced s s1 := by
    unfold s1; split
    · exact ⟨rfl, rfl, rfl⟩
    · exact .refl s
  have h2 : Traced s s2 := by
    refine h1.trans (Traced.trans (t := { s1 with trace := t }) ⟨rfl, rfl, rfl⟩ ?_)
    exact drainHead_traced _ _
  split
  · exact h1
  · split
    · split
      · exact h1.trans ⟨rfl, rfl, rfl⟩
      · exact h2.trans ⟨rfl, rfl, rfl⟩
    · exact h2

theorem Traced.pens {s t : State} (h : Traced s t) : t.pens = s.pens := by rw [h.rest]
theorem Traced.boot {s t : State} (h : Traced s t) : t.boot = s.boot := by rw [h.rest]
theorem Traced.port {s t : State} (h : Traced s t) : t.port = s.port := by rw [h.rest]

/-- The state in which a fetch puts the command in the live list. -/
theorem doFetch_of (s : State) (c : Cmd) (n : Nat) : ∃ u, Traced s u ∧
    (doFetch s c n).pens = u.pens ∧ (doFetch s c n).boot = u.boot ∧ (doFetch s c n).trace.replay = u.trace.replay ∧
    (doFetch s c n).trace.supplied = (if u.trace.replay then
      dropFirst (fun r => r.stream == 0 && r.kind == 0x01) u.trace.supplied else u.trace.supplied) ∧
    ctlOf (doFetch s c n) c.ctl = (match sqOf (ctlOf u c.ctl) c.sq with
      | none => ctlOf u c.ctl
      | some q => setSq (ctlOf u c.ctl) c.sq { q with fetched := q.fetched + 1 }) := by
  unfold doFetch
  extract_lets +onlyGivenNames q u
  have hu : Traced s u := by
    unfold u; split
    · exact traceRec_traced ..
    · exact .refl s
  clear_value u
  refine ⟨u, hu, ?_, ?_, ?_, ?_, ?_⟩
  all_goals dsimp only
  all_goals by_cases hr : u.trace.replay = true <;> simp [hr, updCtl, ctlOf] <;> rfl

theorem doFetch_pens (s : State) (c : Cmd) (n : Nat) : (doFetch s c n).pens = s.pens := by
  obtain ⟨u, h, hp, _⟩ := doFetch_of s c n
  rw [hp, h.pens]

theorem doFetch_boot (s : State) (c : Cmd) (n : Nat) : (doFetch s c n).boot = s.boot := by
  obtain ⟨u, h, _, hb, _⟩ := doFetch_of s c n
  rw [hb, h.boot]

theorem find_dropFirst {α : Type} (p q : α → Bool) (l : List α) (h : ∀ x, p x = true → q x = false) :
    (dropFirst p l).find? q = l.find? q := by
  induction l with
  | nil => rfl
  | cons x r ih =>
    unfold dropFirst
    split
    · next hp => simp [h x hp]
    · simp [List.find?_cons, ih]

/-- Whether a keyed command passes its checks does not change by its fetch. -/
theorem keyedOk_doFetch (s : State) (c : Cmd) (n p code : Nat) (b : KBlock) (permitted : Bool) :
    keyedOk (doFetch s c n) p code b permitted = keyedOk s p code b permitted := by
  obtain ⟨u, h, hp, hb, hr, hs, _⟩ := doFetch_of s c n
  have h1 := h.replay
  have h2 := h.supplied
  have h3 := h.pens
  have h4 := h.boot
  unfold keyedOk
  rw [hr, hs, h1, h2]
  by_cases e : s.trace.replay = true
  · simp only [e, if_true]
    rw [find_dropFirst]
    intro x hx
    simp at hx ⊢
    omega
  · simp only [e, penOf, hp, h3, penKey, hb, h4]
    rfl

/-- Whether a command's queue is a Skex queue does not change by the command's fetch. -/
theorem onSkex_doFetch (s : State) (c : Cmd) (n : Nat) : onSkex (doFetch s c n) c = onSkex s c := by
  obtain ⟨u, h, _, _, _, _, hc⟩ := doFetch_of s c n
  have h1 : ctlOf u c.ctl = ctlOf s c.ctl := by simp [ctlOf, h.port]
  rw [h1] at hc
  unfold onSkex
  cases e : sqOf (ctlOf s c.ctl) c.sq with
  | none =>
    rw [e] at hc
    rw [hc, e]
  | some q =>
    rw [e] at hc
    rw [hc]
    have : sqOf (setSq (ctlOf s c.ctl) c.sq { q with fetched := q.fetched + 1 }) c.sq = some { q with fetched := q.fetched + 1 } := by
      unfold sqOf at e ⊢
      unfold setSq
      by_cases hq : c.sq = 0
      · simp only [hq, if_true] at e ⊢
        by_cases he : (ctlOf s c.ctl).en = true
        · simp [he]
        · simp [he] at e
      · simp [hq]
    rw [this]

/-- A keyed command that is accepted acts on the node as its fetch and acceptance leave it. -/
theorem withKeyed_accepted (s : State) (c : Cmd) (b : KBlock) (code n : Nat) (permit : Nat → Bool) (f : State → Nat → State)
    (hn : canFetch s c = some n) (ha : keyedAccepted s c b code permit = true) :
    withKeyed s c b code permit f = .next (f (s.afterKeyed c b n) (penOfCtl c.ctl)) := by
  unfold keyedAccepted at ha
  simp only [Bool.and_eq_true] at ha
  have hb : c.bad = false := by simpa using ha.1.2
  unfold withKeyed withCmd
  simp only [hn, onSkex_doFetch, ha.1.1.2, hb, keyedOk_doFetch, ha.2]
  rfl

/-- A keyed command on a Skex queue that fails a check completes with TAG_REJECTED. -/
theorem withKeyed_rejected (s : State) (c : Cmd) (b : KBlock) (code n : Nat) (permit : Nat → Bool) (f : State → Nat → State)
    (hn : canFetch s c = some n) (hs : onSkex s c = true) (hb : c.bad = false) (hk : keyedOk s (penOfCtl c.ctl) code b (permit (penOfCtl c.ctl)) = false) :
    withKeyed s c b code permit f = .next (complete (s.afterReject c n) c stTagRejected) := by
  unfold withKeyed withCmd
  simp only [hn, onSkex_doFetch, hs, hb, keyedOk_doFetch, hk]
  rfl

end Sys2Proof.Machine
end

