-- ==== Sys2Proof/Laws/Mem.lean ====
section
/-!
SUPPORT. Laws of the byte memories: every operation keeps the canonical form; a byte written reads back as written, and every
other byte reads as before.
-/

namespace Sys2Proof.Machine

open Host (Cell)

/-! The canonical form. -/

theorem mem_setCell (c : List Cell) (a : Nat) (b : Byte) (x : Cell) (h : x ∈ setCell c a b) : x = (a, b) ∨ x ∈ c := by
  induction c with
  | nil => simp only [setCell] at h; split at h <;> simp_all
  | cons y r ih =>
    obtain ⟨j, w⟩ := y
    simp only [setCell] at h
    split at h
    · split at h
      · exact .inr h
      · simpa using h
    · split at h
      · split at h
        · exact .inr (List.mem_cons_of_mem _ h)
        · rcases List.mem_cons.1 h with h | h
          · exact .inl h
          · exact .inr (List.mem_cons_of_mem _ h)
      · rcases List.mem_cons.1 h with h | h
        · exact .inr (by simp [h])
        · rcases ih h with h | h
          · exact .inl h
          · exact .inr (List.mem_cons_of_mem _ h)

theorem setCell_ok (c : List Cell) (a : Nat) (b : Byte) (ok : CellsOk c) : CellsOk (setCell c a b) := by
  induction c with
  | nil => simp only [setCell]; split <;> simp_all [CellsOk]
  | cons y r ih =>
    obtain ⟨j, w⟩ := y
    obtain ⟨hs, hz⟩ := ok
    have hr := (List.pairwise_cons.1 hs).1
    have okr : CellsOk r := ⟨hs.of_cons, fun x hx => hz x (List.mem_cons_of_mem _ hx)⟩
    simp only [setCell]
    split
    · split
      · exact ⟨hs, hz⟩
      · rename_i ha hb
        refine ⟨List.pairwise_cons.2 ⟨fun x hx => ?_, hs⟩, fun x hx => ?_⟩
        · rcases List.mem_cons.1 hx with hx | hx
          · subst hx; exact ha
          · exact Nat.lt_trans ha (hr x hx)
        · rcases List.mem_cons.1 hx with hx | hx
          · subst hx; exact hb
          · exact hz x hx
    · split
      · split
        · exact okr
        · rename_i ha he hb
          subst he
          refine ⟨List.pairwise_cons.2 ⟨fun x hx => hr x hx, okr.1⟩, fun x hx => ?_⟩
          rcases List.mem_cons.1 hx with hx | hx
          · subst hx; exact hb
          · exact okr.2 x hx
      · rename_i ha he
        have ih := ih okr
        refine ⟨List.pairwise_cons.2 ⟨fun x hx => ?_, ih.1⟩, fun x hx => ?_⟩
        · rcases mem_setCell r a b x hx with hx | hx
          · subst hx; show j < a; omega
          · exact hr x hx
        · rcases List.mem_cons.1 hx with hx | hx
          · subst hx; exact hz _ (List.mem_cons_self ..)
          · exact ih.2 x hx

theorem cellsOkFrom_spec (c : List Cell) (lo : Nat) (h : cellsOkFrom lo c = true) : CellsOk c ∧ ∀ x ∈ c, lo ≤ x.1 := by
  induction c generalizing lo with
  | nil => simp [CellsOk]
  | cons y r ih =>
    simp only [cellsOkFrom, Bool.and_eq_true, decide_eq_true_eq, bne_iff_ne, ne_eq] at h
    obtain ⟨⟨h1, h2⟩, h3⟩ := h
    obtain ⟨ok, hb⟩ := ih _ h3
    refine ⟨⟨List.pairwise_cons.2 ⟨fun x hx => ?_, ok.1⟩, fun x hx => ?_⟩, fun x hx => ?_⟩
    · have := hb x hx; omega
    · rcases List.mem_cons.1 hx with hx | hx
      · subst hx; exact h2
      · exact ok.2 x hx
    · rcases List.mem_cons.1 hx with hx | hx
      · subst hx; exact h1
      · have := hb x hx; omega

theorem foldl_setCell_ok (l c : List Cell) (ok : CellsOk c) : CellsOk (l.foldl (fun acc x => setCell acc x.1 x.2) c) := by
  induction l generalizing c with
  | nil => exact ok
  | cons x r ih => exact ih _ (setCell_ok c x.1 x.2 ok)

/-- The canonical form of cells is in canonical form. -/
theorem canonCells_ok (c : List Cell) : CellsOk (canonCells c) := by
  unfold canonCells
  split
  · rename_i h; exact (cellsOkFrom_spec c 0 h).1
  · exact foldl_setCell_ok c [] (by simp [CellsOk])

theorem CellsOk.filter (c : List Cell) (p : Cell → Bool) (ok : CellsOk c) : CellsOk (c.filter p) :=
  ⟨ok.1.sublist List.filter_sublist, fun x hx => ok.2 x (List.mem_of_mem_filter hx)⟩

theorem CellsOk.shift (c : List Cell) (a : Nat) (ok : CellsOk c) : CellsOk (c.map fun x => (a + x.1, x.2)) := by
  refine ⟨List.pairwise_map.2 (ok.1.imp fun h => by simpa using h), fun x hx => ?_⟩
  obtain ⟨y, hy, rfl⟩ := List.mem_map.1 hx
  exact ok.2 y hy

theorem CellsOk.append (c d : List Cell) (hc : CellsOk c) (hd : CellsOk d) (h : ∀ x ∈ c, ∀ y ∈ d, x.1 < y.1) :
    CellsOk (c ++ d) :=
  ⟨List.pairwise_append.2 ⟨hc.1, hd.1, h⟩, fun x hx => (List.mem_append.1 hx).elim (hc.2 x) (hd.2 x)⟩

/-- A range replaced keeps the canonical form. -/
theorem Mem.paste_wf (m : Mem) (a n : Nat) (c : List Cell) (h : m.wf) : (m.paste a n c).wf := by
  have hm : CellsOk (((canonCells c).filter (fun x => decide (x.1 < n))).map (fun x => (a + x.1, x.2))) :=
    CellsOk.shift _ a (CellsOk.filter _ _ (canonCells_ok c))
  refine CellsOk.append _ _ (CellsOk.append _ _ (CellsOk.filter _ _ h) hm ?_) (CellsOk.filter _ _ h) ?_
  · intro x hx y hy
    have hx := (List.mem_filter.1 hx).2
    obtain ⟨z, hz, rfl⟩ := List.mem_map.1 hy
    simp only [decide_eq_true_eq] at hx
    show x.1 < a + z.1
    omega
  · intro x hx y hy
    have hy := (List.mem_filter.1 hy).2
    simp only [decide_eq_true_eq] at hy
    rcases List.mem_append.1 hx with hx | hx
    · have hx := (List.mem_filter.1 hx).2
      simp only [decide_eq_true_eq] at hx
      omega
    · obtain ⟨z, hz, rfl⟩ := List.mem_map.1 hx
      have hz := (List.mem_filter.1 hz).2
      simp only [decide_eq_true_eq] at hz
      show a + z.1 < y.1
      omega

theorem Mem.write_wf (m : Mem) (a : Nat) (bs : List Byte) (h : m.wf) : (m.write a bs).wf := Mem.paste_wf m a _ _ h
theorem Mem.zero_wf (m : Mem) (a n : Nat) (h : m.wf) : (m.zero a n).wf := Mem.paste_wf m a n _ h
theorem Mem.set_wf (m : Mem) (a : Nat) (b : Byte) (h : m.wf) : (m.set a b).wf := Mem.write_wf m a [b] h

theorem Mem.sets_wf (m : Mem) (l : List (Nat × Byte)) (h : m.wf) : (m.sets l).wf := by
  unfold Mem.sets
  induction l generalizing m with
  | nil => exact h
  | cons x r ih => exact ih _ (Mem.set_wf m x.1 x.2 h)

theorem Mem.writeMask_wf (m : Mem) (a : Nat) (bs : List Byte) (mask : List Bool) (h : m.wf) : (m.writeMask a bs mask).wf :=
  Mem.write_wf m a _ h

theorem Mem.smudge_wf (m : Mem) (a n tag : Nat) (h : m.wf) : (m.smudge a n tag).wf := by
  unfold Mem.smudge
  split
  · exact h
  · exact Mem.zero_wf m a n h

theorem Mem.empty_wf : ({} : Mem).wf := by simp [Mem.wf, CellsOk]

/-! Reading back. -/

theorem tget?_append (c d : List Cell) (a : Nat) : tget? (c ++ d) a = (tget? c a).or (tget? d a) := by
  induction c with
  | nil => rfl
  | cons x r ih =>
    obtain ⟨j, w⟩ := x
    simp only [List.cons_append, tget?]
    split
    · rfl
    · exact ih

theorem tget?_eq_none_of_ne (c : List Cell) (a : Nat) (h : ∀ x ∈ c, x.1 ≠ a) : tget? c a = none := by
  induction c with
  | nil => rfl
  | cons x r ih =>
    simp only [tget?, h x (by simp), if_false]
    exact ih fun y hy => h y (by simp [hy])

theorem tget?_filter_true (c : List Cell) (p : Cell → Bool) (a : Nat) (h : ∀ x, x.1 = a → p x = true) :
    tget? (c.filter p) a = tget? c a := by
  induction c with
  | nil => rfl
  | cons x r ih =>
    obtain ⟨j, w⟩ := x
    by_cases hj : j = a
    · have hp := h (j, w) hj
      subst hj
      simp [List.filter_cons, hp, tget?]
    · cases hp : p (j, w) <;> simp [hp, tget?, hj, ih]

theorem tget?_filter_false (c : List Cell) (p : Cell → Bool) (a : Nat) (h : ∀ x, x.1 = a → p x = false) :
    tget? (c.filter p) a = none :=
  tget?_eq_none_of_ne _ a fun x hx e => by
    have := (List.mem_filter.1 hx).2
    rw [h x e] at this
    exact Bool.noConfusion this

theorem tget?_shift (c : List Cell) (a i : Nat) : tget? (c.map fun x => (a + x.1, x.2)) (a + i) = tget? c i := by
  induction c with
  | nil => rfl
  | cons x r ih =>
    obtain ⟨j, w⟩ := x
    by_cases hj : j = i
    · simp [tget?, hj]
    · simp [tget?, hj, ih]

theorem undefAt_cut_in (u : List (Nat × Nat × Nat)) (a n x : Nat) (h : a ≤ x ∧ x < a + n) :
    undefAt (u.flatMap (cutRange a n)) x = none := by
  simp only [undefAt, List.find?_eq_none, List.mem_flatMap, cutRange]
  rintro y ⟨z, _, hz⟩
  split at hz
  · simp only [List.mem_singleton] at hz
    subst hz
    simp only [decide_eq_true_eq]
    omega
  · simp only [List.mem_append] at hz
    rcases hz with hz | hz <;>
    · split at hz
      · simp only [List.mem_singleton] at hz
        subst hz
        simp only [decide_eq_true_eq]
        omega
      · simp at hz

/-- A byte outside the range replaced reads as before, where nothing is undefined. -/
theorem Mem.paste_byte_out (m : Mem) (a n : Nat) (c : List Cell) (x : Nat) (h : x < a ∨ a + n ≤ x) (hu : m.undef = []) :
    (m.paste a n c).byte x = m.byte x := by
  have h2 : tget? (((canonCells c).filter (fun y => decide (y.1 < n))).map (fun y => (a + y.1, y.2))) x = none :=
    tget?_eq_none_of_ne _ _ fun y hy e => by
      obtain ⟨z, hz, rfl⟩ := List.mem_map.1 hy
      have hz := (List.mem_filter.1 hz).2
      simp only [decide_eq_true_eq] at hz
      have e : a + z.1 = x := e
      omega
  simp only [Mem.byte, Mem.paste, hu, List.flatMap_nil, undefAt, List.find?_nil, cellAt, tget?_append, h2, Option.or_none]
  congr 1
  rcases h with h | h
  · rw [tget?_filter_true _ _ x fun y e => by simp [e, h], tget?_filter_false _ _ x fun y e => by simp [e]; omega]
    simp
  · rw [tget?_filter_false _ _ x fun y e => by simp [e]; omega, tget?_filter_true _ _ x fun y e => by simp [e, h]]
    simp

/-- A byte inside the range replaced reads as its cell. -/
theorem Mem.paste_byte_in (m : Mem) (a n : Nat) (c : List Cell) (i : Nat) (h : i < n) :
    (m.paste a n c).byte (a + i) = cellAt (canonCells c) i := by
  simp only [Mem.byte, Mem.paste, undefAt_cut_in m.undef a n (a + i) (by omega), cellAt, tget?_append]
  rw [tget?_filter_false m.cells _ (a + i) fun y e => by simp [e], tget?_shift,
    tget?_filter_true _ _ i fun y e => by simp [e, h],
    tget?_filter_false m.cells _ (a + i) fun y e => by simp [e]; omega]
  simp

theorem tget?_cellsOf_lt (bs : List Byte) (off a : Nat) (h : a < off) : tget? (cellsOf off bs) a = none := by
  induction bs generalizing off with
  | nil => rfl
  | cons b r ih =>
    simp only [cellsOf]
    split
    · exact ih _ (by omega)
    · have : off ≠ a := by omega
      simp only [tget?, this, if_false]
      exact ih _ (by omega)

theorem cellAt_cellsOf (bs : List Byte) (off i : Nat) : cellAt (cellsOf off bs) (off + i) = bs.getD i 0 := by
  induction bs generalizing off i with
  | nil => rfl
  | cons b r ih =>
    simp only [cellsOf]
    cases i with
    | zero =>
      split
      · rename_i h
        simp [cellAt, tget?_cellsOf_lt, h]
      · simp [cellAt, tget?]
    | succ k =>
      have ih := ih (off + 1) k
      rw [show off + 1 + k = off + (k + 1) by omega] at ih
      split
      · simpa using ih
      · have : off ≠ off + (k + 1) := by omega
        simpa [cellAt, tget?, this] using ih

theorem cellsOf_ok (bs : List Byte) (off lo : Nat) (h : lo ≤ off) : cellsOkFrom lo (cellsOf off bs) = true := by
  induction bs generalizing off lo with
  | nil => rfl
  | cons b r ih =>
    simp only [cellsOf]
    split
    · exact ih _ _ (by omega)
    · rename_i hb
      have hb : b ≠ 0#8 := hb
      simp [cellsOkFrom, h, hb, ih (off + 1) (off + 1) (Nat.le_refl _)]

/-- A byte written reads back. -/
theorem Mem.write_byte_in (m : Mem) (a i : Nat) (bs : List Byte) (h : i < bs.length) : (m.write a bs).byte (a + i) = bs.getD i 0 := by
  have hc : canonCells (cellsOf 0 bs) = cellsOf 0 bs := by simp [canonCells, cellsOf_ok bs 0 0 (Nat.le_refl _)]
  rw [Mem.write, Mem.paste_byte_in m a bs.length _ i h, hc]
  simpa using cellAt_cellsOf bs 0 i

/-- A byte that a write does not cover reads as before, where nothing is undefined. -/
theorem Mem.write_byte_out (m : Mem) (a x : Nat) (bs : List Byte) (h : x < a ∨ a + bs.length ≤ x) (hu : m.undef = []) :
    (m.write a bs).byte x = m.byte x := Mem.paste_byte_out m a bs.length _ x h hu

/-- What a write covers reads back whole. -/
theorem Mem.write_read (m : Mem) (a : Nat) (bs : List Byte) : (m.write a bs).read a bs.length = bs := by
  apply List.ext_getElem
  · simp [Mem.read]
  · intro i h1 h2
    simp only [Mem.read, List.getElem_map, List.getElem_range]
    rw [Mem.write_byte_in m a i bs h2]
    simp [List.getD, List.getElem?_eq_getElem h2]

end Sys2Proof.Machine
end

