-- ==== Sys2Proof/Laws/Kept.lean ====
section
/-!
SUPPORT. The promise that every operation of the node keeps: the queue of waiting commands as it is, and the invariant of Safety.
The lemmas here take a promise through the forms that meanings are built of: record updates, folds, outcomes, options and pairs.
The lemmas of the files Laws/Kept….lean say it of each operation.
-/

namespace Sys2Proof.Machine

/-- The queue is q, and the invariant holds. -/
structure Kept (q : List Instr) (s : State) : Prop where
  pend : s.pending = q
  inv : s.Inv

/-- The promise of an outcome: it is a next state, which keeps the promise. -/
def KeptR (q : List Instr) (r : Res) : Prop := ∃ t, r = .next t ∧ Kept q t
/-- The promise of an optional state. -/
def KeptO (q : List Instr) (o : Option State) : Prop := ∀ t, o = some t → Kept q t
/-- The promise of an optional state with a value beside it. -/
def KeptOP {α : Type} (q : List Instr) (o : Option (State × α)) : Prop := ∀ t, o = some t → Kept q t.1

/-- The promise of a candidate's try at issue. -/
def KeptT (q : List Instr) (x : Try) : Prop := ∀ t, x = .done t ∨ x = .passed t → Kept q t

variable {q : List Instr}

theorem KeptT.done {s : State} (h : Kept q s) : KeptT q (.done s) := fun _ e => by
  rcases e with e | e
  · cases e; exact h
  · exact nomatch e
theorem KeptT.passed {s : State} (h : Kept q s) : KeptT q (.passed s) := fun _ e => by
  rcases e with e | e
  · exact nomatch e
  · cases e; exact h
theorem KeptT.getDone {x : Try} {s : State} (h : KeptT q x) (e : x = .done s) : Kept q s := h s (.inl e)
theorem KeptT.getPassed {x : Try} {s : State} (h : KeptT q x) (e : x = .passed s) : Kept q s := h s (.inr e)

theorem Kept.cut {p : Prop} (s : State) (hv : Kept q s) (hb : Kept q s → p) : p := hb hv

theorem Kept.cutFst {p : Prop} {α : Type} (x : State × α) (hv : Kept q x.1) (hb : Kept q x.1 → p) : p := hb hv
theorem Kept.cutSnd {p : Prop} {α : Type} (x : α × State) (hv : Kept q x.2) (hb : Kept q x.2 → p) : p := hb hv
theorem Kept.cutFun {p : Prop} {α : Type} (f : α → State) (hv : ∀ a, Kept q (f a)) (hb : (∀ a, Kept q (f a)) → p) : p := hb hv
theorem Kept.cutFunFst {p : Prop} {α β : Type} (f : α → State × β) (hv : ∀ a, Kept q (f a).1)
    (hb : (∀ a, Kept q (f a).1) → p) : p := hb hv
theorem Kept.cutFun2 {p : Prop} {α β : Type} (f : α → β → State) (hv : ∀ a b, Kept q (f a b))
    (hb : (∀ a b, Kept q (f a b)) → p) : p := hb hv
theorem Kept.cutFun3 {p : Prop} {α β γ : Type} (f : α → β → γ → State) (hv : ∀ a b c, Kept q (f a b c))
    (hb : (∀ a b c, Kept q (f a b c)) → p) : p := hb hv
theorem Kept.cutSt1 {p : Prop} {α : Type} (f : State → α → State) (hv : ∀ s a, Kept q s → Kept q (f s a))
    (hb : (∀ s a, Kept q s → Kept q (f s a)) → p) : p := hb hv
theorem Kept.cutSt2 {p : Prop} {α β : Type} (f : State → α → β → State) (hv : ∀ s a b, Kept q s → Kept q (f s a b))
    (hb : (∀ s a b, Kept q s → Kept q (f s a b)) → p) : p := hb hv
theorem Kept.cutSt3 {p : Prop} {α β γ : Type} (f : State → α → β → γ → State)
    (hv : ∀ s a b c, Kept q s → Kept q (f s a b c)) (hb : (∀ s a b c, Kept q s → Kept q (f s a b c)) → p) : p := hb hv
theorem Kept.cut1St {p : Prop} {α : Type} (f : α → State → State) (hv : ∀ a s, Kept q s → Kept q (f a s))
    (hb : (∀ a s, Kept q s → Kept q (f a s)) → p) : p := hb hv
theorem KeptR.cutSt {p : Prop} (f : State → Res) (hv : ∀ s, Kept q s → KeptR q (f s))
    (hb : (∀ s, Kept q s → KeptR q (f s)) → p) : p := hb hv
theorem KeptR.cutFun {p : Prop} {α : Type} (f : α → Res) (hv : ∀ a, KeptR q (f a)) (hb : (∀ a, KeptR q (f a)) → p) : p := hb hv
theorem Kept.cutSt {p : Prop} (f : State → State) (hv : ∀ s, Kept q s → Kept q (f s))
    (hb : (∀ s, Kept q s → Kept q (f s)) → p) : p := hb hv
theorem KeptO.cut {p : Prop} (o : Option State) (hv : KeptO q o) (hb : KeptO q o → p) : p := hb hv
theorem KeptOP.cut {p : Prop} {α : Type} (o : Option (State × α)) (hv : KeptOP q o) (hb : KeptOP q o → p) : p := hb hv
theorem KeptR.cut {p : Prop} (r : Res) (hv : KeptR q r) (hb : KeptR q r → p) : p := hb hv

theorem KeptR.next {s : State} (h : Kept q s) : KeptR q (.next s) := ⟨s, rfl, h⟩
theorem KeptO.none : KeptO q .none := fun _ e => nomatch e
theorem KeptO.some {s : State} (h : Kept q s) : KeptO q (.some s) := fun _ e => by cases e; exact h
theorem KeptO.get {o : Option State} {s : State} (h : KeptO q o) (e : o = .some s) : Kept q s := h s e
theorem KeptOP.none {α : Type} : KeptOP (α := α) q .none := fun _ e => nomatch e
theorem KeptOP.some {α : Type} {x : State × α} (h : Kept q x.1) : KeptOP q (.some x) := fun _ e => by cases e; exact h
theorem KeptOP.get {α : Type} {o : Option (State × α)} {s : State} {a : α} (h : KeptOP q o) (e : o = .some (s, a)) : Kept q s :=
  h (s, a) e
theorem KeptO.map {α : Type} {o : Option α} {g : α → State} (h : ∀ a, Kept q (g a)) : KeptO q (o.map g) := fun t e => by
  cases o with
  | none => exact nomatch e
  | some a => cases e; exact h a
theorem KeptOP.map {α β : Type} {o : Option α} {g : α → State × β} (h : ∀ a, Kept q (g a).1) : KeptOP q (o.map g) := fun t e => by
  cases o with
  | none => exact nomatch e
  | some a => cases e; exact h a
theorem KeptO.bind {α : Type} {o : Option α} {g : α → Option State} (h : ∀ a, KeptO q (g a)) : KeptO q (o.bind g) := fun t e => by
  cases o with
  | none => exact nomatch e
  | some a => exact h a t e
theorem KeptOP.bind {α β : Type} {o : Option α} {g : α → Option (State × β)} (h : ∀ a, KeptOP q (g a)) : KeptOP q (o.bind g) :=
  fun t e => by
  cases o with
  | none => exact nomatch e
  | some a => exact h a t e
theorem KeptO.bindSt {o : Option State} {g : State → Option State} (ho : KeptO q o) (h : ∀ s, Kept q s → KeptO q (g s)) :
    KeptO q (o.bind g) := fun t e => by
  cases o with
  | none => exact nomatch e
  | some a => exact h a (ho a rfl) t e
theorem KeptOP.mapP {α β : Type} {o : Option (State × α)} {g : State × α → State × β} (ho : KeptOP q o)
    (h : ∀ x, Kept q x.1 → Kept q (g x).1) : KeptOP q (o.map g) := fun t e => by
  cases o with
  | none => exact nomatch e
  | some a => cases e; exact h a (ho a rfl)
theorem KeptOP.mapSt {β : Type} {o : Option State} {g : State → State × β} (ho : KeptO q o)
    (h : ∀ s, Kept q s → Kept q (g s).1) : KeptOP q (o.map g) := fun t e => by
  cases o with
  | none => exact nomatch e
  | some a => cases e; exact h a (ho a rfl)
theorem KeptO.mapSt {o : Option State} {g : State → State} (ho : KeptO q o) (h : ∀ s, Kept q s → Kept q (g s)) :
    KeptO q (o.map g) := fun t e => by
  cases o with
  | none => exact nomatch e
  | some a => cases e; exact h a (ho a rfl)
theorem Kept.getD {o : Option State} {s : State} (ho : KeptO q o) (hs : Kept q s) : Kept q (o.getD s) := by
  cases o with
  | none => exact hs
  | some t => exact ho t rfl
theorem Kept.fst {α : Type} {x : State × α} {s : State} {a : α} (h : Kept q x.1) (e : x = (s, a)) : Kept q s := by
  subst e; exact h
theorem Kept.snd {α : Type} {x : α × State} {s : State} {a : α} (h : Kept q x.2) (e : x = (a, s)) : Kept q s := by
  subst e; exact h

theorem actWhen_kept {c : Bool} {s t : State} (hs : Kept q s) (ht : Kept q t) : KeptR q (actWhen c s t) := by
  unfold actWhen
  refine KeptR.next ?_
  split
  · exact ht
  · exact hs

theorem foldl_kept {α : Type} (l : List α) (g : State → α → State) (s : State) (h : Kept q s)
    (hg : ∀ s x, Kept q s → Kept q (g s x)) : Kept q (l.foldl g s) := by
  induction l generalizing s with
  | nil => exact h
  | cons x r ih => exact ih _ (hg s x h)

theorem foldlFst_kept {α β : Type} (l : List α) (g : State × β → α → State × β) (x : State × β) (h : Kept q x.1)
    (hg : ∀ x a, Kept q x.1 → Kept q (g x a).1) : Kept q (l.foldl g x).1 := by
  induction l generalizing x with
  | nil => exact h
  | cons a r ih => exact ih _ (hg x a h)

theorem foldlO_kept {α : Type} (l : List α) (g : Option State → α → Option State) (o : Option State) (h : KeptO q o)
    (hg : ∀ o x, KeptO q o → KeptO q (g o x)) : KeptO q (l.foldl g o) := by
  induction l generalizing o with
  | nil => exact h
  | cons x r ih => exact ih _ (hg o x h)

theorem iter_kept (n : Nat) (g : State → State) (s : State) (h : Kept q s) (hg : ∀ s, Kept q s → Kept q (g s)) : Kept q (iter n g s) := by
  induction n generalizing s with
  | zero => exact h
  | succ k ih => exact ih _ (hg s h)

/-- An update of fields that the promise does not speak of. -/
theorem Kept.upd {s : State} {out nfree power cfgFlash topo quads tiles stks poison pens vecs port drover migs coh ftl dma flue health
    trace} (h : Kept q s) : Kept q (State.mk s.pending out nfree power s.boot cfgFlash topo quads tiles stks s.stackSel s.nbuSel
      s.mem poison s.sram s.hostMem pens s.penSel s.bselClass s.bselRes s.vsel vecs port drover migs coh ftl dma flue health trace) :=
  ⟨h.1, ⟨h.2.1, h.2.2, h.2.3, h.2.4, h.2.5, h.2.6, h.2.7, h.2.8, h.2.9, h.2.10, h.2.11⟩⟩

/-- The same with memories that stay canonical. -/
theorem Kept.updMem {s : State} {out nfree power cfgFlash topo quads tiles stks poison pens vecs port drover migs coh ftl dma flue
    health trace} {m r k : Mem} (h : Kept q s) (hm : s.mem.wf → m.wf) (hr : s.sram.wf → r.wf) (hk : s.hostMem.wf → k.wf) :
    Kept q (State.mk s.pending out nfree power s.boot cfgFlash topo quads tiles stks s.stackSel s.nbuSel
      m poison r k pens s.penSel s.bselClass s.bselRes s.vsel vecs port drover migs coh ftl dma flue health trace) :=
  ⟨h.1, ⟨hm h.2.1, hr h.2.2, hk h.2.3, h.2.4, h.2.5, h.2.6, h.2.7, h.2.8, h.2.9, h.2.10, h.2.11⟩⟩

/-- The same with start-up registers that keep their part of the invariant. -/
theorem Kept.updBoot {s : State} {out nfree power cfgFlash topo quads tiles stks poison pens vecs port drover migs coh ftl dma flue
    health trace} {m : Mem} {b : Boot} (h : Kept q s) (hm : s.mem.wf → m.wf) (hs : b.secret.isSome = true → b.phase = 2)
    (hr : b.ready = true → b.phase = 7) : Kept q (State.mk s.pending out nfree power b cfgFlash topo quads tiles stks s.stackSel
      s.nbuSel m poison s.sram s.hostMem pens s.penSel s.bselClass s.bselRes s.vsel vecs port drover migs coh ftl dma flue health trace) :=
  ⟨h.1, ⟨hm h.2.1, h.2.2, h.2.3, hs, hr, h.2.6, h.2.7, h.2.8, h.2.9, h.2.10, h.2.11⟩⟩

/-- Outside phase 2 no secret is held. -/
theorem Kept.noSecret {s : State} (h : Kept q s) (hp : s.boot.phase ≠ 2) : s.boot.secret.isSome = true → False :=
  fun e => hp (h.inv.secret e)

theorem inPhase_phase {s : State} {n : Nat} (h : ¬(!inPhase s n) = true) : s.boot.phase = n := by
  simp [inPhase] at h
  exact h.1

end Sys2Proof.Machine
end

