-- ==== Sys2Proof/Laws/KeptOps.lean ====
section
/-!
SUPPORT. The promise of Laws/Kept.lean, operation by operation: the shared operations.
Each lemma says that the operation leaves the queue of waiting commands as it is and keeps the invariant.
-/

namespace Sys2Proof.Machine

theorem emit_kept {ps : List Instr} (s : State) (o : Out) (hK : Kept ps s) : Kept ps (emit s o) := by
  unfold emit
  repeat' first | with_reducible assumption | fail_if_no_progress with_reducible apply Kept.upd

theorem drawTag_kept {ps : List Instr} (s : State) (hK : Kept ps s) : Kept ps (drawTag s).2 := by
  unfold drawTag
  repeat' first | with_reducible assumption | fail_if_no_progress with_reducible apply Kept.upd

theorem updPen_kept {ps : List Instr} (s : State) (p : Nat) (f : Pen → Pen) (hK : Kept ps s) : Kept ps (updPen s p f) := by
  unfold updPen
  repeat' first | with_reducible assumption | fail_if_no_progress with_reducible apply Kept.upd

theorem updQuad_kept {ps : List Instr} (s : State) (q : Nat) (f : Quad → Quad) (hK : Kept ps s) : Kept ps (updQuad s q f) := by
  unfold updQuad
  repeat' first | with_reducible assumption | fail_if_no_progress with_reducible apply Kept.upd

theorem updTile_kept {ps : List Instr} (s : State) (t : Nat) (f : Tile → Tile) (hK : Kept ps s) : Kept ps (updTile s t f) := by
  unfold updTile
  repeat' first | with_reducible assumption | fail_if_no_progress with_reducible apply Kept.upd

theorem updStack_kept {ps : List Instr} (s : State) (n : Nat) (f : Stack → Stack) (hK : Kept ps s) : Kept ps (updStack s n f) := by
  unfold updStack
  repeat' first | with_reducible assumption | fail_if_no_progress with_reducible apply Kept.upd

theorem updChan_kept {ps : List Instr} (s : State) (c : Nat) (f : Chan → Chan) (hK : Kept ps s) : Kept ps (updChan s c f) := by
  unfold updChan
  repeat' first | with_reducible assumption | fail_if_no_progress with_reducible apply Kept.upd

theorem updDma_kept {ps : List Instr} (s : State) (n : Nat) (f : Dma → Dma) (hK : Kept ps s) : Kept ps (updDma s n f) := by
  unfold updDma
  repeat' first | with_reducible assumption | fail_if_no_progress with_reducible apply Kept.upd

theorem updCtl_kept {ps : List Instr} (s : State) (c : Nat) (f : Ctl → Ctl) (hK : Kept ps s) : Kept ps (updCtl s c f) := by
  unfold updCtl
  repeat' first | with_reducible assumption | fail_if_no_progress with_reducible apply Kept.upd

theorem updObj_kept {ps : List Instr} (s : State) (p n : Nat) (f : Obj → Obj) (hK : Kept ps s) : Kept ps (updObj s p n f) := by
  unfold updObj
  repeat' first | with_reducible assumption | with_reducible apply updPen_kept

theorem putObj_kept {ps : List Instr} (s : State) (p n : Nat) (o : Obj) (hK : Kept ps s) : Kept ps (putObj s p n o) := by
  unfold putObj
  repeat' first | with_reducible assumption | with_reducible apply updPen_kept

theorem dropObj_kept {ps : List Instr} (s : State) (p n : Nat) (hK : Kept ps s) : Kept ps (dropObj s p n) := by
  unfold dropObj
  repeat' first | with_reducible assumption | with_reducible apply updPen_kept

theorem writeStack_kept {ps : List Instr} (s : State) (a : Nat) (bs : List Byte)
    (hK : Kept ps s) : Kept ps (writeStack s a bs) := by
  unfold writeStack
  repeat' first
      | with_reducible assumption | (with_reducible intro)
      | ((fail_if_success with_reducible apply Kept.upd); with_reducible apply Kept.updMem) | with_reducible apply Mem.write_wf
      | split

theorem poisonLine_kept {ps : List Instr} (s : State) (l : Nat) (hK : Kept ps s) : Kept ps (poisonLine s l) := by
  unfold poisonLine
  repeat' first | with_reducible assumption | with_reducible apply updStack_kept | fail_if_no_progress with_reducible apply Kept.upd

theorem ringPut_kept {ps : List Instr} (s : State) (r : TRec) (hK : Kept ps s) : Kept ps (ringPut s r) := by
  unfold ringPut
  repeat' first
      | with_reducible assumption | (with_reducible intro) | with_reducible apply drawTag_kept
      | ((fail_if_success with_reducible apply Kept.upd); with_reducible apply Kept.updMem) | with_reducible apply Mem.write_wf

theorem drainHead_kept {ps : List Instr} (s : State) (y0 : Nat) (hK : Kept ps s) : Kept ps (drainHead s y0) := by
  induction y0 generalizing s with
  | zero =>
    unfold drainHead
    repeat' first
        | with_reducible assumption | with_reducible apply ringPut_kept | fail_if_no_progress with_reducible apply Kept.upd
        | (extract_lets +onlyGivenNames xl
           (clear_value xl; rename' xl => v))
        | split
  | succ k ih =>
    unfold drainHead
    repeat' first
        | with_reducible apply ih | with_reducible assumption | with_reducible apply ringPut_kept
        | fail_if_no_progress with_reducible apply Kept.upd
        | (extract_lets +onlyGivenNames xl
           (clear_value xl; rename' xl => v))
        | split

theorem traceRec_kept {ps : List Instr} (s : State) (kind stream : Nat) (body : List Byte)
    (hK : Kept ps s) : Kept ps (traceRec s kind stream body) := by
  unfold traceRec
  repeat' first
      | with_reducible assumption | with_reducible apply drainHead_kept | fail_if_no_progress with_reducible apply Kept.upd
      | (extract_lets +onlyGivenNames xl
         first
           | (refine Kept.cut (q := ps) xl ?_ ?_; (on_goal 1 => subst xl); (on_goal 2 => (try clear_value xl; rename' xl => s; intro h)))
           | (clear_value xl; rename' xl => v))
      | split

theorem traceDecide_kept {ps : List Instr} (s : State) (kind : Nat) (body : List Byte)
    (hK : Kept ps s) : Kept ps (traceDecide s kind body) := by
  unfold traceDecide
  repeat' first
      | with_reducible assumption | with_reducible apply traceRec_kept | fail_if_no_progress with_reducible apply Kept.upd
      | (extract_lets +onlyGivenNames xl
         first
           | (refine Kept.cut (q := ps) xl ?_ ?_; (on_goal 1 => subst xl); (on_goal 2 => (try clear_value xl; rename' xl => s; intro h)))
           | (clear_value xl; rename' xl => v))
      | split

theorem hostWrite_kept {ps : List Instr} (s : State) (stream a : Nat) (bs : List Byte)
    (hK : Kept ps s) : Kept ps (hostWrite s stream a bs) := by
  unfold hostWrite
  repeat' first
      | with_reducible assumption | (with_reducible intro) | with_reducible apply traceRec_kept
      | fail_if_no_progress with_reducible apply Kept.upd
      | ((fail_if_success with_reducible apply Kept.upd); with_reducible apply Kept.updMem) | with_reducible apply Mem.write_wf
      | (extract_lets +onlyGivenNames xl
         first
           | (refine Kept.cut (q := ps) xl ?_ ?_; (on_goal 1 => subst xl); (on_goal 2 => (try clear_value xl; rename' xl => s; intro h)))
           | (clear_value xl; rename' xl => v))
      | split

theorem hostReadRec_kept {ps : List Instr} (s : State) (stream fn a n : Nat)
    (hK : Kept ps s) : Kept ps (hostReadRec s stream fn a n) := by
  unfold hostReadRec
  repeat' first | with_reducible assumption | with_reducible apply traceRec_kept | split

theorem vecSend_kept {ps : List Instr} (s : State) (v : Nat) (hK : Kept ps s) : Kept ps (vecSend s v) := by
  unfold vecSend
  repeat' first
      | with_reducible assumption | with_reducible apply emit_kept | fail_if_no_progress with_reducible apply Kept.upd
      | (extract_lets +onlyGivenNames xl
         first
           | (refine Kept.cut (q := ps) xl ?_ ?_; (on_goal 1 => subst xl); (on_goal 2 => (try clear_value xl; rename' xl => s; intro h)))
           | (clear_value xl; rename' xl => v))
      | split

theorem vecCount_kept {ps : List Instr} (s : State) (v : Nat) (hK : Kept ps s) : Kept ps (vecCount s v) := by
  unfold vecCount
  repeat' first
      | with_reducible assumption | with_reducible apply vecSend_kept | fail_if_no_progress with_reducible apply Kept.upd
      | (extract_lets +onlyGivenNames xl
         first
           | (refine Kept.cut (q := ps) xl ?_ ?_; (on_goal 1 => subst xl); (on_goal 2 => (try clear_value xl; rename' xl => s; intro h)))
           | (clear_value xl; rename' xl => v))
      | split

theorem writeEntry_kept {ps : List Instr} (s : State) (stream ctl a : Nat) (bs : List Byte)
    (hK : Kept ps s) : Kept ps (writeEntry s stream ctl a bs) := by
  have h := hostWrite_kept s stream (hostKey (penOfCtl ctl) a) bs hK
  unfold writeEntry
  extract_lets x
  split
  · exact h
  · exact Kept.updMem h id id fun hk => Mem.smudge_wf _ _ _ _ hk

theorem cqWrite_kept {ps : List Instr} (s : State) (ctl n : Nat) (q : Cq) (e : Cqe)
    (hK : Kept ps s) : Kept ps (cqWrite s ctl n q e) := by
  unfold cqWrite
  repeat' first
      | with_reducible assumption | with_reducible apply traceDecide_kept | with_reducible apply writeEntry_kept
      | with_reducible apply updCtl_kept | with_reducible apply vecCount_kept
      | fail_if_no_progress with_reducible apply Kept.upd
      | (extract_lets +onlyGivenNames xl
         first
           | (refine Kept.cut (q := ps) xl ?_ ?_; (on_goal 1 => subst xl); (on_goal 2 => (try clear_value xl; rename' xl => s; intro h)))
           | (clear_value xl; rename' xl => v))
      | split

theorem postCqe_kept {ps : List Instr} (s : State) (ctl n : Nat) (e : Cqe) (hK : Kept ps s) : Kept ps (postCqe s ctl n e) := by
  unfold postCqe
  repeat' first | with_reducible assumption | with_reducible apply cqWrite_kept | with_reducible apply updCtl_kept | split

theorem drainCq_kept {ps : List Instr} (s : State) (ctl n : Nat) (y0 : Nat) (hK : Kept ps s) : Kept ps (drainCq s ctl n y0) := by
  induction y0 generalizing s with
  | zero =>
    unfold drainCq
    repeat' first | with_reducible assumption | with_reducible apply cqWrite_kept | split
  | succ k ih =>
    unfold drainCq
    repeat' first | with_reducible apply ih | with_reducible assumption | with_reducible apply cqWrite_kept | split

theorem complete1_kept {ps : List Instr} (s : State) (c : Cmd) (status : Nat) (dw0 : Nat)
    (hK : Kept ps s) : Kept ps (complete1 s c status dw0) := by
  unfold complete1
  repeat' first
      | with_reducible assumption | with_reducible apply postCqe_kept | fail_if_no_progress with_reducible apply Kept.upd
      | (extract_lets +onlyGivenNames xl
         first
           | (refine Kept.cut (q := ps) xl ?_ ?_; (on_goal 1 => subst xl); (on_goal 2 => (try clear_value xl; rename' xl => s; intro h)))
           | (clear_value xl; rename' xl => v))
      | split

theorem wakeFences_kept {ps : List Instr} (s : State) (y0 : Nat) (hK : Kept ps s) : Kept ps (wakeFences s y0) := by
  induction y0 generalizing s with
  | zero =>
    unfold wakeFences
    repeat' first
        | with_reducible assumption | with_reducible apply complete1_kept | fail_if_no_progress with_reducible apply Kept.upd
        | (extract_lets +onlyGivenNames xl
           (clear_value xl; rename' xl => v))
        | split
  | succ k ih =>
    unfold wakeFences
    repeat' first
        | with_reducible apply ih | with_reducible assumption | with_reducible apply complete1_kept
        | fail_if_no_progress with_reducible apply Kept.upd
        | (extract_lets +onlyGivenNames xl
           (clear_value xl; rename' xl => v))
        | split

theorem wake_kept {ps : List Instr} (s : State) (hK : Kept ps s) : Kept ps (wake s) := by
  unfold wake
  repeat' first | with_reducible assumption | with_reducible apply wakeFences_kept

theorem complete_kept {ps : List Instr} (s : State) (c : Cmd) (status : Nat) (dw0 : Nat)
    (hK : Kept ps s) : Kept ps (complete s c status dw0) := by
  unfold complete
  repeat' first | with_reducible assumption | with_reducible apply wake_kept | with_reducible apply complete1_kept

theorem completeFree_kept {ps : List Instr} (s : State) (c : Cmd) (hK : Kept ps s) : Kept ps (completeFree s c) := by
  unfold completeFree
  repeat' first | with_reducible assumption | with_reducible apply drawTag_kept | with_reducible apply complete_kept

theorem asyncEvent_kept {ps : List Instr} (s : State) (hK : Kept ps s) : Kept ps (asyncEvent s) := by
  unfold asyncEvent
  repeat' first
      | with_reducible assumption | (with_reducible intro) | with_reducible apply drawTag_kept
      | with_reducible apply updCtl_kept | with_reducible apply complete1_kept | with_reducible apply foldl_kept | split

theorem postEventRaw_kept {ps : List Instr} (s : State) (cls kind unit score what data0 data1 : Nat)
    (hK : Kept ps s) : Kept ps (postEventRaw s cls kind unit score what data0 data1) := by
  unfold postEventRaw
  repeat' first
      | with_reducible assumption | with_reducible apply drawTag_kept | with_reducible apply asyncEvent_kept
      | with_reducible apply traceRec_kept | fail_if_no_progress with_reducible apply Kept.upd

theorem postEvent_kept {ps : List Instr} (s : State) (cls : Nat) (u : HwUnit) (what data0 data1 : Nat)
    (hK : Kept ps s) : Kept ps (postEvent s cls u what data0 data1) := by
  unfold postEvent
  repeat' first | with_reducible assumption | with_reducible apply postEventRaw_kept

theorem postNodeEvent_kept {ps : List Instr} (s : State) (cls what data0 data1 : Nat)
    (hK : Kept ps s) : Kept ps (postNodeEvent s cls what data0 data1) := by
  unfold postNodeEvent
  repeat' first | with_reducible assumption | with_reducible apply postEventRaw_kept

theorem doFetch_kept {ps : List Instr} (s : State) (c : Cmd) (num : Nat) (hK : Kept ps s) : Kept ps (doFetch s c num) := by
  unfold doFetch
  repeat' first
      | with_reducible assumption | with_reducible apply traceRec_kept | with_reducible apply updCtl_kept
      | fail_if_no_progress with_reducible apply Kept.upd
      | (extract_lets +onlyGivenNames xl
         (clear_value xl; rename' xl => v))
      | split

theorem withCmd_kept {ps : List Instr} (s : State) (c : Cmd) (f : State → Nat → State) (hf : ∀ s x0, Kept ps s → Kept ps
    (f s x0)) (hK : Kept ps s) : KeptR ps (withCmd s c f) := by
  unfold withCmd
  repeat' first
      | with_reducible assumption | with_reducible apply hf | with_reducible refine KeptR.next ?_
      | with_reducible apply doFetch_kept | split

end Sys2Proof.Machine
end

