-- ==== Sys2Proof/Laws/KeptAgents.lean ====
section
/-!
SUPPORT. The promise of Laws/Kept.lean, operation by operation: the directory and the agents.
Each lemma says that the operation leaves the queue of waiting commands as it is and keeps the invariant.
-/

namespace Sys2Proof.Machine

theorem updSlice_kept {ps : List Instr} (s : State) (l : Nat) (f : Slice → Slice) (hK : Kept ps s) : Kept ps (updSlice s l f) := by
  unfold updSlice
  repeat' first | with_reducible assumption | fail_if_no_progress with_reducible apply Kept.upd

theorem setEntry_kept {ps : List Instr} (s : State) (l : Nat) (e : DEntry) (hK : Kept ps s) : Kept ps (setEntry s l e) := by
  unfold setEntry
  repeat' first | with_reducible assumption | with_reducible apply updSlice_kept

theorem putEntry_kept {ps : List Instr} (s : State) (l : Nat) (e : DEntry) (hK : Kept ps s) : Kept ps (putEntry s l e) := by
  unfold putEntry
  repeat' first | with_reducible assumption | with_reducible apply updSlice_kept

theorem dropEntry_kept {ps : List Instr} (s : State) (l : Nat) (hK : Kept ps s) : Kept ps (dropEntry s l) := by
  unfold dropEntry
  repeat' first | with_reducible assumption | with_reducible apply updSlice_kept

theorem sendHost_kept {ps : List Instr} (s : State) (m : Msg) (hK : Kept ps s) : Kept ps (sendHost s m) := by
  unfold sendHost
  repeat' first
      | with_reducible assumption | with_reducible apply emit_kept | with_reducible apply updSlice_kept
      | (extract_lets +onlyGivenNames xl
         first
           | (refine Kept.cutFun (q := ps) xl ?_ ?_; (on_goal 1 => (subst xl; intros; beta_reduce)); (on_goal 2 => (try clear_value xl; rename' xl => s; intro hG)))
           | (clear_value xl; rename' xl => v))
      | with_reducible apply hG | split

theorem enterNet_kept {ps : List Instr} (s : State) (m : Msg) (hK : Kept ps s) : Kept ps (enterNet s m) := by
  unfold enterNet
  repeat' first
      | with_reducible assumption | with_reducible apply sendHost_kept | fail_if_no_progress with_reducible apply Kept.upd
      | (extract_lets +onlyGivenNames xl
         (clear_value xl; rename' xl => v))
      | split

theorem send_kept {ps : List Instr} (s : State) (m : Msg) (hK : Kept ps s) : Kept ps (send s m) := by
  unfold send
  repeat' first
      | with_reducible assumption | with_reducible apply enterNet_kept | fail_if_no_progress with_reducible apply Kept.upd
      | (extract_lets +onlyGivenNames xl
         (clear_value xl; rename' xl => v))
      | split

theorem resend_kept {ps : List Instr} (s : State) (hK : Kept ps s) : Kept ps (resend s) := by
  unfold resend
  repeat' first
      | with_reducible assumption | (with_reducible intro) | with_reducible apply send_kept | with_reducible apply foldl_kept
      | fail_if_no_progress with_reducible apply Kept.upd

theorem tell_kept {ps : List Instr} (s : State) (k : MsgKind) (a l : Nat) (hK : Kept ps s) : Kept ps (tell s k a l) := by
  unfold tell
  repeat' first | with_reducible assumption | with_reducible apply send_kept

theorem dropMsg_kept {ps : List Instr} (s : State) (m : Msg) (hK : Kept ps s) : Kept ps (dropMsg s m) := by
  unfold dropMsg
  repeat' first | with_reducible assumption | fail_if_no_progress with_reducible apply Kept.upd

theorem rdAcc_kept {ps : List Instr} (s : State) (l : Nat) (k : MsgKind) (a : Nat) (hK : Kept ps s) : Kept ps (rdAcc s l k a) := by
  unfold rdAcc
  repeat' first | with_reducible assumption | with_reducible apply updSlice_kept

theorem wrAcc_kept {ps : List Instr} (s : State) (l : Nat) (data : List Byte) (mask : List Bool) (owed : Option Msg)
    (hK : Kept ps s) : Kept ps (wrAcc s l data mask owed) := by
  unfold wrAcc
  repeat' first | with_reducible assumption | with_reducible apply updSlice_kept

theorem poisonAcc_kept {ps : List Instr} (s : State) (l : Nat) (hK : Kept ps s) : Kept ps (poisonAcc s l) := by
  unfold poisonAcc
  repeat' first | with_reducible assumption | with_reducible apply updSlice_kept

theorem invGroups_kept {ps : List Instr} (s : State) (l : Nat) (e : DEntry) (gs : List Nat) (host : Bool)
    (hK : Kept ps s) : Kept ps (invGroups s l e gs host).1 := by
  unfold invGroups
  repeat' first
      | with_reducible assumption | (with_reducible intro) | with_reducible apply send_kept | with_reducible apply tell_kept
      | with_reducible apply foldlFst_kept
      | (extract_lets +onlyGivenNames xl
         (refine Kept.cutFst (q := ps) xl ?_ ?_; (on_goal 1 => subst xl); (on_goal 2 => (try clear_value xl; rename' xl => s; intro h))))
      | split

theorem invMembers_kept {ps : List Instr} (s : State) (l : Nat) (ms : List Nat) (hK : Kept ps s) : Kept ps (invMembers s l ms) := by
  unfold invMembers
  repeat' first
      | with_reducible assumption | (with_reducible intro) | with_reducible apply tell_kept | with_reducible apply foldl_kept

theorem finishInv_kept {ps : List Instr} (s : State) (l : Nat) (e : DEntry) (hK : Kept ps s) : Kept ps (finishInv s l e) := by
  unfold finishInv
  repeat' first
      | with_reducible assumption | with_reducible apply dropEntry_kept | with_reducible apply wrAcc_kept
      | with_reducible apply tell_kept | with_reducible apply putEntry_kept | with_reducible apply send_kept
      | (extract_lets +onlyGivenNames xl
         first
           | (refine Kept.cut (q := ps) xl ?_ ?_; (on_goal 1 => subst xl); (on_goal 2 => (try clear_value xl; rename' xl => s; intro h)))
           | (clear_value xl; rename' xl => v))
      | split

theorem settleInv_kept {ps : List Instr} (s : State) (l : Nat) (e : DEntry) (hK : Kept ps s) : Kept ps (settleInv s l e) := by
  unfold settleInv
  repeat' first | with_reducible assumption | with_reducible apply finishInv_kept | with_reducible apply putEntry_kept | split

theorem finishRecall_kept {ps : List Instr} (s : State) (l : Nat) (e : DEntry) (shared : Bool)
    (hK : Kept ps s) : Kept ps (finishRecall s l e shared) := by
  unfold finishRecall
  repeat' first
      | with_reducible assumption | with_reducible apply rdAcc_kept | with_reducible apply putEntry_kept
      | with_reducible apply dropEntry_kept | with_reducible apply wrAcc_kept | with_reducible apply tell_kept
      | (extract_lets +onlyGivenNames xl
         first
           | (refine Kept.cut (q := ps) xl ?_ ?_; (on_goal 1 => subst xl); (on_goal 2 => (try clear_value xl; rename' xl => s; intro h)))
           | (clear_value xl; rename' xl => v))
      | split

theorem putBIn_kept {ps : List Instr} (s : State) (l : Nat) (e : DEntry) (r : Nat) (hK : Kept ps s) : Kept ps (putBIn s l e r) := by
  unfold putBIn
  repeat' first
      | with_reducible assumption | with_reducible apply dropEntry_kept | with_reducible apply putEntry_kept
      | with_reducible apply tell_kept | with_reducible apply invMembers_kept
      | (extract_lets +onlyGivenNames xl
         first
           | (refine Kept.cut (q := ps) xl ?_ ?_; (on_goal 1 => subst xl); (on_goal 2 => (try clear_value xl; rename' xl => s; intro h)))
           | (clear_value xl; rename' xl => v))
      | split

theorem handle_kept {ps : List Instr} (s : State) (m : Msg) (hK : Kept ps s) : Kept ps (handle s m) := by
  unfold handle
  repeat' first
      | with_reducible assumption | with_reducible apply rdAcc_kept | with_reducible apply setEntry_kept
      | with_reducible apply wrAcc_kept | with_reducible apply tell_kept | with_reducible apply putEntry_kept
      | with_reducible apply invGroups_kept | with_reducible apply settleInv_kept
      | (extract_lets +onlyGivenNames xl
         first
           | (refine Kept.cut (q := ps) xl ?_ ?_; (on_goal 1 => subst xl); (on_goal 2 => (try clear_value xl; rename' xl => s; intro h)))
           | (refine Kept.cutFst (q := ps) xl ?_ ?_; (on_goal 1 => subst xl); (on_goal 2 => (try clear_value xl; rename' xl => s; intro h)))
           | (refine Kept.cutFun3 (q := ps) xl ?_ ?_; (on_goal 1 => (subst xl; intros; beta_reduce)); (on_goal 2 => (try clear_value xl; rename' xl => s; intro hG)))
           | (clear_value xl; rename' xl => v))
      | with_reducible apply hG | split

theorem evict_kept {ps : List Instr} (s : State) (v : Nat) (hK : Kept ps s) : Kept ps (evict s v) := by
  unfold evict
  repeat' first
      | with_reducible assumption | with_reducible apply updSlice_kept | with_reducible apply invGroups_kept
      | with_reducible apply settleInv_kept | with_reducible apply tell_kept | with_reducible apply putEntry_kept
      | (extract_lets +onlyGivenNames xl
         first
           | (refine Kept.cut (q := ps) xl ?_ ?_; (on_goal 1 => subst xl); (on_goal 2 => (try clear_value xl; rename' xl => s; intro h)))
           | (refine Kept.cutFst (q := ps) xl ?_ ?_; (on_goal 1 => subst xl); (on_goal 2 => (try clear_value xl; rename' xl => s; intro h))))
      | split

theorem reexamine_kept {ps : List Instr} (s : State) (l : Nat) (y0 : Nat) (hK : Kept ps s) : Kept ps (reexamine s l y0) := by
  induction y0 generalizing s with
  | zero =>
    unfold reexamine
    repeat' first
        | with_reducible assumption | with_reducible apply handle_kept | with_reducible apply updSlice_kept
        | with_reducible apply evict_kept
        | (extract_lets +onlyGivenNames xl
           (clear_value xl; rename' xl => v))
        | split
  | succ k ih =>
    unfold reexamine
    repeat' first
        | with_reducible apply ih | with_reducible assumption | with_reducible apply handle_kept
        | with_reducible apply updSlice_kept | with_reducible apply evict_kept
        | (extract_lets +onlyGivenNames xl
           (clear_value xl; rename' xl => v))
        | split

theorem retryAgain_kept {ps : List Instr} (s : State) (l : Nat) (hK : Kept ps s) : Kept ps (retryAgain s l) := by
  unfold retryAgain
  repeat' first | with_reducible assumption | with_reducible apply reexamine_kept

theorem arrive_kept {ps : List Instr} (s : State) (m : Msg) (hK : Kept ps s) : Kept ps (arrive s m) := by
  unfold arrive
  repeat' first
      | with_reducible assumption | with_reducible apply updSlice_kept | with_reducible apply retryAgain_kept
      | with_reducible apply evict_kept | with_reducible apply handle_kept
      | (extract_lets +onlyGivenNames xl
         (refine Kept.cut (q := ps) xl ?_ ?_; (on_goal 1 => subst xl); (on_goal 2 => (try clear_value xl; rename' xl => s; intro h))))
      | split

theorem lookup_kept {ps : List Instr} (s : State) (l : Nat) (hK : Kept ps s) : Kept ps (lookup s l) := by
  unfold lookup
  repeat' first | with_reducible assumption | with_reducible apply updSlice_kept | with_reducible apply putEntry_kept | split

theorem touch_kept {ps : List Instr} (s : State) (l : Nat) (hK : Kept ps s) : Kept ps (touch s l) := by
  unfold touch
  repeat' first | with_reducible assumption | with_reducible apply setEntry_kept | split

theorem requestRow_kept {ps : List Instr} (s : State) (k : MsgKind) (r l : Nat)
    (hK : Kept ps s) : KeptR ps (requestRow s k r l) := by
  unfold requestRow
  repeat' first
      | with_reducible assumption | with_reducible refine KeptR.next ?_ | with_reducible apply lookup_kept
      | with_reducible apply updSlice_kept | with_reducible apply dropMsg_kept | with_reducible apply rdAcc_kept
      | with_reducible apply arrive_kept
      | (extract_lets +onlyGivenNames xl
         (refine Kept.cut (q := ps) xl ?_ ?_; (on_goal 1 => subst xl); (on_goal 2 => (try clear_value xl; rename' xl => s; intro h))))
      | split

theorem execRds_kept {ps : List Instr} (r line : Nat) (s : State) (hK : Kept ps s) : KeptR ps (execRds r line s) := by
  unfold execRds
  repeat' first | with_reducible assumption | with_reducible apply requestRow_kept

theorem execRde_kept {ps : List Instr} (r line : Nat) (s : State) (hK : Kept ps s) : KeptR ps (execRde r line s) := by
  unfold execRde
  repeat' first | with_reducible assumption | with_reducible apply requestRow_kept

theorem execRdc_kept {ps : List Instr} (r line : Nat) (s : State) (hK : Kept ps s) : KeptR ps (execRdc r line s) := by
  unfold execRdc
  repeat' first | with_reducible assumption | with_reducible apply requestRow_kept

theorem execWr_kept {ps : List Instr} (r line : Nat) (s : State) (hK : Kept ps s) : KeptR ps (execWr r line s) := by
  unfold execWr
  repeat' first | with_reducible assumption | with_reducible apply requestRow_kept

theorem execClr_kept {ps : List Instr} (line : Nat) (s : State) (hK : Kept ps s) : KeptR ps (execClr line s) := by
  unfold execClr
  repeat' first | with_reducible assumption | with_reducible apply requestRow_kept

theorem putArrives_kept {ps : List Instr} (s : State) (m : Msg) (hK : Kept ps s) : Kept ps (putArrives s m) := by
  unfold putArrives
  repeat' first
      | with_reducible assumption | with_reducible apply touch_kept | with_reducible apply updSlice_kept
      | with_reducible apply dropMsg_kept | with_reducible apply lookup_kept

theorem execPutb_kept {ps : List Instr} (r line : Nat) (s : State) (hK : Kept ps s) : KeptR ps (execPutb r line s) := by
  unfold execPutb
  repeat' first
      | with_reducible assumption | with_reducible refine KeptR.next ?_ | with_reducible apply putArrives_kept
      | with_reducible apply tell_kept | with_reducible apply retryAgain_kept | with_reducible apply putBIn_kept
      | (extract_lets +onlyGivenNames xl
         first
           | (refine Kept.cut (q := ps) xl ?_ ?_; (on_goal 1 => subst xl); (on_goal 2 => (try clear_value xl; rename' xl => s; intro h)))
           | (clear_value xl; rename' xl => v))
      | split

theorem execPute_kept {ps : List Instr} (r line : Nat) (s : State) (hK : Kept ps s) : KeptR ps (execPute r line s) := by
  unfold execPute
  repeat' first
      | with_reducible assumption | with_reducible refine KeptR.next ?_ | with_reducible apply putArrives_kept
      | with_reducible apply retryAgain_kept | with_reducible apply tell_kept | with_reducible apply dropEntry_kept
      | with_reducible apply finishRecall_kept
      | (extract_lets +onlyGivenNames xl
         (refine Kept.cut (q := ps) xl ?_ ?_; (on_goal 1 => subst xl); (on_goal 2 => (try clear_value xl; rename' xl => s; intro h))))
      | split

theorem execPutm_kept {ps : List Instr} (r line : Nat) (s : State) (hK : Kept ps s) : KeptR ps (execPutm r line s) := by
  unfold execPutm
  repeat' first
      | with_reducible assumption | with_reducible refine KeptR.next ?_ | with_reducible apply putArrives_kept
      | with_reducible apply retryAgain_kept | with_reducible apply wrAcc_kept | with_reducible apply dropEntry_kept
      | with_reducible apply finishRecall_kept | with_reducible apply tell_kept
      | (extract_lets +onlyGivenNames xl
         (refine Kept.cut (q := ps) xl ?_ ?_; (on_goal 1 => subst xl); (on_goal 2 => (try clear_value xl; rename' xl => s; intro h))))
      | split

theorem execAck_kept {ps : List Instr} (r line : Nat) (s : State) (hK : Kept ps s) : KeptR ps (execAck r line s) := by
  unfold execAck
  repeat' first
      | with_reducible assumption | with_reducible refine KeptR.next ?_ | with_reducible apply dropMsg_kept
      | with_reducible apply retryAgain_kept | with_reducible apply settleInv_kept
      | (extract_lets +onlyGivenNames xl
         (refine Kept.cut (q := ps) xl ?_ ?_; (on_goal 1 => subst xl); (on_goal 2 => (try clear_value xl; rename' xl => s; intro h))))
      | split

theorem execWbd_kept {ps : List Instr} (r line : Nat) (s : State) (hK : Kept ps s) : KeptR ps (execWbd r line s) := by
  unfold execWbd
  repeat' first
      | with_reducible assumption | with_reducible refine KeptR.next ?_ | with_reducible apply dropMsg_kept
      | with_reducible apply wrAcc_kept | with_reducible apply retryAgain_kept | with_reducible apply finishRecall_kept
      | (extract_lets +onlyGivenNames xl
         (refine Kept.cut (q := ps) xl ?_ ?_; (on_goal 1 => subst xl); (on_goal 2 => (try clear_value xl; rename' xl => s; intro h))))
      | split

theorem execCack_kept {ps : List Instr} (r line : Nat) (s : State) (hK : Kept ps s) : KeptR ps (execCack r line s) := by
  unfold execCack
  repeat' first
      | with_reducible assumption | with_reducible refine KeptR.next ?_ | with_reducible apply dropMsg_kept
      | with_reducible apply retryAgain_kept | with_reducible apply finishRecall_kept
      | (extract_lets +onlyGivenNames xl
         (refine Kept.cut (q := ps) xl ?_ ?_; (on_goal 1 => subst xl); (on_goal 2 => (try clear_value xl; rename' xl => s; intro h))))
      | split

theorem writeLine_kept {ps : List Instr} (s : State) (l : Nat) (data : List Byte) (mask : List Bool)
    (hK : Kept ps s) : Kept ps (writeLine s l data mask) := by
  unfold writeLine
  repeat' first
      | with_reducible assumption | (with_reducible intro)
      | ((fail_if_success with_reducible apply Kept.upd); with_reducible apply Kept.updMem)
      | with_reducible apply Mem.writeMask_wf

theorem payOwed_kept {ps : List Instr} (s : State) (l : Nat) (data : List Byte) (o : Option Msg)
    (hK : Kept ps s) : Kept ps (payOwed s l data o) := by
  unfold payOwed
  repeat' first | with_reducible assumption | with_reducible apply putEntry_kept | with_reducible apply send_kept | split

theorem performAccess_kept {ps : List Instr} (s : State) (a : Access) (hK : Kept ps s) : Kept ps (performAccess s a) := by
  unfold performAccess
  repeat' first
      | with_reducible assumption | with_reducible apply updSlice_kept | with_reducible apply payOwed_kept
      | with_reducible apply writeLine_kept | fail_if_no_progress with_reducible apply Kept.upd
      | (extract_lets +onlyGivenNames xl
         (refine Kept.cut (q := ps) xl ?_ ?_; (on_goal 1 => subst xl); (on_goal 2 => (try clear_value xl; rename' xl => s; intro h))))
      | split

theorem execStackAccessDone_kept {ps : List Instr} (line : Nat) (s : State)
    (hK : Kept ps s) : KeptR ps (execStackAccessDone line s) := by
  unfold execStackAccessDone
  repeat' first
      | with_reducible assumption | with_reducible refine KeptR.next ?_ | with_reducible apply updStack_kept
      | with_reducible apply performAccess_kept | split

theorem declareDead_kept {ps : List Instr} (s : State) (a : Nat) (hK : Kept ps s) : Kept ps (declareDead s a) := by
  unfold declareDead
  repeat' first
      | with_reducible assumption | fail_if_no_progress with_reducible apply Kept.upd
      | (extract_lets +onlyGivenNames xl
         (clear_value xl; rename' xl => v))
      | split

theorem loseLine_kept {ps : List Instr} (s : State) (l : Nat) (hK : Kept ps s) : Kept ps (loseLine s l) := by
  unfold loseLine
  repeat' first
      | with_reducible assumption | with_reducible apply poisonAcc_kept | fail_if_no_progress with_reducible apply Kept.upd

theorem sweepEntry_kept {ps : List Instr} (s : State) (d l : Nat) (hK : Kept ps s) : Kept ps (sweepEntry s d l) := by
  unfold sweepEntry
  repeat' first
      | with_reducible assumption | with_reducible apply putEntry_kept | with_reducible apply dropEntry_kept
      | with_reducible apply loseLine_kept | with_reducible apply invMembers_kept | with_reducible apply finishRecall_kept
      | with_reducible apply settleInv_kept
      | (extract_lets +onlyGivenNames xl
         first
           | (refine Kept.cut (q := ps) xl ?_ ?_; (on_goal 1 => subst xl); (on_goal 2 => (try clear_value xl; rename' xl => s; intro h)))
           | (clear_value xl; rename' xl => v))
      | split

theorem sweepCollects_kept {ps : List Instr} (s : State) (d : Nat) (hK : Kept ps s) : Kept ps (sweepCollects s d) := by
  unfold sweepCollects
  repeat' first
      | with_reducible assumption | (with_reducible intro) | with_reducible apply send_kept | with_reducible apply foldl_kept
      | fail_if_no_progress with_reducible apply Kept.upd

theorem lostEvent_kept {ps : List Instr} (s : State) (d lost : Nat) (hK : Kept ps s) : Kept ps (lostEvent s d lost) := by
  unfold lostEvent
  repeat' first | with_reducible assumption | with_reducible apply postEvent_kept | with_reducible apply postNodeEvent_kept | split

theorem execReclaimSweep_kept {ps : List Instr} (agent : Nat) (s : State)
    (hK : Kept ps s) : KeptR ps (execReclaimSweep agent s) := by
  unfold execReclaimSweep
  repeat' first
      | with_reducible assumption | (with_reducible intro) | with_reducible refine KeptR.next ?_
      | with_reducible apply sweepEntry_kept | with_reducible apply sweepCollects_kept | with_reducible apply retryAgain_kept
      | with_reducible apply lostEvent_kept | with_reducible apply foldl_kept
      | fail_if_no_progress with_reducible apply Kept.upd
      | (extract_lets +onlyGivenNames xl
         first
           | (refine Kept.cut (q := ps) xl ?_ ?_; (on_goal 1 => subst xl); (on_goal 2 => (try clear_value xl; rename' xl => s; intro h)))
           | (clear_value xl; rename' xl => v))
      | split

theorem execBisnpTimeout_kept {ps : List Instr} (line : Nat) (s : State) (hK : Kept ps s) : KeptR ps (execBisnpTimeout line s) := by
  unfold execBisnpTimeout
  repeat' first
      | with_reducible assumption | with_reducible refine KeptR.next ?_ | with_reducible refine actWhen_kept ?_ ?_
      | with_reducible apply declareDead_kept | split

theorem updAgent_kept {ps : List Instr} (s : State) (a : Nat) (f : Agent → Agent) (hK : Kept ps s) : Kept ps (updAgent s a f) := by
  unfold updAgent
  repeat' first | with_reducible assumption | fail_if_no_progress with_reducible apply Kept.upd

theorem setAline_kept {ps : List Instr} (s : State) (a l : Nat) (x : ALine) (hK : Kept ps s) : Kept ps (setAline s a l x) := by
  unfold setAline
  repeat' first | with_reducible assumption | with_reducible apply updAgent_kept

theorem dropAline_kept {ps : List Instr} (s : State) (a l : Nat) (hK : Kept ps s) : Kept ps (dropAline s a l) := by
  unfold dropAline
  repeat' first | with_reducible assumption | with_reducible apply updAgent_kept

theorem toHome_kept {ps : List Instr} (s : State) (k : MsgKind) (a l : Nat) (hK : Kept ps s) : Kept ps (toHome s k a l) := by
  unfold toHome
  repeat' first | with_reducible assumption | with_reducible apply send_kept

theorem serve_kept {ps : List Instr} (s : State) (a n : Nat) (hK : Kept ps s) : Kept ps (serve s a n) := by
  unfold serve
  repeat' first | with_reducible assumption | with_reducible apply updAgent_kept

theorem writeThrough_kept {ps : List Instr} (s : State) (a l : Nat) (data : List Byte) (mask : List Bool)
    (hK : Kept ps s) : Kept ps (writeThrough s a l data mask) := by
  unfold writeThrough
  repeat' first | with_reducible assumption | with_reducible apply setAline_kept | with_reducible apply send_kept | split

theorem park_kept {ps : List Instr} (s : State) (a l : Nat) (w : Option (List Byte × List Bool))
    (hK : Kept ps s) : Kept ps (park s a l w) := by
  unfold park
  repeat' first | with_reducible assumption | with_reducible apply updAgent_kept

theorem askHome_kept {ps : List Instr} (s : State) (a l : Nat) (w : Option (List Byte × List Bool)) (st : AState) (k : MsgKind)
    (hK : Kept ps s) : Kept ps (askHome s a l w st k) := by
  unfold askHome
  repeat' first
      | with_reducible assumption | with_reducible apply toHome_kept | with_reducible apply setAline_kept
      | with_reducible apply park_kept

theorem access_kept {ps : List Instr} (s : State) (a l : Nat) (w : Option (List Byte × List Bool))
    (hK : Kept ps s) : Kept ps (access s a l w) := by
  unfold access
  repeat' first
      | with_reducible assumption | with_reducible apply park_kept | with_reducible apply askHome_kept
      | with_reducible apply writeThrough_kept | with_reducible apply serve_kept | with_reducible apply setAline_kept
      | (extract_lets +onlyGivenNames xl
         (clear_value xl; rename' xl => v))
      | split

theorem unpark_kept {ps : List Instr} (s : State) (a : Nat) (hK : Kept ps s) : Kept ps (unpark s a) := by
  unfold unpark
  repeat' first
      | with_reducible assumption | (with_reducible intro) | with_reducible apply access_kept
      | with_reducible apply updAgent_kept | with_reducible apply foldl_kept
      | (extract_lets +onlyGivenNames xl
         (clear_value xl; rename' xl => v))
      | split

theorem serveOnce_kept {ps : List Instr} (s : State) (a l : Nat) (hK : Kept ps s) : Kept ps (serveOnce s a l) := by
  unfold serveOnce
  repeat' first | with_reducible assumption | with_reducible apply serve_kept | with_reducible apply updAgent_kept

theorem execAgentLoad_kept {ps : List Instr} (a line : Nat) (s : State) (hK : Kept ps s) : KeptR ps (execAgentLoad a line s) := by
  unfold execAgentLoad
  repeat' first | with_reducible assumption | with_reducible refine actWhen_kept ?_ ?_ | with_reducible apply access_kept

theorem execAgentStore_kept {ps : List Instr} (a line : Nat) (data : List Byte) (mask : List Bool) (s : State)
    (hK : Kept ps s) : KeptR ps (execAgentStore a line data mask s) := by
  unfold execAgentStore
  repeat' first | with_reducible assumption | with_reducible refine actWhen_kept ?_ ?_ | with_reducible apply access_kept

theorem execAgentReplace_kept {ps : List Instr} (a line : Nat) (s : State)
    (hK : Kept ps s) : KeptR ps (execAgentReplace a line s) := by
  unfold execAgentReplace
  repeat' first
      | with_reducible assumption | with_reducible refine KeptR.next ?_ | with_reducible refine actWhen_kept ?_ ?_
      | with_reducible apply unpark_kept | with_reducible apply dropAline_kept | with_reducible apply toHome_kept
      | with_reducible apply setAline_kept | with_reducible apply send_kept
      | (extract_lets +onlyGivenNames xl
         (clear_value xl; rename' xl => v))
      | split

theorem ownInv_kept {ps : List Instr} (s : State) (a l : Nat) (hK : Kept ps s) : Kept ps (ownInv s a l) := by
  unfold ownInv
  repeat' first
      | with_reducible assumption | with_reducible apply unpark_kept | with_reducible apply dropAline_kept
      | with_reducible apply setAline_kept | split

theorem execInv_kept {ps : List Instr} (a line : Nat) (s : State) (hK : Kept ps s) : KeptR ps (execInv a line s) := by
  unfold execInv
  repeat' first
      | with_reducible assumption | (with_reducible intro) | with_reducible refine KeptR.next ?_
      | with_reducible apply send_kept | with_reducible apply ownInv_kept | with_reducible apply dropMsg_kept
      | with_reducible apply toHome_kept | with_reducible apply updAgent_kept | with_reducible apply foldl_kept
      | (extract_lets +onlyGivenNames xl
         first
           | (refine Kept.cut (q := ps) xl ?_ ?_; (on_goal 1 => subst xl); (on_goal 2 => (try clear_value xl; rename' xl => s; intro h)))
           | (clear_value xl; rename' xl => v))
      | split

theorem execMemberAck_kept {ps : List Instr} (a line member : Nat) (s : State)
    (hK : Kept ps s) : KeptR ps (execMemberAck a line member s) := by
  unfold execMemberAck
  repeat' first
      | with_reducible assumption | with_reducible refine KeptR.next ?_ | with_reducible apply dropMsg_kept
      | with_reducible apply updAgent_kept | with_reducible apply toHome_kept
      | (extract_lets +onlyGivenNames xl
         first
           | (refine Kept.cut (q := ps) xl ?_ ?_; (on_goal 1 => subst xl); (on_goal 2 => (try clear_value xl; rename' xl => s; intro h)))
           | (clear_value xl; rename' xl => v))
      | split

theorem answerRecall_kept {ps : List Instr} (s : State) (a l : Nat) (x : ALine) (keep : Bool)
    (hK : Kept ps s) : Kept ps (answerRecall s a l x keep) := by
  unfold answerRecall
  repeat' first
      | with_reducible assumption | with_reducible apply setAline_kept | with_reducible apply dropAline_kept
      | with_reducible apply send_kept | with_reducible apply toHome_kept | with_reducible apply unpark_kept | split

theorem recallRow_kept {ps : List Instr} (a l : Nat) (k : MsgKind) (keep : Bool) (s : State)
    (hK : Kept ps s) : KeptR ps (recallRow a l k keep s) := by
  unfold recallRow
  repeat' first
      | with_reducible assumption | with_reducible refine KeptR.next ?_ | with_reducible apply dropMsg_kept
      | with_reducible apply answerRecall_kept | with_reducible apply setAline_kept | with_reducible apply unpark_kept
      | with_reducible apply dropAline_kept
      | (extract_lets +onlyGivenNames xl
         (refine Kept.cut (q := ps) xl ?_ ?_; (on_goal 1 => subst xl); (on_goal 2 => (try clear_value xl; rename' xl => s; intro h))))
      | split

theorem execRcl_kept {ps : List Instr} (a line : Nat) (s : State) (hK : Kept ps s) : KeptR ps (execRcl a line s) := by
  unfold execRcl
  repeat' first | with_reducible assumption | with_reducible apply recallRow_kept

theorem execRclS_kept {ps : List Instr} (a line : Nat) (s : State) (hK : Kept ps s) : KeptR ps (execRclS a line s) := by
  unfold execRclS
  repeat' first | with_reducible assumption | with_reducible apply recallRow_kept

theorem dataRow_kept {ps : List Instr} (a l : Nat) (k : MsgKind) (st : AState) (s : State)
    (hK : Kept ps s) : KeptR ps (dataRow a l k st s) := by
  unfold dataRow
  repeat' first
      | with_reducible assumption | with_reducible refine KeptR.next ?_ | with_reducible apply dropMsg_kept
      | with_reducible apply unpark_kept | with_reducible apply setAline_kept | with_reducible apply dropAline_kept
      | with_reducible apply serveOnce_kept
      | (extract_lets +onlyGivenNames xl
         (refine Kept.cut (q := ps) xl ?_ ?_; (on_goal 1 => subst xl); (on_goal 2 => (try clear_value xl; rename' xl => s; intro h))))
      | split

theorem execDataS_kept {ps : List Instr} (a line : Nat) (s : State) (hK : Kept ps s) : KeptR ps (execDataS a line s) := by
  unfold execDataS
  repeat' first | with_reducible assumption | with_reducible apply dataRow_kept

theorem execDataB_kept {ps : List Instr} (a line : Nat) (s : State) (hK : Kept ps s) : KeptR ps (execDataB a line s) := by
  unfold execDataB
  repeat' first | with_reducible assumption | with_reducible apply dataRow_kept

theorem answerHeld_kept {ps : List Instr} (s : State) (a l : Nat) (held : Option Bool)
    (hK : Kept ps s) : Kept ps (answerHeld s a l held) := by
  unfold answerHeld
  repeat' first | with_reducible assumption | with_reducible apply answerRecall_kept | split

theorem execDataE_kept {ps : List Instr} (a line : Nat) (s : State) (hK : Kept ps s) : KeptR ps (execDataE a line s) := by
  unfold execDataE
  repeat' first
      | with_reducible assumption | with_reducible refine KeptR.next ?_ | with_reducible refine actWhen_kept ?_ ?_
      | with_reducible apply dropMsg_kept | with_reducible apply answerHeld_kept | with_reducible apply unpark_kept
      | with_reducible apply setAline_kept
      | (extract_lets +onlyGivenNames xl
         (refine Kept.cut (q := ps) xl ?_ ?_; (on_goal 1 => subst xl); (on_goal 2 => (try clear_value xl; rename' xl => s; intro h))))
      | split

theorem execCmp_kept {ps : List Instr} (a line : Nat) (s : State) (hK : Kept ps s) : KeptR ps (execCmp a line s) := by
  unfold execCmp
  repeat' first
      | with_reducible assumption | with_reducible refine KeptR.next ?_ | with_reducible apply dropMsg_kept
      | with_reducible apply setAline_kept | with_reducible apply unpark_kept | with_reducible apply dropAline_kept
      | (extract_lets +onlyGivenNames xl
         first
           | (refine Kept.cut (q := ps) xl ?_ ?_; (on_goal 1 => subst xl); (on_goal 2 => (try clear_value xl; rename' xl => s; intro h)))
           | (refine Kept.cutFun (q := ps) xl ?_ ?_; (on_goal 1 => (subst xl; intros; beta_reduce)); (on_goal 2 => (try clear_value xl; rename' xl => s; intro hG))))
      | with_reducible apply hG | split

theorem unitStore_kept {ps : List Instr} (s : State) (a : Nat) (x : Nat × List Byte)
    (hK : Kept ps s) : Kept ps (unitStore s a x) := by
  unfold unitStore
  repeat' first
      | with_reducible assumption | with_reducible apply access_kept | with_reducible apply send_kept
      | (extract_lets +onlyGivenNames xl
         (clear_value xl; rename' xl => v))
      | split

theorem agentWrite_kept {ps : List Instr} (s : State) (t : Option TaskId) (a addr : Nat) (bs : List Byte)
    (hK : Kept ps s) : Kept ps (agentWrite s t a addr bs) := by
  unfold agentWrite
  repeat' first
      | with_reducible assumption | (with_reducible intro) | with_reducible apply writeStack_kept
      | with_reducible apply unitStore_kept | with_reducible apply foldl_kept
      | fail_if_no_progress with_reducible apply Kept.upd
      | (extract_lets +onlyGivenNames xl
         first
           | (refine Kept.cut (q := ps) xl ?_ ?_; (on_goal 1 => subst xl); (on_goal 2 => (try clear_value xl; rename' xl => s; intro h)))
           | (clear_value xl; rename' xl => v))
      | split

theorem forgetWrites_kept {ps : List Instr} (s : State) (t : TaskId) (hK : Kept ps s) : Kept ps (forgetWrites s t) := by
  unfold forgetWrites
  repeat' first | with_reducible assumption | fail_if_no_progress with_reducible apply Kept.upd

theorem askLines_kept {ps : List Instr} (s : State) (l : List Nat) (hK : Kept ps s) : Kept ps (askLines s l) := by
  unfold askLines
  repeat' first
      | with_reducible assumption | (with_reducible intro) | with_reducible apply send_kept | with_reducible apply foldl_kept
      | (extract_lets +onlyGivenNames xl
         (clear_value xl; rename' xl => v))
      | split

theorem poisonReply_kept {ps : List Instr} (s : State) (l : Nat) (hK : Kept ps s) : Kept ps (poisonReply s l) := by
  unfold poisonReply
  repeat' first | with_reducible assumption | with_reducible apply emit_kept

theorem countHostWrite_kept {ps : List Instr} (s : State) (hK : Kept ps s) : Kept ps (countHostWrite s) := by
  unfold countHostWrite
  repeat' first
      | with_reducible assumption | fail_if_no_progress with_reducible apply Kept.upd
      | (extract_lets +onlyGivenNames xl
         (clear_value xl; rename' xl => v))
      | split

theorem wildLine_kept {ps : List Instr} (s : State) (l : Nat) (hK : Kept ps s) : Kept ps (wildLine s l) := by
  unfold wildLine
  repeat' first
      | with_reducible assumption | with_reducible apply drawTag_kept | with_reducible apply dropEntry_kept
      | (extract_lets +onlyGivenNames xl
         (refine Kept.cutSnd (q := ps) xl ?_ ?_; (on_goal 1 => subst xl); (on_goal 2 => (try clear_value xl; rename' xl => s; intro h))))
      | split

theorem wildRead_kept {ps : List Instr} (s : State) (l : Nat) (hK : Kept ps s) : Kept ps (wildRead s l) := by
  unfold wildRead
  repeat' first
      | with_reducible assumption | with_reducible apply drawTag_kept | with_reducible apply wildLine_kept
      | with_reducible apply emit_kept

theorem biRsp_kept {ps : List Instr} (s : State) (l : Nat) (shared : Bool) (hK : Kept ps s) : Kept ps (biRsp s l shared) := by
  unfold biRsp
  repeat' first
      | with_reducible assumption | with_reducible apply send_kept | with_reducible apply wildLine_kept
      | fail_if_no_progress with_reducible apply Kept.upd
      | (extract_lets +onlyGivenNames xl
         first
           | (refine Kept.cutFun (q := ps) xl ?_ ?_; (on_goal 1 => (subst xl; intros; beta_reduce)); (on_goal 2 => (try clear_value xl; rename' xl => s; intro hG)))
           | (clear_value xl; rename' xl => v))
      | with_reducible apply hG | split

theorem hostMemRow_kept {ps : List Instr} (req : CxlReq) (l : Nat) (s : State)
    (hK : Kept ps s) : KeptR ps (hostMemRow req l s) := by
  unfold hostMemRow
  repeat' first
      | with_reducible assumption | with_reducible refine KeptR.next ?_ | with_reducible apply send_kept
      | with_reducible apply poisonReply_kept | with_reducible apply wildRead_kept | with_reducible apply countHostWrite_kept
      | with_reducible apply emit_kept | with_reducible apply biRsp_kept | with_reducible apply wildLine_kept
      | fail_if_no_progress with_reducible apply Kept.upd
      | (extract_lets +onlyGivenNames xl
         first
           | (refine Kept.cut (q := ps) xl ?_ ?_; (on_goal 1 => subst xl); (on_goal 2 => (try clear_value xl; rename' xl => s; intro h)))
           | (refine Kept.cutSt3 (q := ps) xl ?_ ?_; (on_goal 1 => (subst xl; intros; beta_reduce)); (on_goal 2 => (try clear_value xl; rename' xl => s; intro hF)))
           | (clear_value xl; rename' xl => v))
      | with_reducible apply hF | split

theorem execSnpInv_kept {ps : List Instr} (line : Nat) (data : List (Nat × Byte)) (s : State)
    (hK : Kept ps s) : KeptR ps (execSnpInv line data s) := by
  unfold execSnpInv
  repeat' first
      | with_reducible assumption | (with_reducible intro) | with_reducible refine KeptR.next ?_
      | with_reducible apply emit_kept | ((fail_if_success with_reducible apply Kept.upd); with_reducible apply Kept.updMem)
      | with_reducible apply Mem.sets_wf

theorem execSnpData_kept {ps : List Instr} (line : Nat) (s : State) (hK : Kept ps s) : KeptR ps (execSnpData line s) := by
  unfold execSnpData
  repeat' first | with_reducible assumption | with_reducible refine KeptR.next ?_ | with_reducible apply emit_kept

theorem execSnpCur_kept {ps : List Instr} (line : Nat) (s : State) (hK : Kept ps s) : KeptR ps (execSnpCur line s) := by
  unfold execSnpCur
  repeat' first | with_reducible assumption | with_reducible refine KeptR.next ?_ | with_reducible apply emit_kept

end Sys2Proof.Machine
end

