-- ==== Sys2Proof/Laws/KeptTasks.lean ====
section
/-!
SUPPORT. The promise of Laws/Kept.lean, operation by operation: tasks, flash, bales and queues.
Each lemma says that the operation leaves the queue of waiting commands as it is and keeps the invariant.
-/

namespace Sys2Proof.Machine

theorem modGraph_kept {ps : List Instr} (s : State) (acc : Nat) (f : Graph → Graph)
    (hK : Kept ps s) : Kept ps (modGraph s acc f) := by
  unfold modGraph
  repeat' first | with_reducible assumption | fail_if_no_progress with_reducible apply Kept.upd

theorem modTask_kept {ps : List Instr} (s : State) (t : TaskId) (f : Task → Task) (hK : Kept ps s) : Kept ps (modTask s t f) := by
  unfold modTask
  repeat' first | with_reducible assumption | with_reducible apply modGraph_kept

theorem chargePen_kept {ps : List Instr} (s : State) (p cls : Nat) (c : Charge)
    (hK : Kept ps s) : Kept ps (chargePen s p cls c) := by
  unfold chargePen
  repeat' first | with_reducible assumption | with_reducible apply updPen_kept

theorem settlePen_kept {ps : List Instr} (s : State) (p cls : Nat) (charged used : Charge)
    (hK : Kept ps s) : Kept ps (settlePen s p cls charged used) := by
  unfold settlePen
  repeat' first | with_reducible assumption | with_reducible apply updPen_kept

theorem takeHome_kept {ps : List Instr} (s : State) (quad : Nat) (hK : Kept ps s) : KeptOP ps (takeHome s quad) := by
  unfold takeHome
  repeat' first
      | with_reducible assumption | with_reducible exact KeptOP.none | with_reducible refine KeptOP.some ?_
      | with_reducible apply updStack_kept | split

theorem takeHomes_kept {ps : List Instr} (s : State) (quad : Nat) (y0 : Nat)
    (hK : Kept ps s) : KeptOP ps (takeHomes s quad y0) := by
  induction y0 generalizing s with
  | zero =>
    unfold takeHomes
    repeat' first
        | with_reducible assumption | with_reducible exact KeptOP.none | with_reducible refine KeptOP.some ?_
        | with_reducible refine KeptOP.get (takeHome_kept _ _ ?_) (by assumption) | split
  | succ k ih =>
    unfold takeHomes
    repeat' first
        | with_reducible refine KeptOP.get (ih _ ?_) (by assumption) | with_reducible assumption
        | with_reducible exact KeptOP.none | with_reducible refine KeptOP.some ?_
        | with_reducible refine KeptOP.get (takeHome_kept _ _ ?_) (by assumption) | split

theorem freeHome_kept {ps : List Instr} (s : State) (h : Home) (hK : Kept ps s) : Kept ps (freeHome s h) := by
  unfold freeHome
  repeat' first | with_reducible assumption | with_reducible apply updStack_kept | split

theorem freeHomes'_kept {ps : List Instr} (s : State) (hs : List Home) (hK : Kept ps s) : Kept ps (freeHomes' s hs) := by
  unfold freeHomes'
  repeat' first
      | with_reducible assumption | (with_reducible intro) | with_reducible apply freeHome_kept
      | with_reducible apply foldl_kept

theorem chargeBales_kept {ps : List Instr} (s : State) (p n : Nat) (hK : Kept ps s) : Kept ps (chargeBales s p n) := by
  unfold chargeBales
  repeat' first | with_reducible assumption | with_reducible apply updPen_kept

theorem creditBales_kept {ps : List Instr} (s : State) (p n : Nat) (hK : Kept ps s) : Kept ps (creditBales s p n) := by
  unfold creditBales
  repeat' first | with_reducible assumption | with_reducible apply updPen_kept

theorem zeroHome_kept {ps : List Instr} (s : State) (h : Home) (hK : Kept ps s) : Kept ps (zeroHome s h) := by
  unfold zeroHome
  repeat' first | with_reducible assumption | with_reducible apply agentWrite_kept | split

theorem newObject_kept {ps : List Instr} (s : State) (p num quad bytes : Nat) (kind : ObjKind)
    (hK : Kept ps s) : KeptO ps (newObject s p num quad bytes kind) := by
  unfold newObject
  repeat' first
      | with_reducible assumption | with_reducible exact KeptO.none | with_reducible refine KeptO.some ?_
      | with_reducible refine KeptOP.get (takeHomes_kept _ _ _ ?_) (by assumption) | with_reducible apply putObj_kept
      | with_reducible apply chargeBales_kept
      | (extract_lets +onlyGivenNames xl
         (clear_value xl; rename' xl => v))
      | split

theorem destroyObj_kept {ps : List Instr} (s : State) (p num : Nat) (hK : Kept ps s) : Kept ps (destroyObj s p num) := by
  unfold destroyObj
  repeat' first
      | with_reducible assumption | with_reducible apply creditBales_kept | with_reducible apply dropObj_kept
      | with_reducible apply freeHomes'_kept | split

theorem dropCopy_kept {ps : List Instr} (s : State) (c : BaleCopy) (hK : Kept ps s) : Kept ps (dropCopy s c) := by
  unfold dropCopy
  repeat' first | with_reducible assumption | with_reducible apply updStack_kept | fail_if_no_progress with_reducible apply Kept.upd

theorem takePool_kept {ps : List Instr} (s : State) (n : Nat) (hK : Kept ps s) : Kept ps (takePool s n).1 := by
  unfold takePool
  repeat' first | with_reducible assumption | with_reducible apply updStack_kept

theorem poolSlot_kept {ps : List Instr} (s : State) (p quad : Nat) (hK : Kept ps s) : KeptOP ps (poolSlot s p quad) := by
  unfold poolSlot
  repeat' first
      | with_reducible assumption | with_reducible refine KeptOP.some ?_ | with_reducible apply dropCopy_kept
      | with_reducible apply takePool_kept | with_reducible apply KeptOP.map
      | (extract_lets +onlyGivenNames xl
         (refine Kept.cutFunFst (q := ps) xl ?_ ?_; (on_goal 1 => (subst xl; intros; beta_reduce)); (on_goal 2 => (try clear_value xl; rename' xl => s; intro hG))))
      | split

theorem takePools_kept {ps : List Instr} (s : State) (n : Nat) (y0 : Nat) (hK : Kept ps s) : Kept ps (takePools s n y0).1 := by
  induction y0 generalizing s with
  | zero =>
    unfold takePools
    repeat' first | with_reducible assumption | with_reducible apply takePool_kept
  | succ k ih =>
    unfold takePools
    repeat' first | with_reducible apply ih | with_reducible assumption | with_reducible apply takePool_kept

theorem releaseReqs_kept {ps : List Instr} (s : State) (t : TaskId) (hK : Kept ps s) : Kept ps (releaseReqs s t) := by
  unfold releaseReqs
  repeat' first
      | with_reducible assumption | (with_reducible intro) | with_reducible apply creditBales_kept
      | with_reducible apply updStack_kept | with_reducible apply foldl_kept | fail_if_no_progress with_reducible apply Kept.upd

theorem unpinCopy_kept {ps : List Instr} (s : State) (t : TaskId) (c : BaleCopy) (hK : Kept ps s) : Kept ps (unpinCopy s t c) := by
  unfold unpinCopy
  repeat' first
      | with_reducible assumption | with_reducible apply updQuad_kept | with_reducible apply dropCopy_kept
      | fail_if_no_progress with_reducible apply Kept.upd
      | (extract_lets +onlyGivenNames xl
         first
           | (refine Kept.cut (q := ps) xl ?_ ?_; (on_goal 1 => subst xl); (on_goal 2 => (try clear_value xl; rename' xl => s; intro h)))
           | (clear_value xl; rename' xl => v))
      | split

theorem unpinTask_kept {ps : List Instr} (s : State) (t : TaskId) (hK : Kept ps s) : Kept ps (unpinTask s t) := by
  unfold unpinTask
  repeat' first
      | with_reducible assumption | (with_reducible intro) | with_reducible apply unpinCopy_kept
      | with_reducible apply foldl_kept | fail_if_no_progress with_reducible apply Kept.upd

theorem freeScratch_kept {ps : List Instr} (s : State) (acc n : Nat) (hK : Kept ps s) : Kept ps (freeScratch s acc n) := by
  unfold freeScratch
  repeat' first
      | with_reducible assumption | with_reducible apply modGraph_kept | with_reducible apply creditBales_kept
      | with_reducible apply freeHomes'_kept | split

theorem rqWrite_kept {ps : List Instr} (s : State) (ctl sq : Nat) (q : Rq) (r : Rec)
    (hK : Kept ps s) : Kept ps (rqWrite s ctl sq q r) := by
  unfold rqWrite
  repeat' first
      | with_reducible assumption | with_reducible apply traceDecide_kept | with_reducible apply writeEntry_kept
      | with_reducible apply updCtl_kept

theorem postRec_kept {ps : List Instr} (s : State) (ctl sq : Nat) (r : Rec) (hK : Kept ps s) : Kept ps (postRec s ctl sq r).1 := by
  unfold postRec
  repeat' first | with_reducible assumption | with_reducible apply rqWrite_kept | with_reducible apply updCtl_kept | split

theorem postTaskRec_kept {ps : List Instr} (s : State) (acc idx : Nat) (hK : Kept ps s) : Kept ps (postTaskRec s acc idx) := by
  unfold postTaskRec
  repeat' first
      | with_reducible assumption | with_reducible apply postRec_kept | with_reducible apply modGraph_kept
      | (extract_lets +onlyGivenNames xl
         first
           | (refine Kept.cutFst (q := ps) xl ?_ ?_; (on_goal 1 => subst xl); (on_goal 2 => (try clear_value xl; rename' xl => s; intro h)))
           | (clear_value xl; rename' xl => v))
      | split

theorem tryGraph_kept {ps : List Instr} (s : State) (acc : Nat) (hK : Kept ps s) : Kept ps (tryGraph s acc) := by
  unfold tryGraph
  repeat' first
      | with_reducible assumption | (with_reducible intro) | with_reducible apply complete_kept
      | with_reducible apply freeScratch_kept | with_reducible apply foldl_kept
      | fail_if_no_progress with_reducible apply Kept.upd
      | (extract_lets +onlyGivenNames xl
         first
           | (refine Kept.cut (q := ps) xl ?_ ?_; (on_goal 1 => subst xl); (on_goal 2 => (try clear_value xl; rename' xl => s; intro h)))
           | (clear_value xl; rename' xl => v))
      | split

theorem owePuts_kept {ps : List Instr} (s : State) (l : List Rec) (st : Nat) (hK : Kept ps s) : Kept ps (owePuts s l st) := by
  unfold owePuts
  repeat' first | with_reducible assumption | fail_if_no_progress with_reducible apply Kept.upd

theorem drainRq_kept {ps : List Instr} (s : State) (ctl sq : Nat) (y0 : Nat) (hK : Kept ps s) : Kept ps (drainRq s ctl sq y0) := by
  induction y0 generalizing s with
  | zero =>
    unfold drainRq
    repeat' first
        | with_reducible assumption | with_reducible apply owePuts_kept | with_reducible apply rqWrite_kept
        | with_reducible apply modGraph_kept | with_reducible apply tryGraph_kept
        | (extract_lets +onlyGivenNames xl
           first
             | (refine Kept.cut (q := ps) xl ?_ ?_; (on_goal 1 => subst xl); (on_goal 2 => (try clear_value xl; rename' xl => s; intro h)))
             | (clear_value xl; rename' xl => v))
        | split
  | succ k ih =>
    unfold drainRq
    repeat' first
        | with_reducible apply ih | with_reducible assumption | with_reducible apply owePuts_kept
        | with_reducible apply rqWrite_kept | with_reducible apply modGraph_kept | with_reducible apply tryGraph_kept
        | (extract_lets +onlyGivenNames xl
           first
             | (refine Kept.cut (q := ps) xl ?_ ?_; (on_goal 1 => subst xl); (on_goal 2 => (try clear_value xl; rename' xl => s; intro h)))
             | (clear_value xl; rename' xl => v))
        | split

theorem afterComplete_kept {ps : List Instr} (s : State) (t : TaskId) (hK : Kept ps s) : Kept ps (afterComplete s t) := by
  unfold afterComplete
  repeat' first
      | with_reducible assumption | (with_reducible intro) | with_reducible apply modGraph_kept
      | with_reducible apply postTaskRec_kept | with_reducible apply tryGraph_kept | with_reducible apply foldl_kept
      | fail_if_no_progress with_reducible apply Kept.upd
      | (extract_lets +onlyGivenNames xl
         first
           | (refine Kept.cut (q := ps) xl ?_ ?_; (on_goal 1 => subst xl); (on_goal 2 => (try clear_value xl; rename' xl => s; intro h)))
           | (clear_value xl; rename' xl => v))
      | split

theorem freeArrays_kept {ps : List Instr} (s : State) (t : TaskId) (hK : Kept ps s) : Kept ps (freeArrays s t) := by
  unfold freeArrays
  repeat' first | with_reducible assumption | fail_if_no_progress with_reducible apply Kept.upd

theorem leaveUnit_kept {ps : List Instr} (s : State) (t : TaskId) (hK : Kept ps s) : Kept ps (leaveUnit s t) := by
  unfold leaveUnit
  repeat' first
      | with_reducible assumption | with_reducible apply releaseReqs_kept | with_reducible apply unpinTask_kept
      | fail_if_no_progress with_reducible apply Kept.upd

theorem trimVersions_kept {ps : List Instr} (s : State) (x : Index) (hK : Kept ps s) : Kept ps (trimVersions s x) := by
  unfold trimVersions
  repeat' first
      | with_reducible assumption | fail_if_no_progress with_reducible apply Kept.upd
      | (extract_lets +onlyGivenNames xl
         (clear_value xl; rename' xl => v))
      | split

theorem releaseIndex_kept {ps : List Instr} (s : State) (p num : Nat) (hK : Kept ps s) : Kept ps (releaseIndex s p num) := by
  unfold releaseIndex
  repeat' first
      | with_reducible assumption | with_reducible apply trimVersions_kept | with_reducible apply creditBales_kept
      | with_reducible apply freeHomes'_kept | with_reducible apply updObj_kept
      | (extract_lets +onlyGivenNames xl
         first
           | (refine Kept.cut (q := ps) xl ?_ ?_; (on_goal 1 => subst xl); (on_goal 2 => (try clear_value xl; rename' xl => s; intro h)))
           | (clear_value xl; rename' xl => v))
      | split

theorem releaseEpochs_kept {ps : List Instr} (s : State) (p : Nat) (hK : Kept ps s) : Kept ps (releaseEpochs s p) := by
  unfold releaseEpochs
  repeat' first
      | with_reducible assumption | (with_reducible intro) | with_reducible apply releaseIndex_kept
      | with_reducible apply foldl_kept

theorem beginWriteBack_kept {ps : List Instr} (s : State) (t : TaskId) (hK : Kept ps s) : Kept ps (beginWriteBack s t) := by
  unfold beginWriteBack
  repeat' first | with_reducible assumption | fail_if_no_progress with_reducible apply Kept.upd

theorem finishTask_kept {ps : List Instr} (s : State) (t : TaskId) (status result : Nat)
    (hK : Kept ps s) : Kept ps (finishTask s t status result) := by
  unfold finishTask
  repeat' first
      | with_reducible assumption | with_reducible apply beginWriteBack_kept | with_reducible apply modTask_kept
      | with_reducible apply freeArrays_kept

theorem dropBegun_kept {ps : List Instr} (s : State) (p : Nat) (t : TaskId) (hK : Kept ps s) : Kept ps (dropBegun s p t) := by
  unfold dropBegun
  repeat' first | with_reducible assumption | with_reducible apply updPen_kept

theorem endTask_kept {ps : List Instr} (s : State) (t : TaskId) (status : Nat) (used : Charge)
    (hK : Kept ps s) : Kept ps (endTask s t status used) := by
  unfold endTask
  repeat' first
      | with_reducible assumption | with_reducible apply dropBegun_kept | with_reducible apply leaveUnit_kept
      | with_reducible apply settlePen_kept | with_reducible apply modTask_kept | with_reducible apply releaseEpochs_kept
      | with_reducible apply afterComplete_kept | fail_if_no_progress with_reducible apply Kept.upd
      | (extract_lets +onlyGivenNames xl
         first
           | (refine Kept.cut (q := ps) xl ?_ ?_; (on_goal 1 => subst xl); (on_goal 2 => (try clear_value xl; rename' xl => s; intro h)))
           | (clear_value xl; rename' xl => v))
      | split

theorem completeTask_kept {ps : List Instr} (s : State) (t : TaskId) (cycles : Nat)
    (hK : Kept ps s) : Kept ps (completeTask s t cycles) := by
  unfold completeTask
  repeat' first | with_reducible assumption | with_reducible apply endTask_kept | split

theorem failTask_kept {ps : List Instr} (s : State) (t : TaskId) (status : Nat)
    (hK : Kept ps s) : Kept ps (failTask s t status) := by
  unfold failTask
  repeat' first
      | with_reducible assumption | with_reducible apply finishTask_kept | with_reducible apply drawTag_kept
      | with_reducible apply endTask_kept
      | (extract_lets +onlyGivenNames xl
         (refine Kept.cutSnd (q := ps) xl ?_ ?_; (on_goal 1 => subst xl); (on_goal 2 => (try clear_value xl; rename' xl => s; intro h))))
      | split

theorem orderedDone_kept {ps : List Instr} (s : State) (c : Cmd) (status : Nat)
    (hK : Kept ps s) : Kept ps (orderedDone s c status) := by
  unfold orderedDone
  repeat' first
      | with_reducible assumption | (with_reducible intro) | with_reducible apply updCtl_kept
      | with_reducible apply complete1_kept | with_reducible apply foldl_kept
      | (extract_lets +onlyGivenNames xl
         (refine Kept.cut (q := ps) xl ?_ ?_; (on_goal 1 => subst xl); (on_goal 2 => (try clear_value xl; rename' xl => s; intro h))))
      | split

theorem ownerDone_kept {ps : List Instr} (s : State) (o : Owner) (status : Nat)
    (hK : Kept ps s) : Kept ps (ownerDone s o status) := by
  unfold ownerDone
  repeat' first
      | with_reducible assumption | with_reducible apply orderedDone_kept | with_reducible apply complete_kept
      | with_reducible apply finishTask_kept | split

theorem ownerStep_kept {ps : List Instr} (s : State) (o : Owner) (unit status : Nat)
    (hK : Kept ps s) : Kept ps (ownerStep s o unit status) := by
  unfold ownerStep
  repeat' first
      | with_reducible assumption | with_reducible apply ownerDone_kept | fail_if_no_progress with_reducible apply Kept.upd
      | (extract_lets +onlyGivenNames xl
         first
           | (clear_value xl; rename' xl => v)
           | subst xl)
      | split

theorem kickChan_kept {ps : List Instr} (s : State) (c : Nat) (hK : Kept ps s) : Kept ps (kickChan s c) := by
  unfold kickChan
  repeat' first | with_reducible assumption | with_reducible apply updChan_kept

theorem dropBuffered_kept {ps : List Instr} (s : State) (lba : Nat) (hK : Kept ps s) : Kept ps (dropBuffered s lba) := by
  unfold dropBuffered
  repeat' first | with_reducible assumption | fail_if_no_progress with_reducible apply Kept.upd

theorem staleCopies_kept {ps : List Instr} (s : State) (lba : Nat) (hK : Kept ps s) : Kept ps (staleCopies s lba) := by
  unfold staleCopies
  repeat' first
      | with_reducible assumption | (with_reducible intro) | with_reducible apply dropCopy_kept
      | with_reducible apply foldl_kept | fail_if_no_progress with_reducible apply Kept.upd

theorem bufferUnit_kept {ps : List Instr} (s : State) (o : Owner) (w : UnitWrite)
    (hK : Kept ps s) : Kept ps (bufferUnit s o w) := by
  unfold bufferUnit
  repeat' first
      | with_reducible assumption | with_reducible apply staleCopies_kept | with_reducible apply dropBuffered_kept
      | fail_if_no_progress with_reducible apply Kept.upd

theorem bufferUnits_kept {ps : List Instr} (s : State) (o : Owner) (y0 : List UnitWrite)
    (hK : Kept ps s) : Kept ps (bufferUnits s o y0).1 := by
  induction y0 generalizing s with
  | nil =>
    unfold bufferUnits
    repeat' first
        | with_reducible assumption | with_reducible apply dropBuffered_kept | with_reducible apply bufferUnit_kept
        | (extract_lets +onlyGivenNames xl
           (refine Kept.cut (q := ps) xl ?_ ?_; (on_goal 1 => subst xl); (on_goal 2 => (try clear_value xl; rename' xl => s; intro h))))
        | split
  | cons y r ih =>
    unfold bufferUnits
    repeat' first
        | with_reducible apply ih | with_reducible assumption | with_reducible apply dropBuffered_kept
        | with_reducible apply bufferUnit_kept
        | (extract_lets +onlyGivenNames xl
           (refine Kept.cut (q := ps) xl ?_ ?_; (on_goal 1 => subst xl); (on_goal 2 => (try clear_value xl; rename' xl => s; intro h))))
        | split

theorem kindleUnit_kept {ps : List Instr} (s : State) (o : Owner) (w : UnitWrite)
    (hK : Kept ps s) : Kept ps (kindleUnit s o w) := by
  unfold kindleUnit
  repeat' first
      | with_reducible assumption | with_reducible apply staleCopies_kept | with_reducible apply dropBuffered_kept
      | with_reducible apply ownerStep_kept | with_reducible apply kickChan_kept | with_reducible apply updChan_kept
      | (extract_lets +onlyGivenNames xl
         first
           | (refine Kept.cut (q := ps) xl ?_ ?_; (on_goal 1 => subst xl); (on_goal 2 => (try clear_value xl; rename' xl => s; intro h)))
           | (clear_value xl; rename' xl => v))
      | split

theorem writeUnits_kept {ps : List Instr} (s : State) (o : Owner) (fua : Bool) (ws : List UnitWrite)
    (hK : Kept ps s) : Kept ps (writeUnits s o fua ws) := by
  unfold writeUnits
  repeat' first
      | with_reducible assumption | (with_reducible intro) | with_reducible apply ownerDone_kept
      | with_reducible apply bufferUnits_kept | with_reducible apply wake_kept | with_reducible apply kindleUnit_kept
      | with_reducible apply foldl_kept | fail_if_no_progress with_reducible apply Kept.upd
      | (extract_lets +onlyGivenNames xl
         first
           | (refine Kept.cut (q := ps) xl ?_ ?_; (on_goal 1 => subst xl); (on_goal 2 => (try clear_value xl; rename' xl => s; intro h)))
           | (refine Kept.cutFst (q := ps) xl ?_ ?_; (on_goal 1 => subst xl); (on_goal 2 => (try clear_value xl; rename' xl => s; intro h)))
           | (clear_value xl; rename' xl => v))
      | split

theorem admitWaiting_kept {ps : List Instr} (s : State) (y0 : Nat) (hK : Kept ps s) : Kept ps (admitWaiting s y0) := by
  induction y0 generalizing s with
  | zero =>
    unfold admitWaiting
    repeat' first
        | with_reducible assumption | with_reducible apply bufferUnits_kept | with_reducible apply ownerDone_kept
        | fail_if_no_progress with_reducible apply Kept.upd
        | (extract_lets +onlyGivenNames xl
           first
             | (refine Kept.cut (q := ps) xl ?_ ?_; (on_goal 1 => subst xl); (on_goal 2 => (try clear_value xl; rename' xl => s; intro h)))
             | (refine Kept.cutFst (q := ps) xl ?_ ?_; (on_goal 1 => subst xl); (on_goal 2 => (try clear_value xl; rename' xl => s; intro h)))
             | (clear_value xl; rename' xl => v))
        | split
  | succ k ih =>
    unfold admitWaiting
    repeat' first
        | with_reducible apply ih | with_reducible assumption | with_reducible apply bufferUnits_kept
        | with_reducible apply ownerDone_kept | fail_if_no_progress with_reducible apply Kept.upd
        | (extract_lets +onlyGivenNames xl
           first
             | (refine Kept.cut (q := ps) xl ?_ ?_; (on_goal 1 => subst xl); (on_goal 2 => (try clear_value xl; rename' xl => s; intro h)))
             | (refine Kept.cutFst (q := ps) xl ?_ ?_; (on_goal 1 => subst xl); (on_goal 2 => (try clear_value xl; rename' xl => s; intro h)))
             | (clear_value xl; rename' xl => v))
        | split

theorem trimUnit_kept {ps : List Instr} (s : State) (lba : Nat) (hK : Kept ps s) : Kept ps (trimUnit s lba) := by
  unfold trimUnit
  repeat' first
      | with_reducible assumption | with_reducible apply staleCopies_kept | with_reducible apply dropBuffered_kept
      | with_reducible apply updChan_kept
      | (extract_lets +onlyGivenNames xl
         (refine Kept.cut (q := ps) xl ?_ ?_; (on_goal 1 => subst xl); (on_goal 2 => (try clear_value xl; rename' xl => s; intro h))))
      | split

theorem checkReadOnly_kept {ps : List Instr} (s : State) (c : Nat) (hK : Kept ps s) : Kept ps (checkReadOnly s c) := by
  unfold checkReadOnly
  repeat' first
      | with_reducible assumption | with_reducible apply postEvent_kept | with_reducible apply updChan_kept
      | (extract_lets +onlyGivenNames xl
         (clear_value xl; rename' xl => v))
      | split

theorem programPage_kept {ps : List Instr} (s : State) (c space kind : Nat) (units : List (Nat × List Host.Cell))
    (hK : Kept ps s) : KeptO ps (programPage s c space kind units) := by
  unfold programPage
  repeat' first
      | with_reducible assumption | with_reducible exact KeptO.none | with_reducible refine KeptO.some ?_
      | with_reducible apply updChan_kept
      | (extract_lets +onlyGivenNames xl
         (clear_value xl; rename' xl => v))
      | split

theorem programNow_kept {ps : List Instr} (s : State) (c : Nat) (units : List (Nat × List Host.Cell))
    (hK : Kept ps s) : KeptO ps (programNow s c units) := by
  unfold programNow
  repeat' first | with_reducible assumption | with_reducible apply programPage_kept

theorem programBulk_kept {ps : List Instr} (s : State) (c space : Nat) (pages : List (List (Nat × List Host.Cell)))
    (hK : Kept ps s) : KeptO ps (programBulk s c space pages) := by
  unfold programBulk
  repeat' first
      | with_reducible assumption | with_reducible exact KeptO.none | with_reducible refine KeptO.some ?_
      | with_reducible apply updChan_kept
      | (extract_lets +onlyGivenNames xl
         (clear_value xl; rename' xl => v))
      | split

theorem formNamespace_kept {ps : List Instr} (s : State) (hK : Kept ps s) : Kept ps (formNamespace s) := by
  unfold formNamespace
  repeat' first | with_reducible assumption | fail_if_no_progress with_reducible apply Kept.upd

theorem mendSram_kept {ps : List Instr} (s : State) (a n : Nat) (hK : Kept ps s) : Kept ps (mendSram s a n) := by
  unfold mendSram
  repeat' first | with_reducible assumption | with_reducible apply updTile_kept | split

theorem recOp_kept {ps : List Instr} (s : State) (stream p : Nat) (op : OpRef) (n : Nat)
    (hK : Kept ps s) : Kept ps (recOp s stream p op n) := by
  unfold recOp
  repeat' first
      | with_reducible assumption | (with_reducible intro) | with_reducible apply hostReadRec_kept
      | with_reducible apply foldl_kept | split

theorem writeSeg_kept {ps : List Instr} (s : State) (t : Option TaskId) (agent : Nat) (x : Seg) (bs : List Byte)
    (hK : Kept ps s) : Kept ps (writeSeg s t agent x bs) := by
  unfold writeSeg
  repeat' first
      | with_reducible assumption | (with_reducible intro) | with_reducible apply hostWrite_kept
      | with_reducible apply agentWrite_kept | with_reducible apply mendSram_kept | with_reducible apply programNow_kept
      | with_reducible apply staleCopies_kept | with_reducible apply dropBuffered_kept | with_reducible apply Kept.getD
      | ((fail_if_success with_reducible apply Kept.upd); with_reducible apply Kept.updMem) | with_reducible apply Mem.write_wf
      | (extract_lets +onlyGivenNames xl
         (clear_value xl; rename' xl => v))
      | split

theorem writeSegs_kept {ps : List Instr} (s : State) (t : Option TaskId) (agent : Nat) (y0 : List (Seg × Nat)) (y1 : List Byte)
    (hK : Kept ps s) : Kept ps (writeSegs s t agent y0 y1) := by
  induction y0 generalizing s y1 with
  | nil =>
    unfold writeSegs
    repeat' first | with_reducible assumption | with_reducible apply writeSeg_kept
  | cons y r ih =>
    unfold writeSegs
    repeat' first | with_reducible apply ih | with_reducible assumption | with_reducible apply writeSeg_kept

theorem writeTask_kept {ps : List Instr} (s : State) (t : TaskId) (p : Nat) (g : Option Graph) (op : OpRef) (off : Nat)
    (bs : List Byte) (hK : Kept ps s) : Kept ps (writeTask s t p g op off bs) := by
  unfold writeTask
  repeat' first | with_reducible assumption | with_reducible apply writeSegs_kept

theorem writeHome_kept {ps : List Instr} (s : State) (p : Nat) (g : Option Graph) (op : OpRef) (off : Nat) (bs : List Byte)
    (hK : Kept ps s) : Kept ps (writeHome s p g op off bs) := by
  unfold writeHome
  repeat' first | with_reducible assumption | with_reducible apply writeSegs_kept

theorem smudgeSeg_kept {ps : List Instr} (s : State) (x : Seg × Nat) (hK : Kept ps s) : Kept ps (smudgeSeg s x) := by
  unfold smudgeSeg
  repeat' first
      | with_reducible assumption | (with_reducible intro) | with_reducible apply drawTag_kept
      | with_reducible apply writeSeg_kept | ((fail_if_success with_reducible apply Kept.upd); with_reducible apply Kept.updMem)
      | with_reducible apply Mem.smudge_wf | with_reducible refine (Kept.inv (q := ps) ?_).mem
      | with_reducible refine (Kept.inv (q := ps) ?_).sram | with_reducible refine (Kept.inv (q := ps) ?_).host
      | (extract_lets +onlyGivenNames xl
         first
           | (refine Kept.cut (q := ps) xl ?_ ?_; (on_goal 1 => subst xl); (on_goal 2 => (try clear_value xl; rename' xl => s; intro h)))
           | (refine Kept.cutSnd (q := ps) xl ?_ ?_; (on_goal 1 => subst xl); (on_goal 2 => (try clear_value xl; rename' xl => s; intro h))))
      | split

theorem modCopy_kept {ps : List Instr} (s : State) (n : Nat) (f : BaleCopy → BaleCopy)
    (hK : Kept ps s) : Kept ps (modCopy s n f) := by
  unfold modCopy
  repeat' first | with_reducible assumption | fail_if_no_progress with_reducible apply Kept.upd

theorem noteRun_kept {ps : List Instr} (s : State) (t : TaskId) (op : OpRef) (x : Nat × Nat × Seg × Option BaleCopy)
    (hK : Kept ps s) : Kept ps (noteRun s t op x) := by
  unfold noteRun
  repeat' first | with_reducible assumption | with_reducible apply modCopy_kept | split

theorem smudgeOp_kept {ps : List Instr} (s : State) (p : Nat) (g : Option Graph) (op : OpRef) (off n : Nat)
    (hK : Kept ps s) : Kept ps (smudgeOp s p g op off n) := by
  unfold smudgeOp
  repeat' first
      | with_reducible assumption | (with_reducible intro) | with_reducible apply smudgeSeg_kept
      | with_reducible apply noteRun_kept | with_reducible apply foldl_kept
      | (extract_lets +onlyGivenNames xl
         (refine Kept.cut (q := ps) xl ?_ ?_; (on_goal 1 => subst xl); (on_goal 2 => (try clear_value xl; rename' xl => s; intro h))))
      | split

theorem startFill_kept {ps : List Instr} (s : State) (p quad : Nat) (b : BaleId) (t : TaskId)
    (hK : Kept ps s) : KeptO ps (startFill s p quad b t) := by
  unfold startFill
  repeat' first
      | with_reducible assumption | with_reducible exact KeptO.none | with_reducible refine KeptO.some ?_
      | with_reducible apply modCopy_kept | with_reducible refine KeptOP.get (poolSlot_kept _ _ _ ?_) (by assumption)
      | fail_if_no_progress with_reducible apply Kept.upd | split

theorem pinBale_kept {ps : List Instr} (s : State) (p quad : Nat) (t : TaskId) (b : BaleId)
    (hK : Kept ps s) : Kept ps (pinBale s p quad t b) := by
  unfold pinBale
  repeat' first
      | with_reducible assumption | with_reducible apply modCopy_kept | with_reducible apply modTask_kept
      | with_reducible apply startFill_kept | with_reducible apply Kept.getD | split

theorem fetchAhead_kept {ps : List Instr} (s : State) (hK : Kept ps s) : Kept ps (fetchAhead s) := by
  unfold fetchAhead
  repeat' first
      | with_reducible assumption | (with_reducible intro) | with_reducible apply pinBale_kept | with_reducible apply foldl_kept

theorem fillSlot_kept {ps : List Instr} (s : State) (c : BaleCopy) (cells : List Host.Cell)
    (hK : Kept ps s) : Kept ps (fillSlot s c cells) := by
  unfold fillSlot
  repeat' first
      | with_reducible assumption | (with_reducible intro)
      | ((fail_if_success with_reducible apply Kept.upd); with_reducible apply Kept.updMem) | with_reducible apply Mem.paste_wf

theorem writeOp_kept {ps : List Instr} (s : State) (t : TaskId) (p quad : Nat) (g : Option Graph) (op : OpRef) (off : Nat)
    (bs : List Byte) (hK : Kept ps s) : Kept ps (writeOp s t p quad g op off bs) := by
  unfold writeOp
  repeat' first
      | with_reducible assumption | (with_reducible intro) | with_reducible apply modTask_kept
      | with_reducible apply noteRun_kept | with_reducible apply writeSeg_kept | with_reducible apply foldl_kept

theorem writeBackRun_kept {ps : List Instr} (s : State) (b : BaleId) (off : Nat) (bs : List Byte)
    (hK : Kept ps s) : Kept ps (writeBackRun s b off bs) := by
  unfold writeBackRun
  repeat' first
      | with_reducible assumption | (with_reducible intro) | with_reducible apply hostWrite_kept
      | with_reducible apply writeSeg_kept | with_reducible apply foldl_kept | split

theorem smudgeRun_kept {ps : List Instr} (s : State) (b : BaleId) (off n : Nat)
    (hK : Kept ps s) : Kept ps (smudgeRun s b off n) := by
  unfold smudgeRun
  repeat' first
      | with_reducible assumption | (with_reducible intro) | with_reducible apply drawTag_kept
      | with_reducible apply writeBackRun_kept
      | ((fail_if_success with_reducible apply Kept.upd); with_reducible apply Kept.updMem) | with_reducible apply Mem.smudge_wf
      | with_reducible refine (Kept.inv (q := ps) ?_).host
      | (extract_lets +onlyGivenNames xl
         first
           | (refine Kept.cut (q := ps) xl ?_ ?_; (on_goal 1 => subst xl); (on_goal 2 => (try clear_value xl; rename' xl => s; intro h)))
           | (refine Kept.cutSnd (q := ps) xl ?_ ?_; (on_goal 1 => subst xl); (on_goal 2 => (try clear_value xl; rename' xl => s; intro h))))
      | split

theorem charge_kept {ps : List Instr} (s : State) (t : TaskId) (bytes ops : Nat)
    (hK : Kept ps s) : Kept ps (charge s t bytes ops) := by
  unfold charge
  repeat' first | with_reducible assumption | with_reducible apply modTask_kept

theorem chargeFill_kept {ps : List Instr} (s : State) (c : BaleCopy) (hK : Kept ps s) : Kept ps (chargeFill s c) := by
  unfold chargeFill
  repeat' first | with_reducible assumption | with_reducible apply charge_kept | split

theorem writeBackOne_kept {ps : List Instr} (s : State) (c : BaleCopy) (x : TaskId × Nat × Nat)
    (hK : Kept ps s) : Kept ps (writeBackOne s c x) := by
  unfold writeBackOne
  repeat' first
      | with_reducible assumption | with_reducible apply charge_kept | with_reducible apply modTask_kept
      | with_reducible apply smudgeRun_kept | with_reducible apply writeBackRun_kept
      | (extract_lets +onlyGivenNames xl
         first
           | (refine Kept.cut (q := ps) xl ?_ ?_; (on_goal 1 => subst xl); (on_goal 2 => (try clear_value xl; rename' xl => s; intro h)))
           | (clear_value xl; rename' xl => v))
      | split

theorem writeBack_kept {ps : List Instr} (s : State) (c : BaleCopy) (hK : Kept ps s) : Kept ps (writeBack s c) := by
  unfold writeBack
  repeat' first
      | with_reducible assumption | (with_reducible intro) | with_reducible apply modCopy_kept
      | with_reducible apply writeBackOne_kept | with_reducible apply foldl_kept

theorem syncIndex_kept {ps : List Instr} (s : State) (p num : Nat) (hK : Kept ps s) : Kept ps (syncIndex s p num) := by
  unfold syncIndex
  repeat' first
      | with_reducible assumption | (with_reducible intro) | with_reducible apply agentWrite_kept
      | with_reducible apply foldl_kept | split

theorem orphanAll_kept {ps : List Instr} (p : Cmd → Bool) (s : State) (hK : Kept ps s) : Kept ps (orphanAll p s) := by
  unfold orphanAll
  repeat' first | with_reducible assumption | fail_if_no_progress with_reducible apply Kept.upd

theorem dropRecords_kept {ps : List Instr} (s : State) (p : Cmd → Bool) (hK : Kept ps s) : Kept ps (dropRecords s p) := by
  unfold dropRecords
  repeat' first
      | with_reducible assumption | (with_reducible intro) | with_reducible apply tryGraph_kept
      | with_reducible apply modGraph_kept | with_reducible apply foldl_kept

theorem performWaiting_kept {ps : List Instr} (s : State) (q : Sq) (hK : Kept ps s) : Kept ps (performWaiting s q) := by
  unfold performWaiting
  repeat' first
      | with_reducible assumption | (with_reducible intro) | with_reducible apply writeUnits_kept
      | with_reducible apply foldl_kept | split

theorem deleteSq_kept {ps : List Instr} (s : State) (ctl qid : Nat) (hK : Kept ps s) : Kept ps (deleteSq s ctl qid) := by
  unfold deleteSq
  repeat' first
      | with_reducible assumption | with_reducible apply drawTag_kept | with_reducible apply performWaiting_kept
      | with_reducible apply owePuts_kept | with_reducible apply updCtl_kept | with_reducible apply wake_kept
      | with_reducible apply orphanAll_kept | with_reducible apply dropRecords_kept

theorem resetCtl_kept {ps : List Instr} (s : State) (ctl : Nat) (hK : Kept ps s) : Kept ps (resetCtl s ctl) := by
  unfold resetCtl
  repeat' first
      | with_reducible assumption | (with_reducible intro) | with_reducible apply drawTag_kept
      | with_reducible apply owePuts_kept | with_reducible apply performWaiting_kept | with_reducible apply updCtl_kept
      | with_reducible apply wake_kept | with_reducible apply orphanAll_kept | with_reducible apply dropRecords_kept
      | with_reducible apply foldl_kept
      | (extract_lets +onlyGivenNames xl
         first
           | (refine Kept.cut (q := ps) xl ?_ ?_; (on_goal 1 => subst xl); (on_goal 2 => (try clear_value xl; rename' xl => s; intro h)))
           | (refine Kept.cutSnd (q := ps) xl ?_ ?_; (on_goal 1 => subst xl); (on_goal 2 => (try clear_value xl; rename' xl => s; intro h)))
           | (clear_value xl; rename' xl => v))
      | split

theorem foldSmudge_wf (l : List Nat) (n : Nat → Nat) (tag : Nat) (m : Mem) (h : m.wf) :
    (l.foldl (fun m a => m.smudge a (n a) tag) m).wf := by
  induction l generalizing m with
  | nil => exact h
  | cons a r ih => exact ih _ (Mem.smudge_wf m a (n a) tag h)

theorem wildPages_kept {ps : List Instr} (s : State) (prp : List Nat) (hK : Kept ps s) : Kept ps (wildPages s prp) := by
  unfold wildPages
  split
  · exact hK
  · exact Kept.updMem hK id id (foldSmudge_wf prp _ s.nfree _)

theorem prpWrite_kept {ps : List Instr} (s : State) (prp : List Nat) (bs : List Byte)
    (hK : Kept ps s) : Kept ps (prpWrite s prp bs) := by
  unfold prpWrite
  repeat' first
      | with_reducible assumption | (with_reducible intro) | with_reducible apply hostWrite_kept | with_reducible apply wildPages_kept
      | with_reducible apply foldl_kept | split

theorem pageRec_kept {ps : List Instr} (fn : Nat) (y0 : List Nat) (y1 : Nat) (y2 : State)
    (hK : Kept ps y2) : Kept ps (pageRec fn y0 y1 y2) := by
  induction y0 generalizing y2 y1 with
  | nil => exact hK
  | cons y r ih =>
    unfold pageRec
    repeat' first | with_reducible apply ih | with_reducible assumption | with_reducible apply hostReadRec_kept | split

theorem prpRec_kept {ps : List Instr} (fn : Nat) (y0 : List Nat) (y1 : Nat) (y2 : State)
    (hK : Kept ps y2) : Kept ps (prpRec fn y0 y1 y2) := by
  unfold prpRec
  split
  · exact pageRec_kept fn y0 y1 y2 hK
  · exact Kept.upd hK

theorem chargeIo_kept {ps : List Instr} (s : State) (p : Nat) (stackB pages : Nat)
    (hK : Kept ps s) : Kept ps (chargeIo s p stackB pages) := by
  unfold chargeIo
  repeat' first | with_reducible assumption | with_reducible apply chargePen_kept

theorem startOrdered_kept {ps : List Instr} (s : State) (w : OrdWrite) (num : Nat)
    (hK : Kept ps s) : Kept ps (startOrdered s w num) := by
  unfold startOrdered
  repeat' first
      | with_reducible assumption | with_reducible apply updCtl_kept | with_reducible apply ownerDone_kept
      | with_reducible apply writeUnits_kept
      | (extract_lets +onlyGivenNames xl
         (refine Kept.cut (q := ps) xl ?_ ?_; (on_goal 1 => subst xl); (on_goal 2 => (try clear_value xl; rename' xl => s; intro h))))
      | split

theorem settleOrdered_kept {ps : List Instr} (s : State) (y0 : Nat) (hK : Kept ps s) : Kept ps (settleOrdered s y0) := by
  induction y0 generalizing s with
  | zero =>
    unfold settleOrdered
    repeat' first | with_reducible assumption | with_reducible apply updCtl_kept | with_reducible apply startOrdered_kept | split
  | succ k ih =>
    unfold settleOrdered
    repeat' first
        | with_reducible apply ih | with_reducible assumption | with_reducible apply updCtl_kept
        | with_reducible apply startOrdered_kept | split

theorem withKeyed_kept {ps : List Instr} (s : State) (c : Cmd) (b : KBlock) (code : Nat) (permit : Nat → Bool)
    (f : State → Nat → State) (hf : ∀ s x0, Kept ps s → Kept ps (f s x0))
    (hK : Kept ps s) : KeptR ps (withKeyed s c b code permit f) := by
  unfold withKeyed
  repeat' first
      | with_reducible assumption | (with_reducible intro) | with_reducible apply hf | with_reducible apply withCmd_kept
      | with_reducible apply complete_kept | with_reducible apply completeFree_kept | with_reducible apply traceRec_kept
      | with_reducible apply updPen_kept | fail_if_no_progress with_reducible apply Kept.upd
      | (extract_lets +onlyGivenNames xl
         first
           | (refine Kept.cut (q := ps) xl ?_ ?_; (on_goal 1 => subst xl); (on_goal 2 => (try clear_value xl; rename' xl => s; intro h)))
           | (clear_value xl; rename' xl => v))
      | split

theorem withKeyedArgs_kept {ps : List Instr} (s : State) (c : Cmd) (b : KBlock) (code : Nat) (permit : Nat → Bool) (ok : Bool)
    (f : State → Nat → State) (hf : ∀ s x0, Kept ps s → Kept ps (f s x0))
    (hK : Kept ps s) : KeptR ps (withKeyedArgs s c b code permit ok f) := by
  unfold withKeyedArgs
  repeat' first
      | with_reducible assumption | (with_reducible intro) | with_reducible apply withKeyed_kept
      | with_reducible apply completeFree_kept | split

end Sys2Proof.Machine
end

