-- ==== Sys2Proof/Laws/KeptMedia.lean ====
section
/-!
SUPPORT. The promise of Laws/Kept.lean, operation by operation: the NVMe surface and the media.
Each lemma says that the operation leaves the queue of waiting commands as it is and keeps the invariant.
-/

namespace Sys2Proof.Machine

theorem withIo_kept {ps : List Instr} (s : State) (c : Cmd) (f : State → Nat → State) (hf : ∀ s x0, Kept ps s → Kept ps
    (f s x0)) (hK : Kept ps s) : KeptR ps (withIo s c f) := by
  unfold withIo
  repeat' first
      | with_reducible assumption | (with_reducible intro) | with_reducible apply hf | with_reducible apply withCmd_kept
      | with_reducible apply complete_kept | split

theorem execFlush_kept {ps : List Instr} (c : Cmd) (s : State) (hK : Kept ps s) : KeptR ps (execFlush c s) := by
  unfold execFlush
  repeat' first
      | with_reducible assumption | (with_reducible intro) | with_reducible apply withCmd_kept
      | with_reducible apply complete_kept | with_reducible apply wake_kept | fail_if_no_progress with_reducible apply Kept.upd
      | (extract_lets +onlyGivenNames xl
         (clear_value xl; rename' xl => v))
      | split

theorem execWrite_kept {ps : List Instr} (c : Cmd) (slba blocks : Nat) (fua : Bool) (prp : List Nat) (s : State)
    (hK : Kept ps s) : KeptR ps (execWrite c slba blocks fua prp s) := by
  unfold execWrite
  repeat' first
      | with_reducible assumption | (with_reducible intro) | with_reducible refine KeptR.next ?_
      | with_reducible apply withIo_kept | with_reducible apply complete_kept | with_reducible apply prpRec_kept
      | with_reducible apply chargeIo_kept | with_reducible apply writeUnits_kept | with_reducible apply settleOrdered_kept
      | (extract_lets +onlyGivenNames xl
         first
           | (refine Kept.cut (q := ps) xl ?_ ?_; (on_goal 1 => subst xl); (on_goal 2 => (try clear_value xl; rename' xl => s; intro h)))
           | (clear_value xl; rename' xl => v))
      | split

theorem readUnits_kept {ps : List Instr} (s : State) (o : Owner) (put : State → Nat → List Byte → State) (l : List (Nat × Nat))
    (hput : ∀ s x0 x1, Kept ps s → Kept ps (put s x0 x1)) (hK : Kept ps s) : Kept ps (readUnits s o put l) := by
  unfold readUnits
  repeat' first
      | with_reducible assumption | (with_reducible intro) | with_reducible apply hput | with_reducible apply ownerStep_kept
      | with_reducible apply updChan_kept | with_reducible apply foldl_kept | fail_if_no_progress with_reducible apply Kept.upd
      | (extract_lets +onlyGivenNames xl
         (clear_value xl; rename' xl => v))
      | split

theorem putHost_kept {ps : List Instr} (s : State) (a : Nat) (bs : List Byte) (hK : Kept ps s) : Kept ps (putHost s a bs) := by
  unfold putHost
  repeat' first
      | with_reducible assumption | with_reducible apply hostWrite_kept
      | (extract_lets +onlyGivenNames xl
         first
           | (refine Kept.cut (q := ps) xl ?_ ?_; (on_goal 1 => subst xl); (on_goal 2 => (try clear_value xl; rename' xl => s; intro h)))
           | (clear_value xl; rename' xl => v))
      | split

theorem execRead_kept {ps : List Instr} (c : Cmd) (slba blocks : Nat) (prp : List Nat) (s : State)
    (hK : Kept ps s) : KeptR ps (execRead c slba blocks prp s) := by
  unfold execRead
  repeat' first
      | with_reducible assumption | (with_reducible intro) | with_reducible refine KeptR.next ?_
      | with_reducible apply completeFree_kept | with_reducible apply wildPages_kept
      | with_reducible apply withIo_kept | with_reducible apply complete_kept | with_reducible apply chargeIo_kept
      | with_reducible apply readUnits_kept | with_reducible apply putHost_kept
      | (extract_lets +onlyGivenNames xl
         first
           | (refine Kept.cut (q := ps) xl ?_ ?_; (on_goal 1 => subst xl); (on_goal 2 => (try clear_value xl; rename' xl => s; intro h)))
           | (clear_value xl; rename' xl => v))
      | split

theorem execDatasetManagement_kept {ps : List Instr} (c : Cmd) (ranges : List (Nat × Nat)) (deallocate : Bool) (s : State)
    (hK : Kept ps s) : KeptR ps (execDatasetManagement c ranges deallocate s) := by
  unfold execDatasetManagement
  repeat' first
      | with_reducible assumption | (with_reducible intro) | with_reducible refine KeptR.next ?_
      | with_reducible apply withIo_kept | with_reducible apply complete_kept | with_reducible apply trimUnit_kept
      | with_reducible apply foldl_kept | fail_if_no_progress with_reducible apply Kept.upd
      | (extract_lets +onlyGivenNames xl
         first
           | (refine Kept.cut (q := ps) xl ?_ ?_; (on_goal 1 => subst xl); (on_goal 2 => (try clear_value xl; rename' xl => s; intro h)))
           | (clear_value xl; rename' xl => v))
      | split

theorem execWriteBufferAdmit_kept {ps : List Instr} (s : State) (hK : Kept ps s) : KeptR ps (execWriteBufferAdmit s) := by
  unfold execWriteBufferAdmit
  repeat' first
      | with_reducible assumption | with_reducible refine KeptR.next ?_ | with_reducible apply admitWaiting_kept
      | with_reducible apply settleOrdered_kept

theorem execWriteBufferDrain_kept {ps : List Instr} (channel : Nat) (s : State)
    (hK : Kept ps s) : KeptR ps (execWriteBufferDrain channel s) := by
  unfold execWriteBufferDrain
  repeat' first
      | with_reducible assumption | with_reducible refine KeptR.next ?_ | with_reducible apply kickChan_kept
      | with_reducible apply updChan_kept | fail_if_no_progress with_reducible apply Kept.upd
      | (extract_lets +onlyGivenNames xl
         first
           | (refine Kept.cut (q := ps) xl ?_ ?_; (on_goal 1 => subst xl); (on_goal 2 => (try clear_value xl; rename' xl => s; intro h)))
           | (clear_value xl; rename' xl => v))
      | split

theorem putTask_kept {ps : List Instr} (t : TaskId) (s : State) (off : Nat) (bs : List Byte)
    (hK : Kept ps s) : Kept ps (putTask t s off bs) := by
  unfold putTask
  repeat' first | with_reducible assumption | with_reducible apply writeTask_kept | split

theorem putOwner_kept {ps : List Instr} (o : Owner) (s : State) (dest : Nat) (bs : List Byte)
    (hK : Kept ps s) : Kept ps (putOwner o s dest bs) := by
  unfold putOwner
  repeat' first | with_reducible assumption | with_reducible apply putHost_kept | with_reducible apply putTask_kept | split

theorem uncorrEvents_kept {ps : List Instr} (s : State) (channel n what : Nat)
    (hK : Kept ps s) : Kept ps (uncorrEvents s channel n what) := by
  unfold uncorrEvents
  repeat' first
      | with_reducible assumption | (with_reducible intro) | with_reducible apply updChan_kept
      | with_reducible apply postEvent_kept | with_reducible apply foldl_kept

theorem execPageReadDone_kept {ps : List Instr} (channel op : Nat) (decoded : List Bool) (s : State)
    (hK : Kept ps s) : KeptR ps (execPageReadDone channel op decoded s) := by
  unfold execPageReadDone
  repeat' first
      | with_reducible assumption | (with_reducible intro) | with_reducible refine KeptR.next ?_
      | with_reducible apply updChan_kept | with_reducible apply uncorrEvents_kept | with_reducible apply traceRec_kept
      | with_reducible apply ownerStep_kept | with_reducible apply putOwner_kept | with_reducible apply drawTag_kept
      | with_reducible apply modTask_kept | with_reducible apply foldl_kept
      | (extract_lets +onlyGivenNames xl
         first
           | (refine Kept.cut (q := ps) xl ?_ ?_; (on_goal 1 => subst xl); (on_goal 2 => (try clear_value xl; rename' xl => s; intro h)))
           | (refine Kept.cutSnd (q := ps) xl ?_ ?_; (on_goal 1 => subst xl); (on_goal 2 => (try clear_value xl; rename' xl => s; intro h)))
           | (clear_value xl; rename' xl => v))
      | split

theorem landCkpt_kept {ps : List Instr} (s : State) (channel c : Nat) (hK : Kept ps s) : Kept ps (landCkpt s channel c) := by
  unfold landCkpt
  repeat' first | with_reducible assumption | with_reducible apply updChan_kept | fail_if_no_progress with_reducible apply Kept.upd

theorem landOwners_kept {ps : List Instr} (s : State) (channel : Nat) (l : List (Sector × Owner))
    (hK : Kept ps s) : Kept ps (landOwners s channel l) := by
  unfold landOwners
  repeat' first
      | with_reducible assumption | (with_reducible intro) | with_reducible apply ownerStep_kept
      | with_reducible apply foldl_kept | fail_if_no_progress with_reducible apply Kept.upd
      | (extract_lets +onlyGivenNames xl
         (clear_value xl; rename' xl => v))
      | split

theorem afterProgram_kept {ps : List Instr} (channel : Nat) (s : State) (hK : Kept ps s) : Kept ps (afterProgram channel s) := by
  unfold afterProgram
  repeat' first
      | with_reducible assumption | with_reducible apply checkReadOnly_kept | with_reducible apply wake_kept
      | with_reducible apply kickChan_kept | with_reducible apply updChan_kept | with_reducible apply settleOrdered_kept
      | with_reducible apply admitWaiting_kept

theorem endProgram_kept {ps : List Instr} (channel op : Nat) (pass : Bool) (s : State)
    (hK : Kept ps s) : KeptR ps (endProgram channel op pass s) := by
  unfold endProgram
  repeat' first
      | with_reducible assumption | with_reducible refine KeptR.next ?_ | with_reducible apply updChan_kept
      | with_reducible apply afterProgram_kept | with_reducible apply landCkpt_kept | with_reducible apply landOwners_kept
      | with_reducible apply kickChan_kept
      | (extract_lets +onlyGivenNames xl
         first
           | (refine Kept.cut (q := ps) xl ?_ ?_; (on_goal 1 => subst xl); (on_goal 2 => (try clear_value xl; rename' xl => s; intro h)))
           | (refine KeptR.cutSt (q := ps) xl ?_ ?_; (on_goal 1 => (subst xl; intros; beta_reduce)); (on_goal 2 => (try clear_value xl; rename' xl => s; intro hF)))
           | (clear_value xl; rename' xl => v))
      | with_reducible apply hF | split

theorem execProgramDone_kept {ps : List Instr} (channel op : Nat) (pass : Bool) (s : State)
    (hK : Kept ps s) : KeptR ps (execProgramDone channel op pass s) := by
  unfold execProgramDone
  repeat' first | with_reducible assumption | with_reducible refine KeptR.next ?_ | with_reducible apply endProgram_kept | split

theorem execEraseDone_kept {ps : List Instr} (channel op : Nat) (pass : Bool) (s : State)
    (hK : Kept ps s) : KeptR ps (execEraseDone channel op pass s) := by
  unfold execEraseDone
  repeat' first
      | with_reducible assumption | with_reducible refine KeptR.next ?_ | with_reducible apply updChan_kept
      | with_reducible apply kickChan_kept | with_reducible apply checkReadOnly_kept
      | (extract_lets +onlyGivenNames xl
         (clear_value xl; rename' xl => v))
      | split

theorem execKindlingPad_kept {ps : List Instr} (channel : Nat) (s : State)
    (hK : Kept ps s) : KeptR ps (execKindlingPad channel s) := by
  unfold execKindlingPad
  repeat' first
      | with_reducible assumption | with_reducible refine KeptR.next ?_ | with_reducible apply kickChan_kept
      | with_reducible apply updChan_kept
      | (extract_lets +onlyGivenNames xl
         (clear_value xl; rename' xl => v))
      | split

theorem execJournalPageTimeout_kept {ps : List Instr} (channel : Nat) (s : State)
    (hK : Kept ps s) : KeptR ps (execJournalPageTimeout channel s) := by
  unfold execJournalPageTimeout
  repeat' first | with_reducible assumption | with_reducible refine KeptR.next ?_ | with_reducible apply updChan_kept

theorem execFoldStart_kept {ps : List Instr} (channel lun : Nat) (s : State)
    (hK : Kept ps s) : KeptR ps (execFoldStart channel lun s) := by
  unfold execFoldStart
  repeat' first
      | with_reducible assumption | with_reducible refine KeptR.next ?_ | with_reducible apply checkReadOnly_kept
      | with_reducible apply updChan_kept
      | (extract_lets +onlyGivenNames xl
         (clear_value xl; rename' xl => v))
      | split

theorem execGcStart_kept {ps : List Instr} (channel lun : Nat) (s : State)
    (hK : Kept ps s) : KeptR ps (execGcStart channel lun s) := by
  unfold execGcStart
  repeat' first
      | with_reducible assumption | with_reducible refine actWhen_kept ?_ ?_ | with_reducible apply checkReadOnly_kept
      | with_reducible apply updChan_kept

theorem execCheckpointStart_kept {ps : List Instr} (channel : Nat) (s : State)
    (hK : Kept ps s) : KeptR ps (execCheckpointStart channel s) := by
  unfold execCheckpointStart
  repeat' first
      | with_reducible assumption | with_reducible refine KeptR.next ?_ | with_reducible apply updChan_kept
      | (extract_lets +onlyGivenNames xl
         (clear_value xl; rename' xl => v))
      | split

theorem execPatrolRead_kept {ps : List Instr} (channel : Nat) (late : List Nat) (rest : PatrolEnd)
    (s : State) (hK : Kept ps s) : KeptR ps (execPatrolRead channel late rest s) := by
  unfold execPatrolRead
  repeat' first
      | with_reducible assumption | with_reducible refine KeptR.next ?_ | with_reducible apply updChan_kept
      | with_reducible apply uncorrEvents_kept | split

theorem execReadLevelReplan_kept {ps : List Instr} (channel lun group : Nat) (tried : List (List (BitVec 8) × Nat)) (s : State)
    (hK : Kept ps s) : KeptR ps (execReadLevelReplan channel lun group tried s) := by
  unfold execReadLevelReplan
  repeat' first
      | with_reducible assumption | with_reducible refine actWhen_kept ?_ ?_ | with_reducible apply updChan_kept
      | with_reducible apply postEvent_kept

theorem execFlashTemperatureSample_kept {ps : List Instr} (temps : List Nat) (s : State)
    (hK : Kept ps s) : KeptR ps (execFlashTemperatureSample temps s) := by
  unfold execFlashTemperatureSample
  repeat' first
      | with_reducible assumption | (with_reducible intro) | with_reducible refine KeptR.next ?_
      | with_reducible apply foldl_kept | fail_if_no_progress with_reducible apply Kept.upd
      | (extract_lets +onlyGivenNames xl
         (clear_value xl; rename' xl => v))
      | split

theorem placeSeg_kept {ps : List Instr} (s : State) (x : Nat × Nat) (hK : Kept ps s) : Kept ps (placeSeg s x) := by
  unfold placeSeg
  repeat' first
      | with_reducible assumption | fail_if_no_progress with_reducible apply Kept.upd
      | (extract_lets +onlyGivenNames xl
         (clear_value xl; rename' xl => v))
      | split

theorem execRebuild_kept {ps : List Instr} (channel : Nat) (segment : Option Nat) (s : State)
    (hK : Kept ps s) : KeptR ps (execRebuild channel segment s) := by
  unfold execRebuild
  repeat' first
      | with_reducible assumption | with_reducible refine actWhen_kept ?_ ?_ | with_reducible apply updChan_kept
      | (extract_lets +onlyGivenNames xl
         (clear_value xl; rename' xl => v))
      | split

theorem execRebuildDone_kept {ps : List Instr} (channel : Nat) (s : State)
    (hK : Kept ps s) : KeptR ps (execRebuildDone channel s) := by
  unfold execRebuildDone
  repeat' first
      | with_reducible assumption | (with_reducible intro) | with_reducible refine KeptR.next ?_
      | with_reducible apply updChan_kept | with_reducible apply placeSeg_kept | with_reducible apply formNamespace_kept
      | with_reducible apply foldl_kept | fail_if_no_progress with_reducible apply Kept.upd
      | (extract_lets +onlyGivenNames xl
         first
           | (refine Kept.cut (q := ps) xl ?_ ?_; (on_goal 1 => subst xl); (on_goal 2 => (try clear_value xl; rename' xl => s; intro h)))
           | (clear_value xl; rename' xl => v))
      | split

theorem setRun_kept {ps : List Instr} (s : State) (t : TaskId) (r : Run) (hK : Kept ps s) : Kept ps (setRun s t r) := by
  unfold setRun
  repeat' first | with_reducible assumption | with_reducible apply modTask_kept

theorem failFill_kept {ps : List Instr} (s : State) (c : BaleCopy) (hK : Kept ps s) : Kept ps (failFill s c) := by
  unfold failFill
  repeat' first
      | with_reducible assumption | (with_reducible intro) | with_reducible apply failTask_kept
      | with_reducible apply dropCopy_kept | with_reducible apply foldl_kept

theorem execBaleMoveDone_kept {ps : List Instr} (copy : Nat) (ok : Bool) (s : State)
    (hK : Kept ps s) : KeptR ps (execBaleMoveDone copy ok s) := by
  unfold execBaleMoveDone
  repeat' first
      | with_reducible assumption | with_reducible refine KeptR.next ?_ | with_reducible apply fetchAhead_kept
      | with_reducible apply modCopy_kept | with_reducible apply fillSlot_kept | with_reducible apply chargeFill_kept
      | with_reducible apply failFill_kept | split

theorem execWriteBackDone_kept {ps : List Instr} (copy : Nat) (s : State)
    (hK : Kept ps s) : KeptR ps (execWriteBackDone copy s) := by
  unfold execWriteBackDone
  repeat' first
      | with_reducible assumption | with_reducible refine KeptR.next ?_ | with_reducible apply fetchAhead_kept
      | with_reducible apply writeBack_kept | split

end Sys2Proof.Machine
end

