-- ==== Sys2Proof/Laws/KeptWork.lean ====
section
/-!
SUPPORT. The promise of Laws/Kept.lean, operation by operation: graphs, admin commands, pens and the tasks of the tiles, stacks and engines.
Each lemma says that the operation leaves the queue of waiting commands as it is and keeps the invariant.
-/

namespace Sys2Proof.Machine

theorem dropSubmit_kept {ps : List Instr} (s : State) (ctl sq : Nat) (hK : Kept ps s) : Kept ps (dropSubmit s ctl sq) := by
  unfold dropSubmit
  repeat' first | with_reducible assumption | with_reducible apply updCtl_kept

theorem acceptGraph_kept {ps : List Instr} (s : State) (c : Cmd) (num : Nat) (h : Header) (tasks : List Task)
    (edges : List Edge) (hK : Kept ps s) : Kept ps (acceptGraph s c num h tasks edges) := by
  unfold acceptGraph
  repeat' first
      | with_reducible assumption | with_reducible apply traceDecide_kept | fail_if_no_progress with_reducible apply Kept.upd

theorem recGraph_kept {ps : List Instr} (s : State) (p : Nat) (ref : OpRef) (h : Header)
    (hK : Kept ps s) : Kept ps (recGraph s p ref h) := by
  unfold recGraph
  repeat' first | with_reducible assumption | with_reducible apply recOp_kept

theorem execGraphAccept_kept {ps : List Instr} (ctl sq : Nat) (s : State)
    (hK : Kept ps s) : KeptR ps (execGraphAccept ctl sq s) := by
  unfold execGraphAccept
  repeat' first
      | with_reducible assumption | with_reducible refine KeptR.next ?_ | with_reducible apply complete_kept
      | with_reducible apply dropSubmit_kept | with_reducible apply completeFree_kept | with_reducible apply recGraph_kept
      | with_reducible apply acceptGraph_kept
      | (extract_lets +onlyGivenNames xl
         first
           | (refine Kept.cut (q := ps) xl ?_ ?_; (on_goal 1 => subst xl); (on_goal 2 => (try clear_value xl; rename' xl => s; intro h)))
           | (clear_value xl; rename' xl => v))
      | split

theorem execNop_kept {ps : List Instr} (t : TaskId) (s : State) (hK : Kept ps s) : KeptR ps (execNop t s) := by
  unfold execNop
  repeat' first | with_reducible assumption | with_reducible refine KeptR.next ?_ | with_reducible apply finishTask_kept | split

theorem execFence_kept {ps : List Instr} (t : TaskId) (s : State) (hK : Kept ps s) : KeptR ps (execFence t s) := by
  unfold execFence
  repeat' first
      | with_reducible assumption | with_reducible refine KeptR.next ?_ | with_reducible refine actWhen_kept ?_ ?_
      | with_reducible apply finishTask_kept | split

theorem execAlloc_kept {ps : List Instr} (t : TaskId) (s : State) (hK : Kept ps s) : KeptR ps (execAlloc t s) := by
  unfold execAlloc
  repeat' first
      | with_reducible assumption | with_reducible refine KeptR.next ?_ | with_reducible apply finishTask_kept
      | with_reducible apply drawTag_kept | with_reducible apply modGraph_kept | with_reducible apply chargeBales_kept
      | (extract_lets +onlyGivenNames xl
         first
           | (refine Kept.cut (q := ps) xl ?_ ?_; (on_goal 1 => subst xl); (on_goal 2 => (try clear_value xl; rename' xl => s; intro h)))
           | (refine Kept.cutSnd (q := ps) xl ?_ ?_; (on_goal 1 => subst xl); (on_goal 2 => (try clear_value xl; rename' xl => s; intro h)))
           | (clear_value xl; rename' xl => v))
      | split

theorem execFree_kept {ps : List Instr} (t : TaskId) (s : State) (hK : Kept ps s) : KeptR ps (execFree t s) := by
  unfold execFree
  repeat' first
      | with_reducible assumption | with_reducible refine KeptR.next ?_ | with_reducible apply finishTask_kept
      | with_reducible apply freeScratch_kept | split

theorem unpredictable_kept {ps : List Instr} (s : State) (t : TaskId) (g : Graph) (outs : List (OpRef × Nat))
    (hK : Kept ps s) : Kept ps (unpredictable s t g outs) := by
  unfold unpredictable
  repeat' first
      | with_reducible assumption | (with_reducible intro) | with_reducible apply smudgeOp_kept
      | with_reducible apply drawTag_kept | with_reducible apply finishTask_kept | with_reducible apply foldl_kept

theorem lostTask_kept {ps : List Instr} (s : State) (t : TaskId) (restart : Bool)
    (hK : Kept ps s) : Kept ps (lostTask s t restart) := by
  unfold lostTask
  repeat' first
      | with_reducible assumption | with_reducible apply failTask_kept | with_reducible apply modTask_kept
      | with_reducible apply leaveUnit_kept | split

theorem markOut_kept {ps : List Instr} (s : State) (hK : Kept ps s) : Kept ps (markOut s) := by
  unfold markOut
  repeat' first | with_reducible assumption | fail_if_no_progress with_reducible apply Kept.upd

theorem updArr_kept {ps : List Instr} (s : State) (tile a : Nat) (f : Arr → Arr)
    (hK : Kept ps s) : Kept ps (updArr s tile a f) := by
  unfold updArr
  repeat' first | with_reducible assumption | with_reducible apply updTile_kept

theorem readFailed_kept {ps : List Instr} (s : State) (t : TaskId) (g : Graph) (k : Task) (status : Nat)
    (hK : Kept ps s) : Kept ps (readFailed s t g k status) := by
  unfold readFailed
  repeat' first
      | with_reducible assumption | (with_reducible intro) | with_reducible apply smudgeOp_kept
      | with_reducible apply finishTask_kept | with_reducible apply foldl_kept | split

theorem spoilUsers_kept {ps : List Instr} (s : State) (l : Nat) (hK : Kept ps s) : Kept ps (spoilUsers s l) := by
  unfold spoilUsers
  repeat' first
      | with_reducible assumption | (with_reducible intro) | with_reducible apply modTask_kept | with_reducible apply foldl_kept
      | split

theorem updPort_kept {ps : List Instr} (s : State) (p : Nat) (f : FPort → FPort) (hK : Kept ps s) : Kept ps (updPort s p f) := by
  unfold updPort
  repeat' first | with_reducible assumption | fail_if_no_progress with_reducible apply Kept.upd

theorem updCtx_kept {ps : List Instr} (s : State) (c : Nat) (f : Ctx → Ctx) (hK : Kept ps s) : Kept ps (updCtx s c f) := by
  unfold updCtx
  repeat' first | with_reducible assumption | fail_if_no_progress with_reducible apply Kept.upd

theorem emitFlit_kept {ps : List Instr} (s : State) (p : Nat) (f : Flit) (hK : Kept ps s) : Kept ps (emitFlit s p f) := by
  unfold emitFlit
  repeat' first | with_reducible assumption | with_reducible apply updPort_kept | with_reducible apply emit_kept

theorem pumpPort_kept {ps : List Instr} (s : State) (p : Nat) (y0 : Nat) (hK : Kept ps s) : Kept ps (pumpPort s p y0) := by
  induction y0 generalizing s with
  | zero =>
    unfold pumpPort
    repeat' first
        | with_reducible assumption | with_reducible apply updPort_kept | with_reducible apply emitFlit_kept
        | (extract_lets +onlyGivenNames xl
           (clear_value xl; rename' xl => v))
        | split
  | succ k ih =>
    unfold pumpPort
    repeat' first
        | with_reducible apply ih | with_reducible assumption | with_reducible apply updPort_kept
        | with_reducible apply emitFlit_kept
        | (extract_lets +onlyGivenNames xl
           (clear_value xl; rename' xl => v))
        | split

theorem pump_kept {ps : List Instr} (s : State) (p : Nat) (hK : Kept ps s) : Kept ps (pump s p) := by
  unfold pump
  repeat' first | with_reducible assumption | with_reducible apply pumpPort_kept

theorem sendMsg_kept {ps : List Instr} (s : State) (m : FlueMsg) (hK : Kept ps s) : Kept ps (sendMsg s m) := by
  unfold sendMsg
  repeat' first
      | with_reducible assumption | with_reducible apply pump_kept | with_reducible apply updPort_kept
      | fail_if_no_progress with_reducible apply Kept.upd
      | (extract_lets +onlyGivenNames xl
         (clear_value xl; rename' xl => v))
      | split

theorem flushOutbox_kept {ps : List Instr} (s : State) (hK : Kept ps s) : Kept ps (flushOutbox s) := by
  unfold flushOutbox
  repeat' first
      | with_reducible assumption | (with_reducible intro) | with_reducible apply sendMsg_kept | with_reducible apply foldl_kept
      | fail_if_no_progress with_reducible apply Kept.upd

theorem flueOut_kept {ps : List Instr} (s : State) (m : FlueMsg) (hK : Kept ps s) : Kept ps (flueOut s m) := by
  unfold flueOut
  repeat' first
      | with_reducible assumption | with_reducible apply traceRec_kept | fail_if_no_progress with_reducible apply Kept.upd
      | (extract_lets +onlyGivenNames xl
         (clear_value xl; rename' xl => v))
      | split

theorem sendNumbered_kept {ps : List Instr} (s : State) (c : Nat) (m : FlueMsg)
    (hK : Kept ps s) : Kept ps (sendNumbered s c m) := by
  unfold sendNumbered
  repeat' first
      | with_reducible assumption | with_reducible apply flueOut_kept | with_reducible apply updCtx_kept
      | with_reducible apply sendMsg_kept
      | (extract_lets +onlyGivenNames xl
         (clear_value xl; rename' xl => v))
      | split

theorem ctxSend_kept {ps : List Instr} (s : State) (c type gen corrid : Nat) (body : List Byte)
    (hK : Kept ps s) : Kept ps (ctxSend s c type gen corrid body) := by
  unfold ctxSend
  repeat' first
      | with_reducible assumption | with_reducible apply sendNumbered_kept | with_reducible apply updCtx_kept
      | (extract_lets +onlyGivenNames xl
         (clear_value xl; rename' xl => v))
      | split

theorem sendOwed_kept {ps : List Instr} (s : State) (hK : Kept ps s) : Kept ps (sendOwed s) := by
  unfold sendOwed
  repeat' first
      | with_reducible assumption | (with_reducible intro) | with_reducible apply ctxSend_kept | with_reducible apply foldl_kept
      | fail_if_no_progress with_reducible apply Kept.upd

theorem drainCtx_kept {ps : List Instr} (s : State) (c : Nat) (y0 : Nat) (hK : Kept ps s) : Kept ps (drainCtx s c y0) := by
  induction y0 generalizing s with
  | zero =>
    unfold drainCtx
    repeat' first
        | with_reducible assumption | with_reducible apply sendNumbered_kept | with_reducible apply updCtx_kept
        | (extract_lets +onlyGivenNames xl
           (clear_value xl; rename' xl => v))
        | split
  | succ k ih =>
    unfold drainCtx
    repeat' first
        | with_reducible apply ih | with_reducible assumption | with_reducible apply sendNumbered_kept
        | with_reducible apply updCtx_kept
        | (extract_lets +onlyGivenNames xl
           (clear_value xl; rename' xl => v))
        | split

theorem sendAck_kept {ps : List Instr} (s : State) (c : Nat) (hK : Kept ps s) : Kept ps (sendAck s c) := by
  unfold sendAck
  repeat' first | with_reducible assumption | with_reducible apply sendMsg_kept

theorem rejectMsg_kept {ps : List Instr} (s : State) (hK : Kept ps s) : Kept ps (rejectMsg s) := by
  unfold rejectMsg
  repeat' first | with_reducible assumption | fail_if_no_progress with_reducible apply Kept.upd

theorem takeInbox_kept {ps : List Instr} (s : State) (m : FlueMsg) (type : Nat)
    (hK : Kept ps s) : KeptO ps (takeInbox s m type) := by
  unfold takeInbox
  repeat' first
      | with_reducible assumption | with_reducible exact KeptO.none | with_reducible refine KeptO.some ?_
      | fail_if_no_progress with_reducible apply Kept.upd
      | (extract_lets +onlyGivenNames xl
         (clear_value xl; rename' xl => v))
      | split

theorem flueIn_kept {ps : List Instr} (s : State) (m : FlueMsg) (hK : Kept ps s) : Kept ps (flueIn s m) := by
  unfold flueIn
  repeat' first
      | with_reducible assumption | (with_reducible intro) | with_reducible apply traceRec_kept
      | with_reducible apply foldl_kept

theorem acceptMsg_kept {ps : List Instr} (s : State) (m : FlueMsg) (f : State → State) (hf : ∀ s , Kept ps s → Kept ps (f s ))
    (hK : Kept ps s) : Kept ps (acceptMsg s m f) := by
  unfold acceptMsg
  repeat' first
      | with_reducible assumption | with_reducible apply hf | with_reducible apply rejectMsg_kept
      | with_reducible apply updCtx_kept | with_reducible apply sendAck_kept | with_reducible apply flueIn_kept
      | (extract_lets +onlyGivenNames xl
         first
           | (refine Kept.cut (q := ps) xl ?_ ?_; (on_goal 1 => subst xl); (on_goal 2 => (try clear_value xl; rename' xl => s; intro h)))
           | (clear_value xl; rename' xl => v))
      | split

theorem onMsg_kept {ps : List Instr} (s : State) (m : FlueMsg) (type : Nat) (f : State → State) (hf : ∀ s , Kept ps s → Kept ps
    (f s )) (hK : Kept ps s) : KeptR ps (onMsg s m type f) := by
  unfold onMsg
  repeat' first
      | with_reducible assumption | with_reducible refine KeptR.next ?_
      | with_reducible exact KeptO.get (takeInbox_kept _ _ _ (by assumption)) (by assumption)
      | with_reducible apply acceptMsg_kept | split

theorem drawCorr_kept {ps : List Instr} (s : State) (hK : Kept ps s) : Kept ps (drawCorr s).2 := by
  unfold drawCorr
  repeat' first | with_reducible assumption | fail_if_no_progress with_reducible apply Kept.upd

theorem withAdmin_kept {ps : List Instr} (s : State) (c : Cmd) (f : State → State) (hf : ∀ s , Kept ps s → Kept ps (f s ))
    (hK : Kept ps s) : KeptR ps (withAdmin s c f) := by
  unfold withAdmin
  repeat' first
      | with_reducible assumption | (with_reducible intro) | with_reducible apply hf | with_reducible apply withCmd_kept
      | with_reducible apply complete_kept | split

theorem putSq_kept {ps : List Instr} (s : State) (c : Cmd) (qid : Nat) (q : Sq) (hK : Kept ps s) : Kept ps (putSq s c qid q) := by
  unfold putSq
  repeat' first | with_reducible assumption | with_reducible apply updCtl_kept

theorem execCreateIoSq_kept {ps : List Instr} (c : Cmd) (qid base entries cqid : Nat) (pc : Bool) (s : State)
    (hK : Kept ps s) : KeptR ps (execCreateIoSq c qid base entries cqid pc s) := by
  unfold execCreateIoSq
  repeat' first
      | with_reducible assumption | (with_reducible intro) | with_reducible apply withAdmin_kept
      | with_reducible apply complete_kept | with_reducible apply putSq_kept
      | (extract_lets +onlyGivenNames xl
         (clear_value xl; rename' xl => v))
      | split

theorem execCreateSkexQueue_kept {ps : List Instr} (c : Cmd) (qid base entries cqid rqBase rqEntries : Nat) (pc : Bool)
    (s : State) (hK : Kept ps s) : KeptR ps (execCreateSkexQueue c qid base entries cqid rqBase rqEntries pc s) := by
  unfold execCreateSkexQueue
  repeat' first
      | with_reducible assumption | (with_reducible intro) | with_reducible apply withAdmin_kept
      | with_reducible apply complete_kept | with_reducible apply putSq_kept
      | (extract_lets +onlyGivenNames xl
         (clear_value xl; rename' xl => v))
      | split

theorem execDeleteIoSq_kept {ps : List Instr} (c : Cmd) (qid : Nat) (s : State)
    (hK : Kept ps s) : KeptR ps (execDeleteIoSq c qid s) := by
  unfold execDeleteIoSq
  repeat' first
      | with_reducible assumption | (with_reducible intro) | with_reducible apply withAdmin_kept
      | with_reducible apply complete_kept | with_reducible apply sendOwed_kept | with_reducible apply deleteSq_kept | split

theorem execCreateIoCq_kept {ps : List Instr} (c : Cmd) (qid base entries iv : Nat) (ien pc : Bool) (s : State)
    (hK : Kept ps s) : KeptR ps (execCreateIoCq c qid base entries iv ien pc s) := by
  unfold execCreateIoCq
  repeat' first
      | with_reducible assumption | (with_reducible intro) | with_reducible apply withAdmin_kept
      | with_reducible apply complete_kept | with_reducible apply updCtl_kept
      | (extract_lets +onlyGivenNames xl
         (clear_value xl; rename' xl => v))
      | split

theorem execDeleteIoCq_kept {ps : List Instr} (c : Cmd) (qid : Nat) (s : State)
    (hK : Kept ps s) : KeptR ps (execDeleteIoCq c qid s) := by
  unfold execDeleteIoCq
  repeat' first
      | with_reducible assumption | (with_reducible intro) | with_reducible apply withAdmin_kept
      | with_reducible apply complete_kept | with_reducible apply updCtl_kept
      | (extract_lets +onlyGivenNames xl
         (clear_value xl; rename' xl => v))
      | split

theorem execIdentify_kept {ps : List Instr} (c : Cmd) (cns : Nat) (prp : List Nat) (s : State)
    (hK : Kept ps s) : KeptR ps (execIdentify c cns prp s) := by
  unfold execIdentify
  repeat' first
      | with_reducible assumption | (with_reducible intro) | with_reducible apply withAdmin_kept
      | with_reducible apply complete_kept | with_reducible apply prpWrite_kept | split

theorem execGetLogPage_kept {ps : List Instr} (c : Cmd) (lid offset length : Nat) (prp : List Nat) (s : State)
    (hK : Kept ps s) : KeptR ps (execGetLogPage c lid offset length prp s) := by
  unfold execGetLogPage
  repeat' first
      | with_reducible assumption | with_reducible refine KeptR.next ?_ | with_reducible apply complete_kept
      | with_reducible apply prpWrite_kept | with_reducible apply doFetch_kept | with_reducible apply withAdmin_kept
      | (extract_lets +onlyGivenNames xl
         (refine Kept.cutSt (q := ps) xl ?_ ?_; (on_goal 1 => (subst xl; intros; beta_reduce)); (on_goal 2 => (try clear_value xl; rename' xl => s; intro hF))))
      | with_reducible apply hF | split

theorem execAbort_kept {ps : List Instr} (c : Cmd) (s : State) (hK : Kept ps s) : KeptR ps (execAbort c s) := by
  unfold execAbort
  repeat' first
      | with_reducible assumption | (with_reducible intro) | with_reducible apply withAdmin_kept
      | with_reducible apply complete_kept

theorem execSetFeatures_kept {ps : List Instr} (c : Cmd) (fid : Nat) (value : W32) (s : State)
    (hK : Kept ps s) : KeptR ps (execSetFeatures c fid value s) := by
  unfold execSetFeatures
  repeat' first
      | with_reducible assumption | (with_reducible intro) | with_reducible apply withAdmin_kept
      | with_reducible apply complete_kept | with_reducible apply updCtl_kept
      | fail_if_no_progress with_reducible apply Kept.upd
      | (extract_lets +onlyGivenNames xl
         (clear_value xl; rename' xl => v))
      | split

theorem execGetFeatures_kept {ps : List Instr} (c : Cmd) (fid : Nat) (s : State)
    (hK : Kept ps s) : KeptR ps (execGetFeatures c fid s) := by
  unfold execGetFeatures
  repeat' first
      | with_reducible assumption | (with_reducible intro) | with_reducible apply withAdmin_kept
      | with_reducible apply complete_kept
      | (extract_lets +onlyGivenNames xl
         (clear_value xl; rename' xl => v))
      | split

theorem execAsynchronousEventRequest_kept {ps : List Instr} (c : Cmd) (s : State)
    (hK : Kept ps s) : KeptR ps (execAsynchronousEventRequest c s) := by
  unfold execAsynchronousEventRequest
  repeat' first
      | with_reducible assumption | (with_reducible intro) | with_reducible apply withAdmin_kept
      | with_reducible apply complete_kept | with_reducible apply updCtl_kept
      | fail_if_no_progress with_reducible apply Kept.upd
      | (extract_lets +onlyGivenNames xl
         first
           | (refine Kept.cut (q := ps) xl ?_ ?_; (on_goal 1 => subst xl); (on_goal 2 => (try clear_value xl; rename' xl => s; intro h)))
           | (clear_value xl; rename' xl => v))
      | split

theorem execSanitize_kept {ps : List Instr} (c : Cmd) (action : Nat) (s : State)
    (hK : Kept ps s) : KeptR ps (execSanitize c action s) := by
  unfold execSanitize
  repeat' first
      | with_reducible assumption | (with_reducible intro) | with_reducible apply withAdmin_kept
      | with_reducible apply complete_kept | fail_if_no_progress with_reducible apply Kept.upd
      | (extract_lets +onlyGivenNames xl
         first
           | (refine Kept.cut (q := ps) xl ?_ ?_; (on_goal 1 => subst xl); (on_goal 2 => (try clear_value xl; rename' xl => s; intro h)))
           | (clear_value xl; rename' xl => v))
      | split

theorem execSanitizeEnd_kept {ps : List Instr} (s : State) (hK : Kept ps s) : KeptR ps (execSanitizeEnd s) := by
  unfold execSanitizeEnd
  repeat' first
      | with_reducible assumption | with_reducible refine actWhen_kept ?_ ?_ | with_reducible apply formNamespace_kept
      | fail_if_no_progress with_reducible apply Kept.upd

theorem execInvalidCommandOpcode_kept {ps : List Instr} (c : Cmd) (opcode : Nat) (s : State)
    (hK : Kept ps s) : KeptR ps (execInvalidCommandOpcode c opcode s) := by
  unfold execInvalidCommandOpcode
  repeat' first
      | with_reducible assumption | (with_reducible intro) | with_reducible refine KeptR.next ?_
      | with_reducible apply withCmd_kept | with_reducible apply complete_kept | split

theorem giveVecs_kept {ps : List Instr} (s : State) (p b n : Nat) (hK : Kept ps s) : Kept ps (giveVecs s p b n) := by
  unfold giveVecs
  repeat' first | with_reducible assumption | fail_if_no_progress with_reducible apply Kept.upd

theorem takeVecs_kept {ps : List Instr} (s : State) (p : Nat) (hK : Kept ps s) : Kept ps (takeVecs s p) := by
  unfold takeVecs
  repeat' first | with_reducible assumption | fail_if_no_progress with_reducible apply Kept.upd

theorem penCreate_kept {ps : List Instr} (s : State) (c : Cmd) (b : KBlock) (hK : Kept ps s) : Kept ps (penCreate s c b) := by
  unfold penCreate
  repeat' first
      | with_reducible assumption | with_reducible apply complete_kept | with_reducible apply giveVecs_kept
      | fail_if_no_progress with_reducible apply Kept.upd
      | (extract_lets +onlyGivenNames xl
         (clear_value xl; rename' xl => v))
      | split

theorem execPenCreate_kept {ps : List Instr} (c : Cmd) (b : KBlock) (s : State)
    (hK : Kept ps s) : KeptR ps (execPenCreate c b s) := by
  unfold execPenCreate
  repeat' first
      | with_reducible assumption | (with_reducible intro) | with_reducible apply withKeyedArgs_kept
      | with_reducible apply penCreate_kept

theorem execPenQuota_kept {ps : List Instr} (c : Cmd) (b : KBlock) (s : State)
    (hK : Kept ps s) : KeptR ps (execPenQuota c b s) := by
  unfold execPenQuota
  repeat' first
      | with_reducible assumption | (with_reducible intro) | with_reducible apply withKeyedArgs_kept
      | with_reducible apply complete_kept | with_reducible apply updPen_kept
      | (extract_lets +onlyGivenNames xl
         first
           | (refine Kept.cut (q := ps) xl ?_ ?_; (on_goal 1 => subst xl); (on_goal 2 => (try clear_value xl; rename' xl => s; intro h)))
           | (clear_value xl; rename' xl => v))
      | split

theorem execPenDamper_kept {ps : List Instr} (c : Cmd) (b : KBlock) (s : State)
    (hK : Kept ps s) : KeptR ps (execPenDamper c b s) := by
  unfold execPenDamper
  repeat' first
      | with_reducible assumption | (with_reducible intro) | with_reducible apply withKeyedArgs_kept
      | with_reducible apply complete_kept | with_reducible apply updPen_kept
      | (extract_lets +onlyGivenNames xl
         first
           | (refine Kept.cut (q := ps) xl ?_ ?_; (on_goal 1 => subst xl); (on_goal 2 => (try clear_value xl; rename' xl => s; intro h)))
           | (clear_value xl; rename' xl => v))
      | split

theorem execDamperTick_kept {ps : List Instr} (s : State) (hK : Kept ps s) : KeptR ps (execDamperTick s) := by
  unfold execDamperTick
  repeat' first
      | with_reducible assumption | with_reducible refine KeptR.next ?_ | fail_if_no_progress with_reducible apply Kept.upd

theorem execVectorTimeExpiry_kept {ps : List Instr} (vector : Nat) (s : State)
    (hK : Kept ps s) : KeptR ps (execVectorTimeExpiry vector s) := by
  unfold execVectorTimeExpiry
  repeat' first | with_reducible assumption | with_reducible refine actWhen_kept ?_ ?_ | with_reducible apply vecSend_kept

theorem execMsixUnmask_kept {ps : List Instr} (vector : Nat) (s : State) (hK : Kept ps s) : KeptR ps (execMsixUnmask vector s) := by
  unfold execMsixUnmask
  repeat' first
      | with_reducible assumption | with_reducible refine KeptR.next ?_ | with_reducible apply emit_kept
      | fail_if_no_progress with_reducible apply Kept.upd | split

theorem execPenVmodWrite_kept {ps : List Instr} (value : W64) (s : State)
    (hK : Kept ps s) : KeptR ps (execPenVmodWrite value s) := by
  unfold execPenVmodWrite
  repeat' first
      | with_reducible assumption | with_reducible refine actWhen_kept ?_ ?_ | fail_if_no_progress with_reducible apply Kept.upd

theorem abortTask_kept {ps : List Instr} (s : State) (t : TaskId) (hK : Kept ps s) : Kept ps (abortTask s t) := by
  unfold abortTask
  repeat' first | with_reducible assumption | with_reducible apply failTask_kept

theorem beginPenReset_kept {ps : List Instr} (s : State) (p : Nat) (w : List (Cmd × Bool))
    (hK : Kept ps s) : Kept ps (beginPenReset s p w) := by
  unfold beginPenReset
  repeat' first
      | with_reducible assumption | (with_reducible intro) | with_reducible apply updPen_kept
      | with_reducible apply abortTask_kept | with_reducible apply foldl_kept

theorem execPenReset_kept {ps : List Instr} (c : Cmd) (b : KBlock) (s : State)
    (hK : Kept ps s) : KeptR ps (execPenReset c b s) := by
  unfold execPenReset
  repeat' first
      | with_reducible assumption | (with_reducible intro) | with_reducible apply withKeyedArgs_kept
      | with_reducible apply complete_kept | with_reducible apply updPen_kept | with_reducible apply beginPenReset_kept
      | (extract_lets +onlyGivenNames xl
         (clear_value xl; rename' xl => v))
      | split

theorem execPenDestroy_kept {ps : List Instr} (c : Cmd) (b : KBlock) (s : State)
    (hK : Kept ps s) : KeptR ps (execPenDestroy c b s) := by
  unfold execPenDestroy
  repeat' first
      | with_reducible assumption | (with_reducible intro) | with_reducible apply withKeyedArgs_kept
      | with_reducible apply complete_kept | with_reducible apply updPen_kept | with_reducible apply beginPenReset_kept
      | (extract_lets +onlyGivenNames xl
         (clear_value xl; rename' xl => v))
      | split

theorem execUndefinedControlCode_kept {ps : List Instr} (c : Cmd) (code : BitVec 16) (b : KBlock) (s : State)
    (hK : Kept ps s) : KeptR ps (execUndefinedControlCode c code b s) := by
  unfold execUndefinedControlCode
  repeat' first
      | with_reducible assumption | (with_reducible intro) | with_reducible refine KeptR.next ?_
      | with_reducible apply withKeyed_kept | split

theorem keepList_kept {ps : List Instr} (s : State) (t : TaskId) (k : Task) (n : Nat) (l : List Hit)
    (hK : Kept ps s) : Kept ps (keepList s t k n l) := by
  unfold keepList
  repeat' first | with_reducible assumption | with_reducible apply updTile_kept | with_reducible apply updQuad_kept | split

theorem writeResults_kept {ps : List Instr} (s : State) (t : TaskId) (g : Graph) (k : Task) (op : OpRef) (kind n : Nat)
    (l : List Hit) (hK : Kept ps s) : Kept ps (writeResults s t g k op kind n l) := by
  unfold writeResults
  repeat' first | with_reducible assumption | with_reducible apply keepList_kept | with_reducible apply writeOp_kept

theorem execMerge_kept {ps : List Instr} (t : TaskId) (s : State) (hK : Kept ps s) : KeptR ps (execMerge t s) := by
  unfold execMerge
  repeat' first
      | with_reducible assumption | with_reducible refine KeptR.next ?_ | with_reducible apply unpredictable_kept
      | with_reducible apply drawTag_kept | with_reducible apply smudgeOp_kept | with_reducible apply modTask_kept
      | with_reducible apply finishTask_kept | with_reducible apply readFailed_kept | with_reducible apply writeOp_kept
      | with_reducible apply writeResults_kept
      | (extract_lets +onlyGivenNames xl
         first
           | (refine Kept.cut (q := ps) xl ?_ ?_; (on_goal 1 => subst xl); (on_goal 2 => (try clear_value xl; rename' xl => s; intro h)))
           | (refine Kept.cutSnd (q := ps) xl ?_ ?_; (on_goal 1 => subst xl); (on_goal 2 => (try clear_value xl; rename' xl => s; intro h)))
           | (clear_value xl; rename' xl => v))
      | split

theorem execModelCreate_kept {ps : List Instr} (t : TaskId) (s : State) (hK : Kept ps s) : KeptR ps (execModelCreate t s) := by
  unfold execModelCreate
  repeat' first
      | with_reducible assumption | with_reducible refine KeptR.next ?_ | with_reducible apply readFailed_kept
      | with_reducible apply unpredictable_kept
      | with_reducible exact KeptO.get (newObject_kept _ _ _ _ _ _ (by assumption)) (by assumption)
      | with_reducible apply finishTask_kept | with_reducible apply writeHome_kept
      | (extract_lets +onlyGivenNames xl
         (clear_value xl; rename' xl => v))
      | split

theorem execModelDestroy_kept {ps : List Instr} (t : TaskId) (s : State) (hK : Kept ps s) : KeptR ps (execModelDestroy t s) := by
  unfold execModelDestroy
  repeat' first
      | with_reducible assumption | with_reducible refine KeptR.next ?_ | with_reducible apply finishTask_kept
      | with_reducible apply unpredictable_kept | with_reducible apply destroyObj_kept
      | fail_if_no_progress with_reducible apply Kept.upd
      | (extract_lets +onlyGivenNames xl
         (refine Kept.cut (q := ps) xl ?_ ?_; (on_goal 1 => subst xl); (on_goal 2 => (try clear_value xl; rename' xl => s; intro h))))
      | split

theorem writeRun_kept {ps : List Instr} (s : State) (t : TaskId) (g : Graph) (k : Task) (p : RunParam) (out : MBuf)
    (tokens : Nat) (inres key : List Byte) (hK : Kept ps s) : Kept ps (writeRun s t g k p out tokens inres key) := by
  unfold writeRun
  repeat' first
      | with_reducible assumption | (with_reducible intro) | with_reducible apply writeOp_kept
      | with_reducible apply finishTask_kept | with_reducible apply writeResults_kept | with_reducible apply foldl_kept
      | (extract_lets +onlyGivenNames xl
         first
           | (refine Kept.cut (q := ps) xl ?_ ?_; (on_goal 1 => subst xl); (on_goal 2 => (try clear_value xl; rename' xl => s; intro h)))
           | (refine Kept.cutSt2 (q := ps) xl ?_ ?_; (on_goal 1 => (subst xl; intros; beta_reduce)); (on_goal 2 => (try clear_value xl; rename' xl => s; intro hF)))
           | (clear_value xl; rename' xl => v))
      | with_reducible apply hF | split

theorem countRun_kept {ps : List Instr} (s : State) (t : TaskId) (k : Task) (l : List (MStep × List Nat))
    (hK : Kept ps s) : Kept ps (countRun s t k l) := by
  unfold countRun
  repeat' first
      | with_reducible assumption | (with_reducible intro) | with_reducible apply drawTag_kept
      | with_reducible apply updTile_kept | with_reducible apply foldl_kept

theorem execModelRun_kept {ps : List Instr} (t : TaskId) (s : State) (hK : Kept ps s) : KeptR ps (execModelRun t s) := by
  unfold execModelRun
  repeat' first
      | with_reducible assumption | (with_reducible intro) | with_reducible refine KeptR.next ?_
      | with_reducible apply finishTask_kept | with_reducible apply unpredictable_kept | with_reducible apply readFailed_kept
      | with_reducible apply countRun_kept | with_reducible apply drawTag_kept | with_reducible apply smudgeOp_kept
      | with_reducible apply writeRun_kept | with_reducible apply foldl_kept
      | (extract_lets +onlyGivenNames xl
         first
           | (refine Kept.cut (q := ps) xl ?_ ?_; (on_goal 1 => subst xl); (on_goal 2 => (try clear_value xl; rename' xl => s; intro h)))
           | (refine Kept.cutSnd (q := ps) xl ?_ ?_; (on_goal 1 => subst xl); (on_goal 2 => (try clear_value xl; rename' xl => s; intro h)))
           | (clear_value xl; rename' xl => v))
      | split

theorem execVectorStep_kept {ps : List Instr} (t : TaskId) (s : State) (hK : Kept ps s) : KeptR ps (execVectorStep t s) := by
  unfold execVectorStep
  repeat' first
      | with_reducible assumption | with_reducible refine KeptR.next ?_ | with_reducible apply readFailed_kept
      | with_reducible apply unpredictable_kept | with_reducible apply drawTag_kept | with_reducible apply finishTask_kept
      | with_reducible apply writeOp_kept
      | (extract_lets +onlyGivenNames xl
         first
           | (refine Kept.cutSnd (q := ps) xl ?_ ?_; (on_goal 1 => subst xl); (on_goal 2 => (try clear_value xl; rename' xl => s; intro h)))
           | (clear_value xl; rename' xl => v))
      | split

theorem execVectorFilter_kept {ps : List Instr} (t : TaskId) (s : State) (hK : Kept ps s) : KeptR ps (execVectorFilter t s) := by
  unfold execVectorFilter
  repeat' first
      | with_reducible assumption | with_reducible refine KeptR.next ?_ | with_reducible apply unpredictable_kept
      | with_reducible apply readFailed_kept | with_reducible apply finishTask_kept | with_reducible apply writeOp_kept
      | (extract_lets +onlyGivenNames xl
         (clear_value xl; rename' xl => v))
      | split

theorem execTokenize_kept {ps : List Instr} (t : TaskId) (s : State) (hK : Kept ps s) : KeptR ps (execTokenize t s) := by
  unfold execTokenize
  repeat' first
      | with_reducible assumption | (with_reducible intro) | with_reducible refine KeptR.next ?_
      | with_reducible apply finishTask_kept | with_reducible apply readFailed_kept | with_reducible apply writeOp_kept
      | with_reducible apply foldl_kept
      | (extract_lets +onlyGivenNames xl
         first
           | (refine Kept.cut (q := ps) xl ?_ ?_; (on_goal 1 => subst xl); (on_goal 2 => (try clear_value xl; rename' xl => s; intro h)))
           | (clear_value xl; rename' xl => v))
      | split

theorem execPack_kept {ps : List Instr} (t : TaskId) (s : State) (hK : Kept ps s) : KeptR ps (execPack t s) := by
  unfold execPack
  repeat' first
      | with_reducible assumption | with_reducible refine KeptR.next ?_ | with_reducible apply unpredictable_kept
      | with_reducible apply readFailed_kept | with_reducible apply finishTask_kept | with_reducible apply writeOp_kept
      | (extract_lets +onlyGivenNames xl
         (clear_value xl; rename' xl => v))
      | split

theorem setBankHome_kept {ps : List Instr} (s : State) (g : Graph) (op : OpRef) (j : Nat) (h : Home)
    (hK : Kept ps s) : Kept ps (setBankHome s g op j h) := by
  unfold setBankHome
  repeat' first | with_reducible assumption | with_reducible apply updObj_kept | with_reducible apply modGraph_kept | split

theorem clrLines_kept {ps : List Instr} (s : State) (a n : Nat) (hK : Kept ps s) : Kept ps (clrLines s a n) := by
  unfold clrLines
  repeat' first
      | with_reducible assumption | (with_reducible intro) | with_reducible apply send_kept | with_reducible apply foldl_kept

theorem moveBale_kept {ps : List Instr} (s : State) (old : Home) (n slot : Nat)
    (hK : Kept ps s) : Kept ps (moveBale s old n slot) := by
  unfold moveBale
  repeat' first
      | with_reducible assumption | with_reducible apply agentWrite_kept | with_reducible apply clrLines_kept
      | with_reducible apply freeHome_kept | with_reducible apply zeroHome_kept
      | fail_if_no_progress with_reducible apply Kept.upd
      | (extract_lets +onlyGivenNames xl
         (clear_value xl; rename' xl => v))
      | split

theorem coPlace_kept {ps : List Instr} (s : State) (t : TaskId) (g : Graph) (op : OpRef) (j n : Nat)
    (hK : Kept ps s) : KeptO ps (coPlace s t g op j n) := by
  unfold coPlace
  repeat' first
      | with_reducible assumption | with_reducible exact KeptO.none | with_reducible refine KeptO.some ?_
      | with_reducible apply updStack_kept | with_reducible apply setBankHome_kept | with_reducible apply moveBale_kept
      | with_reducible apply modTask_kept
      | (extract_lets +onlyGivenNames xl
         first
           | (refine Kept.cut (q := ps) xl ?_ ?_; (on_goal 1 => subst xl); (on_goal 2 => (try clear_value xl; rename' xl => s; intro h)))
           | (clear_value xl; rename' xl => v))
      | split

theorem placeAll_kept {ps : List Instr} (s : State) (t : TaskId) (k : Task) (p : NProg) (y0 : List Nat)
    (hK : Kept ps s) : KeptOP ps (placeAll s t k p y0) := by
  induction y0 generalizing s with
  | nil =>
    unfold placeAll
    repeat' first
        | with_reducible assumption | (with_reducible intro) | with_reducible exact KeptO.none
        | with_reducible exact KeptOP.none | with_reducible refine KeptO.some ?_ | with_reducible refine KeptOP.some ?_
        | with_reducible apply coPlace_kept | with_reducible apply foldlO_kept | with_reducible apply KeptOP.mapP
        | with_reducible apply KeptO.bindSt | with_reducible exact KeptO.get (by assumption) rfl
        | (extract_lets +onlyGivenNames xl
           (refine KeptO.cut (q := ps) xl ?_ ?_; (on_goal 1 => subst xl); (on_goal 2 => (try clear_value xl; rename' xl => s; intro h))))
        | split
  | cons y r ih =>
    unfold placeAll
    repeat' first
        | with_reducible apply ih | with_reducible assumption | (with_reducible intro) | with_reducible exact KeptO.none
        | with_reducible exact KeptOP.none | with_reducible refine KeptO.some ?_ | with_reducible refine KeptOP.some ?_
        | with_reducible apply coPlace_kept | with_reducible apply foldlO_kept | with_reducible apply KeptOP.mapP
        | with_reducible apply KeptO.bindSt | with_reducible exact KeptO.get (by assumption) rfl
        | (extract_lets +onlyGivenNames xl
           (refine KeptO.cut (q := ps) xl ?_ ?_; (on_goal 1 => subst xl); (on_goal 2 => (try clear_value xl; rename' xl => s; intro h))))
        | split

theorem clrOperand_kept {ps : List Instr} (s : State) (g : Graph) (op : OpRef) (n : Nat)
    (hK : Kept ps s) : Kept ps (clrOperand s g op n) := by
  unfold clrOperand
  repeat' first
      | with_reducible assumption | (with_reducible intro) | with_reducible apply clrLines_kept
      | with_reducible apply foldl_kept | split

theorem execNbuSeq_kept {ps : List Instr} (t : TaskId) (s : State) (hK : Kept ps s) : KeptR ps (execNbuSeq t s) := by
  unfold execNbuSeq
  repeat' first
      | with_reducible assumption | (with_reducible intro) | with_reducible refine KeptR.next ?_
      | with_reducible apply readFailed_kept | with_reducible apply unpredictable_kept
      | with_reducible refine KeptOP.get (placeAll_kept _ _ _ _ _ ?_) (by assumption) | with_reducible apply updStack_kept
      | with_reducible apply clrOperand_kept | with_reducible apply setRun_kept | with_reducible apply foldl_kept
      | (extract_lets +onlyGivenNames xl
         (clear_value xl; rename' xl => v))
      | split

theorem loseUnit_kept {ps : List Instr} (s : State) (n u : Nat) (hK : Kept ps s) : Kept ps (loseUnit s n u) := by
  unfold loseUnit
  repeat' first
      | with_reducible assumption | with_reducible apply updStack_kept | with_reducible apply markOut_kept
      | with_reducible apply postEvent_kept

theorem serveWaiting_kept {ps : List Instr} (s : State) (n l : Nat) (hK : Kept ps s) : Kept ps (serveWaiting s n l) := by
  unfold serveWaiting
  repeat' first | with_reducible assumption | with_reducible apply performAccess_kept | with_reducible apply updStack_kept | split

theorem boundary_kept {ps : List Instr} (s : State) (n u : Nat) (hK : Kept ps s) : Kept ps (boundary s n u) := by
  unfold boundary
  repeat' first
      | with_reducible assumption | (with_reducible intro) | with_reducible apply serveWaiting_kept
      | with_reducible apply updStack_kept | with_reducible apply foldl_kept

theorem settleNbu_kept {ps : List Instr} (s : State) (t : TaskId) (stks : List Nat) (n : Nat)
    (hK : Kept ps s) : Kept ps (settleNbu s t stks n) := by
  unfold settleNbu
  repeat' first
      | with_reducible assumption | with_reducible apply updStack_kept | with_reducible apply finishTask_kept
      | (extract_lets +onlyGivenNames xl
         (refine Kept.cut (q := ps) xl ?_ ?_; (on_goal 1 => subst xl); (on_goal 2 => (try clear_value xl; rename' xl => s; intro h))))
      | split

theorem runMicro_kept {ps : List Instr} (s : State) (t : TaskId) (g : Graph) (k : Task) (p : NProg) (stks : List Nat)
    (n u : Nat) (un : Nbu) (hK : Kept ps s) : Kept ps (runMicro s t g k p stks n u un) := by
  unfold runMicro
  repeat' first
      | with_reducible assumption | with_reducible apply finishTask_kept | with_reducible apply modTask_kept
      | with_reducible apply drawTag_kept | with_reducible apply writeStack_kept | with_reducible apply updStack_kept
      | with_reducible apply writeOp_kept | with_reducible apply settleNbu_kept | with_reducible apply boundary_kept
      | fail_if_no_progress with_reducible apply Kept.upd
      | (extract_lets +onlyGivenNames xl
         first
           | (refine Kept.cut (q := ps) xl ?_ ?_; (on_goal 1 => subst xl); (on_goal 2 => (try clear_value xl; rename' xl => s; intro h)))
           | (refine Kept.cutSnd (q := ps) xl ?_ ?_; (on_goal 1 => subst xl); (on_goal 2 => (try clear_value xl; rename' xl => s; intro h)))
           | (refine Kept.cutSt1 (q := ps) xl ?_ ?_; (on_goal 1 => (subst xl; intros; beta_reduce)); (on_goal 2 => (try clear_value xl; rename' xl => s; intro hF)))
           | (clear_value xl; rename' xl => v))
      | with_reducible apply hF | split

theorem execMicroOp_kept {ps : List Instr} (stack unit : Nat) (parityFail : Bool) (s : State)
    (hK : Kept ps s) : KeptR ps (execMicroOp stack unit parityFail s) := by
  unfold execMicroOp
  repeat' first
      | with_reducible assumption | with_reducible refine KeptR.next ?_ | with_reducible apply lostTask_kept
      | with_reducible apply loseUnit_kept | with_reducible apply runMicro_kept | with_reducible apply readFailed_kept
      | (extract_lets +onlyGivenNames xl
         (clear_value xl; rename' xl => v))
      | split

theorem execRefreshDue_kept {ps : List Instr} (stack unit : Nat) (s : State)
    (hK : Kept ps s) : KeptR ps (execRefreshDue stack unit s) := by
  unfold execRefreshDue
  repeat' first | with_reducible assumption | with_reducible refine actWhen_kept ?_ ?_ | with_reducible apply updStack_kept

theorem execPatrolScrub_kept {ps : List Instr} (stack : Nat) (correctable : List Nat) (rest : ScrubEnd)
    (s : State) (hK : Kept ps s) : KeptR ps (execPatrolScrub stack correctable rest s) := by
  unfold execPatrolScrub
  repeat' first
      | with_reducible assumption | (with_reducible intro) | with_reducible refine KeptR.next ?_
      | with_reducible apply updStack_kept | with_reducible apply postEvent_kept | with_reducible apply poisonLine_kept
      | with_reducible apply foldl_kept
      | (extract_lets +onlyGivenNames xl
         first
           | (refine Kept.cut (q := ps) xl ?_ ?_; (on_goal 1 => subst xl); (on_goal 2 => (try clear_value xl; rename' xl => s; intro h)))
           | (clear_value xl; rename' xl => v))
      | split

theorem setWalk_kept {ps : List Instr} (s : State) (t : TaskId) (w : Walk) (hK : Kept ps s) : Kept ps (setWalk s t w) := by
  unfold setWalk
  repeat' first | with_reducible assumption | with_reducible apply modTask_kept

theorem keepWalk_kept {ps : List Instr} (s : State) (t : TaskId) (k : Task) (w : Walk)
    (hK : Kept ps s) : Kept ps (keepWalk s t k w) := by
  unfold keepWalk
  repeat' first | with_reducible assumption | with_reducible apply keepList_kept | with_reducible apply setWalk_kept

theorem finishQuery_kept {ps : List Instr} (s : State) (t : TaskId) (g : Graph) (k : Task) (w : Walk)
    (hK : Kept ps s) : Kept ps (finishQuery s t g k w) := by
  unfold finishQuery
  repeat' first
      | with_reducible assumption | with_reducible apply unpredictable_kept | with_reducible apply setWalk_kept
      | with_reducible apply finishTask_kept | with_reducible apply writeResults_kept | with_reducible apply writeOp_kept
      | (extract_lets +onlyGivenNames xl
         first
           | (refine Kept.cut (q := ps) xl ?_ ?_; (on_goal 1 => subst xl); (on_goal 2 => (try clear_value xl; rename' xl => s; intro h)))
           | (clear_value xl; rename' xl => v))
      | split

theorem startWalk_kept {ps : List Instr} (s : State) (t : TaskId) (g : Graph) (k : Task) (w : Walk)
    (hK : Kept ps s) : Kept ps (startWalk s t g k w) := by
  unfold startWalk
  repeat' first
      | with_reducible assumption | with_reducible apply finishTask_kept | with_reducible apply finishQuery_kept
      | with_reducible apply keepWalk_kept | split

theorem beginWalk_kept {ps : List Instr} (s : State) (t : TaskId) (g : Graph) (k : Task) (flash : Bool) (w : Walk)
    (hK : Kept ps s) : Kept ps (beginWalk s t g k flash w) := by
  unfold beginWalk
  repeat' first
      | with_reducible assumption | with_reducible apply updTile_kept | with_reducible apply startWalk_kept
      | fail_if_no_progress with_reducible apply Kept.upd
      | (extract_lets +onlyGivenNames xl
         first
           | (refine Kept.cut (q := ps) xl ?_ ?_; (on_goal 1 => subst xl); (on_goal 2 => (try clear_value xl; rename' xl => s; intro h)))
           | (clear_value xl; rename' xl => v))
      | split

theorem execQuery_kept {ps : List Instr} (t : TaskId) (s : State) (hK : Kept ps s) : KeptR ps (execQuery t s) := by
  unfold execQuery
  repeat' first
      | with_reducible assumption | with_reducible refine KeptR.next ?_ | with_reducible apply finishTask_kept
      | with_reducible apply unpredictable_kept | with_reducible apply beginWalk_kept | with_reducible apply readFailed_kept
      | (extract_lets +onlyGivenNames xl
         (clear_value xl; rename' xl => v))
      | split

theorem execWalkRound_kept {ps : List Instr} (t : TaskId) (s : State) (hK : Kept ps s) : KeptR ps (execWalkRound t s) := by
  unfold execWalkRound
  repeat' first
      | with_reducible assumption | with_reducible refine KeptR.next ?_ | with_reducible apply finishQuery_kept
      | with_reducible apply keepWalk_kept | split

theorem sendUnits_kept {ps : List Instr} (x : Index) (t : TaskId) (epoch : Nat) (s : State) (ch page unit : Nat)
    (hK : Kept ps s) : Kept ps (sendUnits x t epoch s ch page unit) := by
  unfold sendUnits
  repeat' first
      | with_reducible assumption | with_reducible apply modTask_kept | with_reducible apply updChan_kept
      | (extract_lets +onlyGivenNames xl
         (clear_value xl; rename' xl => v))
      | split

theorem sendPage_kept {ps : List Instr} (x : Index) (t : TaskId) (epoch : Nat) (s : State) (ch page : Nat)
    (hK : Kept ps s) : Kept ps (sendPage x t epoch s ch page) := by
  unfold sendPage
  repeat' first | with_reducible assumption | with_reducible apply sendUnits_kept

theorem execFlashWalkRound_kept {ps : List Instr} (t : TaskId) (s : State)
    (hK : Kept ps s) : KeptR ps (execFlashWalkRound t s) := by
  unfold execFlashWalkRound
  repeat' first
      | with_reducible assumption | (with_reducible intro) | with_reducible refine KeptR.next ?_
      | with_reducible apply finishTask_kept | with_reducible apply finishQuery_kept | with_reducible apply setWalk_kept
      | with_reducible apply keepWalk_kept | with_reducible apply modTask_kept | with_reducible apply sendPage_kept
      | with_reducible apply foldl_kept
      | (extract_lets +onlyGivenNames xl
         first
           | (refine Kept.cut (q := ps) xl ?_ ?_; (on_goal 1 => subst xl); (on_goal 2 => (try clear_value xl; rename' xl => s; intro h)))
           | (clear_value xl; rename' xl => v))
      | split

theorem execEnginePageExpand_kept {ps : List Instr} (t : TaskId) (channel page : Nat) (s : State)
    (hK : Kept ps s) : KeptR ps (execEnginePageExpand t channel page s) := by
  unfold execEnginePageExpand
  repeat' first | with_reducible assumption | with_reducible refine KeptR.next ?_ | with_reducible apply setWalk_kept | split

theorem execHop_kept {ps : List Instr} (t : TaskId) (channel : Nat) (s : State)
    (hK : Kept ps s) : KeptR ps (execHop t channel s) := by
  unfold execHop
  repeat' first
      | with_reducible assumption | with_reducible refine KeptR.next ?_ | with_reducible apply setWalk_kept
      | (extract_lets +onlyGivenNames xl
         (clear_value xl; rename' xl => v))
      | split

theorem gather_kept {ps : List Instr} (s : State) (t : TaskId) (x : Index) (w : Walk)
    (hK : Kept ps s) : Kept ps (gather s t x w) := by
  unfold gather
  repeat' first
      | with_reducible assumption | (with_reducible intro) | with_reducible apply finishTask_kept
      | with_reducible apply modTask_kept | with_reducible apply setWalk_kept | with_reducible apply sendUnits_kept
      | with_reducible apply foldl_kept
      | (extract_lets +onlyGivenNames xl
         first
           | (refine Kept.cut (q := ps) xl ?_ ?_; (on_goal 1 => subst xl); (on_goal 2 => (try clear_value xl; rename' xl => s; intro h)))
           | (clear_value xl; rename' xl => v))
      | split

theorem execRerank_kept {ps : List Instr} (t : TaskId) (s : State) (hK : Kept ps s) : KeptR ps (execRerank t s) := by
  unfold execRerank
  repeat' first
      | with_reducible assumption | with_reducible refine KeptR.next ?_ | with_reducible apply finishTask_kept
      | with_reducible apply gather_kept | with_reducible apply readFailed_kept | with_reducible apply updTile_kept
      | with_reducible apply modTask_kept | with_reducible apply finishQuery_kept
      | (extract_lets +onlyGivenNames xl
         first
           | (refine Kept.cut (q := ps) xl ?_ ?_; (on_goal 1 => subst xl); (on_goal 2 => (try clear_value xl; rename' xl => s; intro h)))
           | (clear_value xl; rename' xl => v))
      | split

theorem takeGraph_kept {ps : List Instr} (s : State) (g : Graph) (hK : Kept ps s) : Kept ps (takeGraph s g) := by
  unfold takeGraph
  repeat' first
      | with_reducible assumption | with_reducible apply traceDecide_kept | fail_if_no_progress with_reducible apply Kept.upd

theorem startShard_kept {ps : List Instr} (s : State) (g : Graph) (sh : Shard) (block code qv : List Byte)
    (hK : Kept ps s) : Kept ps (startShard s g sh block code qv).1 := by
  unfold startShard
  repeat' first
      | with_reducible assumption | with_reducible apply drawCorr_kept | with_reducible apply takeGraph_kept
      | with_reducible apply ctxSend_kept
      | (extract_lets +onlyGivenNames xl
         first
           | (refine Kept.cutSnd (q := ps) xl ?_ ?_; (on_goal 1 => subst xl); (on_goal 2 => (try clear_value xl; rename' xl => s; intro h)))
           | (clear_value xl; rename' xl => v))
      | split

theorem startShards_kept {ps : List Instr} (s : State) (g : Graph) (block code qv : List Byte) (y0 : List Shard)
    (hK : Kept ps s) : Kept ps (startShards s g block code qv y0).1 := by
  induction y0 generalizing s with
  | nil =>
    unfold startShards
    repeat' first | with_reducible assumption | with_reducible apply startShard_kept
  | cons y r ih =>
    unfold startShards
    repeat' first | with_reducible apply ih | with_reducible assumption | with_reducible apply startShard_kept

theorem finishFan_kept {ps : List Instr} (s : State) (t : TaskId) (g : Graph) (k : Task) (w : Walk)
    (hK : Kept ps s) : Kept ps (finishFan s t g k w) := by
  unfold finishFan
  repeat' first
      | with_reducible assumption | with_reducible apply setWalk_kept | with_reducible apply finishTask_kept
      | with_reducible apply writeResults_kept | with_reducible apply writeOp_kept
      | (extract_lets +onlyGivenNames xl
         first
           | (refine Kept.cut (q := ps) xl ?_ ?_; (on_goal 1 => subst xl); (on_goal 2 => (try clear_value xl; rename' xl => s; intro h)))
           | (clear_value xl; rename' xl => v))
      | split

theorem execFanOutQuery_kept {ps : List Instr} (t : TaskId) (s : State) (hK : Kept ps s) : KeptR ps (execFanOutQuery t s) := by
  unfold execFanOutQuery
  repeat' first
      | with_reducible assumption | with_reducible refine KeptR.next ?_ | with_reducible apply finishTask_kept
      | with_reducible apply readFailed_kept | with_reducible apply unpredictable_kept | with_reducible apply startShards_kept
      | with_reducible apply finishFan_kept
      | (extract_lets +onlyGivenNames xl
         first
           | (refine Kept.cutFst (q := ps) xl ?_ ?_; (on_goal 1 => subst xl); (on_goal 2 => (try clear_value xl; rename' xl => s; intro h)))
           | (clear_value xl; rename' xl => v))
      | split

theorem localAnswer_kept {ps : List Instr} (s : State) (pen corr status : Nat) (w : Walk)
    (hK : Kept ps s) : Kept ps (localAnswer s pen corr status w) := by
  unfold localAnswer
  repeat' first
      | with_reducible assumption | with_reducible apply finishFan_kept
      | (extract_lets +onlyGivenNames xl
         (clear_value xl; rename' xl => v))
      | split

theorem sendAnswer_kept {ps : List Instr} (s : State) (g : Graph) (hK : Kept ps s) : Kept ps (sendAnswer s g) := by
  unfold sendAnswer
  repeat' first
      | with_reducible assumption | (with_reducible intro) | with_reducible apply localAnswer_kept
      | with_reducible apply ctxSend_kept | with_reducible apply foldl_kept
      | (extract_lets +onlyGivenNames xl
         (clear_value xl; rename' xl => v))
      | split

theorem sendAnswers_kept {ps : List Instr} (s : State) (hK : Kept ps s) : Kept ps (sendAnswers s) := by
  unfold sendAnswers
  repeat' first
      | with_reducible assumption | (with_reducible intro) | with_reducible apply sendAnswer_kept
      | with_reducible apply foldl_kept | fail_if_no_progress with_reducible apply Kept.upd

end Sys2Proof.Machine
end

