-- ==== Sys2Proof/Laws/KeptObjects.lean ====
section
/-!
SUPPORT. The promise of Laws/Kept.lean, operation by operation: page tables, index and update commands.
Each lemma says that the operation leaves the queue of waiting commands as it is and keeps the invariant.
-/

namespace Sys2Proof.Machine

theorem readRow_kept {ps : List Instr} (s : State) (quad p num : Nat) (t : Table) (base row : Nat)
    (hK : Kept ps s) : Kept ps (readRow s quad p num t base row) := by
  unfold readRow
  repeat' first
      | with_reducible assumption | with_reducible apply updQuad_kept
      | (extract_lets +onlyGivenNames xl
         first
           | (refine Kept.cut (q := ps) xl ?_ ?_; (on_goal 1 => subst xl); (on_goal 2 => (try clear_value xl; rename' xl => s; intro h)))
           | (clear_value xl; rename' xl => v))
      | split

theorem uncacheRow_kept {ps : List Instr} (s : State) (p num base row : Nat)
    (hK : Kept ps s) : Kept ps (uncacheRow s p num base row) := by
  unfold uncacheRow
  repeat' first | with_reducible assumption | fail_if_no_progress with_reducible apply Kept.upd

theorem execSketchHalving_kept {ps : List Instr} (quad : Nat) (s : State)
    (hK : Kept ps s) : KeptR ps (execSketchHalving quad s) := by
  unfold execSketchHalving
  repeat' first | with_reducible assumption | with_reducible refine actWhen_kept ?_ ?_ | with_reducible apply updQuad_kept

theorem updateRow_kept {ps : List Instr} (t : TaskId) (g : Graph) (k : Task) (num : Nat) (tb : Table) (base : Nat)
    (x : State × List (Nat × Nat) × Nat) (u : Nat × Bool × List (List Byte))
    (hK : Kept ps x.1) : Kept ps (updateRow t g k num tb base x u).1 := by
  obtain ⟨sx, xr⟩ := x
  unfold updateRow
  repeat' first
      | with_reducible assumption | with_reducible apply drawTag_kept | with_reducible apply uncacheRow_kept
      | with_reducible apply writeOp_kept | fail_if_no_progress with_reducible apply Kept.upd
      | exact Kept.fst hK (by assumption)
      | (extract_lets +onlyGivenNames xl
         first
           | (refine Kept.cut (q := ps) xl ?_ ?_; (on_goal 1 => subst xl); (on_goal 2 => (try clear_value xl; rename' xl => s; intro h)))
           | (refine Kept.cutSnd (q := ps) xl ?_ ?_; (on_goal 1 => subst xl); (on_goal 2 => (try clear_value xl; rename' xl => s; intro h))))
      | split

theorem applyRows_kept {ps : List Instr} (s : State) (t : TaskId) (g : Graph) (k : Task) (num : Nat) (tb : Table)
    (base result : Nat) (us : List (Nat × Bool × List (List Byte)))
    (hK : Kept ps s) : Kept ps (applyRows s t g k num tb base result us) := by
  unfold applyRows
  repeat' first
      | with_reducible assumption | (with_reducible intro) | with_reducible apply updateRow_kept
      | with_reducible apply modTask_kept | with_reducible apply readFailed_kept | with_reducible apply finishTask_kept
      | with_reducible apply foldlFst_kept
      | (extract_lets +onlyGivenNames xl
         first
           | (refine Kept.cut (q := ps) xl ?_ ?_; (on_goal 1 => subst xl); (on_goal 2 => (try clear_value xl; rename' xl => s; intro h)))
           | (refine Kept.cutFst (q := ps) xl ?_ ?_; (on_goal 1 => subst xl); (on_goal 2 => (try clear_value xl; rename' xl => s; intro h))))
      | split

theorem noteRows_kept {ps : List Instr} (s : State) (t : TaskId) (num base : Nat) (idx : List Nat)
    (hK : Kept ps s) : Kept ps (noteRows s t num base idx) := by
  unfold noteRows
  repeat' first | with_reducible assumption | with_reducible apply modTask_kept

theorem spoilTables_kept {ps : List Instr} (s : State) (t : TaskId) (g : Graph) (k : Task)
    (hK : Kept ps s) : Kept ps (spoilTables s t g k) := by
  unfold spoilTables
  repeat' first | with_reducible assumption | with_reducible apply unpredictable_kept

theorem goneTable_kept {ps : List Instr} (s : State) (t : TaskId) (g : Graph) (k : Task)
    (hK : Kept ps s) : Kept ps (goneTable s t g k) := by
  unfold goneTable
  repeat' first | with_reducible assumption | with_reducible apply unpredictable_kept | with_reducible apply finishTask_kept | split

theorem execGather_kept {ps : List Instr} (t : TaskId) (s : State) (hK : Kept ps s) : KeptR ps (execGather t s) := by
  unfold execGather
  repeat' first
      | with_reducible assumption | (with_reducible intro) | with_reducible refine KeptR.next ?_
      | with_reducible apply finishTask_kept | with_reducible apply goneTable_kept | with_reducible apply readFailed_kept
      | with_reducible apply unpredictable_kept | with_reducible apply readRow_kept | with_reducible apply noteRows_kept
      | with_reducible apply writeOp_kept | with_reducible apply foldl_kept
      | (extract_lets +onlyGivenNames xl
         first
           | (refine Kept.cut (q := ps) xl ?_ ?_; (on_goal 1 => subst xl); (on_goal 2 => (try clear_value xl; rename' xl => s; intro h)))
           | (clear_value xl; rename' xl => v))
      | split

theorem execScatterWrite_kept {ps : List Instr} (t : TaskId) (s : State) (hK : Kept ps s) : KeptR ps (execScatterWrite t s) := by
  unfold execScatterWrite
  repeat' first
      | with_reducible assumption | with_reducible refine KeptR.next ?_ | with_reducible apply finishTask_kept
      | with_reducible apply goneTable_kept | with_reducible apply readFailed_kept | with_reducible apply spoilTables_kept
      | with_reducible apply applyRows_kept | with_reducible apply noteRows_kept
      | (extract_lets +onlyGivenNames xl
         (clear_value xl; rename' xl => v))
      | split

theorem noteOrder_kept {ps : List Instr} (s : State) (t : TaskId) (p num base : Nat) (rows : List Nat)
    (hK : Kept ps s) : Kept ps (noteOrder s t p num base rows) := by
  unfold noteOrder
  repeat' first
      | with_reducible assumption | (with_reducible intro) | with_reducible apply traceDecide_kept
      | with_reducible apply foldl_kept | fail_if_no_progress with_reducible apply Kept.upd
      | (extract_lets +onlyGivenNames xl
         first
           | (refine Kept.cut (q := ps) xl ?_ ?_; (on_goal 1 => subst xl); (on_goal 2 => (try clear_value xl; rename' xl => s; intro h)))
           | (clear_value xl; rename' xl => v))
      | split

theorem execScatterAdd_kept {ps : List Instr} (t : TaskId) (s : State) (hK : Kept ps s) : KeptR ps (execScatterAdd t s) := by
  unfold execScatterAdd
  repeat' first
      | with_reducible assumption | (with_reducible intro) | with_reducible refine KeptR.next ?_
      | with_reducible apply finishTask_kept | with_reducible apply goneTable_kept | with_reducible apply readFailed_kept
      | with_reducible apply spoilTables_kept | with_reducible apply unpredictable_kept | with_reducible apply readRow_kept
      | with_reducible apply noteOrder_kept | with_reducible apply noteRows_kept | with_reducible apply applyRows_kept
      | with_reducible apply foldl_kept
      | (extract_lets +onlyGivenNames xl
         first
           | (refine Kept.cut (q := ps) xl ?_ ?_; (on_goal 1 => subst xl); (on_goal 2 => (try clear_value xl; rename' xl => s; intro h)))
           | (clear_value xl; rename' xl => v))
      | split

theorem execClone_kept {ps : List Instr} (t : TaskId) (s : State) (hK : Kept ps s) : KeptR ps (execClone t s) := by
  unfold execClone
  repeat' first
      | with_reducible assumption | with_reducible refine KeptR.next ?_ | with_reducible apply finishTask_kept
      | with_reducible apply goneTable_kept | with_reducible apply unpredictable_kept | with_reducible apply readFailed_kept
      | with_reducible apply applyRows_kept
      | (extract_lets +onlyGivenNames xl
         (clear_value xl; rename' xl => v))
      | split

theorem zeroBale_kept {ps : List Instr} (s : State) (h : Home) (hK : Kept ps s) : Kept ps (zeroBale s h) := by
  unfold zeroBale
  repeat' first
      | with_reducible assumption | (with_reducible intro)
      | ((fail_if_success with_reducible apply Kept.upd); with_reducible apply Kept.updMem) | with_reducible apply Mem.zero_wf
      | (extract_lets +onlyGivenNames xl
         (clear_value xl; rename' xl => v))
      | split

theorem execTableCreate_kept {ps : List Instr} (t : TaskId) (s : State) (hK : Kept ps s) : KeptR ps (execTableCreate t s) := by
  unfold execTableCreate
  repeat' first
      | with_reducible assumption | (with_reducible intro) | with_reducible refine KeptR.next ?_
      | with_reducible apply readFailed_kept | with_reducible apply unpredictable_kept
      | with_reducible exact KeptO.get (newObject_kept _ _ _ _ _ _ (by assumption)) (by assumption)
      | with_reducible apply finishTask_kept | with_reducible apply zeroBale_kept | with_reducible apply foldl_kept
      | (extract_lets +onlyGivenNames xl
         (clear_value xl; rename' xl => v))
      | split

theorem execTableDestroy_kept {ps : List Instr} (t : TaskId) (s : State) (hK : Kept ps s) : KeptR ps (execTableDestroy t s) := by
  unfold execTableDestroy
  repeat' first
      | with_reducible assumption | with_reducible refine KeptR.next ?_ | with_reducible apply finishTask_kept
      | with_reducible apply destroyObj_kept | fail_if_no_progress with_reducible apply Kept.upd
      | (extract_lets +onlyGivenNames xl
         first
           | (refine Kept.cut (q := ps) xl ?_ ?_; (on_goal 1 => subst xl); (on_goal 2 => (try clear_value xl; rename' xl => s; intro h)))
           | (clear_value xl; rename' xl => v))
      | split

theorem takeSpot_kept {ps : List Instr} (s : State) (quad p num : Nat) (t : Table)
    (hK : Kept ps s) : KeptOP ps (takeSpot s quad p num t) := by
  unfold takeSpot
  repeat' first
      | with_reducible assumption | (with_reducible intro) | with_reducible refine KeptOP.some ?_
      | with_reducible apply updStack_kept | with_reducible apply KeptOP.map
      | (extract_lets +onlyGivenNames xl
         (clear_value xl; rename' xl => v))
      | split

theorem dropSpot_kept {ps : List Instr} (s : State) (p num : Nat) (x : RowMove)
    (hK : Kept ps s) : Kept ps (dropSpot s p num x) := by
  unfold dropSpot
  repeat' first | with_reducible assumption | with_reducible apply freeHome_kept | split

theorem execMigrationStart_kept {ps : List Instr} (quad pen object base row : Nat) (s : State)
    (hK : Kept ps s) : KeptR ps (execMigrationStart quad pen object base row s) := by
  unfold execMigrationStart
  repeat' first
      | with_reducible assumption | with_reducible refine KeptR.next ?_
      | with_reducible refine KeptOP.get (takeSpot_kept _ _ _ _ _ ?_) (by assumption) | with_reducible apply takePool_kept
      | with_reducible apply chargeBales_kept | fail_if_no_progress with_reducible apply Kept.upd
      | (extract_lets +onlyGivenNames xl
         (clear_value xl; rename' xl => v))
      | split

theorem modMig_kept {ps : List Instr} (s : State) (m : Migration) (f : Migration → Migration)
    (hK : Kept ps s) : Kept ps (modMig s m f) := by
  unfold modMig
  repeat' first | with_reducible assumption | fail_if_no_progress with_reducible apply Kept.upd

theorem migrationOver_kept {ps : List Instr} (quad entry status : Nat) (s : State) (t : TaskId)
    (hK : Kept ps s) : Kept ps (migrationOver quad entry status s t) := by
  unfold migrationOver
  repeat' first
      | with_reducible assumption | with_reducible apply finishTask_kept | with_reducible apply modTask_kept
      | (extract_lets +onlyGivenNames xl
         (clear_value xl; rename' xl => v))
      | split

theorem endMig_kept {ps : List Instr} (s : State) (m : Migration) (status : Nat)
    (hK : Kept ps s) : Kept ps (endMig s m status) := by
  unfold endMig
  repeat' first
      | with_reducible assumption | (with_reducible intro) | with_reducible apply creditBales_kept
      | with_reducible apply updStack_kept | with_reducible apply migrationOver_kept | with_reducible apply foldl_kept
      | fail_if_no_progress with_reducible apply Kept.upd

theorem dropMig_kept {ps : List Instr} (s : State) (m : Migration) (status : Nat)
    (hK : Kept ps s) : Kept ps (dropMig s m status) := by
  unfold dropMig
  repeat' first | with_reducible assumption | with_reducible apply dropSpot_kept | with_reducible apply endMig_kept

theorem execMigrationCopyEnd_kept {ps : List Instr} (quad entry : Nat) (s : State)
    (hK : Kept ps s) : KeptR ps (execMigrationCopyEnd quad entry s) := by
  unfold execMigrationCopyEnd
  repeat' first
      | with_reducible assumption | with_reducible refine KeptR.next ?_ | with_reducible apply dropMig_kept
      | with_reducible apply drawTag_kept | with_reducible apply agentWrite_kept | with_reducible apply modMig_kept
      | (extract_lets +onlyGivenNames xl
         first
           | (refine Kept.cutSnd (q := ps) xl ?_ ?_; (on_goal 1 => subst xl); (on_goal 2 => (try clear_value xl; rename' xl => s; intro h)))
           | (clear_value xl; rename' xl => v))
      | split

theorem applyOld_kept {ps : List Instr} (s : State) (m : Migration) (hK : Kept ps s) : Kept ps (applyOld s m) := by
  unfold applyOld
  repeat' first
      | with_reducible assumption | with_reducible apply drawTag_kept | with_reducible apply uncacheRow_kept
      | with_reducible apply writeHome_kept
      | (extract_lets +onlyGivenNames xl
         first
           | (refine Kept.cutSnd (q := ps) xl ?_ ?_; (on_goal 1 => subst xl); (on_goal 2 => (try clear_value xl; rename' xl => s; intro h)))
           | (clear_value xl; rename' xl => v))
      | split

theorem execMigrationCommit_kept {ps : List Instr} (quad entry : Nat) (s : State)
    (hK : Kept ps s) : KeptR ps (execMigrationCommit quad entry s) := by
  unfold execMigrationCommit
  repeat' first
      | with_reducible assumption | (with_reducible intro) | with_reducible refine KeptR.next ?_
      | with_reducible apply endMig_kept | with_reducible apply updObj_kept | with_reducible apply dropSpot_kept
      | with_reducible apply uncacheRow_kept | with_reducible apply updQuad_kept | with_reducible apply foldl_kept | split

theorem spoilRows_kept {ps : List Instr} (s : State) (g : Graph) (k : Task) (hK : Kept ps s) : Kept ps (spoilRows s g k) := by
  unfold spoilRows
  repeat' first
      | with_reducible assumption | (with_reducible intro) | with_reducible apply uncacheRow_kept
      | with_reducible apply smudgeOp_kept | with_reducible apply foldl_kept | split

theorem setIndex_kept {ps : List Instr} (s : State) (p num : Nat) (x : Index) (hK : Kept ps s) : Kept ps (setIndex s p num x) := by
  unfold setIndex
  repeat' first | with_reducible assumption | with_reducible apply updObj_kept

theorem freeStatus_kept {ps : List Instr} (s : State) (hK : Kept ps s) : Kept ps (freeStatus s).1 := by
  unfold freeStatus
  repeat' first | with_reducible assumption | with_reducible apply drawTag_kept

theorem streamRecs_kept {ps : List Instr} (s : State) (p : Nat) (x : Index) (l : List LogRec)
    (hK : Kept ps s) : Kept ps (streamRecs s p x l) := by
  unfold streamRecs
  repeat' first
      | with_reducible assumption | (with_reducible intro) | with_reducible apply ctxSend_kept | with_reducible apply foldl_kept
      | split

theorem fitIndex_kept {ps : List Instr} (s : State) (p num : Nat) (x : Index) (hK : Kept ps s) : KeptO ps (fitIndex s p num x) := by
  unfold fitIndex
  repeat' first
      | with_reducible assumption | with_reducible exact KeptO.none | with_reducible refine KeptO.some ?_
      | with_reducible apply creditBales_kept | with_reducible apply freeHomes'_kept | with_reducible apply updObj_kept
      | with_reducible refine KeptOP.get (takeHomes_kept _ _ _ ?_) (by assumption) | with_reducible apply chargeBales_kept
      | (extract_lets +onlyGivenNames xl
         first
           | (refine Kept.cut (q := ps) xl ?_ ?_; (on_goal 1 => subst xl); (on_goal 2 => (try clear_value xl; rename' xl => s; intro h)))
           | (clear_value xl; rename' xl => v))
      | split

theorem spoilIndex_kept {ps : List Instr} (s : State) (p num : Nat) (hK : Kept ps s) : Kept ps (spoilIndex s p num) := by
  unfold spoilIndex
  repeat' first | with_reducible assumption | with_reducible apply setIndex_kept | split

theorem storeIndex_kept {ps : List Instr} (s : State) (p num : Nat) (x y : Index)
    (hK : Kept ps s) : KeptO ps (storeIndex s p num x y) := by
  unfold storeIndex
  repeat' first
      | with_reducible assumption | (with_reducible intro) | with_reducible apply fitIndex_kept
      | with_reducible apply streamRecs_kept | with_reducible apply syncIndex_kept | with_reducible apply KeptO.mapSt

theorem keepIndex_kept {ps : List Instr} (s : State) (p num : Nat) (x y : Index)
    (hK : Kept ps s) : Kept ps (keepIndex s p num x y) := by
  unfold keepIndex
  repeat' first
      | with_reducible assumption | with_reducible apply storeIndex_kept | with_reducible apply streamRecs_kept
      | with_reducible apply syncIndex_kept | with_reducible apply setIndex_kept | with_reducible apply Kept.getD

theorem finishUpdate_kept {ps : List Instr} (s : State) (t : TaskId) (g : Graph) (k : Task) (num status applied found : Nat)
    (hK : Kept ps s) : Kept ps (finishUpdate s t g k num status applied found) := by
  unfold finishUpdate
  repeat' first
      | with_reducible assumption | with_reducible apply finishTask_kept | with_reducible apply setIndex_kept
      | with_reducible apply writeOp_kept | split

theorem tookEntry_kept {ps : List Instr} (s : State) (p num : Nat) (x y : Index) (t : TaskId) (entry : Nat)
    (hK : Kept ps s) : KeptO ps (tookEntry s p num x y t entry) := by
  unfold tookEntry
  repeat' first
      | with_reducible assumption | (with_reducible intro) | with_reducible apply storeIndex_kept
      | with_reducible apply traceDecide_kept | with_reducible apply KeptO.mapSt | split

theorem execInsert_kept {ps : List Instr} (t : TaskId) (s : State) (hK : Kept ps s) : KeptR ps (execInsert t s) := by
  unfold execInsert
  repeat' first
      | with_reducible assumption | with_reducible refine KeptR.next ?_ | with_reducible apply finishTask_kept
      | with_reducible apply unpredictable_kept | with_reducible apply spoilIndex_kept | with_reducible apply finishUpdate_kept
      | with_reducible exact KeptO.get (tookEntry_kept _ _ _ _ _ _ _ (by assumption)) (by assumption)
      | with_reducible apply modTask_kept
      | (extract_lets +onlyGivenNames xl
         (clear_value xl; rename' xl => v))
      | split

theorem execDelete_kept {ps : List Instr} (t : TaskId) (s : State) (hK : Kept ps s) : KeptR ps (execDelete t s) := by
  unfold execDelete
  repeat' first
      | with_reducible assumption | with_reducible refine KeptR.next ?_ | with_reducible apply finishTask_kept
      | with_reducible apply unpredictable_kept | with_reducible apply spoilIndex_kept | with_reducible apply finishUpdate_kept
      | with_reducible exact KeptO.get (tookEntry_kept _ _ _ _ _ _ _ (by assumption)) (by assumption)
      | with_reducible apply modTask_kept
      | (extract_lets +onlyGivenNames xl
         (clear_value xl; rename' xl => v))
      | split

theorem writePage_kept {ps : List Instr} (s : State) (x : Index) (sn : Snap) (epoch page : Nat)
    (hK : Kept ps s) : KeptO ps (writePage s x sn epoch page) := by
  unfold writePage
  repeat' first | with_reducible assumption | with_reducible apply programPage_kept | with_reducible apply updChan_kept

theorem writePages_kept {ps : List Instr} (s : State) (x : Index) (sn : Snap) (epoch : Nat) (y0 : List Nat)
    (hK : Kept ps s) : KeptO ps (writePages s x sn epoch y0) := by
  induction y0 generalizing s with
  | nil =>
    unfold writePages
    repeat' first
        | with_reducible assumption | with_reducible exact KeptO.none | with_reducible refine KeptO.some ?_
        | with_reducible exact KeptO.get (writePage_kept _ _ _ _ _ (by assumption)) (by assumption) | split
  | cons y r ih =>
    unfold writePages
    repeat' first
        | with_reducible apply ih | with_reducible assumption | with_reducible exact KeptO.none
        | with_reducible refine KeptO.some ?_
        | with_reducible exact KeptO.get (writePage_kept _ _ _ _ _ (by assumption)) (by assumption) | split

theorem writeVecs_kept {ps : List Instr} (s : State) (x : Index) (sn : Snap) (y0 : List Nat)
    (hK : Kept ps s) : KeptO ps (writeVecs s x sn y0) := by
  induction y0 generalizing s with
  | nil =>
    unfold writeVecs
    repeat' first
        | with_reducible assumption | with_reducible exact KeptO.none | with_reducible refine KeptO.some ?_
        | with_reducible exact KeptO.get (programPage_kept _ _ _ _ _ (by assumption)) (by assumption) | split
  | cons y r ih =>
    unfold writeVecs
    repeat' first
        | with_reducible apply ih | with_reducible assumption | with_reducible exact KeptO.none
        | with_reducible refine KeptO.some ?_
        | with_reducible exact KeptO.get (programPage_kept _ _ _ _ _ (by assumption)) (by assumption) | split

theorem writeBulks_kept {ps : List Instr} (s : State) (c space : Nat) (y0 : List (List (List (Nat × List Host.Cell))))
    (hK : Kept ps s) : KeptO ps (writeBulks s c space y0) := by
  induction y0 generalizing s with
  | nil =>
    unfold writeBulks
    repeat' first
        | with_reducible assumption | with_reducible exact KeptO.none | with_reducible refine KeptO.some ?_
        | with_reducible exact KeptO.get (programBulk_kept _ _ _ _ (by assumption)) (by assumption) | split
  | cons y r ih =>
    unfold writeBulks
    repeat' first
        | with_reducible apply ih | with_reducible assumption | with_reducible exact KeptO.none
        | with_reducible refine KeptO.some ?_
        | with_reducible exact KeptO.get (programBulk_kept _ _ _ _ (by assumption)) (by assumption) | split

theorem writeCkpt_kept {ps : List Instr} (s : State) (x : Index) (sn : Snap) (epoch : Nat)
    (hK : Kept ps s) : KeptO ps (writeCkpt s x sn epoch) := by
  unfold writeCkpt
  repeat' first | with_reducible assumption | with_reducible apply writeBulks_kept

theorem writeEpoch_kept {ps : List Instr} (s : State) (x : Index) (old sn : Snap) (epoch : Nat)
    (hK : Kept ps s) : KeptO ps (writeEpoch s x old sn epoch) := by
  unfold writeEpoch
  repeat' first
      | with_reducible assumption | (with_reducible intro) | with_reducible apply writePages_kept
      | with_reducible apply writeVecs_kept | with_reducible apply writeCkpt_kept | with_reducible apply KeptO.bindSt

theorem stageCommit_kept {ps : List Instr} (s : State) (x : Index) (epoch : Nat)
    (hK : Kept ps s) : Kept ps (stageCommit s x epoch) := by
  unfold stageCommit
  repeat' first | with_reducible assumption | with_reducible apply updChan_kept

theorem updStore_kept {ps : List Instr} (s : State) (space : Nat) (f : Store → Store)
    (hK : Kept ps s) : Kept ps (updStore s space f) := by
  unfold updStore
  repeat' first | with_reducible assumption | fail_if_no_progress with_reducible apply Kept.upd

theorem trimWhere_kept {ps : List Instr} (s : State) (p : Nat → Bool) (hK : Kept ps s) : Kept ps (trimWhere s p) := by
  unfold trimWhere
  repeat' first | with_reducible assumption | fail_if_no_progress with_reducible apply Kept.upd

theorem trimSpace_kept {ps : List Instr} (s : State) (space : Nat) (hK : Kept ps s) : Kept ps (trimSpace s space) := by
  unfold trimSpace
  repeat' first
      | with_reducible assumption | with_reducible apply trimWhere_kept | fail_if_no_progress with_reducible apply Kept.upd

theorem landStore_kept {ps : List Instr} (s : State) (x : Index) (epoch : Nat) (sn : Snap) (pos : Nat)
    (hK : Kept ps s) : Kept ps (landStore s x epoch sn pos) := by
  unfold landStore
  repeat' first | with_reducible assumption | with_reducible apply trimWhere_kept | with_reducible apply updStore_kept | split

theorem execEpochCommit_kept {ps : List Instr} (c : Cmd) (object : Nat) (report : OpRef) (s : State)
    (hK : Kept ps s) : KeptR ps (execEpochCommit c object report s) := by
  unfold execEpochCommit
  repeat' first
      | with_reducible assumption | (with_reducible intro) | with_reducible apply withCmd_kept
      | with_reducible apply complete_kept | with_reducible apply completeFree_kept | with_reducible apply writeHome_kept
      | with_reducible apply freeStatus_kept | with_reducible apply setIndex_kept
      | (extract_lets +onlyGivenNames xl
         first
           | (refine Kept.cutFst (q := ps) xl ?_ ?_; (on_goal 1 => subst xl); (on_goal 2 => (try clear_value xl; rename' xl => s; intro h)))
           | (clear_value xl; rename' xl => v))
      | split

theorem endCommit_kept {ps : List Instr} (s : State) (p : Nat) (c : Commit) (epoch status : Nat)
    (hK : Kept ps s) : Kept ps (endCommit s p c epoch status) := by
  unfold endCommit
  repeat' first | with_reducible assumption | with_reducible apply complete_kept | with_reducible apply writeHome_kept

theorem execSeal_kept {ps : List Instr} (pen object : Nat) (s : State) (hK : Kept ps s) : KeptR ps (execSeal pen object s) := by
  unfold execSeal
  repeat' first
      | with_reducible assumption | with_reducible refine KeptR.next ?_ | with_reducible refine KeptO.some ?_
      | with_reducible apply endCommit_kept | with_reducible apply setIndex_kept | with_reducible apply writeEpoch_kept
      | with_reducible apply traceDecide_kept | with_reducible apply keepIndex_kept
      | (extract_lets +onlyGivenNames xl
         (clear_value xl; rename' xl => v))
      | split | with_reducible refine KeptO.get ?_ (by assumption)

theorem landNext_kept {ps : List Instr} (s : State) (pen object : Nat) (x : Index) (l : Landing)
    (hK : Kept ps s) : Kept ps (landNext s pen object x l) := by
  unfold landNext
  repeat' first
      | with_reducible assumption | with_reducible refine KeptO.get (writeEpoch_kept _ _ _ _ _ ?_) (by assumption)
      | with_reducible apply setIndex_kept | with_reducible apply stageCommit_kept | with_reducible apply landStore_kept
      | with_reducible apply ctxSend_kept
      | (extract_lets +onlyGivenNames xl
         first
           | (refine Kept.cut (q := ps) xl ?_ ?_; (on_goal 1 => subst xl); (on_goal 2 => (try clear_value xl; rename' xl => s; intro h)))
           | (clear_value xl; rename' xl => v))
      | split

theorem finishSweepTask_kept {ps : List Instr} (e : Nat) (s : State) (t : TaskId)
    (hK : Kept ps s) : Kept ps (finishSweepTask e s t) := by
  unfold finishSweepTask
  repeat' first | with_reducible assumption | with_reducible apply finishTask_kept | split

theorem closeSweep_kept {ps : List Instr} (s : State) (p num : Nat) (x : Index) (sw : Sweep)
    (hK : Kept ps s) : Kept ps (closeSweep s p num x sw) := by
  unfold closeSweep
  repeat' first
      | with_reducible assumption | (with_reducible intro) | with_reducible apply traceDecide_kept
      | with_reducible apply keepIndex_kept | with_reducible apply finishSweepTask_kept | with_reducible apply foldl_kept

theorem beginSweep_kept {ps : List Instr} (s : State) (p num : Nat) (x : Index) (waiters : List TaskId)
    (hK : Kept ps s) : Kept ps (beginSweep s p num x waiters) := by
  unfold beginSweep
  repeat' first
      | with_reducible assumption | with_reducible apply traceDecide_kept | with_reducible apply keepIndex_kept
      | with_reducible apply closeSweep_kept
      | (extract_lets +onlyGivenNames xl
         (refine Kept.cut (q := ps) xl ?_ ?_; (on_goal 1 => subst xl); (on_goal 2 => (try clear_value xl; rename' xl => s; intro h))))
      | split

theorem execCommitComplete_kept {ps : List Instr} (pen object : Nat) (s : State)
    (hK : Kept ps s) : KeptR ps (execCommitComplete pen object s) := by
  unfold execCommitComplete
  repeat' first
      | with_reducible assumption | with_reducible refine KeptR.next ?_ | with_reducible apply landNext_kept
      | with_reducible apply setIndex_kept | with_reducible apply stageCommit_kept | with_reducible apply keepIndex_kept
      | with_reducible apply trimVersions_kept | with_reducible apply landStore_kept | with_reducible apply endCommit_kept
      | with_reducible apply complete_kept | with_reducible apply beginSweep_kept
      | (extract_lets +onlyGivenNames xl
         first
           | (refine Kept.cut (q := ps) xl ?_ ?_; (on_goal 1 => subst xl); (on_goal 2 => (try clear_value xl; rename' xl => s; intro h)))
           | (clear_value xl; rename' xl => v))
      | split

theorem execSweepEnd_kept {ps : List Instr} (pen object : Nat) (s : State)
    (hK : Kept ps s) : KeptR ps (execSweepEnd pen object s) := by
  unfold execSweepEnd
  repeat' first
      | with_reducible assumption | with_reducible refine KeptR.next ?_ | with_reducible apply closeSweep_kept
      | with_reducible apply beginSweep_kept
      | (extract_lets +onlyGivenNames xl
         (refine Kept.cut (q := ps) xl ?_ ?_; (on_goal 1 => subst xl); (on_goal 2 => (try clear_value xl; rename' xl => s; intro h))))
      | split

theorem execRepairSweepNow_kept {ps : List Instr} (t : TaskId) (s : State)
    (hK : Kept ps s) : KeptR ps (execRepairSweepNow t s) := by
  unfold execRepairSweepNow
  repeat' first
      | with_reducible assumption | with_reducible refine KeptR.next ?_ | with_reducible apply finishTask_kept
      | with_reducible apply unpredictable_kept | with_reducible apply setIndex_kept | with_reducible apply beginSweep_kept
      | split

theorem dropStores_kept {ps : List Instr} (s : State) (key : Nat) (hK : Kept ps s) : Kept ps (dropStores s key) := by
  unfold dropStores
  repeat' first
      | with_reducible assumption | (with_reducible intro) | with_reducible apply trimSpace_kept
      | with_reducible apply foldl_kept | fail_if_no_progress with_reducible apply Kept.upd

theorem makeIndex_kept {ps : List Instr} (s : State) (p num quad : Nat) (x : Index) (cb : List Byte) (epoch : Nat)
    (hK : Kept ps s) : KeptO ps (makeIndex s p num quad x cb epoch) := by
  unfold makeIndex
  repeat' first
      | with_reducible assumption | (with_reducible intro) | with_reducible apply newObject_kept
      | with_reducible apply syncIndex_kept | with_reducible apply dropStores_kept | with_reducible apply KeptO.mapSt
      | fail_if_no_progress with_reducible apply Kept.upd
      | (extract_lets +onlyGivenNames xl
         first
           | (refine Kept.cut (q := ps) xl ?_ ?_; (on_goal 1 => subst xl); (on_goal 2 => (try clear_value xl; rename' xl => s; intro h)))
           | (clear_value xl; rename' xl => v))
      | split

theorem createNow_kept {ps : List Instr} (s : State) (t : TaskId) (g : Graph) (k : Task) (db cb : List Byte)
    (hK : Kept ps s) : Kept ps (createNow s t g k db cb) := by
  unfold createNow
  repeat' first
      | with_reducible assumption
      | with_reducible exact KeptO.get (makeIndex_kept _ _ _ _ _ _ _ (by assumption)) (by assumption)
      | with_reducible apply finishTask_kept
      | (extract_lets +onlyGivenNames xl
         (clear_value xl; rename' xl => v))
      | split

theorem createTwice_kept {ps : List Instr} (s : State) (t : TaskId) (g : Graph) (k : Task) (db cb : List Byte)
    (hK : Kept ps s) : Kept ps (createTwice s t g k db cb) := by
  unfold createTwice
  repeat' first
      | with_reducible assumption
      | with_reducible exact KeptO.get (makeIndex_kept _ _ _ _ _ _ _ (by assumption)) (by assumption)
      | with_reducible apply unpredictable_kept | with_reducible apply drawTag_kept | with_reducible apply updPen_kept
      | with_reducible apply putObj_kept
      | (extract_lets +onlyGivenNames xl
         (clear_value xl; rename' xl => v))
      | split

theorem execIndexCreate_kept {ps : List Instr} (t : TaskId) (s : State) (hK : Kept ps s) : KeptR ps (execIndexCreate t s) := by
  unfold execIndexCreate
  repeat' first
      | with_reducible assumption | with_reducible refine KeptR.next ?_ | with_reducible apply readFailed_kept
      | with_reducible apply unpredictable_kept | with_reducible apply createTwice_kept | with_reducible apply finishTask_kept
      | with_reducible apply drawCorr_kept | with_reducible apply modTask_kept | with_reducible apply ctxSend_kept
      | with_reducible apply createNow_kept
      | (extract_lets +onlyGivenNames xl
         first
           | (refine Kept.cut (q := ps) xl ?_ ?_; (on_goal 1 => subst xl); (on_goal 2 => (try clear_value xl; rename' xl => s; intro h)))
           | (refine Kept.cutSnd (q := ps) xl ?_ ?_; (on_goal 1 => subst xl); (on_goal 2 => (try clear_value xl; rename' xl => s; intro h)))
           | (clear_value xl; rename' xl => v))
      | split

theorem execIndexOpen_kept {ps : List Instr} (t : TaskId) (s : State) (hK : Kept ps s) : KeptR ps (execIndexOpen t s) := by
  unfold execIndexOpen
  repeat' first
      | with_reducible assumption | with_reducible refine KeptR.next ?_ | with_reducible apply readFailed_kept
      | with_reducible apply unpredictable_kept | with_reducible apply createTwice_kept | with_reducible apply finishTask_kept
      | with_reducible exact KeptO.get (newObject_kept _ _ _ _ _ _ (by assumption)) (by assumption)
      | with_reducible refine KeptO.get (fitIndex_kept _ _ _ _ ?_) (by assumption) | with_reducible apply updStore_kept
      | with_reducible apply syncIndex_kept
      | (extract_lets +onlyGivenNames xl
         (clear_value xl; rename' xl => v))
      | split

theorem rebuildFails_kept {ps : List Instr} (s : State) (t : TaskId) (x : Index) (status : Nat)
    (hK : Kept ps s) : Kept ps (rebuildFails s t x status) := by
  unfold rebuildFails
  repeat' first | with_reducible assumption | with_reducible apply finishTask_kept | with_reducible apply dropStores_kept | split

theorem execRebuildIndex_kept {ps : List Instr} (t : TaskId) (s : State) (hK : Kept ps s) : KeptR ps (execRebuildIndex t s) := by
  unfold execRebuildIndex
  repeat' first
      | with_reducible assumption | (with_reducible intro) | with_reducible refine KeptR.next ?_
      | with_reducible apply finishTask_kept | with_reducible apply readFailed_kept | with_reducible apply unpredictable_kept
      | with_reducible apply createTwice_kept | with_reducible apply rebuildFails_kept | with_reducible apply makeIndex_kept
      | with_reducible apply fitIndex_kept | with_reducible apply syncIndex_kept | with_reducible apply modTask_kept
      | with_reducible apply KeptO.bindSt
      | (extract_lets +onlyGivenNames xl
         (clear_value xl; rename' xl => v))
      | split | with_reducible refine KeptO.get ?_ (by assumption)

theorem execDestroy_kept {ps : List Instr} (t : TaskId) (s : State) (hK : Kept ps s) : KeptR ps (execDestroy t s) := by
  unfold execDestroy
  repeat' first
      | with_reducible assumption | (with_reducible intro) | with_reducible refine KeptR.next ?_
      | with_reducible apply finishTask_kept | with_reducible apply unpredictable_kept | with_reducible apply destroyObj_kept
      | with_reducible apply completeFree_kept | with_reducible apply updStore_kept | with_reducible apply trimSpace_kept
      | with_reducible apply foldl_kept | fail_if_no_progress with_reducible apply Kept.upd
      | (extract_lets +onlyGivenNames xl
         first
           | (refine Kept.cut (q := ps) xl ?_ ?_; (on_goal 1 => subst xl); (on_goal 2 => (try clear_value xl; rename' xl => s; intro h)))
           | (clear_value xl; rename' xl => v))
      | split

end Sys2Proof.Machine
end

