-- ==== Sys2Proof/Laws/KeptMoves.lean ====
section
/-!
SUPPORT. The promise of Laws/Kept.lean, operation by operation: the DMA engine, the drover, lending, mirrors, keys, contexts and the host port.
Each lemma says that the operation leaves the queue of waiting commands as it is and keeps the invariant.
-/

namespace Sys2Proof.Machine

theorem copyPoisoned_kept {ps : List Instr} (s : State) (t : TaskId) (g : Graph) (k : Task) (n : Nat)
    (hK : Kept ps s) : Kept ps (copyPoisoned s t g k n) := by
  unfold copyPoisoned
  repeat' first
      | with_reducible assumption | with_reducible apply readFailed_kept | fail_if_no_progress with_reducible apply Kept.upd

theorem copyOut_kept {ps : List Instr} (s : State) (t : TaskId) (g : Graph) (k : Task) (n : Nat) (bs : List Byte)
    (hK : Kept ps s) : Kept ps (copyOut s t g k n bs) := by
  unfold copyOut
  repeat' first
      | with_reducible assumption | with_reducible apply modTask_kept | with_reducible apply finishTask_kept
      | with_reducible apply writeOp_kept | with_reducible apply writeUnits_kept | with_reducible apply settleOrdered_kept
      | (extract_lets +onlyGivenNames xl
         first
           | (refine Kept.cut (q := ps) xl ?_ ?_; (on_goal 1 => subst xl); (on_goal 2 => (try clear_value xl; rename' xl => s; intro h)))
           | (refine Kept.cutSt (q := ps) xl ?_ ?_; (on_goal 1 => (subst xl; intros; beta_reduce)); (on_goal 2 => (try clear_value xl; rename' xl => s; intro hF)))
           | (clear_value xl; rename' xl => v))
      | with_reducible apply hF | split

theorem copyRemote_kept {ps : List Instr} (s : State) (t : TaskId) (g : Graph) (k : Task) (n : Nat) (read : Bool)
    (b : Nat × Nat × Nat × Nat × Bool) (bs : List Byte) (hK : Kept ps s) : Kept ps (copyRemote s t g k n read b bs) := by
  unfold copyRemote
  repeat' first
      | with_reducible assumption | (with_reducible intro) | with_reducible apply finishTask_kept
      | with_reducible apply readFailed_kept | with_reducible apply drawCorr_kept | with_reducible apply ctxSend_kept
      | with_reducible apply modTask_kept | with_reducible apply foldl_kept
      | (extract_lets +onlyGivenNames xl
         first
           | (refine Kept.cut (q := ps) xl ?_ ?_; (on_goal 1 => subst xl); (on_goal 2 => (try clear_value xl; rename' xl => s; intro h)))
           | (refine Kept.cutSnd (q := ps) xl ?_ ?_; (on_goal 1 => subst xl); (on_goal 2 => (try clear_value xl; rename' xl => s; intro h)))
           | (clear_value xl; rename' xl => v))
      | split

theorem droverBusError_kept {ps : List Instr} (s : State) (t : TaskId) (g : Graph) (k : Task) (e : BusErr)
    (hK : Kept ps s) : Kept ps (droverBusError s t g k e) := by
  unfold droverBusError
  repeat' first
      | with_reducible assumption | (with_reducible intro) | with_reducible apply updDma_kept
      | with_reducible apply smudgeOp_kept | with_reducible apply finishTask_kept | with_reducible apply foldl_kept

theorem execCopy_kept {ps : List Instr} (t : TaskId) (s : State) (hK : Kept ps s) : KeptR ps (execCopy t s) := by
  unfold execCopy
  repeat' first
      | with_reducible assumption | with_reducible refine KeptR.next ?_ | with_reducible apply unpredictable_kept
      | with_reducible apply droverBusError_kept | with_reducible apply askLines_kept | with_reducible apply copyRemote_kept
      | with_reducible apply copyPoisoned_kept | with_reducible apply readFailed_kept | with_reducible apply finishTask_kept
      | with_reducible apply smudgeOp_kept | with_reducible apply modTask_kept | with_reducible apply copyOut_kept
      | (extract_lets +onlyGivenNames xl
         (clear_value xl; rename' xl => v))
      | split

theorem execFill_kept {ps : List Instr} (t : TaskId) (s : State) (hK : Kept ps s) : KeptR ps (execFill t s) := by
  unfold execFill
  repeat' first
      | with_reducible assumption | with_reducible refine KeptR.next ?_ | with_reducible apply unpredictable_kept
      | with_reducible apply droverBusError_kept | with_reducible apply copyRemote_kept | with_reducible apply copyOut_kept
      | (extract_lets +onlyGivenNames xl
         (clear_value xl; rename' xl => v))
      | split

theorem spaceWrite_kept {ps : List Instr} (s : State) (t : Option TaskId) (node : Bool) (a : Nat) (bs : List Byte)
    (hK : Kept ps s) : Kept ps (spaceWrite s t node a bs) := by
  unfold spaceWrite
  repeat' first | with_reducible assumption | with_reducible apply agentWrite_kept | with_reducible apply hostWrite_kept | split

theorem reportDesc_kept {ps : List Instr} (s : State) (n : Nat) (x : Descr) (hK : Kept ps s) : Kept ps (reportDesc s n x) := by
  unfold reportDesc
  repeat' first
      | with_reducible assumption | with_reducible apply spaceWrite_kept | with_reducible apply updDma_kept
      | with_reducible apply emit_kept | with_reducible apply vecCount_kept
      | (extract_lets +onlyGivenNames xl
         first
           | (refine Kept.cut (q := ps) xl ?_ ?_; (on_goal 1 => subst xl); (on_goal 2 => (try clear_value xl; rename' xl => s; intro h)))
           | (clear_value xl; rename' xl => v))
      | split

theorem retireDescs_kept {ps : List Instr} (s : State) (n : Nat) (y0 : Nat) (hK : Kept ps s) : Kept ps (retireDescs s n y0) := by
  induction y0 generalizing s with
  | zero =>
    unfold retireDescs
    repeat' first
        | with_reducible assumption | with_reducible apply reportDesc_kept | with_reducible apply updDma_kept
        | (extract_lets +onlyGivenNames xl
           (clear_value xl; rename' xl => v))
        | split
  | succ k ih =>
    unfold retireDescs
    repeat' first
        | with_reducible apply ih | with_reducible assumption | with_reducible apply reportDesc_kept
        | with_reducible apply updDma_kept
        | (extract_lets +onlyGivenNames xl
           (clear_value xl; rename' xl => v))
        | split

theorem retire1_kept {ps : List Instr} (s : State) (n : Nat) (hK : Kept ps s) : Kept ps (retire1 s n) := by
  unfold retire1
  repeat' first | with_reducible assumption | with_reducible apply retireDescs_kept

theorem enableDma_kept {ps : List Instr} (s : State) (n : Nat) (hK : Kept ps s) : Kept ps (enableDma s n) := by
  unfold enableDma
  repeat' first | with_reducible assumption | with_reducible apply updDma_kept

theorem stopDma_kept {ps : List Instr} (s : State) (n : Nat) (hK : Kept ps s) : Kept ps (stopDma s n) := by
  unfold stopDma
  repeat' first | with_reducible assumption | with_reducible apply updDma_kept | with_reducible apply retire1_kept

theorem execDmaEnable_kept {ps : List Instr} (channel : Nat) (s : State) (hK : Kept ps s) : KeptR ps (execDmaEnable channel s) := by
  unfold execDmaEnable
  repeat' first | with_reducible assumption | with_reducible refine actWhen_kept ?_ ?_ | with_reducible apply enableDma_kept

theorem execDmaStop_kept {ps : List Instr} (channel : Nat) (s : State) (hK : Kept ps s) : KeptR ps (execDmaStop channel s) := by
  unfold execDmaStop
  repeat' first | with_reducible assumption | with_reducible refine actWhen_kept ?_ ?_ | with_reducible apply stopDma_kept

theorem restartDma_kept {ps : List Instr} (s : State) (n : Nat) (skip : Bool) (hK : Kept ps s) : Kept ps (restartDma s n skip) := by
  unfold restartDma
  repeat' first
      | with_reducible assumption | with_reducible apply drawTag_kept | with_reducible apply updDma_kept
      | with_reducible apply retire1_kept | split

theorem execDmaRestart_kept {ps : List Instr} (channel : Nat) (skip : Bool) (s : State)
    (hK : Kept ps s) : KeptR ps (execDmaRestart channel skip s) := by
  unfold execDmaRestart
  repeat' first | with_reducible assumption | with_reducible refine actWhen_kept ?_ ?_ | with_reducible apply restartDma_kept

theorem execDmaTest_kept {ps : List Instr} (channel : Nat) (s : State) (hK : Kept ps s) : KeptR ps (execDmaTest channel s) := by
  unfold execDmaTest
  repeat' first | with_reducible assumption | with_reducible refine actWhen_kept ?_ ?_ | with_reducible apply updDma_kept

theorem loseDma_kept {ps : List Instr} (s : State) (n : Nat) (hK : Kept ps s) : Kept ps (loseDma s n) := by
  unfold loseDma
  repeat' first
      | with_reducible assumption | with_reducible apply postEvent_kept | with_reducible apply markOut_kept
      | with_reducible apply updDma_kept

theorem execDmaDoorbell_kept {ps : List Instr} (channel : Nat) (writes : List (Nat × Byte)) (s : State)
    (hK : Kept ps s) : KeptR ps (execDmaDoorbell channel writes s) := by
  unfold execDmaDoorbell
  repeat' first
      | with_reducible assumption | (with_reducible intro) | with_reducible refine actWhen_kept ?_ ?_
      | with_reducible apply updDma_kept | ((fail_if_success with_reducible apply Kept.upd); with_reducible apply Kept.updMem)
      | with_reducible apply Mem.sets_wf

theorem execDmaCqheadWrite_kept {ps : List Instr} (channel : Nat) (value : W32) (s : State)
    (hK : Kept ps s) : KeptR ps (execDmaCqheadWrite channel value s) := by
  unfold execDmaCqheadWrite
  repeat' first
      | with_reducible assumption | with_reducible refine actWhen_kept ?_ ?_ | with_reducible apply retire1_kept
      | with_reducible apply updDma_kept

theorem execDescriptorFetchDone_kept {ps : List Instr} (channel : Nat) (s : State)
    (hK : Kept ps s) : KeptR ps (execDescriptorFetchDone channel s) := by
  unfold execDescriptorFetchDone
  repeat' first | with_reducible assumption | with_reducible refine actWhen_kept ?_ ?_ | with_reducible apply updDma_kept

theorem haltDma_kept {ps : List Instr} (s : State) (n index : Nat) (e : BusErr)
    (hK : Kept ps s) : Kept ps (haltDma s n index e) := by
  unfold haltDma
  repeat' first | with_reducible assumption | with_reducible apply updDma_kept

theorem runDescr_kept {ps : List Instr} (s : State) (key : TaskId) (x : Descr) (hK : Kept ps s) : Kept ps (runDescr s key x).1 := by
  unfold runDescr
  repeat' first
      | with_reducible assumption | with_reducible apply spaceWrite_kept | fail_if_no_progress with_reducible apply Kept.upd
      | (extract_lets +onlyGivenNames xl
         first
           | (refine Kept.cut (q := ps) xl ?_ ?_; (on_goal 1 => subst xl); (on_goal 2 => (try clear_value xl; rename' xl => s; intro h)))
           | (clear_value xl; rename' xl => v))
      | split

theorem smudgeDst_kept {ps : List Instr} (s : State) (x : Descr) (hK : Kept ps s) : Kept ps (smudgeDst s x) := by
  unfold smudgeDst
  repeat' first
      | with_reducible assumption | (with_reducible intro) | with_reducible apply drawTag_kept
      | ((fail_if_success with_reducible apply Kept.upd); with_reducible apply Kept.updMem) | with_reducible apply Mem.smudge_wf
      | with_reducible refine (Kept.inv (q := ps) ?_).mem | with_reducible refine (Kept.inv (q := ps) ?_).host
      | (extract_lets +onlyGivenNames xl
         first
           | (refine Kept.cut (q := ps) xl ?_ ?_; (on_goal 1 => subst xl); (on_goal 2 => (try clear_value xl; rename' xl => s; intro h)))
           | (refine Kept.cutSnd (q := ps) xl ?_ ?_; (on_goal 1 => subst xl); (on_goal 2 => (try clear_value xl; rename' xl => s; intro h))))
      | split

theorem execDescriptorComplete_kept {ps : List Instr} (channel index : Nat) (s : State)
    (hK : Kept ps s) : KeptR ps (execDescriptorComplete channel index s) := by
  unfold execDescriptorComplete
  repeat' first
      | with_reducible assumption | with_reducible refine KeptR.next ?_ | with_reducible refine actWhen_kept ?_ ?_
      | with_reducible apply retire1_kept | with_reducible apply updDma_kept | with_reducible apply forgetWrites_kept
      | with_reducible apply drawTag_kept | with_reducible apply smudgeDst_kept | with_reducible apply haltDma_kept
      | with_reducible apply askLines_kept | with_reducible apply runDescr_kept
      | (extract_lets +onlyGivenNames xl
         first
           | (refine Kept.cutFst (q := ps) xl ?_ ?_; (on_goal 1 => subst xl); (on_goal 2 => (try clear_value xl; rename' xl => s; intro h)))
           | (refine Kept.cutSnd (q := ps) xl ?_ ?_; (on_goal 1 => subst xl); (on_goal 2 => (try clear_value xl; rename' xl => s; intro h)))
           | (refine Kept.cutSt2 (q := ps) xl ?_ ?_; (on_goal 1 => (subst xl; intros; beta_reduce)); (on_goal 2 => (try clear_value xl; rename' xl => s; intro hF)))
           | (clear_value xl; rename' xl => v))
      | with_reducible apply hF | split

theorem busErrorOn_kept {ps : List Instr} (channel index : Nat) (task : Option TaskId) (err : BusErr) (s : State)
    (hK : Kept ps s) : Kept ps (busErrorOn channel index task err s) := by
  unfold busErrorOn
  repeat' first
      | with_reducible assumption | with_reducible apply haltDma_kept | with_reducible apply updDma_kept
      | with_reducible apply droverBusError_kept | split

theorem execBusError_kept {ps : List Instr} (channel index : Nat) (task : Option TaskId) (err : BusErr) (s : State)
    (hK : Kept ps s) : KeptR ps (execBusError channel index task err s) := by
  unfold execBusError
  repeat' first | with_reducible assumption | with_reducible refine KeptR.next ?_ | with_reducible apply busErrorOn_kept

theorem execErrinfoClear_kept {ps : List Instr} (channel : Nat) (sameCycle : Option (Nat × Option TaskId × BusErr)) (s : State)
    (hK : Kept ps s) : KeptR ps (execErrinfoClear channel sameCycle s) := by
  unfold execErrinfoClear
  repeat' first
      | with_reducible assumption | with_reducible refine KeptR.next ?_ | with_reducible apply updDma_kept
      | with_reducible apply busErrorOn_kept
      | (extract_lets +onlyGivenNames xl
         (refine Kept.cut (q := ps) xl ?_ ?_; (on_goal 1 => subst xl); (on_goal 2 => (try clear_value xl; rename' xl => s; intro h))))
      | split

theorem pageIn_kept {ps : List Instr} (s : State) (t : TaskId) (g : Graph) (q : Nat) (l : List BaleId)
    (hK : Kept ps s) : Kept ps (pageIn s t g q l) := by
  unfold pageIn
  repeat' first
      | with_reducible assumption | (with_reducible intro) | with_reducible apply startFill_kept
      | with_reducible apply foldl_kept | with_reducible apply Kept.getD | split

theorem makeRoom_kept {ps : List Instr} (s : State) (st n : Nat) (y0 : Nat) (hK : Kept ps s) : KeptO ps (makeRoom s st n y0) := by
  induction y0 generalizing s with
  | zero =>
    unfold makeRoom
    repeat' first
        | with_reducible assumption | with_reducible exact KeptO.none | with_reducible refine KeptO.some ?_
        | with_reducible apply dropCopy_kept | split
  | succ k ih =>
    unfold makeRoom
    repeat' first
        | with_reducible apply ih | with_reducible assumption | with_reducible exact KeptO.none
        | with_reducible refine KeptO.some ?_ | with_reducible apply dropCopy_kept | split

theorem homeScratch_kept {ps : List Instr} (s : State) (acc n : Nat) (homes : List Home) (tag : Nat)
    (hK : Kept ps s) : Kept ps (homeScratch s acc n homes tag) := by
  unfold homeScratch
  repeat' first
      | with_reducible assumption | (with_reducible intro) | with_reducible apply modGraph_kept
      | with_reducible apply foldl_kept | ((fail_if_success with_reducible apply Kept.upd); with_reducible apply Kept.updMem)
      | with_reducible apply Mem.smudge_wf | split

theorem placeScratch_kept {ps : List Instr} (s : State) (acc : Nat) (tile : Option Nat) (st : Nat) (x : Nat × Scratch)
    (hK : Kept ps s) : Kept ps (placeScratch s acc tile st x) := by
  unfold placeScratch
  repeat' first
      | with_reducible assumption | with_reducible apply drawTag_kept | with_reducible apply homeScratch_kept
      | with_reducible apply takePools_kept
      | (extract_lets +onlyGivenNames xl
         first
           | (refine Kept.cutFst (q := ps) xl ?_ ?_; (on_goal 1 => subst xl); (on_goal 2 => (try clear_value xl; rename' xl => s; intro h)))
           | (refine Kept.cutSnd (q := ps) xl ?_ ?_; (on_goal 1 => subst xl); (on_goal 2 => (try clear_value xl; rename' xl => s; intro h)))
           | (clear_value xl; rename' xl => v))
      | split

theorem takeReq_kept {ps : List Instr} (s : State) (t : TaskId) (p q st n : Nat)
    (hK : Kept ps s) : Kept ps (takeReq s t p q st n) := by
  unfold takeReq
  repeat' first
      | with_reducible assumption | with_reducible apply takePools_kept | with_reducible apply chargeBales_kept
      | fail_if_no_progress with_reducible apply Kept.upd
      | (extract_lets +onlyGivenNames xl
         first
           | (refine Kept.cut (q := ps) xl ?_ ?_; (on_goal 1 => subst xl); (on_goal 2 => (try clear_value xl; rename' xl => s; intro h)))
           | (refine Kept.cutFst (q := ps) xl ?_ ?_; (on_goal 1 => subst xl); (on_goal 2 => (try clear_value xl; rename' xl => s; intro h)))
           | (clear_value xl; rename' xl => v))
      | split

theorem stateStack_kept {ps : List Instr} (s : State) (g : Graph) (q : Nat) (hs : List (Nat × Scratch)) (need : Nat)
    (hK : Kept ps s) : Kept ps (stateStack s g q hs need).1 := by
  unfold stateStack
  repeat' first
      | with_reducible assumption | with_reducible apply drawTag_kept
      | (extract_lets +onlyGivenNames xl
         (refine Kept.cutSnd (q := ps) xl ?_ ?_; (on_goal 1 => subst xl); (on_goal 2 => (try clear_value xl; rename' xl => s; intro h))))
      | split

theorem placeSlots_kept {ps : List Instr} (s : State) (t : TaskId) (g : Graph) (k : Task) (q : Nat) (tile : Option Nat)
    (hK : Kept ps s) : KeptO ps (placeSlots s t g k q tile) := by
  unfold placeSlots
  repeat' first
      | with_reducible assumption | (with_reducible intro) | with_reducible exact KeptO.none
      | with_reducible refine KeptO.some ?_ | with_reducible apply stateStack_kept | with_reducible apply makeRoom_kept
      | with_reducible apply placeScratch_kept | with_reducible apply takeReq_kept | with_reducible apply foldl_kept
      | with_reducible apply KeptO.mapSt
      | (extract_lets +onlyGivenNames xl
         first
           | (refine Kept.cutFst (q := ps) xl ?_ ?_; (on_goal 1 => subst xl); (on_goal 2 => (try clear_value xl; rename' xl => s; intro h)))
           | (clear_value xl; rename' xl => v))
      | split

theorem bindTask_kept {ps : List Instr} (s : State) (t : TaskId) (g : Graph) (k : Task)
    (hK : Kept ps s) : Kept ps (bindTask s t g k) := by
  unfold bindTask
  repeat' first
      | with_reducible assumption | with_reducible apply traceDecide_kept | with_reducible apply modTask_kept
      | (extract_lets +onlyGivenNames xl
         (clear_value xl; rename' xl => v))
      | split

theorem pageCrown_kept {ps : List Instr} (s : State) (t : TaskId) (g : Graph) (k : Task) (u : Nat)
    (hK : Kept ps s) : KeptO ps (pageCrown s t g k u) := by
  unfold pageCrown
  repeat' first
      | with_reducible assumption | (with_reducible intro) | with_reducible exact KeptO.none
      | with_reducible refine KeptO.some ?_ | with_reducible apply updTile_kept | with_reducible apply foldl_kept
      | ((fail_if_success with_reducible apply Kept.upd); with_reducible apply Kept.updMem) | with_reducible apply Mem.write_wf
      | (extract_lets +onlyGivenNames xl
         first
           | (refine Kept.cut (q := ps) xl ?_ ?_; (on_goal 1 => subst xl); (on_goal 2 => (try clear_value xl; rename' xl => s; intro h)))
           | (clear_value xl; rename' xl => v))
      | split

theorem modelResidency_kept {ps : List Instr} (s : State) (t : TaskId) (g : Graph) (k : Task) (q : Nat)
    (hK : Kept ps s) : Kept ps (modelResidency s t g k q) := by
  unfold modelResidency
  repeat' first
      | with_reducible assumption | with_reducible apply updQuad_kept
      | (extract_lets +onlyGivenNames xl
         (clear_value xl; rename' xl => v))
      | split

theorem enterLists_kept {ps : List Instr} (s : State) (t : TaskId) (g : Graph) (k : Task) (q : Nat)
    (hK : Kept ps s) : Kept ps (enterLists s t g k q) := by
  unfold enterLists
  repeat' first
      | with_reducible assumption | with_reducible apply updQuad_kept | fail_if_no_progress with_reducible apply Kept.upd
      | (extract_lets +onlyGivenNames xl
         first
           | (refine Kept.cut (q := ps) xl ?_ ?_; (on_goal 1 => subst xl); (on_goal 2 => (try clear_value xl; rename' xl => s; intro h)))
           | (clear_value xl; rename' xl => v))
      | split

theorem recInputs_kept {ps : List Instr} (s : State) (g : Graph) (k : Task) (hK : Kept ps s) : Kept ps (recInputs s g k) := by
  unfold recInputs
  repeat' first
      | with_reducible assumption | (with_reducible intro) | with_reducible apply recOp_kept | with_reducible apply foldl_kept
      | (extract_lets +onlyGivenNames xl
         (clear_value xl; rename' xl => v))
      | split

theorem issueTask_kept {ps : List Instr} (s : State) (t : TaskId) (g : Graph) (k : Task) (kind : UnitKind) (q : Nat)
    (unit : Nat × Nat) (hK : Kept ps s) : Kept ps (issueTask s t g k kind q unit) := by
  unfold issueTask
  repeat' first
      | with_reducible assumption | (with_reducible intro) | with_reducible apply chargePen_kept
      | with_reducible apply enterLists_kept | with_reducible apply updTile_kept | with_reducible apply modelResidency_kept
      | with_reducible apply recInputs_kept | with_reducible apply bindTask_kept | with_reducible apply modTask_kept
      | with_reducible apply pinBale_kept | with_reducible apply foldl_kept | fail_if_no_progress with_reducible apply Kept.upd
      | split

theorem tryIssue_kept {ps : List Instr} (s : State) (t : TaskId) (g : Graph) (k : Task) (kind : UnitKind) (channel : Nat)
    (hK : Kept ps s) : KeptT ps (tryIssue s t g k kind channel) := by
  unfold tryIssue
  repeat' first
      | with_reducible assumption | with_reducible refine KeptT.done ?_ | with_reducible refine KeptT.passed ?_
      | with_reducible refine KeptO.some ?_ | with_reducible apply failTask_kept | with_reducible apply unpredictable_kept
      | with_reducible apply issueTask_kept | with_reducible apply pageIn_kept
      | with_reducible exact KeptO.get (placeSlots_kept _ _ _ _ _ _ (by assumption)) (by assumption)
      | with_reducible apply pageCrown_kept
      | (extract_lets +onlyGivenNames xl
         (clear_value xl; rename' xl => v))
      | split | with_reducible refine KeptO.get ?_ (by assumption)

theorem tryAll_kept {ps : List Instr} (kind : UnitKind) (channel : Nat) (y0 : State) (y1 : List (TaskId × Graph × Task))
    (hK : Kept ps y0) : Kept ps (tryAll kind channel y0 y1) := by
  induction y1 generalizing y0 with
  | nil =>
    unfold tryAll
    repeat' first
        | with_reducible assumption | with_reducible refine KeptT.getDone (tryIssue_kept _ _ _ _ _ _ ?_) (by assumption)
        | with_reducible refine KeptT.getPassed (tryIssue_kept _ _ _ _ _ _ ?_) (by assumption) | split
  | cons y r ih =>
    unfold tryAll
    repeat' first
        | with_reducible apply ih | with_reducible assumption
        | with_reducible refine KeptT.getDone (tryIssue_kept _ _ _ _ _ _ ?_) (by assumption)
        | with_reducible refine KeptT.getPassed (tryIssue_kept _ _ _ _ _ _ ?_) (by assumption) | split

theorem execTaskIssue_kept {ps : List Instr} (kind : UnitKind) (channel : Nat) (s : State)
    (hK : Kept ps s) : KeptR ps (execTaskIssue kind channel s) := by
  unfold execTaskIssue
  repeat' first
      | with_reducible assumption | with_reducible refine actWhen_kept ?_ ?_ | with_reducible apply sendAnswers_kept
      | with_reducible apply tryAll_kept | with_reducible apply fetchAhead_kept

theorem smudgeClashes_kept {ps : List Instr} (s : State) (t : TaskId) (g : Graph) (k : Task)
    (hK : Kept ps s) : Kept ps (smudgeClashes s t g k) := by
  unfold smudgeClashes
  repeat' first
      | with_reducible assumption | (with_reducible intro) | with_reducible apply smudgeOp_kept
      | with_reducible apply wildLine_kept | with_reducible apply foldl_kept
      | (extract_lets +onlyGivenNames xl
         (refine Kept.cut (q := ps) xl ?_ ?_; (on_goal 1 => subst xl); (on_goal 2 => (try clear_value xl; rename' xl => s; intro h))))
      | split

theorem sendMapupd_kept {ps : List Instr} (s : State) (c gen : Nat) (grant : Bool) (num obj bytes : Nat)
    (hK : Kept ps s) : Kept ps (sendMapupd s c gen grant num obj bytes) := by
  unfold sendMapupd
  repeat' first | with_reducible assumption | with_reducible apply ctxSend_kept

theorem evictHost_kept {ps : List Instr} (s : State) (o : Obj) (hK : Kept ps s) : Kept ps (evictHost s o) := by
  unfold evictHost
  repeat' first
      | with_reducible assumption | (with_reducible intro) | with_reducible apply evict_kept | with_reducible apply foldl_kept
      | split

theorem lendTo_kept {ps : List Instr} (s : State) (p num kind c bnum : Nat) (cmd : Cmd)
    (hK : Kept ps s) : Kept ps (lendTo s p num kind c bnum cmd) := by
  unfold lendTo
  repeat' first
      | with_reducible assumption | with_reducible apply complete_kept | with_reducible apply sendMapupd_kept
      | with_reducible apply updObj_kept | with_reducible apply evictHost_kept
      | (extract_lets +onlyGivenNames xl
         first
           | (refine Kept.cut (q := ps) xl ?_ ?_; (on_goal 1 => subst xl); (on_goal 2 => (try clear_value xl; rename' xl => s; intro h)))
           | (refine Kept.cutSt (q := ps) xl ?_ ?_; (on_goal 1 => (subst xl; intros; beta_reduce)); (on_goal 2 => (try clear_value xl; rename' xl => s; intro hF)))
           | (clear_value xl; rename' xl => v))
      | with_reducible apply hF | split

theorem execLend_kept {ps : List Instr} (c : Cmd) (b : KBlock) (s : State) (hK : Kept ps s) : KeptR ps (execLend c b s) := by
  unfold execLend
  repeat' first
      | with_reducible assumption | (with_reducible intro) | with_reducible apply withKeyedArgs_kept
      | with_reducible apply complete_kept | with_reducible apply updObj_kept | with_reducible apply lendTo_kept
      | (extract_lets +onlyGivenNames xl
         (clear_value xl; rename' xl => v))
      | split

theorem sendRresp_kept {ps : List Instr} (s : State) (m : FlueMsg) (st : Nat) (data : List Byte)
    (hK : Kept ps s) : Kept ps (sendRresp s m st data) := by
  unfold sendRresp
  repeat' first
      | with_reducible assumption | with_reducible apply ctxSend_kept | fail_if_no_progress with_reducible apply Kept.upd
      | (extract_lets +onlyGivenNames xl
         (clear_value xl; rename' xl => v))
      | split

theorem serveLent_kept {ps : List Instr} (s : State) (p : Nat) (m : FlueMsg) (hK : Kept ps s) : Kept ps (serveLent s p m) := by
  unfold serveLent
  repeat' first
      | with_reducible assumption | with_reducible apply sendRresp_kept | with_reducible apply writeHome_kept
      | (extract_lets +onlyGivenNames xl
         (clear_value xl; rename' xl => v))
      | split

theorem takeRequest_kept {ps : List Instr} (s : State) (m : FlueMsg) (hK : Kept ps s) : Kept ps (takeRequest s m) := by
  unfold takeRequest
  repeat' first
      | with_reducible assumption | with_reducible apply sendRresp_kept | with_reducible apply updObj_kept
      | with_reducible apply serveLent_kept
      | (extract_lets +onlyGivenNames xl
         (clear_value xl; rename' xl => v))
      | split

theorem execRread_kept {ps : List Instr} (m : FlueMsg) (s : State) (hK : Kept ps s) : KeptR ps (execRread m s) := by
  unfold execRread
  repeat' first
      | with_reducible assumption | (with_reducible intro) | with_reducible refine KeptR.next ?_
      | with_reducible apply askLines_kept | with_reducible apply onMsg_kept | with_reducible apply takeRequest_kept
      | (extract_lets +onlyGivenNames xl
         (clear_value xl; rename' xl => v))
      | split

theorem execRwrite_kept {ps : List Instr} (m : FlueMsg) (s : State) (hK : Kept ps s) : KeptR ps (execRwrite m s) := by
  unfold execRwrite
  repeat' first
      | with_reducible assumption | (with_reducible intro) | with_reducible apply onMsg_kept
      | with_reducible apply takeRequest_kept

theorem execLendHandoverDone_kept {ps : List Instr} (pen object : Nat) (s : State)
    (hK : Kept ps s) : KeptR ps (execLendHandoverDone pen object s) := by
  unfold execLendHandoverDone
  repeat' first
      | with_reducible assumption | (with_reducible intro) | with_reducible refine KeptR.next ?_
      | with_reducible apply evictHost_kept | with_reducible apply askLines_kept | with_reducible apply updObj_kept
      | with_reducible apply complete_kept | with_reducible apply serveLent_kept | with_reducible apply lendTo_kept
      | with_reducible apply foldl_kept
      | (extract_lets +onlyGivenNames xl
         first
           | (refine Kept.cut (q := ps) xl ?_ ?_; (on_goal 1 => subst xl); (on_goal 2 => (try clear_value xl; rename' xl => s; intro h)))
           | (clear_value xl; rename' xl => v))
      | split

theorem poisonOut_kept {ps : List Instr} (s : State) (g : Graph) (k : Task) (m : FlueMsg)
    (hK : Kept ps s) : Kept ps (poisonOut s g k m) := by
  unfold poisonOut
  repeat' first | with_reducible assumption | fail_if_no_progress with_reducible apply Kept.upd

theorem takeRresp_kept {ps : List Instr} (s : State) (m : FlueMsg) (hK : Kept ps s) : Kept ps (takeRresp s m) := by
  unfold takeRresp
  repeat' first
      | with_reducible assumption | (with_reducible intro) | with_reducible apply writeOp_kept
      | with_reducible apply poisonOut_kept | with_reducible apply modTask_kept | with_reducible apply finishTask_kept
      | with_reducible apply smudgeOp_kept | with_reducible apply foldl_kept
      | (extract_lets +onlyGivenNames xl
         first
           | (refine Kept.cut (q := ps) xl ?_ ?_; (on_goal 1 => subst xl); (on_goal 2 => (try clear_value xl; rename' xl => s; intro h)))
           | (clear_value xl; rename' xl => v))
      | split

theorem execRresp_kept {ps : List Instr} (m : FlueMsg) (s : State) (hK : Kept ps s) : KeptR ps (execRresp m s) := by
  unfold execRresp
  repeat' first
      | with_reducible assumption | (with_reducible intro) | with_reducible apply onMsg_kept
      | with_reducible apply takeRresp_kept

theorem execMapupd_kept {ps : List Instr} (m : FlueMsg) (s : State) (hK : Kept ps s) : KeptR ps (execMapupd m s) := by
  unfold execMapupd
  repeat' first
      | with_reducible assumption | (with_reducible intro) | with_reducible apply onMsg_kept | with_reducible apply putObj_kept
      | (extract_lets +onlyGivenNames xl
         first
           | (clear_value xl; rename' xl => v)
           | subst xl)
      | split

theorem loseLends_kept {ps : List Instr} (s : State) (c : Nat) (hK : Kept ps s) : Kept ps (loseLends s c) := by
  unfold loseLends
  repeat' first
      | with_reducible assumption | (with_reducible intro) | with_reducible apply finishTask_kept
      | with_reducible apply updPen_kept | with_reducible apply complete_kept | with_reducible apply foldl_kept

theorem ackEpoch_kept {ps : List Instr} (s : State) (c num e : Nat) (flash : Bool)
    (hK : Kept ps s) : Kept ps (ackEpoch s c num e flash) := by
  unfold ackEpoch
  repeat' first | with_reducible assumption | with_reducible apply ctxSend_kept | split

theorem targetCommit_kept {ps : List Instr} (s : State) (p num c : Nat) (x : Index) (e : Nat)
    (hK : Kept ps s) : Kept ps (targetCommit s p num c x e) := by
  unfold targetCommit
  repeat' first | with_reducible assumption | with_reducible apply ackEpoch_kept | with_reducible apply keepIndex_kept

theorem targetRec_kept {ps : List Instr} (s : State) (p num c : Nat) (r : LogRec)
    (hK : Kept ps s) : Kept ps (targetRec s p num c r) := by
  unfold targetRec
  repeat' first | with_reducible assumption | with_reducible apply targetCommit_kept | with_reducible apply keepIndex_kept | split

theorem takeRec_kept {ps : List Instr} (s : State) (m : FlueMsg) (hK : Kept ps s) : Kept ps (takeRec s m) := by
  unfold takeRec
  repeat' first
      | with_reducible assumption | with_reducible apply setIndex_kept | with_reducible apply targetRec_kept
      | (extract_lets +onlyGivenNames xl
         (clear_value xl; rename' xl => v))
      | split

theorem execMrec_kept {ps : List Instr} (m : FlueMsg) (s : State) (hK : Kept ps s) : KeptR ps (execMrec m s) := by
  unfold execMrec
  repeat' first
      | with_reducible assumption | (with_reducible intro) | with_reducible apply onMsg_kept | with_reducible apply takeRec_kept

theorem execMcommit_kept {ps : List Instr} (m : FlueMsg) (s : State) (hK : Kept ps s) : KeptR ps (execMcommit m s) := by
  unfold execMcommit
  repeat' first
      | with_reducible assumption | (with_reducible intro) | with_reducible apply onMsg_kept | with_reducible apply ctxSend_kept
      | with_reducible apply takeRec_kept | split

theorem sendLoad_kept {ps : List Instr} (s : State) (p num c : Nat) (x : Index) (m : MirrorLoad)
    (hK : Kept ps s) : Kept ps (sendLoad s p num c x m) := by
  unfold sendLoad
  repeat' first
      | with_reducible assumption | (with_reducible intro) | with_reducible apply ctxSend_kept
      | with_reducible apply setIndex_kept | with_reducible apply streamRecs_kept | with_reducible apply foldl_kept

theorem confirmCreate_kept {ps : List Instr} (s : State) (m : FlueMsg) (hK : Kept ps s) : Kept ps (confirmCreate s m) := by
  unfold confirmCreate
  repeat' first
      | with_reducible assumption | with_reducible apply finishTask_kept | with_reducible apply readFailed_kept
      | with_reducible apply createNow_kept | split

theorem takeMack_kept {ps : List Instr} (s : State) (m : FlueMsg) (hK : Kept ps s) : Kept ps (takeMack s m) := by
  unfold takeMack
  repeat' first
      | with_reducible assumption | with_reducible apply sendLoad_kept | with_reducible apply complete_kept
      | with_reducible apply setIndex_kept
      | (extract_lets +onlyGivenNames xl
         (clear_value xl; rename' xl => v))
      | split

theorem execMack_kept {ps : List Instr} (m : FlueMsg) (s : State) (hK : Kept ps s) : KeptR ps (execMack m s) := by
  unfold execMack
  repeat' first
      | with_reducible assumption | (with_reducible intro) | with_reducible apply onMsg_kept
      | with_reducible apply confirmCreate_kept | with_reducible apply takeMack_kept | split

theorem installLoad_kept {ps : List Instr} (s : State) (p num c : Nat) (x : Index) (b : List Byte)
    (hK : Kept ps s) : Kept ps (installLoad s p num c x b) := by
  unfold installLoad
  repeat' first
      | with_reducible assumption | (with_reducible intro) | with_reducible apply ackEpoch_kept
      | with_reducible apply keepIndex_kept | with_reducible apply targetRec_kept | with_reducible apply foldl_kept

theorem loadPart_kept {ps : List Instr} (s : State) (m : FlueMsg) (p num : Nat) (x : Index)
    (hK : Kept ps s) : Kept ps (loadPart s m p num x) := by
  unfold loadPart
  repeat' first
      | with_reducible assumption | with_reducible apply setIndex_kept | with_reducible apply ctxSend_kept
      | with_reducible apply installLoad_kept
      | (extract_lets +onlyGivenNames xl
         first
           | (refine Kept.cut (q := ps) xl ?_ ?_; (on_goal 1 => subst xl); (on_goal 2 => (try clear_value xl; rename' xl => s; intro h)))
           | (clear_value xl; rename' xl => v))
      | split

theorem execLoad_kept {ps : List Instr} (m : FlueMsg) (s : State) (hK : Kept ps s) : KeptR ps (execLoad m s) := by
  unfold execLoad
  repeat' first
      | with_reducible assumption | (with_reducible intro) | with_reducible apply onMsg_kept | with_reducible apply ctxSend_kept
      | with_reducible apply rejectMsg_kept | with_reducible apply loadPart_kept | split

theorem execMirrorLoad_kept {ps : List Instr} (c : Cmd) (b : KBlock) (s : State)
    (hK : Kept ps s) : KeptR ps (execMirrorLoad c b s) := by
  unfold execMirrorLoad
  repeat' first
      | with_reducible assumption | (with_reducible intro) | with_reducible apply withKeyedArgs_kept
      | with_reducible apply complete_kept | with_reducible apply completeFree_kept | with_reducible apply setIndex_kept
      | with_reducible apply ctxSend_kept
      | (extract_lets +onlyGivenNames xl
         first
           | (refine Kept.cut (q := ps) xl ?_ ?_; (on_goal 1 => subst xl); (on_goal 2 => (try clear_value xl; rename' xl => s; intro h)))
           | (clear_value xl; rename' xl => v))
      | split

theorem execMirrorPromote_kept {ps : List Instr} (c : Cmd) (b : KBlock) (s : State)
    (hK : Kept ps s) : KeptR ps (execMirrorPromote c b s) := by
  unfold execMirrorPromote
  repeat' first
      | with_reducible assumption | (with_reducible intro) | with_reducible apply withKeyedArgs_kept
      | with_reducible apply complete_kept | with_reducible apply completeFree_kept | with_reducible apply keepIndex_kept
      | (extract_lets +onlyGivenNames xl
         (clear_value xl; rename' xl => v))
      | split

theorem loseMirrors_kept {ps : List Instr} (s : State) (c : Nat) (hK : Kept ps s) : Kept ps (loseMirrors s c) := by
  unfold loseMirrors
  repeat' first
      | with_reducible assumption | (with_reducible intro) | with_reducible apply updPen_kept
      | with_reducible apply releaseEpochs_kept | with_reducible apply complete_kept | with_reducible apply foldl_kept

theorem withSkex_kept {ps : List Instr} (s : State) (c : Cmd) (f : State → Nat → State) (hf : ∀ s x0, Kept ps s → Kept ps
    (f s x0)) (hK : Kept ps s) : KeptR ps (withSkex s c f) := by
  unfold withSkex
  repeat' first
      | with_reducible assumption | (with_reducible intro) | with_reducible apply hf | with_reducible apply withCmd_kept
      | with_reducible apply complete_kept | with_reducible apply completeFree_kept | split

theorem execSubmit_kept {ps : List Instr} (c : Cmd) (graph : OpRef) (s : State)
    (hK : Kept ps s) : KeptR ps (execSubmit c graph s) := by
  unfold execSubmit
  repeat' first
      | with_reducible assumption | (with_reducible intro) | with_reducible apply withSkex_kept
      | with_reducible apply updCtl_kept

theorem execSkexFence_kept {ps : List Instr} (c : Cmd) (penScope durable : Bool) (s : State)
    (hK : Kept ps s) : KeptR ps (execSkexFence c penScope durable s) := by
  unfold execSkexFence
  repeat' first
      | with_reducible assumption | (with_reducible intro) | with_reducible apply withSkex_kept | with_reducible apply wake_kept
      | fail_if_no_progress with_reducible apply Kept.upd

theorem execOrderedWrite_kept {ps : List Instr} (c : Cmd) (slba blocks : Nat) (fua : Bool) (prp : List Nat) (s : State)
    (hK : Kept ps s) : KeptR ps (execOrderedWrite c slba blocks fua prp s) := by
  unfold execOrderedWrite
  repeat' first
      | with_reducible assumption | (with_reducible intro) | with_reducible refine KeptR.next ?_
      | with_reducible apply withSkex_kept | with_reducible apply prpRec_kept | with_reducible apply chargeIo_kept
      | with_reducible apply updCtl_kept | with_reducible apply startOrdered_kept | with_reducible apply settleOrdered_kept
      | (extract_lets +onlyGivenNames xl
         first
           | (refine Kept.cut (q := ps) xl ?_ ?_; (on_goal 1 => subst xl); (on_goal 2 => (try clear_value xl; rename' xl => s; intro h)))
           | (clear_value xl; rename' xl => v))
      | split

theorem execTableSwitch_kept {ps : List Instr} (c : Cmd) (object base : Nat) (s : State)
    (hK : Kept ps s) : KeptR ps (execTableSwitch c object base s) := by
  unfold execTableSwitch
  repeat' first
      | with_reducible assumption | (with_reducible intro) | with_reducible apply withSkex_kept
      | with_reducible apply updObj_kept | with_reducible apply completeFree_kept | with_reducible apply complete_kept
      | with_reducible apply drawTag_kept
      | (extract_lets +onlyGivenNames xl
         first
           | (refine Kept.cutSnd (q := ps) xl ?_ ?_; (on_goal 1 => subst xl); (on_goal 2 => (try clear_value xl; rename' xl => s; intro h)))
           | (refine Kept.cutSt2 (q := ps) xl ?_ ?_; (on_goal 1 => (subst xl; intros; beta_reduce)); (on_goal 2 => (try clear_value xl; rename' xl => s; intro hF)))
           | (clear_value xl; rename' xl => v))
      | with_reducible apply hF | split

theorem execRegionCreate_kept {ps : List Instr} (c : Cmd) (object first blocks : Nat) (s : State)
    (hK : Kept ps s) : KeptR ps (execRegionCreate c object first blocks s) := by
  unfold execRegionCreate
  repeat' first
      | with_reducible assumption | (with_reducible intro) | with_reducible apply withSkex_kept
      | with_reducible apply completeFree_kept | with_reducible apply complete_kept | with_reducible apply putObj_kept
      | (extract_lets +onlyGivenNames xl
         (clear_value xl; rename' xl => v))
      | split

theorem execRegionDestroy_kept {ps : List Instr} (c : Cmd) (object : Nat) (s : State)
    (hK : Kept ps s) : KeptR ps (execRegionDestroy c object s) := by
  unfold execRegionDestroy
  repeat' first
      | with_reducible assumption | (with_reducible intro) | with_reducible apply withSkex_kept
      | with_reducible apply complete_kept | with_reducible apply dropObj_kept
      | (extract_lets +onlyGivenNames xl
         (clear_value xl; rename' xl => v))
      | split

theorem execMap_kept {ps : List Instr} (c : Cmd) (object capacity : Nat) (list : OpRef) (s : State)
    (hK : Kept ps s) : KeptR ps (execMap c object capacity list s) := by
  unfold execMap
  repeat' first
      | with_reducible assumption | (with_reducible intro) | with_reducible apply withSkex_kept
      | with_reducible apply complete_kept | with_reducible apply updObj_kept | with_reducible apply smudgeOp_kept
      | with_reducible apply writeHome_kept
      | (extract_lets +onlyGivenNames xl
         first
           | (refine Kept.cut (q := ps) xl ?_ ?_; (on_goal 1 => subst xl); (on_goal 2 => (try clear_value xl; rename' xl => s; intro h)))
           | (clear_value xl; rename' xl => v))
      | split

theorem execUnmap_kept {ps : List Instr} (c : Cmd) (object : Nat) (s : State)
    (hK : Kept ps s) : KeptR ps (execUnmap c object s) := by
  unfold execUnmap
  repeat' first
      | with_reducible assumption | (with_reducible intro) | with_reducible apply withSkex_kept
      | with_reducible apply complete_kept | with_reducible apply updObj_kept
      | (extract_lets +onlyGivenNames xl
         (clear_value xl; rename' xl => v))
      | split

theorem sendOpen_kept {ps : List Instr} (s : State) (c : Nat) (hK : Kept ps s) : Kept ps (sendOpen s c) := by
  unfold sendOpen
  repeat' first | with_reducible assumption | with_reducible apply sendMsg_kept

theorem execOpenMsg_kept {ps : List Instr} (m : FlueMsg) (s : State) (hK : Kept ps s) : KeptR ps (execOpenMsg m s) := by
  unfold execOpenMsg
  repeat' first
      | with_reducible assumption | with_reducible refine KeptR.next ?_
      | with_reducible exact KeptO.get (takeInbox_kept _ _ _ (by assumption)) (by assumption)
      | with_reducible refine KeptO.get (takeInbox_kept _ _ _ ?_) (by assumption) | with_reducible apply rejectMsg_kept
      | with_reducible apply flueIn_kept | with_reducible apply updCtx_kept | with_reducible apply sendOpen_kept
      | with_reducible apply drainCtx_kept
      | (extract_lets +onlyGivenNames xl
         first
           | (refine Kept.cut (q := ps) xl ?_ ?_; (on_goal 1 => subst xl); (on_goal 2 => (try clear_value xl; rename' xl => s; intro h)))
           | (clear_value xl; rename' xl => v))
      | split

theorem loseShards_kept {ps : List Instr} (s : State) (c : Nat) (t : TaskId) (hK : Kept ps s) : Kept ps (loseShards s c t) := by
  unfold loseShards
  repeat' first
      | with_reducible assumption | with_reducible apply finishFan_kept
      | (extract_lets +onlyGivenNames xl
         (clear_value xl; rename' xl => v))
      | split

theorem loseCtx_kept {ps : List Instr} (s : State) (c : Nat) (hK : Kept ps s) : Kept ps (loseCtx s c) := by
  unfold loseCtx
  repeat' first
      | with_reducible assumption | (with_reducible intro) | with_reducible apply finishTask_kept
      | with_reducible apply loseShards_kept | with_reducible apply loseLends_kept | with_reducible apply loseMirrors_kept
      | with_reducible apply updCtx_kept | with_reducible apply foldl_kept

theorem execClose_kept {ps : List Instr} (m : FlueMsg) (s : State) (hK : Kept ps s) : KeptR ps (execClose m s) := by
  unfold execClose
  repeat' first
      | with_reducible assumption | (with_reducible intro) | with_reducible apply onMsg_kept | with_reducible apply loseCtx_kept

theorem execFlueAck_kept {ps : List Instr} (m : FlueMsg) (s : State) (hK : Kept ps s) : KeptR ps (execFlueAck m s) := by
  unfold execFlueAck
  repeat' first
      | with_reducible assumption | with_reducible refine KeptR.next ?_
      | with_reducible exact KeptO.get (takeInbox_kept _ _ _ (by assumption)) (by assumption)
      | with_reducible refine KeptO.get (takeInbox_kept _ _ _ ?_) (by assumption) | with_reducible apply rejectMsg_kept
      | with_reducible apply updCtx_kept | with_reducible apply drainCtx_kept
      | (extract_lets +onlyGivenNames xl
         first
           | (refine Kept.cut (q := ps) xl ?_ ?_; (on_goal 1 => subst xl); (on_goal 2 => (try clear_value xl; rename' xl => s; intro h)))
           | (clear_value xl; rename' xl => v))
      | split

theorem execResendTimeout_kept {ps : List Instr} (ctx vc : Nat) (s : State)
    (hK : Kept ps s) : KeptR ps (execResendTimeout ctx vc s) := by
  unfold execResendTimeout
  repeat' first
      | with_reducible assumption | (with_reducible intro) | with_reducible refine KeptR.next ?_
      | with_reducible apply sendOpen_kept | with_reducible apply sendMsg_kept | with_reducible apply updCtx_kept
      | with_reducible apply foldl_kept
      | (extract_lets +onlyGivenNames xl
         first
           | (refine Kept.cut (q := ps) xl ?_ ?_; (on_goal 1 => subst xl); (on_goal 2 => (try clear_value xl; rename' xl => s; intro h)))
           | (clear_value xl; rename' xl => v))
      | split

theorem execPeerTimeout_kept {ps : List Instr} (ctx : Nat) (s : State) (hK : Kept ps s) : KeptR ps (execPeerTimeout ctx s) := by
  unfold execPeerTimeout
  repeat' first | with_reducible assumption | with_reducible refine actWhen_kept ?_ ?_ | with_reducible apply loseCtx_kept

theorem execFlueCtxOpen_kept {ps : List Instr} (c : Cmd) (b : KBlock) (s : State)
    (hK : Kept ps s) : KeptR ps (execFlueCtxOpen c b s) := by
  unfold execFlueCtxOpen
  repeat' first
      | with_reducible assumption | (with_reducible intro) | with_reducible apply withKeyedArgs_kept
      | with_reducible apply complete_kept | with_reducible apply updCtx_kept | with_reducible apply sendOpen_kept
      | fail_if_no_progress with_reducible apply Kept.upd
      | (extract_lets +onlyGivenNames xl
         first
           | (refine Kept.cut (q := ps) xl ?_ ?_; (on_goal 1 => subst xl); (on_goal 2 => (try clear_value xl; rename' xl => s; intro h)))
           | (clear_value xl; rename' xl => v))
      | split

theorem closeCtx_kept {ps : List Instr} (s : State) (n : Nat) (hK : Kept ps s) : Kept ps (closeCtx s n) := by
  unfold closeCtx
  repeat' first
      | with_reducible assumption | with_reducible apply sendMsg_kept | with_reducible apply loseCtx_kept
      | with_reducible apply updCtx_kept
      | (extract_lets +onlyGivenNames xl
         subst xl)
      | split

theorem execFlueCtxClose_kept {ps : List Instr} (c : Cmd) (b : KBlock) (s : State)
    (hK : Kept ps s) : KeptR ps (execFlueCtxClose c b s) := by
  unfold execFlueCtxClose
  repeat' first
      | with_reducible assumption | (with_reducible intro) | with_reducible apply withKeyedArgs_kept
      | with_reducible apply complete_kept | with_reducible apply closeCtx_kept
      | (extract_lets +onlyGivenNames xl
         (clear_value xl; rename' xl => v))
      | split

theorem execFlueRoute_kept {ps : List Instr} (c : Cmd) (b : KBlock) (s : State)
    (hK : Kept ps s) : KeptR ps (execFlueRoute c b s) := by
  unfold execFlueRoute
  repeat' first
      | with_reducible assumption | (with_reducible intro) | with_reducible apply withKeyedArgs_kept
      | with_reducible apply complete_kept | with_reducible apply flushOutbox_kept
      | fail_if_no_progress with_reducible apply Kept.upd

theorem execFlueSend_kept {ps : List Instr} (t : TaskId) (s : State) (hK : Kept ps s) : KeptR ps (execFlueSend t s) := by
  unfold execFlueSend
  repeat' first
      | with_reducible assumption | with_reducible refine KeptR.next ?_ | with_reducible apply unpredictable_kept
      | with_reducible apply finishTask_kept | with_reducible apply readFailed_kept | with_reducible apply modTask_kept
      | with_reducible apply ctxSend_kept
      | (extract_lets +onlyGivenNames xl
         first
           | (refine Kept.cut (q := ps) xl ?_ ?_; (on_goal 1 => subst xl); (on_goal 2 => (try clear_value xl; rename' xl => s; intro h)))
           | (clear_value xl; rename' xl => v))
      | split

theorem putAnswer_kept {ps : List Instr} (s : State) (m : FlueMsg) (st : Nat) (hK : Kept ps s) : Kept ps (putAnswer s m st) := by
  unfold putAnswer
  repeat' first | with_reducible assumption | with_reducible apply ctxSend_kept

theorem takePut_kept {ps : List Instr} (s : State) (m : FlueMsg) (hK : Kept ps s) : Kept ps (takePut s m) := by
  unfold takePut
  repeat' first
      | with_reducible assumption | with_reducible apply putAnswer_kept | with_reducible apply freeStatus_kept
      | with_reducible apply writeHome_kept | with_reducible apply postRec_kept | with_reducible apply smudgeOp_kept
      | (extract_lets +onlyGivenNames xl
         first
           | (refine Kept.cutFst (q := ps) xl ?_ ?_; (on_goal 1 => subst xl); (on_goal 2 => (try clear_value xl; rename' xl => s; intro h)))
           | (clear_value xl; rename' xl => v))
      | split

theorem execPut_kept {ps : List Instr} (m : FlueMsg) (s : State) (hK : Kept ps s) : KeptR ps (execPut m s) := by
  unfold execPut
  repeat' first
      | with_reducible assumption | (with_reducible intro) | with_reducible apply onMsg_kept | with_reducible apply takePut_kept

theorem execPutDone_kept {ps : List Instr} (m : FlueMsg) (s : State) (hK : Kept ps s) : KeptR ps (execPutDone m s) := by
  unfold execPutDone
  repeat' first
      | with_reducible assumption | (with_reducible intro) | with_reducible apply onMsg_kept
      | with_reducible apply finishTask_kept
      | (extract_lets +onlyGivenNames xl
         (clear_value xl; rename' xl => v))
      | split

theorem refuseQuery_kept {ps : List Instr} (s : State) (m : FlueMsg) (st : Nat)
    (hK : Kept ps s) : Kept ps (refuseQuery s m st) := by
  unfold refuseQuery
  repeat' first
      | with_reducible assumption | (with_reducible intro) | with_reducible apply ctxSend_kept | with_reducible apply foldl_kept

theorem takeQuery_kept {ps : List Instr} (s : State) (m : FlueMsg) (hK : Kept ps s) : Kept ps (takeQuery s m) := by
  unfold takeQuery
  repeat' first
      | with_reducible assumption | with_reducible apply refuseQuery_kept | with_reducible apply takeGraph_kept
      | (extract_lets +onlyGivenNames xl
         (clear_value xl; rename' xl => v))
      | split

theorem execQueryMessage_kept {ps : List Instr} (m : FlueMsg) (s : State) (hK : Kept ps s) : KeptR ps (execQueryMessage m s) := by
  unfold execQueryMessage
  repeat' first
      | with_reducible assumption | (with_reducible intro) | with_reducible refine KeptR.next ?_
      | with_reducible apply onMsg_kept | with_reducible apply takeQuery_kept
      | (extract_lets +onlyGivenNames xl
         (clear_value xl; rename' xl => v))
      | split

theorem execAnswer_kept {ps : List Instr} (m : FlueMsg) (s : State) (hK : Kept ps s) : KeptR ps (execAnswer m s) := by
  unfold execAnswer
  repeat' first
      | with_reducible assumption | (with_reducible intro) | with_reducible apply onMsg_kept
      | with_reducible apply finishFan_kept
      | (extract_lets +onlyGivenNames xl
         (clear_value xl; rename' xl => v))
      | split

theorem linkUp_kept {ps : List Instr} (s : State) (portB : Bool) (width rate : Nat)
    (hK : Kept ps s) : Kept ps (linkUp s portB width rate) := by
  unfold linkUp
  repeat' first
      | with_reducible assumption | fail_if_no_progress with_reducible apply Kept.upd
      | (extract_lets +onlyGivenNames xl
         (clear_value xl; rename' xl => v))
      | split

theorem execHostLinkUp_kept {ps : List Instr} (portB : Bool) (width rate : Nat) (flit256 : Bool) (s : State)
    (hK : Kept ps s) : KeptR ps (execHostLinkUp portB width rate flit256 s) := by
  unfold execHostLinkUp
  repeat' first | with_reducible assumption | with_reducible refine actWhen_kept ?_ ?_ | with_reducible apply linkUp_kept

theorem clearCtl_kept {ps : List Instr} (s : State) (ctl : Nat) (hK : Kept ps s) : Kept ps (clearCtl s ctl) := by
  unfold clearCtl
  repeat' first
      | with_reducible assumption | with_reducible apply sendOwed_kept | with_reducible apply updCtl_kept
      | with_reducible apply resetCtl_kept | split

theorem linkDown_kept {ps : List Instr} (s : State) (portB : Bool) (hK : Kept ps s) : Kept ps (linkDown s portB) := by
  unfold linkDown
  repeat' first
      | with_reducible assumption | (with_reducible intro) | with_reducible apply clearCtl_kept
      | with_reducible apply declareDead_kept | with_reducible apply foldl_kept
      | fail_if_no_progress with_reducible apply Kept.upd
      | (extract_lets +onlyGivenNames xl
         (refine Kept.cut (q := ps) xl ?_ ?_; (on_goal 1 => subst xl); (on_goal 2 => (try clear_value xl; rename' xl => s; intro h))))
      | split

theorem execLinkDown_kept {ps : List Instr} (portB : Bool) (s : State) (hK : Kept ps s) : KeptR ps (execLinkDown portB s) := by
  unfold execLinkDown
  repeat' first | with_reducible assumption | with_reducible refine actWhen_kept ?_ ?_ | with_reducible apply linkDown_kept

theorem execCxlReset_kept {ps : List Instr} (s : State) (hK : Kept ps s) : KeptR ps (execCxlReset s) := by
  unfold execCxlReset
  repeat' first
      | with_reducible assumption | with_reducible refine actWhen_kept ?_ ?_ | with_reducible apply declareDead_kept
      | fail_if_no_progress with_reducible apply Kept.upd

theorem stopRings_kept {ps : List Instr} (s : State) (hK : Kept ps s) : Kept ps (stopRings s) := by
  unfold stopRings
  repeat' first
      | with_reducible assumption | (with_reducible intro) | with_reducible apply stopDma_kept | with_reducible apply foldl_kept

theorem execControllerReset_kept {ps : List Instr} (ctl : Nat) (flr : Bool) (s : State)
    (hK : Kept ps s) : KeptR ps (execControllerReset ctl flr s) := by
  unfold execControllerReset
  repeat' first
      | with_reducible assumption | with_reducible refine actWhen_kept ?_ ?_ | with_reducible apply clearCtl_kept
      | with_reducible apply stopRings_kept | split

theorem enableCtl_kept {ps : List Instr} (s : State) (ctl asq asqs acq acqs : Nat)
    (hK : Kept ps s) : Kept ps (enableCtl s ctl asq asqs acq acqs) := by
  unfold enableCtl
  repeat' first | with_reducible assumption | with_reducible apply updCtl_kept

theorem execControllerEnable_kept {ps : List Instr} (ctl asq asqs acq acqs : Nat) (s : State)
    (hK : Kept ps s) : KeptR ps (execControllerEnable ctl asq asqs acq acqs s) := by
  unfold execControllerEnable
  repeat' first | with_reducible assumption | with_reducible refine actWhen_kept ?_ ?_ | with_reducible apply enableCtl_kept

theorem execHostCxlMemRequest_kept {ps : List Instr} (req : CxlReq) (l : Nat) (s : State)
    (hK : Kept ps s) : KeptR ps (execHostCxlMemRequest req l s) := by
  unfold execHostCxlMemRequest
  repeat' first | with_reducible assumption | with_reducible apply hostMemRow_kept | with_reducible apply spoilUsers_kept | split

theorem execSqTailDoorbell_kept {ps : List Instr} (ctl sq tail : Nat) (writes : List (Nat × Byte)) (s : State)
    (hK : Kept ps s) : KeptR ps (execSqTailDoorbell ctl sq tail writes s) := by
  unfold execSqTailDoorbell
  repeat' first
      | with_reducible assumption | (with_reducible intro) | with_reducible refine KeptR.next ?_
      | with_reducible apply drawTag_kept | with_reducible apply updCtl_kept
      | ((fail_if_success with_reducible apply Kept.upd); with_reducible apply Kept.updMem) | with_reducible apply Mem.sets_wf
      | (extract_lets +onlyGivenNames xl
         first
           | (refine Kept.cut (q := ps) xl ?_ ?_; (on_goal 1 => subst xl); (on_goal 2 => (try clear_value xl; rename' xl => s; intro h)))
           | (refine Kept.cutSnd (q := ps) xl ?_ ?_; (on_goal 1 => subst xl); (on_goal 2 => (try clear_value xl; rename' xl => s; intro h))))
      | split

theorem execCqHeadDoorbell_kept {ps : List Instr} (ctl cq head : Nat) (s : State)
    (hK : Kept ps s) : KeptR ps (execCqHeadDoorbell ctl cq head s) := by
  unfold execCqHeadDoorbell
  repeat' first
      | with_reducible assumption | with_reducible refine KeptR.next ?_ | with_reducible apply drawTag_kept
      | with_reducible apply drainCq_kept | with_reducible apply updCtl_kept
      | (extract_lets +onlyGivenNames xl
         (refine Kept.cutSnd (q := ps) xl ?_ ?_; (on_goal 1 => subst xl); (on_goal 2 => (try clear_value xl; rename' xl => s; intro h))))
      | split

theorem execRecordQueueHeadDoorbell_kept {ps : List Instr} (ctl sq head : Nat) (s : State)
    (hK : Kept ps s) : KeptR ps (execRecordQueueHeadDoorbell ctl sq head s) := by
  unfold execRecordQueueHeadDoorbell
  repeat' first
      | with_reducible assumption | with_reducible refine KeptR.next ?_ | with_reducible apply drawTag_kept
      | with_reducible apply updCtl_kept | with_reducible apply sendOwed_kept | with_reducible apply drainRq_kept
      | (extract_lets +onlyGivenNames xl
         first
           | (refine Kept.cut (q := ps) xl ?_ ?_; (on_goal 1 => subst xl); (on_goal 2 => (try clear_value xl; rename' xl => s; intro h)))
           | (refine Kept.cutSnd (q := ps) xl ?_ ?_; (on_goal 1 => subst xl); (on_goal 2 => (try clear_value xl; rename' xl => s; intro h)))
           | (clear_value xl; rename' xl => v))
      | split

end Sys2Proof.Machine
end

