-- ==== Sys2Proof/Laws/KeptStart.lean ====
section
/-!
SUPPORT. The promise of Laws/Kept.lean, operation by operation: the image, resets, the start-up phases and configuration updates.
Each lemma says that the operation leaves the queue of waiting commands as it is and keeps the invariant.
-/

namespace Sys2Proof.Machine

theorem setSlotReg_kept {ps : List Instr} (s : State) (slot : Nat) (r : SlotReg)
    (hK : Kept ps s) : Kept ps (setSlotReg s slot r) := by
  unfold setSlotReg
  split
  · exact Kept.updBoot hK id hK.inv.secret hK.inv.ready
  · exact Kept.updBoot hK id hK.inv.secret hK.inv.ready

theorem latchSlots_kept {ps : List Instr} (s : State) (hK : Kept ps s) : Kept ps (latchSlots s) := by
  unfold latchSlots
  repeat' first
      | with_reducible assumption | (with_reducible intro) | with_reducible apply setSlotReg_kept
      | with_reducible apply foldl_kept

theorem loadImage_kept {ps : List Instr} (s : State) (hK : Kept ps s) : Kept ps (loadImage s) := by
  unfold loadImage
  repeat' first | with_reducible assumption | fail_if_no_progress with_reducible apply Kept.upd

theorem resOr_kept {ps : List Instr} (r : Res) (s : State) (hr : KeptR ps r) (hK : Kept ps s) : Kept ps (resOr r s) := by
  obtain ⟨t, rfl, ht⟩ := hr
  exact ht

theorem unqueueSend_kept {ps : List Instr} (s : State) (t : TaskId) (k : Task) (hK : Kept ps s) : Kept ps (unqueueSend s t k) := by
  unfold unqueueSend
  repeat' first | with_reducible assumption | with_reducible apply updCtx_kept | split

theorem loseNew_kept {ps : List Instr} (s : State) (g : Graph) (k : Task) (hK : Kept ps s) : Kept ps (loseNew s g k) := by
  unfold loseNew
  repeat' first | with_reducible assumption | with_reducible apply updObj_kept | split

theorem stopTask_kept {ps : List Instr} (s : State) (t : TaskId) (hK : Kept ps s) : Kept ps (stopTask s t) := by
  unfold stopTask
  repeat' first
      | with_reducible assumption | (with_reducible intro) | with_reducible apply completeTask_kept
      | with_reducible apply smudgeOp_kept | with_reducible apply drawTag_kept | with_reducible apply spoilRows_kept
      | with_reducible apply unqueueSend_kept | with_reducible apply loseNew_kept | with_reducible apply abortTask_kept
      | with_reducible apply foldl_kept | fail_if_no_progress with_reducible apply Kept.upd
      | (extract_lets +onlyGivenNames xl
         first
           | (refine Kept.cut (q := ps) xl ?_ ?_; (on_goal 1 => subst xl); (on_goal 2 => (try clear_value xl; rename' xl => s; intro h)))
           | (refine Kept.cutSnd (q := ps) xl ?_ ?_; (on_goal 1 => subst xl); (on_goal 2 => (try clear_value xl; rename' xl => s; intro h)))
           | (clear_value xl; rename' xl => v))
      | split

theorem releasePen_kept {ps : List Instr} (s : State) (p : Nat) (hK : Kept ps s) : Kept ps (releasePen s p) := by
  unfold releasePen
  repeat' first
      | with_reducible assumption | (with_reducible intro) | with_reducible apply freeScratch_kept
      | with_reducible apply updPen_kept | with_reducible apply foldl_kept

theorem flushVecs_kept {ps : List Instr} (s : State) (p : Nat) (hK : Kept ps s) : Kept ps (flushVecs s p) := by
  unfold flushVecs
  repeat' first
      | with_reducible assumption | (with_reducible intro) | with_reducible apply vecSend_kept | with_reducible apply foldl_kept

theorem orphanCtl_kept {ps : List Instr} (s : State) (ctl : Nat) (hK : Kept ps s) : Kept ps (orphanCtl s ctl) := by
  unfold orphanCtl
  repeat' first
      | with_reducible assumption | with_reducible apply resetCtl_kept | with_reducible apply updCtl_kept
      | (extract_lets +onlyGivenNames xl
         first
           | (refine Kept.cut (q := ps) xl ?_ ?_; (on_goal 1 => subst xl); (on_goal 2 => (try clear_value xl; rename' xl => s; intro h)))
           | (clear_value xl; rename' xl => v))
      | split

theorem destroyPen_kept {ps : List Instr} (s : State) (p : Nat) (hK : Kept ps s) : Kept ps (destroyPen s p) := by
  unfold destroyPen
  repeat' first
      | with_reducible assumption | (with_reducible intro) | with_reducible apply closeCtx_kept
      | with_reducible apply updStore_kept | with_reducible apply dropMig_kept | with_reducible apply dropCopy_kept
      | with_reducible apply destroyObj_kept | with_reducible apply freeHomes'_kept | with_reducible apply orphanCtl_kept
      | with_reducible apply takeVecs_kept | with_reducible apply updPen_kept | with_reducible apply foldl_kept
      | fail_if_no_progress with_reducible apply Kept.upd

theorem execPenResetEnd_kept {ps : List Instr} (pen : Nat) (s : State) (hK : Kept ps s) : KeptR ps (execPenResetEnd pen s) := by
  unfold execPenResetEnd
  repeat' first
      | with_reducible assumption | (with_reducible intro) | with_reducible refine KeptR.next ?_
      | with_reducible apply stopTask_kept | with_reducible apply releasePen_kept | with_reducible apply updPen_kept
      | with_reducible apply flushVecs_kept | with_reducible apply destroyPen_kept | with_reducible apply sendAnswers_kept
      | with_reducible apply wake_kept | with_reducible apply complete_kept | with_reducible apply foldl_kept
      | (extract_lets +onlyGivenNames xl
         first
           | (refine Kept.cut (q := ps) xl ?_ ?_; (on_goal 1 => subst xl); (on_goal 2 => (try clear_value xl; rename' xl => s; intro h)))
           | (clear_value xl; rename' xl => v))
      | split

theorem offState_kept {ps : List Instr} (s : State) (hK : Kept ps s) : Kept ps (offState s) :=
  ⟨hK.1, ⟨Mem.empty_wf, Mem.empty_wf, hK.2.3, by simp [offState], by simp [offState], by simp [offState], by simp [offState],
    by simp [offState], by simp [offState], by simp [offState], by simp [offState]⟩⟩

theorem startNode_kept {ps : List Instr} (s : State) (reason : Nat) (hK : Kept ps s) : Kept ps (startNode s reason) := by
  unfold startNode
  exact Kept.updBoot (offState_kept s hK) id (by simp [offState]) (by simp [offState])

theorem failStart_kept {ps : List Instr} (s : State) (hK : Kept ps s) : Kept ps (failStart s) := by
  unfold failStart
  exact Kept.updBoot hK id (by simp) (by simp)

theorem setUsable_kept {ps : List Instr} (s : State) (failed : List HwUnit) (hK : Kept ps s) : Kept ps (setUsable s failed) := by
  unfold setUsable
  repeat' first
      | with_reducible assumption | (with_reducible intro) | with_reducible apply updChan_kept | with_reducible apply foldl_kept
      | fail_if_no_progress with_reducible apply Kept.upd

theorem drainStep_kept {ps : List Instr} (s : State) (c : Nat) (hK : Kept ps s) : Kept ps (drainStep s c) := by
  unfold drainStep
  repeat' first
      | with_reducible assumption | with_reducible apply resOr_kept | with_reducible apply endProgram_kept
      | with_reducible apply execWriteBufferDrain_kept | with_reducible apply kickChan_kept
      | with_reducible apply execKindlingPad_kept | with_reducible apply execJournalPageTimeout_kept
      | (extract_lets +onlyGivenNames xl
         (clear_value xl; rename' xl => v))
      | split

theorem drainGo_kept {ps : List Instr} (s : State) (y0 : Nat) (hK : Kept ps s) : Kept ps (drainGo s y0) := by
  induction y0 generalizing s with
  | zero =>
    unfold drainGo
    repeat' first
        | with_reducible assumption | (with_reducible intro) | with_reducible apply drainStep_kept
        | with_reducible apply foldl_kept
  | succ k ih =>
    unfold drainGo
    repeat' first
        | with_reducible apply ih | with_reducible assumption | (with_reducible intro) | with_reducible apply drainStep_kept
        | with_reducible apply foldl_kept

theorem drainMedia_kept {ps : List Instr} (s : State) (hK : Kept ps s) : Kept ps (drainMedia s) := by
  unfold drainMedia
  repeat' first | with_reducible assumption | with_reducible apply drainGo_kept

theorem hurryCommit_kept {ps : List Instr} (s : State) (p n : Nat) (hK : Kept ps s) : Kept ps (hurryCommit s p n) := by
  unfold hurryCommit
  repeat' first
      | with_reducible assumption | with_reducible apply updObj_kept | with_reducible apply resOr_kept
      | with_reducible apply execSeal_kept | with_reducible apply drainMedia_kept | with_reducible apply execCommitComplete_kept

theorem finishCommits_kept {ps : List Instr} (s : State) (y0 : Nat) (hK : Kept ps s) : Kept ps (finishCommits s y0) := by
  induction y0 generalizing s with
  | zero =>
    unfold finishCommits
    repeat' first
        | with_reducible assumption | (with_reducible intro) | with_reducible apply hurryCommit_kept
        | with_reducible apply foldl_kept | split
  | succ k ih =>
    unfold finishCommits
    repeat' first
        | with_reducible apply ih | with_reducible assumption | (with_reducible intro) | with_reducible apply hurryCommit_kept
        | with_reducible apply foldl_kept | split

theorem quiesceCold_kept {ps : List Instr} (s : State) (hK : Kept ps s) : Kept ps (quiesceCold s) := by
  unfold quiesceCold
  repeat' first
      | with_reducible assumption | with_reducible apply drainMedia_kept | with_reducible apply finishCommits_kept
      | fail_if_no_progress with_reducible apply Kept.upd

theorem execWarmReset_kept {ps : List Instr} (c : Cmd) (b : KBlock) (s : State)
    (hK : Kept ps s) : KeptR ps (execWarmReset c b s) := by
  unfold execWarmReset
  repeat' first
      | with_reducible assumption | (with_reducible intro) | with_reducible apply withKeyedArgs_kept
      | with_reducible apply completeFree_kept | with_reducible apply sendAnswers_kept | with_reducible apply stopTask_kept
      | with_reducible apply abortTask_kept | with_reducible apply foldl_kept
      | fail_if_no_progress with_reducible apply Kept.upd
      | (extract_lets +onlyGivenNames xl
         first
           | (refine Kept.cut (q := ps) xl ?_ ?_; (on_goal 1 => subst xl); (on_goal 2 => (try clear_value xl; rename' xl => s; intro h)))
           | (clear_value xl; rename' xl => v))
      | split

theorem warmState_kept {ps : List Instr} (s : State) (hK : Kept ps s) : Kept ps (warmState s) := by
  unfold warmState
  exact setUsable_kept _ _ (loadImage_kept _ (Kept.updBoot (offState_kept s hK) id (by simp) (by simp)))

theorem execWarmResetBegin_kept {ps : List Instr} (s : State) (hK : Kept ps s) : KeptR ps (execWarmResetBegin s) := by
  unfold execWarmResetBegin
  repeat' first
      | with_reducible assumption | (with_reducible intro) | with_reducible refine KeptR.next ?_
      | with_reducible apply warmState_kept | with_reducible apply complete_kept | with_reducible apply closeCtx_kept
      | with_reducible apply foldl_kept
      | (extract_lets +onlyGivenNames xl
         (clear_value xl; rename' xl => v))
      | split

theorem execColdReset_kept {ps : List Instr} (c : Cmd) (b : KBlock) (s : State)
    (hK : Kept ps s) : KeptR ps (execColdReset c b s) := by
  unfold execColdReset
  repeat' first
      | with_reducible assumption | (with_reducible intro) | with_reducible apply withKeyedArgs_kept
      | with_reducible apply completeFree_kept | with_reducible apply startNode_kept | with_reducible apply complete_kept
      | with_reducible apply quiesceCold_kept | split

theorem postLosses_kept {ps : List Instr} (s : State) (what : Nat) (l : List HwUnit)
    (hK : Kept ps s) : Kept ps (postLosses s what l) := by
  unfold postLosses
  repeat' first
      | with_reducible assumption | (with_reducible intro) | with_reducible apply postEvent_kept
      | with_reducible apply markOut_kept | with_reducible apply foldl_kept | split

theorem execPhaseRom_kept {ps : List Instr} (selfTest : Bool) (puf : List Byte) (s : State) (hK : Kept ps s) :
    KeptR ps (execPhaseRom selfTest puf s) := by
  unfold execPhaseRom
  split
  · exact KeptR.next hK
  · rename_i hp
    have hp := inPhase_phase hp
    split
    · exact KeptR.next (failStart_kept s hK)
    · refine KeptR.next (Kept.updBoot hK id (by simp) fun e => ?_)
      have hr : s.boot.ready = true := by
        revert e
        split <;> exact id
      have := hK.inv.ready hr
      omega

theorem execPhaseImage_kept {ps : List Instr} (s : State) (hK : Kept ps s) : KeptR ps (execPhaseImage s) := by
  have ha : ∀ (b : Boot) (i : Image), (makeAlias b i).ready = b.ready := fun b i => by
    unfold makeAlias
    split <;> rfl
  have hl : (latchSlots s).boot.ready = s.boot.ready := by
    have hset : ∀ (s : State) (n : Nat) (r : SlotReg), (setSlotReg s n r).boot.ready = s.boot.ready := fun s n r => by
      unfold setSlotReg
      split <;> rfl
    simp only [latchSlots, List.foldl, hset]
  unfold execPhaseImage
  split
  · exact KeptR.next hK
  · rename_i hp
    have hp := inPhase_phase hp
    have hn : s.boot.ready = false := by
      cases hr : s.boot.ready with
      | false => rfl
      | true => have := hK.inv.ready hr; omega
    have hL := latchSlots_kept s hK
    dsimp only
    split
    · refine KeptR.next (Kept.updBoot hL id (by simp) fun e => ?_)
      rw [show (makeAlias (latchSlots s).boot _).ready = false by rw [ha, hl, hn]] at e
      exact Bool.noConfusion e
    · refine KeptR.next (failStart_kept _ (Kept.updBoot hL id (by simp) ?_))
      dsimp only
      split
      · intro e
        rw [ha, hl, hn] at e
        exact Bool.noConfusion e
      · intro e
        rw [hl, hn] at e
        exact Bool.noConfusion e

theorem execPhasePower_kept {ps : List Instr} (late : List Nat) (s : State)
    (hK : Kept ps s) : KeptR ps (execPhasePower late s) := by
  unfold execPhasePower
  split
  · exact KeptR.next hK
  · rename_i hp
    have hp := inPhase_phase hp
    have hb : (loadImage s).boot = s.boot := by simp only [loadImage]
    have hn : s.boot.ready = true → False := fun hr => by have := hK.inv.ready hr; omega
    have hL := loadImage_kept s hK
    refine KeptR.next ?_
    with_reducible apply postLosses_kept
    with_reducible apply Kept.updBoot
    · exact hL
    · exact id
    · exact fun e => (hL.noSecret (by rw [hb]; omega) e).elim
    · exact fun e => (hn (by rw [← hb]; exact e)).elim

theorem execPhaseTrain_kept {ps : List Instr} (modulesFailed stacksFailed : List Nat) (groups : List GroupTrain) (s : State)
    (hK : Kept ps s) : KeptR ps (execPhaseTrain modulesFailed stacksFailed groups s) := by
  unfold execPhaseTrain
  split
  · exact KeptR.next hK
  · rename_i hp
    have hp := inPhase_phase hp
    have hn : s.boot.ready = true → False := fun hr => by have := hK.inv.ready hr; omega
    exact KeptR.next (postLosses_kept _ _ _ (setUsable_kept _ _ (Kept.updBoot hK id
      (fun e => (hK.noSecret (by omega) e).elim) fun e => (hn e).elim)))

theorem execPhaseClear_kept {ps : List Instr} (badLines : List Nat) (s : State) (hK : Kept ps s) :
    KeptR ps (execPhaseClear badLines s) := by
  unfold execPhaseClear
  split
  · exact KeptR.next hK
  · rename_i hp
    have hp := inPhase_phase hp
    have hn : s.boot.ready = true → False := fun hr => by have := hK.inv.ready hr; omega
    have h1 : Kept ps { s with mem := {}, poison := [], boot := { s.boot with phase := 6 } } :=
      Kept.updBoot hK (fun _ => Mem.empty_wf) (fun e => (hK.noSecret (by omega) e).elim) fun e => (hn e).elim
    refine KeptR.next ?_
    with_reducible apply foldl_kept
    · exact h1
    · intro s l h
      with_reducible apply postEvent_kept
      exact poisonLine_kept _ _ h

theorem moveSegs_kept {ps : List Instr} (s : State) (hK : Kept ps s) : Kept ps (moveSegs s) := by
  unfold moveSegs
  repeat' first
      | with_reducible assumption | (with_reducible intro) | with_reducible apply placeSeg_kept
      | with_reducible apply foldl_kept | fail_if_no_progress with_reducible apply Kept.upd

theorem loseTargets_kept {ps : List Instr} (s : State) (failed : List HwUnit)
    (hK : Kept ps s) : Kept ps (loseTargets s failed) := by
  unfold loseTargets
  repeat' first
      | with_reducible assumption | (with_reducible intro) | with_reducible apply updChan_kept | with_reducible apply foldl_kept
      | split

theorem applyTests_kept {ps : List Instr} (s : State) (failed : List HwUnit) (columns : List (Nat × Nat × W32))
    (hK : Kept ps s) : Kept ps (applyTests s failed columns) := by
  unfold applyTests
  repeat' first
      | with_reducible assumption | (with_reducible intro) | with_reducible apply setUsable_kept
      | with_reducible apply loseTargets_kept | with_reducible apply moveSegs_kept | with_reducible apply updStack_kept
      | with_reducible apply foldl_kept | fail_if_no_progress with_reducible apply Kept.upd

theorem postArrayTest_kept {ps : List Instr} (s : State) (x : HwUnit × Nat × Nat)
    (hK : Kept ps s) : Kept ps (postArrayTest s x) := by
  unfold postArrayTest
  repeat' first
      | with_reducible assumption | with_reducible apply drawTag_kept | with_reducible apply postEvent_kept
      | (extract_lets +onlyGivenNames xl
         (refine Kept.cutSnd (q := ps) xl ?_ ?_; (on_goal 1 => subst xl); (on_goal 2 => (try clear_value xl; rename' xl => s; intro h))))
      | split

theorem postTests_kept {ps : List Instr} (s : State) (units : List HwUnit) (arrays : List (HwUnit × Nat × Nat))
    (hK : Kept ps s) : Kept ps (postTests s units arrays) := by
  unfold postTests
  repeat' first
      | with_reducible assumption | (with_reducible intro) | with_reducible apply markOut_kept
      | with_reducible apply postLosses_kept | with_reducible apply postArrayTest_kept | with_reducible apply foldl_kept | split

theorem execPhaseTest_kept {ps : List Instr} (failed : List HwUnit) (columns : List (Nat × Nat × W32)) (s : State)
    (hK : Kept ps s) :
    KeptR ps (execPhaseTest failed columns s) := by
  unfold execPhaseTest
  split
  · exact KeptR.next hK
  · have h1 := applyTests_kept s failed columns hK
    have h2 : Kept ps (if trainOut s then markOut (applyTests s failed columns) else applyTests s failed columns) := by
      split
      · exact markOut_kept _ h1
      · exact h1
    have h3 := postTests_kept _ (testLosses s (applyTests s failed columns) failed) (arrayLosses
        (applyTests s failed columns) failed columns) h2
    exact KeptR.next (Kept.updBoot h3 id h3.inv.secret h3.inv.ready)

theorem latchTopo_kept {ps : List Instr} (s : State) (hK : Kept ps s) : Kept ps (latchTopo s) := by
  unfold latchTopo
  repeat' first | with_reducible assumption | fail_if_no_progress with_reducible apply Kept.upd

theorem makePen0_kept {ps : List Instr} (s : State) (hK : Kept ps s) : Kept ps (makePen0 s) := by
  unfold makePen0
  repeat' first | with_reducible assumption | with_reducible apply giveVecs_kept | fail_if_no_progress with_reducible apply Kept.upd

theorem readyCtls_kept {ps : List Instr} (s : State) (hK : Kept ps s) : Kept ps (readyCtls s) := by
  unfold readyCtls
  repeat' first | with_reducible assumption | fail_if_no_progress with_reducible apply Kept.upd

theorem trainPorts_kept {ps : List Instr} (s : State) (hK : Kept ps s) : Kept ps (trainPorts s) := by
  unfold trainPorts
  repeat' first | with_reducible assumption | fail_if_no_progress with_reducible apply Kept.upd

theorem loadPlan_kept {ps : List Instr} (s : State) (hK : Kept ps s) : Kept ps (loadPlan s) := by
  unfold loadPlan
  repeat' first
      | with_reducible assumption | (with_reducible intro) | with_reducible apply updQuad_kept
      | with_reducible apply updStack_kept | with_reducible apply foldl_kept | fail_if_no_progress with_reducible apply Kept.upd
      | (extract_lets +onlyGivenNames xl
         (clear_value xl; rename' xl => v))
      | split

theorem becomeReady_kept {ps : List Instr} (s : State) (hp : s.boot.phase ≠ 2) (hK : Kept ps s) : Kept ps (becomeReady s) := by
  unfold becomeReady
  exact trainPorts_kept _ (readyCtls_kept _ (makePen0_kept _ (latchTopo_kept _ (loadPlan_kept _ (Kept.updBoot hK id
    (fun e => (hK.noSecret hp e).elim) fun _ => rfl)))))

theorem execReadiness_kept {ps : List Instr} (s : State) (hK : Kept ps s) : KeptR ps (execReadiness s) := by
  unfold execReadiness
  split
  · exact KeptR.next hK
  · rename_i hp
    have hp : s.boot.phase = 6 := by
      simp [inPhase] at hp
      exact hp.1.1
    split
    · exact KeptR.next (failStart_kept s hK)
    · exact actWhen_kept hK (becomeReady_kept s (by omega) hK)

theorem withSlot_kept {ps : List Instr} (s : State) (c : Cmd) (b : KBlock) (code : Nat) (argsOk : Bool)
    (f : State → Nat → State) (hf : ∀ s x0, Kept ps s → Kept ps (f s x0))
    (hK : Kept ps s) : KeptR ps (withSlot s c b code argsOk f) := by
  unfold withSlot
  repeat' first
      | with_reducible assumption | (with_reducible intro) | with_reducible apply hf | with_reducible apply withKeyedArgs_kept
      | with_reducible apply complete_kept | split

theorem updSlot_kept {ps : List Instr} (s : State) (n : Nat) (f : Mem → Mem) (hK : Kept ps s) : Kept ps (updSlot s n f) := by
  unfold updSlot
  repeat' first | with_reducible assumption | fail_if_no_progress with_reducible apply Kept.upd

theorem execCfgErase_kept {ps : List Instr} (c : Cmd) (b : KBlock) (s : State)
    (hK : Kept ps s) : KeptR ps (execCfgErase c b s) := by
  unfold execCfgErase
  repeat' first
      | with_reducible assumption | (with_reducible intro) | with_reducible apply withSlot_kept
      | with_reducible apply completeFree_kept | with_reducible apply complete_kept | with_reducible apply updSlot_kept | split

theorem execCfgWrite_kept {ps : List Instr} (c : Cmd) (b : KBlock) (s : State)
    (hK : Kept ps s) : KeptR ps (execCfgWrite c b s) := by
  unfold execCfgWrite
  repeat' first
      | with_reducible assumption | (with_reducible intro) | with_reducible apply withSlot_kept
      | with_reducible apply completeFree_kept | with_reducible apply complete_kept | with_reducible apply updSlot_kept | split

theorem execCfgVerify_kept {ps : List Instr} (c : Cmd) (b : KBlock) (s : State)
    (hK : Kept ps s) : KeptR ps (execCfgVerify c b s) := by
  unfold execCfgVerify
  repeat' first
      | with_reducible assumption | (with_reducible intro) | with_reducible apply withSlot_kept
      | with_reducible apply complete_kept | with_reducible apply setSlotReg_kept

theorem execCfgActivate_kept {ps : List Instr} (c : Cmd) (b : KBlock) (s : State)
    (hK : Kept ps s) : KeptR ps (execCfgActivate c b s) := by
  unfold execCfgActivate
  repeat' first
      | with_reducible assumption | (with_reducible intro) | with_reducible apply withSlot_kept
      | with_reducible apply completeFree_kept | with_reducible apply setSlotReg_kept | with_reducible apply complete_kept
      | with_reducible apply startNode_kept | with_reducible apply quiesceCold_kept
      | (extract_lets +onlyGivenNames xl
         first
           | (refine Kept.cut (q := ps) xl ?_ ?_; (on_goal 1 => subst xl); (on_goal 2 => (try clear_value xl; rename' xl => s; intro h)))
           | (clear_value xl; rename' xl => v))
      | split

end Sys2Proof.Machine
end

