-- ==== Sys2Proof/Laws/KeptUnits.lean ====
section
/-!
SUPPORT. The promise of Laws/Kept.lean, operation by operation: flash tasks, the Flue links, the matrix units, losses, health, power, registers, attestation and the trace.
Each lemma says that the operation leaves the queue of waiting commands as it is and keeps the invariant.
-/

namespace Sys2Proof.Machine

theorem execFlashRead_kept {ps : List Instr} (t : TaskId) (s : State) (hK : Kept ps s) : KeptR ps (execFlashRead t s) := by
  unfold execFlashRead
  repeat' first
      | with_reducible assumption | (with_reducible intro) | with_reducible refine KeptR.next ?_
      | with_reducible apply unpredictable_kept | with_reducible apply finishTask_kept | with_reducible apply modTask_kept
      | with_reducible apply setRun_kept | with_reducible apply readUnits_kept | with_reducible apply putTask_kept
      | (extract_lets +onlyGivenNames xl
         first
           | (refine Kept.cut (q := ps) xl ?_ ?_; (on_goal 1 => subst xl); (on_goal 2 => (try clear_value xl; rename' xl => s; intro h)))
           | (clear_value xl; rename' xl => v))
      | split

theorem execFlashWrite_kept {ps : List Instr} (t : TaskId) (s : State) (hK : Kept ps s) : KeptR ps (execFlashWrite t s) := by
  unfold execFlashWrite
  repeat' first
      | with_reducible assumption | with_reducible refine KeptR.next ?_ | with_reducible apply unpredictable_kept
      | with_reducible apply finishTask_kept | with_reducible apply modTask_kept | with_reducible apply setRun_kept
      | with_reducible apply writeUnits_kept | with_reducible apply settleOrdered_kept
      | (extract_lets +onlyGivenNames xl
         first
           | (refine Kept.cut (q := ps) xl ?_ ?_; (on_goal 1 => subst xl); (on_goal 2 => (try clear_value xl; rename' xl => s; intro h)))
           | (clear_value xl; rename' xl => v))
      | split

theorem execDeallocate_kept {ps : List Instr} (t : TaskId) (s : State) (hK : Kept ps s) : KeptR ps (execDeallocate t s) := by
  unfold execDeallocate
  repeat' first
      | with_reducible assumption | (with_reducible intro) | with_reducible refine KeptR.next ?_
      | with_reducible apply unpredictable_kept | with_reducible apply trimUnit_kept | with_reducible apply wake_kept
      | with_reducible apply finishTask_kept | with_reducible apply foldl_kept
      | (extract_lets +onlyGivenNames xl
         first
           | (refine Kept.cut (q := ps) xl ?_ ?_; (on_goal 1 => subst xl); (on_goal 2 => (try clear_value xl; rename' xl => s; intro h)))
           | (clear_value xl; rename' xl => v))
      | split

theorem dropPort_kept {ps : List Instr} (s : State) (p st : Nat) (hK : Kept ps s) : Kept ps (dropPort s p st) := by
  unfold dropPort
  repeat' first | with_reducible assumption | with_reducible apply updPort_kept

theorem execFecBlock_kept {ps : List Instr} (port : Nat) (correctable : Bool) (corrected : Nat) (flits : List (List Byte))
    (s : State) (hK : Kept ps s) : KeptR ps (execFecBlock port correctable corrected flits s) := by
  unfold execFecBlock
  repeat' first
      | with_reducible assumption | with_reducible refine KeptR.next ?_ | with_reducible apply updPort_kept
      | (extract_lets +onlyGivenNames xl
         first
           | (refine Kept.cut (q := ps) xl ?_ ?_; (on_goal 1 => subst xl); (on_goal 2 => (try clear_value xl; rename' xl => s; intro h)))
           | (clear_value xl; rename' xl => v))
      | split

theorem takeFlit_kept {ps : List Instr} (s : State) (p kind : Nat) (hK : Kept ps s) : KeptOP ps (takeFlit s p kind) := by
  unfold takeFlit
  repeat' first
      | with_reducible assumption | with_reducible exact KeptOP.none | with_reducible refine KeptOP.some ?_
      | with_reducible apply updPort_kept
      | (extract_lets +onlyGivenNames xl
         (clear_value xl; rename' xl => v))
      | split

theorem arriveMsg_kept {ps : List Instr} (s : State) (vc : Nat) (b : List Byte) (hK : Kept ps s) : Kept ps (arriveMsg s vc b) := by
  unfold arriveMsg
  repeat' first
      | with_reducible assumption | with_reducible apply rejectMsg_kept | fail_if_no_progress with_reducible apply Kept.upd
      | (extract_lets +onlyGivenNames xl
         (clear_value xl; rename' xl => v))
      | split

theorem assemble_kept {ps : List Instr} (s : State) (p : Nat) (f : Flit) (hK : Kept ps s) : Kept ps (assemble s p f) := by
  unfold assemble
  repeat' first
      | with_reducible assumption | with_reducible apply updPort_kept | with_reducible apply arriveMsg_kept
      | (extract_lets +onlyGivenNames xl
         first
           | (refine Kept.cut (q := ps) xl ?_ ?_; (on_goal 1 => subst xl); (on_goal 2 => (try clear_value xl; rename' xl => s; intro h)))
           | (clear_value xl; rename' xl => v))
      | split

theorem returnCredits_kept {ps : List Instr} (s : State) (p : Nat) (hK : Kept ps s) : Kept ps (returnCredits s p) := by
  unfold returnCredits
  repeat' first
      | with_reducible assumption | with_reducible apply emitFlit_kept
      | (extract_lets +onlyGivenNames xl
         (clear_value xl; rename' xl => v))
      | split

theorem execDataFlit_kept {ps : List Instr} (port : Nat) (s : State) (hK : Kept ps s) : KeptR ps (execDataFlit port s) := by
  unfold execDataFlit
  repeat' first
      | with_reducible assumption | with_reducible refine KeptR.next ?_
      | with_reducible refine KeptOP.get (takeFlit_kept _ _ _ ?_) (by assumption) | with_reducible apply updPort_kept
      | with_reducible apply returnCredits_kept | with_reducible apply pump_kept | with_reducible apply assemble_kept
      | with_reducible apply emitFlit_kept
      | (extract_lets +onlyGivenNames xl
         first
           | (refine Kept.cut (q := ps) xl ?_ ?_; (on_goal 1 => subst xl); (on_goal 2 => (try clear_value xl; rename' xl => s; intro h)))
           | (clear_value xl; rename' xl => v))
      | split

theorem execIdleFlit_kept {ps : List Instr} (port : Nat) (s : State) (hK : Kept ps s) : KeptR ps (execIdleFlit port s) := by
  unfold execIdleFlit
  repeat' first
      | with_reducible assumption | with_reducible refine KeptR.next ?_
      | with_reducible refine KeptOP.get (takeFlit_kept _ _ _ ?_) (by assumption) | with_reducible apply pump_kept
      | with_reducible apply updPort_kept | split

theorem execRetryReq_kept {ps : List Instr} (port : Nat) (s : State) (hK : Kept ps s) : KeptR ps (execRetryReq port s) := by
  unfold execRetryReq
  repeat' first
      | with_reducible assumption | (with_reducible intro) | with_reducible refine KeptR.next ?_
      | with_reducible refine KeptOP.get (takeFlit_kept _ _ _ ?_) (by assumption) | with_reducible apply updPort_kept
      | with_reducible apply dropPort_kept | with_reducible apply pump_kept | with_reducible apply emitFlit_kept
      | with_reducible apply foldl_kept
      | (extract_lets +onlyGivenNames xl
         (refine Kept.cut (q := ps) xl ?_ ?_; (on_goal 1 => subst xl); (on_goal 2 => (try clear_value xl; rename' xl => s; intro h))))
      | split

theorem execPortTraining_kept {ps : List Instr} (port : Nat) (s : State) (hK : Kept ps s) : KeptR ps (execPortTraining port s) := by
  unfold execPortTraining
  repeat' first | with_reducible assumption | with_reducible refine actWhen_kept ?_ ?_ | with_reducible apply updPort_kept

theorem execForward_kept {ps : List Instr} (m : FlueMsg) (s : State) (hK : Kept ps s) : KeptR ps (execForward m s) := by
  unfold execForward
  repeat' first
      | with_reducible assumption | with_reducible refine KeptR.next ?_ | with_reducible apply sendMsg_kept
      | fail_if_no_progress with_reducible apply Kept.upd
      | (extract_lets +onlyGivenNames xl
         first
           | (refine Kept.cut (q := ps) xl ?_ ?_; (on_goal 1 => subst xl); (on_goal 2 => (try clear_value xl; rename' xl => s; intro h)))
           | (clear_value xl; rename' xl => v))
      | split

theorem execMatmul_kept {ps : List Instr} (t : TaskId) (s : State) (hK : Kept ps s) : KeptR ps (execMatmul t s) := by
  unfold execMatmul
  repeat' first
      | with_reducible assumption | with_reducible refine KeptR.next ?_ | with_reducible apply readFailed_kept
      | with_reducible apply unpredictable_kept | with_reducible apply setRun_kept
      | (extract_lets +onlyGivenNames xl
         (clear_value xl; rename' xl => v))
      | split

theorem writeRows_kept {ps : List Instr} (s : State) (t : TaskId) (g : Graph) (k : Task) (l : List (Nat × List Byte))
    (hK : Kept ps s) : Kept ps (writeRows s t g k l) := by
  unfold writeRows
  repeat' first
      | with_reducible assumption | (with_reducible intro) | with_reducible apply writeOp_kept | with_reducible apply foldl_kept

theorem runUnit_kept {ps : List Instr} (s : State) (t : TaskId) (g : Graph) (k : Task) (r : MatRun) (array geom part : Nat)
    (hK : Kept ps s) : Kept ps (runUnit s t g k r array geom part) := by
  unfold runUnit
  repeat' first
      | with_reducible assumption | with_reducible apply drawTag_kept | with_reducible apply updArr_kept
      | with_reducible apply updTile_kept | with_reducible apply finishTask_kept | with_reducible apply writeRows_kept
      | with_reducible apply setRun_kept
      | (extract_lets +onlyGivenNames xl
         first
           | (refine Kept.cut (q := ps) xl ?_ ?_; (on_goal 1 => subst xl); (on_goal 2 => (try clear_value xl; rename' xl => s; intro h)))
           | (refine Kept.cutSnd (q := ps) xl ?_ ?_; (on_goal 1 => subst xl); (on_goal 2 => (try clear_value xl; rename' xl => s; intro h)))
           | (clear_value xl; rename' xl => v)
           | subst xl)
      | split

theorem arrayOut_kept {ps : List Instr} (s : State) (tile a : Nat) (hK : Kept ps s) : Kept ps (arrayOut s tile a) := by
  unfold arrayOut
  repeat' first
      | with_reducible assumption | with_reducible apply markOut_kept | with_reducible apply postEvent_kept
      | with_reducible apply updArr_kept

theorem execArrayUnit_kept {ps : List Instr} (t : TaskId) (array part : Nat) (residueFail accCorr accUncorr : Bool) (s : State)
    (hK : Kept ps s) : KeptR ps (execArrayUnit t array part residueFail accCorr accUncorr s) := by
  unfold execArrayUnit
  repeat' first
      | with_reducible assumption | with_reducible refine KeptR.next ?_ | with_reducible apply updTile_kept
      | with_reducible apply updArr_kept | with_reducible apply lostTask_kept | with_reducible apply postEvent_kept
      | with_reducible apply arrayOut_kept | with_reducible apply runUnit_kept | with_reducible apply drawTag_kept
      | (extract_lets +onlyGivenNames xl
         first
           | (refine Kept.cut (q := ps) xl ?_ ?_; (on_goal 1 => subst xl); (on_goal 2 => (try clear_value xl; rename' xl => s; intro h)))
           | (refine Kept.cutSnd (q := ps) xl ?_ ?_; (on_goal 1 => subst xl); (on_goal 2 => (try clear_value xl; rename' xl => s; intro h)))
           | (clear_value xl; rename' xl => v))
      | split

theorem execArrayTest_kept {ps : List Instr} (tile array : Nat) (s : State)
    (hK : Kept ps s) : KeptR ps (execArrayTest tile array s) := by
  unfold execArrayTest
  repeat' first | with_reducible assumption | with_reducible refine actWhen_kept ?_ ?_ | with_reducible apply updArr_kept

theorem execArrayTestRequest_kept {ps : List Instr} (tile : Nat) (mask : BitVec 4) (s : State)
    (hK : Kept ps s) : KeptR ps (execArrayTestRequest tile mask s) := by
  unfold execArrayTestRequest
  repeat' first | with_reducible assumption | with_reducible refine actWhen_kept ?_ ?_ | with_reducible apply updTile_kept

theorem execArrayTestDone_kept {ps : List Instr} (tile array : Nat) (bad : W32) (portFail : Bool) (s : State)
    (hK : Kept ps s) : KeptR ps (execArrayTestDone tile array bad portFail s) := by
  unfold execArrayTestDone
  repeat' first
      | with_reducible assumption | with_reducible refine KeptR.next ?_ | with_reducible apply updArr_kept
      | with_reducible apply updTile_kept | with_reducible apply drawTag_kept | with_reducible apply postEvent_kept
      | with_reducible apply arrayOut_kept
      | (extract_lets +onlyGivenNames xl
         first
           | (refine Kept.cut (q := ps) xl ?_ ?_; (on_goal 1 => subst xl); (on_goal 2 => (try clear_value xl; rename' xl => s; intro h)))
           | (refine Kept.cutSnd (q := ps) xl ?_ ?_; (on_goal 1 => subst xl); (on_goal 2 => (try clear_value xl; rename' xl => s; intro h)))
           | (clear_value xl; rename' xl => v))
      | split

theorem discardUnissued_kept {ps : List Instr} (s : State) (hK : Kept ps s) : Kept ps (discardUnissued s) := by
  unfold discardUnissued
  repeat' first | with_reducible assumption | fail_if_no_progress with_reducible apply Kept.upd

theorem closeOpen_kept {ps : List Instr} (s : State) (hK : Kept ps s) : Kept ps (closeOpen s) := by
  unfold closeOpen
  repeat' first
      | with_reducible assumption | (with_reducible intro) | with_reducible apply closeCtx_kept
      | with_reducible apply foldl_kept | split

theorem fenceNode_kept {ps : List Instr} (s : State) (cause : Nat) (canDrain : Bool)
    (hK : Kept ps s) : Kept ps (fenceNode s cause canDrain) := by
  unfold fenceNode
  repeat' first
      | with_reducible assumption | with_reducible apply failStart_kept | with_reducible apply closeOpen_kept
      | with_reducible apply discardUnissued_kept | with_reducible apply drainMedia_kept | with_reducible apply orphanAll_kept
      | with_reducible apply postNodeEvent_kept | fail_if_no_progress with_reducible apply Kept.upd
      | (extract_lets +onlyGivenNames xl
         first
           | (refine Kept.cut (q := ps) xl ?_ ?_; (on_goal 1 => subst xl); (on_goal 2 => (try clear_value xl; rename' xl => s; intro h)))
           | (clear_value xl; rename' xl => v))
      | split

theorem fenceIfBare_kept {ps : List Instr} (s : State) (hK : Kept ps s) : Kept ps (fenceIfBare s) := by
  unfold fenceIfBare
  repeat' first
      | with_reducible assumption | with_reducible apply fenceNode_kept
      | (extract_lets +onlyGivenNames xl
         (refine Kept.cut (q := ps) xl ?_ ?_; (on_goal 1 => subst xl); (on_goal 2 => (try clear_value xl; rename' xl => s; intro h))))
      | split

theorem loseScratch_kept {ps : List Instr} (s : State) (p : Home → Bool) (hK : Kept ps s) : Kept ps (loseScratch s p) := by
  unfold loseScratch
  repeat' first | with_reducible assumption | fail_if_no_progress with_reducible apply Kept.upd

theorem orphanTasks_kept {ps : List Instr} (s : State) (l : List TaskId) (hK : Kept ps s) : Kept ps (orphanTasks s l) := by
  unfold orphanTasks
  repeat' first
      | with_reducible assumption | (with_reducible intro) | with_reducible apply modTask_kept | with_reducible apply foldl_kept

theorem loseTile_kept {ps : List Instr} (s : State) (t : Nat) (hK : Kept ps s) : Kept ps (loseTile s t) := by
  unfold loseTile
  repeat' first
      | with_reducible assumption | with_reducible apply loseScratch_kept | with_reducible apply updQuad_kept
      | with_reducible apply orphanTasks_kept | with_reducible apply updTile_kept | with_reducible apply declareDead_kept
      | fail_if_no_progress with_reducible apply Kept.upd

theorem failCommits_kept {ps : List Instr} (s : State) (p num : Nat) (status : Nat)
    (hK : Kept ps s) : Kept ps (failCommits s p num status) := by
  unfold failCommits
  repeat' first
      | with_reducible assumption | (with_reducible intro) | with_reducible apply updObj_kept
      | with_reducible apply endCommit_kept | with_reducible apply complete_kept | with_reducible apply foldl_kept
      | (extract_lets +onlyGivenNames xl
         (refine Kept.cut (q := ps) xl ?_ ?_; (on_goal 1 => subst xl); (on_goal 2 => (try clear_value xl; rename' xl => s; intro h))))
      | split

theorem loseCopy_kept {ps : List Instr} (s : State) (c : BaleCopy) (hK : Kept ps s) : Kept ps (loseCopy s c) := by
  unfold loseCopy
  repeat' first
      | with_reducible assumption | (with_reducible intro) | with_reducible apply smudgeRun_kept
      | with_reducible apply dropCopy_kept | with_reducible apply failTask_kept | with_reducible apply lostTask_kept
      | with_reducible apply foldl_kept | split

theorem loseShare_kept {ps : List Instr} (s : State) (n : Nat) (hK : Kept ps s) : Kept ps (loseShare s n) := by
  unfold loseShare
  repeat' first
      | with_reducible assumption | (with_reducible intro) | with_reducible apply updChan_kept | with_reducible apply wake_kept
      | with_reducible apply asyncEvent_kept | with_reducible apply postEvent_kept | with_reducible apply foldl_kept
      | fail_if_no_progress with_reducible apply Kept.upd
      | (extract_lets +onlyGivenNames xl
         first
           | (refine Kept.cut (q := ps) xl ?_ ?_; (on_goal 1 => subst xl); (on_goal 2 => (try clear_value xl; rename' xl => s; intro h)))
           | (clear_value xl; rename' xl => v))
      | split

theorem loseSegs_kept {ps : List Instr} (s : State) (n : Nat) (hK : Kept ps s) : Kept ps (loseSegs s n) := by
  unfold loseSegs
  repeat' first
      | with_reducible assumption | (with_reducible intro) | with_reducible apply placeSeg_kept
      | with_reducible apply foldl_kept | fail_if_no_progress with_reducible apply Kept.upd

theorem loseMigs_kept {ps : List Instr} (s : State) (n : Nat) (hK : Kept ps s) : Kept ps (loseMigs s n) := by
  unfold loseMigs
  repeat' first
      | with_reducible assumption | (with_reducible intro) | with_reducible apply dropMig_kept
      | with_reducible apply applyOld_kept | with_reducible apply updQuad_kept | with_reducible apply foldl_kept
      | (extract_lets +onlyGivenNames xl
         (refine Kept.cut (q := ps) xl ?_ ?_; (on_goal 1 => subst xl); (on_goal 2 => (try clear_value xl; rename' xl => s; intro h))))
      | split

theorem loseStack_kept {ps : List Instr} (s : State) (n : Nat) (hK : Kept ps s) : Kept ps (loseStack s n) := by
  unfold loseStack
  repeat' first
      | with_reducible assumption | (with_reducible intro) | with_reducible apply loseScratch_kept
      | with_reducible apply updObj_kept | with_reducible apply failTask_kept | with_reducible apply failCommits_kept
      | with_reducible apply loseCopy_kept | with_reducible apply lostTask_kept | with_reducible apply loseMigs_kept
      | with_reducible apply loseSegs_kept | with_reducible apply loseShare_kept | with_reducible apply foldl_kept
      | fail_if_no_progress with_reducible apply Kept.upd
      | (extract_lets +onlyGivenNames xl
         (clear_value xl; rename' xl => v))
      | split

theorem loseSlice_kept {ps : List Instr} (s : State) (q : Nat) (hK : Kept ps s) : Kept ps (loseSlice s q) := by
  unfold loseSlice
  repeat' first | with_reducible assumption | fail_if_no_progress with_reducible apply Kept.upd

theorem loseQuad_kept {ps : List Instr} (s : State) (q : Nat) (hK : Kept ps s) : Kept ps (loseQuad s q) := by
  unfold loseQuad
  repeat' first
      | with_reducible assumption | (with_reducible intro) | with_reducible apply loseTile_kept
      | with_reducible apply loseStack_kept | with_reducible apply loseSlice_kept | with_reducible apply updQuad_kept
      | with_reducible apply foldl_kept | fail_if_no_progress with_reducible apply Kept.upd

theorem ownerLost_kept {ps : List Instr} (s : State) (o : Owner) (lba : Nat) (hK : Kept ps s) : Kept ps (ownerLost s o lba) := by
  unfold ownerLost
  repeat' first | with_reducible assumption | with_reducible apply ownerStep_kept

theorem loseEngine_kept {ps : List Instr} (s : State) (c : Nat) (hK : Kept ps s) : Kept ps (loseEngine s c) := by
  unfold loseEngine
  repeat' first
      | with_reducible assumption | (with_reducible intro) | with_reducible apply updChan_kept
      | with_reducible apply ownerLost_kept | with_reducible apply ownerDone_kept | with_reducible apply failTask_kept
      | with_reducible apply failCommits_kept | with_reducible apply declareDead_kept | with_reducible apply settleOrdered_kept
      | with_reducible apply wake_kept | with_reducible apply foldl_kept | fail_if_no_progress with_reducible apply Kept.upd

theorem failReads_kept {ps : List Instr} (s : State) (c : Nat) (ops : List FlashOp)
    (hK : Kept ps s) : Kept ps (failReads s c ops) := by
  unfold failReads
  repeat' first
      | with_reducible assumption | (with_reducible intro) | with_reducible apply resOr_kept
      | with_reducible apply execPageReadDone_kept | with_reducible apply foldl_kept | with_reducible apply iter_kept

theorem loseTargetUnit_kept {ps : List Instr} (s : State) (c t : Nat) (hK : Kept ps s) : Kept ps (loseTargetUnit s c t) := by
  unfold loseTargetUnit
  repeat' first
      | with_reducible assumption | (with_reducible intro) | with_reducible apply updChan_kept
      | with_reducible apply failReads_kept | with_reducible apply resOr_kept | with_reducible apply execProgramDone_kept
      | with_reducible apply execEraseDone_kept | with_reducible apply checkReadOnly_kept | with_reducible apply foldl_kept

theorem loseScatter_kept {ps : List Instr} (s : State) (t : TaskId) (g : Graph) (k : Task)
    (hK : Kept ps s) : Kept ps (loseScatter s t g k) := by
  unfold loseScatter
  repeat' first
      | with_reducible assumption | with_reducible apply drawTag_kept | with_reducible apply failTask_kept
      | with_reducible apply spoilRows_kept | with_reducible apply lostTask_kept
      | (extract_lets +onlyGivenNames xl
         (refine Kept.cutSnd (q := ps) xl ?_ ?_; (on_goal 1 => subst xl); (on_goal 2 => (try clear_value xl; rename' xl => s; intro h))))
      | split

theorem relaunch_kept {ps : List Instr} (s : State) (l : List TaskId) (hK : Kept ps s) : Kept ps (relaunch s l) := by
  unfold relaunch
  repeat' first
      | with_reducible assumption | (with_reducible intro) | with_reducible apply failTask_kept
      | with_reducible apply loseScatter_kept | with_reducible apply lostTask_kept | with_reducible apply foldl_kept | split

theorem loseDmaUnit_kept {ps : List Instr} (s : State) (n : Nat) (hK : Kept ps s) : Kept ps (loseDmaUnit s n) := by
  unfold loseDmaUnit
  repeat' first
      | with_reducible assumption | with_reducible apply fenceIfBare_kept | with_reducible apply relaunch_kept
      | with_reducible apply loseDma_kept

theorem execDmaTestDone_kept {ps : List Instr} (channel : Nat) (failed : Bool) (s : State)
    (hK : Kept ps s) : KeptR ps (execDmaTestDone channel failed s) := by
  unfold execDmaTestDone
  repeat' first
      | with_reducible assumption | with_reducible refine KeptR.next ?_ | with_reducible apply updDma_kept
      | with_reducible apply loseDmaUnit_kept
      | (extract_lets +onlyGivenNames xl
         first
           | (refine Kept.cut (q := ps) xl ?_ ?_; (on_goal 1 => subst xl); (on_goal 2 => (try clear_value xl; rename' xl => s; intro h)))
           | (clear_value xl; rename' xl => v))
      | split

theorem loseNearBank_kept {ps : List Instr} (s : State) (n u : Nat) (hK : Kept ps s) : Kept ps (loseNearBank s n u) := by
  unfold loseNearBank
  repeat' first
      | with_reducible assumption | with_reducible apply loseUnit_kept | with_reducible apply lostTask_kept
      | (extract_lets +onlyGivenNames xl
         first
           | (refine Kept.cut (q := ps) xl ?_ ?_; (on_goal 1 => subst xl); (on_goal 2 => (try clear_value xl; rename' xl => s; intro h)))
           | (clear_value xl; rename' xl => v))
      | split

theorem loseArray_kept {ps : List Instr} (s : State) (t a : Nat) (hK : Kept ps s) : Kept ps (loseArray s t a) := by
  unfold loseArray
  repeat' first
      | with_reducible assumption | with_reducible apply arrayOut_kept | with_reducible apply relaunch_kept
      | (extract_lets +onlyGivenNames xl
         first
           | (refine Kept.cut (q := ps) xl ?_ ?_; (on_goal 1 => subst xl); (on_goal 2 => (try clear_value xl; rename' xl => s; intro h)))
           | (clear_value xl; rename' xl => v))
      | split

theorem losePort_kept {ps : List Instr} (s : State) (p : Nat) (hK : Kept ps s) : Kept ps (losePort s p) := by
  unfold losePort
  repeat' first
      | with_reducible assumption | with_reducible apply flushOutbox_kept | with_reducible apply dropPort_kept
      | fail_if_no_progress with_reducible apply Kept.upd

theorem downModule_kept {ps : List Instr} (s : State) (m : Nat) (hK : Kept ps s) : Kept ps (downModule s m) := by
  unfold downModule
  repeat' first | with_reducible assumption | fail_if_no_progress with_reducible apply Kept.upd

theorem loseOne_kept {ps : List Instr} (s : State) (u : HwUnit) (hK : Kept ps s) : Kept ps (loseOne s u) := by
  unfold loseOne
  repeat' first
      | with_reducible assumption | with_reducible apply loseTile_kept | with_reducible apply loseArray_kept
      | with_reducible apply loseQuad_kept | with_reducible apply loseStack_kept | with_reducible apply loseNearBank_kept
      | with_reducible apply loseEngine_kept | with_reducible apply loseTargetUnit_kept | with_reducible apply loseDmaUnit_kept
      | with_reducible apply losePort_kept | with_reducible apply downModule_kept | split

theorem loseUnits_kept {ps : List Instr} (s : State) (l : List HwUnit) (hK : Kept ps s) : Kept ps (loseUnits s l) := by
  unfold loseUnits
  repeat' first
      | with_reducible assumption | (with_reducible intro) | with_reducible apply postLosses_kept
      | with_reducible apply loseOne_kept | with_reducible apply fenceIfBare_kept | with_reducible apply foldl_kept
      | (extract_lets +onlyGivenNames xl
         first
           | (refine Kept.cut (q := ps) xl ?_ ?_; (on_goal 1 => subst xl); (on_goal 2 => (try clear_value xl; rename' xl => s; intro h)))
           | (clear_value xl; rename' xl => v))
      | split

theorem exhaust_kept {ps : List Instr} (s : State) (d : Nat) (hK : Kept ps s) : Kept ps (exhaust s d) := by
  unfold exhaust
  repeat' first
      | with_reducible assumption | with_reducible apply fenceNode_kept | with_reducible apply loseUnits_kept
      | fail_if_no_progress with_reducible apply Kept.upd
      | (extract_lets +onlyGivenNames xl
         first
           | (refine Kept.cut (q := ps) xl ?_ ?_; (on_goal 1 => subst xl); (on_goal 2 => (try clear_value xl; rename' xl => s; intro h)))
           | (clear_value xl; rename' xl => v))
      | split

theorem moduleDown_kept {ps : List Instr} (s : State) (m : Nat) (hK : Kept ps s) : Kept ps (moduleDown s m) := by
  unfold moduleDown
  repeat' first
      | with_reducible assumption | with_reducible apply loseUnits_kept
      | (extract_lets +onlyGivenNames xl
         (refine Kept.cut (q := ps) xl ?_ ?_; (on_goal 1 => subst xl); (on_goal 2 => (try clear_value xl; rename' xl => s; intro h))))
      | split

theorem execUnitFault_kept {ps : List Instr} (u : HwUnit) (s : State) (hK : Kept ps s) : KeptR ps (execUnitFault u s) := by
  unfold execUnitFault
  repeat' first
      | with_reducible assumption | with_reducible refine KeptR.next ?_ | with_reducible apply exhaust_kept
      | with_reducible apply moduleDown_kept | with_reducible apply loseUnits_kept | split

theorem execNodeFault_kept {ps : List Instr} (cause : Nat) (canDrain : Bool) (s : State)
    (hK : Kept ps s) : KeptR ps (execNodeFault cause canDrain s) := by
  unfold execNodeFault
  repeat' first | with_reducible assumption | with_reducible refine actWhen_kept ?_ ?_ | with_reducible apply fenceNode_kept

theorem execDieToDieModuleDown_kept {ps : List Instr} (module : Nat) (s : State)
    (hK : Kept ps s) : KeptR ps (execDieToDieModuleDown module s) := by
  unfold execDieToDieModuleDown
  repeat' first | with_reducible assumption | with_reducible refine actWhen_kept ?_ ?_ | with_reducible apply moduleDown_kept

theorem execRouteListResume_kept {ps : List Instr} (pair : Nat) (s : State)
    (hK : Kept ps s) : KeptR ps (execRouteListResume pair s) := by
  unfold execRouteListResume
  repeat' first
      | with_reducible assumption | with_reducible refine actWhen_kept ?_ ?_ | with_reducible apply resend_kept
      | fail_if_no_progress with_reducible apply Kept.upd

theorem execLaneFailure_kept {ps : List Instr} (x : Lanes) (s : State)
    (hK : Kept ps s) : KeptR ps (execLaneFailure x s) := by
  unfold execLaneFailure
  repeat' first
      | with_reducible assumption | with_reducible refine actWhen_kept ?_ ?_ | with_reducible apply moduleDown_kept
      | fail_if_no_progress with_reducible apply Kept.upd
      | (extract_lets +onlyGivenNames xl
         (clear_value xl; rename' xl => v))
      | split

theorem markDead_kept {ps : List Instr} (s : State) (a : Nat) (hK : Kept ps s) : Kept ps (markDead s a) := by
  unfold markDead
  repeat' first
      | with_reducible assumption | fail_if_no_progress with_reducible apply Kept.upd
      | (extract_lets +onlyGivenNames xl
         (clear_value xl; rename' xl => v))
      | split

theorem execReclaimSweepDone_kept {ps : List Instr} (s : State) (hK : Kept ps s) : KeptR ps (execReclaimSweepDone s) := by
  unfold execReclaimSweepDone
  repeat' first
      | with_reducible assumption | with_reducible refine KeptR.next ?_ | with_reducible apply markDead_kept
      | with_reducible apply relaunch_kept | fail_if_no_progress with_reducible apply Kept.upd
      | (extract_lets +onlyGivenNames xl
         first
           | (refine Kept.cut (q := ps) xl ?_ ?_; (on_goal 1 => subst xl); (on_goal 2 => (try clear_value xl; rename' xl => s; intro h)))
           | (clear_value xl; rename' xl => v))
      | split

theorem execQualificationEnd_kept {ps : List Instr} (port corrected discarded : Nat) (s : State)
    (hK : Kept ps s) : KeptR ps (execQualificationEnd port corrected discarded s) := by
  unfold execQualificationEnd
  repeat' first
      | with_reducible assumption | with_reducible refine KeptR.next ?_ | with_reducible apply updPort_kept
      | with_reducible apply flushOutbox_kept | with_reducible apply loseUnits_kept
      | (extract_lets +onlyGivenNames xl
         (refine Kept.cut (q := ps) xl ?_ ?_; (on_goal 1 => subst xl); (on_goal 2 => (try clear_value xl; rename' xl => s; intro h))))
      | split

theorem noteSram_kept {ps : List Instr} (s : State) (k : Task) (sram : List (Nat × Bool))
    (hK : Kept ps s) : Kept ps (noteSram s k sram) := by
  unfold noteSram
  repeat' first
      | with_reducible assumption | (with_reducible intro) | with_reducible apply updTile_kept
      | with_reducible apply postEvent_kept | with_reducible apply foldl_kept | split

theorem spoiltBySram_kept {ps : List Instr} (s : State) (t : TaskId) (g : Graph) (k : Task) (sram : List (Nat × Bool))
    (hK : Kept ps s) : Kept ps (spoiltBySram s t g k sram) := by
  unfold spoiltBySram
  repeat' first
      | with_reducible assumption | (with_reducible intro) | with_reducible apply smudgeOp_kept
      | with_reducible apply modTask_kept | with_reducible apply foldl_kept
      | (extract_lets +onlyGivenNames xl
         (refine Kept.cut (q := ps) xl ?_ ?_; (on_goal 1 => subst xl); (on_goal 2 => (try clear_value xl; rename' xl => s; intro h))))
      | split

theorem execTaskComplete_kept {ps : List Instr} (t : TaskId) (x : TaskEnd) (s : State)
    (hK : Kept ps s) : KeptR ps (execTaskComplete t x s) := by
  unfold execTaskComplete
  repeat' first
      | with_reducible assumption | with_reducible refine KeptR.next ?_ | with_reducible refine actWhen_kept ?_ ?_
      | with_reducible apply spoiltBySram_kept | with_reducible apply noteSram_kept | with_reducible apply sendAnswers_kept
      | with_reducible apply endTask_kept | with_reducible apply forgetWrites_kept | with_reducible apply smudgeClashes_kept
      | with_reducible apply loseUnits_kept
      | (extract_lets +onlyGivenNames xl
         (refine Kept.cut (q := ps) xl ?_ ?_; (on_goal 1 => subst xl); (on_goal 2 => (try clear_value xl; rename' xl => s; intro h))))
      | split

theorem execScoreRecompute_kept {ps : List Instr} (s : State) (hK : Kept ps s) : KeptR ps (execScoreRecompute s) := by
  unfold execScoreRecompute
  repeat' first
      | with_reducible assumption | with_reducible refine actWhen_kept ?_ ?_ | fail_if_no_progress with_reducible apply Kept.upd

theorem raiseGb_kept {ps : List Instr} (s : State) (d : Nat) (hK : Kept ps s) : Kept ps (raiseGb s d) := by
  unfold raiseGb
  repeat' first
      | with_reducible assumption | with_reducible apply postEvent_kept | fail_if_no_progress with_reducible apply Kept.upd

theorem startBin_kept {ps : List Instr} (s : State) (d : Nat) (hK : Kept ps s) : Kept ps (startBin s d) := by
  unfold startBin
  repeat' first | with_reducible assumption | with_reducible apply updQuad_kept

theorem evaluateDomain_kept {ps : List Instr} (s : State) (d min_ : Nat) (hK : Kept ps s) : Kept ps (evaluateDomain s d min_) := by
  unfold evaluateDomain
  repeat' first
      | with_reducible assumption | (with_reducible intro) | with_reducible apply exhaust_kept
      | with_reducible apply raiseGb_kept | with_reducible apply startBin_kept
      | fail_if_no_progress with_reducible apply Kept.upd
      | (extract_lets +onlyGivenNames xl
         first
           | (refine Kept.cut (q := ps) xl ?_ ?_; (on_goal 1 => subst xl); (on_goal 2 => (try clear_value xl; rename' xl => s; intro h)))
           | subst xl)
      | split

theorem execMarginEvaluation_kept {ps : List Instr} (mins : List Nat) (s : State)
    (hK : Kept ps s) : KeptR ps (execMarginEvaluation mins s) := by
  unfold execMarginEvaluation
  repeat' first
      | with_reducible assumption | (with_reducible intro) | with_reducible refine actWhen_kept ?_ ?_
      | with_reducible apply evaluateDomain_kept | with_reducible apply foldl_kept | split

theorem execBinQuiesceDone_kept {ps : List Instr} (quad : Nat) (s : State)
    (hK : Kept ps s) : KeptR ps (execBinQuiesceDone quad s) := by
  unfold execBinQuiesceDone
  repeat' first | with_reducible assumption | with_reducible refine actWhen_kept ?_ ?_ | with_reducible apply updQuad_kept

theorem execPllRelockDone_kept {ps : List Instr} (quad : Nat) (s : State)
    (hK : Kept ps s) : KeptR ps (execPllRelockDone quad s) := by
  unfold execPllRelockDone
  repeat' first
      | with_reducible assumption | with_reducible refine actWhen_kept ?_ ?_ | with_reducible apply updQuad_kept
      | with_reducible apply postEvent_kept | fail_if_no_progress with_reducible apply Kept.upd

theorem execPhyRetrain_kept {ps : List Instr} (stack margin : Nat) (s : State)
    (hK : Kept ps s) : KeptR ps (execPhyRetrain stack margin s) := by
  unfold execPhyRetrain
  repeat' first | with_reducible assumption | with_reducible refine actWhen_kept ?_ ?_ | with_reducible apply updStack_kept

theorem execPhyRetrainDone_kept {ps : List Instr} (stack margin : Nat) (s : State)
    (hK : Kept ps s) : KeptR ps (execPhyRetrainDone stack margin s) := by
  unfold execPhyRetrainDone
  repeat' first
      | with_reducible assumption | with_reducible refine KeptR.next ?_ | with_reducible apply postEvent_kept
      | with_reducible apply updStack_kept | with_reducible apply loseUnits_kept
      | (extract_lets +onlyGivenNames xl
         first
           | (refine Kept.cut (q := ps) xl ?_ ?_; (on_goal 1 => subst xl); (on_goal 2 => (try clear_value xl; rename' xl => s; intro h)))
           | (clear_value xl; rename' xl => v))
      | split

theorem execPoisonLatchClear_kept {ps : List Instr} (sameCycle : Option Nat) (s : State)
    (hK : Kept ps s) : KeptR ps (execPoisonLatchClear sameCycle s) := by
  unfold execPoisonLatchClear
  repeat' first
      | with_reducible assumption | with_reducible refine KeptR.next ?_ | with_reducible apply updStack_kept
      | with_reducible apply postEvent_kept | with_reducible apply poisonLine_kept
      | (extract_lets +onlyGivenNames xl
         first
           | (refine Kept.cut (q := ps) xl ?_ ?_; (on_goal 1 => subst xl); (on_goal 2 => (try clear_value xl; rename' xl => s; intro h)))
           | (clear_value xl; rename' xl => v))
      | split

theorem execReclaimLatchClear_kept {ps : List Instr} (sameCycle : Option Nat) (s : State)
    (hK : Kept ps s) : KeptR ps (execReclaimLatchClear sameCycle s) := by
  unfold execReclaimLatchClear
  repeat' first
      | with_reducible assumption | with_reducible refine KeptR.next ?_ | with_reducible apply loseLine_kept
      | fail_if_no_progress with_reducible apply Kept.upd
      | (extract_lets +onlyGivenNames xl
         first
           | (refine Kept.cut (q := ps) xl ?_ ?_; (on_goal 1 => subst xl); (on_goal 2 => (try clear_value xl; rename' xl => s; intro h)))
           | (clear_value xl; rename' xl => v))
      | split

theorem execTurnOn_kept {ps : List Instr} (s : State) (hK : Kept ps s) : KeptR ps (execTurnOn s) := by
  unfold execTurnOn
  repeat' first
      | with_reducible assumption | with_reducible refine actWhen_kept ?_ ?_ | with_reducible apply startNode_kept
      | fail_if_no_progress with_reducible apply Kept.upd
      | (extract_lets +onlyGivenNames xl
         subst xl)
      | split

theorem execLossOfPower_kept {ps : List Instr} (s : State) (hK : Kept ps s) : KeptR ps (execLossOfPower s) := by
  unfold execLossOfPower
  repeat' first
      | with_reducible assumption | with_reducible refine KeptR.next ?_ | with_reducible apply offState_kept
      | fail_if_no_progress with_reducible apply Kept.upd

theorem execResetN_kept {ps : List Instr} (s : State) (hK : Kept ps s) : KeptR ps (execResetN s) := by
  unfold execResetN
  repeat' first
      | with_reducible assumption | with_reducible refine KeptR.next ?_ | with_reducible apply offState_kept
      | fail_if_no_progress with_reducible apply Kept.upd

theorem execProgEn_kept {ps : List Instr} (s : State) (hK : Kept ps s) : KeptR ps (execProgEn s) := by
  unfold execProgEn
  repeat' first
      | with_reducible assumption | with_reducible refine KeptR.next ?_ | with_reducible apply offState_kept
      | fail_if_no_progress with_reducible apply Kept.upd

theorem execResetNHigh_kept {ps : List Instr} (s : State) (hK : Kept ps s) : KeptR ps (execResetNHigh s) := by
  unfold execResetNHigh
  repeat' first
      | with_reducible assumption | with_reducible refine actWhen_kept ?_ ?_ | with_reducible apply startNode_kept
      | fail_if_no_progress with_reducible apply Kept.upd
      | (extract_lets +onlyGivenNames xl
         (clear_value xl; rename' xl => v))
      | split

theorem execPerst_kept {ps : List Instr} (portB : Bool) (s : State) (hK : Kept ps s) : KeptR ps (execPerst portB s) := by
  unfold execPerst
  repeat' first | with_reducible assumption | with_reducible refine actWhen_kept ?_ ?_ | with_reducible apply linkDown_kept

theorem execRailFault_kept {ps : List Instr} (domain : Nat) (s : State) (hK : Kept ps s) : KeptR ps (execRailFault domain s) := by
  unfold execRailFault
  repeat' first
      | with_reducible assumption | with_reducible refine actWhen_kept ?_ ?_ | with_reducible apply exhaust_kept
      | fail_if_no_progress with_reducible apply Kept.upd

theorem setThrottle_kept {ps : List Instr} (s : State) (hK : Kept ps s) : Kept ps (setThrottle s) := by
  unfold setThrottle
  repeat' first | with_reducible assumption | fail_if_no_progress with_reducible apply Kept.upd

theorem storeTemps_kept {ps : List Instr} (s : State) (quads : List Nat) (hub : Nat) (temps : List Nat)
    (hK : Kept ps s) : Kept ps (storeTemps s quads hub temps) := by
  unfold storeTemps
  repeat' first
      | with_reducible assumption | (with_reducible intro) | with_reducible apply updStack_kept
      | with_reducible apply foldl_kept | fail_if_no_progress with_reducible apply Kept.upd

theorem darken_kept {ps : List Instr} (s : State) (hK : Kept ps s) : Kept ps (darken s) := by
  unfold darken
  repeat' first | with_reducible assumption | fail_if_no_progress with_reducible apply Kept.upd

theorem execThermalSample_kept {ps : List Instr} (quads : List Nat) (hub : Nat) (stackTemps : List Nat) (s : State)
    (hK : Kept ps s) : KeptR ps (execThermalSample quads hub stackTemps s) := by
  unfold execThermalSample
  repeat' first
      | with_reducible assumption | with_reducible refine KeptR.next ?_ | with_reducible apply storeTemps_kept
      | with_reducible apply offState_kept | with_reducible apply setThrottle_kept | with_reducible apply darken_kept
      | with_reducible apply fenceNode_kept | fail_if_no_progress with_reducible apply Kept.upd
      | (extract_lets +onlyGivenNames xl
         first
           | (refine Kept.cut (q := ps) xl ?_ ?_; (on_goal 1 => subst xl); (on_goal 2 => (try clear_value xl; rename' xl => s; intro h)))
           | (clear_value xl; rename' xl => v))
      | split

theorem execInputPowerSample_kept {ps : List Instr} (vin iin watts : Nat) (domains : List (Nat × Nat)) (s : State)
    (hK : Kept ps s) : KeptR ps (execInputPowerSample vin iin watts domains s) := by
  unfold execInputPowerSample
  repeat' first
      | with_reducible assumption | with_reducible refine actWhen_kept ?_ ?_ | with_reducible apply setThrottle_kept
      | fail_if_no_progress with_reducible apply Kept.upd

theorem writeDmaChan_kept {ps : List Instr} (s : State) (n off v : Nat) (hK : Kept ps s) : Kept ps (writeDmaChan s n off v) := by
  unfold writeDmaChan
  repeat' first | with_reducible assumption | with_reducible apply updDma_kept | split

theorem bits_lt (v lo w : Nat) : bits v lo w < 2 ^ w := Nat.mod_lt _ (Nat.two_pow_pos w)

theorem Kept.updSel {q : List Instr} {s : State} {p c r v k n : Nat} (h : Kept q s) (hp : p < 256) (hc : c < 4) (hr : r < 4)
    (hv : v < 4096) (hk : k < 32) (hn : n < 32) :
    Kept q { s with penSel := p, bselClass := c, bselRes := r, vsel := v, stackSel := k, nbuSel := n } :=
  ⟨h.1, ⟨h.2.1, h.2.2, h.2.3, h.2.4, h.2.5, hp, hc, hr, hv, hk, hn⟩⟩

theorem regWrite64_kept {ps : List Instr} (s : State) (addr v : Nat) (hK : Kept ps s) : Kept ps (regWrite64 s addr v) := by
  unfold regWrite64
  split
  case h_5 => exact Kept.updSel hK (bits_lt v 0 8) hK.2.7 hK.2.8 hK.2.9 hK.2.10 hK.2.11
  case h_6 => exact Kept.updSel hK hK.2.6 (bits_lt v 0 2) (bits_lt v 2 2) hK.2.9 hK.2.10 hK.2.11
  case h_7 => exact Kept.updSel hK hK.2.6 hK.2.7 hK.2.8 (bits_lt v 0 12) hK.2.10 hK.2.11
  case h_14 => exact Kept.updSel hK hK.2.6 hK.2.7 hK.2.8 hK.2.9 (bits_lt v 0 5) hK.2.11
  case h_15 => exact Kept.updSel hK hK.2.6 hK.2.7 hK.2.8 hK.2.9 hK.2.10 (bits_lt v 0 5)
  case h_16 =>
    split
    · exact writeDmaChan_kept _ _ _ _ hK
    · exact hK
  case h_4 =>
    split
    · exact hK
    · exact Kept.upd hK
  all_goals exact Kept.upd hK

theorem wildWrite_kept {ps : List Instr} (s : State) (addr : Nat) (wide : Bool)
    (hK : Kept ps s) : Kept ps (wildWrite s addr wide) := by
  unfold wildWrite
  repeat' first
      | with_reducible assumption | (with_reducible intro) | with_reducible apply drawTag_kept
      | with_reducible apply regWrite64_kept | with_reducible apply foldl_kept

theorem execRegisterWrite_kept {ps : List Instr} (addr : Nat) (wide : Bool) (value : W64) (s : State)
    (hK : Kept ps s) : KeptR ps (execRegisterWrite addr wide value s) := by
  unfold execRegisterWrite
  repeat' first
      | with_reducible assumption | with_reducible refine actWhen_kept ?_ ?_ | with_reducible apply wildWrite_kept
      | with_reducible apply regWrite64_kept | split

theorem answer_kept {ps : List Instr} (s : State) (r : SpdmResp) (hK : Kept ps s) : Kept ps (answer s r) := by
  unfold answer
  repeat' first | with_reducible assumption | with_reducible apply emit_kept

theorem withSpdm_kept {ps : List Instr} (s : State) (f : State → State) (hf : ∀ s , Kept ps s → Kept ps (f s ))
    (hK : Kept ps s) : KeptR ps (withSpdm s f) := by
  unfold withSpdm
  repeat' first
      | with_reducible assumption | with_reducible apply hf | with_reducible refine KeptR.next ?_
      | with_reducible apply answer_kept | split

theorem execGetVersion_kept {ps : List Instr} (s : State) (hK : Kept ps s) : KeptR ps (execGetVersion s) := by
  unfold execGetVersion
  repeat' first | with_reducible assumption | with_reducible refine KeptR.next ?_ | with_reducible apply answer_kept | split

theorem execGetCapabilities_kept {ps : List Instr} (s : State) (hK : Kept ps s) : KeptR ps (execGetCapabilities s) := by
  unfold execGetCapabilities
  repeat' first | with_reducible assumption | with_reducible refine KeptR.next ?_ | with_reducible apply answer_kept | split

theorem execNegotiateAlgorithms_kept {ps : List Instr} (ed448 sha3 secp384 aesGcm : Bool) (s : State)
    (hK : Kept ps s) : KeptR ps (execNegotiateAlgorithms ed448 sha3 secp384 aesGcm s) := by
  unfold execNegotiateAlgorithms
  repeat' first
      | with_reducible assumption | (with_reducible intro) | with_reducible apply withSpdm_kept
      | with_reducible apply answer_kept

theorem execGetDigests_kept {ps : List Instr} (s : State) (hK : Kept ps s) : KeptR ps (execGetDigests s) := by
  unfold execGetDigests
  repeat' first
      | with_reducible assumption | (with_reducible intro) | with_reducible apply withSpdm_kept
      | with_reducible apply answer_kept

theorem execGetCertificate_kept {ps : List Instr} (slot offset length : Nat) (s : State)
    (hK : Kept ps s) : KeptR ps (execGetCertificate slot offset length s) := by
  unfold execGetCertificate
  repeat' first
      | with_reducible assumption | (with_reducible intro) | with_reducible apply withSpdm_kept
      | with_reducible apply answer_kept | split

theorem spdmSign_kept {ps : List Instr} (s : State) (kind : Nat) (nonce body : List Byte) (hK : Kept ps s) :
    Kept ps (spdmSign s kind nonce body).1 := drawTag_kept s hK

theorem execChallenge_kept {ps : List Instr} (slot : Nat) (nonce : List Byte) (s : State)
    (hK : Kept ps s) : KeptR ps (execChallenge slot nonce s) := by
  unfold execChallenge
  repeat' first
      | with_reducible assumption | (with_reducible intro) | with_reducible apply withSpdm_kept
      | with_reducible apply answer_kept | with_reducible apply spdmSign_kept
      | (extract_lets +onlyGivenNames xl
         (refine Kept.cutFst (q := ps) xl ?_ ?_; (on_goal 1 => subst xl); (on_goal 2 => (try clear_value xl; rename' xl => s; intro h))))
      | split

theorem execGetMeasurements_kept {ps : List Instr} (index : Nat) (sign : Bool) (nonce : List Byte) (s : State)
    (hK : Kept ps s) : KeptR ps (execGetMeasurements index sign nonce s) := by
  unfold execGetMeasurements
  repeat' first
      | with_reducible assumption | with_reducible refine KeptR.next ?_ | with_reducible apply answer_kept
      | with_reducible apply spdmSign_kept
      | (extract_lets +onlyGivenNames xl
         (refine Kept.cutFst (q := ps) xl ?_ ?_; (on_goal 1 => subst xl); (on_goal 2 => (try clear_value xl; rename' xl => s; intro h))))
      | split

theorem execKeyExchange_kept {ps : List Instr} (secret : List Byte) (s : State)
    (hK : Kept ps s) : KeptR ps (execKeyExchange secret s) := by
  unfold execKeyExchange
  with_reducible apply withSpdm_kept
  · intro s h
    split
    · exact answer_kept _ _ h
    · exact answer_kept _ _ (spdmSign_kept _ _ _ _ (Kept.updBoot h id h.inv.secret h.inv.ready))
  · exact hK

theorem execFinish_kept {ps : List Instr} (verified : Bool) (s : State) (hK : Kept ps s) : KeptR ps (execFinish verified s) := by
  unfold execFinish
  with_reducible apply withSpdm_kept
  · intro s h
    split
    · exact answer_kept _ _ h
    · split
      · exact answer_kept _ _ (Kept.updBoot h id h.inv.secret h.inv.ready)
      · exact answer_kept _ _ (Kept.updBoot h id h.inv.secret h.inv.ready)
  · exact hK

theorem execEndSession_kept {ps : List Instr} (s : State) (hK : Kept ps s) : KeptR ps (execEndSession s) := by
  unfold execEndSession
  split
  · exact KeptR.next hK
  · split
    · exact KeptR.next (answer_kept _ _ (Kept.updBoot hK id hK.inv.secret hK.inv.ready))
    · exact KeptR.next (answer_kept _ _ hK)

theorem execUnsupportedSpdmRequest_kept {ps : List Instr} (code : Nat) (s : State)
    (hK : Kept ps s) : KeptR ps (execUnsupportedSpdmRequest code s) := by
  unfold execUnsupportedSpdmRequest
  repeat' first
      | with_reducible assumption | with_reducible refine KeptR.next ?_ | with_reducible refine actWhen_kept ?_ ?_
      | with_reducible apply answer_kept | split

theorem execTrcGo_kept {ps : List Instr} (s : State) (hK : Kept ps s) : KeptR ps (execTrcGo s) := by
  unfold execTrcGo
  repeat' first
      | with_reducible assumption | with_reducible refine KeptR.next ?_ | with_reducible apply drainHead_kept
      | fail_if_no_progress with_reducible apply Kept.upd
      | (extract_lets +onlyGivenNames xl
         first
           | (refine Kept.cut (q := ps) xl ?_ ?_; (on_goal 1 => subst xl); (on_goal 2 => (try clear_value xl; rename' xl => s; intro h)))
           | (clear_value xl; rename' xl => v))
      | split

theorem execTrcReplay_kept {ps : List Instr} (s : State) (hK : Kept ps s) : KeptR ps (execTrcReplay s) := by
  unfold execTrcReplay
  repeat' first
      | with_reducible assumption | with_reducible refine actWhen_kept ?_ ?_ | fail_if_no_progress with_reducible apply Kept.upd

theorem consume_kept {ps : List Instr} (s : State) (x : Nat × TRec) (hK : Kept ps s) : Kept ps (consume s x) := by
  unfold consume
  repeat' first
      | with_reducible assumption | (with_reducible intro) | fail_if_no_progress with_reducible apply Kept.upd
      | ((fail_if_success with_reducible apply Kept.upd); with_reducible apply Kept.updMem) | with_reducible apply Mem.write_wf
      | (extract_lets +onlyGivenNames xl
         (clear_value xl; rename' xl => v))
      | split

theorem execTrcRprodWrite_kept {ps : List Instr} (off : Nat) (writes : List (Nat × Byte)) (s : State)
    (hK : Kept ps s) : KeptR ps (execTrcRprodWrite off writes s) := by
  unfold execTrcRprodWrite
  repeat' first
      | with_reducible assumption | (with_reducible intro) | with_reducible refine KeptR.next ?_
      | with_reducible apply consume_kept | with_reducible apply foldl_kept | fail_if_no_progress with_reducible apply Kept.upd
      | ((fail_if_success with_reducible apply Kept.upd); with_reducible apply Kept.updMem) | with_reducible apply Mem.sets_wf
      | (extract_lets +onlyGivenNames xl
         first
           | (refine Kept.cut (q := ps) xl ?_ ?_; (on_goal 1 => subst xl); (on_goal 2 => (try clear_value xl; rename' xl => s; intro h)))
           | (clear_value xl; rename' xl => v))
      | split

theorem execTrcRconsWrite_kept {ps : List Instr} (off : Nat) (s : State) (hK : Kept ps s) : KeptR ps (execTrcRconsWrite off s) := by
  unfold execTrcRconsWrite
  repeat' first
      | with_reducible assumption | with_reducible refine KeptR.next ?_ | with_reducible apply drainHead_kept
      | fail_if_no_progress with_reducible apply Kept.upd
      | (extract_lets +onlyGivenNames xl
         first
           | (refine Kept.cut (q := ps) xl ?_ ?_; (on_goal 1 => subst xl); (on_goal 2 => (try clear_value xl; rename' xl => s; intro h)))
           | (clear_value xl; rename' xl => v))
      | split

end Sys2Proof.Machine
end

