-- ==== Sys2Proof/Laws/State.lean ====
section
/-!
SUPPORT. What each named update of the state leaves in each field: the new value in its own, the old one in every other.
-/

namespace Sys2Proof.Machine

variable (s : State)

/-! emit -/

@[simp] theorem emit_pending (o : Out) : (emit s o).pending = s.pending := rfl
@[simp] theorem emit_out (o : Out) : (emit s o).out = s.out ++ [o] := rfl
@[simp] theorem emit_nfree (o : Out) : (emit s o).nfree = s.nfree := rfl
@[simp] theorem emit_power (o : Out) : (emit s o).power = s.power := rfl
@[simp] theorem emit_boot (o : Out) : (emit s o).boot = s.boot := rfl
@[simp] theorem emit_cfgFlash (o : Out) : (emit s o).cfgFlash = s.cfgFlash := rfl
@[simp] theorem emit_topo (o : Out) : (emit s o).topo = s.topo := rfl
@[simp] theorem emit_quads (o : Out) : (emit s o).quads = s.quads := rfl
@[simp] theorem emit_tiles (o : Out) : (emit s o).tiles = s.tiles := rfl
@[simp] theorem emit_stks (o : Out) : (emit s o).stks = s.stks := rfl
@[simp] theorem emit_stackSel (o : Out) : (emit s o).stackSel = s.stackSel := rfl
@[simp] theorem emit_nbuSel (o : Out) : (emit s o).nbuSel = s.nbuSel := rfl
@[simp] theorem emit_mem (o : Out) : (emit s o).mem = s.mem := rfl
@[simp] theorem emit_poison (o : Out) : (emit s o).poison = s.poison := rfl
@[simp] theorem emit_sram (o : Out) : (emit s o).sram = s.sram := rfl
@[simp] theorem emit_hostMem (o : Out) : (emit s o).hostMem = s.hostMem := rfl
@[simp] theorem emit_pens (o : Out) : (emit s o).pens = s.pens := rfl
@[simp] theorem emit_penSel (o : Out) : (emit s o).penSel = s.penSel := rfl
@[simp] theorem emit_bselClass (o : Out) : (emit s o).bselClass = s.bselClass := rfl
@[simp] theorem emit_bselRes (o : Out) : (emit s o).bselRes = s.bselRes := rfl
@[simp] theorem emit_vsel (o : Out) : (emit s o).vsel = s.vsel := rfl
@[simp] theorem emit_vecs (o : Out) : (emit s o).vecs = s.vecs := rfl
@[simp] theorem emit_port (o : Out) : (emit s o).port = s.port := rfl
@[simp] theorem emit_drover (o : Out) : (emit s o).drover = s.drover := rfl
@[simp] theorem emit_migs (o : Out) : (emit s o).migs = s.migs := rfl
@[simp] theorem emit_coh (o : Out) : (emit s o).coh = s.coh := rfl
@[simp] theorem emit_ftl (o : Out) : (emit s o).ftl = s.ftl := rfl
@[simp] theorem emit_dma (o : Out) : (emit s o).dma = s.dma := rfl
@[simp] theorem emit_flue (o : Out) : (emit s o).flue = s.flue := rfl
@[simp] theorem emit_health (o : Out) : (emit s o).health = s.health := rfl
@[simp] theorem emit_trace (o : Out) : (emit s o).trace = s.trace := rfl

/-! updPen -/

@[simp] theorem updPen_pending (p : Nat) (f : Pen → Pen) : (updPen s p f).pending = s.pending := rfl
@[simp] theorem updPen_out (p : Nat) (f : Pen → Pen) : (updPen s p f).out = s.out := rfl
@[simp] theorem updPen_nfree (p : Nat) (f : Pen → Pen) : (updPen s p f).nfree = s.nfree := rfl
@[simp] theorem updPen_power (p : Nat) (f : Pen → Pen) : (updPen s p f).power = s.power := rfl
@[simp] theorem updPen_boot (p : Nat) (f : Pen → Pen) : (updPen s p f).boot = s.boot := rfl
@[simp] theorem updPen_cfgFlash (p : Nat) (f : Pen → Pen) : (updPen s p f).cfgFlash = s.cfgFlash := rfl
@[simp] theorem updPen_topo (p : Nat) (f : Pen → Pen) : (updPen s p f).topo = s.topo := rfl
@[simp] theorem updPen_quads (p : Nat) (f : Pen → Pen) : (updPen s p f).quads = s.quads := rfl
@[simp] theorem updPen_tiles (p : Nat) (f : Pen → Pen) : (updPen s p f).tiles = s.tiles := rfl
@[simp] theorem updPen_stks (p : Nat) (f : Pen → Pen) : (updPen s p f).stks = s.stks := rfl
@[simp] theorem updPen_stackSel (p : Nat) (f : Pen → Pen) : (updPen s p f).stackSel = s.stackSel := rfl
@[simp] theorem updPen_nbuSel (p : Nat) (f : Pen → Pen) : (updPen s p f).nbuSel = s.nbuSel := rfl
@[simp] theorem updPen_mem (p : Nat) (f : Pen → Pen) : (updPen s p f).mem = s.mem := rfl
@[simp] theorem updPen_poison (p : Nat) (f : Pen → Pen) : (updPen s p f).poison = s.poison := rfl
@[simp] theorem updPen_sram (p : Nat) (f : Pen → Pen) : (updPen s p f).sram = s.sram := rfl
@[simp] theorem updPen_hostMem (p : Nat) (f : Pen → Pen) : (updPen s p f).hostMem = s.hostMem := rfl
@[simp] theorem updPen_pens (p : Nat) (f : Pen → Pen) : (updPen s p f).pens = tupd s.pens p f := rfl
@[simp] theorem updPen_penSel (p : Nat) (f : Pen → Pen) : (updPen s p f).penSel = s.penSel := rfl
@[simp] theorem updPen_bselClass (p : Nat) (f : Pen → Pen) : (updPen s p f).bselClass = s.bselClass := rfl
@[simp] theorem updPen_bselRes (p : Nat) (f : Pen → Pen) : (updPen s p f).bselRes = s.bselRes := rfl
@[simp] theorem updPen_vsel (p : Nat) (f : Pen → Pen) : (updPen s p f).vsel = s.vsel := rfl
@[simp] theorem updPen_vecs (p : Nat) (f : Pen → Pen) : (updPen s p f).vecs = s.vecs := rfl
@[simp] theorem updPen_port (p : Nat) (f : Pen → Pen) : (updPen s p f).port = s.port := rfl
@[simp] theorem updPen_drover (p : Nat) (f : Pen → Pen) : (updPen s p f).drover = s.drover := rfl
@[simp] theorem updPen_migs (p : Nat) (f : Pen → Pen) : (updPen s p f).migs = s.migs := rfl
@[simp] theorem updPen_coh (p : Nat) (f : Pen → Pen) : (updPen s p f).coh = s.coh := rfl
@[simp] theorem updPen_ftl (p : Nat) (f : Pen → Pen) : (updPen s p f).ftl = s.ftl := rfl
@[simp] theorem updPen_dma (p : Nat) (f : Pen → Pen) : (updPen s p f).dma = s.dma := rfl
@[simp] theorem updPen_flue (p : Nat) (f : Pen → Pen) : (updPen s p f).flue = s.flue := rfl
@[simp] theorem updPen_health (p : Nat) (f : Pen → Pen) : (updPen s p f).health = s.health := rfl
@[simp] theorem updPen_trace (p : Nat) (f : Pen → Pen) : (updPen s p f).trace = s.trace := rfl

/-! updQuad -/

@[simp] theorem updQuad_pending (q : Nat) (f : Quad → Quad) : (updQuad s q f).pending = s.pending := rfl
@[simp] theorem updQuad_out (q : Nat) (f : Quad → Quad) : (updQuad s q f).out = s.out := rfl
@[simp] theorem updQuad_nfree (q : Nat) (f : Quad → Quad) : (updQuad s q f).nfree = s.nfree := rfl
@[simp] theorem updQuad_power (q : Nat) (f : Quad → Quad) : (updQuad s q f).power = s.power := rfl
@[simp] theorem updQuad_boot (q : Nat) (f : Quad → Quad) : (updQuad s q f).boot = s.boot := rfl
@[simp] theorem updQuad_cfgFlash (q : Nat) (f : Quad → Quad) : (updQuad s q f).cfgFlash = s.cfgFlash := rfl
@[simp] theorem updQuad_topo (q : Nat) (f : Quad → Quad) : (updQuad s q f).topo = s.topo := rfl
@[simp] theorem updQuad_quads (q : Nat) (f : Quad → Quad) : (updQuad s q f).quads = tmod s.quads q f := rfl
@[simp] theorem updQuad_tiles (q : Nat) (f : Quad → Quad) : (updQuad s q f).tiles = s.tiles := rfl
@[simp] theorem updQuad_stks (q : Nat) (f : Quad → Quad) : (updQuad s q f).stks = s.stks := rfl
@[simp] theorem updQuad_stackSel (q : Nat) (f : Quad → Quad) : (updQuad s q f).stackSel = s.stackSel := rfl
@[simp] theorem updQuad_nbuSel (q : Nat) (f : Quad → Quad) : (updQuad s q f).nbuSel = s.nbuSel := rfl
@[simp] theorem updQuad_mem (q : Nat) (f : Quad → Quad) : (updQuad s q f).mem = s.mem := rfl
@[simp] theorem updQuad_poison (q : Nat) (f : Quad → Quad) : (updQuad s q f).poison = s.poison := rfl
@[simp] theorem updQuad_sram (q : Nat) (f : Quad → Quad) : (updQuad s q f).sram = s.sram := rfl
@[simp] theorem updQuad_hostMem (q : Nat) (f : Quad → Quad) : (updQuad s q f).hostMem = s.hostMem := rfl
@[simp] theorem updQuad_pens (q : Nat) (f : Quad → Quad) : (updQuad s q f).pens = s.pens := rfl
@[simp] theorem updQuad_penSel (q : Nat) (f : Quad → Quad) : (updQuad s q f).penSel = s.penSel := rfl
@[simp] theorem updQuad_bselClass (q : Nat) (f : Quad → Quad) : (updQuad s q f).bselClass = s.bselClass := rfl
@[simp] theorem updQuad_bselRes (q : Nat) (f : Quad → Quad) : (updQuad s q f).bselRes = s.bselRes := rfl
@[simp] theorem updQuad_vsel (q : Nat) (f : Quad → Quad) : (updQuad s q f).vsel = s.vsel := rfl
@[simp] theorem updQuad_vecs (q : Nat) (f : Quad → Quad) : (updQuad s q f).vecs = s.vecs := rfl
@[simp] theorem updQuad_port (q : Nat) (f : Quad → Quad) : (updQuad s q f).port = s.port := rfl
@[simp] theorem updQuad_drover (q : Nat) (f : Quad → Quad) : (updQuad s q f).drover = s.drover := rfl
@[simp] theorem updQuad_migs (q : Nat) (f : Quad → Quad) : (updQuad s q f).migs = s.migs := rfl
@[simp] theorem updQuad_coh (q : Nat) (f : Quad → Quad) : (updQuad s q f).coh = s.coh := rfl
@[simp] theorem updQuad_ftl (q : Nat) (f : Quad → Quad) : (updQuad s q f).ftl = s.ftl := rfl
@[simp] theorem updQuad_dma (q : Nat) (f : Quad → Quad) : (updQuad s q f).dma = s.dma := rfl
@[simp] theorem updQuad_flue (q : Nat) (f : Quad → Quad) : (updQuad s q f).flue = s.flue := rfl
@[simp] theorem updQuad_health (q : Nat) (f : Quad → Quad) : (updQuad s q f).health = s.health := rfl
@[simp] theorem updQuad_trace (q : Nat) (f : Quad → Quad) : (updQuad s q f).trace = s.trace := rfl

/-! updTile -/

@[simp] theorem updTile_pending (t : Nat) (f : Tile → Tile) : (updTile s t f).pending = s.pending := rfl
@[simp] theorem updTile_out (t : Nat) (f : Tile → Tile) : (updTile s t f).out = s.out := rfl
@[simp] theorem updTile_nfree (t : Nat) (f : Tile → Tile) : (updTile s t f).nfree = s.nfree := rfl
@[simp] theorem updTile_power (t : Nat) (f : Tile → Tile) : (updTile s t f).power = s.power := rfl
@[simp] theorem updTile_boot (t : Nat) (f : Tile → Tile) : (updTile s t f).boot = s.boot := rfl
@[simp] theorem updTile_cfgFlash (t : Nat) (f : Tile → Tile) : (updTile s t f).cfgFlash = s.cfgFlash := rfl
@[simp] theorem updTile_topo (t : Nat) (f : Tile → Tile) : (updTile s t f).topo = s.topo := rfl
@[simp] theorem updTile_quads (t : Nat) (f : Tile → Tile) : (updTile s t f).quads = s.quads := rfl
@[simp] theorem updTile_tiles (t : Nat) (f : Tile → Tile) : (updTile s t f).tiles = tmod s.tiles t f := rfl
@[simp] theorem updTile_stks (t : Nat) (f : Tile → Tile) : (updTile s t f).stks = s.stks := rfl
@[simp] theorem updTile_stackSel (t : Nat) (f : Tile → Tile) : (updTile s t f).stackSel = s.stackSel := rfl
@[simp] theorem updTile_nbuSel (t : Nat) (f : Tile → Tile) : (updTile s t f).nbuSel = s.nbuSel := rfl
@[simp] theorem updTile_mem (t : Nat) (f : Tile → Tile) : (updTile s t f).mem = s.mem := rfl
@[simp] theorem updTile_poison (t : Nat) (f : Tile → Tile) : (updTile s t f).poison = s.poison := rfl
@[simp] theorem updTile_sram (t : Nat) (f : Tile → Tile) : (updTile s t f).sram = s.sram := rfl
@[simp] theorem updTile_hostMem (t : Nat) (f : Tile → Tile) : (updTile s t f).hostMem = s.hostMem := rfl
@[simp] theorem updTile_pens (t : Nat) (f : Tile → Tile) : (updTile s t f).pens = s.pens := rfl
@[simp] theorem updTile_penSel (t : Nat) (f : Tile → Tile) : (updTile s t f).penSel = s.penSel := rfl
@[simp] theorem updTile_bselClass (t : Nat) (f : Tile → Tile) : (updTile s t f).bselClass = s.bselClass := rfl
@[simp] theorem updTile_bselRes (t : Nat) (f : Tile → Tile) : (updTile s t f).bselRes = s.bselRes := rfl
@[simp] theorem updTile_vsel (t : Nat) (f : Tile → Tile) : (updTile s t f).vsel = s.vsel := rfl
@[simp] theorem updTile_vecs (t : Nat) (f : Tile → Tile) : (updTile s t f).vecs = s.vecs := rfl
@[simp] theorem updTile_port (t : Nat) (f : Tile → Tile) : (updTile s t f).port = s.port := rfl
@[simp] theorem updTile_drover (t : Nat) (f : Tile → Tile) : (updTile s t f).drover = s.drover := rfl
@[simp] theorem updTile_migs (t : Nat) (f : Tile → Tile) : (updTile s t f).migs = s.migs := rfl
@[simp] theorem updTile_coh (t : Nat) (f : Tile → Tile) : (updTile s t f).coh = s.coh := rfl
@[simp] theorem updTile_ftl (t : Nat) (f : Tile → Tile) : (updTile s t f).ftl = s.ftl := rfl
@[simp] theorem updTile_dma (t : Nat) (f : Tile → Tile) : (updTile s t f).dma = s.dma := rfl
@[simp] theorem updTile_flue (t : Nat) (f : Tile → Tile) : (updTile s t f).flue = s.flue := rfl
@[simp] theorem updTile_health (t : Nat) (f : Tile → Tile) : (updTile s t f).health = s.health := rfl
@[simp] theorem updTile_trace (t : Nat) (f : Tile → Tile) : (updTile s t f).trace = s.trace := rfl

/-! updStack -/

@[simp] theorem updStack_pending (n : Nat) (f : Stack → Stack) : (updStack s n f).pending = s.pending := rfl
@[simp] theorem updStack_out (n : Nat) (f : Stack → Stack) : (updStack s n f).out = s.out := rfl
@[simp] theorem updStack_nfree (n : Nat) (f : Stack → Stack) : (updStack s n f).nfree = s.nfree := rfl
@[simp] theorem updStack_power (n : Nat) (f : Stack → Stack) : (updStack s n f).power = s.power := rfl
@[simp] theorem updStack_boot (n : Nat) (f : Stack → Stack) : (updStack s n f).boot = s.boot := rfl
@[simp] theorem updStack_cfgFlash (n : Nat) (f : Stack → Stack) : (updStack s n f).cfgFlash = s.cfgFlash := rfl
@[simp] theorem updStack_topo (n : Nat) (f : Stack → Stack) : (updStack s n f).topo = s.topo := rfl
@[simp] theorem updStack_quads (n : Nat) (f : Stack → Stack) : (updStack s n f).quads = s.quads := rfl
@[simp] theorem updStack_tiles (n : Nat) (f : Stack → Stack) : (updStack s n f).tiles = s.tiles := rfl
@[simp] theorem updStack_stks (n : Nat) (f : Stack → Stack) : (updStack s n f).stks = tmod s.stks n f := rfl
@[simp] theorem updStack_stackSel (n : Nat) (f : Stack → Stack) : (updStack s n f).stackSel = s.stackSel := rfl
@[simp] theorem updStack_nbuSel (n : Nat) (f : Stack → Stack) : (updStack s n f).nbuSel = s.nbuSel := rfl
@[simp] theorem updStack_mem (n : Nat) (f : Stack → Stack) : (updStack s n f).mem = s.mem := rfl
@[simp] theorem updStack_poison (n : Nat) (f : Stack → Stack) : (updStack s n f).poison = s.poison := rfl
@[simp] theorem updStack_sram (n : Nat) (f : Stack → Stack) : (updStack s n f).sram = s.sram := rfl
@[simp] theorem updStack_hostMem (n : Nat) (f : Stack → Stack) : (updStack s n f).hostMem = s.hostMem := rfl
@[simp] theorem updStack_pens (n : Nat) (f : Stack → Stack) : (updStack s n f).pens = s.pens := rfl
@[simp] theorem updStack_penSel (n : Nat) (f : Stack → Stack) : (updStack s n f).penSel = s.penSel := rfl
@[simp] theorem updStack_bselClass (n : Nat) (f : Stack → Stack) : (updStack s n f).bselClass = s.bselClass := rfl
@[simp] theorem updStack_bselRes (n : Nat) (f : Stack → Stack) : (updStack s n f).bselRes = s.bselRes := rfl
@[simp] theorem updStack_vsel (n : Nat) (f : Stack → Stack) : (updStack s n f).vsel = s.vsel := rfl
@[simp] theorem updStack_vecs (n : Nat) (f : Stack → Stack) : (updStack s n f).vecs = s.vecs := rfl
@[simp] theorem updStack_port (n : Nat) (f : Stack → Stack) : (updStack s n f).port = s.port := rfl
@[simp] theorem updStack_drover (n : Nat) (f : Stack → Stack) : (updStack s n f).drover = s.drover := rfl
@[simp] theorem updStack_migs (n : Nat) (f : Stack → Stack) : (updStack s n f).migs = s.migs := rfl
@[simp] theorem updStack_coh (n : Nat) (f : Stack → Stack) : (updStack s n f).coh = s.coh := rfl
@[simp] theorem updStack_ftl (n : Nat) (f : Stack → Stack) : (updStack s n f).ftl = s.ftl := rfl
@[simp] theorem updStack_dma (n : Nat) (f : Stack → Stack) : (updStack s n f).dma = s.dma := rfl
@[simp] theorem updStack_flue (n : Nat) (f : Stack → Stack) : (updStack s n f).flue = s.flue := rfl
@[simp] theorem updStack_health (n : Nat) (f : Stack → Stack) : (updStack s n f).health = s.health := rfl
@[simp] theorem updStack_trace (n : Nat) (f : Stack → Stack) : (updStack s n f).trace = s.trace := rfl

/-! updDma -/

@[simp] theorem updDma_pending (n : Nat) (f : Dma → Dma) : (updDma s n f).pending = s.pending := rfl
@[simp] theorem updDma_out (n : Nat) (f : Dma → Dma) : (updDma s n f).out = s.out := rfl
@[simp] theorem updDma_nfree (n : Nat) (f : Dma → Dma) : (updDma s n f).nfree = s.nfree := rfl
@[simp] theorem updDma_power (n : Nat) (f : Dma → Dma) : (updDma s n f).power = s.power := rfl
@[simp] theorem updDma_boot (n : Nat) (f : Dma → Dma) : (updDma s n f).boot = s.boot := rfl
@[simp] theorem updDma_cfgFlash (n : Nat) (f : Dma → Dma) : (updDma s n f).cfgFlash = s.cfgFlash := rfl
@[simp] theorem updDma_topo (n : Nat) (f : Dma → Dma) : (updDma s n f).topo = s.topo := rfl
@[simp] theorem updDma_quads (n : Nat) (f : Dma → Dma) : (updDma s n f).quads = s.quads := rfl
@[simp] theorem updDma_tiles (n : Nat) (f : Dma → Dma) : (updDma s n f).tiles = s.tiles := rfl
@[simp] theorem updDma_stks (n : Nat) (f : Dma → Dma) : (updDma s n f).stks = s.stks := rfl
@[simp] theorem updDma_stackSel (n : Nat) (f : Dma → Dma) : (updDma s n f).stackSel = s.stackSel := rfl
@[simp] theorem updDma_nbuSel (n : Nat) (f : Dma → Dma) : (updDma s n f).nbuSel = s.nbuSel := rfl
@[simp] theorem updDma_mem (n : Nat) (f : Dma → Dma) : (updDma s n f).mem = s.mem := rfl
@[simp] theorem updDma_poison (n : Nat) (f : Dma → Dma) : (updDma s n f).poison = s.poison := rfl
@[simp] theorem updDma_sram (n : Nat) (f : Dma → Dma) : (updDma s n f).sram = s.sram := rfl
@[simp] theorem updDma_hostMem (n : Nat) (f : Dma → Dma) : (updDma s n f).hostMem = s.hostMem := rfl
@[simp] theorem updDma_pens (n : Nat) (f : Dma → Dma) : (updDma s n f).pens = s.pens := rfl
@[simp] theorem updDma_penSel (n : Nat) (f : Dma → Dma) : (updDma s n f).penSel = s.penSel := rfl
@[simp] theorem updDma_bselClass (n : Nat) (f : Dma → Dma) : (updDma s n f).bselClass = s.bselClass := rfl
@[simp] theorem updDma_bselRes (n : Nat) (f : Dma → Dma) : (updDma s n f).bselRes = s.bselRes := rfl
@[simp] theorem updDma_vsel (n : Nat) (f : Dma → Dma) : (updDma s n f).vsel = s.vsel := rfl
@[simp] theorem updDma_vecs (n : Nat) (f : Dma → Dma) : (updDma s n f).vecs = s.vecs := rfl
@[simp] theorem updDma_port (n : Nat) (f : Dma → Dma) : (updDma s n f).port = s.port := rfl
@[simp] theorem updDma_drover (n : Nat) (f : Dma → Dma) : (updDma s n f).drover = s.drover := rfl
@[simp] theorem updDma_migs (n : Nat) (f : Dma → Dma) : (updDma s n f).migs = s.migs := rfl
@[simp] theorem updDma_coh (n : Nat) (f : Dma → Dma) : (updDma s n f).coh = s.coh := rfl
@[simp] theorem updDma_ftl (n : Nat) (f : Dma → Dma) : (updDma s n f).ftl = s.ftl := rfl
@[simp] theorem updDma_dma (n : Nat) (f : Dma → Dma) : (updDma s n f).dma = tmod s.dma n f := rfl
@[simp] theorem updDma_flue (n : Nat) (f : Dma → Dma) : (updDma s n f).flue = s.flue := rfl
@[simp] theorem updDma_health (n : Nat) (f : Dma → Dma) : (updDma s n f).health = s.health := rfl
@[simp] theorem updDma_trace (n : Nat) (f : Dma → Dma) : (updDma s n f).trace = s.trace := rfl

/-! updChan -/

@[simp] theorem updChan_pending (c : Nat) (f : Chan → Chan) : (updChan s c f).pending = s.pending := rfl
@[simp] theorem updChan_out (c : Nat) (f : Chan → Chan) : (updChan s c f).out = s.out := rfl
@[simp] theorem updChan_nfree (c : Nat) (f : Chan → Chan) : (updChan s c f).nfree = s.nfree := rfl
@[simp] theorem updChan_power (c : Nat) (f : Chan → Chan) : (updChan s c f).power = s.power := rfl
@[simp] theorem updChan_boot (c : Nat) (f : Chan → Chan) : (updChan s c f).boot = s.boot := rfl
@[simp] theorem updChan_cfgFlash (c : Nat) (f : Chan → Chan) : (updChan s c f).cfgFlash = s.cfgFlash := rfl
@[simp] theorem updChan_topo (c : Nat) (f : Chan → Chan) : (updChan s c f).topo = s.topo := rfl
@[simp] theorem updChan_quads (c : Nat) (f : Chan → Chan) : (updChan s c f).quads = s.quads := rfl
@[simp] theorem updChan_tiles (c : Nat) (f : Chan → Chan) : (updChan s c f).tiles = s.tiles := rfl
@[simp] theorem updChan_stks (c : Nat) (f : Chan → Chan) : (updChan s c f).stks = s.stks := rfl
@[simp] theorem updChan_stackSel (c : Nat) (f : Chan → Chan) : (updChan s c f).stackSel = s.stackSel := rfl
@[simp] theorem updChan_nbuSel (c : Nat) (f : Chan → Chan) : (updChan s c f).nbuSel = s.nbuSel := rfl
@[simp] theorem updChan_mem (c : Nat) (f : Chan → Chan) : (updChan s c f).mem = s.mem := rfl
@[simp] theorem updChan_poison (c : Nat) (f : Chan → Chan) : (updChan s c f).poison = s.poison := rfl
@[simp] theorem updChan_sram (c : Nat) (f : Chan → Chan) : (updChan s c f).sram = s.sram := rfl
@[simp] theorem updChan_hostMem (c : Nat) (f : Chan → Chan) : (updChan s c f).hostMem = s.hostMem := rfl
@[simp] theorem updChan_pens (c : Nat) (f : Chan → Chan) : (updChan s c f).pens = s.pens := rfl
@[simp] theorem updChan_penSel (c : Nat) (f : Chan → Chan) : (updChan s c f).penSel = s.penSel := rfl
@[simp] theorem updChan_bselClass (c : Nat) (f : Chan → Chan) : (updChan s c f).bselClass = s.bselClass := rfl
@[simp] theorem updChan_bselRes (c : Nat) (f : Chan → Chan) : (updChan s c f).bselRes = s.bselRes := rfl
@[simp] theorem updChan_vsel (c : Nat) (f : Chan → Chan) : (updChan s c f).vsel = s.vsel := rfl
@[simp] theorem updChan_vecs (c : Nat) (f : Chan → Chan) : (updChan s c f).vecs = s.vecs := rfl
@[simp] theorem updChan_port (c : Nat) (f : Chan → Chan) : (updChan s c f).port = s.port := rfl
@[simp] theorem updChan_drover (c : Nat) (f : Chan → Chan) : (updChan s c f).drover = s.drover := rfl
@[simp] theorem updChan_migs (c : Nat) (f : Chan → Chan) : (updChan s c f).migs = s.migs := rfl
@[simp] theorem updChan_coh (c : Nat) (f : Chan → Chan) : (updChan s c f).coh = s.coh := rfl
@[simp] theorem updChan_ftl (c : Nat) (f : Chan → Chan) : (updChan s c f).ftl = { s.ftl with chans := tupd s.ftl.chans c f } := rfl
@[simp] theorem updChan_dma (c : Nat) (f : Chan → Chan) : (updChan s c f).dma = s.dma := rfl
@[simp] theorem updChan_flue (c : Nat) (f : Chan → Chan) : (updChan s c f).flue = s.flue := rfl
@[simp] theorem updChan_health (c : Nat) (f : Chan → Chan) : (updChan s c f).health = s.health := rfl
@[simp] theorem updChan_trace (c : Nat) (f : Chan → Chan) : (updChan s c f).trace = s.trace := rfl

/-! updCtl -/

@[simp] theorem updCtl_pending (c : Nat) (f : Ctl → Ctl) : (updCtl s c f).pending = s.pending := rfl
@[simp] theorem updCtl_out (c : Nat) (f : Ctl → Ctl) : (updCtl s c f).out = s.out := rfl
@[simp] theorem updCtl_nfree (c : Nat) (f : Ctl → Ctl) : (updCtl s c f).nfree = s.nfree := rfl
@[simp] theorem updCtl_power (c : Nat) (f : Ctl → Ctl) : (updCtl s c f).power = s.power := rfl
@[simp] theorem updCtl_boot (c : Nat) (f : Ctl → Ctl) : (updCtl s c f).boot = s.boot := rfl
@[simp] theorem updCtl_cfgFlash (c : Nat) (f : Ctl → Ctl) : (updCtl s c f).cfgFlash = s.cfgFlash := rfl
@[simp] theorem updCtl_topo (c : Nat) (f : Ctl → Ctl) : (updCtl s c f).topo = s.topo := rfl
@[simp] theorem updCtl_quads (c : Nat) (f : Ctl → Ctl) : (updCtl s c f).quads = s.quads := rfl
@[simp] theorem updCtl_tiles (c : Nat) (f : Ctl → Ctl) : (updCtl s c f).tiles = s.tiles := rfl
@[simp] theorem updCtl_stks (c : Nat) (f : Ctl → Ctl) : (updCtl s c f).stks = s.stks := rfl
@[simp] theorem updCtl_stackSel (c : Nat) (f : Ctl → Ctl) : (updCtl s c f).stackSel = s.stackSel := rfl
@[simp] theorem updCtl_nbuSel (c : Nat) (f : Ctl → Ctl) : (updCtl s c f).nbuSel = s.nbuSel := rfl
@[simp] theorem updCtl_mem (c : Nat) (f : Ctl → Ctl) : (updCtl s c f).mem = s.mem := rfl
@[simp] theorem updCtl_poison (c : Nat) (f : Ctl → Ctl) : (updCtl s c f).poison = s.poison := rfl
@[simp] theorem updCtl_sram (c : Nat) (f : Ctl → Ctl) : (updCtl s c f).sram = s.sram := rfl
@[simp] theorem updCtl_hostMem (c : Nat) (f : Ctl → Ctl) : (updCtl s c f).hostMem = s.hostMem := rfl
@[simp] theorem updCtl_pens (c : Nat) (f : Ctl → Ctl) : (updCtl s c f).pens = s.pens := rfl
@[simp] theorem updCtl_penSel (c : Nat) (f : Ctl → Ctl) : (updCtl s c f).penSel = s.penSel := rfl
@[simp] theorem updCtl_bselClass (c : Nat) (f : Ctl → Ctl) : (updCtl s c f).bselClass = s.bselClass := rfl
@[simp] theorem updCtl_bselRes (c : Nat) (f : Ctl → Ctl) : (updCtl s c f).bselRes = s.bselRes := rfl
@[simp] theorem updCtl_vsel (c : Nat) (f : Ctl → Ctl) : (updCtl s c f).vsel = s.vsel := rfl
@[simp] theorem updCtl_vecs (c : Nat) (f : Ctl → Ctl) : (updCtl s c f).vecs = s.vecs := rfl
@[simp] theorem updCtl_port (c : Nat) (f : Ctl → Ctl) : (updCtl s c f).port = { s.port with ctls := tmod s.port.ctls c f } := rfl
@[simp] theorem updCtl_drover (c : Nat) (f : Ctl → Ctl) : (updCtl s c f).drover = s.drover := rfl
@[simp] theorem updCtl_migs (c : Nat) (f : Ctl → Ctl) : (updCtl s c f).migs = s.migs := rfl
@[simp] theorem updCtl_coh (c : Nat) (f : Ctl → Ctl) : (updCtl s c f).coh = s.coh := rfl
@[simp] theorem updCtl_ftl (c : Nat) (f : Ctl → Ctl) : (updCtl s c f).ftl = s.ftl := rfl
@[simp] theorem updCtl_dma (c : Nat) (f : Ctl → Ctl) : (updCtl s c f).dma = s.dma := rfl
@[simp] theorem updCtl_flue (c : Nat) (f : Ctl → Ctl) : (updCtl s c f).flue = s.flue := rfl
@[simp] theorem updCtl_health (c : Nat) (f : Ctl → Ctl) : (updCtl s c f).health = s.health := rfl
@[simp] theorem updCtl_trace (c : Nat) (f : Ctl → Ctl) : (updCtl s c f).trace = s.trace := rfl

/-! updObj -/

@[simp] theorem updObj_pending (p n : Nat) (f : Obj → Obj) : (updObj s p n f).pending = s.pending := rfl
@[simp] theorem updObj_out (p n : Nat) (f : Obj → Obj) : (updObj s p n f).out = s.out := rfl
@[simp] theorem updObj_nfree (p n : Nat) (f : Obj → Obj) : (updObj s p n f).nfree = s.nfree := rfl
@[simp] theorem updObj_power (p n : Nat) (f : Obj → Obj) : (updObj s p n f).power = s.power := rfl
@[simp] theorem updObj_boot (p n : Nat) (f : Obj → Obj) : (updObj s p n f).boot = s.boot := rfl
@[simp] theorem updObj_cfgFlash (p n : Nat) (f : Obj → Obj) : (updObj s p n f).cfgFlash = s.cfgFlash := rfl
@[simp] theorem updObj_topo (p n : Nat) (f : Obj → Obj) : (updObj s p n f).topo = s.topo := rfl
@[simp] theorem updObj_quads (p n : Nat) (f : Obj → Obj) : (updObj s p n f).quads = s.quads := rfl
@[simp] theorem updObj_tiles (p n : Nat) (f : Obj → Obj) : (updObj s p n f).tiles = s.tiles := rfl
@[simp] theorem updObj_stks (p n : Nat) (f : Obj → Obj) : (updObj s p n f).stks = s.stks := rfl
@[simp] theorem updObj_stackSel (p n : Nat) (f : Obj → Obj) : (updObj s p n f).stackSel = s.stackSel := rfl
@[simp] theorem updObj_nbuSel (p n : Nat) (f : Obj → Obj) : (updObj s p n f).nbuSel = s.nbuSel := rfl
@[simp] theorem updObj_mem (p n : Nat) (f : Obj → Obj) : (updObj s p n f).mem = s.mem := rfl
@[simp] theorem updObj_poison (p n : Nat) (f : Obj → Obj) : (updObj s p n f).poison = s.poison := rfl
@[simp] theorem updObj_sram (p n : Nat) (f : Obj → Obj) : (updObj s p n f).sram = s.sram := rfl
@[simp] theorem updObj_hostMem (p n : Nat) (f : Obj → Obj) : (updObj s p n f).hostMem = s.hostMem := rfl
@[simp] theorem updObj_pens (p n : Nat) (f : Obj → Obj) : (updObj s p n f).pens = tupd s.pens p fun x => { x with objects := tupd x.objects n f } := rfl
@[simp] theorem updObj_penSel (p n : Nat) (f : Obj → Obj) : (updObj s p n f).penSel = s.penSel := rfl
@[simp] theorem updObj_bselClass (p n : Nat) (f : Obj → Obj) : (updObj s p n f).bselClass = s.bselClass := rfl
@[simp] theorem updObj_bselRes (p n : Nat) (f : Obj → Obj) : (updObj s p n f).bselRes = s.bselRes := rfl
@[simp] theorem updObj_vsel (p n : Nat) (f : Obj → Obj) : (updObj s p n f).vsel = s.vsel := rfl
@[simp] theorem updObj_vecs (p n : Nat) (f : Obj → Obj) : (updObj s p n f).vecs = s.vecs := rfl
@[simp] theorem updObj_port (p n : Nat) (f : Obj → Obj) : (updObj s p n f).port = s.port := rfl
@[simp] theorem updObj_drover (p n : Nat) (f : Obj → Obj) : (updObj s p n f).drover = s.drover := rfl
@[simp] theorem updObj_migs (p n : Nat) (f : Obj → Obj) : (updObj s p n f).migs = s.migs := rfl
@[simp] theorem updObj_coh (p n : Nat) (f : Obj → Obj) : (updObj s p n f).coh = s.coh := rfl
@[simp] theorem updObj_ftl (p n : Nat) (f : Obj → Obj) : (updObj s p n f).ftl = s.ftl := rfl
@[simp] theorem updObj_dma (p n : Nat) (f : Obj → Obj) : (updObj s p n f).dma = s.dma := rfl
@[simp] theorem updObj_flue (p n : Nat) (f : Obj → Obj) : (updObj s p n f).flue = s.flue := rfl
@[simp] theorem updObj_health (p n : Nat) (f : Obj → Obj) : (updObj s p n f).health = s.health := rfl
@[simp] theorem updObj_trace (p n : Nat) (f : Obj → Obj) : (updObj s p n f).trace = s.trace := rfl

/-! putObj -/

@[simp] theorem putObj_pending (p n : Nat) (o : Obj) : (putObj s p n o).pending = s.pending := rfl
@[simp] theorem putObj_out (p n : Nat) (o : Obj) : (putObj s p n o).out = s.out := rfl
@[simp] theorem putObj_nfree (p n : Nat) (o : Obj) : (putObj s p n o).nfree = s.nfree := rfl
@[simp] theorem putObj_power (p n : Nat) (o : Obj) : (putObj s p n o).power = s.power := rfl
@[simp] theorem putObj_boot (p n : Nat) (o : Obj) : (putObj s p n o).boot = s.boot := rfl
@[simp] theorem putObj_cfgFlash (p n : Nat) (o : Obj) : (putObj s p n o).cfgFlash = s.cfgFlash := rfl
@[simp] theorem putObj_topo (p n : Nat) (o : Obj) : (putObj s p n o).topo = s.topo := rfl
@[simp] theorem putObj_quads (p n : Nat) (o : Obj) : (putObj s p n o).quads = s.quads := rfl
@[simp] theorem putObj_tiles (p n : Nat) (o : Obj) : (putObj s p n o).tiles = s.tiles := rfl
@[simp] theorem putObj_stks (p n : Nat) (o : Obj) : (putObj s p n o).stks = s.stks := rfl
@[simp] theorem putObj_stackSel (p n : Nat) (o : Obj) : (putObj s p n o).stackSel = s.stackSel := rfl
@[simp] theorem putObj_nbuSel (p n : Nat) (o : Obj) : (putObj s p n o).nbuSel = s.nbuSel := rfl
@[simp] theorem putObj_mem (p n : Nat) (o : Obj) : (putObj s p n o).mem = s.mem := rfl
@[simp] theorem putObj_poison (p n : Nat) (o : Obj) : (putObj s p n o).poison = s.poison := rfl
@[simp] theorem putObj_sram (p n : Nat) (o : Obj) : (putObj s p n o).sram = s.sram := rfl
@[simp] theorem putObj_hostMem (p n : Nat) (o : Obj) : (putObj s p n o).hostMem = s.hostMem := rfl
@[simp] theorem putObj_pens (p n : Nat) (o : Obj) : (putObj s p n o).pens = tupd s.pens p fun x => { x with objects := tput x.objects n o } := rfl
@[simp] theorem putObj_penSel (p n : Nat) (o : Obj) : (putObj s p n o).penSel = s.penSel := rfl
@[simp] theorem putObj_bselClass (p n : Nat) (o : Obj) : (putObj s p n o).bselClass = s.bselClass := rfl
@[simp] theorem putObj_bselRes (p n : Nat) (o : Obj) : (putObj s p n o).bselRes = s.bselRes := rfl
@[simp] theorem putObj_vsel (p n : Nat) (o : Obj) : (putObj s p n o).vsel = s.vsel := rfl
@[simp] theorem putObj_vecs (p n : Nat) (o : Obj) : (putObj s p n o).vecs = s.vecs := rfl
@[simp] theorem putObj_port (p n : Nat) (o : Obj) : (putObj s p n o).port = s.port := rfl
@[simp] theorem putObj_drover (p n : Nat) (o : Obj) : (putObj s p n o).drover = s.drover := rfl
@[simp] theorem putObj_migs (p n : Nat) (o : Obj) : (putObj s p n o).migs = s.migs := rfl
@[simp] theorem putObj_coh (p n : Nat) (o : Obj) : (putObj s p n o).coh = s.coh := rfl
@[simp] theorem putObj_ftl (p n : Nat) (o : Obj) : (putObj s p n o).ftl = s.ftl := rfl
@[simp] theorem putObj_dma (p n : Nat) (o : Obj) : (putObj s p n o).dma = s.dma := rfl
@[simp] theorem putObj_flue (p n : Nat) (o : Obj) : (putObj s p n o).flue = s.flue := rfl
@[simp] theorem putObj_health (p n : Nat) (o : Obj) : (putObj s p n o).health = s.health := rfl
@[simp] theorem putObj_trace (p n : Nat) (o : Obj) : (putObj s p n o).trace = s.trace := rfl

/-! dropObj -/

@[simp] theorem dropObj_pending (p n : Nat) : (dropObj s p n).pending = s.pending := rfl
@[simp] theorem dropObj_out (p n : Nat) : (dropObj s p n).out = s.out := rfl
@[simp] theorem dropObj_nfree (p n : Nat) : (dropObj s p n).nfree = s.nfree := rfl
@[simp] theorem dropObj_power (p n : Nat) : (dropObj s p n).power = s.power := rfl
@[simp] theorem dropObj_boot (p n : Nat) : (dropObj s p n).boot = s.boot := rfl
@[simp] theorem dropObj_cfgFlash (p n : Nat) : (dropObj s p n).cfgFlash = s.cfgFlash := rfl
@[simp] theorem dropObj_topo (p n : Nat) : (dropObj s p n).topo = s.topo := rfl
@[simp] theorem dropObj_quads (p n : Nat) : (dropObj s p n).quads = s.quads := rfl
@[simp] theorem dropObj_tiles (p n : Nat) : (dropObj s p n).tiles = s.tiles := rfl
@[simp] theorem dropObj_stks (p n : Nat) : (dropObj s p n).stks = s.stks := rfl
@[simp] theorem dropObj_stackSel (p n : Nat) : (dropObj s p n).stackSel = s.stackSel := rfl
@[simp] theorem dropObj_nbuSel (p n : Nat) : (dropObj s p n).nbuSel = s.nbuSel := rfl
@[simp] theorem dropObj_mem (p n : Nat) : (dropObj s p n).mem = s.mem := rfl
@[simp] theorem dropObj_poison (p n : Nat) : (dropObj s p n).poison = s.poison := rfl
@[simp] theorem dropObj_sram (p n : Nat) : (dropObj s p n).sram = s.sram := rfl
@[simp] theorem dropObj_hostMem (p n : Nat) : (dropObj s p n).hostMem = s.hostMem := rfl
@[simp] theorem dropObj_pens (p n : Nat) : (dropObj s p n).pens = tupd s.pens p fun x => { x with objects := tdel x.objects n } := rfl
@[simp] theorem dropObj_penSel (p n : Nat) : (dropObj s p n).penSel = s.penSel := rfl
@[simp] theorem dropObj_bselClass (p n : Nat) : (dropObj s p n).bselClass = s.bselClass := rfl
@[simp] theorem dropObj_bselRes (p n : Nat) : (dropObj s p n).bselRes = s.bselRes := rfl
@[simp] theorem dropObj_vsel (p n : Nat) : (dropObj s p n).vsel = s.vsel := rfl
@[simp] theorem dropObj_vecs (p n : Nat) : (dropObj s p n).vecs = s.vecs := rfl
@[simp] theorem dropObj_port (p n : Nat) : (dropObj s p n).port = s.port := rfl
@[simp] theorem dropObj_drover (p n : Nat) : (dropObj s p n).drover = s.drover := rfl
@[simp] theorem dropObj_migs (p n : Nat) : (dropObj s p n).migs = s.migs := rfl
@[simp] theorem dropObj_coh (p n : Nat) : (dropObj s p n).coh = s.coh := rfl
@[simp] theorem dropObj_ftl (p n : Nat) : (dropObj s p n).ftl = s.ftl := rfl
@[simp] theorem dropObj_dma (p n : Nat) : (dropObj s p n).dma = s.dma := rfl
@[simp] theorem dropObj_flue (p n : Nat) : (dropObj s p n).flue = s.flue := rfl
@[simp] theorem dropObj_health (p n : Nat) : (dropObj s p n).health = s.health := rfl
@[simp] theorem dropObj_trace (p n : Nat) : (dropObj s p n).trace = s.trace := rfl

/-! drawTag -/

@[simp] theorem drawTag_pending : (drawTag s).2.pending = s.pending := rfl
@[simp] theorem drawTag_out : (drawTag s).2.out = s.out := rfl
@[simp] theorem drawTag_nfree : (drawTag s).2.nfree = s.nfree + 1 := rfl
@[simp] theorem drawTag_power : (drawTag s).2.power = s.power := rfl
@[simp] theorem drawTag_boot : (drawTag s).2.boot = s.boot := rfl
@[simp] theorem drawTag_cfgFlash : (drawTag s).2.cfgFlash = s.cfgFlash := rfl
@[simp] theorem drawTag_topo : (drawTag s).2.topo = s.topo := rfl
@[simp] theorem drawTag_quads : (drawTag s).2.quads = s.quads := rfl
@[simp] theorem drawTag_tiles : (drawTag s).2.tiles = s.tiles := rfl
@[simp] theorem drawTag_stks : (drawTag s).2.stks = s.stks := rfl
@[simp] theorem drawTag_stackSel : (drawTag s).2.stackSel = s.stackSel := rfl
@[simp] theorem drawTag_nbuSel : (drawTag s).2.nbuSel = s.nbuSel := rfl
@[simp] theorem drawTag_mem : (drawTag s).2.mem = s.mem := rfl
@[simp] theorem drawTag_poison : (drawTag s).2.poison = s.poison := rfl
@[simp] theorem drawTag_sram : (drawTag s).2.sram = s.sram := rfl
@[simp] theorem drawTag_hostMem : (drawTag s).2.hostMem = s.hostMem := rfl
@[simp] theorem drawTag_pens : (drawTag s).2.pens = s.pens := rfl
@[simp] theorem drawTag_penSel : (drawTag s).2.penSel = s.penSel := rfl
@[simp] theorem drawTag_bselClass : (drawTag s).2.bselClass = s.bselClass := rfl
@[simp] theorem drawTag_bselRes : (drawTag s).2.bselRes = s.bselRes := rfl
@[simp] theorem drawTag_vsel : (drawTag s).2.vsel = s.vsel := rfl
@[simp] theorem drawTag_vecs : (drawTag s).2.vecs = s.vecs := rfl
@[simp] theorem drawTag_port : (drawTag s).2.port = s.port := rfl
@[simp] theorem drawTag_drover : (drawTag s).2.drover = s.drover := rfl
@[simp] theorem drawTag_migs : (drawTag s).2.migs = s.migs := rfl
@[simp] theorem drawTag_coh : (drawTag s).2.coh = s.coh := rfl
@[simp] theorem drawTag_ftl : (drawTag s).2.ftl = s.ftl := rfl
@[simp] theorem drawTag_dma : (drawTag s).2.dma = s.dma := rfl
@[simp] theorem drawTag_flue : (drawTag s).2.flue = s.flue := rfl
@[simp] theorem drawTag_health : (drawTag s).2.health = s.health := rfl
@[simp] theorem drawTag_trace : (drawTag s).2.trace = s.trace := rfl

end Sys2Proof.Machine
end

