-- ==== Sys2Proof/WellFormed.lean ====
section
/-!
DEFINITION. When a command's operands lie in the ranges that the spec's identifiers and registers have (R10, R23, R48, R321, R340,
R397, R462). The meanings do not rely on it: a command with an operand out of range acts as each meaning says.
-/

namespace Sys2Proof

/-- Numbers of the node's units and tables. -/
def tileNo (n : Nat) : Bool := decide (n < 64)
def quadNo (n : Nat) : Bool := decide (n < 4)
def stackNo (n : Nat) : Bool := decide (n < 20)
def nbuNo (n : Nat) : Bool := decide (n < 128)
def chanNo (n : Nat) : Bool := decide (n < 32)
def dmaNo (n : Nat) : Bool := decide (n < 64)
def portNo (n : Nat) : Bool := decide (n < 8)
def ctxNo (n : Nat) : Bool := decide (n < 1024)
def penNo (n : Nat) : Bool := decide (n < 256)
def objNo (n : Nat) : Bool := decide (n < 32768)
def ctlNo (n : Nat) : Bool := decide (n < 512)
def queueNo (n : Nat) : Bool := decide (n < 65536)
def vecNo (n : Nat) : Bool := decide (n < 4096)
def moduleNo (n : Nat) : Bool := decide (n < 24)
def pairNo (n : Nat) : Bool := decide (n < 8)
def domainNo (n : Nat) : Bool := decide (n < 20)
/-- Agents of the coherence protocol: tiles 0 to 63, engines 64 to 95, the host 96 (R256); 128 and 129 are DMA and Drover. -/
def agentNo (n : Nat) : Bool := decide (n < 97 ∨ n = 128 ∨ n = 129)
/-- A line address: a multiple of 64 within the 20 × 72 GiB of R324. -/
def lineNo (n : Nat) : Bool := decide (n % 64 = 0 ∧ n < 20 * 72 * 2 ^ 30)

/-- An entry of a submission queue. -/
def Cmd.wf (c : Cmd) : Bool := ctlNo c.ctl && queueNo c.sq && decide (c.cid < 65536)

/-- An operand reference (R48). -/
def OpRef.wf : OpRef → Bool
  | .host a => decide (a < 2 ^ 62)
  | .obj n o => objNo n && decide (o < 2 ^ 47)
  | .scratch n o => decide (n < 256) && decide (o < 2 ^ 54)
  | .none => true

/-- A KEYED block (R340). -/
def KBlock.wf (b : KBlock) : Bool := b.resv.length == 6 && b.args.length == 32 && b.tag.length == 16

/-- A unit (R439). -/
def HwUnit.wf : HwUnit → Bool
  | .tile t => tileNo t
  | .array t a => tileNo t && decide (a < 4)
  | .quad q => quadNo q
  | .stack s => stackNo s
  | .nearBank s u => stackNo s && nbuNo u
  | .engine c => chanNo c
  | .target c t => chanNo c && decide (t < 16)
  | .dma n => dmaNo n
  | .fluePort p => portNo p
  | .d2d m => moduleNo m
  | .domain d => domainNo d

/-- A Flue message's header fields in their widths (R397). -/
def FlueMsg.wf (m : FlueMsg) : Bool :=
  ctxNo m.dst && ctxNo m.src && ctxNo m.dctx && ctxNo m.sctx && decide (m.mseq < 65536) && decide (m.type < 256) &&
  decide (m.ttl < 256) && decide (m.gen < 2 ^ 32) && decide (m.corrid < 2 ^ 32)

/-- A latched DMA error (14). -/
def BusErr.wf (e : BusErr) : Bool := decide (e.kind < 6) && decide (e.target < 3)

/-- Pages of a PRP list: page-aligned but for the first. -/
def prpWf (l : List Nat) : Bool := (l.drop 1).all fun a => a % 4096 == 0

/-- A command with every operand in its range. -/
def Instr.wf (i : Instr) : Bool := match i with
  | .turnOn | .lossOfPower | .resetN | .progEn | .phaseImage | .readiness | .getVersion | .getCapabilities | .getDigests
  | .endSession | .warmResetBegin | .damperTick | .cxlReset | .sanitizeEnd | .writeBufferAdmit | .reclaimSweepDone | .scoreRecompute
  | .trcGo | .trcReplay | .resetNHigh => true
  | .perst _ | .negotiateAlgorithms _ _ _ _ | .finish _ | .linkDown _ | .phaseRom _ _ => true
  | .railFault d => domainNo d
  | .thermalSample q h t => q.length == 4 && t.length == 20 && decide (h < 256) && (q ++ t).all fun x => decide (x < 256)
  | .inputPowerSample v a w d => decide (v < 65536 ∧ a < 65536 ∧ w < 65536) && d.length == 20
  | .phasePower l => l.all domainNo
  | .phaseTrain m t g => m.all moduleNo && t.all stackNo && g.length == 4 && g.all fun x => x.channels.length == 8
  | .phaseClear l => l.all lineNo
  | .phaseTest f c => f.all HwUnit.wf && c.all fun x => tileNo x.1 && decide (x.2.1 < 4)
  | .rebuild c _ | .rebuildDone c | .writeBufferDrain c | .kindlingPad c | .journalPageTimeout c | .checkpointStart c => chanNo c
  | .getCertificate s o n => decide (s < 8 ∧ o < 65536 ∧ n < 65536)
  | .challenge s n => decide (s < 8) && n.length == 32
  | .getMeasurements x _ n => decide (x < 256) && n.length == 32
  | .keyExchange k => k.length == 64
  | .cfgErase c b | .cfgWrite c b | .cfgVerify c b | .cfgActivate c b | .penCreate c b | .penDestroy c b | .penQuota c b | .penDamper c b
  | .penReset c b | .warmReset c b | .coldReset c b | .flueCtxOpen c b | .flueCtxClose c b | .flueRoute c b | .lend c b | .mirrorLoad c b
  | .mirrorPromote c b | .undefinedControlCode c _ b => c.wf && b.wf
  | .penResetEnd p => penNo p
  | .vectorTimeExpiry v | .msixUnmask v => vecNo v
  | .penVmodWrite _ => true
  | .hostLinkUp _ w r _ => decide (w ≤ 16 ∧ r < 3)
  | .controllerReset c _ => ctlNo c
  | .controllerEnable c a n b m => ctlNo c && decide (a % 4096 = 0 ∧ b % 4096 = 0 ∧ n ≤ 4096 ∧ m ≤ 4096)
  | .sqTailDoorbell c q t _ => ctlNo c && queueNo q && queueNo t
  | .cqHeadDoorbell c q h | .recordQueueHeadDoorbell c q h => ctlNo c && queueNo q && queueNo h
  | .createIoSq c q b n m _ => c.wf && queueNo q && queueNo m && decide (b % 4096 = 0 ∧ n ≤ 65536)
  | .createIoCq c q b n v _ _ => c.wf && queueNo q && queueNo v && decide (b % 4096 = 0 ∧ n ≤ 65536)
  | .createSkexQueue c q b n m r k _ => c.wf && queueNo q && queueNo m && decide (b % 4096 = 0 ∧ r % 4096 = 0 ∧ n ≤ 65536 ∧ k ≤ 65536)
  | .deleteIoSq c q | .deleteIoCq c q => c.wf && queueNo q
  | .identify c n p => c.wf && decide (n < 256) && prpWf p
  | .getLogPage c l _ _ p => c.wf && decide (l < 256) && prpWf p
  | .abort c | .asynchronousEventRequest c | .flush c => c.wf
  | .setFeatures c f _ | .getFeatures c f => c.wf && decide (f < 256)
  | .sanitize c a => c.wf && decide (a < 8)
  | .write c a n _ p | .orderedWrite c a n _ p => c.wf && decide (a < 2 ^ 64 ∧ 1 ≤ n ∧ n ≤ 65536) && prpWf p
  | .read c a n p => c.wf && decide (a < 2 ^ 64 ∧ 1 ≤ n ∧ n ≤ 65536) && prpWf p
  | .datasetManagement c r _ => c.wf && decide (r.length ≤ 256)
  | .submit c g => c.wf && g.wf
  | .skexFence c _ _ => c.wf
  | .tableSwitch c o b => c.wf && objNo o && decide (b < 4)
  | .epochCommit c o r => c.wf && objNo o && r.wf
  | .regionCreate c o _ _ | .regionDestroy c o | .unmap c o => c.wf && objNo o
  | .map c o _ l => c.wf && objNo o && l.wf
  | .graphAccept c q => ctlNo c && queueNo q
  | .taskIssue _ c => dmaNo c
  | .baleMoveDone _ _ | .writeBackDone _ => true
  | .taskComplete _ x => x.sram.all fun x => x.1 % 8 == 0
  | .nop _ | .fence _ | .alloc _ | .free _ | .copy _ | .fill _ | .matmul _ | .modelRun _ | .modelCreate _ | .modelDestroy _ | .vectorStep _
  | .vectorFilter _ | .tokenize _ | .pack _ | .nbuSeq _ | .query _ | .walkRound _ | .flashWalkRound _ | .rerank _ | .fanOutQuery _ | .merge _
  | .insert _ | .indexCreate _ | .indexOpen _ | .rebuildIndex _ | .delete _ | .destroy _ | .repairSweepNow _ | .gather _ | .scatterWrite _
  | .scatterAdd _ | .tableCreate _ | .tableDestroy _ | .clone _ | .flashRead _ | .flashWrite _ | .deallocate _ | .flueSend _ => true
  | .arrayUnit _ a p _ _ _ => decide (a < 64 ∧ p < 4)
  | .arrayTest t a => tileNo t && decide (a < 4)
  | .arrayTestRequest t _ => tileNo t
  | .arrayTestDone t a _ _ => tileNo t && decide (a < 4)
  | .microOp n u _ => stackNo n && nbuNo u
  | .refreshDue n u => stackNo n && nbuNo u
  | .enginePageExpand _ c _ | .hop _ c => chanNo c
  | .seal p o | .commitComplete p o | .sweepEnd p o | .lendHandoverDone p o => penNo p && objNo o
  | .sketchHalving q | .binQuiesceDone q | .pllRelockDone q => quadNo q
  | .migrationStart q p o b _ => quadNo q && penNo p && objNo o && decide (b < 4)
  | .migrationCopyEnd q e | .migrationCommit q e => quadNo q && decide (e < 256)
  | .patrolScrub n c r => stackNo n && (c ++ r.uncorrectable).all fun x => decide (x < 72 * 2 ^ 24)
  | .rds r l | .rde r l | .rdc r l | .wr r l | .putb r l | .pute r l | .putm r l | .ack r l | .wbd r l | .cack r l | .inv r l | .rcl r l | .rclS r l
  | .dataS r l | .dataB r l | .dataE r l | .cmp r l | .agentLoad r l | .agentReplace r l => agentNo r && lineNo l
  | .clr l | .stackAccessDone l | .bisnpTimeout l => lineNo l
  | .memberAck a l m => agentNo a && lineNo l && agentNo m
  | .agentStore a l d k => agentNo a && lineNo l && d.length == 64 && k.length == 64
  | .hostCxlMemRequest r l => lineNo l && match r with
    | .wr d k => d.length == 64 && k.length == 64
    | _ => true
  | .snpInv l _ | .snpData l | .snpCur l => decide (l % 64 = 0)
  | .reclaimSweep a => agentNo a
  | .pageReadDone c _ d => chanNo c && decide (d.length ≤ 4)
  | .programDone c _ _ | .eraseDone c _ _ => chanNo c
  | .foldStart c l | .gcStart c l => chanNo c && decide (l < 64)
  | .patrolRead c _ r => chanNo c && r.groups.all fun x => decide (x.2 < 16)
  | .readLevelReplan c l g _ => chanNo c && decide (l < 64 ∧ g < 16)
  | .flashTemperatureSample t => t.length == 4
  | .dmaEnable n | .dmaStop n | .dmaRestart n _ | .dmaTest n | .dmaTestDone n _ | .dmaDoorbell n _ | .dmaCqheadWrite n _
  | .descriptorFetchDone n => dmaNo n
  | .descriptorComplete n x => dmaNo n && queueNo x
  | .busError n x _ e => dmaNo n && queueNo x && e.wf
  | .errinfoClear n e => dmaNo n && (e.map fun x => x.2.2.wf).getD true
  | .poisonLatchClear l => (l.map fun x => decide (x < 72 * 2 ^ 24)).getD true
  | .reclaimLatchClear l => (l.map lineNo).getD true
  | .portTraining p | .qualificationEnd p _ _ | .dataFlit p | .idleFlit p | .retryReq p => portNo p
  | .forward m | .openMsg m | .close m | .flueAck m | .put m | .putDone m | .queryMessage m | .answer m | .mrec m | .mcommit m | .mack m
  | .load m | .rread m | .rwrite m | .rresp m | .mapupd m => m.wf
  | .resendTimeout c v => ctxNo c && decide (v < 2)
  | .peerTimeout c => ctxNo c
  | .marginEvaluation l => l.length == 20
  | .phyRetrain n m | .phyRetrainDone n m => stackNo n && decide (m ≤ 100)
  | .dieToDieModuleDown m | .laneFailure ⟨m, _⟩ => moduleNo m
  | .routeListResume p => pairNo p
  | .unitFault u => u.wf
  | .nodeFault c _ => decide (1 ≤ c ∧ c < 7)
  | .trcRprodWrite o _ | .trcRconsWrite o => decide (o < 2 ^ 40)
  | .registerWrite a w _ => a % (if w then 8 else 4) == 0
  | .fecBlock p _ _ f => portNo p && f.length == 5 && f.all fun x => x.length == 256
  | .invalidCommandOpcode c o => c.wf && decide (o < 256)
  | .unsupportedSpdmRequest n => decide (n < 256)

end Sys2Proof
end

