-- ==== Sys2Proof/Tests/Slice0.lean ====
section
/-!
SUPPORT. Checks of the model on small states. `witness_…` shows a state and operands that meet the hypotheses of a statement of
Certificates/Slice0/Obligations.lean; `test_…` checks one command's effect against the rule that it follows.
-/

open Sys2Proof Sys2Proof.Machine

namespace Sys2Proof.Tests

set_option Elab.async false

/-- A property of the next state; false where the machine stops. -/
def nextIs (r : Res) (f : State → Bool) : Bool := match r with
  | .next t => f t
  | _ => false

/-- Pen 0's key in these tests. -/
def key0 : List Byte := List.replicate 32 7

/-- A KEYED block of pen 0 with counter 1, before its tag. -/
def kb0 (args : List Byte) : KBlock :=
  { counter := 1, resv := List.replicate 6 0, args := args ++ List.replicate (32 - args.length) 0, tag := [] }

/-- The same with the tag of R356 under that key. -/
def kb (code : Nat) (args : List Byte) : KBlock := { kb0 args with tag := keyedTag key0 code (kb0 args) }

/-- A table of 4 rows of 2 fp32 values at stack 0, as object 1. -/
def tab1 : Obj :=
  { kind := .table { fmt := 0x0B, width := 2, rows := 4, migrate := true }, bytes := 65536, homes := [.stack 0 0] }

/-- A buffer of one bale at stack 1, as object 2. -/
def buf2 : Obj := { kind := .buffer, bytes := 65536, homes := [.stack 1 0] }

def pen0 : Pen :=
  openDampers { alive := true, queues := 8, vectors := 2, taskUnits := 4, baleGib := 4, peerCtx := 4, objects := [(1, tab1), (2, buf2)] }

def pen1 : Pen := { alive := true, queues := 8, vectors := 2, taskUnits := 4, vbase := 2, winLen := 100 }

/-- A part with two blocks of four pages, and its channel with nothing mapped. -/
def prof0 : Profile := { npl := 1, nl := 1, nb := 8, np := 8, npPslc := 4, pageBytes := 16384, targets := 1 }
def chan0 : Chan := { usable := true, rebuilt := true, targets := [0], freeOrder := [1, 2, 3], media := { formatted := true } }

/-- A controller up, with one Skex queue (1) and one I/O queue (2) on completion queue 1; one command waits in each and in the
admin queue. -/
def ctl0 : Ctl :=
  { en := true
    rdy := true
    admin := { base := 0x10000, size := 16, covered := 1 }
    adminCq := { base := 0x20000, size := 16 }
    sqs := [(1, { base := 0x30000, size := 16, covered := 1, cqid := 1, skex := true, rq := { base := 0x50000, size := 16 } }),
            (2, { base := 0x40000, size := 16, covered := 1, cqid := 1 })]
    cqs := [(1, { base := 0x60000, size := 16, ien := true })] }

/-- The node ready, with every unit usable, pen 0 and its controller. -/
def node : State :=
  { power := { vin := true, on := 0xFFFFF }
    boot := { phase := 7, ready := true, loaded := true, tested := true, k0 := some key0 }
    topo := { quad := 0xF, stack := 0xFFFFF, quadOk := 0xF, tileOk := 0xFFFFFFFFFFFFFFFF, stackOk := 0xFFFFF, tiles := 64 }
    pens := [(0, pen0), (1, pen1)]
    ftl := { nsBlocks := 1000, nsChannels := [0], profiles := [prof0], chans := [(0, chan0)] }
    vecs := [(0, { assigned := true }), (1, { assigned := true })]
    port := { upA := true, widthA := 16, rateA := 2, ctls := [(0, ctl0)] }
    drover := { dmaCh := 32 }
    dma := [(0, { inService := true }), (40, { inService := true })] }

/-- The commands at the front of those queues. -/
def cAdmin : Cmd := { ctl := 0, sq := 0, cid := 5 }
def cSkex : Cmd := { ctl := 0, sq := 1, cid := 5 }
def cIo : Cmd := { ctl := 0, sq := 2, cid := 5 }


/-- A block accepted from pen 0 of `node`: the tag is R356's, so the check holds for every code and argument. -/
theorem kb_accepted (s : State) (code : Nat) (args : List Byte) (permit : Nat → Bool) (hp : permit 0 = true)
    (hk : s.boot.k0 = some key0) (hc : (canFetch s cSkex).isSome = true) (ho : onSkex s cSkex = true) (hr : s.trace.replay = false)
    (hn : (penOf s 0).kctr = 0) : keyedAccepted s cSkex (kb code args) code permit = true := by
  have hpen : penOfCtl cSkex.ctl = 0 := by decide
  have htag : keyedTag key0 code (kb code args) = (kb code args).tag := by simp only [keyedTag, kb]
  have hctr : (kb code args).counter.toNat = 1 := rfl
  have hb : cSkex.bad = false := rfl
  simp [keyedAccepted, keyedOk, penKey, hpen, hp, hk, hc, ho, hr, hn, htag, hctr, hb]

/-- The same on `node` itself. -/
theorem kb_ok (code : Nat) (args : List Byte) : keyedAccepted node cSkex (kb code args) code onlyPen0 = true :=
  kb_accepted node code args onlyPen0 rfl rfl (by decide +kernel) (by decide +kernel) rfl rfl

/-! The machine as a whole, registers. -/

theorem test_no_word_spells_a_command : decodeTableWord 32 0xFFFFFFFF = none ∧ node.withFetchWord 32 1 = node := by decide +kernel
theorem test_empty_queue_idles : nextIs (step node) (· == node) = true := by decide +kernel
theorem test_step_takes_the_front :
    nextIs (step { node with pending := [.getVersion, .resetN] }) (fun t => t.pending == [.resetN] && t.out == [.spdm .version]) = true := by
  decide +kernel
theorem witness_AddressesOutsideTheBlocks : ∀ a ∈ [0xF0000, 0x140000, 0x1FFFF8, 0x600000], regAligned a true = true ∧
    ¬(a / 0x10000 < 0xF ∨ 0x10 ≤ a / 0x10000 ∧ a / 0x10000 < 0x14 ∨ 0x20 ≤ a / 0x10000 ∧ a / 0x10000 < 0x60) := by decide +kernel
theorem witness_WritesWithoutEffect : State.reset.boot.ready = false ∧ regAligned 0x2FFF8 true = true ∧ 0x2FFF8 / 0x10000 = 2 := by decide +kernel
theorem test_selector_takes_its_field : node.boot.ready = true ∧
    nextIs (exec (.registerWrite 0x70000 true 0x1FF) node) (fun t => t.penSel == 0xFF && regRead t 0x70000 true == 0xFF) = true := by
  decide +kernel
theorem test_bar2_misaligned : regAligned 0x70004 true = false ∧ nextIs (exec (.registerWrite 0x70004 true 0) node) (fun t => t.nfree == 4) = true := by
  decide +kernel

/-! Pins, power, sensors. -/

theorem test_loss_of_power : nextIs (exec .lossOfPower node) (fun t => t.power.on == 0 && t.pens.isEmpty && !t.power.vin) = true := by
  decide +kernel
theorem test_turn_on : State.reset.power.vin = false ∧ State.reset.power.resetN = true ∧ State.reset.power.progEn = false ∧
    nextIs (exec .turnOn State.reset) (fun t => t.power.on == coreDomains && t.boot.phase == 1) = true := by decide +kernel
theorem test_reset_pulse : nextIs (exec .resetN node) (fun t => t.power.vin && !t.power.resetN &&
    nextIs (exec .resetNHigh t) (fun u => u.boot.reason == 1 && u.power.on == coreDomains)) = true := by decide +kernel
theorem test_prog_en : nextIs (exec .progEn node) (fun t => t.power.progEn && t.power.on == 0) = true := by decide +kernel
theorem test_rail_fault : node.power.on.getLsbD 19 = true ∧
    nextIs (exec (.railFault 19) node) (fun t => t.power.on == 0x7FFFF && t.power.fault == 0x80000) = true := by decide +kernel
theorem witness_sensor_below : node.power.on &&& coreDomains = coreDomains ∧
    anyAt (storeTemps node [60, 60, 60, 60] 60 (List.replicate 20 84)) 115 105 = false := by decide +kernel
theorem test_stack_hot : nextIs (exec (.thermalSample [60, 60, 60, 60] 60 (List.replicate 19 84 ++ [85])) node)
    (fun t => (stackOf t 19).hot && !(stackOf t 18).hot && t.power.on == node.power.on) = true := by decide +kernel
theorem witness_trip : anyAt (storeTemps node [115, 0, 0, 0] 0 []) 115 105 = true ∧
    anyAt (storeTemps node [115, 0, 0, 0] 0 []) 125 115 = false := by decide +kernel
theorem test_hard_limit : anyAt (storeTemps node [0, 0, 0, 0] 0 [115]) 125 115 = true ∧
    nextIs (exec (.thermalSample [0, 0, 0, 0] 0 [115]) node) (fun t => t.power.on == 0 && t.power.faultN) = true := by decide +kernel
theorem test_input_power : nextIs (exec (.inputPowerSample 48000 30000 1751 []) node)
    (fun t => t.power.hot && t.power.pcap && t.power.peak == 1751) = true ∧ anyAt node 101 91 = false := by decide +kernel
theorem witness_links : hostPortOn node = true ∧ ¬hostAgent ∈ node.coh.toSweep ∧ linkOk false 16 2 = true ∧ linkOk true 8 2 = true ∧
    linkOk true 16 2 = false := by decide +kernel
theorem test_link_up : nextIs (exec (.hostLinkUp false 8 1 true) node) (fun t => t.port.upA && t.port.widthA == 8) = true ∧
    nextIs (exec (.hostLinkUp false 8 3 true) node) (· == node) = true := by decide +kernel
theorem test_link_down : nextIs (exec (.linkDown false) node)
    (fun t => !t.port.upA && t.port.downsA == 1 && t.coh.toSweep == [hostAgent] && !(ctlOf t 0).en) = true := by decide +kernel
theorem test_perst_b : nextIs (exec (.perst true) node) (fun t => t.port.upA && (ctlOf t 0).en) = true := by decide +kernel
theorem test_cxl_reset : nextIs (exec .cxlReset node) (fun t => t.coh.toSweep == [hostAgent] && t.port.upA) = true := by decide +kernel

/-! Startup, SPDM. -/

/-- The node in a phase of a start, TEST not ended. -/
def starting (n : Nat) : State := { node with boot := { phase := n, loaded := true } }

theorem witness_phases : inPhase (starting 1) 1 = true ∧ inPhase (starting 2) 2 = true ∧ selectSlot (latchSlots (starting 2)) = none ∧
    inPhase (starting 3) 3 = true ∧ inPhase (starting 4) 4 = true ∧ inPhase (starting 5) 5 = true ∧ inPhase (starting 6) 6 = true ∧
    (starting 6).boot.tested = false := by decide +kernel
theorem test_rom_self_test : nextIs (exec (.phaseRom false []) (starting 1)) (fun t => t.boot.phase == 15 && t.power.on == coreDomains) = true := by
  decide +kernel
theorem test_no_image_fails : nextIs (exec .phaseImage (starting 2)) (fun t => t.boot.phase == 15 && t.boot.slotA.reason == 1) = true := by
  decide +kernel
theorem test_phase_power : nextIs (exec (.phasePower []) (starting 3)) (fun t => t.power.on == coreDomains && t.boot.phase == 4) = true := by
  decide +kernel
theorem test_phase_train : nextIs (exec (.phaseTrain [3] [19] []) (starting 4)) (fun t => t.boot.phase == 5 && t.topo.d2dDown == [3]) = true := by
  decide +kernel
theorem test_phase_clear : (64 * 7) % line = 0 ∧ stackUsable (starting 5) (dpaStack (64 * 7)) = true ∧
    nextIs (exec (.phaseClear [64 * 7]) (starting 5)) (fun t => t.boot.phase == 6 && t.poison == [64 * 7]) = true := by decide +kernel
theorem test_phase_test : nextIs (exec (.phaseTest [.tile 63] []) (starting 6)) (fun t => t.boot.tested && !tileUsable t 63) = true := by
  decide +kernel
/-- The node ready to report readiness. -/
def tested : State := { starting 6 with boot := { phase := 6, loaded := true, tested := true } }
theorem witness_readiness : inPhase tested 6 = true ∧ canStart tested = true ∧ rebuildsOver tested = true ∧
    canStart { tested with dma := [] } = false := by decide +kernel
theorem test_readiness : nextIs (exec .readiness tested)
    (fun t => t.boot.ready && t.boot.phase == 7 && t.topo.tiles == 64 && bits (regRead t 0x00010 true) 0 24 == 0xFFFFFF) = true := by decide +kernel
theorem test_readiness_without_dma : nextIs (exec .readiness { tested with dma := [] }) (fun t => t.boot.phase == 15) = true := by decide +kernel

/-- The node with an identity, and one in a session. -/
def identified : State := { node with boot := { node.boot with ident := true, hasAlias := true, aliasCert := [1], aliasKey := [2] } }
def inSession : State := { identified with boot := { identified.boot with session := true } }
theorem witness_spdm : spdmUp node = true ∧ spdmLimited node = false ∧ node.boot.session = false ∧ hasIdentity node = false ∧
    hasIdentity identified = true ∧ spdmUp identified = true ∧ spdmLimited identified = false ∧ inSession.boot.session = true := by decide +kernel
theorem witness_certificate : 0 < (chain0 identified).length := by
  unfold chain0; simp [identified]
theorem test_version : nextIs (exec .getVersion node) (fun t => t.out == [.spdm .version]) = true := by decide +kernel
theorem test_capabilities_in_session : nextIs (exec .getCapabilities inSession) (fun t => t.out == [.spdm (.error 1)]) = true := by decide +kernel
theorem test_algorithms : nextIs (exec (.negotiateAlgorithms true true true false) node) (fun t => t.out == [.spdm (.algorithms false)]) = true := by
  decide +kernel
theorem test_no_identity : nextIs (exec .getDigests node) (fun t => t.out == [.spdm (.error 0)]) = true ∧
    nextIs (exec (.getCertificate 0 0 16) node) (fun t => t.out == [.spdm (.error 0)]) = true ∧
    nextIs (exec (.challenge 0 []) node) (fun t => t.out == [.spdm (.error 0)]) = true ∧
    nextIs (exec (.keyExchange [1]) node) (fun t => t.out == [.spdm (.error 0)]) = true := by decide +kernel
theorem test_challenge_slot : nextIs (exec (.challenge 1 []) identified) (fun t => t.out == [.spdm (.error 2)]) = true := by decide +kernel
theorem witness_measurements : spdmUp node = true ∧ node.boot.loaded = true ∧ spdmUp { starting 15 with boot := { phase := 15 } } = true ∧
    ({ starting 15 with boot := { phase := 15 } } : State).boot.verified = none := by decide +kernel
theorem test_measurement_count : nextIs (exec (.getMeasurements 0 false []) inSession)
    (fun t => t.out == [.spdm (.measurements [(0, [6])] none)]) = true := by decide +kernel
theorem test_end_session : nextIs (exec .endSession inSession) (fun t => !t.boot.session && t.boot.k0 == some key0) = true := by decide +kernel
theorem test_finish : nextIs (exec (.finish true) { identified with boot := { identified.boot with sessionSecret := [9] } })
    (fun t => t.boot.session && t.boot.k0 == some key0) = true := by decide +kernel
theorem test_unsupported_request : ¬0xEE ∈ spdmCodes ∧
    nextIs (exec (.unsupportedSpdmRequest 0xEE) node) (fun t => t.out == [.spdm (.error 1)]) = true := by decide +kernel
theorem witness_no_key : State.reset.boot.k0 = none ∧ State.reset.trace.replay = false := by decide +kernel

/-! The image, keyed commands, pens, resets. -/

/-- Arguments as little-endian fields: (bytes, value). -/
def args (l : List (Nat × Nat)) : List Byte := l.flatMap fun x => le x.1 x.2
/-- An operand reference to an object of the pen (R48). -/
def refObj (n off : Nat) : Nat := 2 ^ 62 + n * 2 ^ 47 + off

theorem witness_fetch : canFetch node cSkex = some 0 ∧ onSkex node cSkex = true ∧ canFetch node cAdmin = some 0 ∧ canFetch node cIo = some 0 ∧
    onSkex node cIo = false := by decide +kernel
/-- A block whose counter does not exceed the pen's. -/
def staleBlock : KBlock := { kb0 [] with counter := 0 }
theorem test_stale_counter : keyedOk node 0 0x0007 staleBlock true = false ∧
    nextIs (exec (.coldReset cSkex staleBlock) node) (fun t => (penOf t 0).krej == 1 && t.boot == node.boot &&
      t.hostMem.read 0x6000E 2 == le 2 (1 + 2 * stTagRejected)) = true := by decide +kernel
theorem test_undefined_control : ¬(0x0008#16).toNat ∈ controlCodes ∧
    nextIs (exec (.undefinedControlCode cSkex 0x0008 staleBlock) node) (fun t => (penOf t 0).krej == 1) = true := by decide +kernel

/-- An image with empty firmware, no settings and the core domains, in configuration flash device 1. -/
def imgMem : Mem :=
  let dir := fun n => args [(2, [1, 2, 3, 0x10, 0x11, 0x14, 0x15, 0x16].getD n 0), (2, 0), (4, 192 + [0, 0, 0, 0, 0, 16, 176, 496].getD n 0),
    (4, [0, 0, 0, 0, 12, 160, 320, 4].getD n 0)]
  let dom := args [(4, coreDomains.toNat), (8, 0)]
  let damper := fun k => args [(2, 0), (1, k), (1, 0), (2, 0xFFFF), (2, 0xFFFF), (2, 0xFFFF), (2, 1), (20, 0)]
  let pen := args [(2, 0), (2, 1), (2, 1), (2, 1), (2, 0), (1, 1), (1, 0), (2, 0), (2, 0), (16, 0)] ++ damper 0 ++ damper 1 ++ damper 2 ++ damper 3
  let body := dom ++ args [(4, 0)] ++ pen ++ List.replicate 324 0
  let sec := fun n => sub body ([0, 0, 0, 0, 0, 16, 176, 496].getD n 0) ([0, 0, 0, 0, 12, 160, 320, 4].getD n 0)
  let head := args [(4, 0x4E444E44), (2, 1), (2, 8), (8, 9), (4, 696 + 128), (4, 696), (2, 3), (2, 0), (36, 0)]
  let dirs := (List.range 8).flatMap fun n => dir n ++ le 4 (crc32c (sec n)).toNat
  Mem.write {} 0 (head ++ dirs ++ body)
def imaged : State := { node with cfgFlash := [(1, imgMem)], boot := { node.boot with reason := 1 } }

theorem test_crc32c : crc32c (ascii "123456789") = 0xE3069283 := by decide +kernel

set_option maxRecDepth 20000 in
theorem image_head : headFault imaged 1 = 0 := by decide +kernel
set_option maxRecDepth 20000 in
theorem image_crc : ((imgHead imaged 1).dir.any fun e => (crc32c (cfgRead imaged 1 e.off e.len)).toNat != e.crc) = false := by decide +kernel
set_option maxRecDepth 20000 in
theorem image_checks : failedCheck (imageOf imaged 1 (imgHead imaged 1)) = none := by decide +kernel

/-- The image passes every check once its certificates and signatures do: those are functions of published standards that the
model leaves without a body (log 2), so a witness takes their answers as hypotheses. -/
theorem witness_image_passes (key : List Byte) (hc : ∀ b, Config.certLeafKey b = some key)
    (hv : ∀ k x m g, Config.ed448phVerify k x m g = true) : judgeSlot imaged 1 = slotReg (imgHead imaged 1) 0 0 := by
  have hs : signatureFault imaged 1 (imgHead imaged 1) = 0 := by simp [signatureFault, firmwareOk, hc, hv]
  simp only [judgeSlot, image_head, image_crc, hs, image_checks]
  simp

/-- The node after a KEYED command of pen 0 has been accepted. -/
def after (s : State) (code : Nat) (a : List Byte) : State := s.afterKeyed cSkex (kb code a) 0

theorem witness_cfgErase : keyedAccepted node cSkex (kb 0x0200 [1]) 0x0200 onlyPen0 = true ∧ allZero (kb 0x0200 [1]).resv = true ∧
    karg (kb 0x0200 [1]) 0 1 = 1 ∧ (after node 0x0200 [1]).boot.slot = 0 ∧ allZero (sub (kb 0x0200 [1]).args 1 31) = true ∧
    node.trace.replay = false := ⟨kb_ok _ _, by decide +kernel⟩
/-- In replay: the recording supplies the fetch of `cSkex` and the outcome of its check, accepted (R454). -/
def replayed : State := { node with trace := { replay := true, supplied := [
  { kind := 0x01, stream := 0, sseq := 0, body := args [(2, 0), (2, 1), (2, 0), (2, 5)] },
  { kind := 0x15, stream := 0, sseq := 1, body := [0, 0, 0, 0, 1] }] } }
theorem witness_replay : keyedAccepted replayed cSkex (kb 0x0200 [1]) 0x0200 onlyPen0 = true ∧ allZero (kb 0x0200 [1]).resv = true ∧
    keyedAccepted replayed cSkex (kb 0x0203 [1]) 0x0203 onlyPen0 = true ∧ (after replayed 0x0200 [1]).trace.replay = true ∧
    (after replayed 0x0203 [1]).trace.replay = true ∧ karg (kb 0x0200 [1]) 0 1 ≠ (after replayed 0x0200 [1]).boot.slot ∧
    allZero (sub (kb 0x0203 [1]).args 1 31) = true := by decide +kernel
/-- CFG_WRITE of 4 KiB from object 2 at offset 4,096 of slot 1. -/
def cfgArgs (slot : Nat) : List Byte := args [(1, slot), (3, 0), (4, 4096), (4, 4096), (4, 0), (8, refObj 2 0)]
theorem witness_cfgWrite : keyedAccepted node cSkex (kb 0x0201 (cfgArgs 1)) 0x0201 onlyPen0 = true ∧ cfgWriteOk (kb 0x0201 (cfgArgs 1)) = true ∧
    karg (kb 0x0201 (cfgArgs 1)) 0 1 = 1 ∧ opRefOf (karg (kb 0x0201 (cfgArgs 1)) 16 8) = .obj 2 0 ∧
    cfgWriteOk (kb 0x0201 (cfgArgs 0)) = true ∧ karg (kb 0x0201 (cfgArgs 0)) 0 1 = (after node 0x0201 (cfgArgs 0)).boot.slot :=
  ⟨kb_ok _ _, by decide +kernel⟩
theorem witness_running_slot : keyedAccepted node cSkex (kb 0x0203 [0]) 0x0203 onlyPen0 = true ∧
    karg (kb 0x0203 [0]) 0 1 = (after node 0x0203 [0]).boot.slot := ⟨kb_ok _ _, by decide +kernel⟩
set_option maxRecDepth 20000 in
theorem witness_cfgActivate : (after imaged 0x0203 [1]).boot.seqRunning < (imgHead (after imaged 0x0203 [1]) 1).sequence := by decide +kernel

/-- PEN_CREATE of pen 2: 4 queues, 2 vectors, 1 task unit, no bales, a window of 10 blocks at 5. -/
def penArgs : List Byte := args [(2, 2), (2, 4), (2, 2), (2, 1), (2, 0), (1, 1), (1, 0), (2, 0), (2, 0), (8, 5), (8, 10)]
theorem witness_penCreate : keyedAccepted node cSkex (kb 0x0001 penArgs) 0x0001 onlyPen0 = true ∧ penArgsOk (kb 0x0001 penArgs).args = true ∧
    karg (kb 0x0001 penArgs) 0 2 = 2 ∧ karg (kb 0x0001 penArgs) 24 8 = 10 ∧ (penOf (after node 0x0001 penArgs) 2).alive = false ∧
    5 + 10 ≤ (after node 0x0001 penArgs).ftl.nsBlocks ∧ quotasFit (after node 0x0001 penArgs) 2 4 1 0 0 = true ∧
    freeVecs (after node 0x0001 penArgs) 2 = some 4 := ⟨kb_ok _ _, by decide +kernel⟩
def quotaArgs : List Byte := args [(2, 1), (2, 16), (2, 0), (2, 8), (2, 1), (1, 1), (1, 0), (2, 1), (2, 0)]
theorem witness_penQuota : keyedAccepted node cSkex (kb 0x0003 quotaArgs) 0x0003 onlyPen0 = true ∧ quotaArgsOk (kb 0x0003 quotaArgs).args = true ∧
    (penOf (after node 0x0003 quotaArgs) 1).alive = true ∧ quotaRaiseFits (after node 0x0003 quotaArgs) 1 (kb 0x0003 quotaArgs).args = true :=
  ⟨kb_ok _ _, by decide +kernel⟩
def damperArgs : List Byte := args [(2, 1), (1, 3), (1, 0), (2, 5), (2, 6), (2, 7), (2, 8)]
theorem witness_penDamper : keyedAccepted node cSkex (kb 0x0004 damperArgs) 0x0004 onlyPen0 = true ∧
    damperArgsOk (kb 0x0004 damperArgs).args = true ∧ karg (kb 0x0004 damperArgs) 0 2 = 1 := ⟨kb_ok _ _, by decide +kernel⟩
theorem test_damper_sets : bktRate (applyDamper pen1 damperArgs) 3 2 = 7 ∧ bktCap (applyDamper pen1 damperArgs) 3 1 = 6 * 4096 * 8 := by decide +kernel
theorem witness_penReset : keyedAccepted node cSkex (kb 0x0005 [1]) 0x0005 (fun q => q == 0 || q == 1) = true ∧
    keyedAccepted node cSkex (kb 0x0002 [1]) 0x0002 onlyPen0 = true ∧ penOnly (kb 0x0005 [1]).args = true ∧
    (penOf (after node 0x0005 [1]) 1).resetting = false :=
  ⟨kb_accepted node _ _ _ rfl rfl (by decide +kernel) (by decide +kernel) rfl rfl, kb_ok _ _, by decide +kernel⟩

/-- Pen 1 in a reset with one PEN_RESET waiting and a deferred damper. -/
def resettingNode : State :=
  { node with pens := [(0, pen0), (1, { pen1 with resetting := true, resetWait := [(cSkex, false)], deferred := [.damper damperArgs] })] }
theorem witness_penResetEnd : (penOf resettingNode 1).alive = true ∧ sentTasks resettingNode 1 = [] ∧
    ((penOf resettingNode 1).resetWait.any (·.2)) = false := by decide +kernel
theorem test_pen_reset_ends : nextIs (exec (.penResetEnd 1) resettingNode)
    (fun t => !(penOf t 1).resetting && bktRate (penOf t 1) 3 2 == 7 && t.hostMem.read 0x6000C 2 == [5, 0]) = true := by decide +kernel
theorem witness_warm_cold : keyedAccepted node cSkex (kb 0x0006 []) 0x0006 onlyPen0 = true ∧
    keyedAccepted node cSkex (kb 0x0007 []) 0x0007 onlyPen0 = true ∧ allZero (sub (kb 0x0006 []).args 2 30) = true :=
  ⟨kb_ok _ _, kb_ok _ _, by decide +kernel⟩
theorem test_warm_reset_begins : quiesced { node with port := { node.port with warm := some cSkex } } = true ∧
    nextIs (exec .warmResetBegin { node with port := { node.port with warm := some cSkex } })
      (fun t => t.boot.phase == 5 && t.boot.reason == 3 && t.pens.isEmpty && t.boot.k0.isNone) = true := by decide +kernel

/-! Dampers, vectors, controllers, queues. -/

/-- Pen 0 with a rate of 3 tile units and a cap of two ticks in class 1. -/
def metered : State := { node with pens := [(0, { pen0 with buckets := [], rates := [(3, 3)], bursts := [(1, 2)] })] }
theorem test_tick : bktVal (penOf metered 0) 1 0 = 0 ∧ nextIs (exec .damperTick metered)
    (fun t => bktVal (penOf t 0) 1 0 == 192 && nextIs (exec .damperTick t) (fun u => bktVal (penOf u 0) 1 0 == 384 &&
      nextIs (exec .damperTick u) (fun v => bktVal (penOf v 0) 1 0 == 384))) = true := by decide +kernel
def counting : State := { node with vecs := [(0, { assigned := true, pend := 1, time := 5, thr := 9 })] }
theorem test_vector_time : (tget counting.vecs 0).pend = 1 ∧ nextIs (exec (.vectorTimeExpiry 0) counting)
    (fun t => t.out == [.msix 0] && (tget t.vecs 0).pend == 0) = true := by decide +kernel
theorem test_masked_vector : nextIs (exec (.vectorTimeExpiry 0) { node with vecs := [(0, { assigned := true, pend := 1, time := 5, masked := true })] })
    (fun t => t.out.isEmpty && (tget t.vecs 0).pba && nextIs (exec (.msixUnmask 0) t) (fun u => u.out == [.msix 0])) = true := by decide +kernel
theorem test_pen_vmod : nextIs (exec (.penVmodWrite 0xFFFFF) node) (fun t => (tget t.vecs 0).thr == 255 && (tget t.vecs 0).time == 4095) = true := by
  decide +kernel
theorem witness_controllers : hostPortOn node = true ∧ (ctlOf node 0).en = true ∧ (ctlOf node 1).en = false ∧ node.boot.ready = true ∧ penOfCtl 256 = 0 ∧
    takesDoorbell node 0 = true ∧ tailOk (tget ctl0.sqs 1) 2 = true ∧ rqHeadOk (tget ctl0.sqs 1).rq 0 = true := by decide +kernel
theorem test_controller_enable : nextIs (exec (.controllerEnable 1 0x10000 4 0x20000 4) node)
    (fun t => (ctlOf t 1).rdy && (ctlOf t 1).admin.size == 4) = true := by decide +kernel
theorem test_flr : nextIs (exec (.controllerReset 0 true) node) (fun t => !(ctlOf t 0).en && (ctlOf t 0).sqs.isEmpty) = true := by decide +kernel
theorem test_tail : tailOk (tget ctl0.sqs 1) 15 = true ∧ nextIs (exec (.sqTailDoorbell 0 1 15 [(0x30000, 7)]) node)
    (fun t => (tget (ctlOf t 0).sqs 1).covered == 15 && t.hostMem.byte 0x30000 == 7) = true := by decide +kernel
theorem test_tail_beyond : tailOk (tget ctl0.sqs 1) 16 = false ∧ nextIs (exec (.sqTailDoorbell 0 1 16 []) node) (fun t => t.nfree == 1) = true ∧
    nextIs (exec (.cqHeadDoorbell 0 1 16) node) (fun t => t.nfree == 1) = true := by decide +kernel
theorem test_cq_head : nextIs (exec (.cqHeadDoorbell 0 1 15) node) (fun t => (tget (ctlOf t 0).cqs 1).head == 15) = true := by decide +kernel
theorem test_rq_head : nextIs (exec (.recordQueueHeadDoorbell 0 1 0) node) (· == node) = true := by decide +kernel

/-- The node once the command at the front of a queue of controller 0 is fetched. -/
def fetched (c : Cmd) : State := doFetch node c 0
theorem witness_queues : cAdmin.sq = 0 ∧ sqCreateStatus (fetched cAdmin) cAdmin 3 2 1 true = stSuccess ∧
    sqCreateStatus (fetched cAdmin) cAdmin 8 65536 1 true = stSuccess ∧ sqCreateStatus (fetched cAdmin) cAdmin 9 2 1 true ≠ stSuccess ∧
    thas (ctlOf (fetched cAdmin) 0).sqs 2 = true ∧ thas (ctlOf (fetched cAdmin) 0).cqs 2 = false ∧ (penOf node 0).vectors = 2 := by decide +kernel
theorem test_create_sq : nextIs (exec (.createIoSq cAdmin 3 0x70000 2 1 true) node)
    (fun t => (tget (ctlOf t 0).sqs 3).size == 2 && t.hostMem.read 0x2000C 4 == [5, 0, 1, 0]) = true := by decide +kernel
theorem test_create_sq_too_small : nextIs (exec (.createIoSq cAdmin 3 0x70000 1 1 true) node) (fun t => !thas (ctlOf t 0).sqs 3) = true := by
  decide +kernel
theorem test_create_skex : nextIs (exec (.createSkexQueue cAdmin 3 0x70000 4 1 0x71000 8 true) node)
    (fun t => (tget (ctlOf t 0).sqs 3).skex && (tget (ctlOf t 0).sqs 3).rq.size == 8) = true := by decide +kernel
theorem test_create_cq : nextIs (exec (.createIoCq cAdmin 2 0x70000 4 1 true true) node) (fun t => (tget (ctlOf t 0).cqs 2).iv == 1) = true := by
  decide +kernel
theorem test_delete_sq : nextIs (exec (.deleteIoSq cAdmin 2) node) (fun t => !thas (ctlOf t 0).sqs 2) = true := by decide +kernel
/-- The node with a completion queue that no submission queue uses. -/
def spare : State := { node with port := { node.port with ctls := [(0, { ctl0 with cqs := ctl0.cqs ++ [(2, { base := 0x70000, size := 4 })] })] } }
theorem test_delete_cq : (∀ q ∈ (ctlOf (doFetch spare cAdmin 0) 0).sqs, q.2.cqid ≠ 2) ∧
    nextIs (exec (.deleteIoCq cAdmin 2) spare) (fun t => !thas (ctlOf t 0).cqs 2) = true := by decide +kernel

/-! Admin commands, completion entries, I/O and Skex commands. -/

theorem witness_admin : logPage (fetched cAdmin) 0 0x81 ≠ none ∧ flashHeld (fetched cAdmin) = false ∧ (fetched cAdmin).port.sanitizing = none ∧
    opcodeKnown node cAdmin 0x7F = false ∧ opcodeKnown node cAdmin 0x06 = true := by decide +kernel
theorem test_identify : nextIs (exec (.identify cAdmin 2 [0x90000]) node)
    (fun t => t.hostMem.read 0x90000 5 == [1, 0, 0, 0, 0] && (ctlOf t 0).adminCq.tail == 1) = true := by decide +kernel
theorem test_log_page_of_pen_1 : logPage node 1 0xC0 = none := by decide +kernel
theorem test_get_log_page : nextIs (exec (.getLogPage cAdmin 1 0 16 [0x90000]) node) (fun t => t.hostMem.read 0x20008 8 == [1, 0, 0, 0, 5, 0, 1, 0]) = true := by
  decide +kernel
theorem test_abort : nextIs (exec (.abort cAdmin) node) (fun t => t.hostMem.byte 0x20000 == 1) = true := by decide +kernel
theorem test_features : nextIs (exec (.setFeatures cAdmin 6 1) node) (fun t => t.port.wce) = true ∧
    nextIs (exec (.getFeatures cAdmin 6) { node with port := { node.port with wce := true } }) (fun t => t.hostMem.byte 0x20000 == 1) = true := by decide +kernel
theorem test_aer : nextIs (exec (.asynchronousEventRequest cAdmin) node) (fun t => (ctlOf t 0).aers == [cAdmin] && (ctlOf t 0).adminCq.tail == 0) = true := by
  decide +kernel
/-- The node with channel 0 mapping unit 0 to its first slot. -/
def mapped : State := { node with ftl := { node.ftl with chans := [(0, { chan0 with map := [(0, 0)] })] } }
theorem test_sanitize : nextIs (exec (.sanitize cAdmin 2) mapped) (fun t => t.port.sanitizing.isSome && (chanOf t 0).media.sanitizing &&
    nextIs (exec .sanitizeEnd t) (fun u => (chanOf u 0).map.isEmpty && u.port.sanitizing.isNone)) = true := by decide +kernel
theorem test_invalid_opcode : nextIs (exec (.invalidCommandOpcode cAdmin 0x7F) node)
    (fun t => t.hostMem.read 0x2000E 2 == le 2 (1 + 2 * stInvalidOpcode)) = true := by decide +kernel
def cqe0 : Cqe := { dw0 := 0x11223344, sqHead := 1, sq := 2, cid := 3, status := stSuccess }
theorem witness_cqe : cqOf (ctlOf node 0) 1 = some (tget ctl0.cqs 1) ∧ (tget ctl0.cqs 1).waiting = [] ∧ node.trace.recording = false ∧
    cqOf (ctlOf node 0) 7 = none := by decide +kernel
theorem test_cqe_bytes : (postCqe node 0 1 cqe0).hostMem.read 0x60000 16 = [0x44, 0x33, 0x22, 0x11, 0, 0, 0, 0, 1, 0, 2, 0, 3, 0, 1, 0] := by
  decide +kernel
theorem test_ring_clash : ringClash ctl0 0x60000 16 = false ∧
    ringClash { ctl0 with adminCq := { ctl0.adminCq with base := 0x60000 } } 0x60000 16 = true := by decide +kernel
/-- The node with completion queue 1 full. -/
def fullCq : State := { node with port := { node.port with ctls := [(0, { ctl0 with cqs := [(1, { base := 0x60000, size := 2, tail := 1 })] })] } }
theorem test_full_queue : (1 + 1) % 2 = 0 ∧ (tget (ctlOf (postCqe fullCq 0 1 cqe0) 0).cqs 1).waiting = [cqe0] := by decide +kernel

theorem witness_io : ioPositive node 0 = true ∧ rangeWaits node 0 0 4 = false ∧ windowUnits (fetched cIo) 0 996 4 = some [996, 997, 998, 999] ∧
    windowUnits (fetched cIo) 0 997 4 = none ∧ unitWriteStatus (fetched cIo) 999 = 0 := by decide +kernel
theorem test_prp : prpOk [0x90010, 0xA0000] 4097 = true ∧ prpOk [0x90010, 0xA0010] 4097 = false ∧ prpOk [0x90010] 4096 = false := by decide +kernel
theorem test_flush : nextIs (exec (.flush cIo) node) (fun t => t.port.flushes.isEmpty && (tget (ctlOf t 0).cqs 1).tail == 1) = true := by decide +kernel
theorem test_write_outside : nextIs (exec (.write cIo 997 4 false [0x90000]) node)
    (fun t => t.hostMem.read 0x6000E 2 == le 2 (1 + 2 * stLbaOutOfRange)) = true := by decide +kernel
theorem test_write_begins : nextIs (exec (.write cIo 0 1 true [0x90000]) node) (fun t => (chanOf t 0).page.length == 1) = true := by decide +kernel
theorem test_read_unmapped : nextIs (exec (.read cIo 0 1 [0x90000]) { node with hostMem := Mem.write {} 0x90000 [7] })
    (fun t => t.hostMem.byte 0x90000 == 0 && (tget (ctlOf t 0).cqs 1).tail == 1) = true := by decide +kernel
theorem test_deallocate_command : nextIs (exec (.datasetManagement cIo [(0, 1)] true) mapped) (fun t => !thas (chanOf t 0).map 0) = true ∧
    nextIs (exec (.datasetManagement cIo [(0, 1)] false) mapped) (fun t => thas (chanOf t 0).map 0) = true := by decide +kernel
/-- The node with one buffered unit and one write waiting for room. -/
def buffered : State := { node with port := { node.port with
  wbSize := 1, wb := [{ lba := 0, data := [], stack := 0, draining := false, owner := .none, acc := 0 }], wbSeq := 1,
  wbWait := [{ owner := .none, units := [{ lba := 1, data := [] }] }] } }
theorem witness_drain : (oldestBuffered buffered 0).isSome = true ∧ (chanOf buffered 0).usable = true ∧ unitWaits buffered 0 = false := by decide +kernel
theorem test_drain : nextIs (exec (.writeBufferDrain 0) buffered) (fun t => (t.port.wb.map (·.draining)) == [true] && (chanOf t 0).page.length == 1) = true := by
  decide +kernel
theorem test_admit : nextIs (exec .writeBufferAdmit buffered) (fun t => t.port.wb.length == 2 && t.port.wbWait.isEmpty) = true := by decide +kernel

/-- A Skex command with a wrong NSID. -/
def cBad : Cmd := { cSkex with bad := true }
theorem witness_bad_command : canFetch node cBad = some 0 ∧ onSkex node cBad = true ∧ cBad.bad = true ∧ cSkex.bad = false := by decide +kernel
theorem test_submit : nextIs (exec (.submit cSkex (.host 0x90000)) node) (fun t => oldestSubmit t 0 1 == some (cSkex, .host 0x90000, 0)) = true := by
  decide +kernel
theorem test_skex_fence : nextIs (exec (.skexFence cSkex false false) node) (fun t => t.port.fences.isEmpty && (tget (ctlOf t 0).cqs 1).tail == 1) = true := by
  decide +kernel
theorem test_ordered_write : (tget ctl0.sqs 1).owCur = none ∧
    nextIs (exec (.orderedWrite cSkex 0 1 true [0x90000]) node) (fun t => (tget (ctlOf t 0).sqs 1).owCur == some cSkex) = true := by decide +kernel
theorem test_table_switch : objOf (fetched cSkex) 0 1 = some tab1 ∧ nextIs (exec (.tableSwitch cSkex 1 0) node)
    (fun t => ((tableOf t 0 (.obj 1 0)).map (·.2.current)) == some 0) = true := by decide +kernel
theorem test_region : nextIs (exec (.regionCreate cSkex 3 990 10) node) (fun t => ((objOf t 0 3).map (·.bytes)) == some 40960) = true := by decide +kernel
def regioned : State := { node with pens := [(0, { pen0 with objects := [(3, { kind := .region 0 4, bytes := 16384 })] })] }
theorem test_region_destroy : nextIs (exec (.regionDestroy cSkex 3) regioned) (fun t => (objOf t 0 3).isNone) = true := by decide +kernel
theorem witness_map : stackHomes buf2 = [(1, 0)] ∧ stackUsable (fetched cSkex) 1 = true ∧ objOf (fetched cSkex) 0 9 = none := by decide +kernel
theorem test_map : nextIs (exec (.map cSkex 2 1 (.host 0x90000)) node)
    (fun t => t.hostMem.read 0x90000 8 == le 8 77309411328 && t.hostMem.byte 0x60000 == 1) = true := by decide +kernel
theorem test_unmap : nextIs (exec (.unmap cSkex 2) node) (fun t => ((objOf t 0 2).map (·.mapped)) == some false) = true ∧
    nextIs (exec (.unmap cSkex 9) node) (fun t => t.hostMem.read 0x6000E 2 == le 2 (1 + 2 * stNotFound)) = true := by decide +kernel

/-! The Drover. -/

/-- A graph of one NOP at 0x90000: header, then the task record. -/
def graphMem : Mem :=
  Mem.write {} 0x90000 (args [(2, 1), (2, 1), (4, 0), (8, 77), (8, 0x90040), (8, 0x90080), (1, 2), (1, 1), (30, 0)] ++ List.replicate 8 0 ++ args [(56, 0)])
def submitted : State := { node with
  hostMem := graphMem, port := { node.port with ctls := [(0, { ctl0 with sqs := [(1, { tget ctl0.sqs 1 with submits := [(cSkex, .host 0x90000, 0)] })] })] } }
theorem witness_graph : oldestSubmit submitted 0 1 = some (cSkex, .host 0x90000, 0) ∧ mayAccept submitted 0 = true ∧
    headerBad (graphMem.read 0x90000 64) = false ∧ everFits submitted 0 (headerOf (graphMem.read 0x90000 64)) = true ∧
    fitsNow submitted 0 (headerOf (graphMem.read 0x90000 64)) = true ∧
    edgesBad ((chunks 64 (graphMem.read 0x90040 64)).map taskOfBytes) [] [] = false ∧
    everFits { submitted with pens := [(0, { pen0 with taskUnits := 0 })] } 0 (headerOf (graphMem.read 0x90000 64)) = false := by decide +kernel
theorem test_accept : nextIs (exec (.graphAccept 0 1) submitted) (fun t => (t.drover.graphs.map (·.tag)) == [77] &&
    (t.drover.graphs.flatMap (·.tasks.map (·.st))) == [.ready] && t.drover.nextAcc == 1) = true := by decide +kernel
theorem test_accept_quota : nextIs (exec (.graphAccept 0 1) { submitted with pens := [(0, { pen0 with taskUnits := 0 })] })
    (fun t => t.hostMem.read 0x60000 2 == [0xFF, 0xFF] && t.hostMem.read 0x6000E 2 == le 2 (1 + 2 * stQuotaExceeded)) = true := by decide +kernel

/-- The same graph with VERSION 2, and one whose task waits for an edge that the graph does not have. -/
def badHeader : State := { submitted with hostMem := graphMem.write 0x90000 [2] }
theorem witness_bad_header : oldestSubmit badHeader 0 1 = some (cSkex, .host 0x90000, 0) ∧ mayAccept badHeader 0 = true ∧
    readOp badHeader 0 none (.host 0x90000) 0 64 = .ok (badHeader.hostMem.read 0x90000 64) ∧ headerBad (badHeader.hostMem.read 0x90000 64) = true ∧
    everFits badHeader 0 (headerOf (badHeader.hostMem.read 0x90000 64)) = true := by decide +kernel
def badEdges : State := { submitted with hostMem := graphMem.write 0x90044 [1] }
theorem test_bad_edges : edgesBad ((chunks 64 (badEdges.hostMem.read 0x90040 64)).map taskOfBytes) [] [] = true ∧
    nextIs (exec (.graphAccept 0 1) badEdges) (fun t => (t.drover.graphs.flatMap (·.tasks.map (·.reserved))) == [true]) = true := by decide +kernel

/-- Task 0 of graph 1 of pen 0. -/
def t1 : TaskId := ⟨1, 0⟩
def withTask (s : State) (k : Task) : State :=
  { s with drover := { s.drover with graphs := [{ acc := 1, pen := 0, cmd := cSkex, tasks := [k] }] } }
def job (typ sub : Nat) (ops : List OpRef) (param : W64) : Task := { typ := typ, sub := sub, ops := ops, param := param, st := .issued }
/-- Whether the task has finished with a status and a RESULT. -/
def ended (st result : Nat) (s : State) : Bool :=
  match taskOf s t1 with
  | some k => k.st == .finished && k.status == st && k.result == result
  | none => false

/-- The state after a command. -/
def next (i : Instr) (s : State) : State := match exec i s with
  | .next t => t
  | _ => s

theorem test_issue : mayIssue (withTask node { typ := 0, st := .ready }) = true ∧
    nextIs (exec (.taskIssue .drover 0) (withTask node { typ := 0, st := .ready })) (fun t => (taskOf t t1).any (·.st == .issued)) = true ∧
    readyTasks node .tile = [] := by decide +kernel
theorem test_complete : nextIs (exec (.taskComplete t1 ⟨9, [], false⟩) (withTask node { typ := 0, st := .finished, status := stMediaError }))
    (fun t => t.drover.graphs.isEmpty && t.hostMem.read 0x6000E 2 == le 2 (1 + 2 * stMediaError)) = true := by decide +kernel
/-- A task of tile 3 that has finished; the word at 16 of the tile's SRAM turns out spoilt. -/
def spoilt : State := withTask node { typ := 8, st := .finished, unitKind := 1, unitNo := 3 }
theorem test_sram_error : writesLeft spoilt t1 = false ∧ writesOpen spoilt t1 = false ∧ isFailure stSuccess = false ∧
    nextIs (exec (.taskComplete t1 ⟨9, [(16, true)], false⟩) spoilt) (fun t => t.hostMem.read 0x6000E 2 == le 2 (1 + 2 * stMediaError) &&
      (tileOf t 3).dataErrs == 1 && t.drover.graphs.isEmpty) = true := by decide +kernel
theorem test_graph_status : graphStatus [0, stPredFailed, stMediaError, stUnitLost] = (stMediaError, 2) ∧ graphStatus [0, 0] = (0, 0xFFFF) ∧
    graphStatus [stMediaError, stResetAborted] = (stResetAborted, 1) := by decide +kernel
theorem test_nop : nextIs (exec (.nop t1) (withTask node (job 0 0 [] 0))) (ended stSuccess 0) = true := by decide +kernel
theorem test_fence : nextIs (exec (.fence t1) (withTask node (job 1 0 [] 0))) (ended stSuccess 0) = true := by decide +kernel
/-- A fence behind a graph of the same queue whose task runs. -/
def fenced : State := { node with drover := { node.drover with graphs :=
  [{ acc := 0, pen := 0, cmd := cSkex, tasks := [job 0 0 [] 0] }, { acc := 1, pen := 0, cmd := cSkex, tasks := [job 1 0 [] 0] }] } }
theorem test_fence_waits : nextIs (exec (.fence t1) fenced) (· == fenced) = true := by decide +kernel
theorem test_alloc : quotaHolds (withTask node (job 2 0 [] 65537)) 0 2 = true ∧ nextIs (exec (.alloc t1) (withTask node (job 2 0 [] 65537)))
    (fun t => ended stSuccess 0 t && (penOf t 0).bales == 2 && ((graphOf t 1).map fun g => (tget? g.scratch 0).map (·.bytes)) == some (some 131072)) = true := by
  decide +kernel
theorem test_alloc_quota : nextIs (exec (.alloc t1) (withTask node (job 2 0 [] 0xFFFFFFFFFF))) (ended stQuotaExceeded 0) = true := by decide +kernel
theorem test_free : nextIs (exec (.free t1) (withTask node (job 3 0 [] 0))) (ended stSuccess 0) = true := by decide +kernel

/-! Copies, COPY tasks, the DMA engine. -/

/-- A clean and a written copy of bale 3 of the flash in quad 0's pool. -/
def copy0 : BaleCopy := { num := 7, bale := .flash 48, quad := 0, stack := 0, slot := 1, st := .filling, age := 0, pen := 0, waiters := [t1] }
def copying (c : BaleCopy) : State := { withTask node (job 4 0 [] 0) with drover := { (withTask node (job 4 0 [] 0)).drover with copies := [c] } }
theorem test_move_done : baleWaits (copying copy0) copy0.bale = false ∧
    nextIs (exec (.baleMoveDone 7 true) (copying copy0)) (fun t => (t.drover.copies.map (·.st)) == [.clean]) = true ∧
    nextIs (exec (.baleMoveDone 7 false) (copying copy0)) (fun t => t.drover.copies.isEmpty && t.drover.graphs.isEmpty) = true := by decide +kernel
theorem witness_move : homeCells (copying copy0) copy0.bale = some [] ∧ (copying copy0).drover.copies.find? (fun x => x.num == 7 && x.st == .filling) = some copy0 ∧
    homeCells { copying copy0 with ftl := { node.ftl with chans := [(0, { chan0 with usable := false })] } } copy0.bale = none := by decide +kernel
/-- A copy of bale 2 of host memory with three bytes of t1's and, at 20, two of another task's, and the copy's slot. -/
def hostCopy : BaleCopy := { copy0 with bale := .host 0 1 2, st := .writing, waiters := [], dirty := [(t1, 5, 3), (⟨1, 1⟩, 20, 2)], wb := [t1] }
def copied : State := { copying hostCopy with mem := Mem.write {} (slotAddr 0 1 + 5) [1, 2, 3] }
theorem test_write_back : poisoned copied (slotAddr 0 1 + 5) 3 = false ∧ nextIs (exec (.writeBackDone 7) copied) (fun t =>
    t.hostMem.read (2 * 65536 + 5) 3 == [1, 2, 3] && (t.drover.copies.map fun c => (c.st, c.dirty)) == [(.dirty, [(⟨1, 1⟩, 20, 2)])]) = true := by decide +kernel

/-- COPY and fill of 4 bytes from host memory into object 2. -/
def copyNode : State := withTask { node with hostMem := Mem.write {} 0x90000 [1, 2, 3, 4] } (job 4 0 [.host 0x90000, .obj 2 8] 4)
theorem witness_copy : copyBad (job 4 0 [.host 0x90000, .obj 2 8] 4) = false ∧ hostCut copyNode (.host 0x90000) = false ∧
    (borrowedOf copyNode 0 (.obj 2 8)).isNone = true ∧ (running copyNode t1 0x04 (some 0)).isSome = true ∧
    overlap (.host 0x90000) 4 (.obj 2 8) 4 = false ∧ hostCut copyNode (.obj 2 8) = false ∧ (match graphOf copyNode 1 with
      | some g => (regionWrites copyNode g (.obj 2 8) [1, 2, 3, 4]).isEmpty && (operandUnsettled copyNode g (.host 0x90000) 4).isEmpty &&
          (poisonRuns copyNode g (.host 0x90000) 4).isEmpty
      | none => false) = true := by decide +kernel
/-- A graph as task 0 sees it from quad 0 (R65). -/
def seen : Graph := { acc := 1, pen := 0, cmd := cSkex, view := some (t1, 0) }
theorem witness_write_at_home : node.mem.wf ∧ segs copyNode 0 (some seen) (.obj 2 8) 0 4 = [(.stk (77309411328 + 8), 4)] ∧
    busyLines copyNode (77309411328 + 8) 4 = [] ∧ viewCopy copyNode 0 (some seen) (.obj 2 8) 0 = none := by decide +kernel
/-- The copy of host bale 2, clean and pinned by t1: what t1 writes at that address goes into its slot. -/
def clean : State := copying { hostCopy with st := .clean, dirty := [], wb := [], pins := [t1] }
theorem witness_write_in_copy : segs clean 0 (some seen) (.host (2 * 65536 + 8)) 0 4 = [(.stk (slotAddr 0 1 + 8), 4)] ∧
    ((viewCopy clean 0 (some seen) (.host (2 * 65536 + 8)) 0).map (·.st)) = some .clean ∧ firstOff (.host (2 * 65536 + 8)) % bale = 8 := by decide +kernel
theorem test_copy : nextIs (exec (.copy t1) copyNode) (fun t => ended stSuccess 4 t && t.mem.read (77309411328 + 8) 5 == [1, 2, 3, 4, 0]) = true := by
  decide +kernel
theorem test_copy_overlap : overlap (.obj 2 8) 4 (.obj 2 11) 4 = true ∧ overlap (.obj 2 8) 4 (.obj 2 12) 4 = false := by decide +kernel
theorem test_fill : nextIs (exec (.fill t1) (withTask node (job 4 1 [.none, .obj 2 0] 0xAB0000000003)))
    (fun t => ended stSuccess 3 t && t.mem.read 77309411328 4 == [0xAB, 0xAB, 0xAB, 0]) = true := by decide +kernel

/-- Ring channel 40 with 16 descriptors at 0x80000 and 16 records at 0x88000 of host memory; slot 0 copies 4 bytes. -/
def ringMem : Mem := ((Mem.write {} 0x80000 (args [(8, 0x90000), (8, 0xA0000), (4, 4), (2, 1), (2, 9), (8, 0)])).write 0x90000 [1, 2, 3, 4])
def ring (d : Dma) : State := { node with hostMem := ringMem, dma := [(0, { inService := true }), (40, d)] }
def ring0 : Dma := { inService := true, en := true, mode := true, idle := false, phase := true, rbase := 0x80008, cqbase := 0x88008 }
def desc0 : Descr := { idx := 0, src := 0x90000, dst := 0xA0000, len := 4, flags := 1, tag := 9 }
theorem witness_ring : ringChan (ring ring0) 40 = true ∧ ringChan node 31 = false ∧ ringChan node 63 = true ∧
    ownBit (descrAt (ring ring0) ring0 0) = true ∧ ownBit (descrAt (ring ring0) ring0 1) = false ∧ descOp desc0 = 0 ∧ descBad desc0 = false ∧
    descOverlap desc0 = false ∧ descRangeErr (ring ring0) desc0 = none ∧ descUnsettled (ring ring0) desc0 = [] ∧
    writesOpen (runDescr (ring ring0) (descKey 40 0) desc0).1 (descKey 40 0) = false ∧ (ring ring0).hostMem.wf ∧ (ring ring0).trace.out_ = false ∧ (runningDescs [desc0]).find? (fun y => y.idx == 0) = some desc0 := by
  decide +kernel
theorem test_dma_enable : nextIs (exec (.dmaEnable 40) (ring { ring0 with en := false, head := 5, phase := false }))
    (fun t => (dmaOf t 40).en && (dmaOf t 40).head == 0 && (dmaOf t 40).phase) = true := by decide +kernel
theorem test_fetch : nextIs (exec (.descriptorFetchDone 40) (ring ring0)) (fun t => (dmaOf t 40).descs == [desc0] && (dmaOf t 40).head == 1) = true := by
  decide +kernel
theorem test_fetch_idles : nextIs (exec (.descriptorFetchDone 40) (ring { ring0 with head := 1 })) (fun t => (dmaOf t 40).idle) = true := by
  decide +kernel
theorem test_descriptor : nextIs (exec (.descriptorComplete 40 0) (ring { ring0 with mode := false, descs := [desc0] }))
    (fun t => t.hostMem.read 0xA0000 4 == [1, 2, 3, 4] && t.hostMem.byte 0x80014 == 0 && t.hostMem.read 0x88000 12 == [0, 0, 9, 0, 0, 0, 1, 0, 4, 0, 0, 0]) = true := by
  decide +kernel
theorem test_bus_error : nextIs (exec (.busError 40 0 none ⟨5, true, 1, 0⟩) (ring { ring0 with descs := [desc0] }))
    (fun t => (dmaOf t 40).halted && (dmaOf t 40).errValid && (dmaOf t 40).errAddr == 5 &&
      nextIs (exec (.errinfoClear 40 none) t) (fun u => !(dmaOf u 40).errValid)) = true := by decide +kernel
theorem test_same_cycle : nextIs (exec (.errinfoClear 40 (some (0, none, ⟨6, false, 2, 0⟩))) (ring { ring0 with errValid := true }))
    (fun t => (dmaOf t 40).errValid && (dmaOf t 40).errAddr == 6) = true := by decide +kernel
theorem test_same_cycle_halted : ringChan (ring ring0) 40 = true ∧ nextIs (exec (.errinfoClear 40 (some (0, none, ⟨6, false, 2, 0⟩)))
    (ring { ring0 with halted := true, errValid := true, errMulti := true })) (fun t => (dmaOf t 40).errValid && (dmaOf t 40).errAddr == 6) = true := by
  decide +kernel
theorem test_dma_stop : nextIs (exec (.dmaStop 40) (ring { ring0 with descs := [desc0] }))
    (fun t => !(dmaOf t 40).en && (dmaOf t 40).descs.isEmpty && t.hostMem.byte 0x80014 == 1) = true := by decide +kernel
theorem test_dma_restart : nextIs (exec (.dmaRestart 40 false) (ring ring0)) (· == ring ring0) = true ∧
    nextIs (exec (.dmaRestart 40 true) (ring { ring0 with halted := true, descs := [desc0] })) (fun t => !(dmaOf t 40).halted) = true := by decide +kernel
theorem test_dma_test : nextIs (exec (.dmaTest 40) (ring { inService := true })) (fun t => (dmaOf t 40).testing &&
    nextIs (exec (.dmaTestDone 40 true) t) (fun u => !(dmaOf u 40).inService)) = true := by decide +kernel
theorem test_dma_doorbell : nextIs (exec (.dmaDoorbell 40 [(0x80034, 1)]) (ring { ring0 with idle := true }))
    (fun t => !(dmaOf t 40).idle && t.hostMem.byte 0x80034 == 1) = true := by decide +kernel
theorem test_dma_cqhead : nextIs (exec (.dmaCqheadWrite 40 0x1FFFF) (ring ring0)) (fun t => (dmaOf t 40).cqhead == 0xFFFF) = true := by decide +kernel
theorem test_compare : (runDescr (ring ring0) (descKey 40 0) { desc0 with flags := 17 }).2 = (stCompareFailure, 0) ∧
    (runDescr (ring ring0) (descKey 40 0) { desc0 with flags := 17, dst := 0x90000 }).2 = (stSuccess, 4) ∧ descOp { desc0 with flags := 17 } = 2 := by decide +kernel
theorem test_descriptor_fill : descOp { desc0 with flags := 9, src := 0x0807060504030201, len := 9 } = 1 ∧
    (runDescr (ring ring0) (descKey 40 0) { desc0 with flags := 9, src := 0x0807060504030201, len := 9 }).1.hostMem.read 0xA0000 10 = [1, 2, 3, 4, 5, 6, 7, 8, 1, 0] := by
  decide +kernel
theorem test_poison_latch : node.stackSel < 20 ∧ stackUsable node node.stackSel = true ∧ nextIs (exec (.poisonLatchClear (some 3)) node)
    (fun t => (stackOf t 0).poisonValid && (stackOf t 0).poisonOffset == 3 && t.poison == [192]) = true := by decide +kernel
theorem test_reclaim_latch : isLine 128 = true ∧ nextIs (exec (.reclaimLatchClear none) { node with coh := { node.coh with reclaimValid := true } })
    (fun t => !t.coh.reclaimValid) = true ∧ nextIs (exec (.reclaimLatchClear (some 128)) node) (fun t => t.coh.reclaimValid) = true := by decide +kernel

/-! Arrays. -/

/-- Tile 3 with four arrays in service. -/
def tiled : State := { node with tiles := [(3, { arrs := List.replicate 4 { inService := true } })] }
theorem test_array_test : (arrOf tiled 3 1).holder = none ∧ nextIs (exec (.arrayTest 3 1) tiled) (fun t => (arrOf t 3 1).testing &&
    nextIs (exec (.arrayTestDone 3 1 0x1FF false) t) (fun u => !(arrOf u 3 1).inService && (arrOf u 3 1).bad == 0x1FF) &&
    nextIs (exec (.arrayTestDone 3 1 0xFF false) t) (fun u => (arrOf u 3 1).inService && !(arrOf u 3 1).testing)) = true := by decide +kernel
theorem test_array_test_request : nextIs (exec (.arrayTestRequest 3 0xA) tiled) (fun t =>
    ((tileOf t 3).arrs.map (·.testWanted)) == [false, true, false, true]) = true := by decide +kernel

/-- A 1 × 2 int8 MATMUL with K = 2 in host memory: A = (1, 2), W = (3, 4; 5, 6). -/
def matMem : Mem := ((Mem.write {} 0x90000 (args [(4, 1), (4, 2), (4, 2), (4, 2), (4, 2), (4, 8), (1, 0), (1, 0), (1, 0x0C), (1, 0), (36, 0)])).write 0x91000 [1, 2]).write
  0x92000 [3, 4, 5, 6]
def matJob : Task := { job 8 0 [.host 0x91000, .host 0x92000, .host 0x93000, .none, .none, .none] 0x90000 with unitNo := 3 }
def matNode : State := withTask { tiled with hostMem := matMem } matJob
theorem witness_matmul : (running matNode t1 0x08 (some 0)).isSome = true ∧
    (match graphOf matNode 1 with
      | some g => (match (matParams matNode g matJob).1 with
        | some p => matOk p {} && !p.accum && (modeOf p.afmt p.wfmt 0 == some .i8) && geometry .i8 p.n p.k == 3 && partWidth (arrOf matNode 3 0) 3 3 == 16
        | none => false)
      | none => false) = true := by decide +kernel
theorem test_matmul : nextIs (exec (.matmul t1) matNode) (fun t => nextIs (exec (.arrayUnit t1 0 3 false false false) t)
    (fun u => ended stSuccess 0 u && u.hostMem.read 0x93000 8 == [13, 0, 0, 0, 16, 0, 0, 0])) = true := by decide +kernel
/-- The MATMUL once begun: tile 3's array 0 is the next to work on it, in quarters. -/
def matBegun : State := next (.matmul t1) matNode
theorem witness_array_unit : ((arrayJob matBegun t1 0).map fun j => (j.tile, j.arr, j.mode, j.geom, j.run.isSome, j.mode.isInt)) = some (3, 0, .i8, 3, true, true) ∧
    (arrOf matBegun 3 0).inService = true ∧ (arrOf matBegun 3 0).testing = false ∧ 3 < geomParts 3 ∧ partWidth (arrOf matBegun 3 0) 3 3 ≠ 0 ∧
    arrayTurn matBegun t1 3 0 = true := by decide +kernel
theorem test_double_error : nextIs (exec (.arrayUnit t1 0 3 false false true) matBegun) (fun t => (arrOf t 3 0).doubleErrs == 1 && (tileOf t 3).accUncorr == 1) = true := by
  decide +kernel
theorem test_residue : nextIs (exec (.matmul t1) matNode) (fun t => nextIs (exec (.arrayUnit t1 0 3 true false false) t)
    (fun u => (arrOf u 3 0).testing && (tileOf u 3).residue == 1 && u.hostMem.byte 0x93000 == 0)) = true := by decide +kernel

/-! Models, vectors, near-bank units, tables. -/

/-- A model of one SCALE step by 2 over rows of one fp32 element, and its parameter block. -/
def imgBs : List Byte := args [(2, 1), (2, 1), (2, 1), (2, 4), (4, 0), (1, 0x0B), (1, 1), (2, 0), (8, 64), (8, 0), (8, 0), (8, 0), (4, 0xFFFFFFFF), (4, 0xFFFFFFFF), (8, 128)] ++
  args [(1, 2), (1, 3), (1, 0), (1, 0xFF), (1, 0), (1, 0), (1, 0), (1, 0x0B), (4, 1), (4, 1), (2, 1), (2, 0), (4, 0x40000000), (40, 0)]
def modelMem : Mem := ((Mem.write {} 0x90000 imgBs).write 0x91000 (args [(4, 1), (2, 2), (2, 0), (2, 0), (1, 1), (1, 0), (20, 0)])).write
  0x92000 (args [(4, 2), (4, 0x3F800000), (4, 0x40400000)])
def modelObj : Obj := { kind := .model 128 0, bytes := 65536, homes := [.stack 2 0] }
def modelNode (k : Task) : State := withTask { node with
  hostMem := modelMem, mem := Mem.write {} (2 * 77309411328) imgBs, pens := [(0, { pen0 with objects := [(5, modelObj)] })] } k
theorem test_model_create : nextIs (exec (.modelCreate t1) (modelNode (job 9 1 [.obj 6 0, .host 0x90000] 0)))
    (fun t => ended stSuccess 0 t && (modelOf t 0 (.obj 6 0)).any fun x => x.2.1 == 128) = true := by decide +kernel
theorem test_model_destroy : nextIs (exec (.modelDestroy t1) (modelNode (job 9 2 [.obj 5 0] 0))) (fun t => ended stSuccess 0 t && (objOf t 0 5).isNone) = true := by
  decide +kernel
def runJob : Task := job 9 0 [.obj 5 0, .host 0x92000, .host 0x94000] 0x91000
set_option maxRecDepth 20000 in
theorem witness_model_run : (modelOf (modelNode runJob) 0 (.obj 5 0)) = some (5, 128, 0) ∧
    runOk imgBs (runParamOf (modelMem.read 0x91000 32)) (modelMem.read 0x91000 32) = true ∧
    (inputBuf imgBs (modelMem.read 0x92000 12) (runParamOf (modelMem.read 0x91000 32))).isSome = true := by decide +kernel
theorem test_model_run : nextIs (exec (.modelRun t1) (modelNode runJob))
    (fun t => t.hostMem.read 0x94000 8 == [0, 0, 0, 0x40, 0, 0, 0xC0, 0x40] && (taskOf t t1).any fun k => k.st == .finished && k.status == stSuccess) = true := by
  decide +kernel
/-- VECTOR SCALE by 2 of one row of two elements. -/
def vecMem : Mem := (Mem.write {} 0x90000 (args [(1, 2), (1, 3), (3, 0), (1, 0), (1, 0), (1, 0x0B), (4, 2), (4, 1), (2, 1), (2, 0), (4, 0x40000000),
  (40, 0)])).write 0x91000 (args [(4, 0x3F800000), (4, 0xC0000000)])
def vecNode : State := withTask { node with hostMem := vecMem } (job 10 0 [.host 0x91000, .none, .host 0x92000] 0x90000)
theorem test_vector_step : nextIs (exec (.vectorStep t1) vecNode) (fun t => t.hostMem.read 0x92000 8 == args [(4, 0x40000000), (4, 0xC0800000)]) = true := by
  decide +kernel
/-- Two text records with attributes 5 and 9, and the term ATTR[7:0] = 9. -/
def textMem : Mem := (Mem.write {} 0x90000 (args [(8, 1), (8, 5), (8, 0), (4, 1), (4, 0), (8, 0x61), (8, 2), (8, 9), (8, 0), (4, 1), (4, 0), (8, 0x62)])).write
  0x91000 (args [(8, 9), (1, 0), (1, 8), (1, 0), (1, 0), (4, 0)])
theorem test_filter : (textRecs (withTask { node with hostMem := textMem } (job 10 1 [] 0)) { acc := 1, pen := 0, cmd := cSkex } (.host 0x90000) 2 0).1 = 0 ∧
    nextIs (exec (.vectorFilter t1) (withTask { node with hostMem := textMem } (job 10 1 [.host 0x90000, .host 0x91000, .host 0x92000] 0x100000002)))
      (fun t => ended stSuccess 1 t && t.hostMem.byte 0x92000 == 2) = true := by decide +kernel
theorem test_tokenize_short : nextIs (exec (.tokenize t1) (modelNode (job 10 2 [.host 0x90000, .obj 5 0, .host 0x92000, .host 0x93000] 0)))
    (ended stInvalidField 0) = true := by decide +kernel
theorem test_tokenize_none : nextIs (exec (.tokenize t1) (modelNode (job 10 2 [.host 0x90000, .obj 5 0, .host 0x92000, .host 0x93000] 0x300000000)))
    (ended stSuccess 0) = true := by decide +kernel
set_option maxRecDepth 20000 in
theorem test_pack : nextIs (exec (.pack t1) (withTask { node with hostMem := (Mem.write {} 0x90000 (le 4 0x3F800000)).write 0x95000 (le 8 77) }
    (job 10 3 [.host 0x90000, .host 0x95000, .host 0x96000] 1))) (fun t => ended stSuccess 0 t && t.hostMem.read 0x96000 10 == [77, 0, 0, 0, 0, 0, 0, 0, 1, 0]) = true := by
  decide +kernel

/-- NBU_SEQ of one step, MOVE of an immediate into latch 1, over 64 fp32 elements in object 2. -/
def nbuMem : Mem := Mem.write {} 0x90000 (args [(2, 1), (1, 0x0B), (1, 2), (2, 0), (2, 0), (8, 64), (8, 0x3F80000000009107), (8, 0x0000000000001407)])
def nbuNode : State := withTask { node with hostMem := nbuMem } (job 12 0 [.obj 2 0, .none, .none, .none, .none] 0x90000)
def nbuStarted : State := match exec (.nbuSeq t1) nbuNode with
  | .next t => t
  | _ => nbuNode
theorem witness_nbu : (match graphOf nbuNode 1, taskOf nbuNode t1 with
    | some g, some k => (match (nbuProg nbuNode g k).1 with
      | some p => (nbuProg nbuNode g k).2 == 0 && nprogOk nbuNode g k p && !pinnedByNbu nbuNode t1 g k p (planStacks nbuNode g k p) &&
          planStacks nbuNode g k p == [1] && !stackBusy nbuNode t1 g k 1 && p.head.blen == 0 &&
          (placeAll nbuNode t1 k p (List.range p.bales)).any fun v => v.2 == [1] && !stackBusy v.1 t1 g k 1
      | none => false)
    | _, _ => false) = true := by decide +kernel
theorem witness_micro_op : (stackOf nbuStarted 1).retraining = false ∧ clrOpen nbuStarted 1 = false ∧
    tget? (tget (stackOf nbuStarted 1).units 0).latch 5 = none ∧ ((graphOf nbuStarted 1).bind fun g => (taskOf nbuStarted t1).bind fun k =>
      (nbuProg nbuStarted g k).1.map fun p => (p.steps.map fun x => (x.op, x.dst, nsources x), p.head.steps)) = some ([(7, 1, [9]), (7, 4, [1])], 2) := by decide +kernel
theorem test_nbu_begins : (stackOf nbuStarted 1).nbuTask = some t1 ∧ (tget (stackOf nbuStarted 1).units 0).running = some t1 := by decide +kernel
theorem test_micro_op : nextIs (exec (.microOp 1 0 false) nbuStarted) (fun t => (tget (stackOf t 1).units 0).step == 1 &&
    tgetD (tget (tget (stackOf t 1).units 0).latch 1) 63 0 == 0x3F800000 &&
    nextIs (exec (.microOp 1 0 false) t) (fun u => ended stSuccess 0 u && u.mem.read (77309411328 + 252) 4 == [0, 0, 0x80, 0x3F])) = true := by decide +kernel
theorem test_parity : nextIs (exec (.microOp 1 0 true) nbuStarted) (fun t => 0 ∈ (stackOf t 1).nbuBad) = true := by decide +kernel
theorem test_refresh : nextIs (exec (.refreshDue 1 0) nbuStarted) (fun t => (tget (stackOf t 1).units 0).refreshDue) = true := by decide +kernel
theorem test_patrol_scrub : ¬dpa 1 (5 * line) ∈ node.poison ∧ nextIs (exec (.patrolScrub 1 [3, 4] ⟨[5], true⟩) node)
    (fun t => t.poison == [dpa 1 320] && (stackOf t 1).eccCorr == 2 && (stackOf t 1).scrubs == 1) = true := by decide +kernel

/-- Row 2 of the table is (1.0, 2.0); index 2 at 0x90000, sources at 0x91000. -/
def tableNode (k : Task) : State := withTask { node with
  mem := Mem.write {} 128 (args [(4, 0x3F800000), (4, 0x40000000)]), hostMem := (Mem.write {} 0x90000 (le 8 2)).write 0x91000 (args [(4, 0x3F800000), (4, 0x40800000)]) } { k with bound := some 0 }
theorem witness_table : tableOf (tableNode (job 0x18 0 [] 1)) 0 (.obj 1 0) = some (1, { fmt := 0x0B, width := 2, rows := 4, migrate := true }) ∧
    rowsBad { job 0x18 0 [] 1 with bound := some 0 } { fmt := 0x0B, width := 2, rows := 4, migrate := true } [2] = false ∧
    rowsBad { job 0x18 0 [] 1 with bound := some 0 } { fmt := 0x0B, width := 2, rows := 4, migrate := true } [4] = true := by decide +kernel
theorem witness_table_task : (running (tableNode (job 0x19 1 [.obj 1 0, .host 0x90000, .host 0x91000] 1)) t1 0x19 (some 1)).isSome = true ∧
    opLost (tableNode (job 0x19 1 [.obj 1 0, .host 0x90000, .host 0x91000] 1)) 0 (.obj 1 0) = false ∧
    rowTurn (tableNode (job 0x19 1 [.obj 1 0, .host 0x90000, .host 0x91000] 1)) t1 = true := by decide +kernel
theorem test_gather : nextIs (exec (.gather t1) (tableNode (job 0x18 0 [.obj 1 0, .host 0x90000, .host 0x92000] 1)))
    (fun t => ended stSuccess 1 t && t.hostMem.read 0x92000 8 == args [(4, 0x3F800000), (4, 0x40000000)]) = true := by decide +kernel
theorem test_scatter_write : nextIs (exec (.scatterWrite t1) (tableNode (job 0x19 0 [.obj 1 0, .host 0x90000, .host 0x91000] 1)))
    (fun t => t.mem.read 128 8 == args [(4, 0x3F800000), (4, 0x40800000)]) = true := by decide +kernel
theorem test_scatter_add : nextIs (exec (.scatterAdd t1) (tableNode (job 0x19 1 [.obj 1 0, .host 0x90000, .host 0x91000] 1)))
    (fun t => t.mem.read 128 8 == args [(4, 0x40000000), (4, 0x40C00000)]) = true := by decide +kernel
theorem test_clone : nextIs (exec (.clone t1) (tableNode (job 0x19 4 [.obj 1 0] 0))) (fun t => t.mem.read 128 8 == args [(4, 0x3F800000), (4, 0x40000000)]) = true := by
  decide +kernel
theorem test_table_destroy : nextIs (exec (.tableDestroy t1) (tableNode (job 0x19 3 [.obj 1 0] 0))) (fun t => ended stSuccess 0 t && (objOf t 0 1).isNone) = true := by
  decide +kernel
def tabBytes : List Byte := args [(2, 1), (1, 0x0B), (1, 1), (2, 2), (1, 0), (1, 0), (8, 4), (48, 0)]
theorem test_table_create : tableDescOk tabBytes = true ∧ nextIs (exec (.tableCreate t1) (withTask { node with hostMem := Mem.write {} 0x90000 tabBytes }
    (job 0x19 2 [.obj 7 0, .host 0x90000] 0))) (fun t => ended stSuccess 0 t && (tableOf t 0 (.obj 7 0)).any fun x => x.2.rows == 4) = true := by decide +kernel
/-- Row 2 of the table on its way to slot 0 of stack 5. -/
def move0 : RowMove := { base := 0, row := 2, off := 128, size := 64, stack := 5, slot := 0, idx := 0 }
def mig0 : Migration := { quad := 1, entry := 0, pen := 0, object := 1, base := 0, row := 2, phase := 0, move := move0, holdStack := 5, holdSlot := 1 }
theorem test_halving : nextIs (exec (.sketchHalving 0) { node with quads := [(0, { sketchReads := 1048577, sketch := [(3, 5)] })] })
    (fun t => (quadOf t 0).sketch == [(3, 2)] && (quadOf t 0).sketchReads == 1) = true := by decide +kernel
/-- Quad 1 has read row 2 of the table: its estimate is at least 1 whatever the hash of the sketch (log 2). -/
def hotQuad : Quad := countRead { poolSize := 100 } 0 1 0 2
theorem tgetD_after (t : Tab Nat) (k v j : Nat) : tgetD (tput t k v) j 0 = if j = k then v else tgetD t j 0 := by
  by_cases h : j = k
  · subst h; simp [tgetD]
  · simp [tgetD, tget?_tput_ne t k j v h, h]
theorem witness_hot : 1 ≤ estimate hotQuad 0 1 0 2 := by
  simp only [hotQuad, estimate, countRead, List.range, List.range.loop, tgetD_after, satAdd, List.foldl, List.map]
  simp
  repeat' constructor
  all_goals (split_ifs <;> omega)
def hotNode : State := { tableNode (job 0 0 [] 0) with
  drover := { (tableNode (job 0 0 [] 0)).drover with migThresh := 1 }, quads := [(1, hotQuad)] }
theorem witness_migration : migOf hotNode 0 1 0 2 = none ∧ rowQuad hotNode 0 1 { fmt := 0x0B, width := 2, rows := 4 } 0 2 = 0 ∧
    mostFree (freePool hotNode) (stacksOf hotNode 1) = some 5 ∧ hotNode.migs = [] ∧ quotaHolds hotNode 0 1 = true ∧
    ((takeSpot hotNode 1 0 1 { fmt := 0x0B, width := 2, rows := 4, migrate := true }).map fun x => (x.2.1, x.2.2)) = some (5, 0, 0) := by decide +kernel
theorem witness_table_moves : rowOff { fmt := 0x0B, width := 2, rows := 4, migrate := true } 0 2 = 128 ∧
    slotBytes { fmt := 0x0B, width := 2, rows := 4, migrate := true } = 64 := by decide +kernel
def migrating (phase : Nat) : State := { hotNode with migs := [{ mig0 with phase := phase }] }
theorem test_migration : nextIs (exec (.migrationCopyEnd 1 0) (migrating 0)) (fun u => (u.migs.map (·.phase)) == [1] && u.mem.read (slotAddr 5 0) 8 == args [(4, 0x3F800000), (4, 0x40000000)]) = true ∧
    nextIs (exec (.migrationCommit 1 0) (migrating 1)) (fun v => v.migs.isEmpty && ((tableOf v 0 (.obj 1 0)).map (·.2.remap)) == some [move0]) = true := by
  decide +kernel

/-! Search, index updates, commits. -/

/-- Two slots joined by an edge: vector 100 with code 0, vector 101 with code 3. -/
def snap0 : Snap :=
  { slots := [(0, { id := 100, code := 0, adj := [1], attr := 0, tomb := false, level := 0, vec := [] }),
              (1, { id := 101, code := 3, adj := [0], attr := 0, tomb := false, level := 0, vec := [] })]
    entry := some 0
    keymap := [(100, 0), (101, 1)] }
def index0 : Index :=
  { desc := { capacity := 16 }, epochs := [(1, snap0)], latest := 1, held := 1, work := snap0, hold := 2 }
def indexed (x : Index) (hm : Mem) (k : Task) : State := withTask { node with
  hostMem := hm, pens := [(0, { pen0 with objects := [(10, { kind := .index x, bytes := 65536, homes := [.stack 3 0] })] })] } { k with bound := some 1 }
/-- QUERY parameters K = 2, LIST = 4, BEAM = 1, ENTRY = 1 at 0x90000; the query's code at 0x91000 is 0. -/
def queryMem : Mem := Mem.write {} 0x90000 (args [(4, 2), (2, 4), (1, 1), (1, 1)])
def queryJob : Task := job 0x10 0 [.obj 10 0, .host 0x91000, .host 0x92000, .none, .none, .none] 0x90000
def walking : State := next (.query t1) (indexed index0 queryMem queryJob)
theorem witness_query : qparamsOk false (queryMem.read 0x90000 192) = true ∧ indexSound (indexed index0 queryMem queryJob) 0 (.obj 10 0) = true ∧ opLost (indexed index0 queryMem queryJob) 0 (.obj 10 0) = false ∧
    (walkOf walking t1).isSome = true ∧ ((walkOf walking t1).map fun x => (x.2.2.ended, x.2.2.flash, x.2.2.beam.exp)) = some (false, false, 0) ∧
    ((walkOf walking t1).bind fun x => (walkCtx walking t1 x.2.2).map fun _ => (roundSet x.2.2.beam 1).length) = some 1 := by decide +kernel
theorem test_walk : (let a := next (.walkRound t1) walking
    let b := next (.walkRound t1) a
    let c := next (.walkRound t1) b
    ended stSuccess 2 c || (taskOf c t1).any fun k => k.st == .finished && k.status == stSuccess) = true := by decide +kernel
theorem test_walk_results : ((next (.walkRound t1) (next (.walkRound t1) (next (.walkRound t1) walking))).hostMem.read 0x92000 44) =
    args [(4, 2), (4, 2), (8, 0), (8, 100), (4, 0), (4, 0), (8, 101), (4, 2)] := by decide +kernel
/-- Two result lists at 0x90000 and 0x91000: vector 5 with key 3; vectors 5 and 6 with keys 3 and 1. -/
def mergeMem : Mem := (Mem.write {} 0x90000 (args [(4, 1), (4, 2), (8, 0), (8, 5), (4, 3), (4, 0)])).write 0x91000
  (args [(4, 2), (4, 2), (8, 0), (8, 6), (4, 1), (4, 0), (8, 5), (4, 3), (4, 0)])
theorem test_merge : nextIs (exec (.merge t1) (withTask { node with hostMem := mergeMem }
    (job 0x11 0 [.host 0x90000, .host 0x91000, .none, .none, .none, .host 0x92000] 0x200000002)))
    (fun t => ended stSuccess 2 t && t.hostMem.read 0x92000 48 == args [(4, 2), (4, 2), (8, 0), (8, 6), (4, 1), (4, 0), (8, 5), (4, 3), (4, 0)]) = true := by
  decide +kernel
/-- A fan-out to one local shard: object 10 at epoch 9, which is not held. -/
def fanMem : Mem := queryMem.write 0x93000 (args [(4, 1), (4, 0), (2, 0), (2, 0), (4, 10), (6, 9), (2, 0)])
def fanJob : Task := job 0x10 1 [.obj 10 0, .host 0x91000, .host 0x92000, .none, .none, .host 0x93000] 0x90000
theorem test_fan_out : (next (.fanOutQuery t1) (indexed index0 fanMem fanJob)).drover.graphs.map (fun g => (g.remote, g.tasks.map fun k => (k.typ, k.sub))) =
    [(none, [(0x10, 1)]), (some (localCtx, 0), [(0x10, 0)])] := by decide +kernel
theorem witness_fan_out : (shardsOf (fanMem.read 0x93000 24) 1).map (fun sh => (sh.node, sh.object, shardDiffers (indexed index0 fanMem fanJob) 0 index0.desc sh)) =
    [((indexed index0 fanMem fanJob).flue.nodeId, 10, false)] := by decide +kernel
theorem test_shard_epoch_gone : ((next (.query ⟨0, 0⟩) (next (.taskIssue .tile 0) (next (.fanOutQuery t1) (indexed index0 fanMem fanJob)))).drover.graphs.map fun g =>
    g.tasks.map fun k => (k.typ, k.status)) = [[(0x10, 0)], [(0x10, stEpochGone)]] := by decide +kernel
/-- A flash walk with a decoded page and a hop under way on channel 0. -/
def flashWalk : Walk :=
  { pen := 0, object := 10, epoch := 1, p := { k := 2, list := 4 }, flash := true, list := 4, roundOpen := true
    engines := [(0, { todo := [(0, [0], true)], hops := [(7, 1), (8, 2)], scored := [1] })] }
def flashWalking : State := indexed { index0 with desc := { capacity := 16, flash := true, channelMask := 1 } } queryMem { queryJob with run := .walk flashWalk }
theorem witness_flash_walk : (walkOf flashWalking t1).isSome = true ∧ (tget flashWalk.engines 0).todo.find? (fun d => d.1 == 0 && d.2.2) = some (0, [0], true) ∧
    1 ∈ (tget flashWalk.engines 0).scored := by decide +kernel
theorem test_hop : nextIs (exec (.hop t1 0) flashWalking) (fun t => (walkOf t t1).any fun x => (tget x.2.2.engines 0).hops == [(8, 2)] &&
    (tget x.2.2.engines 0).pend.isEmpty) = true := by decide +kernel
theorem test_hop_new : nextIs (exec (.hop t1 0) (next (.hop t1 0) flashWalking)) (fun t => (walkOf t t1).any fun x => (tget x.2.2.engines 0).pend == [(8, 2)]) = true := by
  decide +kernel
theorem test_page_expand : nextIs (exec (.enginePageExpand t1 0 0) flashWalking) (fun t => (walkOf t t1).any fun x => 0 ∈ (tget x.2.2.engines 0).expanded) = true := by
  decide +kernel
theorem test_flash_round : nextIs (exec (.flashWalkRound t1) (next (.query t1) (indexed { index0 with desc := { capacity := 16, flash := true, channelMask := 1 } }
    queryMem queryJob))) (fun t => (walkOf t t1).any fun x => x.2.2.roundOpen) = true := by decide +kernel
/-- A walk that has ended with RERANK 2 over fp32 vectors of one element. -/
def rerankIndex : Index := { index0 with desc := { capacity := 16, vecDim := 1, vecPlace := 1, metric := 1 }, epochs := [(1, { snap0 with
  slots := [(0, { id := 100, code := 0, adj := [1], attr := 0, tomb := false, level := 0, vec := le 4 0x40000000 }),
            (1, { id := 101, code := 3, adj := [0], attr := 0, tomb := false, level := 0, vec := le 4 0x3F800000 })] })] }
def reranking : State := indexed rerankIndex (Mem.write {} 0x94000 (le 4 0x3F800000)) { job 0x10 0 [.obj 10 0, .host 0x91000, .host 0x92000, .none, .host 0x94000] 0x90000 with
  run := .walk { pen := 0, object := 10, epoch := 1, p := { k := 1, list := 4, rerank := 2 }, list := 4, ended := true
                 results := [{ key := 0, id := 100, score := 0, source := 0, slot := 0 }, { key := 2, id := 101, score := 2, source := 0, slot := 1 }] } }
theorem test_rerank : nextIs (exec (.rerank t1) reranking) (fun t => t.hostMem.read 0x92010 8 == le 8 101 && t.hostMem.byte 0x92008 == 1) = true := by decide +kernel

/-- INSERT of vector 102 with code 7. -/
def insertMem : Mem := Mem.write {} 0x90000 (args [(8, 102), (8, 7), (24, 0)])
theorem test_insert : nextIs (exec (.insert t1) (indexed index0 insertMem (job 0x12 0 [.obj 10 0, .host 0x90000] 1)))
    (fun t => (indexOf t 0 (.obj 10 0)).any fun x => (tget? x.2.work.keymap 102).isSome && (tget? snap0.keymap 102).isNone) = true := by decide +kernel
theorem test_insert_full : nextIs (exec (.insert t1) (indexed { index0 with desc := { capacity := 2 } } insertMem (job 0x12 0 [.obj 10 0, .host 0x90000] 1)))
    (fun t => (taskOf t t1).any fun k => k.st == .finished && k.status == stIndexFull) = true := by decide +kernel
theorem test_delete : nextIs (exec (.delete t1) (indexed index0 (Mem.write {} 0x90000 (le 8 101)) (job 0x13 0 [.obj 10 0, .host 0x90000] 1)))
    (fun t => (indexOf t 0 (.obj 10 0)).any fun x => (tget? x.2.work.slots 1).any (·.tomb)) = true := by decide +kernel
/-- A descriptor with 16 slots and a create block. -/
def createMem : Mem := (Mem.write {} 0x90000 (args [(2, 1), (1, 0), (1, 8), (1, 4), (1, 1), (1, 0), (1, 0), (8, 16), (4, 0), (4, 0), (1, 0), (1, 1), (38, 0)])).write
  0x91000 (args [(8, 0), (1, 0), (1, 2), (2, 16), (1, 1), (1, 1)])
theorem test_index_create : descOk (createMem.read 0x90000 64) = true ∧ createOk false (createMem.read 0x91000 64) = true ∧
    nextIs (exec (.indexCreate t1) (withTask { node with hostMem := createMem } (job 0x12 2 [.obj 10 0, .host 0x90000] 0x91000)))
      (fun t => (indexOf t 0 (.obj 10 0)).any fun x => x.2.latest == 1 && x.2.desc.capacity == 16) = true := by decide +kernel
/-- The same create with ATTACH, on a flash-resident index with store key 3 (R140). -/
def openMem : Mem := (Mem.write {} 0x90000 (args [(2, 1), (1, 0), (1, 8), (1, 4), (1, 1), (1, 0), (1, 1), (8, 16), (4, 1), (4, 0), (1, 0), (1, 1), (38, 0)])).write
  0x91000 (args [(8, 3), (1, 1), (1, 2), (2, 16), (1, 1), (1, 1)])
theorem test_open_missing : nextIs (exec (.indexOpen t1) (withTask { node with hostMem := openMem } (job 0x12 2 [.obj 10 0, .host 0x90000] 0x91000)))
    (ended stNotFound 0) = true := by decide +kernel
theorem test_rebuild_index : nextIs (exec (.rebuildIndex t1) (indexed index0 createMem (job 0x12 3 [.obj 11 0, .host 0x90000, .obj 10 0] 0x91000)))
    (fun t => ended stSuccess 1 t && (indexOf t 0 (.obj 11 0)).any fun x => x.2.latest == 1 && x.2.work.slots.length == 2) = true := by decide +kernel
theorem test_destroy : nextIs (exec (.destroy t1) (indexed index0 {} (job 0x13 1 [.obj 10 0] 0))) (fun t => ended stSuccess 0 t && (objOf t 0 10).isNone) = true := by
  decide +kernel
def sweep0 : Sweep := { members := [], waiters := [], next := [], due := false }
theorem test_sweep_now : nextIs (exec (.repairSweepNow t1) (indexed { index0 with sweep := some sweep0 } {} (job 0x13 2 [.obj 10 0] 0)))
    (fun t => (indexOf t 0 (.obj 10 0)).any fun x => (x.2.sweep.map (·.next)) == some [t1]) = true := by decide +kernel
theorem test_sweep_end : nextIs (exec (.sweepEnd 0 10) (indexed { index0 with sweep := some sweep0 } {} (job 0 0 [] 0)))
    (fun t => (indexOf t 0 (.obj 10 0)).any fun x => x.2.sweep.isNone) = true := by decide +kernel

theorem test_epoch_commit : nextIs (exec (.epochCommit cSkex 10 .none) (indexed index0 {} (job 0 0 [] 0)))
    (fun t => (indexOf t 0 (.obj 10 0)).any fun x => (x.2.commits.map (·.sealed)) == [false] && nextIs (exec (.seal 0 10) t)
      (fun u => (indexOf u 0 (.obj 10 0)).any fun y => (y.2.commits.map fun c => (c.sealed, c.epoch)) == [(true, 2)] && nextIs (exec (.commitComplete 0 10) u)
        (fun v => (indexOf v 0 (.obj 10 0)).any fun z => z.2.latest == 2 && z.2.held == 2 && z.2.commits.isEmpty))) = true := by decide +kernel
def begunIndex : Index :=
  { index0 with
    begun := [t1]
    commits := [{ cmd := cSkex, report := .none, epoch := 0, snap := {}, sealed := false, mackPending := false }] }
theorem test_seal_waits : nextIs (exec (.seal 0 10) (indexed begunIndex {} (job 0 0 [] 0)))
    (fun t => (indexOf t 0 (.obj 10 0)).any fun x => (x.2.commits.map (·.sealed)) == [false]) = true := by decide +kernel
/-- A target whose epoch 1 is on the medium but for its acknowledgement on context 3. -/
def landed : Index := { index0 with target := true, landing := [{ ctx := some 3, epoch := 1, snap := snap0, pos := 1, stage := 2 }] }
theorem test_landing : nextIs (exec (.commitComplete 0 10) (indexed landed {} (job 0 0 [] 0)))
    (fun t => (indexOf t 0 (.obj 10 0)).any fun x => x.2.landing.isEmpty) = true := by decide +kernel
theorem test_sweep_due : nextIs (exec (.sweepEnd 0 10) (indexed { index0 with sweep := some { sweep0 with due := true, next := [t1] } } {} (job 0 0 [] 0)))
    (fun t => (taskOf t t1).any fun k => k.st == .finished || k.st == .issued) = true := by decide +kernel

/-! Flash tasks and media. -/

/-- The node with a region of four units, its first unit on the medium of channel 0, whose first byte is 5. -/
def flashed : State := { regioned with ftl := { node.ftl with chans := [(0, { chan0 with
  map := [(0, 0)]
  media := { chan0.media with
    blocks := [(0, { st := .closed })]
    sectors := [(0, { unit := 0, space := 0, kind := 0, seq := 1, data := [(0, 5)] })] } })] } }
def flashJob (typ sub : Nat) (ops : List OpRef) (n : Nat) : State := withTask flashed (job typ sub ops (BitVec.ofNat 64 n))
def reading : State := next (.flashRead t1) (flashJob 0x1C 0 [.obj 3 0, .host 0x90000] 1)
theorem witness_flash : ((graphOf reading 1).bind fun g => (taskOf reading t1).map fun k => (flashLbas reading g k, flashBad reading g k)) =
    some ([0], false) ∧ unitWaits flashed 0 = false ∧ unitWriteStatus flashed 0 = 0 := by decide +kernel
theorem test_flash_read : (findOp (chanOf reading 0) 0 0).map (fun o => (o.units, o.step)) = some ([(0, 0, 0)], 0) ∧
    nextIs (exec (.pageReadDone 0 0 [false]) reading) (fun t => (findOp (chanOf t 0) 0 0).map (·.step) == some 1 && (chanOf t 0).uncorr == 0) = true := by
  decide +kernel
theorem test_page_read_done : nextIs (exec (.pageReadDone 0 0 [true]) reading) (fun t => ended stSuccess 1 t && t.hostMem.byte 0x90000 == 5 &&
    t.hostMem.byte 0x90001 == 0 && (chanOf t 0).ops.isEmpty) = true := by decide +kernel
theorem test_flash_write : nextIs (exec (.flashWrite t1) (flashJob 0x1D 0 [.obj 3 0, .host 0x90000] 0x100000001))
    (fun t => (chanOf t 0).page.length == 1 && (chanOf t 0).page.all fun x => x.1.unit == 0) = true := by decide +kernel
theorem test_deallocate : nextIs (exec (.deallocate t1) (flashJob 0x1D 1 [.obj 3 0] 1))
    (fun t => !thas (chanOf t 0).map 0 && ended stSuccess 1 t) = true := by decide +kernel

/-- A TLC part, and the node with one channel of it. -/
def prof1 : Profile := { prof0 with cell := 2, eraseLimit := 100, pslcLimit := 1000, disturbLimit := 50, tMax := 70 }
def channel (ch : Chan) : State := { node with
  topo := { node.topo with chgrp := 0xF }
  ftl := { node.ftl with profiles := [prof1], kindlePct := 50, gcHigh := 3, chans := [(0, ch)] } }
def sec (unit seq : Nat) : Sector := { unit := unit, space := 0, kind := 0, seq := seq, data := [] }
/-- A Kindling page of unit 7 under way on block 1. -/
def programming : Chan := { chan0 with
  ops := [{ num := 3, kind := 1, lun := 0, blk := 1, sectors := [(sec 7 9, .none)] }]
  media := { chan0.media with blocks := [(1, { st := .openKindling, pslc := true, wp := 1 })] } }
theorem test_program_done : nextIs (exec (.programDone 0 3 true) (channel programming)) (fun t => tget? (chanOf t 0).map 7 == some 32 &&
    ((tget? (chanOf t 0).media.sectors 32).map (·.unit)) == some 7 && (chanOf t 0).programs == 1) = true := by decide +kernel
theorem test_program_fails : nextIs (exec (.programDone 0 3 false) (channel programming)) (fun t => ((chanOf t 0).page.map (·.1.unit)) == [7] &&
    (chanOf t 0).progFail == 1 && (blkOf (chanOf t 0) 1).retireWith == some 2 && (blkOf (chanOf t 0) 1).st == .closed) = true := by decide +kernel
theorem test_kindling_pad : nextIs (exec (.kindlingPad 0) (channel { chan0 with page := [(sec 7 0, .none)] }))
    (fun t => ((chanOf t 0).ops.map fun o => (o.blk, o.sectors.map fun x => (x.1.unit, x.1.kind))) == [(0, [(7, 0), (0, 6), (0, 6), (0, 6)])]) = true := by
  decide +kernel
theorem test_journal_page : nextIs (exec (.journalPageTimeout 0) (channel { chan0 with jstage := [.ckpt 1] }))
    (fun t => (chanOf t 0).jpages.length == 1 && ((chanOf t 0).ops.flatMap fun o => o.sectors.map (·.1.kind)) == [4] &&
      nextIs (exec (.programDone 0 ((chanOf t 0).ops.map (·.num)).head! true) t) (fun u => (chanOf u 0).media.journal != [])) = true := by decide +kernel
/-- An erase of block 1 under way. -/
def erasing : Chan := { chan0 with
  ops := [{ num := 3, kind := 2, lun := 0, blk := 1 }], media := { chan0.media with blocks := [(1, { st := .erasing, native := 4 })] } }
theorem test_erase_done : nextIs (exec (.eraseDone 0 3 true) (channel erasing))
    (fun t => (blkOf (chanOf t 0) 1).st == .free && (blkOf (chanOf t 0) 1).native == 5 && (chanOf t 0).erases == 1) = true := by decide +kernel
theorem test_erase_fails : nextIs (exec (.eraseDone 0 3 false) (channel erasing))
    (fun t => (blkOf (chanOf t 0) 1).st == .retired && (chanOf t 0).ashpit.length == 1 && (chanOf t 0).eraseFail == 1) = true := by decide +kernel
/-- Three closed Kindling blocks, against a limit of four; unit 7 is in block 2, the first opened. -/
def folding : Chan := { chan0 with
  map := [(7, 64)]
  media := { chan0.media with
    blocks := [(1, { st := .closed, pslc := true, openSeq := 8 }), (2, { st := .closed, pslc := true, openSeq := 5 }), (3, { st := .closed, pslc := true, openSeq := 9 })]
    sectors := [(64, sec 7 6)] } }
theorem test_fold_start : kindleLimit (channel folding) prof1 < 2 * (lunKindling prof1 folding 0).length ∧ foldSource prof1 folding 0 = some 2 ∧
    mappedSlots prof1 folding 2 = [64] ∧ nextIs (exec (.foldStart 0 0) (channel folding)) (fun t =>
      ((chanOf t 0).moves.map fun m => (m.fold, m.src, m.dst)) == [(true, 2, 0)] && (blkOf (chanOf t 0) 0).st == .openFold) = true := by decide +kernel
/-- Two closed bulk blocks, block 1 with one valid unit and block 2 with two. -/
def collecting : Chan := { chan0 with
  map := [(7, 32), (8, 64), (9, 65)]
  media := { chan0.media with
    blocks := [(1, { st := .closed, summary := true }), (2, { st := .closed, summary := true })]
    sectors := [(32, sec 7 6), (64, sec 8 7), (65, sec 9 8)] } }
theorem test_gc_start : 0 ∈ lunsOf prof1 collecting ∧ lunFree prof1 collecting 0 = 6 ∧
    nextIs (exec (.gcStart 0 0) { channel collecting with ftl := { (channel collecting).ftl with gcLow := 7 } })
      (fun t => ((chanOf t 0).moves.map fun m => (m.fold, m.src)) == [(false, 1)] && (chanOf t 0).collecting == [0]) = true := by decide +kernel
theorem test_checkpoint_start : nextIs (exec (.checkpointStart 0) (channel { chan0 with media := { chan0.media with journal := List.replicate 960 (.ckpt 1) } }))
    (fun t => (chanOf t 0).ckptBusy.isSome && ((chanOf t 0).ops.map (·.blk)) == [0]) = true := by decide +kernel
theorem test_patrol_read : nextIs (exec (.patrolRead 0 [2] ⟨[], [(1, 4)]⟩) (channel collecting)) (fun t => (blkOf (chanOf t 0) 2).relocate && !(blkOf (chanOf t 0) 1).relocate &&
    (blkOf (chanOf t 0) 1).reads == 1 && (blkOf (chanOf t 0) 1).group == 4) = true ∧
    nextIs (exec (.patrolRead 0 [] ⟨[1], []⟩) (channel collecting)) (fun t => (blkOf (chanOf t 0) 1).retireWith == some 3 && (chanOf t 0).uncorr == 1) = true := by
  decide +kernel
theorem test_read_level_replan : nextIs (exec (.readLevelReplan 0 0 2 [([1], 4), ([2], 9), ([1], 3)]) (channel { chan0 with levels := [(levelKey 0 2, [[7], [8]])] }))
    (fun t => tget (chanOf t 0).levels (levelKey 0 2) == [[7], [2], [1]]) = true := by decide +kernel
theorem test_flash_temperature : nextIs (exec (.flashTemperatureSample [40, 41, 42, 80]) (channel chan0))
    (fun t => tgetD t.ftl.temp 3 0 == 80 && tgetD t.ftl.maxRst 2 0 == 42 && tgetD t.ftl.maxFmt 0 0 == 40) = true := by decide +kernel
/-- Two copies of unit 7 on Kindling blocks, the later at slot 64. -/
def unbuilt : Chan := { chan0 with
  usable := false
  rebuilt := false
  media := { chan0.media with
    blocks := [(1, { st := .closed, pslc := true }), (2, { st := .openKindling, pslc := true })], sectors := [(32, sec 7 6), (64, sec 7 9)] } }
theorem test_rebuild : (chanOf (channel unbuilt) 0).targets ≠ [] ∧ nextIs (exec (.rebuild 0 none) (channel unbuilt)) (fun t => (chanOf t 0).rebuilding &&
    nextIs (exec (.rebuildDone 0) t) (fun u => (chanOf u 0).usable && tget? (chanOf u 0).map 7 == some 64 && decide (9 < (chanOf u 0).seq))) = true := by decide +kernel
theorem test_rebuild_blank : nextIs (exec (.rebuildDone 0) (channel { chan0 with rebuilding := true, rebuilt := false, media := {} }))
    (fun t => !(chanOf t 0).usable && (chanOf t 0).targets.isEmpty) = true ∧
    nextIs (exec (.rebuildDone 0) (channel { chan0 with rebuilding := true })) (fun t => !(chanOf t 0).rebuilding) = true := by decide +kernel
theorem test_take_block : ((takeBlock prof1 collecting 0 .openGc false).map (·.2)) = some 0 ∧
    tget? (winners [⟨7, 6, some 32⟩, ⟨7, 9, some 64⟩]) 7 = some ⟨7, 9, some 64⟩ := by decide +kernel
theorem witness_served : (servedOp (chanOf reading 0) 0 0).isSome = true ∧ (servedOp (chanOf (channel programming) 0) 3 1).isSome = true ∧
    (servedOp (chanOf (channel erasing) 0) 3 2).isSome = true ∧ (chanOf (channel programming) 0).jpages = [] ∧
    (chanOf (channel programming) 0).moves = [] ∧ (chanOf (channel programming) 0).ckptBusy = none := by decide +kernel
theorem witness_walk_pages : (let w := next (.flashWalkRound t1) (next (.query t1) (indexed { index0 with desc := { capacity := 16, flash := true, channelMask := 1 } }
    queryMem queryJob))
    ((chanOf w 0).ops.map fun o => (o.kind, o.purpose matches .walk _ _)).all (· == (0, true))) = true := by decide +kernel

/-! Coherence: line 64 of stack 0, tiles 1 and 2, engine 64, the host. -/

def ones : List Byte := List.replicate 64 1
def msg (k : MsgKind) (a b : Nat) : Msg := { kind := k, src := a, dst := b, line := 64 }
def dataMsg (k : MsgKind) (a b : Nat) : Msg := { kind := k, src := a, dst := b, line := 64, data := ones, mask := allMask }
/-- One message on its way, the line's entry, and the line at an agent. -/
def coherent (net : List Msg) (e : Option DEntry) (l : Option (Nat × ALine)) : State := { node with coh := {
  en := true
  net := net
  slices := [(0, { entries := (e.map fun x => [(64, x)]).getD [] })]
  agents := (l.map fun x => [(x.1, { lines := [(64, x.2)] })]).getD [] } }
/-- What is on its way after a command: kind and destination. -/
def sent (r : Res) : List (MsgKind × Nat) := match r with
  | .next t => t.coh.net.map fun m => (m.kind, m.dst)
  | _ => []
def entrySt (r : Res) : Option (DState × Nat) := match r with
  | .next t => (entryOf t 64).map fun e => (e.st, e.owner)
  | _ => none
def lineSt (r : Res) (a : Nat) : Option AState := match r with
  | .next t => (aline t a 64).map (·.st)
  | _ => none

theorem witness_home : (sliceOf (coherent [msg .rdS 1 homeId] none none) 64).retry = [] ∧ wayFree (coherent [msg .rdS 1 homeId] none none) 64 = true ∧
    findMsg (coherent [msg .rdS 1 homeId] none none) (· == .rdS) 1 homeId 64 = some (msg .rdS 1 homeId) ∧ coherenceRow (.rds 1 64) = true := by
  decide +kernel
theorem test_rds : entrySt (exec (.rds 1 64) (coherent [msg .rdS 1 homeId] none none)) = some (.S, 0) ∧
    nextIs (exec (.rds 1 64) (coherent [msg .rdS 1 homeId] none none)) (fun t => ((sliceOf t 64).accesses.map (·.write)) == [false]) = true := by
  decide +kernel
theorem test_rds_recalls : entrySt (exec (.rds 1 64) (coherent [msg .rdS 1 homeId] (some { st := .M, owner := 64 }) none)) = some (.MS_A, 64) ∧
    sent (exec (.rds 1 64) (coherent [msg .rdS 1 homeId] (some { st := .M, owner := 64 }) none)) = [(.rclS, 64)] := by decide +kernel
theorem test_rde : entrySt (exec (.rde 64 64) (coherent [msg .rdE 64 homeId] none none)) = some (.M, 64) ∧
    sent (exec (.rde 64 64) (coherent [msg .rdE 64 homeId] (some { st := .S, sharers := [1], bells := [1] }) none)) = [(.inv, 1)] := by decide +kernel
theorem test_rdc : entrySt (exec (.rdc hostAgent 64) (coherent [msg .rdC hostAgent homeId] none none)) = none := by decide +kernel
theorem test_wr : nextIs (exec (.wr 1 64) (coherent [dataMsg .wr 1 homeId] none none)) (fun t => ((sliceOf t 64).accesses.map (·.write)) == [true]) = true ∧
    sent (exec (.wr 1 64) (coherent [dataMsg .wr 1 homeId] (some { st := .M, owner := 64 }) none)) = [(.rcl, 64)] := by decide +kernel
theorem test_entry_flip : nextIs (exec (.rdc 1 64) (coherent [msg .rdC 1 homeId] (some { st := .S, sharers := [2], bells := [2], flips := 1 }) none))
    (fun t => (sliceOf t 64).eccCorr == 1 && ((entryOf t 64).map (·.flips)) == some 0) = true := by decide +kernel
theorem test_directory_off : (let s := coherent [msg .rdS 1 homeId] none none
    nextIs (exec (.rds 1 64) { s with coh := { s.coh with en := false } }) (fun t => (entryOf t 64).isNone && (sliceOf t 64).accesses.length == 1)) = true := by
  decide +kernel
theorem test_clr : sent (exec (.clr 64) (coherent [msg .clr droverAgent homeId] none none)) = [(.cmp false, droverAgent)] ∧
    sent (exec (.clr 64) (coherent [msg .clr droverAgent homeId] (some { st := .M, owner := 64 }) none)) = [(.rcl, 64)] := by decide +kernel
theorem test_putb : entrySt (exec (.putb 1 64) (coherent [msg .putB 1 homeId] (some { st := .S, sharers := [1], bells := [1] }) none)) = none ∧
    sent (exec (.putb 1 64) (coherent [msg .putB 1 homeId] none none)) = [(.cmp false, 1)] := by decide +kernel
theorem test_pute : sent (exec (.pute 64 64) (coherent [msg .putE 64 homeId] (some { st := .M, owner := 64 }) none)) = [(.cmp false, 64)] := by decide +kernel
theorem test_putm : entrySt (exec (.putm 64 64) (coherent [dataMsg .putM 64 homeId] (some { st := .M, owner := 64 }) none)) = none ∧
    sent (exec (.putm 64 64) (coherent [dataMsg .putM 64 homeId] none none)) = [(.cmp false, 64)] := by decide +kernel
theorem test_ack : entrySt (exec (.ack 1 64) (coherent [msg .ack 1 homeId] (some { st := .SM_A, act := .rdE, req := 64, awaited := [1] }) none)) = some (.M, 64) := by
  decide +kernel
theorem test_wbd : entrySt (exec (.wbd 64 64) (coherent [dataMsg (.wbD false) 64 homeId] (some { st := .MM_A, owner := 64, act := .rdE, req := 65 }) none)) = some (.M, 65) := by
  decide +kernel
theorem test_cack : entrySt (exec (.cack 64 64) (coherent [msg (.cAck false) 64 homeId] (some { st := .MM_A, owner := 64, act := .rdE, req := 65 }) none)) = some (.M, 65) := by
  decide +kernel
/-- A write of the line decided and not yet performed. -/
def accessing : State := { node with coh := { en := true, slices := [(0, { accesses := [{ line := 64, write := true, data := ones, mask := allMask, owed := owedCmp 1 64 false }] })] } }
theorem test_stack_access : nextIs (exec (.stackAccessDone 64) accessing) (fun t => t.mem.read 64 64 == ones && (t.coh.net.map (·.kind)) == [.cmp false]) = true := by
  decide +kernel

/-- The last bale of each of quad 0's stacks is a pool slot; the lines there have no entry. -/
def pooled : State := { coherent [] none none with
  quads := [(0, { poolSize := 5 })], drover := { node.drover with reqs := [{ task := t1, pen := 0, quad := 0, stack := 0, slots := [72 * 2 ^ 14 - 1] }] } }
theorem witness_agents : agentUp node 1 = true ∧ agentUp node 64 = true ∧ isLine 64 = true ∧ wrOpen (coherent [] none none) 1 64 = false ∧
    takesOwner (coherent [] none none) 64 64 = false ∧ takesOwner pooled 64 (72 * 2 ^ 30 - 64) = true ∧ isDead node 1 = false := by decide +kernel
theorem test_agent_load : lineSt (exec (.agentLoad 1 64) (coherent [] none none)) 1 = some .IS_D ∧
    sent (exec (.agentLoad 1 64) (coherent [] none none)) = [(.rdS, homeId)] := by decide +kernel
/-- Tile 1 with every way of the line's set in use, and the slice's retry queue full with a request of tile 2 before it. -/
def crowded : State := { node with coh := { en := true, agents := [(1, { lines := (List.range 8).map fun i => (64 + 8192 * (i + 1), { st := .S }) })] } }
theorem test_full_set : cacheRoom crowded 1 64 = false ∧ aline crowded 1 64 = none ∧ isParked crowded 1 64 = false ∧
    nextIs (exec (.agentLoad 1 64) crowded) (fun t => (agentOf t 1).parked == [(64, none)] && t.coh.net.isEmpty) = true := by decide +kernel
def jammed : State := { coherent [msg .inv 1 2, { msg .rdS 2 homeId with num := 1, line := 128 }] none (some (2, { st := .S })) with coh :=
  { (coherent [msg .inv 1 2, { msg .rdS 2 homeId with num := 1, line := 128 }] none (some (2, { st := .S }))).coh with
    slices := [(0, { retry := List.replicate 64 (msg .rdS 3 homeId) })] } }
theorem test_blocked_agent : blocked jammed 2 = true ∧ (findInv jammed 2 64).isSome = true ∧ nextIs (exec (.inv 2 64) jammed) (· == jammed) = true := by decide +kernel
theorem test_engine_store_misses : sent (exec (.agentStore 64 (72 * 2 ^ 30 - 64) ones allMask) pooled) = [(.rdE, homeId)] := by decide +kernel
theorem test_agent_load_hit : nextIs (exec (.agentLoad 1 64) (coherent [] none (some (1, { st := .B, data := ones })))) (fun t => (agentOf t 1).loadsServed == 1) = true := by
  decide +kernel
theorem test_agent_store : sent (exec (.agentStore 1 64 ones allMask) (coherent [] none none)) = [(.wr, homeId)] ∧
    lineSt (exec (.agentStore 1 64 ones allMask) (coherent [] none none)) 1 = none := by decide +kernel
theorem test_engine_store : lineSt (exec (.agentStore 64 64 ones allMask) (coherent [] none (some (64, { st := .E, data := ones })))) 64 = some .M := by decide +kernel
theorem test_agent_replace : lineSt (exec (.agentReplace 1 64) (coherent [] none (some (1, { st := .S })))) 1 = none ∧
    sent (exec (.agentReplace 1 64) (coherent [] none (some (1, { st := .B })))) = [(.putB, homeId)] := by decide +kernel
theorem test_inv : sent (exec (.inv 2 64) (coherent [msg .inv 1 2] none (some (2, { st := .S })))) = [(.ack, 1)] ∧
    sent (exec (.inv 1 64) (coherent [{ msg .inv homeId 1 with group := [1, 2] }] none (some (1, { st := .B })))) = [(.inv, 2)] := by decide +kernel
/-- Bellwether 1, which waits for tile 2's Ack. -/
def collectingAcks : State := { node with coh := { en := true, net := [msg .ack 2 1], agents := [(1, { collects := [{ line := 64, awaiting := [2] }] })] } }
theorem test_member_ack : sent (exec (.memberAck 1 64 2) collectingAcks) = [(.ack, homeId)] := by decide +kernel
theorem test_rcl : sent (exec (.rcl 64 64) (coherent [msg .rcl homeId 64] none (some (64, { st := .M, data := ones })))) = [(.wbD false, homeId)] ∧
    lineSt (exec (.rcl 64 64) (coherent [msg .rcl homeId 64] none (some (64, { st := .M, data := ones })))) 64 = none := by decide +kernel
theorem test_rcl_s : sent (exec (.rclS 64 64) (coherent [msg .rclS homeId 64] none (some (64, { st := .E, data := ones })))) = [(.cAck true, homeId)] ∧
    lineSt (exec (.rclS 64 64) (coherent [msg .rclS homeId 64] none (some (64, { st := .E, data := ones })))) 64 = some .B := by decide +kernel
theorem test_data_s : lineSt (exec (.dataS 1 64) (coherent [dataMsg .dataS homeId 1] none (some (1, { st := .IS_D })))) 1 = some .S := by decide +kernel
theorem test_data_b : lineSt (exec (.dataB 1 64) (coherent [dataMsg .dataB homeId 1] none (some (1, { st := .IS_D })))) 1 = some .B := by decide +kernel
/-- Engine 64 with a store to the line waiting. -/
def storing (st : AState) : State :=
  let s := coherent [dataMsg .dataE homeId 64] none none
  { s with coh := { s.coh with agents := [(64, { lines := [(64, { st := st })], parked := [(64, some (ones, allMask))] })] } }
theorem test_data_e : lineSt (exec (.dataE 64 64) (coherent [dataMsg .dataE homeId 64] none (some (64, { st := .IE_D })))) 64 = some .E ∧
    lineSt (exec (.dataE 64 64) (storing .IE_D)) 64 = some .M := by decide +kernel
theorem test_cmp : lineSt (exec (.cmp 1 64) (coherent [msg (.cmp false) homeId 1] none (some (1, { st := .BI_P })))) 1 = none ∧
    lineSt (exec (.cmp 64 64) (coherent [msg (.cmp true) homeId 64] none (some (64, { st := .EI_P })))) 64 = some .II_S := by decide +kernel

theorem witness_host : hostReaches node 64 = true ∧ homeLine node 64 = true ∧ homeLine pooled (72 * 2 ^ 30 - 64) = false ∧ hostOwns node 64 = false ∧
    hostOwns (coherent [] (some { st := .M, owner := 96 }) none) 64 = true := by decide +kernel
theorem test_host_read : sent (exec (.hostCxlMemRequest .rdShared 64) node) = [(.rdS, homeId)] := by decide +kernel
/-- The home awaits the host's answer to a recall, and one to an invalidation. -/
def recalled : State := coherent [] (some { st := .MS_A, owner := 96, req := 1 }) none
def snooped : State := coherent [] (some { st := .SM_A, act := .rdE, req := 64, awaited := [96] }) none
theorem witness_host_answers : hostRecalled recalled 64 = true ∧ hostSnooped recalled 64 = false ∧ hostSnooped snooped 64 = true := by decide +kernel
theorem test_host_answers : sent (exec (.hostCxlMemRequest .biRspI 64) recalled) = [(.cAck false, homeId)] ∧
    sent (exec (.hostCxlMemRequest .biRspI 64) snooped) = [(.ack, homeId)] ∧
    nextIs (exec (.hostCxlMemRequest .biConflict 64) recalled) (fun t => t.out == [.biConflictAck 64]) = true := by decide +kernel
theorem test_crossing_evict : nextIs (exec (.hostCxlMemRequest .clnEvct 64) recalled) (fun t => t.port.biStray == [64] && (t.coh.net.map (·.kind)) == [.putE]) = true := by
  decide +kernel
theorem test_host_reserved : nextIs (exec (.hostCxlMemRequest .rdShared (72 * 2 ^ 30 - 64)) { pooled with port := node.port })
    (fun t => t.out == [.memData (72 * 2 ^ 30 - 64) (List.replicate 64 0) true 0]) = true := by decide +kernel
def caching : State := { node with port := { node.port with hostCache := [{ line := 128, data := [] }] } }
theorem test_snpinv : nextIs (exec (.snpInv 128 [(128, 9)]) caching) (fun t => t.port.hostCache.isEmpty && t.out == [.snpRsp 128 0] && t.hostMem.byte 128 == 9) = true ∧
    nextIs (exec (.snpInv 128 []) node) (fun t => t.out == [.snpRsp 128 1]) = true := by decide +kernel
theorem test_snpdata : nextIs (exec (.snpData 128) caching) (fun t => t.out == [.snpRsp 128 2]) = true := by decide +kernel
theorem test_snpcur : nextIs (exec (.snpCur 128) caching) (fun t => t.out == [.snpRsp 128 3]) = true := by decide +kernel
theorem test_bisnp_timeout : nextIs (exec (.bisnpTimeout 64) (coherent [] (some { st := .MS_A, owner := 96 }) none)) (fun t => t.coh.toSweep == [96]) = true := by decide +kernel
/-- The host declared dead while it owns the line. -/
def sweepable : State := { node with coh := { (coherent [] (some { st := .M, owner := 96 }) none).coh with deadHost := true, toSweep := [96] } }
theorem test_reclaim_sweep : nextIs (exec (.reclaimSweep 96) sweepable) (fun t => t.coh.sweeping && t.coh.lost == 1 && (entryOf t 64).isNone &&
    nextIs (exec (.stackAccessDone 64) t) (fun u => u.poison == [64])) = true ∧
    nextIs (exec (.reclaimSweep 96) { sweepable with coh := { sweepable.coh with slices := [] } }) (fun t => t.poison.isEmpty && t.coh.lost == 0) = true := by decide +kernel
theorem test_sweep_done : nextIs (exec .reclaimSweepDone { node with coh := { toSweep := [96], sweeping := true } })
    (fun t => !t.coh.sweeping && t.coh.toSweep.isEmpty) = true := by decide +kernel
/-- A read of a line that a near-bank unit's sequence works on waits for the unit's boundary (R251). -/
def unitBusy : State := { nbuStarted with coh := { en := true, slices := [(0, { accesses := [{ line := 77309411328, write := false, data := [], mask := [], owed := none }] })] } }
theorem test_unit_boundary : runningUnit unitBusy 77309411328 = some 0 ∧ (stackOf unitBusy 1).retraining = false ∧
    nextIs (exec (.stackAccessDone 77309411328) unitBusy) (fun t => (tget (stackOf t 1).units 0).waiting == [77309411328]) = true := by decide +kernel

/-! Flue links and contexts. -/

/-- Node 5 with port 1 in a state; node 9 is reached by it. -/
def linked (p : FPort) : State := { node with
  topo := { node.topo with flue := 0xFF }, flue := { nodeId := 5, routes := [(9, 9)], ports := [(1, p)], qual := 3 } }
def upPort : FPort := { st := 3, cred0 := 256, cred1 := 256 }
def flit (kind seq : Nat) : Flit := { plainFlit kind with seq := seq, ackSeq := 4095 }
theorem test_port_training : nextIs (exec (.portTraining 1) (linked {})) (fun t => (portOf t 1).st == 2) = true ∧
    nextIs (exec (.portTraining 1) (linked { dead := true })) (fun t => (portOf t 1).st == 0) = true := by decide +kernel
theorem test_qualification : nextIs (exec (.qualificationEnd 1 8 0) (linked { st := 2 })) (fun t => (portOf t 1).st == 3 && (portOf t 1).cred0 == 256) = true ∧
    nextIs (exec (.qualificationEnd 1 9 0) (linked { st := 2 })) (fun t => (portOf t 1).st == 1 && (portOf t 1).failedQual == 1) = true := by decide +kernel
theorem test_fec_block : nextIs (exec (.fecBlock 1 false 4 []) (linked upPort)) (fun t => (portOf t 1).blockDrop == 1 && (portOf t 1).corrSym == 4) = true := by
  decide +kernel
/-- An IDLE flit with a correct CRC that returns two credits of VC 0. -/
def idleBytes : List Byte := args [(4, 0), (1, 2), (247, 0)] ++ le 4 (crc32c (args [(4, 0), (1, 2), (247, 0)])).toNat
set_option maxRecDepth 20000 in
theorem test_fec_block_good : (flitOf idleBytes).crcOk = true ∧ (flitOf idleBytes).kind = 0 ∧ (flitOf idleBytes).cred0 = 2 := by decide +kernel
/-- A message of one flit for this node, from node 9. -/
def mail (type : Nat) (body : List Byte) : FlueMsg :=
  { dst := 5, src := 9, dctx := 3, sctx := 4, mseq := 0, type := type, ttl := 8, gen := 0, corrid := 0, body := body }
def mailFlit (seq : Nat) : Flit := { flit 1 seq with vc := 1, som := true, eom := true, len := 34, payload := msgBytes (mail 0x11 [0, 0]) }
theorem test_message_bytes : messageOf (msgBytes (mail 0x11 [1, 2])) = mail 0x11 [1, 2] ∧ (msgFlits (mail 0x11 [1, 2])).length = 1 ∧ vcOf 0x11 = 1 := by
  decide +kernel
theorem test_data_flit : nextIs (exec (.dataFlit 1) (linked { upPort with rx := [mailFlit 0] }))
      (fun t => t.flue.inbox == [mail 0x11 [0, 0]] && (portOf t 1).expSeq == 1) = true ∧
    nextIs (exec (.dataFlit 1) (linked { upPort with rx := [mailFlit 4] })) (fun t => t.flue.inbox.isEmpty && (portOf t 1).asked &&
      (t.out.map fun o => match o with
        | .flit p f => (p, f.kind)
        | _ => (9, 9)) == [(1, 2)]) = true := by decide +kernel
theorem test_idle_flit : nextIs (exec (.idleFlit 1) (linked { upPort with cred0 := 10, rx := [{ flit 0 0 with cred0 := 2 }], unacked := [mailFlit 4095] }))
    (fun t => (portOf t 1).cred0 == 12 && (portOf t 1).unacked.isEmpty) = true := by decide +kernel
theorem test_retry_req : nextIs (exec (.retryReq 1) (linked { upPort with rx := [flit 2 0], unacked := [mailFlit 0], lastAsk := some 4095, askCount := 3 }))
      (fun t => (portOf t 1).askCount == 4 && t.out.length == 1) = true ∧
    nextIs (exec (.retryReq 1) (linked { upPort with rx := [flit 2 0], lastAsk := some 4095, askCount := 15 })) (fun t => (portOf t 1).st == 1 && (portOf t 1).drops == 1) = true := by
  decide +kernel
def passing (ttl : Nat) : FlueMsg := { mail 0x11 [] with dst := 9, ttl := ttl }
theorem test_forward : routePort (linked upPort) 9 = some 1 ∧
    nextIs (exec (.forward (passing 3)) { linked upPort with flue := { (linked upPort).flue with inbox := [passing 3] } })
      (fun t => t.flue.inbox.isEmpty && ((portOf t 1).unacked.map (·.payload)) == [msgBytes (passing 2)]) = true := by decide +kernel
theorem test_forward_drops : nextIs (exec (.forward (passing 0)) { linked upPort with flue := { (linked upPort).flue with inbox := [passing 0] } })
    (fun t => t.flue.fwdDrop == 1 && t.out.isEmpty) = true := by decide +kernel

/-- Node 5 with context 3 of pen 0 to context 4 of node 9; no port is up, so what it sends waits in the outbox. -/
def context (x : Ctx) (inbox : List FlueMsg) : State := { node with flue := { nodeId := 5, ctxs := [(3, { x with peer := 9, pctx := 4 })], inbox := inbox } }
def openCtx : Ctx := { st := 2 }
/-- The types of the messages sent. -/
def types (t : State) : List Nat := t.flue.outbox.map (·.type)
theorem witness_ctx_open : keyedAccepted node cSkex (kb 0x0300 (args [(2, 3), (2, 9), (2, 4), (2, 0), (2, 0), (2, 0), (4, 0x80000000)])) 0x0300 (fun _ => true) = true :=
  kb_accepted node 0x0300 _ _ rfl rfl (by decide +kernel) (by decide +kernel) rfl rfl
theorem test_ctx_open_args : ctxOpenOk (kb0 (args [(2, 3), (2, 9), (2, 4), (2, 0), (2, 0), (2, 0), (4, 0x80000000)])) = true ∧
    ctxOpenOk (kb0 (args [(2, 3), (2, 9), (2, 4), (2, 4)])) = false ∧ penCtxs node 0 = 0 := by decide +kernel
theorem test_close_ctx : (ctxOf (closeCtx (context openCtx []) 3) 3).st = 0 ∧ types (closeCtx (context openCtx []) 3) = [0x02] := by decide +kernel
theorem test_open_msg : nextIs (exec (.openMsg (mail 0x01 [1])) (context { st := 1, waiting := [mail 0x10 []] } [mail 0x01 [1]]))
    (fun t => (ctxOf t 3).st == 2 && types t == [0x01, 0x10]) = true := by decide +kernel
theorem test_open_rejected : nextIs (exec (.openMsg { mail 0x01 [1] with src := 8 }) (context { st := 1 } [{ mail 0x01 [1] with src := 8 }]))
    (fun t => (ctxOf t 3).st == 1 && t.flue.reject == 1) = true := by decide +kernel
theorem test_close : nextIs (exec (.close (mail 0x02 [])) (context openCtx [mail 0x02 []])) (fun t => (ctxOf t 3).st == 3) = true := by decide +kernel
theorem test_out_of_turn : nextIs (exec (.close { mail 0x02 [] with mseq := 7 }) (context openCtx [{ mail 0x02 [] with mseq := 7 }]))
    (fun t => (ctxOf t 3).st == 2 && types t == [0x03]) = true := by decide +kernel
theorem test_flue_ack : nextIs (exec (.flueAck (mail 0x03 (args [(4, 1), (4, 0)])))
    (context { openCtx with unacked0 := [{ mail 0x10 [] with mseq := 1 }, { mail 0x10 [] with mseq := 2 }] } [mail 0x03 (args [(4, 1), (4, 0)])]))
    (fun t => ((ctxOf t 3).unacked0.map (·.mseq)) == [2]) = true := by decide +kernel
theorem test_resend : nextIs (exec (.resendTimeout 3 0) (context { openCtx with unacked0 := [mail 0x10 []], wait0 := 40 } []))
    (fun t => (ctxOf t 3).wait0 == 64 && types t == [0x10]) = true := by decide +kernel
theorem test_peer_timeout : nextIs (exec (.peerTimeout 3) (context { openCtx with unacked0 := [mail 0x10 []] } [])) (fun t => (ctxOf t 3).st == 3 && (ctxOf t 3).unacked0.isEmpty) = true := by
  decide +kernel
def sendJob : Task := job 0x20 0 [.host 0x90000, .none, .none, .none, .none, .none] (BitVec.ofNat 64 (3 + 1 * 2 ^ 10 + 8 * 2 ^ 26))
theorem test_flue_send : nextIs (exec (.flueSend t1) (withTask { context openCtx [] with hostMem := Mem.write {} 0x90000 [7, 8] } sendJob))
      (fun t => types t == [0x10] && (t.flue.outbox.map (·.body)) == [args [(8, 8), (8, 0), (1, 7), (1, 8)]]) = true ∧
    nextIs (exec (.flueSend t1) (withTask (context { st := 3 } []) sendJob)) (ended stPeerLost 0) = true := by decide +kernel

/-! What messages do. -/

/-- Node 5 with context 3 OPEN and one object of pen 0. -/
def holding (x : Ctx) (num : Nat) (o : Obj) (m : FlueMsg) : State := { context { x with st := 2 } [m] with pens := [(0, { pen0 with objects := [(num, o)] })] }
def putMail : FlueMsg := mail 0x10 (args [(8, 4), (8, 77), (1, 6), (1, 7)])
theorem test_put : msgFits (holding { landing := some 2 } 2 buf2 putMail) putMail = true ∧
    nextIs (exec (.put putMail) (holding { landing := some 2 } 2 buf2 putMail)) (fun t => types t == [0x03, 0x11] &&
      t.mem.read (slotAddr 1 0 + 4) 2 == [6, 7] && (t.flue.outbox.map (·.body)).getLast? == some (le 2 stSuccess)) = true := by decide +kernel
theorem test_put_outside : nextIs (exec (.put putMail) (holding {} 2 buf2 putMail)) (fun t => types t == [0x03, 0x11] && t.mem.cells.isEmpty &&
    (t.flue.outbox.map (·.body)).getLast? == some (le 2 stInvalidField)) = true := by decide +kernel
def doneMail : FlueMsg := { mail 0x11 (le 2 stSuccess) with corrid := 65536 }
theorem test_put_done : nextIs (exec (.putDone doneMail) (withTask (holding {} 2 buf2 doneMail) { sendJob with run := .send 3 0, result := 2 })) (ended stSuccess 2) = true := by
  decide +kernel
def idxObj (x : Index) : Obj := { kind := .index x, bytes := 65536, homes := [.stack 3 0] }
def queryMail : FlueMsg := { mail 0x20 (args [(4, 10), (6, 1), (2, 0), (4, 2), (2, 4), (1, 1), (1, 1), (184, 0), (1, 0)]) with corrid := 6 }
theorem test_query_message : everFits (holding {} 10 (idxObj index0) queryMail) 0 oneTask = true ∧
    nextIs (exec (.queryMessage queryMail) (holding {} 10 (idxObj index0) queryMail)) (fun t => (t.drover.graphs.map fun g => (g.remote, g.tasks.map (·.typ))) ==
      [(some (3, 6), [0x10])]) = true := by decide +kernel
theorem test_query_not_found : nextIs (exec (.queryMessage queryMail) (holding {} 2 buf2 queryMail)) (fun t => t.drover.graphs.isEmpty && types t == [0x03, 0x21]) = true := by
  decide +kernel
/-- A fan-out with one shard, at node 9. -/
def fan : Walk := { pen := 0, object := 10, epoch := 1, p := { k := 2, list := 4 }, list := 4, shards := [{ node := 9, ctx := 3, object := 10, epoch := 1, corrid := 6, done := false, status := 0, epochUsed := 0, hits := [], counts := {}, flags := 0 }] }
def answerMail : FlueMsg := { mail 0x21 (args [(4, 0), (4, 2), (1, 0), (1, 1), (6, 0)] ++ answerEnd stEpochGone 0 0 {}) with corrid := 6 }
def fanning : State := withTask (holding {} 10 (idxObj index0) answerMail) { job 0x10 1 [.obj 10 0, .host 0x91000, .host 0x92000, .none, .none, .none] 0 with run := .walk fan }
theorem test_answer : (shardOf fanning 0 3 6).isSome = true ∧ nextIs (exec (.answer answerMail) fanning)
    (fun t => (taskOf t t1).any fun k => k.st == .finished && k.status == stEpochGone) = true := by decide +kernel
/-- A mirror's target with its epoch, and a deletion of vector 101 in the stream. -/
def target0 : Index := { index0 with target := true, mirrored := true, mirrorNode := 9, mirrorObject := 10 }
def mrecMail : FlueMsg := mail 0x30 (args [(4, 10), (8, 0), (1, 1), (1, 0), (6, 2), (8, 101)])
theorem test_mrec : (targetOf (holding {} 10 (idxObj target0) mrecMail) mrecMail).isSome = true ∧
    nextIs (exec (.mrec mrecMail) (holding {} 10 (idxObj target0) mrecMail)) (fun t => (indexOf t 0 (.obj 10 0)).any fun x => (tget? x.2.work.slots 1).any (·.tomb)) = true := by
  decide +kernel
def mcommitMail : FlueMsg := mail 0x31 (args [(4, 10), (8, 0), (1, 5), (1, 0), (6, 2)])
theorem test_mcommit : nextIs (exec (.mcommit mcommitMail) (holding {} 10 (idxObj target0) mcommitMail))
    (fun t => ((indexOf t 0 (.obj 10 0)).map (·.2.latest)) == some 2 && types t == [0x03, 0x32]) = true := by decide +kernel
def commit0 : Commit := { cmd := cSkex, report := .none, epoch := 2, snap := snap0, sealed := true, mackPending := true }
def primary0 : Index := { index0 with mirrored := true, mirrorNode := 9, mirrorObject := 12, commits := [commit0] }
def mackMail : FlueMsg := mail 0x32 (mackBody 12 2 stSuccess)
theorem test_mack : (primaryOf (holding {} 10 (idxObj primary0) mackMail) mackMail).isSome = true ∧
    nextIs (exec (.mack mackMail) (holding {} 10 (idxObj primary0) mackMail))
      (fun t => (indexOf t 0 (.obj 10 0)).any fun x => (x.2.commits.map (·.mackPending)) == [false]) = true := by decide +kernel
/-- Part 3 of a load, a key, with its CRC; the same with a wrong one. -/
def loadMail (crc : Nat) : FlueMsg := mail 0x33 (args [(4, 10), (1, 3), (3, 0), (4, crc), (8, 102), (5, 4)])
def unloadedTarget : Index := { target0 with epochs := [], work := {} }
def goodLoad : FlueMsg := loadMail (crc32c (args [(8, 102), (5, 4)])).toNat
theorem test_load : nextIs (exec (.load goodLoad) (holding {} 10 (idxObj unloadedTarget) goodLoad))
      (fun t => (indexOf t 0 (.obj 10 0)).any fun x => tget? x.2.work.keymap 102 == some 4) = true ∧
    nextIs (exec (.load (loadMail 1)) (holding {} 10 (idxObj unloadedTarget) (loadMail 1))) (fun t => t.flue.reject == 1) = true := by decide +kernel
/-- A buffer lent to context 3 at GEN 2. -/
def lent2 : Obj := { buf2 with lent := some { kind := 0, ctx := 3, borrower := 20, gen := 2 }, lentGen := 2 }
def rreadMail (gen : Nat) : FlueMsg := { mail 0x40 (args [(4, 2), (8, 4), (4, 2)]) with gen := gen, corrid := 8 }
def rwriteMail (gen : Nat) : FlueMsg := { mail 0x41 (args [(4, 2), (8, 4), (4, 2), (1, 6), (1, 7)]) with gen := gen, corrid := 8 }
theorem test_rread : nextIs (exec (.rread (rreadMail 2)) { holding {} 2 lent2 (rreadMail 2) with mem := Mem.write {} (slotAddr 1 0 + 4) [6, 7] })
      (fun t => types t == [0x03, 0x42] && (t.flue.outbox.map (·.body)).getLast? == some (le 4 stSuccess ++ [6, 7])) = true ∧
    nextIs (exec (.rread (rreadMail 1)) (holding {} 2 lent2 (rreadMail 1))) (fun t => (t.flue.outbox.map (·.body)).getLast? == some (le 4 stMapStale) && t.flue.stale == 1) = true := by
  decide +kernel
theorem test_rwrite : nextIs (exec (.rwrite (rwriteMail 2)) (holding {} 2 lent2 (rwriteMail 2))) (fun t => t.mem.read (slotAddr 1 0 + 4) 2 == [6, 7]) = true ∧
    nextIs (exec (.rwrite (rwriteMail 1)) (holding {} 2 lent2 (rwriteMail 1))) (fun t => t.mem.cells.isEmpty && t.flue.stale == 1) = true := by decide +kernel
def rrespMail : FlueMsg := { mail 0x42 (le 4 stSuccess) with corrid := 8 }
def copyingOut : State := withTask (holding {} 2 buf2 rrespMail) { job 0x04 0 [.obj 2 0, .obj 2 64, .none, .none, .none, .none] 2 with run := .remote [8] 0, result := 2 }
theorem test_rresp : (copyWaiting copyingOut 0 8).isSome = true ∧ nextIs (exec (.rresp rrespMail) copyingOut) (ended stSuccess 2) = true := by decide +kernel
def grantMail : FlueMsg := { mail 0x43 (args [(1, 1), (1, 0), (2, 20), (4, 2), (8, 65536)]) with gen := 2 }
theorem test_mapupd : nextIs (exec (.mapupd grantMail) (holding {} 2 buf2 grantMail)) (fun t => ((objOf t 0 20).map fun o => match o.kind with
    | .borrowed c o' g n => (c, o', g, n)
    | _ => (0, 0, 0, 0)) == some (3, 2, 2, 65536)) = true := by decide +kernel

theorem test_lend : lendOk (kb0 (args [(2, 2), (2, 0), (2, 3), (2, 0), (2, 20)])) = true ∧ inStacks buf2 = true ∧ homeFailed node buf2 = false ∧
    (let t := lendTo (context openCtx []) 0 2 0 3 20 cSkex
     types t = [0x43] ∧ ((objOf t 0 2).bind (·.lent)).map (fun l => (l.ctx, l.borrower, l.gen)) = some (3, 20, 1)) := by decide +kernel
def handing : State := holding {} 2 { buf2 with lent := some { kind := 2, ctx := 0, borrower := 0, gen := 3, handover := some cSkex }, lentGen := 3 } (mail 0 [])
theorem test_handover_done : nextIs (exec (.lendHandoverDone 0 2) handing) (fun t => ((objOf t 0 2).bind (·.lent)).isNone && (tget (ctlOf t 0).cqs 1).tail == 1) = true := by
  decide +kernel
theorem witness_mirror : opLost (holding {} 10 (idxObj primary0) mackMail) 0 (.obj 10 0) = false ∧ ctxTo (holding {} 10 (idxObj primary0) mackMail) 0 9 = some 3 ∧
    tget? target0.epochs target0.latest = some snap0 ∧ allZero (sub (kb0 (args [(2, 10)])).args 2 30) = true := by decide +kernel
/-- The lent buffer's line owned by engine 64: a read of it waits until the home has asked for the line. -/
def ownedLent : State := { holding {} 2 lent2 (rreadMail 2) with coh := { en := true, slices := [(0, { entries := [(slotAddr 1 0, { st := .M, owner := 64 })] })] } }
theorem test_rread_waits : servedNow ownedLent (rreadMail 2) = true ∧ readUnsettled ownedLent 0 (rreadMail 2) ≠ [] ∧
    readUnsettled (holding {} 2 lent2 (rreadMail 2)) 0 (rreadMail 2) = [] ∧
    nextIs (exec (.rread (rreadMail 2)) ownedLent) (fun t => t.flue.inbox == [rreadMail 2] && (t.coh.net.map (·.kind)) == [.rdC]) = true := by decide +kernel
/-- A flash-resident target answers a commit once the epoch is on the medium. -/
def flashTarget : Index := { target0 with desc := { capacity := 16, flash := true, channelMask := 1 } }
theorem test_mcommit_flash : nextIs (exec (.mcommit mcommitMail) (holding {} 10 (idxObj flashTarget) mcommitMail))
    (fun t => ((indexOf t 0 (.obj 10 0)).map fun x => (x.2.latest, x.2.landing.map (·.ctx))) == some (2, [some 3]) && types t == [0x03]) = true := by decide +kernel

/-! Health, losses, recording and replay. -/

def slackOf (gb bin : Nat) : State := { node with health := { gb := [(2, gb)], bin := [(2, bin)] } }
theorem witness_score : node.boot.ready = true := by decide +kernel
theorem test_margin_wide : nextIs (exec (.marginEvaluation (List.replicate 20 33)) node) (fun t => tgetD t.health.minSlack 7 0 == 33 && t.health.gb.isEmpty) = true := by
  decide +kernel
theorem test_margin_raises : nextIs (exec (.marginEvaluation (List.replicate 2 33 ++ [19] ++ List.replicate 17 33)) (slackOf 50 0))
    (fun t => tgetD t.health.gb 2 0 == 55 && t.health.log.length == 1) = true := by decide +kernel
theorem test_margin_lowers_bin : binLeft (slackOf 75 1) 2 = true ∧ binLeft (slackOf 75 4) 2 = false ∧
    (quadOf (evaluateDomain (slackOf 75 1) 2 10) 2).binStage = 1 ∧ (quadOf (evaluateDomain (slackOf 75 1) 2 10) 2).binNext = 2 := by decide +kernel
/-- Quad 2 on its way to bin 2. -/
def lowering (stage : Nat) : State := { node with quads := [(2, { binStage := stage, binNext := 2, tileMhz := binMhz 1 })], health := { bin := [(2, 1)] } }
theorem test_bin_quiesce : nextIs (exec (.binQuiesceDone 2) (lowering 1)) (fun t => (quadOf t 2).binStage == 2) = true := by decide +kernel
theorem test_pll_relock : nextIs (exec (.pllRelockDone 2) (lowering 2)) (fun t => (quadOf t 2).tileMhz == binMhz 2 && (quadOf t 2).binStage == 0 && tgetD t.health.bin 2 0 == 2) = true := by
  decide +kernel
theorem test_phy_retrain : nextIs (exec (.phyRetrain 3 14) node) (fun t => (stackOf t 3).retraining) = true ∧
    nextIs (exec (.phyRetrain 3 15) node) (fun t => !(stackOf t 3).retraining) = true := by decide +kernel
def retraining : State := { node with stks := [(3, { retraining := true })] }
theorem test_phy_retrain_done : nextIs (exec (.phyRetrainDone 3 20) retraining) (fun t => !(stackOf t 3).retraining && (stackOf t 3).phyRate == 0 && (stackOf t 3).retrains == 1) = true ∧
    nextIs (exec (.phyRetrainDone 3 14) retraining) (fun t => (stackOf t 3).phyRate == 1 && t.health.log.length == 2) = true := by decide +kernel
theorem test_unit_fault : unitUp node (.tile 3) = true ∧ nextIs (exec (.unitFault (.tile 3)) node) (fun t => !t.topo.tileOk.getLsbD 3 && t.topo.tileOk.getLsbD 4) = true := by
  decide +kernel
theorem test_node_fault : node.power.on &&& coreDomains = coreDomains ∧ nextIs (exec (.nodeFault 6 false) node)
    (fun t => t.health.st == 2 && t.health.cause == 6 && t.power.faultN && (canFetch t cSkex).isNone) = true := by decide +kernel
theorem witness_fenced : (sqOf (ctlOf { node with health := { st := 2, cause := 3 } } 0) 0).any sqPending = true ∧
    nextIs (exec (.getLogPage cAdmin 0xC0 0 64 [0x90000]) { node with health := { st := 2, cause := 3 } }) (fun t => (ctlOf t 0).adminCq.tail == 1) = true := by decide +kernel
theorem test_module_down : unitUp node (.d2d 16) = true ∧ nextIs (exec (.dieToDieModuleDown 16) node) (fun t => 16 ∈ t.topo.d2dDown) = true := by decide +kernel
theorem test_lane_failure : nextIs (exec (.laneFailure ⟨16, true⟩) node) (fun t => tgetD t.topo.d2dSpares 33 0 == 1) = true ∧
    nextIs (exec (.laneFailure ⟨16, false⟩) { node with topo := { node.topo with d2dSpares := [(32, 4)] } }) (fun t => 16 ∈ t.topo.d2dDown) = true ∧
    domainOn node domSPN = true := by decide +kernel
def rerouting : State := { node with topo := { node.topo with d2dDown := [16], d2dDraining := [4] } }
theorem test_route_list : nextIs (exec (.routeListResume 4) rerouting) (fun t => tget t.topo.d2dList 4 == [17] && t.topo.d2dDraining.isEmpty) = true := by decide +kernel

/-- A ring of 2^16 bytes at 0x400000, and a node that records into it. -/
def rec0 : TRec := { kind := 4, stream := 34, sseq := 7, body := [1, 2, 3] }
def ringed (t : Trace) : State := { node with trace := { t with log := 16, addr := 0x400000 } }
theorem test_ring_record : rec0.body.length < 65536 ∧ recLen rec0 = 24 ∧ recLen rec0 ≤ ringSize (ringed {}) ∧
    (ringPut (ringed { rprod := ringSize (ringed {}) - 16 }) rec0).trace.rprod = 8 := by decide +kernel
theorem test_trc_go : nextIs (exec .trcGo (ringed { recording := true, headBuf := [rec0] })) (fun t => t.trace.go && t.trace.headBuf.isEmpty && t.trace.rprod == 24) = true := by
  decide +kernel
theorem test_trc_replay : nextIs (exec .trcReplay (ringed { rprod := 64 })) (fun t => t.trace.replay && t.trace.rprod == 0) = true ∧
    nextIs (exec .trcReplay (ringed { touched := true })) (fun t => !t.trace.replay) = true := by decide +kernel
theorem test_trc_rprod : nextIs (exec (.trcRprodWrite 96 [(0x400000, 4)]) (ringed {})) (fun t => t.trace.rprod == 96 && t.hostMem.byte 0x400000 == 4) = true ∧
    nextIs (exec (.trcRprodWrite 96 []) (ringed { recording := true, rprod := 32 })) (fun t => t.trace.rprod == 32) = true := by decide +kernel
/-- In replay: a FLUEIN record of a PUT of stream 34. -/
theorem test_replay_supplies : nextIs (exec (.trcRprodWrite 72 ((List.range 66).zip
      (args [(1, 4), (1, 0), (2, 50), (2, 34), (2, 0), (4, 0), (4, 0)] ++ msgBytes putMail) |>.map fun x => (0x400000 + x.1, x.2))) (ringed { replay := true }))
    (fun t => t.flue.inbox == [putMail] && t.trace.rcons == 72) = true := by decide +kernel
theorem test_trc_rcons : nextIs (exec (.trcRconsWrite 64) (ringed { recording := true, go := true, stalled := true, rprod := 64 })) (fun t => t.trace.rcons == 64 && !t.trace.stalled) = true := by
  decide +kernel
theorem test_hostmem : nextIs (exec (.hostCxlMemRequest (.wr ones allMask) 64) (ringed { recording := true })) (fun t => t.trace.hostmem == 1) = true := by
  decide +kernel

/-! Well-formedness: each check refuses a term that breaks it, and lets its boundary through. -/

def badMsg : FlueMsg := { mail 0x10 [] with sctx := 1024 }
def badBlock : KBlock := { kb0 [] with tag := List.replicate 15 0 }
def goodBlock : KBlock := { kb0 [] with tag := List.replicate 16 0 }
def badErr : BusErr := { addr := 0, write := false, kind := 6, target := 0 }
def goodErr : BusErr := { badErr with kind := 5, target := 2 }
theorem wf_refuses_numbers : ([.arrayTest 64 0, .arrayTest 0 4, .binQuiesceDone 4, .phyRetrain 20 0, .phyRetrain 0 101, .microOp 0 128 false, .rebuildDone 32,
    .dmaEnable 64, .portTraining 8, .peerTimeout 1024, .penResetEnd 256, .seal 0 32768, .vectorTimeExpiry 4096, .laneFailure ⟨24, false⟩, .routeListResume 8, .railFault 20,
    .resendTimeout 0 2, .foldStart 0 64, .readLevelReplan 0 0 16 [], .migrationCommit 0 256, .nodeFault 0 false, .nodeFault 7 false, .unsupportedSpdmRequest 256,
    .trcRconsWrite (2 ^ 40), .descriptorComplete 0 65536, .getCertificate 8 0 0, .inputPowerSample 65536 0 0 (List.replicate 20 (0, 0))] : List Instr).all
    (fun i => !i.wf) = true := by decide +kernel
theorem wf_accepts_numbers : ([.arrayTest 63 3, .binQuiesceDone 3, .phyRetrain 19 100, .microOp 19 127 false, .rebuildDone 31, .dmaEnable 63, .portTraining 7,
    .peerTimeout 1023, .penResetEnd 255, .seal 255 32767, .vectorTimeExpiry 4095, .laneFailure ⟨23, true⟩, .routeListResume 7, .railFault 19, .resendTimeout 1023 1, .foldStart 31 63,
    .readLevelReplan 0 63 15 [], .migrationCommit 3 255, .nodeFault 6 false, .unsupportedSpdmRequest 255, .trcRconsWrite (2 ^ 40 - 1), .descriptorComplete 63 65535,
    .getCertificate 7 0 0] : List Instr).all Instr.wf = true := by decide +kernel
theorem wf_refuses_lists : ([.thermalSample [0, 0, 0] 0 (List.replicate 20 0), .thermalSample [0, 0, 0, 256] 0 (List.replicate 20 0), .marginEvaluation [],
    .flashTemperatureSample [0], .phaseTrain [] [] [], .phaseClear [65], .phaseTest [.tile 64] [], .phasePower [20], .challenge 0 [], .getMeasurements 0 false [],
    .keyExchange [], .fecBlock 0 true 0 [], .pageReadDone 0 0 (List.replicate 5 true), .datasetManagement cIo (List.replicate 257 (0, 0)) true,
    .write cIo 0 0 false [], .read cIo 0 65537 [], .read cIo 0 1 [0, 1], .patrolScrub 0 [72 * 2 ^ 24] ⟨[], true⟩] : List Instr).all (fun i => !i.wf) = true := by decide +kernel
theorem wf_accepts_lists : ([.thermalSample [0, 0, 0, 255] 0 (List.replicate 20 0), .marginEvaluation (List.replicate 20 0), .flashTemperatureSample [0, 0, 0, 0],
    .phaseClear [64], .challenge 7 (List.replicate 32 0), .keyExchange (List.replicate 64 0), .pageReadDone 0 0 (List.replicate 4 true),
    .write cIo 0 65536 false [1, 4096], .patrolScrub 19 [72 * 2 ^ 24 - 1] ⟨[], true⟩] : List Instr).all Instr.wf = true := by decide +kernel
theorem wf_refuses_blocks : ([.cfgErase cSkex badBlock, .cfgErase { cSkex with ctl := 512 } goodBlock, .cfgErase { cSkex with cid := 65536 } goodBlock,
    .undefinedControlCode { cSkex with sq := 65536 } 0 goodBlock, .put badMsg, .openMsg { mail 1 [] with dst := 1024 }, .busError 0 0 none badErr,
    .busError 0 0 none { badErr with kind := 0, target := 3 }, .errinfoClear 0 (some (0, none, badErr)), .unitFault (.array 0 4), .unitFault (.nearBank 0 128),
    .unitFault (.target 0 16), .submit cSkex (.obj 32768 0), .submit cSkex (.host (2 ^ 62)), .submit cSkex (.scratch 256 0)] : List Instr).all (fun i => !i.wf) = true := by
  decide +kernel
theorem wf_accepts_blocks : ([.cfgErase { cSkex with ctl := 511 } goodBlock, .put (mail 0x10 []), .busError 63 65535 none goodErr, .unitFault (.array 63 3), .unitFault (.nearBank 19 127),
    .unitFault (.target 31 15), .submit cSkex (.obj 32767 (2 ^ 47 - 1)), .submit cSkex .none] : List Instr).all Instr.wf = true := by decide +kernel
theorem wf_refuses_lines : ([.rds 97 64, .rds 1 65, .clr (20 * 72 * 2 ^ 30), .agentStore 1 64 [] [], .hostCxlMemRequest (.wr [] []) 64, .snpData 1, .bisnpTimeout 1,
    .memberAck 1 64 97, .reclaimLatchClear (some 1), .poisonLatchClear (some (72 * 2 ^ 24))] : List Instr).all (fun i => !i.wf) = true := by decide +kernel
theorem wf_accepts_lines : ([.rds 96 64, .rds 129 0, .clr (20 * 72 * 2 ^ 30 - 64), .agentStore 1 64 ones allMask, .hostCxlMemRequest (.wr ones allMask) 64,
    .reclaimLatchClear (some 128), .poisonLatchClear none] : List Instr).all Instr.wf = true := by decide +kernel
theorem wf_registers_and_queues : Instr.wf (.registerWrite 8 true 0) = true ∧ Instr.wf (.registerWrite 4 true 0) = false ∧ Instr.wf (.registerWrite 4 false 0) = true ∧
    Instr.wf (.registerWrite 2 false 0) = false ∧ Instr.wf (.controllerEnable 0 4096 4096 4096 4096) = true ∧ Instr.wf (.controllerEnable 0 1 4096 0 4096) = false ∧
    Instr.wf (.createIoSq cAdmin 1 4096 65536 1 true) = true ∧ Instr.wf (.createIoSq cAdmin 1 8 16 1 true) = false ∧ Instr.wf (.hostLinkUp false 16 2 true) = true ∧
    Instr.wf (.hostLinkUp false 17 2 true) = false ∧ Instr.wf (.sqTailDoorbell 0 65536 0 []) = false ∧ Instr.wf (.invalidCommandOpcode cIo 256) = false := by decide +kernel

/-! Words. -/

theorem test_no_row_has_bits : decodeTableWord 0 0 = none ∧ decodeTableWord 32 1 = none := by decide +kernel

end Sys2Proof.Tests
end

section
/-!
PROOFS. Every command is performed (O6). A spec lemma for each form that commands share and for each command with cases of its own
says that its outcome is a next state, branch by branch of its definition; exec is put together from them.
-/

namespace Sys2Proof.Machine

/-- A command's outcome is a next state: the node neither stops nor refuses. -/
def Proceeds (r : Res) : Prop := ∃ t, r = .next t

theorem Proceeds.next (s : State) : Proceeds (.next s) := ⟨s, rfl⟩

theorem Proceeds.ite {c : Prop} [Decidable c] {a b : Res} (ha : Proceeds a) (hb : Proceeds b) :
    Proceeds (if c then a else b) := by
  split
  · exact ha
  · exact hb

/-! The forms that commands share. -/

theorem actWhen_proceeds (c : Bool) (s t : State) : Proceeds (actWhen c s t) := .next _

theorem withCmd_proceeds (s : State) (c : Cmd) (f : State → Nat → State) : Proceeds (withCmd s c f) := by
  fun_cases withCmd s c f <;> exact .next _

theorem withIo_proceeds (s : State) (c : Cmd) (f : State → Nat → State) : Proceeds (withIo s c f) := withCmd_proceeds ..

theorem withAdmin_proceeds (s : State) (c : Cmd) (f : State → State) : Proceeds (withAdmin s c f) := withCmd_proceeds ..

theorem withSkex_proceeds (s : State) (c : Cmd) (f : State → Nat → State) : Proceeds (withSkex s c f) := withCmd_proceeds ..

theorem withKeyed_proceeds (s : State) (c : Cmd) (b : KBlock) (code : Nat) (permit : Nat → Bool) (f : State → Nat → State) :
    Proceeds (withKeyed s c b code permit f) := withCmd_proceeds ..

theorem withKeyedArgs_proceeds (s : State) (c : Cmd) (b : KBlock) (code : Nat) (permit : Nat → Bool) (ok : Bool)
    (f : State → Nat → State) : Proceeds (withKeyedArgs s c b code permit ok f) :=
  .ite (withKeyed_proceeds ..) (withKeyed_proceeds ..)

theorem withSpdm_proceeds (s : State) (f : State → State) : Proceeds (withSpdm s f) := .ite (.next _) (.next _)

theorem onMsg_proceeds (s : State) (m : FlueMsg) (type : Nat) (f : State → State) : Proceeds (onMsg s m type f) := by
  fun_cases onMsg s m type f <;> exact .next _

theorem requestRow_proceeds (s : State) (k : MsgKind) (r l : Nat) : Proceeds (requestRow s k r l) := by
  fun_cases requestRow s k r l <;> exact .next _

theorem recallRow_proceeds (a l : Nat) (k : MsgKind) (keep : Bool) (s : State) : Proceeds (recallRow a l k keep s) := by
  fun_cases recallRow a l k keep s <;> exact .next _

theorem dataRow_proceeds (a l : Nat) (k : MsgKind) (st : AState) (s : State) : Proceeds (dataRow a l k st s) := by
  fun_cases dataRow a l k st s <;> exact .next _

theorem hostMemRow_proceeds (req : CxlReq) (l : Nat) (s : State) : Proceeds (hostMemRow req l s) := by
  fun_cases hostMemRow req l s <;> exact .next _

theorem endProgram_proceeds (channel op : Nat) (pass : Bool) (s : State) : Proceeds (endProgram channel op pass s) := by
  fun_cases endProgram channel op pass s <;> exact .next _

/-! Coherence: the home (10). -/

theorem execPutb_proceeds (r line : Nat) (s : State) : Proceeds (execPutb r line s) := by
  fun_cases execPutb r line s <;> exact .next _

theorem execPute_proceeds (r line : Nat) (s : State) : Proceeds (execPute r line s) := by
  fun_cases execPute r line s <;> exact .next _

theorem execPutm_proceeds (r line : Nat) (s : State) : Proceeds (execPutm r line s) := by
  fun_cases execPutm r line s <;> exact .next _

theorem execAck_proceeds (r line : Nat) (s : State) : Proceeds (execAck r line s) := by
  fun_cases execAck r line s <;> exact .next _

theorem execWbd_proceeds (r line : Nat) (s : State) : Proceeds (execWbd r line s) := by
  fun_cases execWbd r line s <;> exact .next _

theorem execCack_proceeds (r line : Nat) (s : State) : Proceeds (execCack r line s) := by
  fun_cases execCack r line s <;> exact .next _

theorem execStackAccessDone_proceeds (line : Nat) (s : State) : Proceeds (execStackAccessDone line s) := by
  fun_cases execStackAccessDone line s <;> exact .next _

theorem execBisnpTimeout_proceeds (line : Nat) (s : State) : Proceeds (execBisnpTimeout line s) := by
  fun_cases execBisnpTimeout line s <;> exact .next _

/-! Coherence: the agents (10). -/

theorem execInv_proceeds (a line : Nat) (s : State) : Proceeds (execInv a line s) := by
  fun_cases execInv a line s <;> exact .next _

theorem execMemberAck_proceeds (a line member : Nat) (s : State) : Proceeds (execMemberAck a line member s) := by
  fun_cases execMemberAck a line member s <;> exact .next _

theorem execDataE_proceeds (a line : Nat) (s : State) : Proceeds (execDataE a line s) := by
  fun_cases execDataE a line s <;> exact .next _

theorem execCmp_proceeds (a line : Nat) (s : State) : Proceeds (execCmp a line s) := by
  fun_cases execCmp a line s <;> exact .next _

theorem execAgentReplace_proceeds (a line : Nat) (s : State) : Proceeds (execAgentReplace a line s) := by
  fun_cases execAgentReplace a line s <;> exact .next _

/-! NVMe (12). -/

/-- While the node is fenced GET_LOG_PAGE of page 0xC0 is fetched past the other commands (R442). -/
theorem execGetLogPage_proceeds (c : Cmd) (lid offset length : Nat) (prp : List Nat) (s : State) :
    Proceeds (execGetLogPage c lid offset length prp s) := by
  unfold execGetLogPage
  extract_lets f
  split
  · exact .ite (.next _) (withAdmin_proceeds ..)
  · exact .next _

theorem execWriteBufferDrain_proceeds (channel : Nat) (s : State) : Proceeds (execWriteBufferDrain channel s) := by
  fun_cases execWriteBufferDrain channel s <;> exact .next _

/-! The flash media (11). -/

theorem execRebuild_proceeds (channel : Nat) (segment : Option Nat) (s : State) : Proceeds (execRebuild channel segment s) := by
  fun_cases execRebuild channel segment s <;> exact .next _

theorem execBaleMoveDone_proceeds (copy : Nat) (ok : Bool) (s : State) : Proceeds (execBaleMoveDone copy ok s) := by
  fun_cases execBaleMoveDone copy ok s <;> exact .next _

theorem execWriteBackDone_proceeds (copy : Nat) (s : State) : Proceeds (execWriteBackDone copy s) := by
  fun_cases execWriteBackDone copy s <;> exact .next _

theorem execPageReadDone_proceeds (channel op : Nat) (decoded : List Bool) (s : State) :
    Proceeds (execPageReadDone channel op decoded s) := by
  fun_cases execPageReadDone channel op decoded s <;> exact .next _

theorem execProgramDone_proceeds (channel op : Nat) (pass : Bool) (s : State) : Proceeds (execProgramDone channel op pass s) := by
  fun_cases execProgramDone channel op pass s
  · exact .next _
  · exact endProgram_proceeds ..

theorem execEraseDone_proceeds (channel op : Nat) (pass : Bool) (s : State) : Proceeds (execEraseDone channel op pass s) := by
  fun_cases execEraseDone channel op pass s <;> exact .next _

theorem execFoldStart_proceeds (channel lun : Nat) (s : State) : Proceeds (execFoldStart channel lun s) := by
  fun_cases execFoldStart channel lun s <;> exact .next _

theorem execCheckpointStart_proceeds (channel : Nat) (s : State) : Proceeds (execCheckpointStart channel s) := by
  fun_cases execCheckpointStart channel s <;> exact .next _

/-! Graphs and control tasks (02). -/

theorem execGraphAccept_proceeds (ctl sq : Nat) (s : State) : Proceeds (execGraphAccept ctl sq s) := by
  fun_cases execGraphAccept ctl sq s <;> exact .next _

theorem execNop_proceeds (t : TaskId) (s : State) : Proceeds (execNop t s) := by
  fun_cases execNop t s <;> exact .next _

theorem execFence_proceeds (t : TaskId) (s : State) : Proceeds (execFence t s) := by
  fun_cases execFence t s <;> exact .next _

theorem execAlloc_proceeds (t : TaskId) (s : State) : Proceeds (execAlloc t s) := by
  fun_cases execAlloc t s <;> exact .next _

theorem execFree_proceeds (t : TaskId) (s : State) : Proceeds (execFree t s) := by
  fun_cases execFree t s <;> exact .next _

/-! MERGE (04). -/

theorem execMerge_proceeds (t : TaskId) (s : State) : Proceeds (execMerge t s) := by
  fun_cases execMerge t s <;> exact .next _

/-! Index updates (05). -/

theorem execInsert_proceeds (t : TaskId) (s : State) : Proceeds (execInsert t s) := by
  fun_cases execInsert t s <;> exact .next _

theorem execIndexCreate_proceeds (t : TaskId) (s : State) : Proceeds (execIndexCreate t s) := by
  fun_cases execIndexCreate t s <;> exact .next _

theorem execIndexOpen_proceeds (t : TaskId) (s : State) : Proceeds (execIndexOpen t s) := by
  fun_cases execIndexOpen t s <;> exact .next _

theorem execRebuildIndex_proceeds (t : TaskId) (s : State) : Proceeds (execRebuildIndex t s) := by
  fun_cases execRebuildIndex t s <;> exact .next _

theorem execDelete_proceeds (t : TaskId) (s : State) : Proceeds (execDelete t s) := by
  fun_cases execDelete t s <;> exact .next _

theorem execDestroy_proceeds (t : TaskId) (s : State) : Proceeds (execDestroy t s) := by
  fun_cases execDestroy t s <;> exact .next _

theorem execRepairSweepNow_proceeds (t : TaskId) (s : State) : Proceeds (execRepairSweepNow t s) := by
  fun_cases execRepairSweepNow t s <;> exact .next _

theorem execSeal_proceeds (pen object : Nat) (s : State) : Proceeds (execSeal pen object s) := by
  fun_cases execSeal pen object s <;> exact .next _

theorem execCommitComplete_proceeds (pen object : Nat) (s : State) : Proceeds (execCommitComplete pen object s) := by
  fun_cases execCommitComplete pen object s <;> exact .next _

theorem execSweepEnd_proceeds (pen object : Nat) (s : State) : Proceeds (execSweepEnd pen object s) := by
  fun_cases execSweepEnd pen object s <;> exact .next _

/-! Copies and the DMA engine (14). -/

theorem execCopy_proceeds (t : TaskId) (s : State) : Proceeds (execCopy t s) := by
  fun_cases execCopy t s <;> exact .next _

theorem execFill_proceeds (t : TaskId) (s : State) : Proceeds (execFill t s) := by
  fun_cases execFill t s <;> exact .next _

theorem execDescriptorComplete_proceeds (channel index : Nat) (s : State) : Proceeds (execDescriptorComplete channel index s) :=
    by
  fun_cases execDescriptorComplete channel index s <;> exact .next _

theorem execErrinfoClear_proceeds (channel : Nat) (sameCycle : Option (Nat × Option TaskId × BusErr)) (s : State) :
    Proceeds (execErrinfoClear channel sameCycle s) := by
  fun_cases execErrinfoClear channel sameCycle s <;> exact .next _

/-! Search (03). -/

theorem execQuery_proceeds (t : TaskId) (s : State) : Proceeds (execQuery t s) := by
  fun_cases execQuery t s <;> exact .next _

theorem execWalkRound_proceeds (t : TaskId) (s : State) : Proceeds (execWalkRound t s) := by
  fun_cases execWalkRound t s <;> exact .next _

theorem execFlashWalkRound_proceeds (t : TaskId) (s : State) : Proceeds (execFlashWalkRound t s) := by
  fun_cases execFlashWalkRound t s <;> exact .next _

theorem execEnginePageExpand_proceeds (t : TaskId) (channel page : Nat) (s : State) :
    Proceeds (execEnginePageExpand t channel page s) := by
  fun_cases execEnginePageExpand t channel page s <;> exact .next _

theorem execHop_proceeds (t : TaskId) (channel : Nat) (s : State) : Proceeds (execHop t channel s) := by
  fun_cases execHop t channel s <;> exact .next _

theorem execRerank_proceeds (t : TaskId) (s : State) : Proceeds (execRerank t s) := by
  fun_cases execRerank t s <;> exact .next _

/-! Fan-out (03). -/

theorem execFanOutQuery_proceeds (t : TaskId) (s : State) : Proceeds (execFanOutQuery t s) := by
  fun_cases execFanOutQuery t s <;> exact .next _

/-! Models and vector tasks (08). -/

theorem execModelRun_proceeds (t : TaskId) (s : State) : Proceeds (execModelRun t s) := by
  fun_cases execModelRun t s <;> exact .next _

theorem execModelCreate_proceeds (t : TaskId) (s : State) : Proceeds (execModelCreate t s) := by
  fun_cases execModelCreate t s <;> exact .next _

theorem execModelDestroy_proceeds (t : TaskId) (s : State) : Proceeds (execModelDestroy t s) := by
  fun_cases execModelDestroy t s <;> exact .next _

theorem execVectorStep_proceeds (t : TaskId) (s : State) : Proceeds (execVectorStep t s) := by
  fun_cases execVectorStep t s <;> exact .next _

theorem execVectorFilter_proceeds (t : TaskId) (s : State) : Proceeds (execVectorFilter t s) := by
  fun_cases execVectorFilter t s <;> exact .next _

theorem execTokenize_proceeds (t : TaskId) (s : State) : Proceeds (execTokenize t s) := by
  fun_cases execTokenize t s <;> exact .next _

theorem execPack_proceeds (t : TaskId) (s : State) : Proceeds (execPack t s) := by
  fun_cases execPack t s <;> exact .next _

/-! Near-bank units (09). -/

theorem execNbuSeq_proceeds (t : TaskId) (s : State) : Proceeds (execNbuSeq t s) := by
  fun_cases execNbuSeq t s <;> exact .next _

theorem execMicroOp_proceeds (stack unit : Nat) (parityFail : Bool) (s : State) : Proceeds (execMicroOp stack unit parityFail s)
    := by
  fun_cases execMicroOp stack unit parityFail s <;> exact .next _

/-! Tables (08). -/

theorem execGather_proceeds (t : TaskId) (s : State) : Proceeds (execGather t s) := by
  fun_cases execGather t s <;> exact .next _

theorem execScatterWrite_proceeds (t : TaskId) (s : State) : Proceeds (execScatterWrite t s) := by
  fun_cases execScatterWrite t s <;> exact .next _

theorem execScatterAdd_proceeds (t : TaskId) (s : State) : Proceeds (execScatterAdd t s) := by
  fun_cases execScatterAdd t s <;> exact .next _

theorem execTableCreate_proceeds (t : TaskId) (s : State) : Proceeds (execTableCreate t s) := by
  fun_cases execTableCreate t s <;> exact .next _

theorem execTableDestroy_proceeds (t : TaskId) (s : State) : Proceeds (execTableDestroy t s) := by
  fun_cases execTableDestroy t s <;> exact .next _

theorem execClone_proceeds (t : TaskId) (s : State) : Proceeds (execClone t s) := by
  fun_cases execClone t s <;> exact .next _

theorem execMigrationStart_proceeds (quad pen object base row : Nat) (s : State) :
    Proceeds (execMigrationStart quad pen object base row s) := by
  fun_cases execMigrationStart quad pen object base row s <;> exact .next _

theorem execMigrationCopyEnd_proceeds (quad entry : Nat) (s : State) : Proceeds (execMigrationCopyEnd quad entry s) := by
  fun_cases execMigrationCopyEnd quad entry s <;> exact .next _

theorem execMigrationCommit_proceeds (quad entry : Nat) (s : State) : Proceeds (execMigrationCommit quad entry s) := by
  fun_cases execMigrationCommit quad entry s <;> exact .next _

/-! Lending (15). -/

theorem execLendHandoverDone_proceeds (pen object : Nat) (s : State) : Proceeds (execLendHandoverDone pen object s) := by
  fun_cases execLendHandoverDone pen object s <;> exact .next _

/-! Flue contexts (15). -/

theorem execFlueSend_proceeds (t : TaskId) (s : State) : Proceeds (execFlueSend t s) := by
  fun_cases execFlueSend t s <;> exact .next _

theorem execOpenMsg_proceeds (m : FlueMsg) (s : State) : Proceeds (execOpenMsg m s) := by
  fun_cases execOpenMsg m s <;> exact .next _

theorem execFlueAck_proceeds (m : FlueMsg) (s : State) : Proceeds (execFlueAck m s) := by
  fun_cases execFlueAck m s <;> exact .next _

/-! The host port (12). -/

theorem execSqTailDoorbell_proceeds (ctl sq tail : Nat) (writes : List (Nat × Byte)) (s : State) :
    Proceeds (execSqTailDoorbell ctl sq tail writes s) := by
  fun_cases execSqTailDoorbell ctl sq tail writes s <;> exact .next _

theorem execCqHeadDoorbell_proceeds (ctl cq head : Nat) (s : State) : Proceeds (execCqHeadDoorbell ctl cq head s) := by
  fun_cases execCqHeadDoorbell ctl cq head s <;> exact .next _

theorem execRecordQueueHeadDoorbell_proceeds (ctl sq head : Nat) (s : State) :
    Proceeds (execRecordQueueHeadDoorbell ctl sq head s) := by
  fun_cases execRecordQueueHeadDoorbell ctl sq head s <;> exact .next _

/-! Resets (13, 16). -/

theorem execWarmResetBegin_proceeds (s : State) : Proceeds (execWarmResetBegin s) := by
  fun_cases execWarmResetBegin s <;> exact .next _

/-! Startup (16). -/

theorem execPhaseImage_proceeds (s : State) : Proceeds (execPhaseImage s) := by
  fun_cases execPhaseImage s <;> exact .next _

/-! Flash tasks (11). -/

theorem execFlashRead_proceeds (t : TaskId) (s : State) : Proceeds (execFlashRead t s) := by
  fun_cases execFlashRead t s <;> exact .next _

theorem execFlashWrite_proceeds (t : TaskId) (s : State) : Proceeds (execFlashWrite t s) := by
  fun_cases execFlashWrite t s <;> exact .next _

theorem execDeallocate_proceeds (t : TaskId) (s : State) : Proceeds (execDeallocate t s) := by
  fun_cases execDeallocate t s <;> exact .next _

/-! Flue ports (15). -/

theorem execDataFlit_proceeds (port : Nat) (s : State) : Proceeds (execDataFlit port s) := by
  fun_cases execDataFlit port s <;> exact .next _

theorem execIdleFlit_proceeds (port : Nat) (s : State) : Proceeds (execIdleFlit port s) := by
  fun_cases execIdleFlit port s <;> exact .next _

theorem execRetryReq_proceeds (port : Nat) (s : State) : Proceeds (execRetryReq port s) := by
  fun_cases execRetryReq port s <;> exact .next _

theorem execForward_proceeds (m : FlueMsg) (s : State) : Proceeds (execForward m s) := by
  fun_cases execForward m s <;> exact .next _

/-! Matrix arrays (06). -/

theorem execMatmul_proceeds (t : TaskId) (s : State) : Proceeds (execMatmul t s) := by
  fun_cases execMatmul t s <;> exact .next _

theorem execArrayUnit_proceeds (t : TaskId) (array part : Nat) (residueFail accCorr accUncorr : Bool) (s : State) :
    Proceeds (execArrayUnit t array part residueFail accCorr accUncorr s) := by
  fun_cases execArrayUnit t array part residueFail accCorr accUncorr s <;> exact .next _

/-! Units that leave service (17). -/

theorem execTaskComplete_proceeds (t : TaskId) (x : TaskEnd) (s : State) : Proceeds (execTaskComplete t x s) := by
  fun_cases execTaskComplete t x s <;> exact .next _

theorem execReclaimSweepDone_proceeds (s : State) : Proceeds (execReclaimSweepDone s) := by
  fun_cases execReclaimSweepDone s <;> exact .next _

theorem execUnitFault_proceeds (u : HwUnit) (s : State) : Proceeds (execUnitFault u s) := by
  fun_cases execUnitFault u s <;> exact .next _

/-! Health and the latches (17). -/

theorem execPoisonLatchClear_proceeds (sameCycle : Option Nat) (s : State) : Proceeds (execPoisonLatchClear sameCycle s) := by
  fun_cases execPoisonLatchClear sameCycle s <;> exact .next _

theorem execReclaimLatchClear_proceeds (sameCycle : Option Nat) (s : State) : Proceeds (execReclaimLatchClear sameCycle s) := by
  fun_cases execReclaimLatchClear sameCycle s <;> exact .next _

theorem execPhyRetrainDone_proceeds (stack margin : Nat) (s : State) : Proceeds (execPhyRetrainDone stack margin s) := by
  fun_cases execPhyRetrainDone stack margin s <;> exact .next _

/-! Power and sensors (18). -/

theorem execThermalSample_proceeds (quads : List Nat) (hub : Nat) (stackTemps : List Nat) (s : State) :
    Proceeds (execThermalSample quads hub stackTemps s) := by
  fun_cases execThermalSample quads hub stackTemps s <;> exact .next _

/-! SPDM (16). -/

theorem execGetMeasurements_proceeds (index : Nat) (sign : Bool) (nonce : List Byte) (s : State) :
    Proceeds (execGetMeasurements index sign nonce s) := by
  fun_cases execGetMeasurements index sign nonce s <;> exact .next _

/-! The machine. -/

/-- The arms of exec, by form: a condition, a fetched command, a received message, or an act with cases of its own. -/
theorem exec_proceeds (i : Instr) (s : State) : Proceeds (exec i s) := by
  unfold exec
  cases i with
  | turnOn | perst | railFault | inputPowerSample | vectorTimeExpiry | penVmodWrite | hostLinkUp | linkDown | cxlReset
  | controllerReset | controllerEnable | sanitizeEnd | taskIssue | arrayTest | arrayTestRequest | refreshDue | sketchHalving
  | agentLoad | agentStore | gcStart | readLevelReplan | dmaEnable | dmaStop | dmaRestart | dmaTest | dmaDoorbell
  | dmaCqheadWrite | descriptorFetchDone | portTraining | peerTimeout | scoreRecompute | marginEvaluation | binQuiesceDone
  | pllRelockDone | phyRetrain | dieToDieModuleDown | routeListResume | nodeFault | trcReplay | resetNHigh | laneFailure =>
    exact actWhen_proceeds ..
  | phasePower | phaseTrain | phaseClear | phaseTest | getVersion | getCapabilities | penResetEnd | arrayTestDone
  | patrolScrub | reclaimSweep | kindlingPad | dmaTestDone | trcGo | trcRprodWrite | trcRconsWrite | registerWrite
  | unsupportedSpdmRequest =>
    exact .ite (.next _) (.next _)
  | cfgErase | cfgWrite | cfgVerify | cfgActivate | penCreate | penDestroy | penQuota | penDamper | penReset | warmReset
  | coldReset | flueCtxOpen | flueCtxClose | flueRoute | lend | mirrorLoad | mirrorPromote =>
    exact withKeyedArgs_proceeds ..
  | lossOfPower | resetN | progEn | damperTick | msixUnmask | writeBufferAdmit | snpInv | snpData | snpCur
  | journalPageTimeout | patrolRead | flashTemperatureSample | busError =>
    exact .next _
  | createIoSq | deleteIoSq | createIoCq | deleteIoCq | identify | abort | setFeatures | getFeatures
  | asynchronousEventRequest | sanitize | createSkexQueue =>
    exact withAdmin_proceeds ..
  | close | put | putDone | answer | mrec | mcommit | mack | load | rwrite | rresp | mapupd => exact onMsg_proceeds ..
  | submit | skexFence | tableSwitch | regionCreate | regionDestroy | map | unmap => exact withSkex_proceeds ..
  | phaseRom | readiness | endSession | qualificationEnd | resendTimeout | fecBlock =>
    exact .ite (.next _) (.ite (.next _) (.next _))
  | negotiateAlgorithms | getDigests | getCertificate | challenge | keyExchange | finish => exact withSpdm_proceeds ..
  | rds | rde | rdc | wr | clr => exact requestRow_proceeds ..
  | write | read | datasetManagement => exact .ite (.next _) (withIo_proceeds ..)
  | flush | epochCommit => exact withCmd_proceeds ..
  | rcl | rclS => exact recallRow_proceeds ..
  | dataS | dataB => exact dataRow_proceeds ..
  | queryMessage | rread => exact .ite (.next _) (onMsg_proceeds ..)
  | rebuildDone => exact .ite (.next _) (.ite (.next _) (.ite (.next _) (.next _)))
  | orderedWrite => exact .ite (.next _) (withSkex_proceeds ..)
  | hostCxlMemRequest => exact hostMemRow_proceeds ..
  | invalidCommandOpcode => exact .ite (.next _) (withCmd_proceeds ..)
  | undefinedControlCode => exact .ite (.next _) (withKeyed_proceeds ..)
  | thermalSample => exact execThermalSample_proceeds ..
  | phaseImage => exact execPhaseImage_proceeds ..
  | rebuild => exact execRebuild_proceeds ..
  | getMeasurements => exact execGetMeasurements_proceeds ..
  | warmResetBegin => exact execWarmResetBegin_proceeds ..
  | sqTailDoorbell => exact execSqTailDoorbell_proceeds ..
  | cqHeadDoorbell => exact execCqHeadDoorbell_proceeds ..
  | recordQueueHeadDoorbell => exact execRecordQueueHeadDoorbell_proceeds ..
  | getLogPage => exact execGetLogPage_proceeds ..
  | writeBufferDrain => exact execWriteBufferDrain_proceeds ..
  | graphAccept => exact execGraphAccept_proceeds ..
  | baleMoveDone => exact execBaleMoveDone_proceeds ..
  | writeBackDone => exact execWriteBackDone_proceeds ..
  | taskComplete => exact execTaskComplete_proceeds ..
  | nop => exact execNop_proceeds ..
  | fence => exact execFence_proceeds ..
  | alloc => exact execAlloc_proceeds ..
  | free => exact execFree_proceeds ..
  | copy => exact execCopy_proceeds ..
  | fill => exact execFill_proceeds ..
  | matmul => exact execMatmul_proceeds ..
  | arrayUnit => exact execArrayUnit_proceeds ..
  | modelRun => exact execModelRun_proceeds ..
  | modelCreate => exact execModelCreate_proceeds ..
  | modelDestroy => exact execModelDestroy_proceeds ..
  | vectorStep => exact execVectorStep_proceeds ..
  | vectorFilter => exact execVectorFilter_proceeds ..
  | tokenize => exact execTokenize_proceeds ..
  | pack => exact execPack_proceeds ..
  | nbuSeq => exact execNbuSeq_proceeds ..
  | microOp => exact execMicroOp_proceeds ..
  | query => exact execQuery_proceeds ..
  | walkRound => exact execWalkRound_proceeds ..
  | flashWalkRound => exact execFlashWalkRound_proceeds ..
  | enginePageExpand => exact execEnginePageExpand_proceeds ..
  | hop => exact execHop_proceeds ..
  | rerank => exact execRerank_proceeds ..
  | fanOutQuery => exact execFanOutQuery_proceeds ..
  | merge => exact execMerge_proceeds ..
  | insert => exact execInsert_proceeds ..
  | indexCreate => exact execIndexCreate_proceeds ..
  | indexOpen => exact execIndexOpen_proceeds ..
  | rebuildIndex => exact execRebuildIndex_proceeds ..
  | delete => exact execDelete_proceeds ..
  | destroy => exact execDestroy_proceeds ..
  | repairSweepNow => exact execRepairSweepNow_proceeds ..
  | gather => exact execGather_proceeds ..
  | scatterWrite => exact execScatterWrite_proceeds ..
  | scatterAdd => exact execScatterAdd_proceeds ..
  | tableCreate => exact execTableCreate_proceeds ..
  | tableDestroy => exact execTableDestroy_proceeds ..
  | clone => exact execClone_proceeds ..
  | flashRead => exact execFlashRead_proceeds ..
  | flashWrite => exact execFlashWrite_proceeds ..
  | deallocate => exact execDeallocate_proceeds ..
  | flueSend => exact execFlueSend_proceeds ..
  | commitComplete => exact execCommitComplete_proceeds ..
  | sweepEnd => exact execSweepEnd_proceeds ..
  | migrationStart => exact execMigrationStart_proceeds ..
  | migrationCopyEnd => exact execMigrationCopyEnd_proceeds ..
  | migrationCommit => exact execMigrationCommit_proceeds ..
  | putb => exact execPutb_proceeds ..
  | pute => exact execPute_proceeds ..
  | putm => exact execPutm_proceeds ..
  | ack => exact execAck_proceeds ..
  | wbd => exact execWbd_proceeds ..
  | cack => exact execCack_proceeds ..
  | stackAccessDone => exact execStackAccessDone_proceeds ..
  | inv => exact execInv_proceeds ..
  | memberAck => exact execMemberAck_proceeds ..
  | dataE => exact execDataE_proceeds ..
  | cmp => exact execCmp_proceeds ..
  | agentReplace => exact execAgentReplace_proceeds ..
  | bisnpTimeout => exact execBisnpTimeout_proceeds ..
  | reclaimSweepDone => exact execReclaimSweepDone_proceeds ..
  | pageReadDone => exact execPageReadDone_proceeds ..
  | programDone => exact execProgramDone_proceeds ..
  | eraseDone => exact execEraseDone_proceeds ..
  | foldStart => exact execFoldStart_proceeds ..
  | checkpointStart => exact execCheckpointStart_proceeds ..
  | descriptorComplete => exact execDescriptorComplete_proceeds ..
  | errinfoClear => exact execErrinfoClear_proceeds ..
  | poisonLatchClear => exact execPoisonLatchClear_proceeds ..
  | reclaimLatchClear => exact execReclaimLatchClear_proceeds ..
  | dataFlit => exact execDataFlit_proceeds ..
  | idleFlit => exact execIdleFlit_proceeds ..
  | retryReq => exact execRetryReq_proceeds ..
  | forward => exact execForward_proceeds ..
  | openMsg => exact execOpenMsg_proceeds ..
  | flueAck => exact execFlueAck_proceeds ..
  | lendHandoverDone => exact execLendHandoverDone_proceeds ..
  | phyRetrainDone => exact execPhyRetrainDone_proceeds ..
  | unitFault => exact execUnitFault_proceeds ..
  -- SEAL is the arm left: its name is a keyword of Lean and cannot label an alternative.
  | _ => exact execSeal_proceeds ..

/-- Settles O6: every arm of exec comes to a next state. -/
theorem everyCommandIsPerformed : Obligations.EveryCommandIsPerformed := exec_proceeds

end Sys2Proof.Machine
end

section
/-!
PROOFS. Writes of the selector registers (O9).
-/

namespace Sys2Proof.Machine

/-- A 64-bit write at a register's own address (R13), once the node is ready: the register takes the value. -/
theorem exec_registerWrite_wide (s : State) (addr : Nat) (v : W64) (hr : s.boot.ready = true) (ha : addr % 8 = 0) :
    exec (.registerWrite addr true v) s = .next (regWrite64 s addr v.toNat) := by
  have hal : regAligned addr true = true := by simp [regAligned, ha]
  have hbase : addr / 8 * 8 = addr := by omega
  change execRegisterWrite addr true v s = _
  simp only [execRegisterWrite, hal, hbase, actWhen, hr, mergeWrite]
  rfl

/-- Settles O9: an aligned write reaches `regWrite64` unchanged, whose line for each selector sets its fields alone. -/
theorem selectorWritesSetTheirField : Obligations.SelectorWritesSetTheirField := by
  intro s v hr
  refine ⟨?_, ?_, ?_, ?_, ?_, ?_, ?_, ?_, ?_, ?_, ?_, ?_, ?_⟩
  all_goals
    rw [exec_registerWrite_wide s _ v hr (by decide)]
    simp [regWrite64, bits]

end Sys2Proof.Machine
end

section
/-!
PROOFS. The latches that software clears by writing 1 (O41), and the frame of event records and completion entries, which leave the
stacks and the poisoned lines as they were.
-/

namespace Sys2Proof.Machine

/-! What a report leaves as it was. -/

/-- t differs from s in what event records and completion entries touch alone: what is sent, free values, host memory, vectors, the
host port, the health log and the recording. -/
def Reported (s t : State) : Prop :=
  t = { s with out := t.out, nfree := t.nfree, hostMem := t.hostMem, vecs := t.vecs, port := t.port, health := t.health, trace := t.trace }

theorem Reported.refl (s : State) : Reported s s := rfl

theorem Reported.trans {s t u : State} (h : Reported s t) (k : Reported t u) : Reported s u := by
  unfold Reported at h k ⊢
  rw [h] at k
  exact k

theorem Reported.stks {s t : State} (h : Reported s t) : t.stks = s.stks := by rw [h]
theorem Reported.poison {s t : State} (h : Reported s t) : t.poison = s.poison := by rw [h]

theorem Traced.reported {s t : State} (h : Traced s t) : Reported s t := by
  unfold Reported
  rw [h.rest]

theorem foldl_reported {α : Type} (l : List α) (g : State → α → State) (hg : ∀ s x, Reported s (g s x)) (s : State) :
    Reported s (l.foldl g s) := by
  induction l generalizing s with
  | nil => exact .refl s
  | cons x r ih => exact (hg s x).trans (ih _)

theorem traceRec_reported (s : State) (kind stream : Nat) (body : List Byte) : Reported s (traceRec s kind stream body) :=
  (traceRec_traced ..).reported

theorem traceDecide_reported (s : State) (kind : Nat) (body : List Byte) : Reported s (traceDecide s kind body) := by
  refine (traceRec_reported s kind 1 body).trans ?_
  unfold traceDecide
  dsimp only
  split
  · rfl
  · exact .refl _

theorem hostWrite_reported (s : State) (stream a : Nat) (bs : List Byte) : Reported s (hostWrite s stream a bs) := by
  unfold hostWrite
  dsimp only
  split
  · split
    · exact .refl s
    · split <;> rfl
  · refine Reported.trans (t := if s.trace.out_ then traceRec s 0x20 stream _ else s) ?_ rfl
    split
    · exact traceRec_reported ..
    · exact .refl s

theorem writeEntry_reported (s : State) (stream ctl a : Nat) (bs : List Byte) : Reported s (writeEntry s stream ctl a bs) := by
  refine (hostWrite_reported s stream (hostKey (penOfCtl ctl) a) bs).trans ?_
  unfold writeEntry
  dsimp only
  split
  · exact .refl _
  · rfl

theorem vecSend_reported (s : State) (v : Nat) : Reported s (vecSend s v) := by
  fun_cases vecSend s v <;> rfl

theorem vecCount_reported (s : State) (v : Nat) : Reported s (vecCount s v) := by
  fun_cases vecCount s v
  · exact Reported.trans (by rfl) (vecSend_reported _ v)
  · rfl

theorem cqWrite_reported (s : State) (ctl n : Nat) (q : Cq) (e : Cqe) : Reported s (cqWrite s ctl n q e) := by
  have hw := (traceDecide_reported s 0x16 (le 2 ctl ++ le 2 n ++ le 4 q.seq)).trans
    (writeEntry_reported _ 0 ctl (q.base + 16 * q.tail) (cqeBytes e q.seq q.phase))
  unfold cqWrite
  dsimp only
  split
  · exact hw.trans (Reported.trans (by rfl) (vecCount_reported ..))
  · exact hw.trans rfl

theorem postCqe_reported (s : State) (ctl n : Nat) (e : Cqe) : Reported s (postCqe s ctl n e) := by
  fun_cases postCqe s ctl n e
  · exact .refl s
  · exact cqWrite_reported ..
  · rfl

theorem complete1_reported (s : State) (c : Cmd) (status dw0 : Nat) : Reported s (complete1 s c status dw0) := by
  fun_cases complete1 s c status dw0
  · rfl
  · exact Reported.trans (by rfl) (postCqe_reported ..)

theorem asyncEvent_reported (s : State) : Reported s (asyncEvent s) := by
  refine foldl_reported _ _ (fun s c => ?_) s
  split
  · split
    · exact .refl s
    · exact Reported.trans (by rfl) (complete1_reported ..)
  · exact .refl s

theorem postEventRaw_reported (s : State) (cls kind unit score what data0 data1 : Nat) :
    Reported s (postEventRaw s cls kind unit score what data0 data1) :=
  Reported.trans (by rfl) ((traceRec_reported ..).trans (asyncEvent_reported _))

theorem postEvent_reported (s : State) (cls : Nat) (u : HwUnit) (what data0 data1 : Nat) :
    Reported s (postEvent s cls u what data0 data1) :=
  postEventRaw_reported ..

/-! The latches (R15). -/

@[simp] theorem dmaOf_updDma_same (s : State) (n : Nat) (f : Dma → Dma) : dmaOf (updDma s n f) n = f (dmaOf s n) := by
  simp [dmaOf]

@[simp] theorem stackOf_updStack_same (s : State) (n : Nat) (f : Stack → Stack) : stackOf (updStack s n f) n = f (stackOf s n) := by
  simp [stackOf]

theorem mem_addNew_self {α : Type} [DecidableEq α] (l : List α) (x : α) : x ∈ addNew l x := by
  unfold addNew
  split
  · assumption
  · simp

/-- A ring channel whose latch is clear latches the error that halts it, or that meets it halted (R379, R385). -/
theorem haltDma_latches (s : State) (n i : Nat) (e : BusErr) (h : (dmaOf s n).errValid = false) :
    (dmaOf (haltDma s n i e) n).errValid = true ∧ (dmaOf (haltDma s n i e) n).errAddr = e.addr := by
  cases hh : (dmaOf s n).halted <;> simp [haltDma, hh, h, latchDma]

theorem dpaStack_dpa (n l : Nat) (h : l < stackBytes / line) : dpaStack (dpa n (l * line)) = n := by
  simp only [dpaStack, dpa, stackBytes, line] at *
  omega

theorem dpaOff_dpa (n l : Nat) (h : l < stackBytes / line) : dpaOff (dpa n (l * line)) / line = l := by
  simp only [dpaOff, dpa, stackBytes, line] at *
  omega

/-- A line poisoned is marked, and latched in its stack (R239). -/
theorem poisonLine_latches (s : State) (n l : Nat) (h : l < stackBytes / line) :
    (stackOf (poisonLine s (dpa n (l * line))) n).poisonValid = true ∧
    (stackOf (poisonLine s (dpa n (l * line))) n).poisonOffset = l ∧
    dpa n (l * line) ∈ (poisonLine s (dpa n (l * line))).poison := by
  simp only [poisonLine, dpaStack_dpa n l h, dpaOff_dpa n l h, stackOf_updStack_same, updStack_poison]
  exact ⟨trivial, trivial, mem_addNew_self ..⟩

/-- A line poisoned and reported at an address of stack n is latched there. -/
theorem postEvent_poisonLine_latches (s : State) (cls : Nat) (u : HwUnit) (what d0 d1 n l : Nat) (h : l < stackBytes / line) :
    let t := postEvent (poisonLine s (dpa n (l * line))) cls u what d0 d1
    (stackOf t n).poisonValid = true ∧ (stackOf t n).poisonOffset = l ∧ dpa n (l * line) ∈ t.poison := by
  have hr := postEvent_reported (poisonLine s (dpa n (l * line))) cls u what d0 d1
  simp only [stackOf, hr.stks, hr.poison]
  exact poisonLine_latches s n l h

theorem exec_errinfoClear_none (s : State) (n : Nat) :
    exec (.errinfoClear n none) s = .next (updDma s n fun d => { d with errValid := false, errMulti := false }) := rfl

/-- On a ring channel that runs or is halted, the error of the cycle of a clear halts the channel after the clear. -/
theorem exec_errinfoClear_some (s : State) (n i : Nat) (e : BusErr) (hr : ringChan s n = true) (he : (dmaOf s n).en = true)
    (hs : (dmaOf s n).inService = true) : exec (.errinfoClear n (some (i, none, e))) s =
      .next (haltDma (updDma s n fun d => { d with errValid := false, errMulti := false }) n i e) := by
  have hr' : ringChan (updDma s n fun d => { d with errValid := false, errMulti := false }) n = true := hr
  change Host.Outcome.next (busErrorOn n i none e _) = _
  simp [busErrorOn, hr', he, hs]

theorem exec_poisonLatchClear_none (s : State) (hr : s.boot.ready = true) (hn : s.stackSel < 20) :
    exec (.poisonLatchClear none) s = .next (updStack s s.stackSel fun x => { x with poisonValid := false }) := by
  change execPoisonLatchClear none s = _
  simp [execPoisonLatchClear, hr, hn]

/-- A line of the selected stack poisoned in the cycle of a clear is poisoned, and reported, after the clear. -/
theorem exec_poisonLatchClear_some (s : State) (l : Nat) (hr : s.boot.ready = true) (hn : s.stackSel < 20)
    (hu : stackUsable s s.stackSel = true) (hl : l < stackBytes / line) : exec (.poisonLatchClear (some l)) s =
      .next (postEvent (poisonLine (updStack s s.stackSel fun x => { x with poisonValid := false }) (dpa s.stackSel (l * line)))
        1 (.stack s.stackSel) 1 l 0) := by
  change execPoisonLatchClear (some l) s = _
  simp [execPoisonLatchClear, hr, hn, hu, hl]

theorem exec_reclaimLatchClear_none (s : State) (hr : s.boot.ready = true) :
    exec (.reclaimLatchClear none) s = .next { s with coh := { s.coh with reclaimValid := false } } := by
  change execReclaimLatchClear none s = _
  simp [execReclaimLatchClear, hr]

/-- A line lost in the cycle of a clear is lost after the clear. -/
theorem exec_reclaimLatchClear_some (s : State) (l : Nat) (hr : s.boot.ready = true) (hl : isLine l = true) :
    exec (.reclaimLatchClear (some l)) s = .next (loseLine { s with coh := { s.coh with reclaimValid := false } } l) := by
  change execReclaimLatchClear (some l) s = _
  simp [execReclaimLatchClear, hr, hl]

/-- A line lost is latched (R277). -/
theorem loseLine_latches (s : State) (l : Nat) : (loseLine s l).coh.reclaimValid = true := rfl

/-- Settles O41: each clear with an error of its cycle acts as the clear and then the error, which latches. That a clear of ERRINFO
drops MULTI beside VALID is the model's choice (log 140). -/
theorem setByHardwareWins : Obligations.SetByHardwareWins := by
  intro s
  refine ⟨exec_errinfoClear_none s, ?errinfo, ?poison, ?reclaim⟩
  case errinfo =>
    intro n i e hr he hs
    exact ⟨_, exec_errinfoClear_some s n i e hr he hs, haltDma_latches _ n i e (by simp)⟩
  case poison =>
    intro hr hn
    refine ⟨exec_poisonLatchClear_none s hr hn, fun l hu hl => ?_⟩
    exact ⟨_, exec_poisonLatchClear_some s l hr hn hu hl, postEvent_poisonLine_latches _ 1 _ 1 l 0 _ l hl⟩
  case reclaim =>
    intro hr
    refine ⟨exec_reclaimLatchClear_none s hr, fun l hl => ?_⟩
    exact ⟨_, exec_reclaimLatchClear_some s l hr hl, loseLine_latches _ l⟩

end Sys2Proof.Machine
end

section
/-!
PROOFS. The fence of a NODE fault and a replay (O59): in replay `canFetch` asks the recording alone, so a fenced node goes on
fetching the commands that the recording supplies.
-/

namespace Sys2Proof.Machine

/-- NODE_FAULT fences the node (R442). -/
theorem exec_nodeFault (s : State) (cause : Nat) (drain : Bool) (hon : s.power.on &&& coreDomains = coreDomains) (h1 : 1 ≤ cause)
    (h6 : cause ≤ 6) : exec (.nodeFault cause drain) s = .next (fenceNode s cause drain) := by
  change execNodeFault cause drain s = _
  simp [execNodeFault, actWhen, hon, h1, h6]

/-- In replay a command is fetched when the next recorded fetch is its own (R454): neither a fence nor a stop of the port counts. -/
theorem canFetch_replay (s : State) (c : Cmd) (q : Sq) (r : TRec) (hr : s.trace.replay = true) (hq : sqOf (ctlOf s c.ctl) c.sq = some q)
    (hf : s.trace.supplied.find? (fun r => r.stream == 0 && r.kind == 0x01) = some r) (hb : r.body.take 4 = le 2 c.ctl ++ le 2 c.sq)
    (hc : fieldAt r.body 6 2 = c.cid) : canFetch s c = some q.fetched := by
  simp [canFetch, hr, hq, hf, hb, hc]

/-- The command of identifier 5 at the front of pen 0's admin queue. -/
def replayedCmd : Cmd := { ctl := 0, sq := 0, cid := 5 }

/-- The recorded fetch of that command (R452): controller, queue, and the entry's 64 bytes. -/
def replayedFetch : TRec :=
  { kind := 0x01, stream := 0, sseq := 0, body := le 2 0 ++ le 2 0 ++ (le 2 0 ++ le 2 5 ++ List.replicate 60 0) }

/-- A ready node in replay, to which that fetch has been supplied. -/
def replayingNode : State :=
  { power := { vin := true, on := 0xFFFFF }
    boot := { phase := 7, ready := true, loaded := true, tested := true }
    pens := [(0, { alive := true })]
    port := { ctls := [(0, { en := true, rdy := true, admin := { size := 16, covered := 1 }, adminCq := { size := 16 } })] }
    trace := { replay := true, touched := true, supplied := [replayedFetch] } }

/-- The fence of that node leaves the replay, its records and the admin queue as they were. -/
theorem fenceNode_replayingNode :
    (fenceNode replayingNode 1 false).trace.replay = true ∧
    (fenceNode replayingNode 1 false).trace.supplied = [replayedFetch] ∧
    sqOf (ctlOf (fenceNode replayingNode 1 false) replayedCmd.ctl) replayedCmd.sq = some { size := 16, covered := 1 } :=
  ⟨rfl, rfl, rfl⟩

/-- Fenced, that node still fetches the command. -/
theorem canFetch_fenced_replayingNode : canFetch (fenceNode replayingNode 1 false) replayedCmd = some 0 := by
  obtain ⟨hr, hs, hq⟩ := fenceNode_replayingNode
  exact canFetch_replay _ replayedCmd _ replayedFetch hr hq (by rw [hs]; rfl) (by decide) (by decide)

/-- Refutes O59: the clause of NODE_FAULT says that a fenced node fetches no command. `replayingNode` meets its hypotheses, and after
the fault `canFetch` still answers `replayedCmd`, since in replay it does not ask `mayFetch`. -/
theorem not_healthIsKept : ¬ Obligations.HealthIsKept := by
  intro h
  obtain ⟨-, -, -, -, -, -, -, hfault, -⟩ := h replayingNode
  obtain ⟨t, ht, -, -, -, -, -, -, hfetch, -⟩ :=
    hfault 1 false (by decide) (by decide) (by decide) rfl (by decide) (by decide)
  rw [exec_nodeFault replayingNode 1 false (by decide) (by decide) (by decide)] at ht
  cases ht
  exact absurd (hfetch replayedCmd) (by simp [canFetch_fenced_replayingNode])

end Sys2Proof.Machine
end

section
/-!
PROOFS. The acceptance of graphs (O32). Outside recording and replay the reads of a graph leave no record, and the decision to accept it
leaves a count alone.
-/

namespace Sys2Proof.Machine

theorem replayAllows_outside_replay {s : State} (kind : Nat) (key : List Byte) (h : s.trace.replay = false) :
    replayAllows s kind key = true := by
  simp [replayAllows, h]

theorem recOp_outside_recording {s : State} (stream p : Nat) (op : OpRef) (n : Nat) (h : s.trace.recording = false) :
    recOp s stream p op n = s := by
  cases op with
  | host a => exact List.foldl_fixed' (fun i => by simp [hostReadRec, h]) _
  | _ => rfl

theorem recGraph_outside_recording {s : State} (p : Nat) (ref : OpRef) (h : Header) (hr : s.trace.recording = false) :
    recGraph s p ref h = s := by
  simp only [recGraph, recOp_outside_recording _ _ _ _ hr]

theorem traceDecide_outside_trace {s : State} (kind : Nat) (body : List Byte) (hp : s.trace.replay = false)
    (hr : s.trace.recording = false) :
    traceDecide s kind body = { s with trace := { s.trace with decisions := s.trace.decisions + 1 } } := by
  simp [traceDecide, traceRec, hp, hr]

theorem acceptGraph_outside_trace {s : State} (c : Cmd) (num : Nat) (h : Header) (tasks : List Task) (edges : List Edge)
    (hp : s.trace.replay = false) (hr : s.trace.recording = false) :
    acceptGraph s c num h tasks edges = { s with
      trace := { s.trace with decisions := s.trace.decisions + 1 }
      drover := { s.drover with
        graphs := s.drover.graphs ++ [makeReady
          { acc := s.drover.nextAcc, pen := penOfCtl c.ctl, cmd := c, num := num, tag := h.tag
            cls := max h.prio (penOf s (penOfCtl c.ctl)).minClass, recordAll := h.all, tasks := tasks, edges := edges
            before := fetchedOf s (penOfCtl c.ctl) } s.drover.nextReady]
        nextAcc := s.drover.nextAcc + 1, nextReady := s.drover.nextReady + 1 } } := by
  simp only [acceptGraph, traceDecide_outside_trace _ _ hp hr]

/-- The oldest submission of a queue may be accepted outside recording and replay, and its header reads as hb. -/
structure SubmitReads (s : State) (ctl sq : Nat) (c : Cmd) (ref : OpRef) (num : Nat) (hb : List Byte) : Prop where
  oldest : oldestSubmit s ctl sq = some (c, ref, num)
  may : mayAccept s (penOfCtl ctl) = true
  replay : s.trace.replay = false
  recording : s.trace.recording = false
  header : readOp s (penOfCtl ctl) none ref 0 64 = .ok hb

section
variable {s : State} {ctl sq : Nat} {c : Cmd} {ref : OpRef} {num : Nat} {hb : List Byte} (hs : SubmitReads s ctl sq c ref num hb)
include hs

theorem exec_graphAccept_never_fits (hever : everFits s (penOfCtl ctl) (headerOf hb) = false) :
    exec (.graphAccept ctl sq) s = .next (complete (dropSubmit s ctl sq) c stQuotaExceeded 0xFFFF) := by
  change execGraphAccept ctl sq s = _
  simp [execGraphAccept, hs.oldest, hs.may, replayAllows_outside_replay _ _ hs.replay, hs.header, hever]

theorem exec_graphAccept_bad_header (hever : everFits s (penOfCtl ctl) (headerOf hb) = true) (hbad : headerBad hb = true) :
    exec (.graphAccept ctl sq) s = .next (completeFree (dropSubmit s ctl sq) c) := by
  change execGraphAccept ctl sq s = _
  simp [execGraphAccept, hs.oldest, hs.may, replayAllows_outside_replay _ _ hs.replay, hs.header, hever, hbad]

theorem exec_graphAccept_waits (hever : everFits s (penOfCtl ctl) (headerOf hb) = true) (hbad : headerBad hb = false)
    (hnow : fitsNow s (penOfCtl ctl) (headerOf hb) = false) : exec (.graphAccept ctl sq) s = .next s := by
  change execGraphAccept ctl sq s = _
  simp [execGraphAccept, hs.oldest, hs.may, replayAllows_outside_replay _ _ hs.replay, hs.header, hever, hbad, hnow]

/-- A graph that fits and can be read is accepted, with its tasks made unpredictable where its edges are (log 58). -/
theorem exec_graphAccept_accepts {tb eb : List Byte} (hever : everFits s (penOfCtl ctl) (headerOf hb) = true)
    (hbad : headerBad hb = false) (hnow : fitsNow s (penOfCtl ctl) (headerOf hb) = true)
    (htb : readOp s (penOfCtl ctl) none (headerOf hb).taskArr 0 (64 * (headerOf hb).tasks) = .ok tb)
    (heb : readOp s (penOfCtl ctl) none (headerOf hb).edgeArr 0 (8 * (headerOf hb).edges) = .ok eb) {bad : Bool}
    (he : bad = edgesBad ((chunks 64 tb).map taskOfBytes) ((chunks 8 eb).map edgeOfBytes) (chunks 8 eb)) :
    exec (.graphAccept ctl sq) s = .next (acceptGraph (dropSubmit s ctl sq) c num (headerOf hb)
      (((chunks 64 tb).map taskOfBytes).map fun k => if bad then { k with reserved := true } else k)
      (if bad then soundEdges ((chunks 64 tb).map taskOfBytes) (chunks 8 eb) else (chunks 8 eb).map edgeOfBytes)) := by
  have hrec : recGraph (dropSubmit s ctl sq) (penOfCtl ctl) ref (headerOf hb) = dropSubmit s ctl sq :=
    recGraph_outside_recording _ _ _ hs.recording
  change execGraphAccept ctl sq s = _
  simp only [execGraphAccept, hs.oldest, hs.may, replayAllows_outside_replay _ _ hs.replay, hs.header, hever, hbad, hnow, htb, heb, hrec,
    Bool.not_true, Bool.or_self, Bool.false_eq_true, if_false, ← he]
  cases bad with
  | false => simp only [Bool.false_eq_true, if_false, List.map_id']
  | true => simp only [if_true, wildTasks]

end

/-- Settles O32: the oldest submission by whether its graph could ever fit, its header is sound, and it fits now. -/
theorem graphsAreAccepted : Obligations.GraphsAreAccepted := by
  rintro s ctl sq c ref num hb tb eb _ hold hmay hreplay hrecording hread rfl
  have hs : SubmitReads s ctl sq c ref num hb := ⟨hold, hmay, hreplay, hrecording, hread⟩
  refine ⟨?accepted, exec_graphAccept_never_fits hs, exec_graphAccept_bad_header hs, exec_graphAccept_waits hs⟩
  case accepted =>
    rintro hbad hever hnow htb heb hpen bad _ _ he rfl rfl
    refine ⟨_, exec_graphAccept_accepts hs hever hbad hnow htb heb he, ?_⟩
    have hpen' : penOfCtl c.ctl = penOfCtl ctl := hpen
    rw [acceptGraph_outside_trace (s := dropSubmit s ctl sq) _ _ _ _ _ hs.replay hs.recording, hpen']
    exact ⟨rfl, rfl, rfl, rfl, rfl⟩

end Sys2Proof.Machine
end

section
/-!
PROOFS. The issue of ready tasks (O33): TASK_ISSUE takes the first candidate that is done, and a NOP, which names nothing, asks nothing of
the limits, the pool and the quotas.
-/

namespace Sys2Proof.Machine

theorem exec_taskIssue {s : State} (kind : UnitKind) (channel : Nat) (h : mayIssue s = true) :
    exec (.taskIssue kind channel) s = .next (sendAnswers (tryAll kind channel (fetchAhead s) (readyTasks s kind))) := by
  change execTaskIssue kind channel s = _
  simp [execTaskIssue, actWhen, h]

@[simp] theorem tryAll_nil (kind : UnitKind) (channel : Nat) (s : State) : tryAll kind channel s [] = s := rfl

theorem tryAll_cons_done {kind : UnitKind} {channel : Nat} {s u : State} {x : TaskId × Graph × Task}
    (r : List (TaskId × Graph × Task)) (h : tryIssue s x.1 x.2.1 x.2.2 kind channel = .done u) :
    tryAll kind channel s (x :: r) = u := by
  simp [tryAll, h]

/-! A NOP without operands. -/

section
variable (s : State) (t : TaskId) (g : Graph) {k : Task} (ht : k.typ = 0)
include ht

theorem ranges_nop : ranges s g k = [] := by simp [ranges, ht]

theorem selectK_nop : selectK s g k = 0 := by simp [selectK, ht]

theorem reqBales_nop : reqBales s g k = 0 := by simp [reqBales, selectK_nop s g ht, streamMode, ht]

theorem namesFlashIndex_nop : namesFlashIndex s g k = false := by simp [namesFlashIndex, ht]

theorem pagedOps_nop : pagedOps s g k = [] := by simp [pagedOps, unitKindOf, ht]

theorem firstBales_nop : firstBales s g k = [] := by simp [firstBales, pagedOps_nop s g ht]

theorem operandsBad_nop : operandsBad s g k = false := by simp [operandsBad, ht]

theorem limitsAllow_nop (q : Nat) : limitsAllow s g k q = true := by
  simp [limitsAllow, selectK_nop s g ht, quadMode, streamMode, ht]

/-- A NOP binds nothing, so no recorded binding holds it back. -/
theorem bindHeld_nop : bindHeld s t g k = false := by simp [bindHeld, bindValue, namedEpoch, bindsBase, ht]

variable (ho : k.ops = [])
include ho

theorem named_nop : named k = [] := by simp [named, hasBlock, ht, ho]

theorem namedStatus_nop : namedStatus s g k = 0 := by
  simp [namedStatus, scratchGone, ranges_nop s g ht, named_nop ht ho]

theorem uses_nop : uses s g k = [] := by
  simp [uses, unitKindOf, ranges_nop s g ht, reqBales_nop s g ht, namesFlashIndex_nop s g ht, ht, ho]

theorem homeless_nop : homeless s g k = [] := by simp [homeless, placedOps, ht, ho]

theorem placeSlots_nop (q : Nat) (tile : Option Nat) : placeSlots s t g k q tile = some s := by
  simp [placeSlots, reqBales_nop s g ht, homeless_nop s g ht ho, sumBy]

/-- A NOP issues at once, on the Drover. -/
theorem tryIssue_nop {t : TaskId} {g : Graph} (channel : Nat) (hg : graphOf s t.graph = some g) (hr : reservedTask k = false) :
    tryIssue s t g k .drover channel = .done (issueTask s t g k .drover 0 (0, 0)) := by
  have hquota : quotaHolds s g.pen 0 = true := by simp [quotaHolds]
  simp [tryIssue, namedStatus_nop s g ht ho, uses_nop s g ht ho, placeQuad, placeUnit, hr, operandsBad_nop s g ht,
    limitsAllow_nop s g ht, bindHeld_nop s t g ht, firstBales_nop s g ht, reqBales_nop s g ht, hquota,
    placeSlots_nop s t g ht ho, hg]

end

/-- Settles O33: the candidates are tried in their order, the first that is done ends the attempt, and a NOP is always done. -/
theorem theFirstReadyTaskIssues : Obligations.TheFirstReadyTaskIssues := by
  intro s kind channel hmay
  refine ⟨exec_taskIssue kind channel hmay, ?first, ?nop, ?idle⟩
  case first =>
    intro x r hx u hu
    rw [exec_taskIssue kind channel hmay, hx, tryAll_cons_done r hu]
  case nop =>
    rintro t g k r _ rfl hx hg ht ho hr
    rw [exec_taskIssue .drover channel hmay, hx, tryAll_cons_done r (tryIssue_nop _ ht ho channel hg hr)]
  case idle =>
    intro hx
    rw [exec_taskIssue kind channel hmay, hx, tryAll_nil]

end Sys2Proof.Machine
end

section
/-!
PROOFS. The end of tasks and of graphs (O34): TASK_COMPLETE of a finished task (R60, R67), with and without a spoilt word of its tile's
SRAM (R437); the end of a graph (R70); and the status that its tasks give it.
-/

namespace Sys2Proof.Machine

/-! A graph's status (R70). -/

theorem firstStatus_eq_none (p : Nat → Bool) (l : List Nat) (h : ∀ st ∈ l, p st = false) : firstStatus p l = none := by
  unfold firstStatus
  rw [List.find?_eq_none]
  rintro ⟨i, st⟩ hx
  simp [h st (List.of_mem_zip hx).2]

theorem firstStatus_eq_some (p : Nat → Bool) (l : List Nat) (i st : Nat) (hi : l[i]? = some st) (hp : p st = true)
    (hlow : ∀ j x, j < i → l[j]? = some x → p x = false) : firstStatus p l = some (i, st) := by
  obtain ⟨hlt, hget⟩ := List.getElem?_eq_some_iff.1 hi
  unfold firstStatus
  rw [List.find?_eq_some_iff_getElem]
  refine ⟨hp, i, by simpa using hlt, by simp [hget], fun j hj => ?_⟩
  have hjl : j < l.length := hj.trans hlt
  simp [hlow j l[j] hj (List.getElem?_eq_getElem hjl)]

theorem graphStatus_all_success (l : List Nat) (h : ∀ st ∈ l, st = 0) : graphStatus l = (0, 0xFFFF) := by
  have hnone (p : Nat → Bool) (h0 : p 0 = false) : firstStatus p l = none :=
    firstStatus_eq_none p l fun st hst => by rw [h st hst, h0]
  simp only [graphStatus, hnone (fun st => st == stResetAborted) (by decide),
    hnone (fun st => isFailure st && st != stPredFailed) (by decide), hnone (fun st => st == stPredFailed) (by decide),
    hnone isWarning (by decide)]
  rfl

theorem graphStatus_first_failure (l : List Nat) (i st : Nat) (hi : l[i]? = some st) (hf : isFailure st = true)
    (hp : st ≠ stPredFailed) (hr : ∀ x ∈ l, x ≠ stResetAborted)
    (hlow : ∀ j x, j < i → l[j]? = some x → isFailure x = false ∨ x = stPredFailed) : graphStatus l = (st, i) := by
  have hreset : firstStatus (fun st => st == stResetAborted) l = none :=
    firstStatus_eq_none _ l fun x hx => by simpa using hr x hx
  have hfirst : firstStatus (fun st => isFailure st && st != stPredFailed) l = some (i, st) :=
    firstStatus_eq_some _ l i st hi (by simp [hf, hp]) fun j x hj hx => by
      rcases hlow j x hj hx with h | h <;> simp [h]
  simp only [graphStatus, hreset, hfirst]

theorem graphStatus_first_reset (l : List Nat) (i : Nat) (hi : l[i]? = some stResetAborted)
    (hlow : ∀ j, j < i → l[j]? ≠ some stResetAborted) : graphStatus l = (stResetAborted, i) := by
  have hfirst : firstStatus (fun st => st == stResetAborted) l = some (i, stResetAborted) :=
    firstStatus_eq_some _ l i stResetAborted hi (by simp) fun j x hj hx => by
      have hne : x ≠ stResetAborted := fun he => hlow j hj (he ▸ hx)
      simpa using hne
  simp only [graphStatus, hfirst]

/-! The end of a graph (R70). -/

section
variable {s : State} {acc : Nat} {g : Graph}

theorem tryGraph_waits (hg : graphOf s acc = some g) (h : (∃ k, k ∈ g.tasks ∧ k.st ≠ .complete) ∨ g.recsWaiting ≠ 0) :
    tryGraph s acc = s := by
  have hcond : (g.tasks.all (fun k => k.st == .complete) && g.recsWaiting == 0) = false := by
    rw [Bool.and_eq_false_iff]
    rcases h with ⟨k, hk, hne⟩ | h
    · exact .inl (List.all_eq_false.2 ⟨k, hk, by simpa using hne⟩)
    · exact .inr (by simpa using h)
  simp [tryGraph, hg, hcond]

/-- A graph of this node, all of whose tasks have completed and whose records are written, frees its scratch objects, leaves the task
table and completes its SUBMIT. -/
theorem tryGraph_completes (hg : graphOf s acc = some g) (hall : ∀ k, k ∈ g.tasks → k.st = .complete) (hrec : g.recsWaiting = 0)
    (hrem : g.remote = none) {r : Nat × Nat} {u : State} (hr : r = graphStatus (g.tasks.map (·.status)))
    (hu : u = (tkeys g.scratch).foldl (fun x n => freeScratch x acc n) s) :
    tryGraph s acc = complete { u with drover := { u.drover with graphs := u.drover.graphs.filter fun x => x.acc != acc } }
      g.cmd r.1 r.2 := by
  subst hr hu
  have htasks : g.tasks.all (fun k => k.st == .complete) = true := List.all_eq_true.2 fun k hk => by simp [hall k hk]
  simp [tryGraph, hg, htasks, hrec, hrem]

end

/-! What a tile's SRAM showed (R437). -/

@[simp] theorem sramWords_nil (k : Task) (two : Bool) : sramWords k two [] = [] := by simp [sramWords]

@[simp] theorem noteSram_nil (s : State) (k : Task) : noteSram s k [] = s := by simp [noteSram]

@[simp] theorem spoiltBySram_nil (s : State) (t : TaskId) (g : Graph) (k : Task) : spoiltBySram s t g k [] = s := by
  simp [spoiltBySram]

@[simp] theorem lastStatus_nil (s : State) (g : Graph) (k : Task) : lastStatus s g k [] = endStatus s g k := by simp [lastStatus]

@[simp] theorem sramFault_nil (s : State) (k : Task) (soon : Bool) : sramFault s k [] soon = false := by simp [sramFault]

/-- One word read in error counts as a double-bit error or as a corrected one. -/
theorem sramWords_double (k : Task) (a : Nat) (two : Bool) (hk : k.unitKind = 1) (ha : a % 8 = 0) (hlt : a < 2 ^ 32) :
    sramWords k two [(a, true)] = if two then [k.unitNo * 2 ^ 32 + a] else [] := by
  have hword : a % 2 ^ 32 / 8 * 8 = a := by omega
  cases two <;> simp [sramWords, hk, hword, -Nat.reducePow]

/-- A single double-bit error is no UNIT fault of the tile by itself. -/
theorem sramFault_double (s : State) (k : Task) (a : Nat) (hk : k.unitKind = 1) (ha : a % 8 = 0) (hlt : a < 2 ^ 32) :
    sramFault s k [(a, true)] false = false := by
  simp [sramFault, sramWords_double k a true hk ha hlt]

theorem lastStatus_double (s : State) (g : Graph) (k : Task) (a : Nat) (hk : k.unitKind = 1) (ha : a % 8 = 0) (hlt : a < 2 ^ 32)
    (hok : isFailure (endStatus s g k) = false) : lastStatus s g k [(a, true)] = stMediaError := by
  simp [lastStatus, sramWords_double k a true hk ha hlt, hok]

@[simp] theorem tileOf_updTile_same (s : State) (n : Nat) (f : Tile → Tile) : tileOf (updTile s n f) n = f (tileOf s n) := by
  simp [tileOf]

theorem Reported.tileOf {s t : State} (h : Reported s t) (n : Nat) : tileOf t n = tileOf s n := by rw [h]; rfl

/-- A word with a double-bit error is counted at its tile and poisoned there. -/
theorem tileOf_noteSram_double (s : State) (k : Task) (a : Nat) (hk : k.unitKind = 1) (ha : a % 8 = 0) (hlt : a < 2 ^ 32) :
    tileOf (noteSram s k [(a, true)]) k.unitNo = { tileOf s k.unitNo with
      dataErrs := (tileOf s k.unitNo).dataErrs + 1
      sramPoison := addNew (tileOf s k.unitNo).sramPoison (k.unitNo * 2 ^ 32 + a) } := by
  simp only [noteSram, sramWords_double k a _ hk ha hlt, if_true, Bool.false_eq_true, if_false, List.isEmpty_nil, List.foldl_cons,
    List.foldl_nil, (postEvent_reported ..).tileOf, tileOf_updTile_same]

/-! TASK_COMPLETE (R60, R67). -/

/-- A finished task whose writes are performed and whose copies are written back ends; its tile stays in service. -/
theorem exec_taskComplete_finished {s : State} {t : TaskId} {g : Graph} {k : Task} (x : TaskEnd) (hg : graphOf s t.graph = some g)
    (hk : taskOf s t = some k) (hst : k.st = .finished) (hleft : writesLeft s t = false) (hopen : writesOpen s t = false)
    (hfault : sramFault s k x.sram x.soon = false) : exec (.taskComplete t x) s = .next (sendAnswers (endTask
      (forgetWrites (smudgeClashes (spoiltBySram (noteSram s k x.sram) t g k x.sram) t g k) t) t (lastStatus s g k x.sram)
      (usedAll s g k x.cycles))) := by
  change execTaskComplete t x s = _
  simp [execTaskComplete, hg, hk, hst, hleft, hopen, hfault, actWhen]

/-- Settles O34: TASK_COMPLETE by whether a word was spoilt, the end of a graph by whether it is due, and the graph's status by the
first of its tasks' statuses that counts. -/
theorem finishedTasksComplete : Obligations.FinishedTasksComplete := by
  refine ⟨?task, ?graph, graphStatus_all_success, graphStatus_first_failure, graphStatus_first_reset⟩
  case task =>
    intro s t g k cycles hg hk hst hleft hopen
    refine ⟨?_, ?_⟩
    · rw [exec_taskComplete_finished ⟨cycles, [], false⟩ hg hk hst hleft hopen (sramFault_nil ..)]
      simp only [noteSram_nil, spoiltBySram_nil, lastStatus_nil]
      rfl
    · rintro hkind hok hreset a _ ha hlt rfl
      have hend : isFailure (endStatus s g k) = false := by simp [endStatus, hreset, hok]
      have htile := tileOf_noteSram_double s k a hkind ha hlt
      refine ⟨?_, by rw [htile], by rw [htile]; exact mem_addNew_self ..⟩
      rw [exec_taskComplete_finished ⟨cycles, [(a, true)], false⟩ hg hk hst hleft hopen (sramFault_double s k a hkind ha hlt),
        lastStatus_double s g k a hkind ha hlt hend]
      simp only [usedAll, hkind, if_true]
  case graph =>
    intro s acc g hg
    exact ⟨tryGraph_waits hg, fun hall hrec hrem r u hr hu => tryGraph_completes hg hall hrec hrem hr hu⟩

end Sys2Proof.Machine
end

section
/-!
PROOFS. The Drover's own tasks (O35): one equation for each of NOP, FENCE, ALLOC and FREE while the task runs.
-/

namespace Sys2Proof.Machine

section
variable {s : State} {t : TaskId} {g : Graph} {k : Task}

theorem exec_nop_running (h : running s t 0x00 none = some (g, k)) : exec (.nop t) s = .next (finishTask s t stSuccess 0) := by
  change execNop t s = _
  simp only [execNop, h]

/-- Whether a task of an earlier graph in a fence's scope has not completed (R57). -/
def fenceOpen (s : State) (g : Graph) (penScope : Bool) : Bool :=
  s.drover.graphs.any fun x => inFenceScope g x penScope && x.tasks.any fun y => y.st != .complete

theorem fenceOpen_eq_true_iff (s : State) (g : Graph) (penScope : Bool) : fenceOpen s g penScope = true ↔
    ∃ x ∈ s.drover.graphs, inFenceScope g x penScope = true ∧ ∃ y ∈ x.tasks, y.st ≠ .complete := by
  simp [fenceOpen]

/-- A FENCE without DURABLE finishes unless its scope is open. -/
theorem exec_fence_running (h : running s t 0x01 none = some (g, k)) (hd : bit k.param.toNat 2 = false) :
    exec (.fence t) s = actWhen (!fenceOpen s g (bits k.param.toNat 0 2 = 1)) s (finishTask s t stSuccess 0) := by
  change execFence t s = _
  simp only [execFence, h, hd, Bool.false_and, Bool.not_false, Bool.and_true]
  rfl

theorem exec_fence_clear (h : running s t 0x01 none = some (g, k)) (hd : bit k.param.toNat 2 = false)
    (hc : ∀ x ∈ s.drover.graphs, inFenceScope g x (bits k.param.toNat 0 2 = 1) = true → ∀ y ∈ x.tasks, y.st = .complete) :
    exec (.fence t) s = .next (finishTask s t stSuccess 0) := by
  have hopen : fenceOpen s g (bits k.param.toNat 0 2 = 1) = false := by
    rw [Bool.eq_false_iff, ne_eq, fenceOpen_eq_true_iff]
    rintro ⟨x, hx, hs, y, hy, hne⟩
    exact hne (hc x hx hs y hy)
  rw [exec_fence_running h hd, hopen]
  rfl

theorem exec_fence_waits {x : Graph} (h : running s t 0x01 none = some (g, k)) (hd : bit k.param.toNat 2 = false)
    (hx : x ∈ s.drover.graphs) (hs : inFenceScope g x (bits k.param.toNat 0 2 = 1) = true) (hy : ∃ y ∈ x.tasks, y.st ≠ .complete) :
    exec (.fence t) s = .next s := by
  have hopen := (fenceOpen_eq_true_iff s g _).2 ⟨x, hx, hs, hy⟩
  rw [exec_fence_running h hd, hopen]
  rfl

/-- The bales of an ALLOC of n bytes (R51). -/
theorem ceilDiv_bale (n : Nat) : ceilDiv n bale = (n + 65535) / 65536 := by
  simp [ceilDiv, bale]

/-- The scratch object that an ALLOC of m bales enters: none of its bales has a home yet (R51). -/
def allocated (s : State) (k : Task) (m : Nat) : Scratch :=
  { bytes := m * 65536, hint := bits k.param.toNat 40 3, homes := List.replicate m .none, tag := s.nfree }

theorem exec_alloc_holds {m : Nat} (h : running s t 0x02 none = some (g, k)) (hm : m = (bits k.param.toNat 0 40 + 65535) / 65536)
    (hq : quotaHolds s g.pen m = true) : exec (.alloc t) s =
      .next (finishTask (modGraph (chargeBales { s with nfree := s.nfree + 1 } g.pen m)
        g.acc fun x => { x with scratch := tput x.scratch (bits k.param.toNat 48 8) (allocated s k m) }) t stSuccess 0) := by
  change execAlloc t s = _
  rw [← ceilDiv_bale] at hm
  subst hm
  simp only [execAlloc, h, hq]
  rfl

theorem exec_alloc_exceeds (h : running s t 0x02 none = some (g, k))
    (hq : quotaHolds s g.pen ((bits k.param.toNat 0 40 + 65535) / 65536) = false) :
    exec (.alloc t) s = .next (finishTask s t stQuotaExceeded 0) := by
  change execAlloc t s = _
  rw [← ceilDiv_bale] at hq
  simp [execAlloc, h, hq]

theorem exec_free_running (h : running s t 0x03 none = some (g, k)) :
    exec (.free t) s = .next (finishTask (freeScratch s g.acc (bits k.param.toNat 48 8)) t stSuccess 0) := by
  change execFree t s = _
  simp only [execFree, h]

end

/-- Settles O35: the equation of each of the four tasks, FENCE by whether its scope is open, ALLOC by whether the quota holds. -/
theorem controlTasksFinish : Obligations.ControlTasksFinish := by
  intro s t g k
  refine ⟨exec_nop_running, fun h hd => ⟨exec_fence_clear h hd, fun x hx hs hy => exec_fence_waits h hd hx hs hy⟩, ?alloc,
    exec_free_running⟩
  case alloc =>
    rintro h m rfl
    refine ⟨?_, exec_alloc_exceeds h⟩
    rintro y rfl hq
    exact exec_alloc_holds h rfl hq

end Sys2Proof.Machine
end

section
/-!
PROOFS. Search (O48): the best distinct entries of a list of offers (R117 to R119); one equation for each of QUERY, MERGE and the fan-out;
the turn of a memory-resident walk (R94) by its cases; the rounds, pages and hops of a flash-resident walk (R97); the rerank (R99). Two
counts are the model's choice: what a flash-resident walk's seeds count (log 77) and the multiplies of a rerank (log 151).
-/

namespace Sys2Proof.Machine

/-! Result order (R116). -/

/-- An entry's place in result order: its key, then its tie rank. -/
def hitRank (h : Hit) : ℕ ×ₗ ℕ := toLex (h.key, (Config.tieRank h.id).toNat)

theorem hitLt_iff (a b : Hit) : hitLt a b = true ↔ hitRank a < hitRank b := by
  simp [hitLt, hitRank, Prod.Lex.toLex_lt_toLex]

theorem hitLt_eq_false_iff (a b : Hit) : hitLt a b = false ↔ hitRank b ≤ hitRank a := by
  rw [← not_lt, ← hitLt_iff, Bool.not_eq_true]

@[simp] theorem mem_insSorted {α : Type} (lt : α → α → Bool) (x y : α) (l : List α) : y ∈ insSorted lt x l ↔ y = x ∨ y ∈ l := by
  induction l with
  | nil => simp [insSorted]
  | cons z r ih =>
    by_cases h : lt x z = true
    · simp [insSorted, h]
    · simp [insSorted, h, ih, or_left_comm]

/-! Selection (R117 to R119). -/

/-- Distinct IDs in result order. -/
def Ranked (l : List Hit) : Prop := l.Pairwise fun a b => a.id ≠ b.id ∧ hitLt b a = false

theorem ranked_insSorted {h : Hit} {l : List Hit} (hl : Ranked l) (hid : ∀ x ∈ l, x.id ≠ h.id) : Ranked (insSorted hitLt h l) := by
  induction l with
  | nil => simp [Ranked, insSorted]
  | cons y r ih =>
    obtain ⟨hy, hr⟩ := List.pairwise_cons.1 hl
    cases hlt : hitLt h y with
    | true =>
      have hle : hitRank h ≤ hitRank y := ((hitLt_iff h y).1 hlt).le
      have hfirst : ∀ z ∈ y :: r, h.id ≠ z.id ∧ hitLt z h = false := fun z hz => by
        refine ⟨(hid z hz).symm, (hitLt_eq_false_iff z h).2 (hle.trans ?_)⟩
        rcases List.mem_cons.1 hz with rfl | hz
        · exact le_rfl
        · exact (hitLt_eq_false_iff z y).1 (hy z hz).2
      rw [insSorted, if_pos hlt]
      exact List.pairwise_cons.2 ⟨hfirst, hl⟩
    | false =>
      have hfirst : ∀ z ∈ insSorted hitLt h r, y.id ≠ z.id ∧ hitLt z y = false := fun z hz => by
        rcases (mem_insSorted ..).1 hz with rfl | hz
        · exact ⟨hid y (by simp), hlt⟩
        · exact hy z hz
      have hrest : Ranked (insSorted hitLt h r) := ih hr fun x hx => hid x (by simp [hx])
      rw [insSorted, if_neg (by simp [hlt])]
      exact List.pairwise_cons.2 ⟨hfirst, hrest⟩

/-- One entry offered to the best copies of the IDs offered before it (R118). -/
def offerRep (acc : List Hit) (h : Hit) : List Hit :=
  match acc.find? fun x => x.id == h.id with
  | some old => if h.key < old.key then insSorted hitLt h (acc.filter fun x => x.id != h.id) else acc
  | none => insSorted hitLt h acc

theorem select_eq (n : Nat) (l : List Hit) : select n l = (l.foldl offerRep []).take n := rfl

theorem ranked_offerRep {acc : List Hit} (ha : Ranked acc) (h : Hit) : Ranked (offerRep acc h) := by
  unfold offerRep
  split
  case h_1 old _ =>
    split
    · exact ranked_insSorted (List.Pairwise.filter _ ha) (by simp)
    · exact ha
  case h_2 hnone => exact ranked_insSorted ha (by simpa using hnone)

theorem mem_offerRep {acc : List Hit} {h x : Hit} (hx : x ∈ offerRep acc h) : x = h ∨ x ∈ acc := by
  unfold offerRep at hx
  split at hx
  case h_1 old _ =>
    split at hx
    · exact ((mem_insSorted ..).1 hx).imp_right List.mem_of_mem_filter
    · exact .inr hx
  case h_2 => exact (mem_insSorted ..).1 hx

theorem ranked_foldl_offerRep {acc : List Hit} (ha : Ranked acc) (l : List Hit) : Ranked (l.foldl offerRep acc) := by
  induction l generalizing acc with
  | nil => exact ha
  | cons h r ih => exact ih (ranked_offerRep ha h)

theorem mem_foldl_offerRep {acc l : List Hit} {x : Hit} (hx : x ∈ l.foldl offerRep acc) : x ∈ l ∨ x ∈ acc := by
  induction l generalizing acc with
  | nil => exact .inr hx
  | cons h r ih =>
    rcases ih hx with hr | ha
    · exact .inl (List.mem_cons_of_mem h hr)
    · rcases mem_offerRep ha with rfl | ha
      · exact .inl List.mem_cons_self
      · exact .inr ha

theorem length_select_le (n : Nat) (l : List Hit) : (select n l).length ≤ n := by
  simp [select_eq]

theorem ranked_select (n : Nat) (l : List Hit) : Ranked (select n l) :=
  List.Pairwise.take (ranked_foldl_offerRep List.Pairwise.nil l)

theorem mem_of_mem_select {n : Nat} {l : List Hit} {h : Hit} (hh : h ∈ select n l) : h ∈ l :=
  (mem_foldl_offerRep (List.mem_of_mem_take hh)).resolve_right List.not_mem_nil

/-! QUERY (R87 to R91). -/

section
variable {s : State} {t : TaskId} {g : Graph} {k : Task}

theorem exec_query_begins {num e : Nat} {x : Index} {b code : List Byte} (h : running s t 0x10 (some 0) = some (g, k))
    (hlost : opLost s g.pen (opd k 0) = false) (hrun : k.run = .none) (hx : indexOf s g.pen (opd k 0) = some (num, x))
    (hb : paramBlock s g k 192 = .ok b) (hok : qparamsOk x.desc.flash b = true)
    (hrerank : (qparamsOf b).rerank ≠ 0 → x.desc.vecPlace ≠ 0 ∧ opd k 4 ≠ .none) (hsound : indexSound s g.pen (opd k 0) = true)
    (hcode : readOp s g.pen (some g) (opd k 1) 0 (codeBytes x.desc) = .ok code) (hbound : k.bound = some e) :
    exec (.query t) s = .next (beginWalk s t g k x.desc.flash
      { pen := g.pen, object := num, epoch := e, p := qparamsOf b, code := ofLe code }) := by
  have hvec : ((qparamsOf b).rerank != 0 && (x.desc.vecPlace == 0 || opd k 4 == .none)) = false := by
    by_cases hr : (qparamsOf b).rerank = 0
    · simp [hr]
    · simp [hrerank hr]
  change execQuery t s = _
  simp [execQuery, h, hlost, hrun, hx, hb, hok, hvec, hsound, hcode, hbound]

/-! MERGE (R125). -/

/-- Inputs that all have one KIND, 0 or 1, are not of different KINDs. -/
theorem kinds_agree {bs : List (List Byte)} {kind : Nat} (hbs : bs ≠ []) (hkind : kind ≤ 1) (hall : ∀ b, b ∈ bs → fieldAt b 8 1 = kind) :
    (bs.map fun b => fieldAt b 8 1).headD 0 = kind ∧
    ((bs.map fun b => fieldAt b 8 1).any fun x => x != kind || decide (1 < x)) = false := by
  have hmap : (bs.map fun b => fieldAt b 8 1) = List.replicate bs.length kind :=
    List.map_eq_replicate_iff.2 hall
  obtain ⟨b, r, rfl⟩ := List.exists_cons_of_ne_nil hbs
  rw [hmap]
  simp [List.replicate_succ, hkind]

theorem exec_merge_writes {bs : List (List Byte)} {kind : Nat} {hits : List Hit} (h : running s t 0x11 (some 0) = some (g, k))
    (hk : par k 0 32 ≠ 0) (h1 : 1 ≤ par k 32 3) (h5 : par k 32 3 ≤ 5) (hres : par k 35 29 = 0)
    (hcount : ∀ i, i < par k 32 3 → countBeyond s g k i = false)
    (hread : readAll s g ((List.range (par k 32 3)).map (opd k)) = (0, bs)) (hkind : kind ≤ 1)
    (hall : ∀ b, b ∈ bs → fieldAt b 8 1 = kind) (hbs : bs ≠ [])
    (hhits : hits = select (par k 0 32) (bs.flatMap hitsOf)) :
    exec (.merge t) s = .next (finishTask (writeResults s t g k (opd k 5) kind (par k 0 32) hits) t stSuccess hits.length) := by
  subst hhits
  have hparam : ¬(par k 0 32 = 0 ∨ par k 32 3 = 0 ∨ 5 < par k 32 3 ∨ par k 35 29 ≠ 0) := by omega
  have hany : (List.range (par k 32 3)).any (countBeyond s g k) = false := by simpa using hcount
  obtain ⟨hhead, hagree⟩ := kinds_agree hbs hkind hall
  change execMerge t s = _
  simp only [execMerge, h, if_neg hparam, hany, hread, hhead, hagree, bne_self_eq_false, Bool.false_eq_true, if_false]

/-! Fan-out (R102, R103). -/

theorem exec_fanOutQuery_starts {num : Nat} {x : Index} {b code h lb : List Byte} {p : QParams}
    {r : State × List Shard} (hr : running s t 0x10 (some 1) = some (g, k)) (hrun : k.run = .none)
    (hx : indexOf s g.pen (opd k 0) = some (num, x)) (hb : paramBlock s g k 192 = .ok b) (hok : qparamsOk x.desc.flash b = true)
    (hp : p = qparamsOf b) (hrerank : p.rerank = 0)
    (hcode : readOp s g.pen (some g) (opd k 1) 0 (codeBytes x.desc) = .ok code) (hh : readOp s g.pen (some g) (opd k 5) 0 8 = .ok h)
    (h1 : 1 ≤ fieldAt h 0 4) (h64 : fieldAt h 0 4 ≤ 64)
    (hlb : readOp s g.pen (some g) (opd k 5) 0 (8 + 16 * fieldAt h 0 4) = .ok lb)
    (hsame : ∀ sh, sh ∈ shardsOf lb (fieldAt h 0 4) → shardDiffers s g.pen x.desc sh = false)
    (hstart : r = startShards s g b code [] (shardsOf lb (fieldAt h 0 4))) : exec (.fanOutQuery t) s =
      .next (finishFan r.1 t g k { pen := g.pen, p := p, code := ofLe code, list := p.list, shards := r.2 }) := by
  subst hp hstart
  have hany : (shardsOf lb (fieldAt h 0 4)).any (shardDiffers s g.pen x.desc) = false := by simpa using hsame
  have hn0 : fieldAt h 0 4 ≠ 0 := by omega
  have hn64 : ¬64 < fieldAt h 0 4 := by omega
  change execFanOutQuery t s = _
  simp [execFanOutQuery, hr, hrun, fanStarted, keepEpochs, hx, hb, hok, hrerank, hcode, hh, hn0, hn64, hlb, hany]

/-- A shard of this node becomes a graph of one QUERY, answered without a context (R102). -/
theorem startShard_local (s : State) (g : Graph) {sh : Shard} (b code qv : List Byte) (h : sh.node = s.flue.nodeId) :
    startShard s g sh b code qv =
      (takeGraph (drawCorr s).2 (shardGraph (drawCorr s).2 g sh (qparamsOf b) code qv (drawCorr s).1),
        { sh with corrid := (drawCorr s).1, ctx := localCtx }) := by
  simp [startShard, h]

theorem finishFan_failed (s : State) (t : TaskId) (g : Graph) (k : Task) {w : Walk} {sh : Shard} (hall : w.shards.all (·.done) = true)
    (hbad : w.shards.find? (fun y => isFailure y.status) = some sh) : finishFan s t g k w = finishTask s t sh.status 0 := by
  simp [finishFan, hall, hbad]

end

/-! One turn of a memory-resident walk (R94). -/

section
variable {c : WCtx} {w : Walk}

theorem memStep_at_limit (h : budgetOf c.p ≤ w.beam.exp ∨ roundsUp c.p w.beam.rounds = true) :
    memStep c w = { w with
      ended := true, budgetEnd := decide (budgetOf c.p ≤ w.beam.exp), roundsEnd := roundsUp c.p w.beam.rounds } := by
  simp [memStep, h]

variable (hb : w.beam.exp < budgetOf c.p) (hr : roundsUp c.p w.beam.rounds = false)
include hb hr

theorem memStep_expands (hf : roundSet w.beam (min c.p.beam (budgetOf c.p - w.beam.exp)) ≠ []) {fs : List Key} {r : Beam × List Key}
    (hfs : fs = roundSet w.beam (min c.p.beam (budgetOf c.p - w.beam.exp))) (hbr : r = beamRound (adjOf c) (slotKey c) w.beam fs) :
    memStep c w = { w with
      beam := r.1, results := r.2.foldl (addHit c) w.results
      counts := { w.counts with
        rounds := w.counts.rounds + 1, expansions := w.counts.expansions + fs.length, scored := w.counts.scored + r.2.length } } := by
  subst hbr hfs
  simp [memStep, hb, hr, hf]

variable (hf : roundSet w.beam (min c.p.beam (budgetOf c.p - w.beam.exp)) = [])
include hf

theorem memStep_widens (hk : w.results.length < c.p.k) (ho : w.beam.ovf ≠ []) :
    memStep c w = { w with
      beam := widen w.beam
      counts := { w.counts with widenings := w.counts.widenings + (if w.beam.list < 4096 then 1 else 0) } } := by
  simp [memStep, hb.not_ge, hr, hf, hk.not_ge, ho]

theorem memStep_ends (h : c.p.k ≤ w.results.length ∨ w.beam.ovf = []) : memStep c w = { w with ended := true } := by
  simp [memStep, hb, hr, hf, h]

end

/-! The commands of a started walk. -/

theorem firstBad_eq_zero {α : Type} {f : α → Nat} {l : List α} (h : ∀ x ∈ l, f x = 0) : firstBad f l = 0 := by
  have hnone : (l.map f).find? (· != 0) = none := by simpa using h
  rw [firstBad, hnone, Option.getD_none]

section
variable {s : State} {t : TaskId} {g : Graph} {k : Task} {w : Walk} {x : Index} {c : WCtx}

variable (hw : walkOf s t = some (g, k, w))
include hw

section
variable (hc : walkCtx s t w = some (x, c))
include hc

/-- WALK_ROUND takes one turn; a walk that it ends is finished unless a rerank follows. -/
theorem exec_walkRound_turn (hflash : w.flash = false) (hend : w.ended = false) : exec (.walkRound t) s =
    .next (if (memStep c w).ended && (memStep c w).p.rerank == 0 then finishQuery s t g k (memStep c w)
      else keepWalk s t k (memStep c w)) := by
  change execWalkRound t s = _
  simp [execWalkRound, hw, hc, hflash, hend]

theorem exec_walkRound_goes_on (hflash : w.flash = false) (hend : w.ended = false) (hgo : (memStep c w).ended = false) :
    exec (.walkRound t) s = .next (keepWalk s t k (memStep c w)) := by
  rw [exec_walkRound_turn hw hc hflash hend, hgo]
  rfl

/-- FLASH_WALK_ROUND between rounds starts the round that `flashBegin` chooses, when every page of it can be read now. -/
theorem exec_flashWalkRound_opens (hflash : w.flash = true) (hend : w.ended = false) (hst : k.status ≠ stMediaError)
    (hopen : w.roundOpen = false) {pages : List (Nat × Nat)} (hgo : (flashBegin c w).ended = false)
    (hp : pages = ((flashBegin c w).engines.flatMap fun e => e.2.todo.map fun d => (e.1, d.1)))
    (hread : ∀ y, y ∈ pages → chanUnitStatus s y.1 (pageUnit x.desc y.2) = 0 ∧ ¬segOf y.1 (pageUnit x.desc y.2) ∈ s.ftl.reloading) :
    exec (.flashWalkRound t) s = .next (pages.foldl (fun a y => sendPage x t (flashBegin c w).epoch a y.1 y.2)
      (modTask (keepWalk s t k (flashBegin c w)) t fun y => { y with usedFlash := y.usedFlash + 16 * pages.length })) := by
  have hbad : firstBad (fun y => chanUnitStatus s y.1 y.2) (pages.map fun y => (y.1, pageUnit x.desc y.2)) = 0 :=
    firstBad_eq_zero (List.forall_mem_map.2 fun y hy => (hread y hy).1)
  have hseg : ((pages.map fun y => (y.1, pageUnit x.desc y.2)).any fun y => decide (segOf y.1 y.2 ∈ s.ftl.reloading)) = false := by
    rw [List.any_eq_false]
    intro y hy
    obtain ⟨z, hz, rfl⟩ := List.mem_map.1 hy
    simpa using (hread z hz).2
  change execFlashWalkRound t s = _
  simp only [execFlashWalkRound, hw, hc, hflash, hend, hopen, hgo, hst, ← hp, hbad, hseg, Bool.not_true, Bool.or_self, Bool.false_and,
    Bool.false_eq_true, if_false, ne_eq, not_true_eq_false]

theorem exec_enginePageExpand_expands {ch page : Nat} {d : Nat × List Nat × Bool}
    (hd : (tget w.engines ch).todo.find? (fun d => d.1 == page && d.2.2) = some d) :
    exec (.enginePageExpand t ch page) s = .next (setWalk s t (flashExpand c w ch page d.2.1)) := by
  change execEnginePageExpand t ch page s = _
  simp only [execEnginePageExpand, hw, hc, hd]

end

/-- The oldest hop to an engine is taken off its way and received. -/
theorem exec_hop_arrives {ch : Nat} {h : Key} {r : List Key} {e : EngState} (he : e = tget w.engines ch) (hh : e.hops = h :: r) :
    exec (.hop t ch) s = .next (setWalk s t { w with engines := tput w.engines ch (hopIn { e with hops := r } h) }) := by
  subst he
  change execHop t ch s = _
  simp only [execHop, hw, hh]

variable (hc : walkCtx s t w = some (x, c)) (hend : w.ended = true) (hrr : w.p.rerank ≠ 0) (hst : k.status ≠ stMediaError)
include hc hend hrr hst

theorem exec_rerank_gathers (hp : c.d.vecPlace = 2) (hg : w.gathered = false) : exec (.rerank t) s = .next (gather s t x w) := by
  change execRerank t s = _
  simp [execRerank, hw, hc, hend, hrr, hst, hp, hg]

/-- With the vectors at hand, RERANK counts its multiplies and the stack bytes, and finishes the query with the K best. -/
theorem exec_rerank_scores (hp : c.d.vecPlace ≠ 2 ∨ w.gathered = true)
    (htodo : ∀ e, e ∈ w.engines → ∀ d, d ∈ e.2.todo → d.2.2 = true) {qv : List Byte} (hq : queryVec s g k w c.d = .ok qv) {r : Nat}
    (hr : r = min w.p.rerank w.results.length) : exec (.rerank t) s =
      .next (finishQuery (modTask (updTile s k.unitNo fun y => { y with macs := wrapAdd 74 y.macs (rerankMacs c.d.metric r c.d.vecDim) }) t
        fun y => { y with usedStack := y.usedStack + (if c.d.vecPlace = 1 then r else 0) * vecBytes c.d }) t g k
        { w with results := rerankHits c qv w.results }) := by
  have hready : ¬(c.d.vecPlace = 2 ∧ (!w.gathered) = true) := by
    rintro ⟨h2, hg⟩
    rcases hp with hp | hp
    · exact hp h2
    · simp [hp] at hg
  have hnone : (w.engines.any fun e => e.2.todo.any fun d => !d.2.2) = false := by
    simpa [List.any_eq_false] using htodo
  change execRerank t s = _
  simp only [execRerank, hw, hc, hend, hst, if_neg hready, hnone, hq, ← hr, beq_eq_false_iff_ne.2 hrr, Bool.not_true, Bool.or_self,
    Bool.false_eq_true, if_false]

end

/-! A hop received (R97, step 4). -/

section
variable {e : EngState} {h : Key} (r : List Key)

theorem hopIn_known (hk : h.2 ∈ e.scored ∨ h.2 ∈ e.expanded) : hopIn { e with hops := r } h = { e with hops := r } := by
  simp [hopIn, hk]

theorem hopIn_new (hk : ¬(h.2 ∈ e.scored ∨ h.2 ∈ e.expanded)) (hp : ∀ y, y ∈ e.pend → y.2 ≠ h.2) :
    hopIn { e with hops := r } h = putPend { e with hops := r } h := by
  have hnone : e.pend.find? (fun x => x.2 == h.2) = none := by simpa using hp
  simp [hopIn, hk, hnone]

end

/-- Settles O48: selection by the invariant that its list is `Ranked`, and each command by its equation, a turn of a memory-resident walk
by the cases of `memStep`. -/
theorem searchesRun : Obligations.SearchesRun := by
  refine ⟨fun n l => ⟨length_select_le n l, ranked_select n l, fun h => mem_of_mem_select⟩, ?started, ?walks⟩
  case started =>
    intro s t g k
    refine ⟨?query, ?merge, ?fanOut, ?shard, fun w sh => finishFan_failed s t g k⟩
    case query =>
      intro h hlost hrun num x b code e hx hb hok hrerank hsound hcode hbound
      exact exec_query_begins h hlost hrun hx hb hok hrerank hsound hcode hbound
    case merge =>
      intro h bs kind hits hk h1 h5 hres hcount hread hkind hall hbs hhits
      exact exec_merge_writes h hk h1 h5 hres hcount hread hkind hall hbs hhits
    case fanOut =>
      intro h hrun num x b code hd lb p r hx hb hok hp hrerank hcode hh h1 h64 hlb hsame hstart
      exact exec_fanOutQuery_starts h hrun hx hb hok hp hrerank hcode hh h1 h64 hlb hsame hstart
    case shard =>
      intro sh b code qv h
      rw [startShard_local s g b code qv h]
      exact ⟨_, rfl, rfl, rfl⟩
  case walks =>
    intro s t g k w hw x c hc
    refine ⟨?turn, ?flash, fun ch page d => exec_enginePageExpand_expands hw hc, ?hop, ?rerank⟩
    case turn =>
      intro hflash hend
      refine ⟨?limit, ?within⟩
      case limit =>
        rintro hlim _ rfl
        rw [exec_walkRound_turn hw hc hflash hend, memStep_at_limit hlim]
        simp
      case within =>
        rintro hb hr _ rfl
        refine ⟨?expands, ?widens, ?ends⟩
        case expands =>
          intro r hf hbr
          have hstep := memStep_expands hb hr hf rfl hbr
          refine ⟨_, exec_walkRound_goes_on hw hc hflash hend (by rw [hstep]; exact hend), ?_⟩
          rw [hstep]
          exact ⟨rfl, rfl, rfl, rfl, rfl, hend⟩
        case widens =>
          intro hf hk ho
          have hstep := memStep_widens hb hr hf hk ho
          refine ⟨_, exec_walkRound_goes_on hw hc hflash hend (by rw [hstep]; exact hend), ?_⟩
          rw [hstep]
          exact ⟨rfl, hend⟩
        case ends =>
          intro hf h hrr
          rw [exec_walkRound_turn hw hc hflash hend, memStep_ends hb hr hf h]
          simp [hrr]
    case flash =>
      rintro hflash hend hst hopen _ pages rfl hgo hp hread _ rfl
      exact exec_flashWalkRound_opens hw hc hflash hend hst hopen hgo hp hread
    case hop =>
      intro ch h r e he hh
      rw [exec_hop_arrives hw he hh]
      exact ⟨fun hk => by rw [hopIn_known r hk], fun hk hp => by rw [hopIn_new r hk hp]⟩
    case rerank =>
      intro hend hrr hst
      refine ⟨exec_rerank_gathers hw hc hend hrr hst, ?_⟩
      rintro hp htodo qv r _ hq hr rfl
      exact exec_rerank_scores hw hc hend hrr hst hp htodo hq hr

end Sys2Proof.Machine
end

section
/-!
SUPPORT. The index under an object's number: what reads it back after an update of its object, and that stores to node memory, Flue
messages and records leave the pens, and so every index, as they were.
-/

namespace Sys2Proof.Machine

variable (s : State)

/-! Objects and indexes are read from the pens alone. -/

theorem objOf_of_pens {s t : State} (h : t.pens = s.pens) (p n : Nat) : objOf t p n = objOf s p n := by
  simp only [objOf, penOf, h]

theorem indexOf_obj (p n off : Nat) : indexOf s p (.obj n off) = (objOf s p n).bind fun o => match o.kind with
    | .index x => some (n, x)
    | _ => none := by
  simp only [indexOf]
  cases objOf s p n <;> rfl

theorem indexOf_of_pens {s t : State} (h : t.pens = s.pens) (p : Nat) (op : OpRef) : indexOf t p op = indexOf s p op := by
  cases op with
  | obj n off => simp only [indexOf_obj, objOf_of_pens h]
  | _ => rfl

/-- An index stands in an object, under the object's own number. -/
theorem objOf_of_indexOf {s : State} {p n off num : Nat} {x : Index} (h : indexOf s p (.obj n off) = some (num, x)) :
    num = n ∧ ∃ o, objOf s p n = some o ∧ o.kind = .index x := by
  rw [indexOf_obj, Option.bind_eq_some_iff] at h
  obtain ⟨o, ho, hk⟩ := h
  split at hk
  · next y hy =>
    obtain ⟨rfl, rfl⟩ := Prod.mk.inj (Option.some.inj hk)
    exact ⟨rfl, o, ho, hy⟩
  · cases hk

/-- An update of a pen that leaves its objects leaves every object. -/
theorem objOf_updPen {p : Nat} {f : Pen → Pen} (hf : ∀ x, (f x).objects = x.objects) (n : Nat) :
    objOf (updPen s p f) p n = objOf s p n := by
  simp only [objOf, penOf, updPen_pens, tget, tget?_tupd_same]
  cases tget? s.pens p with
  | none => rfl
  | some x => simp [hf]

theorem objOf_updObj (p n : Nat) (f : Obj → Obj) : objOf (updObj s p n f) p n = (objOf s p n).map f := by
  simp only [objOf, penOf, updObj_pens, tget, tget?_tupd_same]
  cases tget? s.pens p with
  | none => rfl
  | some x => simp [tget?_tupd_same]

@[simp] theorem objOf_creditBales (p k n : Nat) : objOf (creditBales s p k) p n = objOf s p n :=
  objOf_updPen s (f := fun x => { x with bales := x.bales - k }) (fun _ => rfl) n

@[simp] theorem objOf_chargeBales (p k n : Nat) : objOf (chargeBales s p k) p n = objOf s p n :=
  objOf_updPen s (f := fun x => { x with bales := x.bales + k }) (fun _ => rfl) n

/-- An object given an index holds that index. -/
theorem indexOf_updObj {s : State} {p n : Nat} {f : Obj → Obj} {x : Index} (ho : (objOf s p n).isSome) (hf : ∀ o, (f o).kind = .index x)
    (off : Nat) : indexOf (updObj s p n f) p (.obj n off) = some (n, x) := by
  obtain ⟨o, ho⟩ := Option.isSome_iff_exists.1 ho
  simp [indexOf_obj, objOf_updObj, ho, hf]

/-! What leaves the pens. -/

/-- A fold of steps that each leave the pens. -/
theorem foldl_pens {α : Type} (g : State → α → State) (hg : ∀ s x, (g s x).pens = s.pens) (l : List α) :
    (l.foldl g s).pens = s.pens := by
  induction l generalizing s with
  | nil => rfl
  | cons x r ih => rw [List.foldl_cons, ih, hg]

@[simp] theorem traceRec_pens (kind stream : Nat) (body : List Byte) : (traceRec s kind stream body).pens = s.pens :=
  (traceRec_traced ..).pens

@[simp] theorem traceDecide_pens (kind : Nat) (body : List Byte) : (traceDecide s kind body).pens = s.pens := by
  rw [traceDecide_reported s kind body]

/-! Stores to node memory. -/

@[simp] theorem sendHost_pens (m : Msg) : (sendHost s m).pens = s.pens := by
  fun_cases sendHost s m <;> rfl

@[simp] theorem send_pens (m : Msg) : (send s m).pens = s.pens := by
  fun_cases send s m
  · rfl
  · rfl
  · fun_cases enterNet s m
    · exact sendHost_pens s m
    · rfl
    · rfl

@[simp] theorem writeThrough_pens (a l : Nat) (data : List Byte) (mask : List Bool) : (writeThrough s a l data mask).pens = s.pens := by
  unfold writeThrough
  rw [send_pens]
  split
  · split <;> rfl
  · rfl

@[simp] theorem park_pens (a l : Nat) (w : Option (List Byte × List Bool)) : (park s a l w).pens = s.pens := rfl
@[simp] theorem serve_pens (a n : Nat) : (serve s a n).pens = s.pens := rfl
@[simp] theorem setAline_pens (a l : Nat) (x : ALine) : (setAline s a l x).pens = s.pens := rfl

@[simp] theorem askHome_pens (a l : Nat) (w : Option (List Byte × List Bool)) (st : AState) (k : MsgKind) :
    (askHome s a l w st k).pens = s.pens := by
  unfold askHome toHome
  rw [send_pens]
  rfl

@[simp] theorem access_pens (a l : Nat) (w : Option (List Byte × List Bool)) : (access s a l w).pens = s.pens := by
  unfold access
  dsimp only
  repeat' split
  all_goals simp

@[simp] theorem unitStore_pens (a : Nat) (x : Nat × List Byte) : (unitStore s a x).pens = s.pens := by
  fun_cases unitStore s a x
  · exact access_pens ..
  · exact send_pens ..

@[simp] theorem writeStack_pens (a : Nat) (bs : List Byte) : (writeStack s a bs).pens = s.pens := by
  fun_cases writeStack s a bs <;> rfl

@[simp] theorem agentWrite_pens (t : Option TaskId) (a addr : Nat) (bs : List Byte) : (agentWrite s t a addr bs).pens = s.pens := by
  unfold agentWrite
  dsimp only
  split
  · exact writeStack_pens ..
  · refine foldl_pens s _ (fun s x => ?_) _
    split
    · cases t <;> exact unitStore_pens ..
    · exact writeStack_pens ..

@[simp] theorem syncIndex_pens (p num : Nat) : (syncIndex s p num).pens = s.pens := by
  unfold syncIndex
  split
  · split
    · exact foldl_pens _ _ (fun s _ => foldl_pens s _ (fun s _ => agentWrite_pens s ..) _) _
    · rfl
  · rfl

/-! Flue messages. -/

@[simp] theorem pumpPort_pens (p n : Nat) : (pumpPort s p n).pens = s.pens := by
  induction n generalizing s with
  | zero => rfl
  | succ k ih =>
    unfold pumpPort
    dsimp only
    split
    · rfl
    · split
      · rfl
      · rw [ih]
        rfl

@[simp] theorem sendMsg_pens (m : FlueMsg) : (sendMsg s m).pens = s.pens := by
  fun_cases sendMsg s m
  · rfl
  · rfl
  · exact pumpPort_pens ..

@[simp] theorem flueOut_pens (m : FlueMsg) : (flueOut s m).pens = s.pens := by
  fun_cases flueOut s m
  · rfl
  · rfl
  · rfl
  · exact traceRec_pens ..
  · rfl

@[simp] theorem ctxSend_pens (c type gen corrid : Nat) (body : List Byte) : (ctxSend s c type gen corrid body).pens = s.pens := by
  unfold ctxSend sendNumbered
  dsimp only
  split
  · split
    · rw [flueOut_pens]
      rfl
    · rw [sendMsg_pens]
      exact flueOut_pens ..
  · split <;> rfl

@[simp] theorem streamRecs_pens (p : Nat) (x : Index) (l : List LogRec) : (streamRecs s p x l).pens = s.pens := by
  fun_cases streamRecs s p x l
  · rfl
  · rfl
  · exact foldl_pens s _ (fun s r => ctxSend_pens s ..) l

/-! Homes. -/

theorem freeHomes'_pens (hs : List Home) : (freeHomes' s hs).pens = s.pens :=
  foldl_pens s _ (fun s h => by fun_cases freeHome s h <;> rfl) hs

theorem takeHomes_pens {s t : State} {quad n : Nat} {hs : List Home} (h : takeHomes s quad n = some (t, hs)) : t.pens = s.pens := by
  induction n generalizing s t hs with
  | zero =>
    obtain ⟨rfl, rfl⟩ := Prod.mk.inj (Option.some.inj h)
    rfl
  | succ k ih =>
    unfold takeHomes at h
    split at h
    · cases h
    · next s1 h1 e1 =>
      split at h
      · cases h
      · next s2 hs2 e2 =>
        obtain ⟨rfl, rfl⟩ := Prod.mk.inj (Option.some.inj h)
        rw [ih e2]
        unfold takeHome at e1
        split at e1
        · cases e1
        · obtain ⟨rfl, rfl⟩ := Prod.mk.inj (Option.some.inj e1)
          rfl

/-! The index after it was fitted, stored or kept. -/

theorem indexOf_fitIndex {s t : State} {p num : Nat} {x : Index} (h : fitIndex s p num x = some t) (off : Nat) :
    indexOf t p (.obj num off) = some (num, x) := by
  unfold fitIndex at h
  split at h
  · cases h
  · next o ho =>
    dsimp only at h
    split at h
    · cases h
      refine indexOf_updObj ?_ (fun _ => rfl) off
      rw [objOf_creditBales, objOf_of_pens (freeHomes'_pens ..), ho]
      rfl
    · split at h
      · cases h
      · split at h
        · cases h
        · next u hs hu =>
          cases h
          refine indexOf_updObj ?_ (fun _ => rfl) off
          rw [objOf_chargeBales, objOf_of_pens (takeHomes_pens hu), ho]
          rfl

/-- An index kept in its object is there, as it was given but for the mark of R109. -/
theorem indexOf_keepIndex {p num : Nat} (x y : Index) (ho : (objOf s p num).isSome) (off : Nat) :
    indexOf (keepIndex s p num x y) p (.obj num off) = some (num, noteWild s p num y) := by
  unfold keepIndex storeIndex
  cases hf : fitIndex s p num (noteWild s p num y) with
  | none =>
    rw [Option.map_none, Option.getD_none, indexOf_of_pens ((streamRecs_pens ..).trans (syncIndex_pens ..))]
    exact indexOf_updObj ho (fun _ => rfl) off
  | some t =>
    rw [Option.map_some, Option.getD_some, indexOf_of_pens ((streamRecs_pens ..).trans (syncIndex_pens ..))]
    exact indexOf_fitIndex hf off

theorem noteWild_eq (p num : Nat) (y : Index) : ∃ w, noteWild s p num y = { y with wild := w } := by
  unfold noteWild
  split
  · exact ⟨y.wild, rfl⟩
  · exact ⟨true, rfl⟩

end Sys2Proof.Machine
end

section
/-!
PROOFS. Index updates (O49): one equation for each of INSERT, DELETE, create, open, rebuild, destroy and the repair sweep asked for. What
APPLIED counts of a DELETE (log 145), the mirror lost at an open (log 64), the slots that an insert waits for (log 167) and the position of
the first entry (log 146) are the model's choices.
-/

namespace Sys2Proof.Machine

section
variable {s : State} {t : TaskId} {g : Graph} {k : Task}

/-! INSERT and DELETE of entries (R132, R142, R145). -/

/-- An update task of n entries on the index num, whose operands and parameters are as R139 has them: its next entry is i, a entries are
applied and f IDs found. -/
structure Updates (s : State) (g : Graph) (k : Task) (num : Nat) (x : Index) (n i a f : Nat) : Prop where
  held : opLost s g.pen (opd k 0) = false
  index : indexOf s g.pen (opd k 0) = some (num, x)
  progress : progress k = (i, a, f)
  count : n = par k 0 32
  primary : x.target = false
  one : 1 ≤ n
  reserved : par k 32 32 = 0
  operands : updOpsOk k = true
  array : updArrayBad s g k = false

variable {num n i a f : Nat} {x : Index}

/-- A count between 1 and a limit is none that R154 leaves unpredictable. -/
theorem Updates.count_fits (h : Updates s g k num x n i a f) {m : Nat} (hm : n ≤ m) : ¬(n = 0 ∨ m < n) := by
  have h1 := h.one
  omega

section
variable {b : List Byte} (h : Updates s g k num x n i a f) (hr : running s t 0x12 (some 0) = some (g, k)) (hn : n ≤ 65536)
  (hm : mayUpdate s g.pen num x t i true = true)
  (hb : readOp s g.pen (some g) (opd k 1) (i * entryBytes x.desc) (entryBytes x.desc) = .ok b)
  (hp : pagesStatus s x (insertPages x b).2 = 0)
include h hr hn hm hb hp

theorem exec_insert_full (hfull : applyInsert x b = none) :
    exec (.insert t) s = .next (finishUpdate s t g k num stIndexFull a f) := by
  change execInsert t s = _
  simp [execInsert, hr, h.held, h.index, h.progress, h.primary, h.count_fits hn, h.reserved, h.operands, h.array, hm, hb, hp, hfull,
    ← h.count]

theorem exec_insert_applies {y : Index} {slot : Nat} {rep : Bool} {u w : State} (ha : applyInsert x b = some (y, slot, rep))
    (hs : ¬slot ∈ keptSlots x) (hu : tookEntry s g.pen num x y t i = some u)
    (hw : w = modTask u t fun z => { z with
      run := .update (i + 1) (a + 1) (if rep then f + 1 else f), wrote := true, usedFlash := z.usedFlash + 16 * (insertPages x b).1 }) :
    exec (.insert t) s =
      .next (if i + 1 = n then finishUpdate w t g k num stSuccess (a + 1) (if rep then f + 1 else f) else w) := by
  subst hw
  change execInsert t s = _
  simp [execInsert, hr, h.held, h.index, h.progress, h.primary, h.count_fits hn, h.reserved, h.operands, h.array, hm, hb, hp, ha, hs, hu,
    ← h.count]

end

theorem exec_delete_applies {b : List Byte} {r : Index × Bool} {u w : State} (h : Updates s g k num x n i a f)
    (hr : running s t 0x13 (some 0) = some (g, k)) (hn : n ≤ 1048576)
    (hm : mayUpdate s g.pen num x t i (deletesLive s g k x i) = true) (hb : readOp s g.pen (some g) (opd k 1) (8 * i) 8 = .ok b)
    (hd : r = applyDelete x (BitVec.ofNat 64 (ofLe b))) (hu : tookEntry s g.pen num x r.1 t i = some u)
    (hw : w = modTask u t fun z => { z with run := .update (i + 1) (a + 1) (if r.2 then f + 1 else f), wrote := true }) :
    exec (.delete t) s =
      .next (if i + 1 = n then finishUpdate w t g k num stSuccess (a + 1) (if r.2 then f + 1 else f) else w) := by
  subst hd hw
  change execDelete t s = _
  simp [execDelete, hr, h.held, h.index, h.progress, h.primary, h.count_fits hn, h.reserved, h.operands, h.array, hm, hb, hu, ← h.count]

/-! Create and open (R140, R149). -/

section
variable {db cb : List Byte} (hr : running s t 0x12 (some 2) = some (g, k)) (hargs : createArgs s g k = (some (db, cb), 0))
  (hepoch : (createOf cb).epoch = 0) (hfits : createFits k db cb = true)
  (hclash : createClash s g.pen (newNumber (opd k 0)) cb = false)
include hr hargs hepoch hfits hclash

theorem exec_indexCreate_makes {u : State} (hattach : (createOf cb).attach = false) (hrun : k.run = .none)
    (hmirror : (createOf cb).mirrored = false ∨ (createOf cb).target = true)
    (hu : makeIndex s g.pen (newNumber (opd k 0)) k.quad (newIndex (descOf db) (createOf cb) (freeSpace s)) cb 1 = some u) :
    exec (.indexCreate t) s = .next (finishTask u t stSuccess 1) := by
  have hask : ((createOf cb).mirrored && !(createOf cb).target) = false := by
    rcases hmirror with h | h <;> simp [h]
  change execIndexCreate t s = _
  simp [execIndexCreate, createNow, hr, hargs, hepoch, hfits, hclash, hattach, hrun, hask, hu]

variable (hattach : (createOf cb).attach = true)
include hattach

theorem exec_indexOpen_missing (hnone : ∀ st, st ∈ s.ftl.stores → st.key ≠ (createOf cb).storeKey) :
    exec (.indexOpen t) s = .next (finishTask s t stNotFound 0) := by
  have hfind : s.ftl.stores.find? (fun x => x.key == (createOf cb).storeKey && x.epoch != 0) = none := by
    rw [List.find?_eq_none]
    intro st hst
    simp [hnone st hst]
  change execIndexOpen t s = _
  simp [execIndexOpen, hr, hargs, hepoch, hfits, hclash, hattach, hfind]

theorem exec_indexOpen_attaches {st : Store} {x : Index} {u v : State}
    (hfind : s.ftl.stores.find? (fun y => y.key == (createOf cb).storeKey && y.epoch != 0) = some st) (hdesc : st.desc = descOf db)
    (hx : x = { newIndex st.desc (createOf cb) st.space with
      epochs := [(st.epoch, st.snap)], latest := st.epoch, work := st.snap, mirrorLost := (createOf cb).mirrored
      base := st.epoch, logPos := st.logPos })
    (hu : newObject s g.pen (newNumber (opd k 0)) k.quad bale (.index x) = some u)
    (hv : fitIndex u g.pen (newNumber (opd k 0)) x = some v) :
    exec (.indexOpen t) s = .next (finishTask (updStore (syncIndex v g.pen (newNumber (opd k 0))) st.space
      fun y => { y with open_ := true }) t stSuccess st.epoch) := by
  subst hx
  change execIndexOpen t s = _
  simp [execIndexOpen, hr, hargs, hepoch, hfits, hclash, hattach, hfind, ← hdesc, hu, hv]

end

/-! Rebuild (R151). -/

theorem exec_rebuildIndex_commits {db cb : List Byte} {src x : Index} {sn : Snap} {u v : State}
    (hr : running s t 0x12 (some 3) = some (g, k)) (hrun : k.run ≠ .update 1 0 0) (hheld : opLost s g.pen (opd k 2) = false)
    (hargs : createArgs s g k = (some (db, cb), 0)) (hfits : createFits k db cb = true) (hattach : (createOf cb).attach = false)
    (hclash : createClash s g.pen (newNumber (opd k 0)) cb = false) (hsrc : indexOf s g.pen (opd k 2) = some (num, src))
    (hcode : (descOf db).codeLog = src.desc.codeLog) (hattr : (descOf db).attrBytes = src.desc.attrBytes)
    (hdim : (descOf db).vecDim = src.desc.vecDim) (hfmt : (descOf db).vecFmt = src.desc.vecFmt) (hflash : (descOf db).flash = false)
    (hsn : k.bound.bind (tget? src.epochs) = some sn)
    (hx : rebuilt { newIndex (descOf db) (createOf cb) (freeSpace s) with mirrorLost := (createOf cb).mirrored } sn = some x)
    (hu : makeIndex s g.pen (newNumber (opd k 0)) k.quad x cb 0 = some u)
    (hv : fitIndex u g.pen (newNumber (opd k 0)) x = some v) :
    exec (.rebuildIndex t) s = .next (finishTask (syncIndex v g.pen (newNumber (opd k 0))) t stSuccess 1) := by
  change execRebuildIndex t s = _
  simp [execRebuildIndex, hr, hrun, hheld, hargs, hfits, hattach, hclash, hsrc, hcode, hattr, hdim, hfmt, hflash, hsn, hx, hu, hv]

/-- A rebuilt index holds one epoch, the first, which is its working state. -/
theorem rebuilt_epochs {x y : Index} {sn : Snap} (h : rebuilt x sn = some y) : y.latest = 1 ∧ y.held = 1 ∧ y.epochs = [(1, y.work)] := by
  obtain ⟨z, -, rfl⟩ := Option.map_eq_some_iff.1 h
  exact ⟨rfl, rfl, rfl⟩

/-! Destroy and the repair sweep asked for (R139, R146). -/

section
variable (hx : indexOf s g.pen (opd k 0) = some (num, x)) (hops : updOpsOk k = true)
include hx hops

theorem exec_destroy_drops (hr : running s t 0x13 (some 1) = some (g, k)) (hpar : par k 1 63 = 0) (hflash : x.desc.flash = false)
    (hcommits : x.commits = []) (hload : x.loading = none) :
    exec (.destroy t) s = .next (finishTask (destroyObj s g.pen num) t stSuccess 0) := by
  change execDestroy t s = _
  simp [execDestroy, hr, hx, hops, hpar, hflash, hcommits, hload]

variable (hr : running s t 0x13 (some 2) = some (g, k)) (hheld : opLost s g.pen (opd k 0) = false) (htarget : x.target = false)
  (hpar : k.param = 0)
include hr hheld htarget hpar

theorem exec_repairSweepNow_waits {sw : Sweep} (hsw : x.sweep = some sw) (hnew : ¬(t ∈ sw.waiters ∨ t ∈ sw.next)) :
    exec (.repairSweepNow t) s = .next (setIndex s g.pen num { x with sweep := some { sw with next := sw.next ++ [t] } }) := by
  change execRepairSweepNow t s = _
  simp only [execRepairSweepNow, hr, hheld, hx, htarget, hpar, hops, hsw, if_neg hnew, bne_self_eq_false, Bool.not_true, Bool.or_self,
    Bool.false_eq_true, if_false]

theorem exec_repairSweepNow_begins (hsw : x.sweep = none) : exec (.repairSweepNow t) s = .next (beginSweep s g.pen num x [t]) := by
  change execRepairSweepNow t s = _
  simp [execRepairSweepNow, hr, hheld, hx, htarget, hpar, hops, hsw]

end

end

/-- Settles O49: the equation of each task, and what `newIndex` and `rebuilt` hold. -/
theorem indexesAreUpdated : Obligations.IndexesAreUpdated := by
  refine ⟨fun s t g k => ⟨?entries, ?create, ?rebuild, ?objects⟩, fun d c space => ⟨rfl, rfl, rfl, rfl⟩, fun x y sn => rebuilt_epochs⟩
  case entries =>
    intro num x n i a f hheld hx hprog hn htarget h1 hres hops harr
    have h : Updates s g k num x n i a f := ⟨hheld, hx, hprog, hn, htarget, h1, hres, hops, harr⟩
    refine ⟨?insert, fun hr hmax hm b r u w hb hd hu hw => exec_delete_applies h hr hmax hm hb hd hu hw⟩
    case insert =>
      intro hr hmax hm b hb hp
      exact ⟨exec_insert_full h hr hmax hm hb hp, fun y slot rep u w ha hs hu hw => exec_insert_applies h hr hmax hm hb hp ha hs hu hw⟩
  case create =>
    intro hr db cb hargs hepoch hfits hclash
    refine ⟨fun hattach hrun hmirror u hu => exec_indexCreate_makes hr hargs hepoch hfits hclash hattach hrun hmirror hu, ?attach⟩
    case attach =>
      intro hattach
      exact ⟨exec_indexOpen_missing hr hargs hepoch hfits hclash hattach, fun st x u v hfind hdesc hx hu hv =>
        exec_indexOpen_attaches hr hargs hepoch hfits hclash hattach hfind hdesc hx hu hv⟩
  case rebuild =>
    intro hr hrun hheld db cb num src sn x u v hargs hfits hattach hclash hsrc hcode hattr hdim hfmt hflash hsn hx hu hv
    exact exec_rebuildIndex_commits hr hrun hheld hargs hfits hattach hclash hsrc hcode hattr hdim hfmt hflash hsn hx hu hv
  case objects =>
    intro num x hx hops
    refine ⟨exec_destroy_drops hx hops, fun hr hheld htarget hpar => ?sweep⟩
    case sweep =>
      exact ⟨fun sw hsw hnew => exec_repairSweepNow_waits hx hops hr hheld htarget hpar hsw hnew,
        exec_repairSweepNow_begins hx hops hr hheld htarget hpar⟩

end Sys2Proof.Machine
end

section
/-!
PROOFS. Commits (O50): the index that a seal leaves, and one equation for each of SEAL, COMMIT_COMPLETE, SWEEP_END and EPOCH_COMMIT.
-/

namespace Sys2Proof.Machine

/-! The first unsealed commit replaced. -/

theorem length_sealFirst (c : Commit) (l : List Commit) : (sealFirst c l).length = l.length := by
  induction l with
  | nil => rfl
  | cons x r ih =>
    unfold sealFirst
    split
    · simp [ih]
    · rfl

theorem mem_sealFirst (c : Commit) {l : List Commit} (h : ∃ x ∈ l, x.sealed = false) : c ∈ sealFirst c l := by
  induction l with
  | nil => simp at h
  | cons x r ih =>
    unfold sealFirst
    split
    · next hx =>
      have hr : ∃ y ∈ r, y.sealed = false := by simpa [hx] using h
      exact List.mem_cons_of_mem x (ih hr)
    · exact List.mem_cons_self

section
variable {s : State} {p num num' : Nat} {x : Index} {c : Commit}
variable (hx : indexOf s p (.obj num 0) = some (num', x)) (hheld : opLost s p (.obj num 0) = false)

/-! SEAL (R132, R134). -/

/-- A commit once sealed (R134, R409). -/
def sealedCommit (s : State) (p : Nat) (x : Index) (c : Commit) : Commit :=
  { c with
    epoch := nextEpoch x, snap := withCrown x.desc x.work, sealed := true, admission := admits s p x
    mackPending := admits s p x || (x.mirrored && !x.mirrorLost), pos := wrapAdd 64 x.logPos 1 }

/-- The index once its oldest unsealed commit c is sealed (R134, R136). -/
def sealedIndex (s : State) (p : Nat) (x : Index) (c : Commit) : Index :=
  { logged { x with work := withCrown x.desc x.work } 5 [] with
    commits := sealFirst (sealedCommit s p x c) x.commits
    loading := x.loading.map fun m => if admits s p x then { m with phase := 3 } else m }

section
variable (hc : x.commits.find? (fun y => !y.sealed) = some c)
include hx hc

theorem exec_seal_waits (hbegun : x.begun ≠ []) : exec (.seal p num) s = .next s := by
  change execSeal p num s = _
  simp [execSeal, hx, hc, hbegun]

include hheld in
theorem exec_seal_seals (hreplay : s.trace.replay = false) (hbegun : x.begun = []) (hflash : x.desc.flash = false)
    (hepoch : nextEpoch x ≤ 0xFFFFFFFFFFFF) : exec (.seal p num) s = .next (traceDecide (keepIndex s p num x (sealedIndex s p x c)) 0x12
      (sealBody p num (nextEpoch x) x.logPos)) := by
  have hgo : (!x.begun.isEmpty || opLost s p (.obj num 0) ||
      !replayAllows s 0x12 (sealBody p num (nextEpoch x) x.logPos)) = false := by
    simp [hbegun, hheld, replayAllows_outside_replay _ _ hreplay]
  change execSeal p num s = _
  simp only [execSeal, hx, hc, hgo, hflash, hepoch.not_gt, Bool.false_eq_true, if_false]
  rfl

end

section
include hx

/-- The index that a SEAL leaves in its object. -/
theorem indexOf_sealed : ∃ w, indexOf (traceDecide (keepIndex s p num x (sealedIndex s p x c)) 0x12 (sealBody p num (nextEpoch x) x.logPos))
    p (.obj num 0) = some (num, { sealedIndex s p x c with wild := w }) := by
  obtain ⟨-, o, ho, -⟩ := objOf_of_indexOf hx
  obtain ⟨w, hw⟩ := noteWild_eq s p num (sealedIndex s p x c)
  refine ⟨w, ?_⟩
  rw [indexOf_of_pens (traceDecide_pens ..), indexOf_keepIndex s x _ (by rw [ho]; rfl), hw]

end

/-- The sealed commit stands among the commits of the sealed index. -/
theorem sealedCommit_mem (hc : x.commits.find? (fun y => !y.sealed) = some c) : sealedCommit s p x c ∈ (sealedIndex s p x c).commits :=
  mem_sealFirst _ ⟨c, List.mem_of_find?_eq_some hc, by simpa using List.find?_some hc⟩

/-! COMMIT_COMPLETE (R134, R135). -/

section
include hx hheld

theorem exec_commitComplete_lands {l : Landing} {r : List Landing} (hl : x.landing = l :: r) :
    exec (.commitComplete p num) s = .next (landNext s p num x l) := by
  change execCommitComplete p num s = _
  simp [execCommitComplete, hx, hheld, hl]

section
variable (hl : x.landing = []) (hc : x.commits.head? = some c) (hsealed : c.sealed = true) (hmack : c.mackPending = false)
include hl hc hsealed hmack

theorem exec_commitComplete_records (hflash : x.desc.flash = true) (hmaps : mapsDurable s x.space = true) (hrec : c.recorded = false) :
    exec (.commitComplete p num) s =
      .next (setIndex (stageCommit s x c.epoch) p num { x with commits := { c with recorded := true } :: x.commits.drop 1 }) := by
  change execCommitComplete p num s = _
  simp [execCommitComplete, hx, hheld, hl, hc, hsealed, hmack, hflash, hmaps, hrec]

theorem exec_commitComplete_commits (hadm : c.admission = false) (hflash : x.desc.flash = false) {y : Index} {u : State}
    (hy : y = pruneEpochs (epochBusy s p num) (commitEpoch x c)) (hu : u = keepIndex s p num x y) (hdue : sweepDue y = false) :
    exec (.commitComplete p num) s =
      .next (endCommit u p c c.epoch (if x.mirrored && x.mirrorLost then stMirrorLost else stSuccess)) := by
  subst hy hu
  change execCommitComplete p num s = _
  simp [execCommitComplete, hx, hheld, hl, hc, hsealed, hmack, hflash, hadm, hdue]

end

/-! SWEEP_END (R146). -/

theorem exec_sweepEnd_closes {sw : Sweep} {u : State} {y : Index} (hsw : x.sweep = some sw) (htarget : x.target = false)
    (hu : u = closeSweep s p num x sw) (hy : indexOf u p (.obj num 0) = some (num, y)) :
    exec (.sweepEnd p num) s = .next (if sw.due || !sw.next.isEmpty then beginSweep u p num y sw.next else u) := by
  subst hu
  change execSweepEnd p num s = _
  simp [execSweepEnd, hx, hheld, hsw, htarget, hy]

end

end

/-! EPOCH_COMMIT (R338). -/

theorem exec_epochCommit_queues {s u : State} {cmd : Cmd} {n p num num' : Nat} {x : Index} (report : OpRef)
    (hn : canFetch s cmd = some n) (hskex : onSkex s cmd = true) (hbad : cmd.bad = false) (hp : p = penOfCtl cmd.ctl)
    (htarget : x.target = false) (hu : u = doFetch s cmd n) (hx : indexOf u p (.obj num 0) = some (num', x))
    (hheld : opLost u p (.obj num 0) = false) :
    exec (.epochCommit cmd num report) s = .next (setIndex u p num { x with commits := x.commits ++
      [{ cmd := cmd, report := report, epoch := 0, snap := {}, sealed := false, mackPending := false }] }) := by
  subst hp hu
  change execEpochCommit cmd num report s = _
  simp [execEpochCommit, withCmd, hn, onSkex_doFetch, hskex, hbad, hheld, hx, htarget]

/-- Settles O50: the equation of each command, and for a SEAL the index that it leaves. -/
theorem commitsMakeEpochs : Obligations.CommitsMakeEpochs := by
  intro s p num num' x c hx hheld
  refine ⟨?sealing, fun l r => exec_commitComplete_lands hx hheld, ?complete, ?sweep, ?queue⟩
  case sealing =>
    intro hc hreplay
    refine ⟨exec_seal_waits hx hc, fun hbegun hflash hepoch =>
      ⟨_, exec_seal_seals hx hheld hc hreplay hbegun hflash hepoch, ?_⟩⟩
    obtain ⟨w, hw⟩ := indexOf_sealed (c := c) hx
    exact ⟨_, hw, rfl, rfl, rfl, length_sealFirst .., sealedCommit s p x c, sealedCommit_mem hc, rfl, rfl, rfl⟩
  case complete =>
    intro hl hc hsealed hmack
    refine ⟨exec_commitComplete_records hx hheld hl hc hsealed hmack, fun hadm hflash y u hy hu hdue =>
      exec_commitComplete_commits hx hheld hl hc hsealed hmack hadm hflash hy hu hdue, rfl, tget?_tput_same .., Nat.min_le_left ..⟩
  case sweep =>
    intro sw u y hsw htarget hu hy
    rw [exec_sweepEnd_closes hx hheld hsw htarget hu hy]
    exact ⟨fun hdue hnext => by simp [hdue, hnext], fun hdue => by simp [hdue]⟩
  case queue =>
    intro cmd n u report hn hskex hbad hp htarget hu hx hheld
    exact exec_epochCommit_queues report hn hskex hbad hp htarget hu hx hheld

end Sys2Proof.Machine
end

section
/-!
PROOFS. What Flue messages do (O58): a message in its turn is taken, counted and acknowledged, and then acts by its type's own operation;
one equation for each such operation, and for LEND, MIRROR_LOAD, MIRROR_PROMOTE and the end of a hand-over. The bodies are the model's (log 15).
-/

namespace Sys2Proof.Machine

/-! Messages in their turn (R399, R402). -/

/-- A message of the inbox that fits its context and is the next of its VC (R399, R402); u is the node without it, v the node once it was
counted and acknowledged. -/
structure InTurn (s : State) (m : FlueMsg) (u v : State) : Prop where
  taken : takeInbox s m m.type = some u
  fits : msgFits u m = true
  turn : m.mseq = expectedMseq (ctxOf u m.dctx) (vcOf m.type)
  after : v = u.afterMsg m

theorem takeInbox_type {s u : State} {m : FlueMsg} {type : Nat} (h : takeInbox s m type = some u) : m.type = type := by
  unfold takeInbox at h
  split at h
  · next hm => exact hm.1
  · cases h

section
variable {s u v : State} {m : FlueMsg}

theorem onMsg_inTurn (h : InTurn s m u v) {type : Nat} (ht : m.type = type) (f : State → State) : onMsg s m type f = .next (f v) := by
  obtain ⟨htaken, hfits, hturn, rfl⟩ := h
  subst ht
  unfold expectedMseq at hturn
  simp only [onMsg, htaken, acceptMsg, hfits, Bool.not_true, Bool.false_eq_true, if_false]
  rw [if_pos hturn]
  rfl

/-! PUT, PUT_DONE, shard queries and answers (R404 to R406). -/

theorem takePut_writes {n : Nat} {o : Obj} (hland : (ctxOf v m.dctx).landing = some n) (ho : objOf v (ctxOf v m.dctx).pen n = some o)
    (harr : (ctxOf v m.dctx).arrival = none) (hdata : m.body.drop 16 ≠ []) (hfit : fieldAt m.body 0 8 + (m.body.drop 16).length ≤ o.bytes) :
    takePut v m = ctxSend (writeHome v (ctxOf v m.dctx).pen none (.obj n (fieldAt m.body 0 8)) 0 (m.body.drop 16)) m.dctx 0x11 0 m.corrid
      (le 2 stSuccess) := by
  have hok : ¬(o.bytes < fieldAt m.body 0 8 + (m.body.drop 16).length ∨ (m.body.drop 16).isEmpty) := by
    rw [List.isEmpty_iff]
    exact not_or.2 ⟨hfit.not_gt, hdata⟩
  simp only [takePut, hland, ho, harr, if_neg hok, putAnswer]

theorem exec_putDone_ends (h : InTurn s m u v) (ht : m.type = 0x11) {t : TaskId} {g : Graph} {k : Task} {q : Nat}
    (htask : t = ⟨m.corrid / 65536, m.corrid % 65536⟩) (hr : running v t 0x20 (some 0) = some (g, k)) (hrun : k.run = .send m.dctx q) :
    exec (.putDone m) s =
      .next (finishTask v t (fieldAt m.body 0 2) (if fieldAt m.body 0 2 = stSuccess then k.result else 0)) := by
  subst htask
  change execPutDone m s = _
  rw [execPutDone, onMsg_inTurn h ht]
  simp only [hr, hrun, ne_eq, not_true_eq_false, if_false]

theorem exec_answer_fills (h : InTurn s m u v) (ht : m.type = 0x21) {t : TaskId} {g : Graph} {k : Task} {w : Walk} {i : Nat} {sh : Shard}
    (hshard : shardOf v (ctxOf v m.dctx).pen m.dctx m.corrid = some (t, g, k, w, i)) (hsh : w.shards[i]? = some sh) :
    exec (.answer m) s = .next (finishFan v t g k { w with shards := w.shards.set i (takeAnswer sh m.body) }) := by
  change execAnswer m s = _
  rw [execAnswer, onMsg_inTurn h ht]
  simp only [hshard, hsh]

theorem exec_queryMessage_takes (h : InTurn s m u v) (ht : m.type = 0x20) (hmay : mayAccept s (ctxOf s m.dctx).pen = true)
    (hnow : fitsNow s (ctxOf s m.dctx).pen oneTask = true) (hreplay : s.trace.replay = false) :
    exec (.queryMessage m) s = .next (takeQuery v m) := by
  change execQueryMessage m s = _
  rw [execQueryMessage, onMsg_inTurn h ht]
  simp [hmay, hnow, replayAllows_outside_replay _ _ hreplay]

/-! The mirror stream and the load of a target (R148, R408, R409). -/

/-- A mirror target is an index in its object. -/
theorem indexOf_of_targetOf {p num : Nat} {y : Index} (h : targetOf v m = some (p, num, y)) :
    indexOf v p (.obj num 0) = some (num, y) := by
  unfold targetOf at h
  dsimp only at h
  split at h
  · next num' x hx =>
    split at h
    · simp only [Option.some.injEq, Prod.mk.injEq] at h
      obtain ⟨rfl, rfl, rfl⟩ := h
      exact (objOf_of_indexOf hx).1 ▸ hx
    · cases h
  · cases h

/-- A target whose load is installed applies a streamed record at once. -/
theorem takeRec_applies {p num : Nat} {y : Index} (ht : targetOf v m = some (p, num, y)) (hy : y.epochs ≠ []) :
    takeRec v m = targetRec v p num m.dctx (logRecOf (m.body.drop 4)) := by
  simp [takeRec, ht, hy]

theorem toLand_flash {x : Index} (c e : Nat) (sn : Snap) (h : x.desc.flash = true) :
    toLand x c e sn = { x with landing := x.landing ++ [{ ctx := some c, epoch := e, snap := sn, pos := x.logPos }] } :=
  if_pos h

theorem toLand_stacks {x : Index} (c e : Nat) (sn : Snap) (h : x.desc.flash = false) : toLand x c e sn = x :=
  if_neg (Bool.eq_false_iff.1 h)

theorem targetRec_commits {p num c : Nat} {y : Index} {r : LogRec} (hy : indexOf v p (.obj num 0) = some (num, y)) (hk : r.kind = 5)
    {sn : Snap} {w z : Index} (hsn : sn = withCrown y.desc y.work) (hw : w = logged { y with work := sn } 5 [])
    (hz : z = { w with epochs := tput w.epochs r.epoch sn, latest := r.epoch, held := min w.hold (w.held + 1) }) :
    targetRec v p num c r = if y.desc.flash then keepIndex v p num y (pruneEpochs (epochBusy v p num)
        { z with landing := z.landing ++ [{ ctx := some c, epoch := r.epoch, snap := sn, pos := z.logPos }] })
      else ctxSend (keepIndex v p num y (pruneEpochs (epochBusy v p num) z)) c 0x32 0 0 (mackBody num r.epoch stSuccess) := by
  have hcommit : targetRec v p num c r = ackEpoch (keepIndex v p num y (pruneEpochs (epochBusy v p num) (toLand z c r.epoch sn))) c num
      r.epoch y.desc.flash := by
    subst hsn hw hz
    simp only [targetRec, hy, hk, if_true]
    rfl
  have hdesc : z.desc = y.desc := by rw [hz, hw]; rfl
  rw [hcommit]
  cases hf : y.desc.flash with
  | true => rw [toLand_flash _ _ _ (hdesc ▸ hf)]; rfl
  | false => rw [toLand_stacks _ _ _ (hdesc ▸ hf)]; rfl

theorem exec_mrec_applies (h : InTurn s m u v) (ht : m.type = 0x30) {p num : Nat} {y : Index} (hy : targetOf v m = some (p, num, y))
    (he : y.epochs ≠ []) : exec (.mrec m) s = .next (targetRec v p num m.dctx (logRecOf (m.body.drop 4))) := by
  change execMrec m s = _
  rw [execMrec, onMsg_inTurn h ht, takeRec_applies hy he]

theorem exec_mcommit_applies (h : InTurn s m u v) (ht : m.type = 0x31) (hcorr : m.corrid = 0) {p num : Nat} {y : Index}
    (hy : targetOf v m = some (p, num, y)) (he : y.epochs ≠ []) :
    exec (.mcommit m) s = .next (targetRec v p num m.dctx (logRecOf (m.body.drop 4))) := by
  change execMcommit m s = _
  rw [execMcommit, onMsg_inTurn h ht, takeRec_applies hy he, hcorr]
  rfl

theorem exec_mack_frees (h : InTurn s m u v) (ht : m.type = 0x32) (hcorr : m.corrid = 0) {p num : Nat} {y : Index}
    (hy : primaryOf v m = some (p, num, y)) (hload : y.loading = none) : exec (.mack m) s =
      .next (setIndex v p num { y with commits := y.commits.map fun z =>
        if z.sealed && z.epoch == fieldAt m.body 4 6 then { z with mackPending := false } else z }) := by
  change execMack m s = _
  rw [execMack, onMsg_inTurn h ht]
  simp only [hcorr, ne_eq, not_true_eq_false, if_false, takeMack, hy, hload]

section
variable (h : InTurn s m u v) (ht : m.type = 0x33) {p num : Nat} {y : Index} (hy : targetOf v m = some (p, num, y))
include h ht hy

theorem exec_load_rejects (hcrc : BitVec.ofNat 32 (fieldAt m.body 8 4) ≠ crc32c (m.body.drop 12)) :
    exec (.load m) s = .next (rejectMsg v) := by
  change execLoad m s = _
  rw [execLoad, onMsg_inTurn h ht]
  simp only [hy, bne_iff_ne.2 hcrc, if_true]

theorem exec_load_takes (hcrc : BitVec.ofNat 32 (fieldAt m.body 8 4) = crc32c (m.body.drop 12))
    (hpart : fieldAt m.body 4 1 = 0 ∨ y.epochs = []) : exec (.load m) s = .next (loadPart v m p num y) := by
  have hopen : (fieldAt m.body 4 1 != 0 && !y.epochs.isEmpty) = false := by
    rcases hpart with hp | hp <;> simp [hp]
  change execLoad m s = _
  rw [execLoad, onMsg_inTurn h ht]
  simp only [hy, hcrc, bne_self_eq_false, hopen, Bool.false_eq_true, if_false]

end

/-! Lent memory (R411 to R413). -/

section
variable {l : Lent} (hl : (objOf v (ctxOf v m.dctx).pen (fieldAt m.body 0 4)).bind (·.lent) = some l)
include hl

theorem takeRequest_serves (hk : l.kind = 0) (hc : l.ctx = m.dctx) (hg : l.gen = m.gen) (hh : l.handover = none) :
    takeRequest v m = serveLent v (ctxOf v m.dctx).pen m := by
  simp [takeRequest, hl, hk, hc, hg, hh]

theorem takeRequest_stale (hg : l.gen ≠ m.gen) : takeRequest v m = sendRresp v m stMapStale [] := by
  simp [takeRequest, hl, hg]

end

/-- A read none of whose lines is owned is taken as it arrives. -/
theorem exec_rread_takes (h : InTurn s m u v) (ht : m.type = 0x40) (hset : readUnsettled s (ctxOf s m.dctx).pen m = []) :
    exec (.rread m) s = .next (takeRequest v m) := by
  change execRread m s = _
  rw [execRread, onMsg_inTurn h ht]
  simp [hset]

/-- A read asks first for the lines of its range that are owned. -/
theorem exec_rread_asks (hnow : servedNow s m = true) (hset : readUnsettled s (ctxOf s m.dctx).pen m ≠ []) :
    exec (.rread m) s = .next (askLines s (readUnsettled s (ctxOf s m.dctx).pen m)) := by
  change execRread m s = _
  simp [execRread, hnow, hset]

theorem exec_rwrite_takes (h : InTurn s m u v) (ht : m.type = 0x41) : exec (.rwrite m) s = .next (takeRequest v m) :=
  onMsg_inTurn h ht _

theorem exec_rresp_ends (h : InTurn s m u v) (ht : m.type = 0x42) {t : TaskId} {g : Graph} {k : Task}
    (hw : copyWaiting v (ctxOf v m.dctx).pen m.corrid = some (t, g, k, [m.corrid], 0)) (hst : fieldAt m.body 0 2 = stSuccess)
    (hb : borrowedOf v g.pen (opd k 0) = none) :
    exec (.rresp m) s = .next (finishTask (modTask v t fun y => { y with run := .remote [] 0 }) t stSuccess k.result) := by
  change execRresp m s = _
  rw [execRresp, onMsg_inTurn h ht]
  simp [takeRresp, hw, hst, hb, without, stSuccess]

theorem exec_mapupd_grants (h : InTurn s m u v) (ht : m.type = 0x43) (hgrant : fieldAt m.body 0 1 = 1)
    (ho : objOf v (ctxOf v m.dctx).pen (fieldAt m.body 2 2) = none) : exec (.mapupd m) s =
      .next (putObj v (ctxOf v m.dctx).pen (fieldAt m.body 2 2)
        { kind := .borrowed m.dctx (fieldAt m.body 4 4) m.gen (fieldAt m.body 8 8), bytes := fieldAt m.body 8 8 }) := by
  change execMapupd m s = _
  rw [execMapupd, onMsg_inTurn h ht]
  simp only [ho, hgrant, if_true]

end

/-! Keyed commands with arguments in their ranges (R357, R371). -/

theorem withKeyedArgs_accepted {s : State} {c : Cmd} {b : KBlock} {code n : Nat} {permit : Nat → Bool} {ok : Bool}
    (f : State → Nat → State) (hn : canFetch s c = some n) (ha : keyedAccepted s c b code permit = true) (hok : ok = true)
    (hresv : allZero b.resv = true) : withKeyedArgs s c b code permit ok f = .next (f (s.afterKeyed c b n) (penOfCtl c.ctl)) := by
  rw [withKeyedArgs, hok, hresv]
  exact withKeyed_accepted s c b code n permit f hn ha

section
variable {s u : State} {c : Cmd} {b : KBlock} {n p num : Nat} (hn : canFetch s c = some n) (hu : u = s.afterKeyed c b n)
  (hresv : allZero b.resv = true) (hp : p = penOfCtl c.ctl) (hnum : num = karg b 0 2)
include hn hu hresv hp hnum

theorem exec_lend_names {o : Obj} (ha : keyedAccepted s c b 0x0303 (fun _ => true) = true) (hok : lendOk b = true)
    (ho : objOf u p num = some o) (hlost : o.lost = false) (hhome : homeFailed u o = false) (hin : inStacks o = true)
    (hfree : o.lent = none) (hctx : karg b 2 1 = 0 → (ctxOf u (karg b 4 2)).pen = p ∧ ((ctxOf u (karg b 4 2)).st = 1 ∨
      (ctxOf u (karg b 4 2)).st = 2)) :
    exec (.lend c b) s = .next (lendTo u p num (karg b 2 1) (karg b 4 2) (karg b 8 2) c) := by
  subst hu hp hnum
  change execLend c b s = _
  rw [execLend, withKeyedArgs_accepted _ hn ha hok hresv]
  by_cases hk : karg b 2 1 = 0
  · obtain ⟨hpen, hst | hst⟩ := hctx hk <;> simp [ho, hlost, hhome, hin, hfree, hpen, hst]
  · simp [ho, hlost, hhome, hin, hfree, hk]

section
variable (hargs : allZero (sub b.args 2 30) = true) (hheld : opLost u p (.obj num 0) = false) {num' : Nat} {y : Index}
  (hy : indexOf u p (.obj num 0) = some (num', y))
include hargs hheld hy

theorem exec_mirrorLoad_asks (ha : keyedAccepted s c b 0x0304 (fun _ => true) = true) (hmirror : y.mirrored = true)
    (htarget : y.target = false) (hload : y.loading = none) {ctx : Nat} (hctx : ctxTo u p y.mirrorNode = some ctx) :
    exec (.mirrorLoad c b) s = .next (ctxSend (setIndex u p num { y with
      loading := some { cmd := c, epoch := y.latest, phase := 0 }, mirrorLost := true }) ctx 0x33 0 0
      (loadBody y.mirrorObject 0 (descBytes y.desc))) := by
  subst hu hp hnum
  change execMirrorLoad c b s = _
  rw [execMirrorLoad, withKeyedArgs_accepted _ hn ha hargs hresv]
  simp [hheld, hy, hmirror, htarget, hload, hctx]

theorem exec_mirrorPromote_promotes (ha : keyedAccepted s c b 0x0305 (fun _ => true) = true) (htarget : y.target = true) {sn : Snap}
    (hsn : tget? y.epochs y.latest = some sn) : ∃ z : Index, exec (.mirrorPromote c b) s =
      .next (complete (keepIndex u p num z z) c stSuccess) ∧ z.target = false ∧ z.mirrored = false ∧ z.work = sn ∧
        z.latest = y.latest ∧ z.epochs = y.epochs := by
  subst hu hp hnum
  change ∃ z : Index, execMirrorPromote c b s = _ ∧ _
  rw [execMirrorPromote, withKeyedArgs_accepted _ hn ha hargs hresv]
  simp only [hheld, hy, hsn, htarget, Bool.not_true, Bool.false_eq_true, if_false]
  exact ⟨_, rfl, rfl, rfl, rfl, rfl, rfl⟩

end

end

/-! The end of a hand-over (R413). -/

theorem exec_lendHandoverDone_completes {s : State} {p num : Nat} {o : Obj} {l : Lent} {cmd : Cmd} (ho : objOf s p num = some o)
    (hl : o.lent = some l) (hcmd : l.handover = some cmd) (hdrain : l.draining = []) (hopen : l.kind ≠ 0 ∨ (ctxOf s l.ctx).st ≠ 1)
    (hhost : l.kind = 1 ∨ hostHeld s o = []) (hwait : l.waiting = []) (hqueued : l.queued = []) :
    exec (.lendHandoverDone p num) s = .next (complete (updObj s p num fun x => { x with
      lent := if l.kind = 2 then none else some { l with handover := none, waiting := [], queued := [] } }) cmd stSuccess) := by
  have hopening : (l.kind == 0 && (ctxOf s l.ctx).st == 1) = false := by
    rcases hopen with h | h <;> simp [h]
  have hheld : (l.kind != 1 && !(hostHeld s o).isEmpty) = false := by
    rcases hhost with h | h <;> simp [h]
  change execLendHandoverDone p num s = _
  simp only [execLendHandoverDone, ho, hl, hcmd, hdrain, hopening, hheld, hwait, hqueued, List.flatMap_nil, List.foldl_nil,
    List.isEmpty_nil, Bool.not_true, Bool.or_self, Bool.false_eq_true, if_false]

/-- Settles O58: a message in its turn by `onMsg_inTurn` and its operation's equation, the keyed commands by `withKeyedArgs_accepted`. -/
theorem flueMessagesAct : Obligations.FlueMessagesAct := by
  refine ⟨?messages, ?commands, fun s p num o l cmd => exec_lendHandoverDone_completes⟩
  case messages =>
    rintro s m u v _ rfl hfits hturn hv
    refine ⟨fun htaken => ?taken, ?query, ?asks⟩
    case taken =>
      have h : InTurn s m u v := ⟨htaken, hfits, hturn, hv⟩
      refine ⟨?put, fun ht t g k q => exec_putDone_ends h ht, fun ht t g k w i sh => exec_answer_fills h ht, ?stream,
        fun ht hcorr p num y => exec_mack_frees h ht hcorr, ?load, ?lent, ?rresp, exec_mapupd_grants h⟩
      case put =>
        intro ht
        have hput : exec (.put m) s = .next (takePut v m) := onMsg_inTurn h ht _
        refine ⟨hput, fun n o _ ho hpen hland harr hdata hfit => ?_⟩
        rw [← hpen] at ho ⊢
        rw [hput, takePut_writes hland ho harr hdata hfit]
      case stream =>
        rintro p num y _ hy rfl he
        refine ⟨fun ht _ => exec_mrec_applies h ht hy he, fun ht hk hcorr sn w z hsn hw hz => ?_⟩
        rw [exec_mcommit_applies h ht hcorr hy he, targetRec_commits (indexOf_of_targetOf hy) hk hsn hw hz]
      case load =>
        intro ht p num y hy
        exact ⟨exec_load_rejects h ht hy, exec_load_takes h ht hy⟩
      case lent =>
        intro l hset hl
        refine ⟨fun hk hc hg hh => ?_, fun hg => ?_⟩
        · rw [← takeRequest_serves hl hk hc hg hh]
          exact ⟨fun ht => exec_rread_takes h ht hset, exec_rwrite_takes h⟩
        · rw [← takeRequest_stale hl hg]
          exact ⟨fun ht => exec_rread_takes h ht hset, exec_rwrite_takes h⟩
      case rresp =>
        intro ht t g k hw hst _ hb
        exact exec_rresp_ends h ht hw hst hb
    case query =>
      intro htaken _ hmay hnow hreplay
      have ht := takeInbox_type htaken
      exact exec_queryMessage_takes ⟨ht ▸ htaken, hfits, hturn, hv⟩ ht hmay hnow hreplay
    case asks =>
      rintro hnow _ rfl hset
      exact exec_rread_asks hnow hset
  case commands =>
    intro s c b n p num u hn hu hresv hp hnum
    refine ⟨fun ha hok o => exec_lend_names hn hu hresv hp hnum ha hok, fun hargs hheld y hy => ⟨?load, ?promote⟩⟩
    case load =>
      intro ha hmirror htarget hload ctx hctx
      exact exec_mirrorLoad_asks hn hu hresv hp hnum hargs hheld hy ha hmirror htarget hload hctx
    case promote =>
      intro ha htarget sn hsn
      exact exec_mirrorPromote_promotes hn hu hresv hp hnum hargs hheld hy ha htarget hsn

end Sys2Proof.Machine
end

section
/-!
PROOFS. MATMUL and its array units (O42): the initial accumulators entry by entry (R170), one equation for the start of a MATMUL by whether
its parameters are allowed, and one for each way in which a unit on a ready array ends. Its operands and initial values are read as the task
begins: the model's choice (log 150).
-/

namespace Sys2Proof.Machine

/-- Entry (m, n) of rows laid one behind the other. -/
theorem nth_rows {α : Type} (f : Nat → Nat → α) {rows cols m n : Nat} (hm : m < rows) (hn : n < cols) (d : α) :
    nth ((List.range rows).flatMap fun i => (List.range cols).map (f i)) (m * cols + n) d = f m n := by
  unfold nth
  induction rows with
  | zero => omega
  | succ r ih =>
    have hlen : ((List.range r).flatMap fun i => (List.range cols).map (f i)).length = r * cols := by simp
    rw [List.range_succ, List.flatMap_append, List.getElem?_append, hlen]
    rcases Nat.lt_or_eq_of_le (Nat.le_of_lt_succ hm) with h | rfl
    · have hrow : m * cols + n < r * cols := by
        have := Nat.mul_le_mul_right cols h
        rw [Nat.succ_mul] at this
        omega
      rw [if_pos hrow, ih h]
    · simp [hn]

section
variable {s : State} {t : TaskId} {g : Graph} {k : Task} {p : MatParam} {q : Quant} {e1 e2 : Nat}
  (h : running s t 0x08 (some 0) = some (g, k)) (hrun : k.run = .none) (hp : matParams s g k = (some p, e1))
  (hq : quantHeader s g (opd k 3) = (some q, e2))
include h hrun hp hq

theorem exec_matmul_unpredictable (hok : matOk p q = false) :
    exec (.matmul t) s = .next (unpredictable s t g [(opd k 2, cBytes p)]) := by
  change execMatmul t s = _
  simp [execMatmul, h, hrun, hp, hq, hok]

theorem exec_matmul_begins (hok : matOk p q = true) {cb bb qb ab wb : List Byte}
    (hc : p.accum = true → readOp s g.pen (some g) (opd k 2) 0 (cBytes p) = .ok cb)
    (hb : opd k 4 ≠ .none → readOp s g.pen (some g) (opd k 4) 0 (4 * p.n) = .ok bb) (hq0 : opd k 3 = .none → qb = [])
    (hq1 : opd k 3 ≠ .none → readOp s g.pen (some g) (opd k 3) 0 (quantBytes q p.m p.n p.k) = .ok qb)
    (ha : readOp s g.pen (some g) (opd k 0) 0 (rowsBytes p.m p.lda (aRow p)) = .ok ab)
    (hw : readOp s g.pen (some g) (opd k 1) 0 (rowsBytes (wRows p) p.ldw (wRow p)) = .ok wb) :
    exec (.matmul t) s = .next (setRun s t (.mat (matRun p
      (matInit (((modeOf p.afmt p.wfmt q.cbFmt).map (·.isInt)).getD false) p (if p.accum then some cb else none)
        (if opd k 4 = .none then none else some bb)) ab wb qb))) := by
  have hquant : (if opd k 3 = .none then Rd.ok [] else readOp s g.pen (some g) (opd k 3) 0 (quantBytes q p.m p.n p.k)) = .ok qb := by
    split
    · next h3 => rw [hq0 h3]
    · next h3 => exact hq1 h3
  change execMatmul t s = _
  simp only [execMatmul, h, hrun, hp, hq, hok, hquant, ha, hw, bne_self_eq_false, Bool.not_true, Bool.false_eq_true, if_false]
  by_cases haccum : p.accum = true <;> by_cases hbias : opd k 4 = .none
  · simp [haccum, hbias, hc]
  · simp [haccum, hbias, hc, hb]
  · simp [haccum, hbias]
  · simp [haccum, hbias, hb]

end

/-- A MATMUL in units to run is its task's use of an array, on the task's own tile (R171, R172). -/
theorem arrayJob_matmul {s : State} {t : TaskId} {g : Graph} {k : Task} {r : MatRun} (a : Nat)
    (h : running s t 0x08 (some 0) = some (g, k)) (hrun : k.run = .mat r) : arrayJob s t a = some {
      g := g, k := k, tile := k.unitNo, arr := a, mode := r.mode, geom := geometry r.mode r.n r.k
      restart := !r.accum && restarts s g k, run := some r } := by
  simp only [arrayJob, h, hrun]

/-- A part of an array may take the next unit of a task: the array is in service, not in test and the task's turn, and the part is one of
the job's geometry with a good column (R165, R172, R176). -/
structure UnitReady (s : State) (t : TaskId) (a part : Nat) (j : ArrayJob) : Prop where
  job : arrayJob s t a = some j
  inService : (arrOf s j.tile j.arr).inService = true
  idle : (arrOf s j.tile j.arr).testing = false
  part_lt : part < geomParts j.geom
  width : partWidth (arrOf s j.tile j.arr) j.geom part ≠ 0
  arr_lt : j.arr < 4
  turn : arrayTurn s t j.tile j.arr = true

section
variable {s : State} {t : TaskId} {a part : Nat} {j : ArrayJob} (h : UnitReady s t a part j)
include h

/-- None of the conditions under which an array leaves a unit alone. -/
theorem UnitReady.taken : (!(arrOf s j.tile j.arr).inService || (arrOf s j.tile j.arr).testing || decide (geomParts j.geom ≤ part) ||
    partWidth (arrOf s j.tile j.arr) j.geom part == 0 || decide (4 ≤ j.arr) || !arrayTurn s t j.tile j.arr) = false := by
  simp [h.inService, h.idle, h.part_lt, h.width, h.arr_lt, h.turn]

theorem exec_arrayUnit_runs {r : MatRun} (hr : j.run = some r) : exec (.arrayUnit t a part false false false) s =
    .next (runUnit (updArr s j.tile j.arr fun y => { y with holder := some t, geom := j.geom, mode := j.mode.code }) t j.g j.k r
      j.arr j.geom part) := by
  change execArrayUnit t a part false false false s = _
  simp only [execArrayUnit, h.job, h.taken, hr, Bool.false_and, Bool.false_eq_true, if_false]

theorem exec_arrayUnit_residue (hint : j.mode.isInt = true) : exec (.arrayUnit t a part true false false) s =
    .next (lostTask (updArr (updTile s j.tile fun y => { y with residue := satAdd 16 y.residue 1 }) j.tile j.arr
      fun y => { y with testing := true }) t j.restart) := by
  change execArrayUnit t a part true false false s = _
  simp only [execArrayUnit, h.job, h.taken, hint, Bool.true_and, Bool.false_eq_true, if_false, if_true]

/-- An accumulator entry with a double-bit error: a second one of the array takes it out of service (R180). -/
theorem exec_arrayUnit_doubleError {u : State}
    (hu : u = postEvent (updArr (updTile s j.tile fun y => { y with accUncorr := satAdd 16 y.accUncorr 1, dataErrs := y.dataErrs + 1 })
      j.tile j.arr fun y => { y with doubleErrs := y.doubleErrs + 1 }) 1 (.array j.tile j.arr) 2 0 0) :
    exec (.arrayUnit t a part false false true) s =
      .next (lostTask (if 2 ≤ (arrOf u j.tile j.arr).doubleErrs then arrayOut u j.tile j.arr else u) t j.restart) := by
  subst hu
  change execArrayUnit t a part false false true s = _
  simp only [execArrayUnit, h.job, h.taken, Bool.false_and, Bool.false_eq_true, if_false, if_true]

end

/-- Settles O42: a MATMUL's start by whether its parameters are allowed, its initial accumulators by the entry of their rows, and a unit
on a ready array by what its checks found. -/
theorem matmulRunsByUnits : Obligations.MatmulRunsByUnits := by
  refine ⟨?start, ?init, ?units⟩
  case start =>
    intro s t g k p q e1 e2 h hrun hp hq
    refine ⟨exec_matmul_unpredictable h hrun hp hq, ?_⟩
    rintro hok _ cb bb qb ab wb rfl hc hb hq0 hq1 ha hw
    exact exec_matmul_begins h hrun hp hq hok hc hb hq0 hq1 ha hw
  case init =>
    intro isInt p cb bb m n hm hn
    simp only [matInit, nth_rows _ hm hn]
    exact ⟨rfl, rfl, rfl, rfl⟩
  case units =>
    intro s t a part j x
    refine ⟨fun g k r => arrayJob_matmul a, ?_⟩
    rintro hjob rfl hin hidle hpart hwidth harr hturn
    have h : UnitReady s t a part j := ⟨hjob, hin, hidle, hpart, hwidth, harr, hturn⟩
    exact ⟨fun r => exec_arrayUnit_runs h, exec_arrayUnit_residue h, fun u => exec_arrayUnit_doubleError h⟩

end Sys2Proof.Machine
end

section
/-!
PROOFS. Array tests (O43): what the change of an array leaves in it and in its tile; the start of a test, its request, and its end by
whether it failed a column (R176, R177, R180).
-/

namespace Sys2Proof.Machine

/-! A tile's arrays. -/

theorem arrOf_of_arrs {s t : State} {n : Nat} (h : (tileOf t n).arrs = (tileOf s n).arrs) (a : Nat) : arrOf t n a = arrOf s n a := by
  simp only [arrOf, h]

theorem Reported.arrOf {s t : State} (h : Reported s t) (n a : Nat) : arrOf t n a = arrOf s n a :=
  arrOf_of_arrs (by rw [h.tileOf]) a

@[simp] theorem arrs_updArr (s : State) (n a : Nat) (f : Arr → Arr) :
    (tileOf (updArr s n a f) n).arrs = (tileOf s n).arrs.modify a f := by
  simp [updArr]

theorem arrOf_updArr_same {s : State} {n a : Nat} (f : Arr → Arr) (h : a < (tileOf s n).arrs.length) :
    arrOf (updArr s n a f) n a = f (arrOf s n a) := by
  simp [arrOf, nth, h]

@[simp] theorem arrOf_markOut (s : State) (n a : Nat) : arrOf (markOut s) n a = arrOf s n a := rfl

/-- An array out of service: neither in test nor asked for one (R180). -/
theorem arrOf_arrayOut {s : State} {n a : Nat} (h : a < (tileOf s n).arrs.length) : arrOf (arrayOut s n a) n a =
    { arrOf s n a with inService := false, testing := false, testWanted := false } := by
  simp only [arrayOut, arrOf_markOut, (postEvent_reported ..).arrOf, arrOf_updArr_same _ h]

/-! The start of a test (R177). -/

theorem exec_arrayTest_begins {s : State} {n a : Nat} (ha : a < 4) (hin : (arrOf s n a).inService = true)
    (hidle : (arrOf s n a).testing = false) :
    exec (.arrayTest n a) s = .next (updArr s n a fun y => { y with testing := true, holder := none, geom := 0 }) := by
  change execArrayTest n a s = _
  simp [execArrayTest, actWhen, ha, hin, hidle]

/-- TLn_ARR_CTL.TEST asks for the tests of the arrays in service whose bit is set, and of no other. -/
theorem exec_arrayTestRequest_asks {s : State} {n : Nat} (mask : BitVec 4) (hr : s.boot.ready = true) :
    ∃ t, exec (.arrayTestRequest n mask) s = .next t ∧ ∀ b, b < (tileOf s n).arrs.length → (arrOf t n b).testWanted =
      (if mask.getLsbD b && (arrOf s n b).inService then true else (arrOf s n b).testWanted) := by
  change ∃ t, execArrayTestRequest n mask s = _ ∧ _
  simp only [execArrayTestRequest, actWhen, hr, if_true]
  refine ⟨_, rfl, fun b hb => ?_⟩
  simp [arrOf, nth, hb, apply_ite Arr.testWanted]

/-! The end of a test (R176, R177, R180). -/

/-- An array as its test ends: the columns found bad are added to those found before. -/
def Arr.tested (bad : W32) (y : Arr) : Arr := { y with testing := false, testWanted := false, bad := y.bad ||| bad }

/-- The node after a test that failed columns, counted at the tile and recorded, before the array is judged (R182). -/
def testFailed (s : State) (n a : Nat) (bad : W32) : State :=
  let v := updTile (updArr s n a (Arr.tested bad)) n fun y => { y with testFail := satAdd 16 y.testFail 1 }
  postEvent (drawTag v).2 3 (.array n a) 3 bad.toNat (Config.freeWord (drawTag v).1).toNat

theorem arrs_testFailed (s : State) (n a : Nat) (bad : W32) :
    (tileOf (testFailed s n a bad) n).arrs = (tileOf s n).arrs.modify a (Arr.tested bad) := by
  have hdraw (v : State) : tileOf (drawTag v).2 n = tileOf v n := rfl
  simp only [testFailed, (postEvent_reported ..).tileOf, hdraw, tileOf_updTile_same, arrs_updArr]

section
variable {s : State} {n a : Nat} (ha : a < (tileOf s n).arrs.length)
include ha

theorem arrOf_testFailed (bad : W32) : arrOf (testFailed s n a bad) n a = (arrOf s n a).tested bad := by
  rw [← arrOf_updArr_same (Arr.tested bad) ha]
  exact arrOf_of_arrs (by rw [arrs_testFailed, arrs_updArr]) a

theorem arrOf_arrayOut_testFailed (bad : W32) :
    arrOf (arrayOut (testFailed s n a bad) n a) n a = { (arrOf s n a).tested bad with inService := false } := by
  rw [arrOf_arrayOut (by simpa [arrs_testFailed] using ha), arrOf_testFailed ha]
  rfl

variable (htest : (arrOf s n a).testing = true)
include htest

/-- A test without a failure, of an array with at most 8 bad columns: it stays in service, and nothing is recorded. -/
theorem exec_arrayTestDone_passes (hgood : 32 - goodCols (arrOf s n a) 0 32 ≤ 8) : exec (.arrayTestDone n a 0 false) s =
    .next (updArr s n a fun y => { y with testing := false, testWanted := false }) := by
  have hsame : goodCols { arrOf s n a with testing := false, testWanted := false } 0 32 = goodCols (arrOf s n a) 0 32 := rfl
  have hstays : ¬8 < 32 - goodCols (arrOf s n a) 0 32 := by omega
  change execArrayTestDone n a 0 false s = _
  simp [execArrayTestDone, htest, arrOf_updArr_same _ ha, hsame, hstays]

theorem exec_arrayTestDone_fails {bad : W32} (hbad : bad ≠ 0) : exec (.arrayTestDone n a bad false) s =
    .next (if 8 < 32 - goodCols ((arrOf s n a).tested bad) 0 32 then arrayOut (testFailed s n a bad) n a
      else testFailed s n a bad) := by
  have hb : (bad != 0) = true := by simpa using hbad
  rw [← arrOf_testFailed ha]
  change execArrayTestDone n a bad false s = _
  simp only [execArrayTestDone, htest, hb, Bool.not_true, Bool.true_or, Bool.false_eq_true, if_false, if_true, false_or]
  rfl

end

/-- Settles O43: the three commands by their equations; a test's end by whether it failed a column, and then by whether more than 8 are
bad. -/
theorem arraysAreTested : Obligations.ArraysAreTested := by
  intro s n a ha
  refine ⟨exec_arrayTest_begins ha, ?request, ?done⟩
  case request =>
    intro hr hlen mask
    obtain ⟨t, ht, hwant⟩ := exec_arrayTestRequest_asks (n := n) mask hr
    exact ⟨t, ht, fun b hb => hwant b (by omega)⟩
  case done =>
    intro htest hlen
    have hin : a < (tileOf s n).arrs.length := by omega
    refine ⟨exec_arrayTestDone_passes hin htest, ?_⟩
    rintro bad _ hbad rfl
    have hjudged : goodCols { arrOf s n a with bad := (arrOf s n a).bad ||| bad } 0 32 = goodCols ((arrOf s n a).tested bad) 0 32 := rfl
    refine ⟨_, exec_arrayTestDone_fails hin htest hbad, ?_⟩
    rw [hjudged]
    split
    · rw [arrOf_arrayOut_testFailed hin]
      exact ⟨rfl, rfl, fun _ => rfl⟩
    · next hgood =>
      rw [arrOf_testFailed hin]
      exact ⟨rfl, rfl, fun hout => absurd hout hgood⟩

end Sys2Proof.Machine
end

section
/-!
PROOFS. Tables (O46): the source that wins a row; the updates of a SCATTER add; one equation for each of GATHER and the subtypes of
SCATTER; a bale created reads zero. In which order an add sums the contributions of one window is free (log 74).
-/

namespace Sys2Proof.Machine

/-! Windows of the coalescer (R220). -/

theorem chunksGo_nil {α : Type} (f n : Nat) : chunksGo f n ([] : List α) = [] := by
  cases f <;> rfl

/-- A list that fits one piece is not cut. -/
theorem chunks_of_length_le {α : Type} {l : List α} {n : Nat} (hne : l ≠ []) (h : l.length ≤ n) : chunks n l = [l] := by
  cases l with
  | nil => exact absurd rfl hne
  | cons x r => simp only [chunks, List.length_cons, chunksGo, List.take_of_length_le h, List.drop_of_length_le h, chunksGo_nil]

theorem windowRows_singleton (r : Nat) : windowRows [r] = [r] := by
  rw [windowRows, chunks_of_length_le (List.cons_ne_nil _ _) (by simp)]
  simp [addNew]

/-! The sources of a SCATTER's rows (R218). -/

theorem sources_singleton (r n : Nat) (b : List Byte) : sources [r] n b = [(r, sub b 0 n)] := by
  simp [sources]

theorem sources_getElem? (idx : List Nat) (n : Nat) (b : List Byte) (i : Nat) :
    (sources idx n b)[i]? = idx[i]?.map fun r => (r, sub b (i * n) n) := by
  rcases Nat.lt_or_ge i idx.length with h | h
  · simp [sources, h]
  · simp [sources, h]

/-- Found from the end: the last element that p holds of. -/
theorem find?_reverse_eq_of_last {α : Type} {l : List α} {p : α → Bool} {i : Nat} {x : α} (hi : l[i]? = some x) (hx : p x = true)
    (hlast : ∀ j y, i < j → l[j]? = some y → p y = false) : l.reverse.find? p = some x := by
  obtain ⟨hlt, rfl⟩ := List.getElem?_eq_some_iff.1 hi
  have hsplit : l = l.take i ++ l[i] :: l.drop (i + 1) := by simp
  have hrev : l.reverse = (l.drop (i + 1)).reverse ++ l[i] :: (l.take i).reverse := by
    conv_lhs => rw [hsplit]
    simp
  rw [hrev, List.find?_append, List.find?_eq_none.2, Option.none_or, List.find?_cons_of_pos hx]
  intro y hy
  obtain ⟨j, hj⟩ := List.mem_iff_getElem?.1 (List.mem_reverse.1 hy)
  rw [List.getElem?_drop] at hj
  simp [hlast _ y (by omega) hj]

/-- The last source of a row wins. -/
theorem find?_sources_last {idx : List Nat} {i r : Nat} (n : Nat) (b : List Byte) (hi : idx[i]? = some r)
    (hlast : ∀ j, i < j → idx[j]? ≠ some r) : ((sources idx n b).reverse.find? fun x => x.1 == r) = some (r, sub b (i * n) n) := by
  refine find?_reverse_eq_of_last (by rw [sources_getElem?, hi]; rfl) (beq_self_eq_true r) fun j y hj hy => ?_
  rw [sources_getElem?, Option.map_eq_some_iff] at hy
  obtain ⟨q, hq, rfl⟩ := hy
  have hne : q ≠ r := fun e => hlast j hj (e ▸ hq)
  simpa using hne

/-- The updates of a SCATTER add whose rows take n bytes of source each: every row that it names, with the contributions of each window
that has some (R218, R220). -/
def addUpdates (idx : List Nat) (n : Nat) (sb : List Byte) : List (Nat × Bool × List (List Byte)) :=
  (idx.foldl addNew []).map fun r =>
    (r, true, ((chunks 65536 (sources idx n sb)).map fun w => (w.filter fun x => x.1 == r).flatMap (·.2)).filter fun w => !w.isEmpty)

theorem addUpdates_singleton {r n : Nat} {sb : List Byte} (h : sub sb 0 n ≠ []) : addUpdates [r] n sb = [(r, true, [sub sb 0 n])] := by
  rw [addUpdates, sources_singleton, chunks_of_length_le (List.cons_ne_nil _ _) (by simp)]
  simp [addNew, h]

section
variable {s : State} {t : TaskId} {g : Graph} {k : Task} {num : Nat} {tb : Table} (hheld : opLost s g.pen (opd k 0) = false)
include hheld

/-! Tasks on the rows of a table (R217, R218). -/

section
variable (htab : tableOf s g.pen (opd k 0) = some (num, tb))
include htab

section
variable {ib : List Byte} (hib : readOp s g.pen (some g) (opd k 1) 0 (8 * par k 0 25) = .ok ib) (hok : rowsBad k tb (rowIndices ib) = false)
include hib hok

theorem exec_gather_reads {bs : List Byte} (hr : running s t 0x18 (some 0) = some (g, k))
    (hbs : readRows s g num tb (baseOf k) (rowIndices ib) = .ok bs) : exec (.gather t) s =
    .next (finishTask (writeOp ((windowRows (rowIndices ib)).foldl (fun x i => readRow x k.quad g.pen num tb (baseOf k) i)
      (noteRows s t num (baseOf k) (rowIndices ib))) t g.pen k.quad (some g) (opd k 2) 0 bs) t stSuccess (par k 0 25)) := by
  change execGather t s = _
  simp [execGather, hr, hheld, htab, hib, hok, hbs]

variable (hrun : k.run = .none)
include hrun

theorem exec_scatterWrite_applies {sb : List Byte} (hr : running s t 0x19 (some 0) = some (g, k))
    (hsb : readOp s g.pen (some g) (opd k 2) 0 (rowBytes tb * par k 0 25) = .ok sb) : exec (.scatterWrite t) s =
    .next (applyRows (noteRows s t num (baseOf k) (rowIndices ib)) t g k num tb (baseOf k) 0
      (((rowIndices ib).foldl addNew []).map fun r =>
        (r, false, [(((sources (rowIndices ib) (rowBytes tb) sb).reverse.find? fun x => x.1 == r).map (·.2)).getD []]))) := by
  change execScatterWrite t s = _
  simp [execScatterWrite, hr, hrun, hheld, htab, hib, hok, hsb]

/-- A SCATTER add whose turn has come, on a table of a format that takes contributions: its rows are noted, put in order and read, then
updated. -/
theorem exec_scatterAdd_applies {sb : List Byte} (hr : running s t 0x19 (some 1) = some (g, k)) (hfmt : tb.fmt = 0x0A ∨ tb.fmt = 0x0B)
    (hturn : rowTurn s t = true) (hsb : readOp s g.pen (some g) (opd k 2) 0 (4 * tb.width * par k 0 25) = .ok sb) :
    exec (.scatterAdd t) s = .next (applyRows
      ((windowRows (rowIndices ib)).foldl (fun x i => readRow x k.quad g.pen num tb (baseOf k) i)
        (noteOrder (noteRows s t num (baseOf k) (rowIndices ib)) t g.pen num (baseOf k) ((rowIndices ib).foldl addNew [])))
      t g k num tb (baseOf k) 0 (addUpdates (rowIndices ib) (4 * tb.width) sb)) := by
  have hadds : (tb.fmt != 0x0A && tb.fmt != 0x0B) = false := by rcases hfmt with h | h <;> simp [h]
  change execScatterAdd t s = _
  simp only [execScatterAdd, hr, hrun, hturn, hheld, htab, hib, hsb, hok, hadds, bne_self_eq_false, Bool.not_true, Bool.or_self,
    Bool.false_eq_true, if_false]
  rfl

/-- Of a single row, the add has one update, with one window. -/
theorem exec_scatterAdd_single {sb : List Byte} {r : Nat} (hr : running s t 0x19 (some 1) = some (g, k))
    (hfmt : tb.fmt = 0x0A ∨ tb.fmt = 0x0B) (hturn : rowTurn s t = true)
    (hsb : readOp s g.pen (some g) (opd k 2) 0 (4 * tb.width * par k 0 25) = .ok sb) (hidx : rowIndices ib = [r])
    (hne : sub sb 0 (4 * tb.width) ≠ []) : exec (.scatterAdd t) s =
    .next (applyRows
      (readRow (noteOrder (noteRows s t num (baseOf k) [r]) t g.pen num (baseOf k) [r]) k.quad g.pen num tb (baseOf k) r)
      t g k num tb (baseOf k) 0 [(r, true, [sub sb 0 (4 * tb.width)])]) := by
  have hrows : [r].foldl addNew [] = [r] := by simp [addNew]
  rw [exec_scatterAdd_applies hheld htab hib hok hrun hr hfmt hturn hsb, hidx, addUpdates_singleton hne, windowRows_singleton, hrows,
    List.foldl_cons, List.foldl_nil]

end

theorem exec_clone_copies {bs : List Byte} (hrun : k.run = .none) (hr : running s t 0x19 (some 4) = some (g, k))
    (hsrc : par k 0 2 < tb.bases) (hdst : par k 2 2 < tb.bases) (hpar : par k 28 36 = 0)
    (hbs : readRows s g num tb (par k 0 2) (List.range tb.rows) = .ok bs) : exec (.clone t) s =
    .next (applyRows s t g k num tb (par k 2 2) 0
      ((List.range tb.rows).map fun r => (r, false, [sub bs (r * rowBytes tb) (rowBytes tb)]))) := by
  have hbases : ¬(tb.bases ≤ par k 0 2 ∨ tb.bases ≤ par k 2 2 ∨ par k 28 36 ≠ 0) := by omega
  change execClone t s = _
  simp only [execClone, hr, hrun, hheld, htab, hbs, bne_self_eq_false, Bool.false_eq_true, if_false, if_neg hbases]

end

end

/-! Tables made and dropped (R216). -/

theorem exec_tableDestroy_drops {s : State} {t : TaskId} {g : Graph} {k : Task} {num : Nat} {tb : Table}
    (htab : tableOf s g.pen (opd k 0) = some (num, tb)) (hr : running s t 0x19 (some 3) = some (g, k))
    (hmigs : ∀ m, m ∈ s.migs → ¬(m.pen = g.pen ∧ m.object = num)) : exec (.tableDestroy t) s =
    .next (finishTask { destroyObj s g.pen num with quads := tmap (destroyObj s g.pen num).quads fun _ q => { q with
      rowCache := tmap q.rowCache fun _ w => w.filter fun r => !(r.1 == g.pen && r.2.1 == num) } } t stSuccess 0) := by
  have hnone : s.migs.any (fun m => m.pen == g.pen && m.object == num) = false := by simpa using hmigs
  change execTableDestroy t s = _
  simp only [execTableDestroy, hr, htab, hnone, Bool.false_eq_true, if_false]

theorem exec_tableCreate_makes {s u : State} {t : TaskId} {g : Graph} {k : Task} {num off : Nat} {b : List Byte}
    (hr : running s t 0x19 (some 2) = some (g, k)) (hb : readOp s g.pen (some g) (opd k 1) 0 64 = .ok b) (hop : opd k 0 = .obj num off)
    (hfree : objOf s g.pen num = none) (hdesc : tableDescOk b = true)
    (hu : newObject s g.pen num k.quad (tableBales (tableDesc b) * bale) (.table (tableDesc b)) = some u) : exec (.tableCreate t) s =
    .next (finishTask ((((objOf u g.pen num).map (·.homes)).getD []).foldl zeroBale u) t stSuccess 0) := by
  change execTableCreate t s = _
  simp [execTableCreate, hr, hb, hop, hfree, hdesc, hu]

/-! A created table reads zero (R216). -/

theorem Mem.zero_byte_in {m : Mem} {a n x : Nat} (hlo : a ≤ x) (hhi : x < a + n) : (m.zero a n).byte x = 0 := by
  obtain ⟨i, rfl⟩ := Nat.exists_eq_add_of_le hlo
  rw [Mem.zero, Mem.paste_byte_in m a n [] i (by omega)]
  rfl

/-- Settles O46: the equation of each task, the last source of a row by the search from the end, and a zeroed bale by what `paste`
leaves. -/
theorem tableTasksFinish : Obligations.TableTasksFinish := by
  refine ⟨?tasks, fun idx n r b i => find?_sources_last n b, fun s n slot a hlo hhi _ => Mem.zero_byte_in hlo hhi⟩
  case tasks =>
    intro s t g k num tb hheld hrun
    refine ⟨fun htab => ⟨?rows, ?clone, ?destroy⟩, ?create⟩
    case rows =>
      rintro ib _ hib rfl hok
      refine ⟨fun hr bs => exec_gather_reads hheld htab hib hok hr, fun hr sb => exec_scatterWrite_applies hheld htab hib hok hrun hr, ?add⟩
      case add =>
        rintro hr hfmt hturn sb r _ hsb hidx rfl hne
        exact exec_scatterAdd_single hheld htab hib hok hrun hr hfmt hturn hsb hidx hne
    case clone =>
      intro hr hsrc hdst hpar bs
      exact exec_clone_copies hheld htab hrun hr hsrc hdst hpar
    case destroy =>
      rintro hr hmigs _ rfl
      exact exec_tableDestroy_drops htab hr hmigs
    case create =>
      intro hr b off u hb hop hfree hdesc
      exact exec_tableCreate_makes hr hb hop hfree hdesc

end Sys2Proof.Machine
end

section
/-!
PROOFS. Hot rows (O47): a row's update by whether the row migrates; one equation for each of SKETCH_HALVING, MIGRATION_START,
MIGRATION_COPY_END and MIGRATION_COMMIT. The phases of a migration (log 73) and its new home and charge (log 156) are the model's choices.
-/

namespace Sys2Proof.Machine

/-! Row updates (R219, R223). -/

section
variable {s : State} {t : TaskId} {g : Graph} {k : Task} {num base r : Nat} {tb : Table} {add : Bool} {src : List (List Byte)}
  {ws : List (Nat × Nat)}

theorem updateRow_held {m : Migration} (h : migOf s g.pen num base r = some m) :
    updateRow t g k num tb base (s, ws, 0) (r, add, src) = ({ s with migs := s.migs.map fun y =>
      if y.quad = m.quad ∧ y.entry = m.entry then { y with hold := y.hold ++ [(t, add, src)] } else y },
        addNew ws (m.quad, m.entry), 0) := by
  simp [updateRow, h]

theorem updateRow_atHome {old : List Byte} (h : migOf s g.pen num base r = none)
    (hold : readOp s g.pen (some g) (.obj num (rowOff tb base r)) 0 (rowBytes tb) = .ok old) :
    updateRow t g k num tb base (s, ws, 0) (r, add, src) = (writeOp (uncacheRow (drawTag s).2 g.pen num base r) t g.pen k.quad (some g)
      (.obj num (rowOff tb base r)) 0 (updatedRow (drawTag s).1 tb old add src), ws, 0) := by
  simp [updateRow, h, hold]

end

/-! The sketch and the start of a migration (R221, R222). -/

theorem exec_sketchHalving_halves {s : State} {q : Nat} (h : 1048576 ≤ (quadOf s q).sketchReads) : exec (.sketchHalving q) s =
    .next (updQuad s q fun x => { x with sketch := tmap x.sketch fun _ v => v / 2, sketchReads := x.sketchReads - 1048576 }) := by
  change execSketchHalving q s = _
  simp only [execSketchHalving, actWhen, decide_eq_true h, if_true]

/-- A row of another quad that quad q may take: hot, in no migration yet, with remap room and a bale for its hold list (R222). -/
structure Migratable (s : State) (q p num base row : Nat) (tb : Table) : Prop where
  migrates : tb.migrate = true
  thresh : 1 ≤ s.drover.migThresh
  hot : s.drover.migThresh ≤ estimate (quadOf s q) p num base row
  far : rowQuad s p num tb base row ≠ q
  still : migOf s p num base row = none
  room : tb.remap.length < 1048576
  base : base < tb.bases
  row : row < tb.rows
  quota : quotaHolds s p 1 = true

/-- The first migration of quad q takes entry 0, a place for the row and a bale for the hold list. -/
theorem exec_migrationStart_first {s u : State} {q p num base row h st slot idx : Nat} {tb : Table} {v : State × Nat}
    (htab : tableOf s p (.obj num 0) = some (num, tb)) (hrow : Migratable s q p num base row tb) (hnone : ∀ m, m ∈ s.migs → m.quad ≠ q)
    (hpool : mostFree (freePool s) (stacksOf s q) = some h) (hspot : takeSpot s q p num tb = some (u, st, slot, idx))
    (hv : v = takePool (chargeBales u p 1) h) : exec (.migrationStart q p num base row) s = .next { v.1 with
      migs := v.1.migs ++
        [{ quad := q, entry := 0, pen := p, object := num, base := base, row := row, phase := 0
           move := { base := base, row := row, off := rowOff tb base row, size := slotBytes tb, stack := st, slot := slot, idx := idx }
           holdStack := h, holdSlot := v.2 }] } := by
  have hmine : s.migs.filter (fun m => m.quad == q) = [] := by
    rw [List.filter_eq_nil_iff]
    intro m hm
    simpa using hnone m hm
  have hthresh : (s.drover.migThresh != 0) = true := by simpa using Nat.one_le_iff_ne_zero.1 hrow.thresh
  have hfar : (rowQuad s p num tb base row != q) = true := by simpa using hrow.far
  subst hv
  change execMigrationStart q p num base row s = _
  simp [execMigrationStart, htab, hrow.migrates, hthresh, hrow.hot, hfar, hmine, hrow.still, hrow.room, hrow.base, hrow.row, hrow.quota,
    hpool, hspot, lowestFree, lowestFreeGo]

/-! The end of COPY and the commit (R223). -/

section
variable {s : State} {q e : Nat} {m : Migration} {tb : Table} (hm : findMig s q e = some m)
include hm

theorem exec_migrationCopyEnd_copies {b : List Byte} (htab : tableOf s m.pen (.obj m.object 0) = some (m.object, tb)) (hphase : m.phase = 0)
    (hb : readOp s m.pen none (.obj m.object (rowOff tb m.base m.row)) 0 (rowBytes tb) = .ok b) : exec (.migrationCopyEnd q e) s =
    .next (modMig (agentWrite (drawTag s).2 none dmaAgent (newCopy m) (applyAllTo (drawTag s).1 tb b m.hold)) m fun y =>
      { y with phase := 1, hold := [], done := y.done ++ m.hold }) := by
  change execMigrationCopyEnd q e s = _
  simp only [execMigrationCopyEnd, hm, htab, hphase, if_true, hb]

theorem exec_migrationCommit_waits (hhold : m.hold ≠ []) : exec (.migrationCommit q e) s = .next s := by
  change execMigrationCommit q e s = _
  simp [execMigrationCommit, hm, hhold]

/-- The commit of a row that has not moved before: the remap takes its move, and no earlier place is given back. -/
theorem exec_migrationCommit_switches {o : Obj} (hphase : m.phase = 1) (hhold : m.hold = []) (ho : objOf s m.pen m.object = some o)
    (hkind : o.kind = .table tb) (hnew : ∀ r, r ∈ tb.remap → ¬(r.base = m.base ∧ r.row = m.row)) : exec (.migrationCommit q e) s =
    .next (endMig (updQuad (uncacheRow (updObj s m.pen m.object (fun x => { x with
      kind := .table { tb with remap := (tb.remap.filter fun r => !(r.base == m.base && r.row == m.row)) ++ [m.move] } }))
      m.pen m.object m.base m.row) q fun x => { x with migDone := satAdd 32 x.migDone 1 }) m stSuccess) := by
  have hwas : (tb.remap.filter fun r => r.base == m.base && r.row == m.row) = [] := by
    rw [List.filter_eq_nil_iff]
    intro r hr
    simpa using hnew r hr
  have hempty : ¬(m.phase = 0 || !m.hold.isEmpty) = true := by simp [hphase, hhold]
  change execMigrationCommit q e s = _
  simp only [execMigrationCommit, hm, if_neg hempty, ho, hkind, hwas, List.foldl_nil]

end

/-- Settles O47: the equation of each command, and a row's update by whether the row migrates. -/
theorem hotRowsMigrate : Obligations.HotRowsMigrate := by
  intro s q
  refine ⟨exec_sketchHalving_halves, ?start, ?migration, ?update⟩
  case start =>
    intro p num base row tb h u st slot idx v htab hmig hthresh hhot hfar hstill hnone hroom hbase hrow hquota hpool hspot hv
    exact exec_migrationStart_first htab ⟨hmig, hthresh, hhot, hfar, hstill, hroom, hbase, hrow, hquota⟩ hnone hpool hspot hv
  case migration =>
    intro e m tb b r hm htab
    refine ⟨?copy, fun _ => exec_migrationCommit_waits hm, ?commit⟩
    case copy =>
      rintro hphase hb rfl
      exact exec_migrationCopyEnd_copies hm htab hphase hb
    case commit =>
      rintro hphase hhold o _ ho hkind rfl hnew
      exact exec_migrationCommit_switches hm hphase hhold ho hkind hnew
  case update =>
    intro t g k num base r tb add src ws
    refine ⟨fun m => updateRow_held, fun hnone old hold => ?_⟩
    rw [updateRow_atHome hnone hold]
    rfl

end Sys2Proof.Machine
end

section
/-!
PROOFS. Copies of bales (O36): one equation for each way in which a move of a bale ends, one for the end of a write-back, and what a
write-back of one run without a poisoned line does.
-/

namespace Sys2Proof.Machine

section
variable {s : State} {n : Nat} {c : BaleCopy} (hset : baleWaits s c.bale = false)
include hset

/-! The end of a move (R231, R232, R66). -/

section
variable (hc : s.drover.copies.find? (fun x => x.num == n && x.st == .filling) = some c)
include hc

theorem exec_baleMoveDone_fills {cells : List Host.Cell} (hcells : homeCells s c.bale = some cells) : exec (.baleMoveDone n true) s =
    .next (fetchAhead (modCopy (fillSlot (chargeFill s c) c cells) n fun x => { x with st := .clean, waiters := [] })) := by
  change execBaleMoveDone n true s = _
  simp only [execBaleMoveDone, hc, hset, hcells, if_true, Bool.false_eq_true, if_false]

/-- A move whose home cannot be read drops the copy, whatever became of the transfer. -/
theorem exec_baleMoveDone_unreadable (ok : Bool) (hcells : homeCells s c.bale = none) :
    exec (.baleMoveDone n ok) s = .next (failFill s c) := by
  change execBaleMoveDone n ok s = _
  simp only [execBaleMoveDone, hc, hset, hcells, Bool.false_eq_true, if_false]

theorem exec_baleMoveDone_failed : exec (.baleMoveDone n false) s = .next (failFill s c) := by
  cases hcells : homeCells s c.bale with
  | none => exact exec_baleMoveDone_unreadable hset hc false hcells
  | some cells =>
    change execBaleMoveDone n false s = _
    simp only [execBaleMoveDone, hc, hset, hcells, Bool.false_eq_true, if_false]

end

/-! The end of a write-back (R232, R233, R239). -/

theorem exec_writeBackDone_writes (hc : s.drover.copies.find? (fun x => x.num == n && x.st == .writing) = some c) :
    exec (.writeBackDone n) s = .next (fetchAhead (writeBack s c)) := by
  change execWriteBackDone n s = _
  simp only [execWriteBackDone, hc, hset, Bool.false_eq_true, if_false]

end

/-- The runs of the tasks that the write-back was begun for go home; the copy is DIRTY while runs of other tasks are left. -/
theorem writeBack_eq (s : State) (c : BaleCopy) : writeBack s c =
    modCopy ((c.dirty.filter fun x => decide (x.1 ∈ c.wb)).foldl (fun y x => writeBackOne y c x) s) c.num fun d => { d with
      dirty := d.dirty.filter fun x => !decide (x.1 ∈ c.wb)
      wb := d.wb.filter fun t => !decide (t ∈ c.wb)
      st := if (d.dirty.filter fun x => !decide (x.1 ∈ c.wb)) = [] then .clean else .dirty } := by
  simp only [writeBack, List.isEmpty_iff]

/-- A run without a poisoned line: charged to its task, and the slot's bytes put at the home. -/
theorem writeBackOne_sound {s : State} {c : BaleCopy} (t : TaskId) {off len : Nat}
    (hsound : poisoned s (slotAddr c.stack c.slot + off) len = false) : writeBackOne s c (t, off, len) =
    writeBackRun (charge s t len (pageOps c.bale off len)) c.bale off (readStack s (slotAddr c.stack c.slot + off) len) :=
  if_neg (Bool.not_eq_true _ ▸ hsound)

/-- Settles O36: the equation of each end of a move, of the end of a write-back, and of one run written back. -/
theorem copiesMoveAndComeHome : Obligations.CopiesMoveAndComeHome := by
  intro s n c hset
  refine ⟨fun hc => ⟨fun cells => exec_baleMoveDone_fills hset hc, exec_baleMoveDone_unreadable hset hc true,
    exec_baleMoveDone_failed hset hc⟩, fun hc => ?writeBack, fun t off len => writeBackOne_sound t⟩
  case writeBack =>
    have hnum : c.num = n := by
      have hfound := List.find?_some hc
      simp only [Bool.and_eq_true, beq_iff_eq] at hfound
      exact hfound.1
    rw [exec_writeBackDone_writes hset hc, writeBack_eq, hnum]

end Sys2Proof.Machine
end

section
/-!
PROOFS. Near-bank units and the patrol (O45): the messages of the Drover leave memory and stacks; NBU_SEQ hands each stack of its bales to
its task once; a MICRO_OP from latches, broadcast or immediate into a latch is one entry of its unit's latches; a patrol read of one bad
line. That co-placement moves its bales within the one row is log 111, the model's choice.
-/

namespace Sys2Proof.Machine

/-! Messages of the fabric (R252). -/

/-- t differs from s in what a message sent touches alone: the fabric, and what goes out to the host. -/
def Messaged (s t : State) : Prop := t = { s with coh := t.coh, out := t.out }

theorem Messaged.refl (s : State) : Messaged s s := rfl

theorem Messaged.trans {s t u : State} (h : Messaged s t) (k : Messaged t u) : Messaged s u := by
  unfold Messaged at h k ⊢
  rw [h] at k
  exact k

theorem Messaged.mem {s t : State} (h : Messaged s t) : t.mem = s.mem := by rw [h]
theorem Messaged.stackOf {s t : State} (h : Messaged s t) (n : Nat) : stackOf t n = stackOf s n := by rw [h]; rfl

theorem foldl_messaged {α : Type} (l : List α) (g : State → α → State) (hg : ∀ s x, Messaged s (g s x)) (s : State) :
    Messaged s (l.foldl g s) := by
  induction l generalizing s with
  | nil => exact .refl s
  | cons x r ih => exact (hg s x).trans (ih _)

theorem sendHost_messaged (s : State) (m : Msg) : Messaged s (sendHost s m) := by
  fun_cases sendHost s m <;> rfl

theorem send_messaged (s : State) (m : Msg) : Messaged s (send s m) := by
  fun_cases send s m
  · exact .refl s
  · rfl
  · fun_cases enterNet s m
    · exact sendHost_messaged s m
    · exact .refl s
    · rfl

theorem clrLines_messaged (s : State) (a n : Nat) : Messaged s (clrLines s a n) :=
  foldl_messaged _ _ (fun s _ => send_messaged s _) s

theorem clrOperand_messaged (s : State) (g : Graph) (op : OpRef) (n : Nat) : Messaged s (clrOperand s g op n) := by
  refine foldl_messaged _ _ (fun s x => ?_) s
  split
  · exact clrLines_messaged ..
  · exact .refl s

/-! Stacks changed one after the other. -/

theorem mem_addNew {α : Type} [DecidableEq α] (l : List α) (x y : α) : y ∈ addNew l x ↔ y ∈ l ∨ y = x := by
  unfold addNew
  split
  · exact ⟨.inl, fun h => h.elim id (· ▸ ‹x ∈ l›)⟩
  · simp

theorem nodup_addNew {α : Type} [DecidableEq α] {l : List α} (x : α) (h : l.Nodup) : (addNew l x).Nodup := by
  unfold addNew
  split
  · exact h
  · exact List.concat_eq_append ▸ h.concat ‹x ∉ l›

theorem mem_foldl_addNew {α : Type} [DecidableEq α] (l acc : List α) (y : α) : y ∈ l.foldl addNew acc ↔ y ∈ acc ∨ y ∈ l := by
  induction l generalizing acc with
  | nil => simp
  | cons x r ih => rw [List.foldl_cons, ih, mem_addNew, List.mem_cons, or_assoc]

theorem nodup_foldl_addNew {α : Type} [DecidableEq α] (l : List α) {acc : List α} (h : acc.Nodup) : (l.foldl addNew acc).Nodup := by
  induction l generalizing acc with
  | nil => exact h
  | cons x r ih => exact ih (nodup_addNew x h)

@[simp] theorem stackOf_setRun (s : State) (t : TaskId) (r : Run) (n : Nat) : stackOf (setRun s t r) n = stackOf s n := rfl

theorem stackOf_updStack_ne {s : State} {n i : Nat} (f : Stack → Stack) (h : i ≠ n) : stackOf (updStack s n f) i = stackOf s i :=
  tget_tmod_ne _ _ _ _ h

section
variable (f : Nat → Stack → Stack) (l : List Nat) (s : State)

theorem foldl_updStack_mem : (l.foldl (fun s n => updStack s n (f n)) s).mem = s.mem := by
  induction l generalizing s with
  | nil => rfl
  | cons n r ih => exact ih _

theorem stackOf_foldl_updStack_of_not_mem {i : Nat} (h : i ∉ l) :
    stackOf (l.foldl (fun s n => updStack s n (f n)) s) i = stackOf s i := by
  induction l generalizing s with
  | nil => rfl
  | cons n r ih =>
    obtain ⟨hne, hr⟩ := not_or.1 (List.mem_cons.not.1 h)
    rw [List.foldl_cons, ih _ hr, stackOf_updStack_ne _ hne]

/-- Each stack of a list without repetition is changed once. -/
theorem stackOf_foldl_updStack {i : Nat} (hl : l.Nodup) (h : i ∈ l) :
    stackOf (l.foldl (fun s n => updStack s n (f n)) s) i = f i (stackOf s i) := by
  induction l generalizing s with
  | nil => cases h
  | cons n r ih =>
    obtain ⟨hn, hr⟩ := List.nodup_cons.1 hl
    rw [List.foldl_cons]
    obtain rfl | hi := List.mem_cons.1 h
    · rw [stackOf_foldl_updStack_of_not_mem _ _ _ hn, stackOf_updStack_same]
    · rw [ih _ hr hi, stackOf_updStack_ne _ (ne_of_mem_of_not_mem hi hn)]

end

/-! NBU_SEQ (R241, R247, R248, R252). -/

/-- A stack taken by a task: its units handed their chunks and the broadcast operand. -/
def takenStack (t : TaskId) (p : NProg) (stks : List Nat) (bc : List W32) (n : Nat) (x : Stack) : Stack :=
  { x with nbuTask := some t, units := startUnits t p stks bc n x.units }

/-- The stacks of a sequence's bales taken, each once. -/
def takeStacks (v : State) (t : TaskId) (p : NProg) (stks : List Nat) (bc : List W32) : State :=
  (stks.foldl addNew ([] : List Nat)).foldl (fun s n => updStack s n (takenStack t p stks bc n)) v

theorem takeStacks_mem (v : State) (t : TaskId) (p : NProg) (stks : List Nat) (bc : List W32) :
    (takeStacks v t p stks bc).mem = v.mem :=
  foldl_updStack_mem ..

theorem stackOf_takeStacks (v : State) (t : TaskId) (p : NProg) {stks : List Nat} (bc : List W32) {i : Nat} (h : i ∈ stks) :
    stackOf (takeStacks v t p stks bc) i = takenStack t p stks bc i (stackOf v i) :=
  stackOf_foldl_updStack _ _ v (nodup_foldl_addNew _ .nil) ((mem_foldl_addNew ..).2 (.inr h))

/-- The lines of a sequence's operands invalidated, range by range. -/
def clearRanges (u : State) (t : TaskId) (g : Graph) (k : Task) (p : NProg) : State :=
  (clrRanges k p).foldl (fun s x => clrOperand s ((graphOf u t.graph).getD g) x.1 x.2) u

theorem clearRanges_messaged (u : State) (t : TaskId) (g : Graph) (k : Task) (p : NProg) : Messaged u (clearRanges u t g k p) :=
  foldl_messaged _ _ (fun s _ => clrOperand_messaged s ..) u

/-- A sequence whose bales lie together takes their stacks and has the lines of its operands invalidated. -/
theorem exec_nbuSeq_takes {s v : State} {t : TaskId} {g : Graph} {k : Task} {p : NProg} {stks : List Nat} {b : List Byte}
    (hr : running s t 0x0C (some 0) = some (g, k)) (hrun : k.run = .none) (hp : nbuProg s g k = (some p, 0)) (hok : nprogOk s g k p = true)
    (hplan : ∀ i, i ∈ planStacks s g k p → i < 20 ∧ stackBusy s t g k i = false)
    (hpin : pinnedByNbu s t g k p (planStacks s g k p) = false)
    (hplace : placeAll s t k p (List.range p.bales) = some (v, stks)) (hfree : ∀ i, i ∈ stks → stackBusy v t g k i = false)
    (hnone : p.head.blen = 0 → b = [])
    (hbc : p.head.blen ≠ 0 → readOp v g.pen (graphOf v t.graph) (opd k 4) 0 (4 * p.head.blen) = .ok b) :
    exec (.nbuSeq t) s = .next (setRun (clearRanges (takeStacks v t p stks ((chunks 4 b).map fun x => BitVec.ofNat 32 (ofLe x))) t g k p)
      t (.nbu stks)) := by
  have hplan' : ((planStacks s g k p).any fun n => decide (20 ≤ n) || stackBusy s t g k n) = false := by
    rw [List.any_eq_false]
    intro i hi
    obtain ⟨hlt, hbusy⟩ := hplan i hi
    simp [hbusy, hlt]
  have hfree' : (stks.any fun n => stackBusy v t g k n) = false := by
    rw [List.any_eq_false]
    intro i hi
    simp [hfree i hi]
  have hread : (if p.head.blen = 0 then .ok [] else readOp v g.pen (graphOf v t.graph) (opd k 4) 0 (4 * p.head.blen)) = Rd.ok b := by
    split
    · rw [hnone ‹_›]
    · exact hbc ‹_›
  change execNbuSeq t s = _
  simp only [execNbuSeq, hr, hrun, hp, hok, hplan', hpin, hplace, hfree', hread, bne_self_eq_false, Bool.not_true, Bool.or_self,
    Bool.false_eq_true, if_false]
  rfl

/-! MICRO_OP (R243 to R246, R253). -/

section
variable {s : State} {n u : Nat} {t : TaskId} {g : Graph} {k : Task} {p : NProg} {stks : List Nat} {un : Nbu}

/-- A step that names no bank operand: its sources are latches, the broadcast operand and the immediate, its target is a latch. -/
structure LatchStep (x : NStep) : Prop where
  target : x.dst ≤ 3
  noSum : x.op ≠ 0x0B
  sources : ∀ c, c ∈ nsources x → c < 4 ∨ 8 ≤ c

theorem LatchStep.noLoad {x : NStep} (hx : LatchStep x) : (nsources x).find? (fun c => decide (4 ≤ c ∧ c ≤ 7)) = none := by
  rw [List.find?_eq_none]
  intro c hc
  have := hx.sources c hc
  simp only [decide_eq_true_eq]
  omega

/-- The values of a step without a bank operand, for the elements of the unit's chunk; a latch not written reads as the free value tag. -/
def latchVals (p : NProg) (u : Nat) (un : Nbu) (x : NStep) (tag : Nat) : List W32 :=
  let ce := chunkElems p u un.balePos un.chunk
  let val (i c : Nat) : W32 := nbuSource un [] x.imm tag ce.1 i c
  (List.range ce.2).map fun i => nbuOp x.op (val i x.sa) (val i x.sb) (val i x.sc)

/-- The unit after a step that wrote the values into a latch. -/
def latchWritten (un : Nbu) (x : NStep) (count : Nat) (vals : List W32) : Nbu :=
  { un with latch := tput un.latch x.dst ((List.range count).zip vals), step := un.step + 1 }

/-- Within a chunk, and outside a BALE_SUM, such a step writes its latch and stops at its boundary. -/
theorem runMicro_latchStep {x : NStep} (hx : LatchStep x) (hstep : p.steps[un.step]? = some x) (hmore : un.step + 1 < p.head.steps)
    (hsum : tget? un.latch 5 = none) : runMicro s t g k p stks n u un =
    settleNbu (boundary (updStack (drawTag s).2 n fun y => { y with
      units := tput y.units u (latchWritten un x (chunkElems p u un.balePos un.chunk).2 (latchVals p u un x s.nfree)) }) n u) t stks n := by
  have hnth : nth p.steps un.step { op := 0, dst := 0, sa := 0, sb := 0, sc := 0, resv := 0, imm := 0 } = x := by simp [nth, hstep]
  have hnoStore : ¬(4 ≤ x.dst ∧ x.op ≠ 0x0B) := fun h => absurd hx.target (by omega)
  have hnoPartial : ∀ l, tget? (tput un.latch x.dst l) 5 = none := fun l => by
    rw [tget?_tput_ne _ _ _ _ (by have := hx.target; omega), hsum]
  simp only [runMicro, hnth, hx.noLoad, if_neg hnoStore, if_neg hx.noSum, if_pos hx.target, advanceUnit, if_pos hmore,
    Option.bind_none, Option.isSome_none, Option.any_none, stackOf_updStack_same, tget_tput_same, hnoPartial, Bool.false_and, Bool.or_self,
    Bool.false_eq_true, if_false]
  rfl

variable (hre : (stackOf s n).retraining = false) (hclr : clrOpen s n = false) (hun : (tget (stackOf s n).units u).running = some t)
  (hr : running s t 0x0C (some 0) = some (g, k)) (hrun : k.run = .nbu stks) (hp : nbuProg s g k = (some p, 0))
include hre hclr hun hr hrun hp

theorem exec_microOp_loses : exec (.microOp n u true) s = .next (lostTask (loseUnit s n u) t (nbuRestart k p)) := by
  change execMicroOp n u true s = _
  simp [execMicroOp, hre, hclr, hun, hr, hrun, hp]

theorem exec_microOp_runs : exec (.microOp n u false) s = .next (runMicro s t g k p stks n u (tget (stackOf s n).units u)) := by
  change execMicroOp n u false s = _
  simp [execMicroOp, hre, hclr, hun, hr, hrun, hp]

end

/-! REFRESH_DUE (R250) and PATROL_SCRUB (R238, R239). -/

theorem exec_refreshDue_marks {s : State} {n u : Nat} (h : (tget (stackOf s n).units u).running.isSome = true) :
    exec (.refreshDue n u) s = .next (updStack s n fun x => { x with units := tupd x.units u fun y => { y with refreshDue := true } }) := by
  change execRefreshDue n u s = _
  simp only [execRefreshDue, actWhen, h, if_true]

/-- A stack after a part of a patrol pass: the corrected lines and the pass's end counted. -/
def patrolled (corrected : Nat) (passDone : Bool) (x : Stack) : Stack :=
  { x with eccCorr := satAdd 32 x.eccCorr corrected, scrubs := satAdd 16 x.scrubs (b2n passDone) }

/-- One uncorrectable line that was not poisoned yet is poisoned and reported. -/
theorem exec_patrolScrub_one {s : State} {n l : Nat} (c : List Nat) (ov : Bool) (husable : stackUsable s n = true)
    (hl : l < stackBytes / line) (hnew : ¬dpa n (l * line) ∈ s.poison) : exec (.patrolScrub n c ⟨[l], ov⟩) s =
    .next (postEvent (poisonLine (updStack s n (patrolled c.length ov)) (dpa n (l * line))) 1 (.stack n) 1 l 0) := by
  change execPatrolScrub n c ⟨[l], ov⟩ s = _
  simp only [execPatrolScrub, husable, Bool.not_true, Bool.false_eq_true, if_false, List.filter_cons, decide_eq_true hl, if_true,
    List.filter_nil, decide_eq_false hnew, Bool.not_false, List.foldl_cons, List.foldl_nil]
  rfl

theorem poisonLine_counts (s : State) {n l : Nat} (h : l < stackBytes / line) :
    (stackOf (poisonLine s (dpa n (l * line))) n).scrubs = (stackOf s n).scrubs ∧
    (stackOf (poisonLine s (dpa n (l * line))) n).eccCorr = (stackOf s n).eccCorr := by
  simp only [poisonLine, dpaStack_dpa n l h, stackOf_updStack_same]
  exact ⟨rfl, rfl⟩

/-- Settles O45: the equation of each command. -/
theorem nearBankUnitsRun : Obligations.NearBankUnitsRun := by
  intro s n u
  refine ⟨?seq, ?micro, exec_refreshDue_marks, ?patrol⟩
  case seq =>
    intro t g k p hr hrun hp hok hplan hpin v stks b hplace hfree hnone hbc
    refine ⟨_, exec_nbuSeq_takes hr hrun hp hok hplan hpin hplace hfree hnone hbc,
      (clearRanges_messaged ..).mem.trans (takeStacks_mem ..), fun i hi => ?_⟩
    rw [stackOf_setRun, (clearRanges_messaged ..).stackOf, stackOf_takeStacks v t p _ hi]
    exact ⟨rfl, rfl⟩
  case micro =>
    rintro t g k p stks x ce un hre rfl hun hclr hr hrun hp
    refine ⟨?parity, ?step⟩
    case parity =>
      rintro _ rfl
      exact exec_microOp_loses hre hclr hun hr hrun hp
    case step =>
      rintro hstep htarget hnoSum hsources hmore hsum rfl val vals rfl rfl
      rw [exec_microOp_runs hre hclr hun hr hrun hp, runMicro_latchStep ⟨htarget, hnoSum, hsources⟩ hstep hmore hsum]
      rfl
  case patrol =>
    intro husable c l ov hl hnew
    refine ⟨_, exec_patrolScrub_one c ov husable hl hnew, ?_⟩
    have hr := postEvent_reported (poisonLine (updStack s n (patrolled c.length ov)) (dpa n (l * line))) 1 (.stack n) 1 l 0
    obtain ⟨_, _, hpoison⟩ := poisonLine_latches (updStack s n (patrolled c.length ov)) n l hl
    obtain ⟨hscrubs, hcorr⟩ := poisonLine_counts (updStack s n (patrolled c.length ov)) hl
    rw [stackOf_updStack_same] at hscrubs hcorr
    simp only [stackOf, hr.stks, hr.poison]
    exact ⟨hpoison, hscrubs, hcorr, by rw [hr]; rfl⟩

end Sys2Proof.Machine
end

section
/-!
PROOFS. Caching agents (O54): what an access does by the state of its line; replacement, Inv and its collection, recalls, the data and the
Cmp that an agent receives. A load while DIR_CTL.EN is 0 takes II_D (log 100), and one whose set is full waits for a way (log 169, the sets
of log 137): both are the model's choice.
-/

namespace Sys2Proof.Machine

/-! What a message received leaves to the agents. -/

@[simp] theorem aline_dropMsg (s : State) (m : Msg) (a l : Nat) : aline (dropMsg s m) a l = aline s a l := rfl
@[simp] theorem agentOf_dropMsg (s : State) (m : Msg) (a : Nat) : agentOf (dropMsg s m) a = agentOf s a := rfl

/-! Accesses (R257, R261, R271). -/

theorem not_takesOwner_of_tile (s : State) {a : Nat} (l : Nat) (h : a < 64) : takesOwner s a l = false := by
  simp [takesOwner, h]

section
variable {s : State} {a l : Nat} (hparked : isParked s a l = false)
include hparked

section
variable (hwr : wrOpen s a l = false) (hfree : blocked s a = false) (hmiss : aline s a l = none)
include hwr hfree hmiss

theorem access_load_miss : access s a l none =
    if cacheRoom s a l then askHome s a l none (if s.coh.en then .IS_D else .II_D) .rdS else park s a l none := by
  cases hroom : cacheRoom s a l <;> simp [access, hparked, hwr, hfree, hmiss, hroom]

theorem access_store_writesThrough (d : List Byte) (m : List Bool) (hown : takesOwner s a l = false) :
    access s a l (some (d, m)) = writeThrough s a l d m := by
  simp [access, hparked, hwr, hfree, hmiss, hown]

theorem access_store_asksOwnership (d : List Byte) (m : List Bool) (hown : takesOwner s a l = true) (hroom : cacheRoom s a l = true) :
    access s a l (some (d, m)) = askHome s a l (some (d, m)) .IE_D .rdE := by
  simp [access, hparked, hwr, hfree, hmiss, hown, hroom]

end

variable {x : ALine} (hline : aline s a l = some x)
include hline

theorem access_load_hit (h : x.st = .S ∨ x.st = .B ∨ x.st = .E ∨ x.st = .M) : access s a l none = serve s a 1 := by
  simp [access, hparked, hline, h]

theorem access_load_transient (h : ¬(x.st = .S ∨ x.st = .B ∨ x.st = .E ∨ x.st = .M)) : access s a l none = park s a l none := by
  simp [access, hparked, hline, h]

theorem access_store_owned (d : List Byte) (m : List Bool) (h : x.st = .E ∨ x.st = .M) :
    access s a l (some (d, m)) = setAline s a l { x with st := .M, data := maskBytes x.data d m } := by
  rcases h with h | h <;> simp [access, hparked, hline, h]

end

section
variable {s : State} {a l : Nat} (hup : agentUp s a = true) (hisLine : isLine l = true)
include hup hisLine

theorem exec_agentLoad_up : exec (.agentLoad a l) s = .next (access s a l none) := by
  change execAgentLoad a l s = _
  simp [execAgentLoad, actWhen, hup, hisLine]

theorem exec_agentStore_up (d : List Byte) (m : List Bool) : exec (.agentStore a l d m) s = .next (access s a l (some (d, m))) := by
  change execAgentStore a l d m s = _
  simp [execAgentStore, actWhen, hup, hisLine]

end

theorem unpark_nil {s : State} {a : Nat} (h : (agentOf s a).parked = []) : unpark s a = s := by
  simp [unpark, h]

theorem unpark_singleton {s : State} {a : Nat} {x : Nat × Option (List Byte × List Bool)} (h : (agentOf s a).parked = [x]) :
    unpark s a = access (updAgent s a fun g => { g with parked := [] }) a x.1 x.2 := by
  simp [unpark, h]

/-! Replacement (R271). -/

section
variable {s : State} {a l : Nat} {x : ALine} (hline : aline s a l = some x) (hlive : isDead s a = false)
include hline hlive

theorem exec_agentReplace_of_S (h : x.st = .S) : exec (.agentReplace a l) s = .next (unpark (dropAline s a l) a) := by
  change execAgentReplace a l s = _
  simp [execAgentReplace, hline, hlive, h]

variable (hwr : wrOpen s a l = false) (hfree : blocked s a = false)
include hwr hfree

theorem exec_agentReplace_of_B (h : x.st = .B) :
    exec (.agentReplace a l) s = .next (toHome (setAline s a l { st := .BI_P }) .putB a l) := by
  change execAgentReplace a l s = _
  simp [execAgentReplace, actWhen, hline, hlive, hwr, hfree, h]

theorem exec_agentReplace_of_E (h : x.st = .E) :
    exec (.agentReplace a l) s = .next (toHome (setAline s a l { st := .EI_P }) .putE a l) := by
  change execAgentReplace a l s = _
  simp [execAgentReplace, actWhen, hline, hlive, hwr, hfree, h]

theorem exec_agentReplace_of_M (h : x.st = .M) :
    exec (.agentReplace a l) s = .next (send (setAline s a l { st := .MI_P, data := x.data })
      { kind := .putM, src := a, dst := homeId, line := l, data := x.data, mask := allMask }) := by
  change execAgentReplace a l s = _
  simp [execAgentReplace, actWhen, hline, hlive, hwr, hfree, h]

end

/-! Inv and its collection (R269, R270). -/

theorem without_singleton (a : Nat) : without [a] a = [] := by simp [without]

section
variable {s : State} {a l : Nat} {m : Msg} (hm : findInv s a l = some m)
include hm

theorem exec_inv_blocked (h : blocked s a = true) : exec (.inv a l) s = .next s := by
  change execInv a l s = _
  simp [execInv, hm, h]

variable (hfree : blocked s a = false)
include hfree

theorem exec_inv_member (h : m.group = []) :
    exec (.inv a l) s = .next (send (ownInv (dropMsg s m) a l) { kind := .ack, src := a, dst := m.src, line := l }) := by
  change execInv a l s = _
  simp [execInv, hm, hfree, h]

/-- A Bellwether alone in its group collects nothing. -/
theorem exec_inv_alone (h : m.group = [a]) (hroom : (agentOf s a).collects.length < 32) :
    exec (.inv a l) s = .next (toHome (ownInv (dropMsg s m) a l) .ack a l) := by
  change execInv a l s = _
  simp [execInv, hm, hfree, h, without_singleton, Nat.not_le.2 hroom]

end

/-- The last Ack of an agent's only collection. -/
theorem exec_memberAck_last {s : State} {a l b : Nat} {m : Msg} {c : Collect} (hm : findMsg s (· == .ack) b a l = some m)
    (hc : (agentOf s a).collects = [c]) (hline : c.line = l) (hb : c.awaiting = [b]) :
    exec (.memberAck a l b) s = .next (toHome (updAgent (dropMsg s m) a fun g => { g with collects := [] }) .ack a l) := by
  change execMemberAck a l b s = _
  simp [execMemberAck, hm, hc, hline, hb, without_singleton]

/-! Recalls (R270 to R272). -/

/-- A line after its recall was answered: kept as B, or gone. -/
def recalledLine (s : State) (a l : Nat) (x : ALine) (keep : Bool) : State :=
  if keep then setAline s a l { st := .B, data := x.data } else dropAline s a l

theorem answerRecall_dirty (s : State) (a l : Nat) {x : ALine} (keep : Bool) (h : x.st = .M) : answerRecall s a l x keep =
    unpark (send (recalledLine s a l x keep)
      { kind := .wbD keep, src := a, dst := homeId, line := l, data := x.data, mask := allMask }) a := by
  simp only [answerRecall, recalledLine, h, if_true]

theorem answerRecall_clean (s : State) (a l : Nat) {x : ALine} (keep : Bool) (h : x.st = .E) : answerRecall s a l x keep =
    unpark (toHome (recalledLine s a l x keep) (.cAck keep) a l) a := by
  simp [answerRecall, recalledLine, h]

section
variable {s : State} {a l : Nat} {k : MsgKind} {m : Msg} (keep : Bool) (hm : findMsg s (· == k) homeId a l = some m)
include hm

theorem recallRow_blocked (h : blocked s a = true) : recallRow a l k keep s = .next s := by
  simp [recallRow, hm, h]

theorem recallRow_owned {x : ALine} (hfree : blocked s a = false) (hline : aline s a l = some x) (h : x.st = .E ∨ x.st = .M) :
    recallRow a l k keep s = .next (answerRecall (dropMsg s m) a l x keep) := by
  rcases h with h | h <;> simp [recallRow, hm, hfree, hline, h]

end

/-! Data and Cmp received (R271, R272). -/

section
variable {s : State} {a l : Nat} {m : Msg} {x : ALine} (hline : aline s a l = some x)
include hline

theorem dataRow_fills {k : MsgKind} (st : AState) (h : x.st = .IS_D) (hm : findMsg s (· == k) homeId a l = some m) :
    dataRow a l k st s = .next (unpark (setAline (dropMsg s m) a l { x with st := st, data := m.data }) a) := by
  simp [dataRow, hm, hline, h]

theorem exec_dataE_fills (h : x.st = .IE_D) (hheld : x.held = none) (hm : findMsg s (· == .dataE) homeId a l = some m) :
    exec (.dataE a l) s = .next (unpark (setAline (dropMsg s m) a l { st := .E, data := m.data }) a) := by
  change execDataE a l s = _
  simp [execDataE, actWhen, answerHeld, hm, hline, h, hheld]

theorem exec_cmp_endsPutB (h : x.st = .BI_P) (hm : findMsg s (fun k => k == .cmp false || k == .cmp true) homeId a l = some m) :
    exec (.cmp a l) s = .next (unpark (dropAline (dropMsg s m) a l) a) := by
  change execCmp a l s = _
  simp [execCmp, hm, hline, h]

end

/-- Settles O54: each command by the state of its line, accesses through the equations of `access`, recalls through those of
`answerRecall`. -/
theorem agentsKeepTheirLines : Obligations.AgentsKeepTheirLines := by
  intro s a l
  refine ⟨?miss, ?hit, ?replace, ?inv, ?collect, ?answers, unpark_nil, fun _ => unpark_singleton⟩
  case miss =>
    intro hup hl hwr hfree hparked
    refine ⟨fun hmiss hroom => ?_, fun hmiss hroom => ?_, fun d m htile hmiss => ?_, fun d m hown hmiss hroom => ?_⟩
    · rw [exec_agentLoad_up hup hl, access_load_miss hparked hwr hfree hmiss, if_pos hroom]
      rfl
    · rw [exec_agentLoad_up hup hl, access_load_miss hparked hwr hfree hmiss, hroom, if_neg Bool.false_ne_true]
    · rw [exec_agentStore_up hup hl, access_store_writesThrough hparked hwr hfree hmiss d m (not_takesOwner_of_tile s l htile)]
    · rw [exec_agentStore_up hup hl, access_store_asksOwnership hparked hwr hfree hmiss d m hown hroom]
      rfl
  case hit =>
    intro x hline hup hl hparked
    refine ⟨fun h => ?_, fun hS hB hE hM => ?_, fun d m h => ?_⟩
    · rw [exec_agentLoad_up hup hl, access_load_hit hparked hline h]
    · rw [exec_agentLoad_up hup hl, access_load_transient hparked hline (by simp [hS, hB, hE, hM])]
    · rw [exec_agentStore_up hup hl, access_store_owned hparked hline d m h]
  case replace =>
    exact fun x hline hlive hwr hfree => ⟨exec_agentReplace_of_S hline hlive, exec_agentReplace_of_B hline hlive hwr hfree,
      exec_agentReplace_of_E hline hlive hwr hfree, exec_agentReplace_of_M hline hlive hwr hfree⟩
  case inv => exact fun m hm => ⟨exec_inv_blocked hm, fun hfree => ⟨exec_inv_member hm hfree, exec_inv_alone hm hfree⟩⟩
  case collect => exact fun m c b => exec_memberAck_last
  case answers =>
    intro m x hline
    refine ⟨fun hblocked hm => recallRow_blocked false hm hblocked, fun hfree => ⟨fun hm => ?rcl, fun hm => ?rclS⟩,
      fun h => ⟨dataRow_fills hline .S h, dataRow_fills hline .B h⟩, exec_dataE_fills hline, exec_cmp_endsPutB hline⟩
    case rcl =>
      have hrow (h : x.st = .E ∨ x.st = .M) : exec (.rcl a l) s = .next (answerRecall (dropMsg s m) a l x false) :=
        recallRow_owned false hm hfree hline h
      exact ⟨fun h => by rw [hrow (.inr h), answerRecall_dirty _ _ _ _ h]; rfl,
        fun h => by rw [hrow (.inl h), answerRecall_clean _ _ _ _ h]; rfl⟩
    case rclS =>
      have hrow (h : x.st = .E ∨ x.st = .M) : exec (.rclS a l) s = .next (answerRecall (dropMsg s m) a l x true) :=
        recallRow_owned true hm hfree hline h
      exact ⟨fun h => by rw [hrow (.inr h), answerRecall_dirty _ _ _ _ h]; rfl,
        fun h => by rw [hrow (.inl h), answerRecall_clean _ _ _ _ h]; rfl⟩

end Sys2Proof.Machine
end

section
/-!
PROOFS. The host's coherence (O55): its CXL.mem requests by whether the line is a home line and what the directory has of it; snoops of the
host line cache; and the sweep for a dead agent, whose answers leave the sweep under way, the lost lines and the poison alone. HOSTMEM
counts a write outside the home slots too (log 121), and a forbidden read leaves the entry to a free value (log 139): the model's choices.
-/

namespace Sys2Proof.Machine

/-! What a host write leaves of the tasks that use its line (R453): only the Drover changes. -/

theorem foldl_droverOnly {α : Type} (g : State → α → State) (hg : ∀ s x, ∃ d, g s x = { s with drover := d }) (l : List α) (s : State) :
    ∃ d, l.foldl g s = { s with drover := d } := by
  induction l generalizing s with
  | nil => exact ⟨_, rfl⟩
  | cons x r ih =>
    obtain ⟨d, hd⟩ := hg s x
    rw [List.foldl_cons, hd]
    exact ih _

theorem spoilUsers_droverOnly (s : State) (l : Nat) : ∃ d, spoilUsers s l = { s with drover := d } := by
  refine foldl_droverOnly _ (fun s x => ?_) _ s
  split <;> exact ⟨_, rfl⟩

@[simp] theorem hostReaches_spoilUsers (s : State) (l : Nat) : hostReaches (spoilUsers s l) l = hostReaches s l := by
  obtain ⟨d, hd⟩ := spoilUsers_droverOnly s l
  rw [hd]
  rfl

@[simp] theorem homeLine_spoilUsers (s : State) (l : Nat) : homeLine (spoilUsers s l) l = homeLine s l := by
  obtain ⟨d, hd⟩ := spoilUsers_droverOnly s l
  rw [hd]
  rfl

@[simp] theorem entryOf_spoilUsers (s : State) (l : Nat) : entryOf (spoilUsers s l) l = entryOf s l := by
  obtain ⟨d, hd⟩ := spoilUsers_droverOnly s l
  rw [hd]
  rfl

@[simp] theorem entryOf_countHostWrite (s : State) (l : Nat) : entryOf (countHostWrite s) l = entryOf s l := by
  unfold countHostWrite
  split <;> rfl

/-! CXL.mem requests of the host (R264, R324). -/

/-- A message of the host to the home of a line. -/
def hostAsks (s : State) (l : Nat) (k : MsgKind) (d : List Byte) (mask : List Bool) : State :=
  send s { kind := k, src := hostAgent, dst := homeId, line := l, data := d, mask := mask }

theorem exec_hostRequest_noWrite {r : CxlReq} (s : State) (l : Nat) (h : isMemWr r = false) :
    exec (.hostCxlMemRequest r l) s = hostMemRow r l s := by
  change execHostCxlMemRequest r l s = _
  simp [execHostCxlMemRequest, h]

theorem hostOwns_iff (s : State) (l : Nat) :
    hostOwns s l = true ↔ ∃ e, entryOf s l = some e ∧ e.st = .M ∧ e.owner = hostAgent := by
  cases h : entryOf s l <;> simp [hostOwns, h]

/-- The answers of the owning host end a recall (R264). -/
theorem hostRecalled_iff (s : State) (l : Nat) : hostRecalled s l = true ↔
    ∃ e, entryOf s l = some e ∧ e.owner = hostAgent ∧ (e.st = .MS_A ∨ e.st = .MI_A ∨ e.st = .MM_A) := by
  cases h : entryOf s l <;> simp [hostRecalled, h, or_assoc]

theorem wildLine_stable {s : State} {l : Nat} {e : DEntry} (he : entryOf s l = some e) (h : isStable e = true) :
    wildLine s l = if Config.freeBool s.nfree then dropEntry { s with nfree := s.nfree + 1 } l else { s with nfree := s.nfree + 1 } := by
  simp [wildLine, drawTag, he, h]

section
variable {s : State} {l : Nat} (hreach : hostReaches s l = true)
include hreach

section
variable (hhome : homeLine s l = false)
include hhome

theorem hostMemRow_read_outside {r : CxlReq} (h : r = .rdShared ∨ r = .rdOwn ∨ r = .rdCur) :
    hostMemRow r l s = .next (poisonReply s l) := by
  rcases h with rfl | rfl | rfl <;> simp [hostMemRow, hreach, hhome]

theorem exec_hostWrite_outside (d : List Byte) (mask : List Bool) :
    exec (.hostCxlMemRequest (.wr d mask) l) s = .next (emit (countHostWrite s) (.memCmp l)) := by
  change execHostCxlMemRequest (.wr d mask) l s = _
  simp [execHostCxlMemRequest, hostMemRow, hreach, hhome]

end

section
variable (hhome : homeLine s l = true)
include hhome

theorem hostMemRow_rdCur : hostMemRow .rdCur l s = .next (hostAsks s l .rdC [] []) := by
  simp [hostMemRow, hostAsks, hreach, hhome]

theorem hostMemRow_rdShared (h : hostOwns s l = false) : hostMemRow .rdShared l s = .next (hostAsks s l .rdS [] []) := by
  simp [hostMemRow, hostAsks, hreach, hhome, h]

theorem hostMemRow_rdOwn (h : hostOwns s l = false) : hostMemRow .rdOwn l s = .next (hostAsks s l .rdE [] []) := by
  simp [hostMemRow, hostAsks, hreach, hhome, h]

theorem hostMemRow_read_owned {r : CxlReq} (h : hostOwns s l = true) (hr : r = .rdShared ∨ r = .rdOwn) :
    hostMemRow r l s = .next (wildRead s l) := by
  rcases hr with rfl | rfl <;> simp [hostMemRow, hreach, hhome, h]

/-- What the directory has of the line, and so the message of the write, is as before the users of the line were spoilt. -/
theorem exec_hostWrite_home (d : List Byte) (mask : List Bool) {u : State} (hu : u = countHostWrite (spoilUsers s l)) :
    exec (.hostCxlMemRequest (.wr d mask) l) s = .next (if hostRecalled s l then hostAsks u l (.wbD false) d mask
      else if hostOwns s l then hostAsks u l .putM d mask else hostAsks u l .wr d mask) := by
  have hentry : entryOf u l = entryOf s l := by rw [hu, entryOf_countHostWrite, entryOf_spoilUsers]
  have hrecalled : hostRecalled u l = hostRecalled s l := by simp only [hostRecalled, hentry]
  have howns : hostOwns u l = hostOwns s l := by simp only [hostOwns, hentry]
  change execHostCxlMemRequest (.wr d mask) l s = _
  simp [execHostCxlMemRequest, hostMemRow, hostAsks, isMemWr, hreach, hhome, ← hu, hrecalled, howns]

end

theorem hostMemRow_clnEvct (h : hostRecalled s l = false) :
    hostMemRow .clnEvct l s = .next (hostAsks s l (if hostOwns s l then .putE else .putB) [] []) := by
  simp [hostMemRow, hostAsks, hreach, h]

theorem hostMemRow_clnEvct_recalled (h : hostRecalled s l = true) : hostMemRow .clnEvct l s =
    .next (hostAsks { s with port := { s.port with biStray := addNew s.port.biStray l } } l .putE [] []) := by
  simp [hostMemRow, hostAsks, hreach, h]

theorem hostMemRow_biRspI_snooped (h : hostSnooped s l = true) : hostMemRow .biRspI l s = .next (hostAsks s l .ack [] []) := by
  simp [hostMemRow, biRsp, hostAsks, hreach, h]

theorem hostMemRow_biRspI_recalled (hno : hostSnooped s l = false) (h : hostRecalled s l = true) :
    hostMemRow .biRspI l s = .next (hostAsks s l (.cAck false) [] []) := by
  simp [hostMemRow, biRsp, hostAsks, hreach, hno, h]

/-- Only the recall of MS_A lets the host keep the line in S. -/
theorem hostMemRow_biRspS {e : DEntry} (he : entryOf s l = some e) (howner : e.owner = hostAgent) (hst : e.st = .MS_A) :
    hostMemRow .biRspS l s = .next (hostAsks s l (.cAck true) [] []) := by
  have hrecalled : hostRecalled s l = true := (hostRecalled_iff s l).2 ⟨e, he, howner, .inl hst⟩
  simp [hostMemRow, biRsp, hostAsks, hreach, hrecalled, he, hst]

theorem hostMemRow_biConflict (h : hostSnooped s l = true ∨ hostRecalled s l = true) :
    hostMemRow .biConflict l s = .next (emit s (.biConflictAck l)) := by
  simp [hostMemRow, hreach, h]

end

/-- A forbidden read (R281): the entry of a line that the host owns is stable. -/
theorem wildRead_owned {s r : State} {l : Nat} (h : hostOwns s l = true) (hr : r = emit { s with nfree := s.nfree + 1 } (.memData l
      ((List.range 64).map fun i => Config.freeByte s.nfree i) false ((Config.freeByte s.nfree 64).toNat % 3))) :
    wildRead s l = if Config.freeBool r.nfree then dropEntry { r with nfree := r.nfree + 1 } l else { r with nfree := r.nfree + 1 } := by
  obtain ⟨e, he, hst, -⟩ := (hostOwns_iff s l).1 h
  have hentry : entryOf r l = some e := by rw [hr]; exact he
  rw [← wildLine_stable hentry (by simp [isStable, hst]), hr]
  rfl

/-! The host line cache (R279). -/

theorem cached_of_filtered {s : State} {l : Nat} (c : List HostLine) (h : s.port.hostCache = c.filter fun x => x.line != l) :
    cached s l = false := by
  simp [cached, h]

/-! The host declared dead (R275). -/

theorem exec_bisnpTimeout_recalled {s : State} {l : Nat} {e : DEntry} (he : entryOf s l = some e) (howner : e.owner = hostAgent)
    (hst : e.st = .MS_A ∨ e.st = .MI_A ∨ e.st = .MM_A) : exec (.bisnpTimeout l) s = .next (declareDead s hostAgent) := by
  change execBisnpTimeout l s = _
  rcases hst with hst | hst | hst <;> simp [execBisnpTimeout, actWhen, he, howner, hst]

/-! What an answer of the directory leaves as it was (R265 to R274). -/

/-- A state without what requests and answers change: what is sent, the fabric, the slices and the agents. -/
def withoutTraffic (s : State) : State :=
  { s with out := [], coh := { s.coh with slices := [], agents := [], net := [], nextMsg := 0, held := [] } }

theorem sweeping_of_withoutTraffic {s t : State} (h : withoutTraffic t = withoutTraffic s) : t.coh.sweeping = s.coh.sweeping :=
  congrArg (fun x => x.coh.sweeping) h
theorem lost_of_withoutTraffic {s t : State} (h : withoutTraffic t = withoutTraffic s) : t.coh.lost = s.coh.lost :=
  congrArg (fun x => x.coh.lost) h
theorem poison_of_withoutTraffic {s t : State} (h : withoutTraffic t = withoutTraffic s) : t.poison = s.poison :=
  congrArg (fun x => x.poison) h

theorem foldl_keeps {α β : Type} (f : State → β) (g : State → α → State) (hg : ∀ s x, f (g s x) = f s) (l : List α) (s : State) :
    f (l.foldl g s) = f s := by
  induction l generalizing s with
  | nil => rfl
  | cons x r ih => rw [List.foldl_cons, ih, hg]

theorem withoutTraffic_foldl {α : Type} (g : State → α → State) (hg : ∀ s x, withoutTraffic (g s x) = withoutTraffic s) (l : List α)
    (s : State) : withoutTraffic (l.foldl g s) = withoutTraffic s :=
  foldl_keeps withoutTraffic g hg l s

section
variable (s : State) (l : Nat)

@[simp] theorem withoutTraffic_updSlice (f : Slice → Slice) : withoutTraffic (updSlice s l f) = withoutTraffic s := rfl
@[simp] theorem withoutTraffic_setEntry (e : DEntry) : withoutTraffic (setEntry s l e) = withoutTraffic s := rfl
@[simp] theorem withoutTraffic_putEntry (e : DEntry) : withoutTraffic (putEntry s l e) = withoutTraffic s := rfl
@[simp] theorem withoutTraffic_dropEntry : withoutTraffic (dropEntry s l) = withoutTraffic s := rfl
@[simp] theorem withoutTraffic_rdAcc (k : MsgKind) (a : Nat) : withoutTraffic (rdAcc s l k a) = withoutTraffic s := rfl
@[simp] theorem withoutTraffic_wrAcc (d : List Byte) (mask : List Bool) (o : Option Msg) :
    withoutTraffic (wrAcc s l d mask o) = withoutTraffic s := rfl

@[simp] theorem withoutTraffic_send (m : Msg) : withoutTraffic (send s m) = withoutTraffic s := by
  fun_cases send s m
  · rfl
  · rfl
  · fun_cases enterNet s m
    · fun_cases sendHost s m <;> rfl
    · rfl
    · rfl

@[simp] theorem withoutTraffic_tell (k : MsgKind) (a : Nat) : withoutTraffic (tell s k a l) = withoutTraffic s :=
  withoutTraffic_send ..

@[simp] theorem withoutTraffic_invMembers (ms : List Nat) : withoutTraffic (invMembers s l ms) = withoutTraffic s :=
  withoutTraffic_foldl _ (fun s a => withoutTraffic_tell s l .inv a) ms s

@[simp] theorem withoutTraffic_invGroups (e : DEntry) (gs : List Nat) (host : Bool) :
    withoutTraffic (invGroups s l e gs host).1 = withoutTraffic s := by
  have hgroups : withoutTraffic (invGroups s l e gs false).1 = withoutTraffic s :=
    List.foldlRecOn gs _ (motive := fun x : State × List Nat => withoutTraffic x.1 = withoutTraffic s) rfl fun x hx g _ => by
      split <;> simp [hx]
  cases host
  · exact hgroups
  · exact (withoutTraffic_tell ..).trans hgroups

@[simp] theorem withoutTraffic_finishInv (e : DEntry) : withoutTraffic (finishInv s l e) = withoutTraffic s := by
  fun_cases finishInv s l e <;> simp +zetaDelta [apply_ite withoutTraffic]

@[simp] theorem withoutTraffic_settleInv (e : DEntry) : withoutTraffic (settleInv s l e) = withoutTraffic s := by
  fun_cases settleInv s l e <;> simp

@[simp] theorem withoutTraffic_finishRecall (e : DEntry) (shared : Bool) :
    withoutTraffic (finishRecall s l e shared) = withoutTraffic s := by
  fun_cases finishRecall s l e shared <;> simp +zetaDelta [apply_ite withoutTraffic]

@[simp] theorem withoutTraffic_handle (m : Msg) : withoutTraffic (handle s m) = withoutTraffic s := by
  fun_cases handle s m <;> simp +zetaDelta

@[simp] theorem withoutTraffic_evict : withoutTraffic (evict s l) = withoutTraffic s := by
  fun_cases evict s l <;> simp +zetaDelta

@[simp] theorem withoutTraffic_reexamine (k : Nat) : withoutTraffic (reexamine s l k) = withoutTraffic s := by
  fun_induction reexamine s l k <;> simp [*]

@[simp] theorem withoutTraffic_retryAgain : withoutTraffic (retryAgain s l) = withoutTraffic s :=
  withoutTraffic_reexamine ..

end

/-! The sweep of a dead agent (R275 to R277). -/

/-- An entry swept loses its line, or is answered as usual. -/
theorem withoutTraffic_sweepEntry (s : State) (d l : Nat) : withoutTraffic (sweepEntry s d l) = withoutTraffic s ∨
    withoutTraffic (sweepEntry s d l) = withoutTraffic (loseLine s l) := by
  have hlose (e : DEntry) : withoutTraffic (loseLine (putEntry s l e) l) = withoutTraffic (loseLine s l) := rfl
  fun_cases sweepEntry s d l <;> simp +zetaDelta [apply_ite withoutTraffic, hlose]

theorem sweepEntry_sweeping (s : State) (d l : Nat) : (sweepEntry s d l).coh.sweeping = s.coh.sweeping :=
  (withoutTraffic_sweepEntry s d l).elim sweeping_of_withoutTraffic sweeping_of_withoutTraffic

theorem withoutTraffic_sweepCollects (s : State) (d : Nat) : withoutTraffic (sweepCollects s d) = withoutTraffic s := by
  refine withoutTraffic_foldl _ (fun s x => ?_) _ s
  exact withoutTraffic_foldl _ (fun s l => withoutTraffic_send s _) _ _

theorem postNodeEvent_reported (s : State) (cls what data0 data1 : Nat) : Reported s (postNodeEvent s cls what data0 data1) :=
  postEventRaw_reported ..

theorem lostEvent_reported (s : State) (d n : Nat) : Reported s (lostEvent s d n) := by
  fun_cases lostEvent s d n
  · exact .refl s
  · exact postEvent_reported ..
  · exact postEvent_reported ..
  · exact postNodeEvent_reported ..

/-- A sweep begun for an agent: its messages, its lines and what the slices owe it are gone. -/
def sweepBegun (s : State) (a : Nat) : State :=
  { s with coh := { keepMsgs s.coh (fun m => m.src != a) with
    toSweep := a :: without s.coh.toSweep a, sweeping := true
    slices := tmap s.coh.slices fun _ x => sweepSlice a x
    agents := tdel s.coh.agents a } }

/-- The lines that a sweep examines. -/
def sweptLines (s : State) (a : Nat) : List Nat := (sweepBegun s a).coh.slices.flatMap fun x => tkeys x.2.entries

/-- The node after a sweep, before the event record of the lines lost. -/
def swept (s : State) (a : Nat) : State :=
  (sweptLines s a).foldl retryAgain (sweepCollects ((sweptLines s a).foldl (fun s l => sweepEntry s a l) (sweepBegun s a)) a)

theorem exec_reclaimSweep_due {s : State} {a : Nat} (ha : a ∈ s.coh.toSweep) (hs : s.coh.sweeping = false) :
    ∃ n, exec (.reclaimSweep a) s = .next (lostEvent (swept s a) a n) := by
  change ∃ n, execReclaimSweep a s = _
  simp only [execReclaimSweep, ha, hs, decide_true, Bool.not_true, Bool.or_self, Bool.false_eq_true, if_false]
  exact ⟨_, rfl⟩

theorem swept_sweeping (s : State) (a : Nat) : (swept s a).coh.sweeping = true := by
  rw [swept, sweeping_of_withoutTraffic (withoutTraffic_foldl _ withoutTraffic_retryAgain _ _),
    sweeping_of_withoutTraffic (withoutTraffic_sweepCollects ..),
    foldl_keeps (fun s => s.coh.sweeping) _ (fun s l => sweepEntry_sweeping s a l)]
  rfl

theorem sweptLines_of_noEntry {s : State} (a : Nat) (h : ∀ x, x ∈ s.coh.slices → x.2.entries = []) : sweptLines s a = [] := by
  simp only [sweptLines, sweepBegun, tmap, List.flatMap_map, List.flatMap_eq_nil_iff]
  intro x hx
  change tkeys x.2.entries = []
  rw [h x hx]
  rfl

theorem withoutTraffic_swept_of_noLine {s : State} {a : Nat} (h : sweptLines s a = []) :
    withoutTraffic (swept s a) = withoutTraffic (sweepBegun s a) := by
  rw [swept, h]
  exact withoutTraffic_sweepCollects ..

theorem exec_reclaimSweepDone_ends {s : State} {a : Nat} {r : List Nat} (hs : s.coh.sweeping = true) (ha : s.coh.toSweep = a :: r) {u : State}
    (hu : u = markDead { s with coh := { s.coh with toSweep := r, sweeping := false } } a) :
    exec .reclaimSweepDone s = .next (relaunch u (sweptTasks u)) := by
  change execReclaimSweepDone s = _
  simp [execReclaimSweepDone, ha, hs, ← hu]

/-- Settles O55: each request of the host by its equation, and for a sweep what `swept` leaves as it was. -/
theorem theHostIsCoherent : Obligations.TheHostIsCoherent := by
  rintro s l q rfl
  refine ⟨fun hreach => ?requests, fun data => ?snpInv, rfl, rfl, fun e => exec_bisnpTimeout_recalled, fun a ha hs => ?sweep,
    fun a r hs ha u => exec_reclaimSweepDone_ends hs ha⟩
  case requests =>
    have hreq {r : CxlReq} (h : isMemWr r = false) := exec_hostRequest_noWrite s l h
    refine ⟨fun hhome => ?outside, fun hhome => ?cur, fun hhome howns => ?reads, fun hhome d mask u => ?writes, fun h => ?evicts, fun h => ?crosses,
      fun h => ?acks, fun hno h => ?gives, fun e he howner hst => ?keeps, fun h => ?conflict, fun hhome howns r hr i hi => ?wild⟩
    case outside =>
      have hread {r : CxlReq} (h : r = .rdShared ∨ r = .rdOwn ∨ r = .rdCur) := hostMemRow_read_outside hreach hhome h
      exact ⟨(hreq rfl).trans (hread (.inl rfl)), (hreq rfl).trans (hread (.inr (.inl rfl))), (hreq rfl).trans (hread (.inr (.inr rfl))),
        exec_hostWrite_outside hreach hhome⟩
    case cur => exact (hreq rfl).trans (hostMemRow_rdCur hreach hhome)
    case reads =>
      exact ⟨(hreq rfl).trans (hostMemRow_rdShared hreach hhome howns), (hreq rfl).trans (hostMemRow_rdOwn hreach hhome howns)⟩
    case writes => exact exec_hostWrite_home hreach hhome d mask
    case evicts => exact (hreq rfl).trans (hostMemRow_clnEvct hreach h)
    case crosses => exact (hreq rfl).trans (hostMemRow_clnEvct_recalled hreach h)
    case acks => exact (hreq rfl).trans (hostMemRow_biRspI_snooped hreach h)
    case gives => exact (hreq rfl).trans (hostMemRow_biRspI_recalled hreach hno h)
    case keeps => exact (hreq rfl).trans (hostMemRow_biRspS hreach he howner hst)
    case conflict => exact (hreq rfl).trans (hostMemRow_biConflict hreach h)
    case wild =>
      rw [← wildRead_owned howns hr]
      rcases hi with rfl | rfl
      · exact (hreq rfl).trans (hostMemRow_read_owned hreach hhome howns (.inl rfl))
      · exact (hreq rfl).trans (hostMemRow_read_owned hreach hhome howns (.inr rfl))
  case snpInv => exact ⟨_, rfl, cached_of_filtered _ rfl, rfl, rfl, rfl⟩
  case sweep =>
    obtain ⟨n, hexec⟩ := exec_reclaimSweep_due ha hs
    have hcoh : (lostEvent (swept s a) a n).coh = (swept s a).coh := by rw [lostEvent_reported]
    refine ⟨_, hexec, by rw [hcoh, swept_sweeping], fun hnone => ?_⟩
    have hrest := withoutTraffic_swept_of_noLine (sweptLines_of_noEntry a hnone)
    have hpoison := poison_of_withoutTraffic hrest
    have hlost := lost_of_withoutTraffic hrest
    exact ⟨(lostEvent_reported ..).poison.trans hpoison, (congrArg Coh.lost hcoh).trans hlost⟩

end Sys2Proof.Machine
end

section
/-!
SUPPORT. The flash channels: what a channel is after an update of it, and the operation that its LUN has served.
-/

namespace Sys2Proof.Machine

/-! Updates of a channel. -/

/-- A change of a key's entry depends only on what it makes of that entry. -/
theorem tupd_congr {α : Type} [Inhabited α] {t : Tab α} {k : Nat} {f g : α → α} (h : f (tget t k) = g (tget t k)) :
    tupd t k f = tupd t k g := by
  induction t with
  | nil => rfl
  | cons x r ih =>
    obtain ⟨j, w⟩ := x
    by_cases hj : j = k
    · have hw : f w = g w := by simpa [tget, tget?, hj] using h
      simp [tupd, hj, hw]
    · simp only [tupd, if_neg hj, ih (by simpa [tget, tget?, hj] using h)]

theorem tupd_tupd {α : Type} (t : Tab α) (k : Nat) (f g : α → α) : tupd (tupd t k f) k g = tupd t k fun x => g (f x) := by
  induction t with
  | nil => rfl
  | cons x r ih =>
    by_cases hj : x.1 = k
    · simp [tupd, hj]
    · simp [tupd, hj, ih]

theorem tget?_tmap {α β : Type} (t : Tab α) (f : Nat → α → β) (k : Nat) : tget? (tmap t f) k = (tget? t k).map (f k) := by
  induction t with
  | nil => rfl
  | cons x r ih =>
    have ih' : tget? (r.map fun e => (e.1, f e.1 e.2)) k = (tget? r k).map (f k) := ih
    by_cases hj : x.1 = k
    · simp [tmap, tget?, hj]
    · simp [tmap, tget?, hj, ih']

theorem updChan_congr {s : State} {c : Nat} {f g : Chan → Chan} (h : f (chanOf s c) = g (chanOf s c)) :
    updChan s c f = updChan s c g := by
  simp only [updChan, tupd_congr h]

@[simp] theorem updChan_updChan (s : State) (c : Nat) (f g : Chan → Chan) :
    updChan (updChan s c f) c g = updChan s c fun ch => g (f ch) := by
  simp only [updChan, tupd_tupd]

section
variable {s : State} {c : Nat}

/-- A channel that differs from the default one stands in the table. -/
theorem thas_of_chanOf_ne (h : chanOf s c ≠ default) : thas s.ftl.chans c = true := by
  cases hc : tget? s.ftl.chans c with
  | none => exact absurd (by simp [chanOf, tget, hc]) h
  | some ch => simp [thas, hc]

theorem thas_of_usable (h : (chanOf s c).usable = true) : thas s.ftl.chans c = true :=
  thas_of_chanOf_ne fun e => by rw [e] at h; cases h

theorem thas_of_rebuilding (h : (chanOf s c).rebuilding = true) : thas s.ftl.chans c = true :=
  thas_of_chanOf_ne fun e => by rw [e] at h; cases h

theorem thas_of_servedOp {n k : Nat} {o : FlashOp} (h : servedOp (chanOf s c) n k = some o) : thas s.ftl.chans c = true :=
  thas_of_chanOf_ne fun e => by rw [e] at h; cases h

theorem chanOf_updChan_same (h : thas s.ftl.chans c = true) (f : Chan → Chan) : chanOf (updChan s c f) c = f (chanOf s c) := by
  obtain ⟨ch, hch⟩ := Option.isSome_iff_exists.1 h
  simp [chanOf, tget, tget?_tupd_same, hch]

end

theorem findOp_of_servedOp {ch : Chan} {n k : Nat} {o : FlashOp} (h : servedOp ch n k = some o) : findOp ch n k = some o :=
  (Option.filter_eq_some_iff.1 h).1

theorem ne_of_mem_removeOp {ch : Chan} {n : Nat} {o : FlashOp} (h : o ∈ (removeOp ch n).ops) : o.num ≠ n := by
  simpa using (List.mem_filter.1 h).2

end Sys2Proof.Machine
end

section
/-!
PROOFS. Flash tasks, page reads and page programs (O51).
-/

namespace Sys2Proof.Machine

/-! FLASH_READ, FLASH_WRITE and deallocation (R298, R341). -/

section
variable {s : State} {t : TaskId} {g : Graph} {k : Task}
variable (hw : (flashLbas s g k).any (unitWaits s) = false) (hb : flashBad s g k = false)
include hw hb

theorem exec_flashRead_running (hr : running s t 0x1C (some 0) = some (g, k)) (hk : k.run = .none) (hne : flashLbas s g k ≠ []) :
    exec (.flashRead t) s = .next (readUnits
      (modTask (setRun s t .io) t fun x => { x with usedFlash := x.usedFlash + 16 * ceilDiv (flashLbas s g k).length 4, wrote := true })
      (taskOwner t g) (putTask t) ((List.range (flashLbas s g k).length).zip (flashLbas s g k) |>.map fun x => (x.2, 4096 * x.1))) := by
  change execFlashRead t s = _
  simp [execFlashRead, hr, hk, hw, hb, hne]

theorem exec_flashWrite_running (hr : running s t 0x1D (some 0) = some (g, k)) (hk : k.run = .none) {bs : List Byte}
    (hbs : readOp s g.pen (some g) (nth k.ops 1 .none) 0 (4096 * (flashLbas s g k).length) = .ok bs) {v : State}
    (hv : v = writeUnits
      (modTask (setRun s t .io) t fun x => { x with usedFlash := x.usedFlash + 16 * ceilDiv (flashLbas s g k).length 4, wrote := true })
      (taskOwner t g) (bit k.param.toNat 32 || firstBad (unitWriteStatus s) (flashLbas s g k) != 0) (dataUnits (flashLbas s g k) bs)) :
    exec (.flashWrite t) s = .next (settleOrdered v (orderedCount v)) := by
  change execFlashWrite t s = _
  simp only [execFlashWrite, hr, hk, hw, hb, hbs, hv]
  rfl

theorem exec_deallocate_running (hr : running s t 0x1D (some 1) = some (g, k)) (hok : ∀ u ∈ flashLbas s g k, unitWriteStatus s u = 0) :
    exec (.deallocate t) s =
      .next (wake (finishTask ((flashLbas s g k).foldl trimUnit s) t stSuccess (flashLbas s g k).length)) := by
  have hall : (flashLbas s g k).filter (fun u => unitWriteStatus s u == 0) = flashLbas s g k :=
    List.filter_eq_self.2 fun u hu => by simp [hok u hu]
  have hst : firstBad (unitWriteStatus s) (flashLbas s g k) = stSuccess := by
    have hnone : ((flashLbas s g k).map (unitWriteStatus s)).find? (· != 0) = none := by simpa using hok
    simp [firstBad, hnone, stSuccess]
  change execDeallocate t s = _
  simp [execDeallocate, hr, hw, hb, hall, hst]

end

/-! Page reads (R300). -/

theorem failed_of_allDecoded {m : Nat} {dec : List Bool} (hd : allDecoded m dec = true) :
    (List.range m).filter (fun i => !nth dec i false) = [] := by
  simpa [allDecoded] using hd

section
variable {s : State} {c n : Nat} {o : FlashOp} {dec : List Bool} (ho : servedOp (chanOf s c) n 0 = some o)
include ho

/-- Below step 7 a page read that does not decode counts one read and goes to the next step. -/
theorem exec_pageReadDone_nextStep (hd : allDecoded o.units.length dec = false) (hs : o.step < 7) :
    exec (.pageReadDone c n dec) s = .next (updChan s c fun ch =>
      { pageReads (profOf s c) ch o.blk 1 with
        ops := (pageReads (profOf s c) ch o.blk 1).ops.map fun x => if x.num = n then { x with step := x.step + 1 } else x }) := by
  have h7 : o.step ≠ 7 := by omega
  change execPageReadDone c n dec s = _
  simp [execPageReadDone, ho, hd, hs, h7]

/-- A page read for a walk that decodes ends its operation, without an uncorrectable sector, and gives the walk its page. -/
theorem exec_pageReadDone_walk {walker : TaskId} {page : Nat} (hd : allDecoded o.units.length dec = true)
    (hp : o.purpose = .walk walker page) : ∃ f : Chan → Chan,
    exec (.pageReadDone c n dec) s = .next (modTask (updChan s c f) walker fun x => walkVerdict x c page true) ∧
      ∀ ch, (f ch).uncorr = ch.uncorr ∧ (f ch).ops = (removeOp ch n).ops := by
  apply Exists.intro
  constructor
  · change execPageReadDone c n dec s = _
    simp only [execPageReadDone, ho, hd, hp, failed_of_allDecoded hd, uncorrEvents, updChan_updChan]
    rfl
  · exact fun ch => ⟨rfl, rfl⟩

end

/-! Page programs (R306). -/

section
variable {s : State} {c n : Nat} {o : FlashOp} (ho : servedOp (chanOf s c) n 1 = some o)
  (hj : (chanOf s c).jpages = []) (hm : (chanOf s c).moves = []) (hc : (chanOf s c).ckptBusy = none)
include ho hj hm hc

theorem exec_programDone_pass : exec (.programDone c n true) s = .next (afterProgram c (landOwners (updChan s c fun ch =>
    closeIfFull (profOf s c) (landSectors (profOf s c) { removeOp ch n with programs := wrapAdd 32 ch.programs 1 } o.blk o.page 0 o.sectors)
      o.blk) c o.sectors)) := by
  change execProgramDone c n true s = _
  simp only [execProgramDone, ho, endProgram, findOp_of_servedOp ho, hj, hm, hc, List.find?_nil, updChan_updChan]
  rfl

theorem exec_programDone_fail : exec (.programDone c n false) s = .next (afterProgram c (kickChan (updChan s c fun ch =>
    failKindling { removeOp ch n with
      programs := wrapAdd 32 ch.programs 1, progFail := satAdd 16 ch.progFail 1
      page := (o.sectors.filter fun x => x.1.kind != 6) ++ ch.page } o.blk) c)) := by
  change execProgramDone c n false s = _
  simp only [execProgramDone, ho, endProgram, findOp_of_servedOp ho, hj, hm, hc, List.find?_nil, updChan_updChan]
  rfl

end

/-- A pad sector (KIND 6), which nobody waits for. -/
def padSector : Sector × Owner := ({ unit := 0, space := 4095, kind := 6, seq := 0, data := [] }, .none)

/-- A channel's Kindling page padded to four units. -/
def padPage (ch : Chan) : Chan := { ch with page := ch.page ++ List.replicate (4 - ch.page.length) padSector }

/-- A Kindling page not filled is padded and programmed (R294). -/
theorem exec_kindlingPad_partial {s : State} {c : Nat} (h1 : 1 ≤ (chanOf s c).page.length) (h4 : (chanOf s c).page.length < 4) :
    exec (.kindlingPad c) s = .next (kickChan (updChan s c fun _ => padPage (chanOf s c)) c) := by
  have hn : ¬((chanOf s c).page.length = 0 ∨ 4 ≤ (chanOf s c).page.length) := by omega
  change execKindlingPad c s = _
  simp only [execKindlingPad, if_neg hn]
  exact congrArg (fun u => Host.Outcome.next (kickChan u c)) (updChan_congr rfl)

/-- Settles O51: each row's equation, and what its channel shows behind it. -/
theorem flashTasksReachTheMedia : Obligations.FlashTasksReachTheMedia := by
  intro s t g k
  refine ⟨?tasks, ?climbs, ?walks, ?programs, ?pads, fun c => rfl⟩
  case tasks =>
    rintro hw hb us rfl n rfl
    refine ⟨?_, ?_, fun hr hok => exec_deallocate_running hw hb hr hok⟩
    · rintro hr hk hne u rfl
      exact exec_flashRead_running hw hb hr hk hne
    · rintro hr hk bs u fua hbs rfl hfua v rfl
      obtain rfl : fua = (bit k.param.toNat 32 || firstBad (unitWriteStatus s) (flashLbas s g k) != 0) := by
        rw [Bool.eq_iff_iff, hfua]
        simp
      exact exec_flashWrite_running hw hb hr hk hbs rfl
  case climbs =>
    intro c n o dec ho hd hs
    have hthas := thas_of_servedOp ho
    exact ⟨_, exec_pageReadDone_nextStep ho hd hs, rfl, rfl, by rw [chanOf_updChan_same hthas]; rfl,
      by rw [chanOf_updChan_same hthas]; rfl, by rw [chanOf_updChan_same hthas]; rfl⟩
  case walks =>
    intro c n o dec walker page ho hd hp
    have hthas := thas_of_servedOp ho
    obtain ⟨f, hexec, hf⟩ := exec_pageReadDone_walk ho hd hp
    obtain ⟨huncorr, hops⟩ := hf (chanOf s c)
    refine ⟨updChan s c f, hexec, rfl, rfl, ?_, ?_⟩ <;> rw [chanOf_updChan_same hthas]
    · rw [hops]
      exact fun op hop => ne_of_mem_removeOp hop
    · exact huncorr
  case programs =>
    rintro c n o p ho rfl hj hm hc
    exact ⟨exec_programDone_pass ho hj hm hc, exec_programDone_fail ho hj hm hc⟩
  case pads =>
    intro c h1 h4
    refine ⟨padPage (chanOf s c), exec_kindlingPad_partial h1 h4, ?_, List.take_left, fun x hx => ?_⟩
    · simp only [padPage, List.length_append, List.length_replicate]
      omega
    · rw [padPage, List.drop_left, List.mem_replicate] at hx
      rw [hx.2, padSector]

end Sys2Proof.Machine
end

section
/-!
SUPPORT. The least element of a list, the candidate that a rebuild takes for a unit, and the block that is taken from a LUN's free list: a
fold is told of the list with one element more.
-/

namespace Sys2Proof.Machine

/-! The least element. -/

theorem argMin_concat {α : Type} (f : α → Nat) (l : List α) (x : α) :
    argMin f (l ++ [x]) = some ((argMin f l).elim x fun y => if f x < f y then x else y) := by
  have hstep : argMin f (l ++ [x]) = argMin f ((argMin f l).toList ++ [x]) := by
    simp only [argMin, List.foldl_append]
    cases l.foldl _ none <;> rfl
  rw [hstep]
  cases argMin f l with
  | none => rfl
  | some y =>
    change (if f x < f y then some x else some y) = some (if f x < f y then x else y)
    split <;> rfl

theorem argMin_eq_none {α : Type} {f : α → Nat} {l : List α} (h : argMin f l = none) : l = [] := by
  induction l using List.reverseRecOn with
  | nil => rfl
  | append_singleton l x _ => rw [argMin_concat] at h; cases h

/-- argMin gives an element of the list, and none is below it. -/
theorem argMin_spec {α : Type} {f : α → Nat} {l : List α} {y : α} (h : argMin f l = some y) : y ∈ l ∧ ∀ x ∈ l, f y ≤ f x := by
  induction l using List.reverseRecOn generalizing y with
  | nil => cases h
  | append_singleton l x ih =>
    rw [argMin_concat] at h
    cases hl : argMin f l with
    | none =>
      obtain rfl := argMin_eq_none hl
      obtain rfl : x = y := by simpa [hl] using h
      simp
    | some z =>
      obtain ⟨hz, hmin⟩ := ih hl
      rw [hl, Option.elim, Option.some.injEq] at h
      simp only [List.forall_mem_append, List.forall_mem_singleton]
      split at h <;> subst h
      · next hx => exact ⟨by simp, fun a ha => hx.le.trans (hmin a ha), le_rfl⟩
      · next hx => exact ⟨by simp [hz], hmin, Nat.le_of_not_lt hx⟩

/-! Candidates (R315). -/

theorem winners_concat (l : List Cand) (c : Cand) : winners (l ++ [c]) =
    if (tget? (winners l) c.key).any (fun d => decide (c.seq ≤ d.seq)) then winners l else tput (winners l) c.key c := by
  simp only [winners, List.foldl_append, List.foldl_cons, List.foldl_nil]
  split
  · next d hd => by_cases hlt : d.seq < c.seq <;> simp [hd, hlt]
  · next hd => simp [hd]

/-- The winner of a unit is one of its candidates. -/
theorem winners_sound {l : List Cand} {k : Nat} {d : Cand} (h : tget? (winners l) k = some d) : d ∈ l ∧ d.key = k := by
  induction l using List.reverseRecOn with
  | nil => cases h
  | append_singleton l c ih =>
    have hold : tget? (winners l) k = some d → d ∈ l ++ [c] ∧ d.key = k :=
      fun hl => ⟨List.mem_append_left _ (ih hl).1, (ih hl).2⟩
    rw [winners_concat] at h
    split at h
    · exact hold h
    · by_cases hk : k = c.key
      · subst hk
        obtain rfl : c = d := by simpa using h
        simp
      · exact hold (by rwa [tget?_tput_ne _ _ _ _ hk] at h)

/-- No candidate of a unit is above its winner. -/
theorem winners_highest {l : List Cand} {c : Cand} (h : c ∈ l) : ∃ d, tget? (winners l) c.key = some d ∧ c.seq ≤ d.seq := by
  induction l using List.reverseRecOn with
  | nil => cases h
  | append_singleton l e ih =>
    rw [winners_concat]
    rw [List.mem_append, List.mem_singleton] at h
    rcases h with h | rfl
    · obtain ⟨d, hd, hle⟩ := ih h
      split
      · exact ⟨d, hd, hle⟩
      · next hany =>
        by_cases hk : c.key = e.key
        · have hlt : ¬e.seq ≤ d.seq := by simpa [← hk, hd] using hany
          exact ⟨e, by rw [hk, tget?_tput_same], by omega⟩
        · exact ⟨d, by rwa [tget?_tput_ne _ _ _ _ hk], hle⟩
    · split
      · next hany =>
        obtain ⟨d, hd, hle⟩ := (Option.any_eq_true ..).1 hany
        exact ⟨d, hd, of_decide_eq_true hle⟩
      · exact ⟨c, tget?_tput_same .., le_rfl⟩

/-! Blocks of a channel. -/

@[simp] theorem blkOf_setBlk_same (ch : Chan) (b : Nat) (x : Block) : blkOf (setBlk ch b x) b = x := by simp [blkOf, setBlk]

@[simp] theorem blkOf_modBlk_same (ch : Chan) (b : Nat) (f : Block → Block) : blkOf (modBlk ch b f) b = f (blkOf ch b) := by
  simp [modBlk]

@[simp] theorem blkOf_blockEvent (ch : Chan) (b ev i : Nat) : blkOf (blockEvent ch b ev) i = blkOf ch i := rfl

/-- A LUN's free block: free, in the LUN, and none of the LUN's free blocks has less wear (R296). -/
theorem freeBlock_spec {p : Profile} {ch : Chan} {lun b : Nat} (h : freeBlock p ch lun = some b) :
    (blkOf ch b).st = .free ∧ lun * p.nb ≤ b ∧ b < (lun + 1) * p.nb ∧
      ∀ x, lun * p.nb ≤ x → x < (lun + 1) * p.nb → (blkOf ch x).st = .free → wear p (blkOf ch b) ≤ wear p (blkOf ch x) := by
  have hmem : ∀ x, x ∈ ((List.range p.nb).map fun b => lun * p.nb + b).filter (fun b => (blkOf ch b).st == .free) ↔
      (lun * p.nb ≤ x ∧ x < (lun + 1) * p.nb) ∧ (blkOf ch x).st = .free := by
    intro x
    rw [List.mem_filter, List.mem_map, beq_iff_eq, Nat.succ_mul]
    refine and_congr_left' ⟨?_, fun ⟨hl, hu⟩ => ⟨x - lun * p.nb, List.mem_range.2 (by omega), by omega⟩⟩
    rintro ⟨i, hi, rfl⟩
    have := List.mem_range.1 hi
    omega
  obtain ⟨hb, hmin⟩ := argMin_spec h
  obtain ⟨⟨hl, hu⟩, hfree⟩ := (hmem b).1 hb
  exact ⟨hfree, hl, hu, fun x hxl hxu hxf => hmin x ((hmem x).2 ⟨⟨hxl, hxu⟩, hxf⟩)⟩

/-- A block taken is the LUN's free block, in the state and the mode asked for. -/
theorem takeBlock_spec {p : Profile} {ch v : Chan} {lun b : Nat} {st : BlkState} {pslc : Bool}
    (h : takeBlock p ch lun st pslc = some (v, b)) :
    freeBlock p ch lun = some b ∧ (blkOf v b).st = st ∧ (blkOf v b).pslc = pslc := by
  unfold takeBlock at h
  split at h
  · cases h
  · next a ha =>
    obtain ⟨rfl, rfl⟩ := Prod.mk.inj (Option.some.inj h)
    exact ⟨ha, by simp, by simp⟩

end Sys2Proof.Machine
end

section
/-!
SUPPORT. What a rebuild settles: the steps that write a channel's checkpoint, anchor page and retirements leave its standing as it was.
-/

namespace Sys2Proof.Machine

/-- A channel's standing: rebuilt, usable, rebuilding, and whether its media are formatted. -/
def standing (ch : Chan) : Bool × Bool × Bool × Bool := (ch.rebuilt, ch.usable, ch.rebuilding, ch.media.formatted)

theorem foldl_standing {α : Type} (l : List α) (g : Chan → α → Chan) (hg : ∀ ch x, standing (g ch x) = standing ch) (ch : Chan) :
    standing (l.foldl g ch) = standing ch := by
  induction l generalizing ch with
  | nil => rfl
  | cons x r ih => rw [List.foldl_cons, ih, hg]

theorem mapUnit_standing (ch : Chan) (space u slot seq : Nat) : standing (mapUnit ch space u slot seq) = standing ch := by
  fun_cases mapUnit ch space u slot seq <;> rfl

theorem numberSectors_standing (ch : Chan) (l : List (Sector × Owner)) : standing (numberSectors ch l).1 = standing ch := by
  induction l generalizing ch with
  | nil => rfl
  | cons x r ih => exact ih _

theorem landSectors_standing (p : Profile) (ch : Chan) (blk wp x : Nat) (l : List (Sector × Owner)) :
    standing (landSectors p ch blk wp x l) = standing ch := by
  induction l generalizing ch x with
  | nil => rfl
  | cons y r ih =>
    rw [landSectors, ih]
    split
    · exact mapUnit_standing ..
    · rfl

theorem keepAnchors_standing (p : Profile) (ch : Chan) (n : Nat) : standing (keepAnchors p ch n) = standing ch := by
  induction n generalizing ch with
  | zero => rfl
  | succ n ih =>
    rw [keepAnchors]
    split
    · rfl
    · split
      · exact ih _
      · rfl

theorem putAnchor_standing (p : Profile) (ch : Chan) : standing (putAnchor p ch) = standing ch := by
  unfold putAnchor
  dsimp only
  split
  · exact keepAnchors_standing ..
  · rw [landSectors_standing]
    refine (numberSectors_standing ..).trans ?_
    split <;> exact keepAnchors_standing ..

theorem loseTarget_standing (p : Profile) (ch : Chan) (t : Nat) : standing (loseTarget p ch t) = standing ch := by
  refine (foldl_standing ((List.range (p.nl * p.nb)).map (t * (p.nl * p.nb) + ·)) _ (fun ch b => ?_) ch :)
  split <;> rfl

/-- A rebuilt channel is usable, and its media are as formatted as they were (R314). -/
theorem rebuildChan_standing (p : Profile) (ch : Chan) : standing (rebuildChan p ch) = (true, true, false, ch.media.formatted) := by
  refine (foldl_standing _ _ (fun ch b => ?_) _).trans (putAnchor_standing ..)
  split <;> rfl

theorem builtChan_standing (p : Profile) (ch : Chan) : standing (builtChan p ch) = (true, true, false, true) := by
  refine (foldl_standing _ _ (loseTarget_standing p) _).trans ((rebuildChan_standing ..).trans ?_)
  split
  · next h => rw [h]
  · rfl

end Sys2Proof.Machine
end

section
/-!
PROOFS. The flash media (O52): erases, folds, collections, checkpoints, patrols, replans, temperature samples and rebuilds.
-/

namespace Sys2Proof.Machine

/-! Erases (R306). -/

theorem collectNext_idle {ch : Chan} {gcHigh : Nat} {p : Profile} (h : ch.collecting = []) : collectNext gcHigh p ch = ch := by
  simp [collectNext, h]

/-- A channel with the erase n of a block ended: the block is free and has one erase more in its mode. -/
def erasedChan (p : Profile) (n blk : Nat) (ch : Chan) : Chan :=
  let ch := { removeOp ch n with erases := wrapAdd 32 ch.erases 1 }
  let b := blkOf ch blk
  let b := if b.pslc then { b with pslcErases := b.pslcErases + 1 } else { b with native := b.native + 1 }
  blockEvent (wipeBlock p (setBlk ch blk { b with st := .free, wp := 0, reads := 0, summary := false }) blk) blk 4

theorem erasedChan_native {p : Profile} {n blk : Nat} {ch : Chan} (h : (blkOf ch blk).pslc = false) :
    erasedChan p n blk ch = blockEvent (wipeBlock p (setBlk { removeOp ch n with erases := wrapAdd 32 ch.erases 1 } blk
      { blkOf ch blk with native := (blkOf ch blk).native + 1, st := .free, wp := 0, reads := 0, summary := false }) blk) blk 4 := by
  have hb : blkOf { removeOp ch n with erases := wrapAdd 32 ch.erases 1 } blk = blkOf ch blk := rfl
  simp [erasedChan, hb, h]

section
variable {s : State} {c n : Nat} {o : FlashOp} (ho : servedOp (chanOf s c) n 2 = some o)
include ho

/-- With no LUN being collected, a block of native mode that is erased is free and has one native erase more, and that is all. -/
theorem exec_eraseDone_native (hc : (chanOf s c).collecting = []) {x : Block} (hx : x = blkOf (chanOf s c) o.blk) (hp : x.pslc = false) :
    exec (.eraseDone c n true) s = .next (kickChan (checkReadOnly (updChan s c fun ch =>
      blockEvent (wipeBlock (profOf s c) (setBlk { removeOp ch n with erases := wrapAdd 32 ch.erases 1 } o.blk
        { x with native := x.native + 1, st := .free, wp := 0, reads := 0, summary := false }) o.blk) o.blk 4) c) c) := by
  have hexec : execEraseDone c n true s = .next (kickChan (checkReadOnly (updChan s c fun ch =>
      collectNext s.ftl.gcHigh (profOf s c) (erasedChan (profOf s c) n o.blk ch)) c) c) := by
    rw [execEraseDone, ho]
    rfl
  subst hx
  refine hexec.trans (congrArg (fun u => Host.Outcome.next (kickChan (checkReadOnly u c) c)) (updChan_congr ?_))
  rw [collectNext_idle (by exact hc), erasedChan_native hp]

theorem exec_eraseDone_fail : exec (.eraseDone c n false) s = .next (kickChan (checkReadOnly (updChan s c fun ch =>
    retire (profOf s c) { removeOp ch n with erases := wrapAdd 32 ch.erases 1, eraseFail := satAdd 16 ch.eraseFail 1 } o.blk 1) c) c) := by
  change execEraseDone c n false s = _
  simp only [execEraseDone, ho]
  rfl

end

/-! Folds, collections and checkpoints (R297, R303, R313). -/

section
variable {s : State} {c lun : Nat} (hu : (chanOf s c).usable = true)
include hu

theorem exec_foldStart_due {b : Nat} (hl : kindleLimit s (profOf s c) < 2 * (lunKindling (profOf s c) (chanOf s c) lun).length)
    (hm : ∀ m ∈ (chanOf s c).moves, ¬(m.fold = true ∧ m.lun = lun)) (hb : foldSource (profOf s c) (chanOf s c) lun = some b)
    (hc : (profOf s c).cell ≠ 0) (hs : mappedSlots (profOf s c) (chanOf s c) b ≠ []) :
    exec (.foldStart c lun) s = .next (checkReadOnly (updChan s c fun ch => startMove (profOf s c) ch true lun b) c) := by
  have hidle : ((chanOf s c).moves.any fun m => m.fold && m.lun == lun) = false := by simpa using hm
  change execFoldStart c lun s = _
  simp only [execFoldStart, hu, hl, hidle, hb, hc]
  exact congrArg (fun u => Host.Outcome.next (checkReadOnly u c)) (updChan_congr (by simp [hs]))

theorem exec_gcStart_low (hl : lun ∈ lunsOf (profOf s c) (chanOf s c)) (hlow : lunFree (profOf s c) (chanOf s c) lun < s.ftl.gcLow)
    (hm : ∀ m ∈ (chanOf s c).moves, ¬(m.fold = false ∧ m.lun = lun)) :
    exec (.gcStart c lun) s = .next (checkReadOnly (updChan s c fun ch =>
      startVictim (profOf s c) { ch with collecting := addNew ch.collecting lun } lun) c) := by
  have hidle : ((chanOf s c).moves.any fun m => !m.fold && m.lun == lun) = false := by simpa using hm
  change execGcStart c lun s = _
  simp [execGcStart, actWhen, hu, hl, hlow, hidle]

/-- The channel of a checkpoint under way: its program is in the block taken, and it remembers the SEQ up to which it holds the map. -/
theorem exec_checkpointStart_due {ch : Chan} {b : Nat} (hi : (chanOf s c).ckptBusy = none)
    (hd : s.ftl.ckpt * 64000000 < journalBytes (chanOf s c)) (hl : (lunsOf (profOf s c) (chanOf s c)).head? = some lun)
    (hb : takeBlock (profOf s c) (chanOf s c) lun .openCkpt false = some (ch, b)) : ∃ v,
    exec (.checkpointStart c) s = .next v ∧ (chanOf v c).ckptBusy = some ((chanOf s c).seq, ch.nextOp) := by
  have hexec : execCheckpointStart c s = .next (updChan s c fun _ =>
      { startProgram (profOf s c) ch b 3 [({ unit := 0, space := 4095, kind := 3, seq := 0, data := [] }, .none)] with
        ckptBusy := some ((chanOf s c).seq, ch.nextOp) }) := by
    simp [execCheckpointStart, hu, hi, hd, hl, hb]
  exact ⟨_, hexec, by rw [chanOf_updChan_same (thas_of_usable hu)]⟩

end

/-! Patrol, read levels and temperature (R302, R446, R318). -/

theorem readBlock_reads (p : Profile) (n : Nat) (b : Block) : (readBlock p n b).reads = b.reads + n := by
  fun_cases readBlock p n b <;> rfl

theorem readBlock_st (p : Profile) (n : Nat) (b : Block) : (readBlock p n b).st = b.st := by
  fun_cases readBlock p n b <;> rfl

/-- Pages of a block that a patrol pass samples. -/
def patrolSamples (p : Profile) (b : Block) : Nat := ceilDiv (blockPages p b.pslc) 64

/-- A block after a patrol pass. -/
def patrolledBlk (p : Profile) (late : List Nat) (rest : PatrolEnd) (k : Nat) (b : Block) : Block :=
  if b.st != .closed then b
  else
    let b := { readBlock p (patrolSamples p b) b with group := (tget? rest.groups k).getD b.group }
    let b := if k ∈ late then { b with relocate := true } else b
    if k ∈ rest.uncorrectable then { b with relocate := true, retireWith := some 3 } else b

/-- A channel after a patrol pass. -/
def patrolledChan (p : Profile) (late : List Nat) (rest : PatrolEnd) (ch : Chan) : Chan :=
  { ch with
    media := { ch.media with blocks := tmap ch.media.blocks (patrolledBlk p late rest) }
    reads := wrapAdd 32 ch.reads (sumBy (fun b => if b.2.st == .closed then patrolSamples p b.2 else 0) ch.media.blocks) }

/-- A patrol pass without an uncorrectable sample writes no event record. -/
theorem exec_patrolRead_decoded {s : State} {c : Nat} (hu : (chanOf s c).usable = true) (late : List Nat) (groups : List (Nat × Nat)) :
    exec (.patrolRead c late ⟨[], groups⟩) s = .next (updChan s c (patrolledChan (profOf s c) late ⟨[], groups⟩)) := by
  have hexec : exec (.patrolRead c late ⟨[], groups⟩) s =
      .next (let v := if (chanOf s c).usable then updChan s c (patrolledChan (profOf s c) late ⟨[], groups⟩) else s
        if (chanOf v c).usable then uncorrEvents v c 0 3 else v) := rfl
  have hnone : ∀ v, uncorrEvents v c 0 3 = v := fun v => rfl
  rw [hexec, hu]
  simp only [hnone, ite_self, if_true]

/-- What such a pass makes of a closed block. -/
theorem patrolledBlk_decoded (p : Profile) (late : List Nat) (groups : List (Nat × Nat)) (k : Nat) {b v : Block} (hb : b.st = .closed)
    (hv : v = patrolledBlk p late ⟨[], groups⟩ k b) :
    (k ∈ late → v.relocate = true) ∧ b.reads ≤ v.reads ∧ v.st = .closed ∧ v.group = (tget? groups k).getD b.group := by
  have hst := (readBlock_st p (patrolSamples p b) b).trans hb
  have hreads : b.reads ≤ (readBlock p (patrolSamples p b) b).reads := by simp [readBlock_reads]
  rw [patrolledBlk, hb, if_neg (by decide)] at hv
  by_cases hk : k ∈ late <;> simp [hv, hk, hst, hreads]

theorem exec_readLevelReplan_usable {s : State} {c : Nat} (hu : (chanOf s c).usable = true) (lun g : Nat)
    (tried : List (List (BitVec 8) × Nat)) : ∃ v, exec (.readLevelReplan c lun g tried) s = .next (postEvent v 2 (.engine c) 1 lun g) ∧
    tget (chanOf v c).levels (levelKey lun g) = nth (tget (chanOf s c).levels (levelKey lun g)) 0 [] :: bestSets tried := by
  refine ⟨updChan s c fun ch => { ch with
    levels := tput ch.levels (levelKey lun g) (nth (tget ch.levels (levelKey lun g)) 0 [] :: bestSets tried) }, ?_, ?_⟩
  · change execReadLevelReplan c lun g tried s = _
    simp [execReadLevelReplan, actWhen, chanUsable, hu]
  · rw [chanOf_updChan_same (thas_of_usable hu), tget_tput_same]

/-- A group's temperatures: current, highest since format, highest since reset. -/
def groupTemps (s : State) (g : Nat) : Nat × Nat × Nat := (tgetD s.ftl.temp g 0, tgetD s.ftl.maxFmt g 0, tgetD s.ftl.maxRst g 0)

/-- One group's sample stored (R318). -/
def sampleGroup (temps : List Nat) (s : State) (g : Nat) : State :=
  if !s.topo.chgrp.getLsbD g then s
  else
    let t := nth temps g 0
    let f := s.ftl
    let h := tget f.hist g
    let b := min 31 (t / 4)
    let slow := decide ((profOf s (8 * g)).tMax ≤ t)
    { s with ftl := { f with
      temp := tput f.temp g t
      maxFmt := tput f.maxFmt g (max t (tgetD f.maxFmt g 0))
      maxRst := tput f.maxRst g (max t (tgetD f.maxRst g 0))
      hist := tput f.hist g (tput h b (tgetD h b 0 + 1))
      slow := if slow then f.slow ||| (1#4 <<< g) else f.slow &&& ~~~ (1#4 <<< g) } }

theorem exec_flashTemperatureSample (temps : List Nat) (s : State) :
    exec (.flashTemperatureSample temps) s = .next ((List.range 4).foldl (sampleGroup temps) s) := rfl

section
variable (temps : List Nat) (s : State)

@[simp] theorem sampleGroup_topo (g : Nat) : (sampleGroup temps s g).topo = s.topo := by
  unfold sampleGroup
  split <;> rfl

@[simp] theorem sampleGroup_chans (g : Nat) : (sampleGroup temps s g).ftl.chans = s.ftl.chans := by
  unfold sampleGroup
  split <;> rfl

theorem groupTemps_sampleGroup_same {g : Nat} (h : s.topo.chgrp.getLsbD g = true) : groupTemps (sampleGroup temps s g) g =
    (nth temps g 0, max (nth temps g 0) (tgetD s.ftl.maxFmt g 0), max (nth temps g 0) (tgetD s.ftl.maxRst g 0)) := by
  simp [sampleGroup, groupTemps, h, tgetD]

theorem groupTemps_sampleGroup_ne {g i : Nat} (h : i ≠ g) : groupTemps (sampleGroup temps s g) i = groupTemps s i := by
  unfold sampleGroup
  split
  · rfl
  · simp [groupTemps, tgetD, tget?_tput_ne _ _ _ _ h]

theorem foldl_sampleGroup_chans (l : List Nat) : (l.foldl (sampleGroup temps) s).ftl.chans = s.ftl.chans :=
  foldl_keeps (·.ftl.chans) _ (sampleGroup_chans temps) l s

theorem groupTemps_foldl_notMem {l : List Nat} {g : Nat} (h : g ∉ l) :
    groupTemps (l.foldl (sampleGroup temps) s) g = groupTemps s g := by
  induction l generalizing s with
  | nil => rfl
  | cons i r ih =>
    obtain ⟨hi, hr⟩ := not_or.1 (mt List.mem_cons.2 h)
    rw [List.foldl_cons, ih _ hr, groupTemps_sampleGroup_ne _ _ hi]

/-- A group's sample is stored once, whatever the groups before and behind it. -/
theorem groupTemps_foldl_mem {l : List Nat} {g : Nat} (hl : l.Nodup) (hg : g ∈ l) (h : s.topo.chgrp.getLsbD g = true) :
    groupTemps (l.foldl (sampleGroup temps) s) g =
      (nth temps g 0, max (nth temps g 0) (tgetD s.ftl.maxFmt g 0), max (nth temps g 0) (tgetD s.ftl.maxRst g 0)) := by
  induction l generalizing s with
  | nil => cases hg
  | cons i r ih =>
    obtain ⟨hir, hr⟩ := List.nodup_cons.1 hl
    rw [List.foldl_cons]
    by_cases hi : g = i
    · subst hi
      rw [groupTemps_foldl_notMem _ _ hir, groupTemps_sampleGroup_same _ _ h]
    · obtain ⟨-, hfmt⟩ := Prod.mk.inj (groupTemps_sampleGroup_ne temps s hi)
      obtain ⟨hfmt, hrst⟩ := Prod.mk.inj hfmt
      rw [ih _ hr ((List.mem_cons.1 hg).resolve_left hi) (by rwa [sampleGroup_topo]), hfmt, hrst]

end

/-! Rebuilds (R314). -/

theorem placeSeg_chans (s : State) (x : Nat × Nat) : (placeSeg s x).ftl.chans = s.ftl.chans := by
  unfold placeSeg
  dsimp only
  split <;> rfl

theorem foldl_placeSeg_chans (l : List (Nat × Nat)) (s : State) : (l.foldl placeSeg s).ftl.chans = s.ftl.chans :=
  foldl_keeps (·.ftl.chans) placeSeg placeSeg_chans l s

theorem chans_ite {b : Prop} [Decidable b] {x y : State} {l : Tab Chan} (hx : x.ftl.chans = l) (hy : y.ftl.chans = l) :
    (if b then x else y).ftl.chans = l := by
  split <;> assumption

/-- The state with a channel built: its map segments placed (R292), and the temperatures of its checkpoint taken over (R318). -/
def builtState (c : Nat) (s : State) : State :=
  let s := updChan s c (builtChan (profOf s c))
  let ch := chanOf s c
  let s := (chanSegs (profOf s c) c ch).foldl placeSeg s
  let hist := (ch.media.ckpt.map (·.hist)).getD []
  let mf := (ch.media.ckpt.map (·.maxFmt)).getD 0
  { s with ftl := { s.ftl with
    hist := if thas s.ftl.hist (c / 8) then s.ftl.hist else tput s.ftl.hist (c / 8) hist
    maxFmt := tput s.ftl.maxFmt (c / 8) (max mf (tgetD s.ftl.maxFmt (c / 8) 0)) } }

theorem builtState_chans (c : Nat) (s : State) : (builtState c s).ftl.chans = (updChan s c (builtChan (profOf s c))).ftl.chans := by
  simp only [builtState, foldl_placeSeg_chans]

/-- What follows: a format forms the namespace (R471), and a sanitize that a reset cut short goes on (R346). -/
def endBuild (sanitizing format : Bool) (s : State) : State :=
  let s := if format && nsBlank s then formNamespace s else s
  if sanitizing && s.port.sanitizing.isNone then
    { s with port := { s.port with sanitizing := some { ctl := 512, sq := 0, cid := 0 } } } else s

theorem endBuild_chans (sanitizing format : Bool) (s : State) : (endBuild sanitizing format s).ftl.chans = s.ftl.chans :=
  have formed : (if format && nsBlank s then formNamespace s else s).ftl.chans = s.ftl.chans := chans_ite rfl rfl
  chans_ite formed formed

section
variable {s : State} {c : Nat}

theorem exec_rebuild_channel (hr : (chanOf s c).rebuilt = false) (ht : (chanOf s c).targets ≠ []) :
    exec (.rebuild c none) s = .next (updChan s c fun ch => { ch with rebuilding := true }) := by
  change execRebuild c none s = _
  simp [execRebuild, actWhen, hr, ht]

theorem exec_rebuildDone_segment (hb : (chanOf s c).rebuilding = true) (hr : (chanOf s c).rebuilt = true) :
    ∀ u, u = updChan s c (fun ch => { ch with rebuilding := false }) →
      exec (.rebuildDone c) s = .next { u with ftl := { u.ftl with reloading := s.ftl.reloading.filter fun x => x.1 != c } } := by
  rintro u rfl
  change execRebuildDone c s = _
  simp [execRebuildDone, hb, hr]

theorem exec_rebuildDone_blank (hb : (chanOf s c).rebuilding = true) (hr : (chanOf s c).rebuilt = false)
    (hm : (chanOf s c).media.formatted = false) (hf : s.ftl.formatBlank = false) :
    exec (.rebuildDone c) s = .next (updChan s c fun ch => { ch with rebuilding := false, usable := false, targets := [] }) := by
  change execRebuildDone c s = _
  simp [execRebuildDone, hb, hr, hm, hf]

/-- A channel that rebuilds, or that FORMAT_BLANK lets be formatted, is built (R314). -/
theorem exec_rebuildDone_built (hb : (chanOf s c).rebuilding = true) (hr : (chanOf s c).rebuilt = false)
    (hm : (chanOf s c).media.formatted = true ∨ s.ftl.formatBlank = true) :
    exec (.rebuildDone c) s = .next (endBuild (chanOf (updChan s c (builtChan (profOf s c))) c).media.sanitizing
      (!(chanOf s c).media.formatted) (builtState c s)) := by
  have hgo : (!(chanOf s c).media.formatted && !s.ftl.formatBlank) = false := by
    rcases hm with h | h <;> simp [h]
  change execRebuildDone c s = _
  rw [execRebuildDone, hb, hr, hgo]
  rfl

end

/-- Settles O52: the winners and the block taken are told by their folds, each row by its equation, and a rebuild by the standing that its
steps leave. -/
theorem flashMediaAreManaged : Obligations.FlashMediaAreManaged := by
  refine ⟨fun l c hc => ?_, ?_, ?_⟩
  · obtain ⟨d, hd, hle⟩ := winners_highest hc
    obtain ⟨hmem, hkey⟩ := winners_sound hd
    exact ⟨d, hd, hmem, hkey, hle⟩
  · intro p ch v lun b st pslc h
    obtain ⟨hfree, hst, hmode⟩ := takeBlock_spec h
    obtain ⟨hwas, hlo, hhi, hmin⟩ := freeBlock_spec hfree
    exact ⟨hwas, hlo, hhi, hst, hmode, hmin⟩
  rintro s c p rfl
  refine ⟨?erases, fun hu => ⟨?folds, ?collects, ?checkpoints, ?patrols, fun lun g tried => exec_readLevelReplan_usable hu lun g tried⟩,
    ?samples, exec_rebuild_channel, fun hb hr => ⟨exec_rebuildDone_blank hb hr, ?builds⟩, ?reloads⟩
  case erases =>
    intro n o ho hc
    refine ⟨?_, ?_⟩
    · rintro x u hx hp rfl
      exact exec_eraseDone_native ho hc hx hp
    · rintro u rfl
      exact exec_eraseDone_fail ho
  case folds => exact fun lun b hl hm hb hc hs => exec_foldStart_due hu hl hm hb hc hs
  case collects => exact fun lun hl hlow hm => exec_gcStart_low hu hl hlow hm
  case checkpoints => exact fun hi hd lun ch b hl hb => exec_checkpointStart_due hu hi hd hl hb
  case patrols =>
    intro late groups
    refine ⟨_, exec_patrolRead_decoded hu late groups, ?_, fun b x hx hst => ?_⟩ <;> rw [chanOf_updChan_same (thas_of_usable hu)]
    · rfl
    · refine ⟨_, ?_, patrolledBlk_decoded (profOf s c) late groups b hst rfl⟩
      rw [patrolledChan, tget?_tmap, hx]
      rfl
  case samples =>
    intro temps g hg h
    obtain ⟨htemp, hmax⟩ := Prod.mk.inj (groupTemps_foldl_mem temps s List.nodup_range (List.mem_range.2 hg) h)
    obtain ⟨hfmt, hrst⟩ := Prod.mk.inj hmax
    exact ⟨_, exec_flashTemperatureSample temps s, htemp, hfmt, hrst, foldl_sampleGroup_chans ..⟩
  case builds =>
    intro hm
    refine ⟨_, exec_rebuildDone_built hb hr hm, ?_⟩
    rw [chanOf, endBuild_chans, builtState_chans, ← chanOf, chanOf_updChan_same (thas_of_rebuilding hb)]
    simpa only [standing, Prod.mk.injEq] using builtChan_standing (profOf s c) (chanOf s c)
  case reloads =>
    intro hb hr
    exact ⟨_, exec_rebuildDone_segment hb hr _ rfl, congrArg Chan.rebuilding (chanOf_updChan_same (thas_of_rebuilding hb) _), rfl⟩

end Sys2Proof.Machine
end

section
/-!
SUPPORT. Bytes of memory outside a range written, whatever is undefined there, and inside a range made undefined.
-/

namespace Sys2Proof.Machine

/-- What a cut leaves of a range still holds an address outside of the cut that the range held, in the piece on its side. -/
theorem find?_cutRange_out {a n x : Nat} (h : x < a ∨ a + n ≤ x) (u : Nat × Nat × Nat) :
    ((cutRange a n u).find? fun r => decide (r.1 ≤ x ∧ x < r.1 + r.2.1)).map (·.2.2) =
      if u.1 ≤ x ∧ x < u.1 + u.2.1 then some u.2.2 else none := by
  fun_cases cutRange a n u
  · by_cases hx : u.1 ≤ x ∧ x < u.1 + u.2.1 <;> simp [hx]
  · by_cases h1 : u.1 < a <;> by_cases h2 : a + n < u.1 + u.2.1 <;> simp [h1, h2, List.find?_cons] <;> grind

/-- A cut leaves an address outside of it in a range of the same tag. -/
theorem undefAt_cut_out (l : List (Nat × Nat × Nat)) {a n x : Nat} (h : x < a ∨ a + n ≤ x) :
    (undefAt (l.flatMap (cutRange a n)) x).map (·.2.2) = (undefAt l x).map (·.2.2) := by
  induction l with
  | nil => rfl
  | cons u r ih =>
    have hu := find?_cutRange_out h u
    unfold undefAt at ih ⊢
    rw [List.flatMap_cons, List.find?_append, Option.map_or, hu, ih]
    by_cases hx : u.1 ≤ x ∧ x < u.1 + u.2.1 <;> simp [hx]

theorem Mem.byte_eq (m : Mem) (x : Nat) :
    m.byte x = (((undefAt m.undef x).map (·.2.2)).map (Config.freeByte · x)).getD (cellAt m.cells x) := by
  rw [Mem.byte]
  cases undefAt m.undef x <;> rfl

theorem Mem.byte_congr {m k : Mem} {x : Nat} (hu : (undefAt m.undef x).map (·.2.2) = (undefAt k.undef x).map (·.2.2))
    (hc : cellAt m.cells x = cellAt k.cells x) : m.byte x = k.byte x := by
  rw [Mem.byte_eq, Mem.byte_eq, hu, hc]

theorem cellAt_paste_out (m : Mem) {a n x : Nat} (c : List Host.Cell) (h : x < a ∨ a + n ≤ x) :
    cellAt (m.paste a n c).cells x = cellAt m.cells x :=
  Mem.paste_byte_out { m with undef := [] } a n c x h rfl

/-- A byte outside the range replaced reads as before. -/
theorem Mem.paste_byte_frame (m : Mem) {a n x : Nat} (c : List Host.Cell) (h : x < a ∨ a + n ≤ x) :
    (m.paste a n c).byte x = m.byte x :=
  Mem.byte_congr (undefAt_cut_out m.undef h) (cellAt_paste_out m c h)

theorem Mem.write_byte_frame (m : Mem) {a x : Nat} (bs : List Byte) (h : x < a ∨ a + bs.length ≤ x) :
    (m.write a bs).byte x = m.byte x :=
  Mem.paste_byte_frame m _ h

theorem Mem.smudge_byte_frame (m : Mem) {a n x : Nat} (tag : Nat) (h : x < a ∨ a + n ≤ x) :
    (m.smudge a n tag).byte x = m.byte x := by
  unfold Mem.smudge
  split
  · rfl
  · refine Mem.byte_congr ?_ (cellAt_paste_out m [] h)
    have hout : ¬(a ≤ x ∧ x < a + n) := by omega
    have hcut := undefAt_cut_out m.undef h
    unfold undefAt at hcut ⊢
    rw [List.find?_append, Option.map_or, hcut]
    simp [hout]

theorem Mem.smudge_byte_in (m : Mem) {a n i : Nat} (tag : Nat) (h : i < n) :
    (m.smudge a n tag).byte (a + i) = Config.freeByte tag (a + i) := by
  have hn : n ≠ 0 := by omega
  have hcut := undefAt_cut_in m.undef a n (a + i) (by omega)
  have hfind : undefAt (m.smudge a n tag).undef (a + i) = some (a, n, tag) := by
    unfold undefAt at hcut ⊢
    rw [Mem.smudge, if_neg hn, List.find?_append, hcut]
    simp [h]
  rw [Mem.byte, hfind]

end Sys2Proof.Machine
end

section
/-!
PROOFS. Completion entries (O28, O29): outside recording and replay an entry is its bytes written to the ring, over which free bytes
come where rings clash, and nothing that follows the write touches host memory or the queue again.
-/

namespace Sys2Proof.Machine

/-! Controllers and their queues. -/

@[simp] theorem ctlOf_updCtl_same (s : State) (c : Nat) (f : Ctl → Ctl) : ctlOf (updCtl s c f) c = f (ctlOf s c) := by
  simp [ctlOf]

theorem cqOf_setCq_same {c : Ctl} {n : Nat} {q : Cq} (h : cqOf c n = some q) (r : Cq) : cqOf (setCq c n r) n = some r := by
  by_cases hn : n = 0
  · have hen : c.en = true := by
      by_contra hen
      simp [cqOf, hn, hen] at h
    simp [cqOf, setCq, hn, hen]
  · simp [cqOf, setCq, hn]

theorem hostWrite_outside_trace {s : State} {stream : Nat} (a : Nat) (bs : List Byte) (hs : stream ≠ 1) (hp : s.trace.replay = false)
    (hr : s.trace.recording = false) : hostWrite s stream a bs = { s with hostMem := s.hostMem.write a bs } := by
  simp [hostWrite, traceRec, hs, hp, hr]

/-! An entry written to a ring (R349). -/

section
variable {s : State} {stream : Nat} (ctl a : Nat) (bs : List Byte) (hs : stream ≠ 1) (hp : s.trace.replay = false)
  (hr : s.trace.recording = false)
include hs hp hr

theorem writeEntry_hostMem : (writeEntry s stream ctl a bs).hostMem =
    if ringClash (ctlOf s ctl) a bs.length then
      (s.hostMem.write (hostKey (penOfCtl ctl) a) bs).smudge (hostKey (penOfCtl ctl) a) bs.length s.nfree
    else s.hostMem.write (hostKey (penOfCtl ctl) a) bs := by
  have hctl : ctlOf { s with hostMem := s.hostMem.write (hostKey (penOfCtl ctl) a) bs } ctl = ctlOf s ctl := rfl
  simp only [writeEntry, hostWrite_outside_trace _ bs hs hp hr, hp, hctl]
  cases ringClash (ctlOf s ctl) a bs.length <;> rfl

theorem writeEntry_byte_out {x : Nat} (hx : x < hostKey (penOfCtl ctl) a ∨ hostKey (penOfCtl ctl) a + bs.length ≤ x) :
    (writeEntry s stream ctl a bs).hostMem.byte x = s.hostMem.byte x := by
  rw [writeEntry_hostMem ctl a bs hs hp hr]
  split
  · rw [Mem.smudge_byte_frame _ _ hx, Mem.write_byte_frame _ bs hx]
  · exact Mem.write_byte_frame _ bs hx

theorem writeEntry_byte_in {i : Nat} (hi : i < bs.length) : (writeEntry s stream ctl a bs).hostMem.byte (hostKey (penOfCtl ctl) a + i) =
    if ringClash (ctlOf s ctl) a bs.length then Config.freeByte s.nfree (hostKey (penOfCtl ctl) a + i) else bs.getD i 0 := by
  rw [writeEntry_hostMem ctl a bs hs hp hr]
  split
  · exact Mem.smudge_byte_in _ _ hi
  · exact Mem.write_byte_in _ _ i bs hi

theorem writeEntry_port : (writeEntry s stream ctl a bs).port = s.port := by
  simp only [writeEntry, hostWrite_outside_trace _ bs hs hp hr]
  split <;> rfl

end

/-! One entry at a queue's tail (R330, R362). -/

@[simp] theorem vecSend_hostMem (s : State) (v : Nat) : (vecSend s v).hostMem = s.hostMem := by
  fun_cases vecSend s v <;> rfl

@[simp] theorem vecSend_port (s : State) (v : Nat) : (vecSend s v).port = s.port := by
  fun_cases vecSend s v <;> rfl

@[simp] theorem vecCount_hostMem (s : State) (v : Nat) : (vecCount s v).hostMem = s.hostMem := by
  fun_cases vecCount s v
  · exact vecSend_hostMem ..
  · rfl

@[simp] theorem vecCount_port (s : State) (v : Nat) : (vecCount s v).port = s.port := by
  fun_cases vecCount s v
  · exact vecSend_port ..
  · rfl

theorem le_length (n v : Nat) : (le n v).length = n := by
  induction n generalizing v with
  | zero => rfl
  | succ n ih => simp [le, ih]

theorem cqeBytes_length (e : Cqe) (seq : Nat) (phase : Bool) : (cqeBytes e seq phase).length = 16 := by
  simp [cqeBytes, le_length]

/-- The last word of an entry holds identifier, phase and status side by side when they keep to their widths. -/
theorem cqeBytes_fields {e : Cqe} (seq : Nat) (phase : Bool) (hcid : e.cid < 2 ^ 16) : cqeBytes e seq phase =
    le 4 e.dw0.toNat ++ le 4 seq ++ le 2 e.sqHead ++ le 2 e.sq ++ le 2 e.cid ++ le 2 (b2n phase + 2 * e.status) := by
  have hlast : le 4 (e.cid + b2n phase * 65536 + e.status * 131072) = le 2 e.cid ++ le 2 (b2n phase + 2 * e.status) := by
    simp only [le, List.cons_append, List.nil_append, List.cons.injEq, and_true]
    refine ⟨?_, ?_, ?_, ?_⟩ <;> apply BitVec.eq_of_toNat_eq <;> simp only [BitVec.toNat_ofNat] <;> omega
  rw [cqeBytes, hlast, ← List.append_assoc]

section
variable {s : State} (ctl n : Nat) (q : Cq) (e : Cqe) (hp : s.trace.replay = false) (hr : s.trace.recording = false)
include hp hr

theorem cqWrite_hostMem : (cqWrite s ctl n q e).hostMem =
    (writeEntry s 0 ctl (q.base + 16 * q.tail) (cqeBytes e q.seq q.phase)).hostMem := by
  have hentry : (writeEntry { s with trace := { s.trace with decisions := s.trace.decisions + 1 } } 0 ctl (q.base + 16 * q.tail)
      (cqeBytes e q.seq q.phase)).hostMem = (writeEntry s 0 ctl (q.base + 16 * q.tail) (cqeBytes e q.seq q.phase)).hostMem := by
    rw [writeEntry_hostMem (s := s) ctl _ _ (by decide) hp hr]
    exact writeEntry_hostMem ctl _ _ (by decide) hp hr
  rw [← hentry, ← traceDecide_outside_trace 0x16 (le 2 ctl ++ le 2 n ++ le 4 q.seq) hp hr]
  unfold cqWrite
  extract_lets
  split
  · exact vecCount_hostMem ..
  · rfl

theorem ctlOf_cqWrite : ctlOf (cqWrite s ctl n q e) ctl = setCq (ctlOf s ctl) n (cqAdvance q) := by
  have hentry : (writeEntry { s with trace := { s.trace with decisions := s.trace.decisions + 1 } } 0 ctl (q.base + 16 * q.tail)
      (cqeBytes e q.seq q.phase)).port = s.port := writeEntry_port ctl _ _ (by decide) hp hr
  rw [← traceDecide_outside_trace 0x16 (le 2 ctl ++ le 2 n ++ le 4 q.seq) hp hr] at hentry
  have hcount (u : State) (v : Nat) : ctlOf (vecCount u v) ctl = ctlOf u ctl := by rw [ctlOf, vecCount_port, ctlOf]
  unfold cqWrite
  extract_lets d w u
  have hu : ctlOf u ctl = setCq (ctlOf s ctl) n (cqAdvance q) := by
    rw [ctlOf_updCtl_same, ctlOf, hentry, ctlOf]
  split
  · exact (hcount ..).trans hu
  · exact hu

end

/-! An entry posted. -/

theorem postCqe_room {s : State} {ctl n : Nat} {q : Cq} (e : Cqe) (hq : cqOf (ctlOf s ctl) n = some q) (hw : q.waiting = [])
    (hroom : (q.tail + 1) % q.size ≠ q.head) : postCqe s ctl n e = cqWrite s ctl n q e := by
  simp [postCqe, hq, hw, ringFull, hroom]

theorem postCqe_full {s : State} {ctl n : Nat} {q : Cq} (e : Cqe) (hq : cqOf (ctlOf s ctl) n = some q)
    (hfull : q.waiting ≠ [] ∨ (q.tail + 1) % q.size = q.head) :
    postCqe s ctl n e = updCtl s ctl fun x => setCq x n { q with waiting := q.waiting ++ [e] } := by
  have hroom : (q.waiting.isEmpty && !ringFull q.size q.head q.tail) = false := by
    rcases hfull with h | h <;> simp [ringFull, h]
  simp only [postCqe, hq, hroom, Bool.false_eq_true, if_false]

theorem postCqe_gone {s : State} {ctl n : Nat} (e : Cqe) (hq : cqOf (ctlOf s ctl) n = none) : postCqe s ctl n e = s := by
  simp only [postCqe, hq]

section
variable {s : State} {ctl n : Nat} {q : Cq} (e : Cqe) (hp : s.trace.replay = false) (hr : s.trace.recording = false)
  (hq : cqOf (ctlOf s ctl) n = some q) (hw : q.waiting = []) (hroom : (q.tail + 1) % q.size ≠ q.head)
include hp hr hq hw hroom

theorem postCqe_byte_out {a : Nat}
    (ha : ¬(hostKey (penOfCtl ctl) (q.base + 16 * q.tail) ≤ a ∧ a < hostKey (penOfCtl ctl) (q.base + 16 * q.tail) + 16)) :
    (postCqe s ctl n e).hostMem.byte a = s.hostMem.byte a := by
  rw [postCqe_room e hq hw hroom, cqWrite_hostMem ctl n q e hp hr]
  refine writeEntry_byte_out ctl _ _ (by decide) hp hr ?_
  rw [cqeBytes_length]
  omega

theorem postCqe_byte_in {i : Nat} (hi : i < 16) :
    (postCqe s ctl n e).hostMem.byte (hostKey (penOfCtl ctl) (q.base + 16 * q.tail) + i) =
      if ringClash (ctlOf s ctl) (q.base + 16 * q.tail) 16 then
        Config.freeByte s.nfree (hostKey (penOfCtl ctl) (q.base + 16 * q.tail) + i)
      else (cqeBytes e q.seq q.phase).getD i 0 := by
  have hlen := cqeBytes_length e q.seq q.phase
  rw [postCqe_room e hq hw hroom, cqWrite_hostMem ctl n q e hp hr, writeEntry_byte_in ctl _ _ (by decide) hp hr (by rwa [hlen]), hlen]

theorem cqOf_postCqe : cqOf (ctlOf (postCqe s ctl n e) ctl) n = some (cqAdvance q) := by
  rw [postCqe_room e hq hw hroom, ctlOf_cqWrite ctl n q e hp hr]
  exact cqOf_setCq_same hq _

end

/-- Settles O28: what a write to a ring leaves outside its bytes and puts inside, for the 16 bytes at the tail of a queue with room. -/
theorem completionEntriesAreWritten : Obligations.CompletionEntriesAreWritten := by
  rintro s ctl n at_ q e rfl hp hr hq hw hroom _ hcid _ _ _
  refine ⟨fun a => postCqe_byte_out e hp hr hq hw hroom, fun i hi => ?entry,
    ⟨cqAdvance q, cqOf_postCqe e hp hr hq hw hroom, rfl, rfl, rfl, rfl⟩, ?frame⟩
  case entry => rw [postCqe_byte_in e hp hr hq hw hroom hi, cqeBytes_fields _ _ hcid]
  case frame =>
    rw [postCqe_reported s ctl n e]
    exact ⟨rfl, rfl, rfl⟩

/-- Settles O29: the two entries that are not written. -/
theorem fullAndGoneQueuesTakeNoEntry : Obligations.FullAndGoneQueuesTakeNoEntry :=
  fun _ _ _ e => ⟨postCqe_gone e, fun _ hq hfull => postCqe_full e hq hfull⟩

end Sys2Proof.Machine
end

section
/-!
SUPPORT. A command that can be fetched, in each form of command: it is performed on the node as its fetch leaves it.
-/

namespace Sys2Proof.Machine

section
variable {s : State} {c : Cmd} {n : Nat} (hn : canFetch s c = some n)
include hn

theorem withCmd_fetched (f : State → Nat → State) : withCmd s c f = .next (f (doFetch s c n) n) := by
  simp only [withCmd, hn]

theorem withAdmin_fetched (hsq : c.sq = 0) (f : State → State) : withAdmin s c f = .next (f (doFetch s c n)) := by
  rw [withAdmin, withCmd_fetched hn]
  simp [isIoCmd, hsq]

theorem withIo_fetched (hsq : c.sq ≠ 0) (hsan : (doFetch s c n).port.sanitizing = none) (f : State → Nat → State) :
    withIo s c f = .next (f (doFetch s c n) n) := by
  rw [withIo, withCmd_fetched hn]
  simp [isIoCmd, hsq, hsan]

section
variable (hs : onSkex s c = true)
include hs

theorem withSkex_fetched (hbad : c.bad = false) (f : State → Nat → State) : withSkex s c f = .next (f (doFetch s c n) n) := by
  rw [withSkex, withCmd_fetched hn]
  simp [onSkex_doFetch, hs, hbad]

theorem withSkex_bad (hbad : c.bad = true) (f : State → Nat → State) : withSkex s c f = .next (completeFree (doFetch s c n) c) := by
  rw [withSkex, withCmd_fetched hn]
  simp [onSkex_doFetch, hs, hbad]

end

end

end Sys2Proof.Machine
end

section
/-!
PROOFS. Host links (O14): training by whether the port may train, and one equation for the link-downs of a port.
-/

namespace Sys2Proof.Machine

theorem exec_hostLinkUp_noFlits (s : State) (portB : Bool) (width rate : Nat) :
    exec (.hostLinkUp portB width rate false) s = .next s := by
  change execHostLinkUp portB width rate false s = _
  simp [execHostLinkUp, actWhen]

section
variable {s : State} (hport : hostPortOn s = true)
include hport

theorem exec_hostLinkUp_trains {portB : Bool} {width rate : Nat} (hswept : ¬hostAgent ∈ s.coh.toSweep)
    (hsplit : portB = true → s.topo.hostSplit = true) (hlink : linkOk s.topo.hostSplit width rate = true) :
    exec (.hostLinkUp portB width rate true) s = .next (linkUp s portB width rate) := by
  change execHostLinkUp portB width rate true s = _
  cases portB with
  | false => simp [execHostLinkUp, actWhen, hport, hswept, hlink]
  | true =>
    have hs := hsplit rfl
    rw [hs] at hlink
    simp [execHostLinkUp, actWhen, hport, hswept, hlink, hs]

theorem exec_linkDown_or_perst {portB : Bool} {i : Instr} (hi : i = .linkDown portB ∨ i = .perst portB) :
    exec i s = .next (linkDown s portB) := by
  obtain rfl | rfl := hi
  · change actWhen (hostPortOn s) s _ = _
    simp [actWhen, hport]
  · change actWhen (hostPortOn s) s _ = _
    simp [actWhen, hport]

theorem exec_cxlReset : exec .cxlReset s = .next (declareDead { s with port := { s.port with hdm := [] } } hostAgent) := by
  change actWhen (hostPortOn s) s _ = _
  simp [actWhen, hport]

end

/-- A split node's topology does not change when port B trains. -/
theorem linkUp_portB {s : State} (width rate : Nat) (hsplit : s.topo.hostSplit = true) :
    linkUp s true width rate = { s with port := { s.port with upB := true, widthB := width, rateB := rate } } := by
  have htopo : { s.topo with hostSplit := true } = s.topo := by rw [← hsplit]
  simp only [linkUp, htopo, if_true]

/-- Settles O14: the equations of training, link-down and CXL reset. -/
theorem hostLinksComeUpAndGoDown : Obligations.HostLinksComeUpAndGoDown := by
  intro s width rate hport
  refine ⟨?portA, ?portB, fun portB => exec_hostLinkUp_noFlits s portB width rate, fun i => exec_linkDown_or_perst hport,
    fun i => exec_linkDown_or_perst hport, exec_cxlReset hport⟩
  case portA =>
    intro hswept hlink
    exact exec_hostLinkUp_trains hport hswept nofun hlink
  case portB =>
    intro hswept hsplit hlink
    rw [← linkUp_portB width rate hsplit]
    exact exec_hostLinkUp_trains hport hswept (fun _ => hsplit) (by rwa [hsplit])

end Sys2Proof.Machine
end

section
/-!
PROOFS. Queues created and deleted (O26).
-/

namespace Sys2Proof.Machine

/-- A queue number within the pen's QUEUES that names no queue yet. -/
theorem queueNumber_free {qid queues : Nat} {taken : Bool} (hq : 1 ≤ qid) (hqid : qid ≤ queues) (hfree : taken = false) :
    ¬(qid = 0 ∨ queues < qid ∨ taken = true) := by
  rintro (h | h | h)
  · omega
  · omega
  · rw [hfree] at h
    cases h

section
variable {s : State} {c : Cmd} {n : Nat} {qid base entries : Nat} (hn : canFetch s c = some n) (hsq : c.sq = 0)
include hn hsq

section
variable {cqid : Nat} (hst : sqCreateStatus (doFetch s c n) c qid entries cqid true = stSuccess)
include hst

theorem exec_createIoSq_makes : exec (.createIoSq c qid base entries cqid true) s =
    .next (complete (putSq (doFetch s c n) c qid { base := base, size := entries, cqid := cqid }) c stSuccess) := by
  change execCreateIoSq c qid base entries cqid true s = _
  rw [execCreateIoSq, withAdmin_fetched hn hsq, hst]
  rfl

theorem exec_createSkexQueue_makes {rqBase rqEntries : Nat} (hlo : 2 ≤ rqEntries) (hhi : rqEntries ≤ 65536) :
    exec (.createSkexQueue c qid base entries cqid rqBase rqEntries true) s = .next (complete (putSq (doFetch s c n) c qid
      { base := base, size := entries, cqid := cqid, skex := true, rq := { base := rqBase, size := rqEntries } }) c stSuccess) := by
  have hsize : ¬(rqEntries < 2 ∨ 65536 < rqEntries) := by omega
  change execCreateSkexQueue c qid base entries cqid rqBase rqEntries true s = _
  simp only [execCreateSkexQueue, withAdmin_fetched hn hsq, hst, if_neg hsize]
  rfl

end

theorem exec_createIoCq_makes {iv : Nat} {ien : Bool} (hq : 1 ≤ qid) (hqid : qid ≤ (penOf s (penOfCtl c.ctl)).queues)
    (hfree : thas (ctlOf (doFetch s c n) c.ctl).cqs qid = false) (hlo : 2 ≤ entries) (hhi : entries ≤ 65536)
    (hiv : iv < (penOf s (penOfCtl c.ctl)).vectors) : exec (.createIoCq c qid base entries iv ien true) s =
      .next (complete (updCtl (doFetch s c n) c.ctl fun x => { x with
        cqs := tput x.cqs qid { base := base, size := entries, iv := iv, ien := ien } }) c stSuccess) := by
  have hpen : penOf (doFetch s c n) (penOfCtl c.ctl) = penOf s (penOfCtl c.ctl) := by rw [penOf, doFetch_pens, penOf]
  have hnum := queueNumber_free hq hqid hfree
  have hsize : ¬(entries < 2 ∨ 65536 < entries) := by omega
  have hvec : ¬(penOf s (penOfCtl c.ctl)).vectors ≤ iv := by omega
  change execCreateIoCq c qid base entries iv ien true s = _
  simp only [execCreateIoCq, withAdmin_fetched hn hsq, hpen, if_neg hnum, if_neg hsize, if_neg hvec]
  rfl

theorem exec_deleteIoSq_deletes (hq : qid ≠ 0) (hhas : thas (ctlOf (doFetch s c n) c.ctl).sqs qid = true) :
    exec (.deleteIoSq c qid) s = .next (sendOwed (complete (deleteSq (doFetch s c n) c.ctl qid) c stSuccess)) := by
  change execDeleteIoSq c qid s = _
  simp [execDeleteIoSq, withAdmin_fetched hn hsq, hq, hhas]

theorem exec_deleteIoCq_deletes (hq : qid ≠ 0) (hhas : thas (ctlOf (doFetch s c n) c.ctl).cqs qid = true)
    (hunused : ∀ q ∈ (ctlOf (doFetch s c n) c.ctl).sqs, q.2.cqid ≠ qid) : exec (.deleteIoCq c qid) s =
      .next (complete (updCtl (doFetch s c n) c.ctl fun x => { x with cqs := tdel x.cqs qid }) c stSuccess) := by
  have hany : ((ctlOf (doFetch s c n) c.ctl).sqs.any fun q => q.2.cqid == qid) = false := by simpa using hunused
  change execDeleteIoCq c qid s = _
  simp [execDeleteIoCq, withAdmin_fetched hn hsq, hq, hhas, hany]

end

theorem sqCreateStatus_success {u : State} {c : Cmd} {qid entries cqid : Nat} (hq : 1 ≤ qid)
    (hqid : qid ≤ (penOf u (penOfCtl c.ctl)).queues) (hfree : thas (ctlOf u c.ctl).sqs qid = false) (hlo : 2 ≤ entries)
    (hhi : entries ≤ 65536) (hcq : cqid ≠ 0) (hhas : thas (ctlOf u c.ctl).cqs cqid = true) :
    sqCreateStatus u c qid entries cqid true = stSuccess := by
  have hnum := queueNumber_free hq hqid hfree
  have hsize : ¬(entries < 2 ∨ 65536 < entries) := by omega
  simp only [sqCreateStatus, if_neg hnum, if_neg hsize]
  simp [hcq, hhas]

/-- Settles O26: the equation of each command, and a submission queue's status by what the pen and the controller hold. -/
theorem queuesAreCreatedAndDeleted : Obligations.QueuesAreCreatedAndDeleted := by
  rintro s c n qid base entries _ hn hsq rfl
  refine ⟨fun cqid hst => ⟨exec_createIoSq_makes hn hsq hst, fun rqBase rqEntries => exec_createSkexQueue_makes hn hsq hst⟩,
    fun cqid hq hqid => sqCreateStatus_success hq ?_, fun iv ien => exec_createIoCq_makes hn hsq, exec_deleteIoSq_deletes hn hsq,
    exec_deleteIoCq_deletes hn hsq⟩
  rwa [penOf, doFetch_pens]

end Sys2Proof.Machine
end

section
/-!
PROOFS. The other admin commands (O27): each command's equation on the node as its fetch leaves it; the beginning and the end of a sanitize by
what each leaves of a channel.
-/

namespace Sys2Proof.Machine

section
variable {s : State} {c : Cmd} {n : Nat} (hn : canFetch s c = some n)
include hn

/-- A command that can be fetched stands next in its queue. -/
theorem sqOf_of_canFetch : ∃ q, sqOf (ctlOf s c.ctl) c.sq = some q ∧ q.fetched = n := by
  revert hn
  fun_cases canFetch s c <;> grind

theorem exec_invalidCommandOpcode_completes {opcode : Nat} (h : opcodeKnown s c opcode = false) :
    exec (.invalidCommandOpcode c opcode) s = .next (complete (doFetch s c n) c stInvalidOpcode) := by
  change execInvalidCommandOpcode c opcode s = _
  simp [execInvalidCommandOpcode, h, withCmd_fetched hn]

section
variable (hsq : c.sq = 0)
include hsq

theorem exec_identify_writes (prp : List Nat) :
    exec (.identify c 0 prp) s =
      .next (complete (prpWrite (doFetch s c n) (fnPages c prp) (identifyNamespace (doFetch s c n) (penOfCtl c.ctl))) c stSuccess) ∧
    exec (.identify c 1 prp) s =
      .next (complete (prpWrite (doFetch s c n) (fnPages c prp) (identifyController (doFetch s c n) c.ctl)) c stSuccess) ∧
    exec (.identify c 2 prp) s = .next (complete (prpWrite (doFetch s c n) (fnPages c prp) identifyList) c stSuccess) := by
  have h (cns : Nat) : execIdentify c cns prp s = _ := withAdmin_fetched hn hsq _
  exact ⟨h 0, h 1, h 2⟩

/-- Page 0xC0 of a fenced node, which is fetched past the other commands (R442), is written as on a node that serves. -/
theorem exec_getLogPage_writes {lid off len : Nat} {prp : List Nat} {page : List Byte}
    (hpage : logPage (doFetch s c n) (penOfCtl c.ctl) lid = some page) : exec (.getLogPage c lid off len prp) s =
      .next (complete (prpWrite (doFetch s c n) (fnPages c prp) (sub page off len)) c stSuccess) := by
  obtain ⟨q, hq, hnum⟩ := sqOf_of_canFetch hn
  change execGetLogPage c lid off len prp s = _
  simp only [execGetLogPage, hq, hnum, withAdmin_fetched hn hsq, hpage, ite_self]

theorem exec_abort_notAborted : exec (.abort c) s = .next (complete (doFetch s c n) c stSuccess 1) :=
  (withAdmin_fetched hn hsq _ : execAbort c s = _)

theorem exec_setFeatures_keeps (v : W32) :
    exec (.setFeatures c 0x01 v) s =
      .next (complete (updCtl (doFetch s c n) c.ctl fun x => { x with arbitration := v }) c stSuccess) ∧
    exec (.setFeatures c 0x0B v) s = .next (complete (updCtl (doFetch s c n) c.ctl fun x => { x with aec := v }) c stSuccess) ∧
    (penOfCtl c.ctl = 0 → exec (.setFeatures c 0x06 v) s = .next (complete
      { doFetch s c n with port := { (doFetch s c n).port with wce := v.getLsbD 0 } } c stSuccess)) := by
  have h (fid : Nat) : execSetFeatures c fid v s = _ := withAdmin_fetched hn hsq _
  exact ⟨h 0x01, h 0x0B, fun hpen => (h 0x06).trans (by simp [hpen])⟩

theorem exec_getFeatures_answers :
    exec (.getFeatures c 0x01) s = .next (complete (doFetch s c n) c stSuccess (ctlOf (doFetch s c n) c.ctl).arbitration.toNat) ∧
    exec (.getFeatures c 0x06) s = .next (complete (doFetch s c n) c stSuccess (b2n (doFetch s c n).port.wce)) ∧
    exec (.getFeatures c 0x0B) s = .next (complete (doFetch s c n) c stSuccess (ctlOf (doFetch s c n) c.ctl).aec.toNat) := by
  have h (fid : Nat) : execGetFeatures c fid s = _ := withAdmin_fetched hn hsq _
  exact ⟨h 0x01, h 0x06, h 0x0B⟩

theorem exec_asynchronousEventRequest_kept {v : State} (hroom : (ctlOf (doFetch s c n) c.ctl).aers.length < 4)
    (hv : v = updCtl (doFetch s c n) c.ctl fun x => { x with aers := x.aers ++ [c] }) : exec (.asynchronousEventRequest c) s =
      .next { v with port := { v.port with live := v.port.live.filter fun l => l.cmd != c } } := by
  change execAsynchronousEventRequest c s = _
  rw [execAsynchronousEventRequest, withAdmin_fetched hn hsq, if_neg (Nat.not_le.2 hroom), hv]

end

end

/-! Sanitize (R346). -/

/-- A channel once a sanitize has begun. -/
def sanitizing (ch : Chan) : Chan := if ch.usable then { ch with media := { ch.media with sanitizing := true } } else ch

/-- The node once a sanitize has begun for a command. -/
def sanitizeBegun (s : State) (c : Cmd) : State :=
  { s with
    port := { s.port with sanitizing := some c }
    ftl := { s.ftl with chans := tmap s.ftl.chans fun _ ch => sanitizing ch } }

theorem exec_sanitize_begins {s : State} {c : Cmd} {n : Nat} (hn : canFetch s c = some n) (hsq : c.sq = 0) (hpen : penOfCtl c.ctl = 0)
    (hidle : (doFetch s c n).port.sanitizing = none) (hheld : flashHeld (doFetch s c n) = false) :
    exec (.sanitize c 2) s = .next (complete (sanitizeBegun (doFetch s c n) c) c stSuccess) := by
  change execSanitize c 2 s = _
  simp only [execSanitize, withAdmin_fetched hn hsq, hpen, hidle, hheld]
  rfl

/-- A change of every channel that leaves an absent one as it is. -/
theorem chanOf_of_tmap {s t : State} {f : Nat → Chan → Chan} (h : t.ftl.chans = tmap s.ftl.chans f) (ch : Nat)
    (hf : f ch default = default) : chanOf t ch = f ch (chanOf s ch) := by
  simp only [chanOf, tget, h, tget?_tmap]
  cases tget? s.ftl.chans ch with
  | none => exact hf.symm
  | some x => rfl

theorem chanOf_sanitizeBegun (s : State) (c : Cmd) (ch : Nat) : chanOf (sanitizeBegun s c) ch = sanitizing (chanOf s ch) :=
  chanOf_of_tmap (f := fun _ => sanitizing) rfl ch rfl

theorem sanitizing_media (ch : Chan) : (sanitizing ch).media.sanitizing = (ch.media.sanitizing || ch.usable) := by
  unfold sanitizing
  cases h : ch.usable <;> simp

/-- A channel of the node after a sanitize. -/
def sanitizedChan (s : State) (c : Nat) (ch : Chan) : Chan := sanitizeChan (tget s.ftl.hist (c / 8)) (tgetD s.ftl.maxFmt (c / 8) 0) ch

/-- The node at the end of a sanitize, before the namespace is formed anew. -/
def sanitizeErased (s : State) : State :=
  { s with
    ftl := { s.ftl with chans := tmap s.ftl.chans (sanitizedChan s), stores := [] }
    port := { s.port with sanitizing := none, sanitized := s.port.sanitized + 1, wb := [] } }

theorem exec_sanitizeEnd_forms {s : State} {c : Cmd} (h : s.port.sanitizing = some c) :
    exec .sanitizeEnd s = .next (formNamespace (sanitizeErased s)) := by
  change actWhen s.port.sanitizing.isSome s _ = _
  rw [actWhen, h]
  rfl

theorem chanOf_sanitizeErased (s : State) (ch : Nat) :
    chanOf (formNamespace (sanitizeErased s)) ch = sanitizedChan s ch (chanOf s ch) :=
  chanOf_of_tmap (f := sanitizedChan s) rfl ch rfl

theorem sanitizeChan_erases {hist : Tab Nat} {maxFmt : Nat} {ch : Chan} (h : ch.media.sanitizing = true) :
    (sanitizeChan hist maxFmt ch).map = [] ∧ (sanitizeChan hist maxFmt ch).media.sectors = [] ∧
      (sanitizeChan hist maxFmt ch).media.journal = [] ∧ (sanitizeChan hist maxFmt ch).media.sanitizing = false := by
  simp [sanitizeChan, h]

/-- Settles O27: each command's equation, and what a sanitize makes of each channel. -/
theorem adminCommandsComplete : Obligations.AdminCommandsComplete := by
  rintro s c n _ hn rfl
  refine ⟨fun hsq => ?admin, fun opcode => exec_invalidCommandOpcode_completes hn, ?ends⟩
  case admin =>
    obtain ⟨harb, hcache, hevents⟩ := exec_getFeatures_answers hn hsq
    refine ⟨exec_identify_writes hn hsq, fun lid off len prp page => exec_getLogPage_writes hn hsq, exec_abort_notAborted hn hsq,
      exec_setFeatures_keeps hn hsq, harb, hcache, hevents, fun hroom => ?kept, fun hpen hidle hheld => ?begins⟩
    case kept =>
      obtain ⟨v, hv⟩ : ∃ v, v = updCtl (doFetch s c n) c.ctl fun x => { x with aers := x.aers ++ [c] } := ⟨_, rfl⟩
      refine ⟨_, exec_asynchronousEventRequest_kept hn hsq hroom hv, ?_⟩
      change (ctlOf v c.ctl).aers = _ ∧ v.out = _ ∧ v.hostMem = _
      rw [hv, ctlOf_updCtl_same]
      exact ⟨rfl, rfl, rfl⟩
    case begins =>
      refine ⟨_, exec_sanitize_begins hn hsq hpen hidle hheld, rfl, fun ch => ?_⟩
      rw [chanOf_sanitizeBegun, sanitizing_media]
  case ends =>
    refine fun c' h => ⟨_, exec_sanitizeEnd_forms h, rfl, rfl, rfl, fun ch hch => ?_⟩
    rw [chanOf_sanitizeErased]
    exact sanitizeChan_erases hch

end Sys2Proof.Machine
end

section
/-!
PROOFS. NVMe I/O commands and the write buffer (O30): each command's equation on the node as its fetch leaves it.
-/

namespace Sys2Proof.Machine

section
variable {s : State} {c : Cmd} {n : Nat} (hn : canFetch s c = some n) (hsq : c.sq ≠ 0)
include hn hsq

theorem exec_flush_waits : exec (.flush c) s = .next (wake { doFetch s c n with port := { (doFetch s c n).port with
    flushes := (doFetch s c n).port.flushes ++
      [{ cmd := c, upto := (doFetch s c n).port.wbSeq, trims := staleTrims (doFetch s c n) }] } }) := by
  change execFlush c s = _
  rw [execFlush, withCmd_fetched hn]
  simp [isIoCmd, hsq]

section
variable (hsan : (doFetch s c n).port.sanitizing = none) {slba blocks : Nat}
include hsan

theorem exec_datasetManagement_keeps {us : List Nat} (hwait : rangeWaits s (penOfCtl c.ctl) slba blocks = false)
    (hus : windowUnits (doFetch s c n) (penOfCtl c.ctl) slba blocks = some us) :
    exec (.datasetManagement c [(slba, blocks)] false) s = .next (complete (doFetch s c n) c stSuccess) := by
  change execDatasetManagement c [(slba, blocks)] false s = _
  simp [execDatasetManagement, hwait, withIo_fetched hn hsq hsan, hus]

theorem exec_datasetManagement_trims {us : List Nat} {v : State} (hwait : rangeWaits s (penOfCtl c.ctl) slba blocks = false)
    (hus : windowUnits (doFetch s c n) (penOfCtl c.ctl) slba blocks = some us)
    (hok : ∀ x ∈ us, unitWriteStatus (doFetch s c n) x = 0) (hv : v = us.foldl trimUnit (doFetch s c n)) :
    exec (.datasetManagement c [(slba, blocks)] true) s = .next (complete { v with ftl := { v.ftl with
      chans := tmap v.ftl.chans fun c ch => journalFull v (profOf v c) ch } } c stSuccess) := by
  change execDatasetManagement c [(slba, blocks)] true s = _
  simp [execDatasetManagement, hwait, withIo_fetched hn hsq hsan, hus, firstBad_eq_zero hok, hv]

section
variable (hio : ioPositive s (penOfCtl c.ctl) = true) (hwait : rangeWaits s (penOfCtl c.ctl) slba blocks = false)
include hio hwait

theorem exec_write_outside (fua : Bool) (prp : List Nat)
    (hus : windowUnits (doFetch s c n) (penOfCtl c.ctl) slba blocks = none) :
    exec (.write c slba blocks fua prp) s = .next (complete (doFetch s c n) c stLbaOutOfRange) := by
  change execWrite c slba blocks fua prp s = _
  simp [execWrite, hio, hwait, withIo_fetched hn hsq hsan, hus]

theorem exec_write_writes {fua : Bool} {prp us : List Nat} {r v w : State}
    (hus : windowUnits (doFetch s c n) (penOfCtl c.ctl) slba blocks = some us)
    (hok : ∀ x ∈ us, unitWriteStatus (doFetch s c n) x = 0) (hr : r = prpRec (penOfCtl c.ctl) prp (4096 * blocks) (doFetch s c n))
    (hv : v = chargeIo r (penOfCtl c.ctl) (if !fua && wbInUse r then 4096 * blocks else 0) (ceilDiv blocks 4))
    (hw : w = writeUnits v (.cmd c n) fua (dataUnits us (prpRead v (fnPages c prp) (4096 * blocks)))) :
    exec (.write c slba blocks fua prp) s = .next (settleOrdered w (orderedCount w)) := by
  change execWrite c slba blocks fua prp s = _
  simp only [execWrite, hio, hwait, withIo_fetched hn hsq hsan, hus, firstBad_eq_zero hok, hw, hv, hr]
  rfl

theorem exec_read_begins {prp us : List Nat} {v : State}
    (hus : windowUnits (doFetch s c n) (penOfCtl c.ctl) slba blocks = some us)
    (hv : v = chargeIo (doFetch s c n) (penOfCtl c.ctl) 0 (ceilDiv blocks 4)) :
    exec (.read c slba blocks prp) s = .next (if prpOk prp (4096 * blocks)
      then readUnits v (.cmd c n) putHost (us.zip (unitPlaces (fnPages c prp)))
      else completeFree (wildPages v (fnPages c prp)) c) := by
  change execRead c slba blocks prp s = _
  simp [execRead, hio, hwait, withIo_fetched hn hsq hsan, hus, hv]

end

end

end

theorem exec_writeBufferDrain_drains {s : State} {c : Nat} {x : WbUnit} (hx : oldestBuffered s c = some x)
    (hup : (chanOf s c).usable = true) (hrw : (chanOf s c).media.readOnly = false) (hnow : unitWaits s x.lba = false) {sec : Sector}
    (hsec : sec = { unit := ((lbaUnit s x.lba).map (·.2)).getD 0, space := 0, kind := 0, seq := 0, data := x.data }) :
    exec (.writeBufferDrain c) s = .next (kickChan (updChan { s with port := { s.port with
      wb := s.port.wb.map fun y => if y.acc = x.acc then { y with draining := true } else y } } c
        fun ch => { ch with page := ch.page ++ [(sec, x.owner)] }) c) := by
  change execWriteBufferDrain c s = _
  simp only [execWriteBufferDrain, hx, hup, hrw, hnow, hsec]
  rfl

/-- Settles O30: each command's equation, by whether its range lies in the pen's window, and the two rows of the write buffer. -/
theorem ioCommandsComplete : Obligations.IoCommandsComplete := by
  refine ⟨?commands, ?buffer⟩
  case commands =>
    rintro s c n slba blocks prp _ hn rfl hsq
    refine ⟨exec_flush_waits hn hsq, fun hsan hio hwait => ⟨?writes, fun fua => exec_write_outside hn hsq hsan hio hwait fua prp,
      fun us v => exec_read_begins hn hsq hsan hio hwait, fun us hus => ⟨exec_datasetManagement_keeps hn hsq hsan hwait hus,
        fun hok v => exec_datasetManagement_trims hn hsq hsan hwait hus hok⟩⟩⟩
    case writes =>
      intro fua us v w hus hok hv hw
      exact exec_write_writes hn hsq hsan hio hwait hus hok rfl hv hw
  case buffer =>
    refine fun s => ⟨?_, fun c x hx hup hrw hnow sec => exec_writeBufferDrain_drains hx hup hrw hnow⟩
    rintro _ rfl
    rfl

end Sys2Proof.Machine
end

section
/-!
PROOFS. Skex commands (O31): each command's equation on the node as its fetch leaves it.
-/

namespace Sys2Proof.Machine

theorem tupd_congr_of_tget? {α : Type} {t : Tab α} {k : Nat} {v : α} {f g : α → α} (ht : tget? t k = some v) (h : f v = g v) :
    tupd t k f = tupd t k g := by
  induction t with
  | nil => rfl
  | cons x r ih =>
    obtain ⟨j, w⟩ := x
    by_cases hj : j = k
    · have hw : w = v := by simpa [tget?, hj] using ht
      simp [tupd, hj, hw, h]
    · simp only [tupd, if_neg hj, ih (by simpa [tget?, hj] using ht)]

/-- A change of an object depends only on what it makes of that object. -/
theorem updObj_congr {s : State} {p n : Nat} {o : Obj} {f g : Obj → Obj} (ho : objOf s p n = some o) (h : f o = g o) :
    updObj s p n f = updObj s p n g := by
  have hobjs : tupd (penOf s p).objects n f = tupd (penOf s p).objects n g := tupd_congr_of_tget? ho h
  have hpens : tupd s.pens p (fun x => { x with objects := tupd x.objects n f }) =
      tupd s.pens p fun x => { x with objects := tupd x.objects n g } :=
    tupd_congr (congrArg (fun os => { penOf s p with objects := os }) hobjs)
  simp only [updObj, updPen, hpens]

section
variable {s : State} {c : Cmd} {n : Nat} (hn : canFetch s c = some n) (hs : onSkex s c = true)
include hn hs

theorem exec_skex_bad {i : Instr} (hbad : c.bad = true) (hi : (∃ graph, i = .submit c graph) ∨ (∃ p d, i = .skexFence c p d) ∨
    (∃ o b, i = .tableSwitch c o b) ∨ (∃ o f b, i = .regionCreate c o f b) ∨ (∃ o, i = .regionDestroy c o ∨ i = .unmap c o) ∨
    (∃ o m l, i = .map c o m l)) : exec i s = .next (completeFree (doFetch s c n) c) := by
  obtain ⟨graph, rfl⟩ | ⟨p, d, rfl⟩ | ⟨o, b, rfl⟩ | ⟨o, f, b, rfl⟩ | ⟨o, rfl | rfl⟩ | ⟨o, m, l, rfl⟩ := hi
  · exact (withSkex_bad hn hs hbad _ : execSubmit c graph s = _)
  · exact (withSkex_bad hn hs hbad _ : execSkexFence c p d s = _)
  · exact (withSkex_bad hn hs hbad _ : execTableSwitch c o b s = _)
  · exact (withSkex_bad hn hs hbad _ : execRegionCreate c o f b s = _)
  · exact (withSkex_bad hn hs hbad _ : execRegionDestroy c o s = _)
  · exact (withSkex_bad hn hs hbad _ : execUnmap c o s = _)
  · exact (withSkex_bad hn hs hbad _ : execMap c o m l s = _)

section
variable (hbad : c.bad = false)
include hbad

theorem exec_submit_queues (graph : OpRef) : exec (.submit c graph) s = .next (updCtl (doFetch s c n) c.ctl fun x => { x with
    sqs := tupd x.sqs c.sq fun q => { q with submits := q.submits ++ [(c, graph, n)] } }) := by
  change execSubmit c graph s = _
  rw [execSubmit, withSkex_fetched hn hs hbad]

theorem exec_skexFence_waits (durable : Bool) : exec (.skexFence c false durable) s =
    .next (wake { doFetch s c n with port := { (doFetch s c n).port with
      fences := (doFetch s c n).port.fences ++ [{ cmd := c, limits := [(c.ctl, c.sq, n)], durable := durable }] } }) := by
  change execSkexFence c false durable s = _
  rw [execSkexFence, withSkex_fetched hn hs hbad]
  rfl

/-- An ORDERED_WRITE with none before it in its queue is charged and begins. -/
theorem exec_orderedWrite_begins {slba blocks : Nat} {fua : Bool} {prp us : List Nat} {q : Sq} {r v w : State}
    (hio : ioPositive s (penOfCtl c.ctl) = true) (hwait : rangeWaits s (penOfCtl c.ctl) slba blocks = false)
    (hsan : (doFetch s c n).port.sanitizing = none)
    (hus : windowUnits (doFetch s c n) (penOfCtl c.ctl) slba blocks = some us)
    (hr : r = prpRec (penOfCtl c.ctl) prp (4096 * blocks) (doFetch s c n))
    (hv : v = chargeIo r (penOfCtl c.ctl) (if !fua && wbInUse r then 4096 * blocks else 0) (ceilDiv blocks 4))
    (hq : sqOf (ctlOf v c.ctl) c.sq = some q) (hcur : q.owCur = none) (hnone : q.owWait = [])
    (hw : w = startOrdered v { cmd := c, units := dataUnits us (prpRead v (fnPages c prp) (4096 * blocks)), fua := fua, st := 0 } n) :
    exec (.orderedWrite c slba blocks fua prp) s = .next (settleOrdered w (orderedCount w)) := by
  subst hr
  change execOrderedWrite c slba blocks fua prp s = _
  simp only [execOrderedWrite, hio, hwait, withSkex_fetched hn hs hbad, hsan, hus, Option.isSome_none, Option.isNone_some, Bool.not_true,
    Bool.or_self, Bool.false_eq_true, if_false, bne_self_eq_false, ← hv, hq, hcur, hnone, List.isEmpty_nil, Option.getD_some, ← hw]

theorem exec_tableSwitch_switches {object base : Nat} {o : Obj} {t : Table}
    (ho : objOf (doFetch s c n) (penOfCtl c.ctl) object = some o) (hk : o.kind = .table t) (hb : base < t.bases) :
    exec (.tableSwitch c object base) s = .next (complete (updObj (doFetch s c n) (penOfCtl c.ctl) object
      fun _ => { o with kind := .table { t with current := base } }) c stSuccess) := by
  change execTableSwitch c object base s = _
  simp only [execTableSwitch, withSkex_fetched hn hs hbad, ho, hk, if_pos hb]
  exact congrArg (fun u => Host.Outcome.next (complete u c stSuccess)) (updObj_congr ho rfl)

theorem exec_regionCreate_makes {object first blocks : Nat} {us : List Nat}
    (ho : objOf (doFetch s c n) (penOfCtl c.ctl) object = none)
    (hus : windowUnits (doFetch s c n) (penOfCtl c.ctl) first blocks = some us) : exec (.regionCreate c object first blocks) s =
      .next (complete (putObj (doFetch s c n) (penOfCtl c.ctl) object
        { kind := .region first blocks, bytes := 4096 * blocks, homes := [] }) c stSuccess) := by
  change execRegionCreate c object first blocks s = _
  simp [execRegionCreate, withSkex_fetched hn hs hbad, ho, hus]

theorem exec_regionDestroy_gives {object first blocks : Nat} {o : Obj} (ho : objOf (doFetch s c n) (penOfCtl c.ctl) object = some o)
    (hk : o.kind = .region first blocks) :
    exec (.regionDestroy c object) s = .next (complete (dropObj (doFetch s c n) (penOfCtl c.ctl) object) c stSuccess) := by
  change execRegionDestroy c object s = _
  simp only [execRegionDestroy, withSkex_fetched hn hs hbad, ho, hk]

theorem exec_map_lists {object capacity : Nat} {list : OpRef} {o : Obj}
    (ho : objOf (doFetch s c n) (penOfCtl c.ctl) object = some o) (hne : stackHomes o ≠ []) (hlost : o.lost = false)
    (hup : ∀ h ∈ stackHomes o, stackUsable (doFetch s c n) h.1 = true) (hcap : (stackHomes o).length ≤ capacity) :
    exec (.map c object capacity list) s = .next (complete (writeHome
      (updObj (doFetch s c n) (penOfCtl c.ctl) object fun o => { o with mapped := true }) (penOfCtl c.ctl) none list 0
        ((stackHomes o).flatMap fun h => le 8 (slotAddr h.1 h.2))) c stSuccess (stackHomes o).length) := by
  have hany : ((stackHomes o).any fun h => !stackUsable (doFetch s c n) h.1) = false := by simpa using hup
  change execMap c object capacity list s = _
  simp [execMap, withSkex_fetched hn hs hbad, ho, hne, hlost, hany, Nat.not_lt.2 hcap]

theorem exec_unmap_releases {object : Nat} {o : Obj} (ho : objOf (doFetch s c n) (penOfCtl c.ctl) object = some o) :
    exec (.unmap c object) s =
      .next (complete (updObj (doFetch s c n) (penOfCtl c.ctl) object fun o => { o with mapped := false }) c stSuccess) := by
  change execUnmap c object s = _
  simp only [execUnmap, withSkex_fetched hn hs hbad, ho]

section
variable {object : Nat} (ho : objOf (doFetch s c n) (penOfCtl c.ctl) object = none)
include ho

theorem exec_unmap_notFound : exec (.unmap c object) s = .next (complete (doFetch s c n) c stNotFound) := by
  change execUnmap c object s = _
  simp only [execUnmap, withSkex_fetched hn hs hbad, ho]

theorem exec_regionDestroy_notFound : exec (.regionDestroy c object) s = .next (complete (doFetch s c n) c stNotFound) := by
  change execRegionDestroy c object s = _
  simp only [execRegionDestroy, withSkex_fetched hn hs hbad, ho]

end

end

end

/-- Settles O31: each command's equation, and that of a malformed one. -/
theorem skexCommandsComplete : Obligations.SkexCommandsComplete := by
  rintro s c n _ hn hs rfl
  refine ⟨fun hbad i => exec_skex_bad hn hs hbad, fun hbad => ⟨exec_submit_queues hn hs hbad, exec_skexFence_waits hn hs hbad, ?ordered,
    fun object base o t => exec_tableSwitch_switches hn hs hbad, fun object first blocks us => exec_regionCreate_makes hn hs hbad,
    fun object o first blocks => exec_regionDestroy_gives hn hs hbad, fun object capacity list o => exec_map_lists hn hs hbad,
    fun object o => exec_unmap_releases hn hs hbad,
    fun object ho => ⟨exec_unmap_notFound hn hs hbad ho, exec_regionDestroy_notFound hn hs hbad ho⟩⟩⟩
  case ordered =>
    intro slba blocks fua prp us q v w hio hwait hsan hus hv hq hcur hnone hw
    exact exec_orderedWrite_begins hn hs hbad hio hwait hsan hus rfl hv hq hcur hnone hw

end Sys2Proof.Machine
end

section
/-!
PROOFS. A step runs the front of the queue (O1).
-/

namespace Sys2Proof.Machine

theorem step_front (c : Instr) (q : List Instr) (s : State) : step { s with pending := c :: q } = exec c { s with pending := q } := rfl

theorem step_idle {s : State} (h : s.pending = []) : step s = .next s := by
  simp [step, h]

/-- Settles O1: an equation for the queue with a front and one for the empty queue. -/
theorem stepRunsTheFrontCommand : Obligations.StepRunsTheFrontCommand :=
  ⟨step_front, fun _ => step_idle⟩

end Sys2Proof.Machine
end

section
/-!
PROOFS. What registers read after reset, the register blocks in BAR2, writes that change nothing (O2, O7, O8).
-/

namespace Sys2Proof.Machine

/-! Reads (R419, R469). -/

/-- A read sees the 64 bits of its 8-byte block. -/
theorem regRead_eq_zero {s : State} {addr : Nat} (wide : Bool) (h : regRead64 s (addr / 8 * 8) = 0) : regRead s addr wide = 0 := by
  cases wide <;> simp [regRead, h, bits]

theorem regRead_wide (s : State) {addr : Nat} (h : addr % 8 = 0) : regRead s addr true = regRead64 s addr := by
  have ha : addr / 8 * 8 = addr := by omega
  simp [regRead, ha]

theorem readSec_reset (off : Nat) : readSec State.reset off = 0 := by
  unfold readSec
  split <;> rfl

/-- After reset only block CFG_ shows anything (R419). -/
theorem regRead64_reset {addr : Nat} (h : addr / 0x10000 ≠ 1) : regRead64 State.reset addr = 0 := by
  have hready : State.reset.boot.ready = false := rfl
  have hloaded : State.reset.boot.loaded = false := rfl
  simp only [regRead64, hready, hloaded, Bool.not_false, if_true, Bool.false_eq_true, and_false, if_false]
  split
  · contradiction
  · exact readSec_reset _
  · rfl
  · split
    · next h0 => rw [h0]; rfl
    · rfl
  · rfl

/-- Settles O2: the registers of CFG_ by evaluation, those of the other blocks by `regRead64_reset`. -/
theorem resetReadsAsTheTablesSay : Obligations.ResetReadsAsTheTablesSay := by
  refine ⟨by decide, by decide, by decide, fun addr wide h => ?_, rfl, rfl, rfl, rfl⟩
  exact regRead_eq_zero wide (regRead64_reset (by omega))

/-- Past the blocks of the table every address reads 0 (R469). -/
theorem regRead64_outside (s : State) {addr : Nat}
    (h : ¬(addr / 0x10000 < 0xF ∨ 0x10 ≤ addr / 0x10000 ∧ addr / 0x10000 < 0x14 ∨ 0x20 ≤ addr / 0x10000 ∧ addr / 0x10000 < 0x60)) :
    regRead64 s addr = 0 := by
  generalize hb : addr / 0x10000 = b at h
  have hquad : ¬(0x10 ≤ b ∧ b < 0x14) := by omega
  have htile : ¬(0x20 ≤ b ∧ b < 0x60) := by omega
  simp only [regRead64, hb]
  cases s.boot.ready with
  | false =>
    simp only [Bool.not_false, if_true]
    split
    case h_5 => rfl
    all_goals omega
  | true =>
    simp only [Bool.not_true, Bool.false_eq_true, if_false]
    split
    case h_16 => rw [if_neg hquad, if_neg htile]
    all_goals omega

/-! Writes (R13, R14). -/

/-- An aligned write, once the node is ready, gives its block of 8 bytes some value. -/
theorem exec_registerWrite_aligned (s : State) {addr : Nat} {wide : Bool} (v : W64) (h : regAligned addr wide = true) :
    ∃ x, exec (.registerWrite addr wide v) s = .next (if s.boot.ready then regWrite64 s (addr / 8 * 8) x else s) := by
  refine ⟨mergeWrite (regRead64 s (addr / 8 * 8)) addr wide v.toNat, ?_⟩
  change execRegisterWrite addr wide v s = _
  simp [execRegisterWrite, h, actWhen]

/-- The blocks CFG_, SEC_ and HST_, and every address past block NBU_, hold nothing that a register write sets. -/
theorem regWrite64_readOnly (s : State) {addr : Nat} (v : Nat)
    (h : addr / 0x10000 = 1 ∨ addr / 0x10000 = 2 ∨ addr / 0x10000 = 6 ∨ 0xF ≤ addr / 0x10000) : regWrite64 s addr v = s := by
  have hdma : ¬(0x81000 ≤ addr ∧ addr < 0x83000) := by omega
  unfold regWrite64
  split
  case h_16 => rw [if_neg hdma]
  all_goals omega

theorem exec_registerWrite_readOnly (s : State) {addr : Nat} {wide : Bool} (v : W64) (ha : regAligned addr wide = true)
    (h : addr / 0x10000 = 1 ∨ addr / 0x10000 = 2 ∨ addr / 0x10000 = 6 ∨ 0xF ≤ addr / 0x10000) :
    exec (.registerWrite addr wide v) s = .next s := by
  obtain ⟨x, hx⟩ := exec_registerWrite_aligned s v ha
  rw [hx, regWrite64_readOnly s x (by omega), ite_self]

/-- Settles O8: a write that is performed reaches `regWrite64`, which has no register in the blocks that are read-only. -/
theorem writesWithoutEffect : Obligations.WritesWithoutEffect := by
  intro s addr wide v ha
  refine ⟨fun hr => ?_, fun h => exec_registerWrite_readOnly s v ha (by omega)⟩
  obtain ⟨x, hx⟩ := exec_registerWrite_aligned s v ha
  rw [hx, hr]
  rfl

/-- Settles O7: reads and writes past the blocks by `regRead64_outside` and `regWrite64_readOnly`; each block's reads at its base. The
clause on writes from 0x100000 on rests on TLn_ARR_CTL.TEST being the command ARRAY_TEST_REQUEST and no register write. -/
theorem addressesOutsideTheBlocksDoNothing : Obligations.AddressesOutsideTheBlocksDoNothing := by
  refine ⟨fun s addr wide v ha => ⟨fun h => ⟨?_, ?_⟩, fun h => ?_⟩, fun s off hr ho h8 => ?_⟩
  · exact regRead_eq_zero wide (regRead64_outside s (by omega))
  · exact exec_registerWrite_readOnly s v ha (by omega)
  · exact exec_registerWrite_readOnly s v ha (by omega)
  · have hblock (k : Nat) : (0x10000 * k + off) / 0x10000 = k := by omega
    have hoff (k : Nat) : (0x10000 * k + off) % 0x10000 = off := by omega
    have hread (k : Nat) : regRead s (0x10000 * k + off) true = regRead64 s (0x10000 * k + off) := regRead_wide s (by omega)
    refine ⟨?blocks, fun n hn => ?quads, fun n hn => ?tiles⟩
    case blocks =>
      have hk (k : Nat) := hread k
      simp only [regRead64, hblock, hoff, hr, Bool.not_true, Bool.false_eq_true, if_false] at hk
      simp only [List.forall_mem_cons, List.not_mem_nil, false_imp_iff, implies_true, and_true]
      exact ⟨hk 0x0, hk 0x1, hk 0x2, hk 0x3, hk 0x4, hk 0x5, hk 0x6, hk 0x7, hk 0x8, hk 0x9, hk 0xA, hk 0xB, hk 0xC, hk 0xD, hk 0xE⟩
    case quads =>
      have hk := hread (0x10 + n)
      simp only [regRead64, hblock, hoff, hr, Bool.not_true, Bool.false_eq_true, if_false] at hk
      rw [show 0x100000 + 0x10000 * n + off = 0x10000 * (0x10 + n) + off by omega, hk]
      have hin : 0x10 ≤ 0x10 + n ∧ 0x10 + n < 0x14 := by omega
      split
      case h_16 => rw [if_pos hin, Nat.add_sub_cancel_left]
      all_goals omega
    case tiles =>
      have hk := hread (0x20 + n)
      simp only [regRead64, hblock, hoff, hr, Bool.not_true, Bool.false_eq_true, if_false] at hk
      rw [show 0x200000 + 0x10000 * n + off = 0x10000 * (0x20 + n) + off by omega, hk]
      have hout : ¬(0x10 ≤ 0x20 + n ∧ 0x20 + n < 0x14) := by omega
      have hin : 0x20 ≤ 0x20 + n ∧ 0x20 + n < 0x60 := by omega
      split
      case h_16 => rw [if_neg hout, if_pos hin, Nat.add_sub_cancel_left]
      all_goals omega
end Sys2Proof.Machine
end

section
/-!
PROOFS. Power, resets, rail faults and sensor samples (O10, O11, O12, O13).
-/

namespace Sys2Proof.Machine

/-! What stays without power (R466). -/

/-- A table into which a sector is put only where none stands keeps every sector that it held. -/
theorem tget?_tput_of_absent {α : Type} {t : Tab α} {k i : Nat} {v x : α} (h : thas t k = false) (hx : tget? t i = some x) :
    tget? (tput t k v) i = some x := by
  rw [tget?_tput_ne, hx]
  rintro rfl
  simp [thas, hx] at h

/-- Every sector of the media is left; those of a page whose program was cut short may join (R316). -/
theorem tget?_cutSectors {p : Profile} {tag c : Nat} {ch : Chan} {slot : Nat} {x : Sector} (h : tget? ch.media.sectors slot = some x) :
    tget? (cutSectors p tag c ch) slot = some x := by
  refine List.foldlRecOn _ _ (motive := fun t => tget? t slot = some x) h fun t ht o _ => ?_
  refine List.foldlRecOn _ _ (motive := fun t => tget? t slot = some x) ht fun t ht y _ => ?_
  dsimp only
  split
  · next hc => exact tget?_tput_of_absent (by simpa using hc.2.1) ht
  · exact ht

/-- A channel without power: its media alone, with the sectors and the journal that they held. -/
theorem chanOf_offState (s : State) (c : Nat) :
    (∀ slot x, tget? (chanOf s c).media.sectors slot = some x → tget? (chanOf (offState s) c).media.sectors slot = some x) ∧
    (chanOf (offState s) c).media.journal = (chanOf s c).media.journal ∧ (chanOf (offState s) c).media.ckpt = (chanOf s c).media.ckpt ∧
    (chanOf (offState s) c).map = [] ∧ (chanOf (offState s) c).usable = false := by
  simp only [chanOf, offState, tget, tget?_tmap]
  cases tget? s.ftl.chans c with
  | none => exact ⟨fun _ _ h => h, rfl, rfl, rfl, rfl⟩
  | some ch => exact ⟨fun _ _ h => tget?_cutSectors h, rfl, rfl, rfl, rfl⟩

/-- Settles O10: the three commands lead to `offState` but for the pins. -/
theorem powerOffKeepsTheMediaAlone : Obligations.PowerOffKeepsTheMediaAlone := by
  rintro i s (rfl | rfl | rfl)
  all_goals exact ⟨_, rfl, rfl, rfl, rfl, fun c => (chanOf_offState s c).1, fun c => (chanOf_offState s c).2, rfl, rfl, rfl, rfl, rfl, rfl,
    rfl, rfl, rfl, rfl, rfl, rfl, rfl, rfl, rfl, rfl, rfl, rfl, rfl⟩

/-! Turn-on, RESET_N and rails (R459, R460, R463, R465). -/

/-- TURN_ON with the pins released begins a start. -/
theorem exec_turnOn_released {s : State} (hv : s.power.vin = false) (hr : s.power.resetN = true) (hp : s.power.progEn = false) :
    exec .turnOn s = .next (startNode { s with power := { s.power with vin := true } } 0) := by
  change execTurnOn s = _
  simp [execTurnOn, actWhen, released, hv, hr, hp]

/-- RESET_N_HIGH of a held module with VIN present begins a start. -/
theorem exec_resetNHigh_held {s : State} (hv : s.power.vin = true) (hh : s.power.resetN = false ∨ s.power.progEn = true) :
    exec .resetNHigh s = .next (startNode { s with power := { s.power with resetN := true, progEn := false } } 1) := by
  change execResetNHigh s = _
  rcases hh with hh | hh <;> simp [execResetNHigh, actWhen, hv, hh]

/-- Settles O11: both commands lead to `startNode`. That RESET_N_HIGH releases PROG_EN too is the model's choice (log 37). -/
theorem startsBeginInPhaseRom : Obligations.StartsBeginInPhaseRom := by
  refine fun s => ⟨fun hv hr hp => ?_, fun hv hh => ?_⟩
  · exact ⟨_, exec_turnOn_released hv hr hp, rfl, rfl, rfl, rfl, rfl, rfl⟩
  · exact ⟨_, exec_resetNHigh_held hv hh, rfl, rfl, rfl, rfl, rfl, rfl, rfl⟩

theorem getLsbD_and_not_one_shiftLeft (x : BitVec 20) (d : Nat) (hd : d < 20) : (x &&& ~~~ (1#20 <<< d)).getLsbD d = false := by
  simp [hd]

/-- Settles O12: the exhaustion of the domain, then its bit cleared. -/
theorem railFaultSwitchesItsDomainOff : Obligations.RailFaultSwitchesItsDomainOff := by
  intro s d hd hon
  refine ⟨_, ?_, getLsbD_and_not_one_shiftLeft _ d hd, rfl⟩
  change execRailFault d s = _
  simp [execRailFault, actWhen, hd, hon]

/-! Sensors (R461, R468). -/

/-- A lower limit is reached where a higher one is. -/
theorem anyAt_of_le {s : State} {die stack die' stack' : Nat} (hd : die' ≤ die) (hs : stack' ≤ stack) (h : anyAt s die stack = true) :
    anyAt s die' stack' = true := by
  simp only [anyAt, Bool.or_eq_true, decide_eq_true_eq, List.any_eq_true] at h ⊢
  rcases h with (h | ⟨q, hq, h⟩) | ⟨n, hn, h⟩
  · exact .inl (.inl (hd.trans h))
  · exact .inl (.inr ⟨q, hq, hd.trans h⟩)
  · exact .inr ⟨n, hn, hs.trans h⟩

/-- The temperatures stored, before HOT of the stacks. -/
def withTemps (s : State) (quads : List Nat) (hub : Nat) (temps : List Nat) : State :=
  { s with power := { s.power with
    quadTemp := (List.range 4).map fun q => (q, nth quads q 0)
    hubTemp := hub, stackTemp := (List.range 20).map fun n => (n, nth temps n 0) } }

/-- Updates of stacks leave all but the stacks. -/
theorem foldl_updStack_frame (f : Nat → Stack → Stack) (l : List Nat) (s : State) :
    l.foldl (fun s n => updStack s n (f n)) s = { s with stks := (l.foldl (fun s n => updStack s n (f n)) s).stks } := by
  induction l generalizing s with
  | nil => rfl
  | cons m r ih =>
    rw [List.foldl_cons, ih]
    rfl

/-- HOT of a stack at its temperature (R250). -/
def heated (temps : List Nat) (n : Nat) (x : Stack) : Stack := { x with hot := decide (85 ≤ nth temps n 0) }

theorem storeTemps_eq (s : State) (quads : List Nat) (hub : Nat) (temps : List Nat) :
    storeTemps s quads hub temps = (List.range 20).foldl (fun s n => updStack s n (heated temps n)) (withTemps s quads hub temps) := rfl

theorem storeTemps_frame (s : State) (quads : List Nat) (hub : Nat) (temps : List Nat) :
    storeTemps s quads hub temps = { withTemps s quads hub temps with stks := (storeTemps s quads hub temps).stks } := by
  rw [storeTemps_eq]
  exact foldl_updStack_frame ..

theorem storeTemps_power (s : State) (quads : List Nat) (hub : Nat) (temps : List Nat) :
    (storeTemps s quads hub temps).power = (withTemps s quads hub temps).power := by
  rw [storeTemps_frame]

theorem storeTemps_hot (s : State) (quads : List Nat) (hub : Nat) (temps : List Nat) {n : Nat} (hn : n < 20) :
    (stackOf (storeTemps s quads hub temps) n).hot = decide (85 ≤ nth temps n 0) := by
  rw [storeTemps_eq, stackOf_foldl_updStack _ _ _ List.nodup_range (List.mem_range.2 hn)]
  rfl

/-- A table made from a list of keys holds an entry for each of them. -/
theorem tget?_map_keys {α : Type} (f : Nat → α) (l : List Nat) (n : Nat) :
    tget? (l.map fun i => (i, f i)) n = if n ∈ l then some (f n) else none := by
  induction l with
  | nil => rfl
  | cons i r ih =>
    by_cases hi : i = n
    · subst hi
      simp [tget?]
    · simp [tget?, hi, Ne.symm hi, ih]

/-- An entry of a table made of a range. -/
theorem tgetD_map_range {α : Type} (f : Nat → α) (m n : Nat) (d : α) (h : n < m) : tgetD ((List.range m).map fun i => (i, f i)) n d = f n := by
  simp [tgetD, tget?_map_keys, h]

section
variable {s u : State} {quads : List Nat} {hub : Nat} {temps : List Nat} (hon : s.power.on &&& coreDomains = coreDomains)
  (hu : u = storeTemps s quads hub temps)
include hon hu

theorem exec_thermalSample_below (h : anyAt u 115 105 = false) : exec (.thermalSample quads hub temps) s = .next (setThrottle u) := by
  have hhard : anyAt u 125 115 = false := by
    rw [Bool.eq_false_iff]
    intro ht
    rw [anyAt_of_le (by decide) (by decide) ht] at h
    cases h
  subst hu
  change execThermalSample quads hub temps s = _
  simp [execThermalSample, hon, h, hhard]

theorem exec_thermalSample_hard (h : anyAt u 125 115 = true) : exec (.thermalSample quads hub temps) s =
    .next { offState u with power := { (offState u).power with faultN := true } } := by
  subst hu
  change execThermalSample quads hub temps s = _
  simp [execThermalSample, hon, h]

theorem exec_thermalSample_trip (h : anyAt u 115 105 = true) (hhard : anyAt u 125 115 = false) :
    exec (.thermalSample quads hub temps) s = .next (setThrottle (darken (fenceNode u 6 true))) := by
  subst hu
  change execThermalSample quads hub temps s = _
  simp [execThermalSample, hon, h, hhard]

end

theorem exec_inputPowerSample {s : State} (vin iin watts : Nat) (domains : List (Nat × Nat))
    (hon : s.power.on &&& coreDomains = coreDomains) : exec (.inputPowerSample vin iin watts domains) s = .next (setThrottle
      { s with power := { s.power with
        vinNow := vin, iin := iin, watts := watts, peak := max s.power.peak watts
        rails := (List.range 20).map fun d => (d, nth domains d (0, 0)) } }) := by
  change execInputPowerSample vin iin watts domains s = _
  simp [execInputPowerSample, actWhen, hon]

theorem and_core_and_not_core (x : BitVec 20) : (x &&& coreDomains) &&& ~~~ coreDomains = 0 := by
  rw [BitVec.and_assoc, BitVec.and_not_self]
  simp

theorem nth_eq_getD {α : Type} (l : List α) (i : Nat) (d : α) : nth l i d = l.getD i d := by
  simp [nth]

/-- Settles O13: a thermal sample by the highest limit that it reaches; what `storeTemps` stores; the input power's sample. -/
theorem sensorSamplesAct : Obligations.SensorSamplesAct := by
  refine ⟨fun s u quads hub temps hon hu => ⟨fun h => ?below, ?stored, fun h => ?hard, fun h hhard => ?trip⟩,
    fun s vin iin watts domains hon => ?input⟩
  case below =>
    rw [exec_thermalSample_below hon hu h]
    have hwatts : u.power.watts = s.power.watts := by rw [hu, storeTemps_power]; rfl
    have hhot : u.power.hot = s.power.hot := by rw [hu, storeTemps_power]; rfl
    simp only [setThrottle, throttles, hwatts, hhot]
  case stored =>
    subst hu
    have hframe := storeTemps_frame s quads hub temps
    refine ⟨by rw [hframe]; rfl, fun q hq => ?_, by rw [hframe]; rfl, fun n hn => ⟨?_, ?_⟩, by rw [hframe]; rfl, by rw [hframe]; rfl,
      by rw [hframe]; rfl, by rw [hframe]; rfl, by rw [hframe]; rfl⟩
    · rw [storeTemps_power, ← nth_eq_getD]
      exact tgetD_map_range _ 4 q 0 hq
    · rw [storeTemps_power, ← nth_eq_getD]
      exact tgetD_map_range _ 20 n 0 hn
    · rw [storeTemps_hot _ _ _ _ hn, nth_eq_getD]
  case hard => exact ⟨_, exec_thermalSample_hard hon hu h, rfl, rfl, rfl, rfl⟩
  case trip => exact ⟨_, exec_thermalSample_trip hon hu h hhard, and_core_and_not_core _, rfl⟩
  case input =>
    rw [exec_inputPowerSample vin iin watts domains hon]
    simp only [nth_eq_getD]
    rfl

end Sys2Proof.Machine
end

section
/-!
PROOFS. Every step keeps the invariant (O3, O4): the promises of the single operations, put together over the commands.
-/

namespace Sys2Proof.Machine

/-- Every command leaves the queue as it is and keeps the invariant: the promise of each operation, taken up by exec's arm. -/
theorem exec_kept {q : List Instr} {s : State} (h : Kept q s) : ∀ i : Instr, KeptR q (exec i s)
  | .turnOn => execTurnOn_kept s h
  | .lossOfPower => execLossOfPower_kept s h
  | .resetN => execResetN_kept s h
  | .progEn => execProgEn_kept s h
  | .perst _ => execPerst_kept _ s h
  | .railFault _ => execRailFault_kept _ s h
  | .thermalSample _ _ _ => execThermalSample_kept _ _ _ s h
  | .inputPowerSample _ _ _ _ => execInputPowerSample_kept _ _ _ _ s h
  | .phaseRom _ _ => execPhaseRom_kept _ _ s h
  | .phaseImage => execPhaseImage_kept s h
  | .phasePower _ => execPhasePower_kept _ s h
  | .phaseTrain _ _ _ => execPhaseTrain_kept _ _ _ s h
  | .phaseClear _ => execPhaseClear_kept _ s h
  | .phaseTest _ _ => execPhaseTest_kept _ _ s h
  | .readiness => execReadiness_kept s h
  | .rebuild _ _ => execRebuild_kept _ _ s h
  | .rebuildDone _ => execRebuildDone_kept _ s h
  | .getVersion => execGetVersion_kept s h
  | .getCapabilities => execGetCapabilities_kept s h
  | .negotiateAlgorithms _ _ _ _ => execNegotiateAlgorithms_kept _ _ _ _ s h
  | .getDigests => execGetDigests_kept s h
  | .getCertificate _ _ _ => execGetCertificate_kept _ _ _ s h
  | .challenge _ _ => execChallenge_kept _ _ s h
  | .getMeasurements _ _ _ => execGetMeasurements_kept _ _ _ s h
  | .keyExchange _ => execKeyExchange_kept _ s h
  | .finish _ => execFinish_kept _ s h
  | .endSession => execEndSession_kept s h
  | .cfgErase _ _ => execCfgErase_kept _ _ s h
  | .cfgWrite _ _ => execCfgWrite_kept _ _ s h
  | .cfgVerify _ _ => execCfgVerify_kept _ _ s h
  | .cfgActivate _ _ => execCfgActivate_kept _ _ s h
  | .penCreate _ _ => execPenCreate_kept _ _ s h
  | .penDestroy _ _ => execPenDestroy_kept _ _ s h
  | .penQuota _ _ => execPenQuota_kept _ _ s h
  | .penDamper _ _ => execPenDamper_kept _ _ s h
  | .penReset _ _ => execPenReset_kept _ _ s h
  | .penResetEnd _ => execPenResetEnd_kept _ s h
  | .warmReset _ _ => execWarmReset_kept _ _ s h
  | .warmResetBegin => execWarmResetBegin_kept s h
  | .coldReset _ _ => execColdReset_kept _ _ s h
  | .damperTick => execDamperTick_kept s h
  | .vectorTimeExpiry _ => execVectorTimeExpiry_kept _ s h
  | .msixUnmask _ => execMsixUnmask_kept _ s h
  | .penVmodWrite _ => execPenVmodWrite_kept _ s h
  | .hostLinkUp _ _ _ _ => execHostLinkUp_kept _ _ _ _ s h
  | .linkDown _ => execLinkDown_kept _ s h
  | .cxlReset => execCxlReset_kept s h
  | .controllerReset _ _ => execControllerReset_kept _ _ s h
  | .controllerEnable _ _ _ _ _ => execControllerEnable_kept _ _ _ _ _ s h
  | .sqTailDoorbell _ _ _ _ => execSqTailDoorbell_kept _ _ _ _ s h
  | .cqHeadDoorbell _ _ _ => execCqHeadDoorbell_kept _ _ _ s h
  | .recordQueueHeadDoorbell _ _ _ => execRecordQueueHeadDoorbell_kept _ _ _ s h
  | .createIoSq _ _ _ _ _ _ => execCreateIoSq_kept _ _ _ _ _ _ s h
  | .deleteIoSq _ _ => execDeleteIoSq_kept _ _ s h
  | .createIoCq _ _ _ _ _ _ _ => execCreateIoCq_kept _ _ _ _ _ _ _ s h
  | .deleteIoCq _ _ => execDeleteIoCq_kept _ _ s h
  | .identify _ _ _ => execIdentify_kept _ _ _ s h
  | .getLogPage _ _ _ _ _ => execGetLogPage_kept _ _ _ _ _ s h
  | .abort _ => execAbort_kept _ s h
  | .setFeatures _ _ _ => execSetFeatures_kept _ _ _ s h
  | .getFeatures _ _ => execGetFeatures_kept _ _ s h
  | .asynchronousEventRequest _ => execAsynchronousEventRequest_kept _ s h
  | .sanitize _ _ => execSanitize_kept _ _ s h
  | .sanitizeEnd => execSanitizeEnd_kept s h
  | .createSkexQueue _ _ _ _ _ _ _ _ => execCreateSkexQueue_kept _ _ _ _ _ _ _ _ s h
  | .flush _ => execFlush_kept _ s h
  | .write _ _ _ _ _ => execWrite_kept _ _ _ _ _ s h
  | .read _ _ _ _ => execRead_kept _ _ _ _ s h
  | .datasetManagement _ _ _ => execDatasetManagement_kept _ _ _ s h
  | .writeBufferAdmit => execWriteBufferAdmit_kept s h
  | .writeBufferDrain _ => execWriteBufferDrain_kept _ s h
  | .submit _ _ => execSubmit_kept _ _ s h
  | .skexFence _ _ _ => execSkexFence_kept _ _ _ s h
  | .orderedWrite _ _ _ _ _ => execOrderedWrite_kept _ _ _ _ _ s h
  | .tableSwitch _ _ _ => execTableSwitch_kept _ _ _ s h
  | .epochCommit _ _ _ => execEpochCommit_kept _ _ _ s h
  | .regionCreate _ _ _ _ => execRegionCreate_kept _ _ _ _ s h
  | .regionDestroy _ _ => execRegionDestroy_kept _ _ s h
  | .map _ _ _ _ => execMap_kept _ _ _ _ s h
  | .unmap _ _ => execUnmap_kept _ _ s h
  | .graphAccept _ _ => execGraphAccept_kept _ _ s h
  | .taskIssue _ _ => execTaskIssue_kept _ _ s h
  | .baleMoveDone _ _ => execBaleMoveDone_kept _ _ s h
  | .writeBackDone _ => execWriteBackDone_kept _ s h
  | .taskComplete _ _ => execTaskComplete_kept _ _ s h
  | .nop _ => execNop_kept _ s h
  | .fence _ => execFence_kept _ s h
  | .alloc _ => execAlloc_kept _ s h
  | .free _ => execFree_kept _ s h
  | .copy _ => execCopy_kept _ s h
  | .fill _ => execFill_kept _ s h
  | .matmul _ => execMatmul_kept _ s h
  | .arrayUnit _ _ _ _ _ _ => execArrayUnit_kept _ _ _ _ _ _ s h
  | .arrayTest _ _ => execArrayTest_kept _ _ s h
  | .arrayTestRequest _ _ => execArrayTestRequest_kept _ _ s h
  | .arrayTestDone _ _ _ _ => execArrayTestDone_kept _ _ _ _ s h
  | .modelRun _ => execModelRun_kept _ s h
  | .modelCreate _ => execModelCreate_kept _ s h
  | .modelDestroy _ => execModelDestroy_kept _ s h
  | .vectorStep _ => execVectorStep_kept _ s h
  | .vectorFilter _ => execVectorFilter_kept _ s h
  | .tokenize _ => execTokenize_kept _ s h
  | .pack _ => execPack_kept _ s h
  | .nbuSeq _ => execNbuSeq_kept _ s h
  | .microOp _ _ _ => execMicroOp_kept _ _ _ s h
  | .refreshDue _ _ => execRefreshDue_kept _ _ s h
  | .query _ => execQuery_kept _ s h
  | .walkRound _ => execWalkRound_kept _ s h
  | .flashWalkRound _ => execFlashWalkRound_kept _ s h
  | .enginePageExpand _ _ _ => execEnginePageExpand_kept _ _ _ s h
  | .hop _ _ => execHop_kept _ _ s h
  | .rerank _ => execRerank_kept _ s h
  | .fanOutQuery _ => execFanOutQuery_kept _ s h
  | .merge _ => execMerge_kept _ s h
  | .insert _ => execInsert_kept _ s h
  | .indexCreate _ => execIndexCreate_kept _ s h
  | .indexOpen _ => execIndexOpen_kept _ s h
  | .rebuildIndex _ => execRebuildIndex_kept _ s h
  | .delete _ => execDelete_kept _ s h
  | .destroy _ => execDestroy_kept _ s h
  | .repairSweepNow _ => execRepairSweepNow_kept _ s h
  | .gather _ => execGather_kept _ s h
  | .scatterWrite _ => execScatterWrite_kept _ s h
  | .scatterAdd _ => execScatterAdd_kept _ s h
  | .tableCreate _ => execTableCreate_kept _ s h
  | .tableDestroy _ => execTableDestroy_kept _ s h
  | .clone _ => execClone_kept _ s h
  | .flashRead _ => execFlashRead_kept _ s h
  | .flashWrite _ => execFlashWrite_kept _ s h
  | .deallocate _ => execDeallocate_kept _ s h
  | .flueSend _ => execFlueSend_kept _ s h
  | .seal _ _ => execSeal_kept _ _ s h
  | .commitComplete _ _ => execCommitComplete_kept _ _ s h
  | .sweepEnd _ _ => execSweepEnd_kept _ _ s h
  | .sketchHalving _ => execSketchHalving_kept _ s h
  | .migrationStart _ _ _ _ _ => execMigrationStart_kept _ _ _ _ _ s h
  | .migrationCopyEnd _ _ => execMigrationCopyEnd_kept _ _ s h
  | .migrationCommit _ _ => execMigrationCommit_kept _ _ s h
  | .patrolScrub _ _ _ => execPatrolScrub_kept _ _ _ s h
  | .rds _ _ => execRds_kept _ _ s h
  | .rde _ _ => execRde_kept _ _ s h
  | .rdc _ _ => execRdc_kept _ _ s h
  | .wr _ _ => execWr_kept _ _ s h
  | .clr _ => execClr_kept _ s h
  | .putb _ _ => execPutb_kept _ _ s h
  | .pute _ _ => execPute_kept _ _ s h
  | .putm _ _ => execPutm_kept _ _ s h
  | .ack _ _ => execAck_kept _ _ s h
  | .wbd _ _ => execWbd_kept _ _ s h
  | .cack _ _ => execCack_kept _ _ s h
  | .stackAccessDone _ => execStackAccessDone_kept _ s h
  | .inv _ _ => execInv_kept _ _ s h
  | .memberAck _ _ _ => execMemberAck_kept _ _ _ s h
  | .rcl _ _ => execRcl_kept _ _ s h
  | .rclS _ _ => execRclS_kept _ _ s h
  | .dataS _ _ => execDataS_kept _ _ s h
  | .dataB _ _ => execDataB_kept _ _ s h
  | .dataE _ _ => execDataE_kept _ _ s h
  | .cmp _ _ => execCmp_kept _ _ s h
  | .agentLoad _ _ => execAgentLoad_kept _ _ s h
  | .agentStore _ _ _ _ => execAgentStore_kept _ _ _ _ s h
  | .agentReplace _ _ => execAgentReplace_kept _ _ s h
  | .hostCxlMemRequest _ _ => execHostCxlMemRequest_kept _ _ s h
  | .snpInv _ _ => execSnpInv_kept _ _ s h
  | .snpData _ => execSnpData_kept _ s h
  | .snpCur _ => execSnpCur_kept _ s h
  | .bisnpTimeout _ => execBisnpTimeout_kept _ s h
  | .reclaimSweep _ => execReclaimSweep_kept _ s h
  | .reclaimSweepDone => execReclaimSweepDone_kept s h
  | .pageReadDone _ _ _ => execPageReadDone_kept _ _ _ s h
  | .programDone _ _ _ => execProgramDone_kept _ _ _ s h
  | .eraseDone _ _ _ => execEraseDone_kept _ _ _ s h
  | .kindlingPad _ => execKindlingPad_kept _ s h
  | .journalPageTimeout _ => execJournalPageTimeout_kept _ s h
  | .foldStart _ _ => execFoldStart_kept _ _ s h
  | .gcStart _ _ => execGcStart_kept _ _ s h
  | .checkpointStart _ => execCheckpointStart_kept _ s h
  | .patrolRead _ _ _ => execPatrolRead_kept _ _ _ s h
  | .readLevelReplan _ _ _ _ => execReadLevelReplan_kept _ _ _ _ s h
  | .flashTemperatureSample _ => execFlashTemperatureSample_kept _ s h
  | .dmaEnable _ => execDmaEnable_kept _ s h
  | .dmaStop _ => execDmaStop_kept _ s h
  | .dmaRestart _ _ => execDmaRestart_kept _ _ s h
  | .dmaTest _ => execDmaTest_kept _ s h
  | .dmaTestDone _ _ => execDmaTestDone_kept _ _ s h
  | .dmaDoorbell _ _ => execDmaDoorbell_kept _ _ s h
  | .dmaCqheadWrite _ _ => execDmaCqheadWrite_kept _ _ s h
  | .descriptorFetchDone _ => execDescriptorFetchDone_kept _ s h
  | .descriptorComplete _ _ => execDescriptorComplete_kept _ _ s h
  | .busError _ _ _ _ => execBusError_kept _ _ _ _ s h
  | .errinfoClear _ _ => execErrinfoClear_kept _ _ s h
  | .poisonLatchClear _ => execPoisonLatchClear_kept _ s h
  | .reclaimLatchClear _ => execReclaimLatchClear_kept _ s h
  | .portTraining _ => execPortTraining_kept _ s h
  | .qualificationEnd _ _ _ => execQualificationEnd_kept _ _ _ s h
  | .dataFlit _ => execDataFlit_kept _ s h
  | .idleFlit _ => execIdleFlit_kept _ s h
  | .retryReq _ => execRetryReq_kept _ s h
  | .forward _ => execForward_kept _ s h
  | .openMsg _ => execOpenMsg_kept _ s h
  | .close _ => execClose_kept _ s h
  | .flueAck _ => execFlueAck_kept _ s h
  | .put _ => execPut_kept _ s h
  | .putDone _ => execPutDone_kept _ s h
  | .queryMessage _ => execQueryMessage_kept _ s h
  | .answer _ => execAnswer_kept _ s h
  | .mrec _ => execMrec_kept _ s h
  | .mcommit _ => execMcommit_kept _ s h
  | .mack _ => execMack_kept _ s h
  | .load _ => execLoad_kept _ s h
  | .rread _ => execRread_kept _ s h
  | .rwrite _ => execRwrite_kept _ s h
  | .rresp _ => execRresp_kept _ s h
  | .mapupd _ => execMapupd_kept _ s h
  | .resendTimeout _ _ => execResendTimeout_kept _ _ s h
  | .peerTimeout _ => execPeerTimeout_kept _ s h
  | .flueCtxOpen _ _ => execFlueCtxOpen_kept _ _ s h
  | .flueCtxClose _ _ => execFlueCtxClose_kept _ _ s h
  | .flueRoute _ _ => execFlueRoute_kept _ _ s h
  | .lend _ _ => execLend_kept _ _ s h
  | .lendHandoverDone _ _ => execLendHandoverDone_kept _ _ s h
  | .mirrorLoad _ _ => execMirrorLoad_kept _ _ s h
  | .mirrorPromote _ _ => execMirrorPromote_kept _ _ s h
  | .scoreRecompute => execScoreRecompute_kept s h
  | .marginEvaluation _ => execMarginEvaluation_kept _ s h
  | .binQuiesceDone _ => execBinQuiesceDone_kept _ s h
  | .pllRelockDone _ => execPllRelockDone_kept _ s h
  | .phyRetrain _ _ => execPhyRetrain_kept _ _ s h
  | .phyRetrainDone _ _ => execPhyRetrainDone_kept _ _ s h
  | .dieToDieModuleDown _ => execDieToDieModuleDown_kept _ s h
  | .routeListResume _ => execRouteListResume_kept _ s h
  | .unitFault _ => execUnitFault_kept _ s h
  | .nodeFault _ _ => execNodeFault_kept _ _ s h
  | .trcGo => execTrcGo_kept s h
  | .trcReplay => execTrcReplay_kept s h
  | .trcRprodWrite _ _ => execTrcRprodWrite_kept _ _ s h
  | .trcRconsWrite _ => execTrcRconsWrite_kept _ s h
  | .registerWrite _ _ _ => execRegisterWrite_kept _ _ _ s h
  | .resetNHigh => execResetNHigh_kept s h
  | .laneFailure _ => execLaneFailure_kept _ s h
  | .fecBlock _ _ _ _ => execFecBlock_kept _ _ _ _ s h
  | .invalidCommandOpcode _ _ => execInvalidCommandOpcode_kept _ _ s h
  | .undefinedControlCode _ _ _ => execUndefinedControlCode_kept _ _ _ s h
  | .unsupportedSpdmRequest _ => execUnsupportedSpdmRequest_kept _ s h

/-- Settles O3: no memory holds a cell, and no secret, readiness or selector is set. -/
theorem resetHasTheInvariant : Obligations.ResetHasTheInvariant where
  mem := Mem.empty_wf
  sram := Mem.empty_wf
  host := Mem.empty_wf
  secret := nofun
  ready := nofun
  penSel := by decide
  bselClass := by decide
  bselRes := by decide
  vsel := by decide
  stackSel := by decide
  nbuSel := by decide

/-- The invariant does not speak of the queue. -/
theorem State.Inv.withPending {s : State} (h : s.Inv) (q : List Instr) : State.Inv { s with pending := q } :=
  ⟨h.mem, h.sram, h.host, h.secret, h.ready, h.penSel, h.bselClass, h.bselRes, h.vsel, h.stackSel, h.nbuSel⟩

/-- Settles O4: a step idles or performs a command, whose promise `exec_kept` has. -/
theorem everyStepKeepsTheInvariant : Obligations.EveryStepKeepsTheInvariant := by
  intro s t hs hstep
  unfold step at hstep
  split at hstep
  · cases hstep
    exact hs
  · next c q _ =>
    obtain ⟨u, hu, hkept⟩ := exec_kept (q := q) ⟨rfl, hs.withPending q⟩ c
    rw [hu] at hstep
    cases hstep
    exact hkept.inv

end Sys2Proof.Machine
end

section
/-!
PROOFS. SPDM, sessions and keyed commands that are turned away (O17, O18, O19, O20).
-/

namespace Sys2Proof.Machine

/-! Requests outside a session (R429, R430). -/

section
variable {s : State} (hup : spdmUp s = true) (hlim : spdmLimited s = false) (hses : s.boot.session = false)

theorem withSpdm_open (f : State → State) (hup : spdmUp s = true) (hlim : spdmLimited s = false) (hses : s.boot.session = false) :
    withSpdm s f = .next (f s) := by
  simp [withSpdm, hup, hlim, hses]

include hup hses

theorem exec_getVersion_open : exec .getVersion s = .next (emit s (.spdm .version)) := by
  change execGetVersion s = _
  simp [execGetVersion, hup, hses, answer]

theorem exec_getCapabilities_open : exec .getCapabilities s = .next (emit s (.spdm .capabilities)) := by
  change execGetCapabilities s = _
  simp [execGetCapabilities, hup, hses, answer]

include hlim

theorem exec_negotiateAlgorithms_open (a b c d : Bool) :
    exec (.negotiateAlgorithms a b c d) s = .next (emit s (.spdm (.algorithms (a && b && c && d)))) := by
  change execNegotiateAlgorithms a b c d s = _
  rw [execNegotiateAlgorithms, withSpdm_open _ hup hlim hses, answer]

theorem exec_getDigests_open : exec .getDigests s =
    .next (emit s (.spdm (if hasIdentity s then .digests (sha3_512 (chain0 s)) else .error 0))) := by
  change execGetDigests s = _
  rw [execGetDigests, withSpdm_open _ hup hlim hses, answer]

theorem exec_getCertificate_anonymous (hid : hasIdentity s = false) (slot off n : Nat) :
    exec (.getCertificate slot off n) s = .next (emit s (.spdm (.error 0))) := by
  change execGetCertificate slot off n s = _
  rw [execGetCertificate, withSpdm_open _ hup hlim hses]
  simp [hid, answer]

theorem exec_getCertificate_part (hid : hasIdentity s = true) {off : Nat} (n : Nat) (hoff : off < (chain0 s).length) :
    exec (.getCertificate 0 off n) s = .next (emit s (.spdm (.certificate (((chain0 s).drop off).take n)))) := by
  change execGetCertificate 0 off n s = _
  rw [execGetCertificate, withSpdm_open _ hup hlim hses]
  simp [hid, Nat.not_le.2 hoff, answer]

theorem exec_challenge_anonymous (hid : hasIdentity s = false) (slot : Nat) (nonce : List Byte) :
    exec (.challenge slot nonce) s = .next (emit s (.spdm (.error 0))) := by
  change execChallenge slot nonce s = _
  rw [execChallenge, withSpdm_open _ hup hlim hses]
  simp [hid, answer]

theorem exec_challenge_noSlot (hid : hasIdentity s = true) {slot : Nat} (hslot : slot ≠ 0) (nonce : List Byte) :
    exec (.challenge slot nonce) s = .next (emit s (.spdm (.error 2))) := by
  change execChallenge slot nonce s = _
  rw [execChallenge, withSpdm_open _ hup hlim hses]
  simp [hid, hslot, answer]

theorem exec_challenge_signs (hid : hasIdentity s = true) (nonce : List Byte) :
    exec (.challenge 0 nonce) s = .next { s with nfree := s.nfree + 1, out := s.out ++ [.spdm (.challengeAuth
      (Config.ed448Sign s.boot.aliasKey (Config.spdmTranscript 0x83 nonce (sha3_512 (chain0 s)) s.nfree)))] } := by
  change execChallenge 0 nonce s = _
  rw [execChallenge, withSpdm_open _ hup hlim hses]
  simp only [hid, Bool.not_true, Bool.false_eq_true, if_false, ne_eq, not_true_eq_false]
  rfl

end

theorem exec_unsupportedSpdmRequest_errs {s : State} (hup : spdmUp s = true) {code : Nat} (h : ¬code ∈ spdmCodes) :
    exec (.unsupportedSpdmRequest code) s = .next (emit s (.spdm (.error 1))) := by
  change execUnsupportedSpdmRequest code s = _
  simp [execUnsupportedSpdmRequest, h, hup, actWhen, answer]

/-- Settles O17: each request's equation outside a session. The answers of a node without an identity to GET_DIGESTS and CHALLENGE, and
the error for a slot other than 0, are the model's (log 6, log 43). -/
theorem spdmRequestsAreAnswered : Obligations.SpdmRequestsAreAnswered := by
  intro s hup hlim hses
  refine ⟨exec_getVersion_open hup hses, exec_getCapabilities_open hup hses, exec_negotiateAlgorithms_open hup hlim hses,
    fun code => exec_unsupportedSpdmRequest_errs hup, fun hid => ⟨?anonymous, exec_getCertificate_anonymous hup hlim hses hid,
    exec_challenge_anonymous hup hlim hses hid⟩, fun hid => ⟨?digest, fun off n => exec_getCertificate_part hup hlim hses hid n,
    exec_challenge_signs hup hlim hses hid, fun slot nonce h => exec_challenge_noSlot hup hlim hses hid h nonce⟩⟩
  case anonymous => simp [exec_getDigests_open hup hlim hses, hid]
  case digest => simp [exec_getDigests_open hup hlim hses, hid]

/-! Measurements (R431). -/

theorem exec_getMeasurements_unsigned {s : State} (hup : spdmUp s = true) {index : Nat} (nonce : List Byte) {l : List (Nat × List Byte)}
    (hl : askedBlocks s index = l) (hne : l ≠ []) :
    exec (.getMeasurements index false nonce) s = .next (emit s (.spdm (.measurements l none))) := by
  change execGetMeasurements index false nonce s = _
  simp [execGetMeasurements, hup, hl, hne, answer]

theorem measurements_loaded {s : State} (h : s.boot.loaded = true) : measurements s =
    [(1, Config.romDigest), (2, s.boot.image.digFwCore), (3, s.boot.image.digFwEngine), (4, s.boot.image.digImage),
      (5, le 8 s.boot.image.sequence ++ le 2 s.boot.image.svn ++ le 1 s.boot.slot ++ le 1 s.boot.reason), (6, s.boot.image.digOwner)] := by
  simp [measurements, measured, h]

theorem measurements_unverified {s : State} (h : s.boot.loaded = false) (hv : s.boot.verified = none) :
    measurements s = [(1, Config.romDigest)] := by
  simp [measurements, measured, h, hv]

/-- Block 1 is ROM's, whatever was loaded or verified. -/
theorem askedBlocks_rom (s : State) : askedBlocks s 1 = [(1, Config.romDigest)] := by
  simp only [askedBlocks, measurements, Nat.reduceEqDiff, if_false]
  cases measured s <;> rfl

/-- Settles O18: the blocks asked for, by what was loaded. -/
theorem measurementsAreAlwaysAnswered : Obligations.MeasurementsAreAlwaysAnswered := by
  intro s nonce hup
  refine ⟨exec_getMeasurements_unsigned hup nonce (askedBlocks_rom s) (by simp), fun h => ⟨?_, ?_⟩, fun h hv => ?_⟩
  · refine exec_getMeasurements_unsigned hup nonce ?_ (by simp)
    simp only [askedBlocks, measurements_loaded h]
    rfl
  · refine exec_getMeasurements_unsigned hup nonce ?_ (by simp)
    simp only [askedBlocks, measurements_loaded h]
    rfl
  · refine exec_getMeasurements_unsigned hup nonce ?_ (by simp)
    simp only [askedBlocks, measurements_unverified h hv]
    rfl

/-! The session and K0 (R432, R433). -/

/-- Outside replay no keyed command passes its checks without K0 (R355, R357). -/
theorem keyedOk_without_k0 {s : State} (hk : s.boot.k0 = none) (hr : s.trace.replay = false) (p code : Nat) (b : KBlock) (permitted : Bool) :
    keyedOk s p code b permitted = false := by
  simp [keyedOk, hr, penKey, hk]

/-- Nothing is permitted where the sender is not (R357). -/
theorem keyedOk_not_permitted {s : State} (hr : s.trace.replay = false) (p code : Nat) (b : KBlock) : keyedOk s p code b false = false := by
  simp [keyedOk, hr]

/-- SEC_STAT is read before readiness as after it (R419). -/
theorem regRead_secStat (s : State) : regRead s 0x20000 true =
    packFields [(1, b2n s.boot.ident), (1, s.boot.idsrc), (1, b2n s.boot.hasAlias), (1, b2n s.boot.session), (1, b2n s.boot.k0.isSome)] := by
  change regRead64 s 0x20000 = _
  cases hr : s.boot.ready <;> simp [regRead64, hr, readSec]

theorem testBit_packFields_last (a b c d : Nat) (e : Bool) : (packFields [(1, a), (1, b), (1, c), (1, d), (1, b2n e)]).testBit 4 = e := by
  simp only [packFields, Nat.testBit_eq_decide_div_mod_eq]
  cases e <;> simp [b2n] <;> omega

section
variable {s : State} (hup : spdmUp s = true) (hlim : spdmLimited s = false)
include hup hlim

theorem exec_keyExchange_open (hses : s.boot.session = false) (hid : hasIdentity s = true) (secret : List Byte) :
    ∃ t, exec (.keyExchange secret) s = .next t ∧
      t = { s with nfree := s.nfree + 1, out := t.out, boot := { s.boot with sessionSecret := secret } } := by
  change ∃ t, execKeyExchange secret s = _ ∧ _
  rw [execKeyExchange, withSpdm_open _ hup hlim hses, hid]
  exact ⟨_, rfl, rfl⟩

theorem exec_finish_opens (hses : s.boot.session = false) (hsec : s.boot.sessionSecret ≠ []) : exec (.finish true) s =
    .next (emit { s with boot := { s.boot with session := true, k0 := s.boot.k0.or (some (deriveK0 s.boot.sessionSecret)) } }
      (.spdm .finishRsp)) := by
  change execFinish true s = _
  rw [execFinish, withSpdm_open _ hup hlim hses]
  cases s.boot.k0 <;> simp [hsec, answer]

theorem exec_finish_fails (hses : s.boot.session = false) (hsec : s.boot.sessionSecret ≠ []) : exec (.finish false) s =
    .next (emit { s with boot := { s.boot with sessionSecret := [] } } (.spdm (.error 0))) := by
  change execFinish false s = _
  rw [execFinish, withSpdm_open _ hup hlim hses]
  simp [hsec, answer]

theorem exec_endSession_ends (hses : s.boot.session = true) : exec .endSession s =
    .next (emit { s with boot := { s.boot with session := false, sessionSecret := [] } } (.spdm .endSessionAck)) := by
  change execEndSession s = _
  simp [execEndSession, hup, hlim, hses, answer]

end

/-- Settles O19: no key without K0; SEC_STAT's field; the session's requests. That KEY_EXCHANGE replaces a pending handshake and that FINISH
with wrong data drops it is the model's choice (log 43, log 6). -/
theorem sessionsEstablishK0Once : Obligations.SessionsEstablishK0Once := by
  refine fun s => ⟨keyedOk_without_k0, ?_, fun hup hlim => ⟨exec_keyExchange_open hup hlim, fun hses hsec => ?_, exec_endSession_ends hup hlim⟩⟩
  · rw [regRead_secStat, testBit_packFields_last]
  · exact ⟨exec_finish_opens hup hlim hses hsec, exec_finish_fails hup hlim hses hsec⟩

/-! Keyed commands that fail their checks (R357). -/

theorem withKeyedArgs_rejected {s : State} {c : Cmd} {b : KBlock} {code n : Nat} {permit : Nat → Bool} (ok : Bool)
    (f : State → Nat → State) (hn : canFetch s c = some n) (hs : onSkex s c = true) (hb : c.bad = false)
    (hk : keyedOk s (penOfCtl c.ctl) code b (permit (penOfCtl c.ctl)) = false) :
    withKeyedArgs s c b code permit ok f = .next (complete (s.afterReject c n) c stTagRejected) := by
  have ha : keyedAccepted s c b code permit = false := by simp [keyedAccepted, hk]
  rw [withKeyedArgs, ha, Bool.and_false, if_neg Bool.false_ne_true]
  exact withKeyed_rejected s c b code n permit f hn hs hb hk

/-- Every keyed command is a control with arguments: its code, its pens, and an act that a rejection does not reach. -/
theorem exec_of_keyedForm {i : Instr} {c : Cmd} {b : KBlock} {code : Nat} {permit : Nat → Bool} (h : keyedForm i = some (c, b, code, permit))
    (s : State) : ∃ ok f, exec i s = withKeyedArgs s c b code permit ok f := by
  cases i with
  | penCreate | penDestroy | penQuota | penDamper | penReset | warmReset | coldReset | cfgErase | cfgWrite | cfgVerify | cfgActivate
  | flueCtxOpen | flueCtxClose | flueRoute | lend | mirrorLoad | mirrorPromote =>
    cases h
    exact ⟨_, _, rfl⟩
  | _ => cases h

/-- Settles O20: the keyed commands by their common form, an undefined code as permitted to no pen. -/
theorem keyedCommandsAreTurnedAway : Obligations.KeyedCommandsAreTurnedAway := by
  intro s c b n hn hs hb
  refine ⟨fun i code permit hi hk => ?_, fun code hcode hr => ?_⟩
  · obtain ⟨ok, f, hexec⟩ := exec_of_keyedForm hi s
    rw [hexec, withKeyedArgs_rejected ok f hn hs hb hk]
  · change execUndefinedControlCode c code b s = _
    rw [execUndefinedControlCode, if_neg hcode]
    exact withKeyed_rejected s c b code.toNat n _ _ hn hs hb (keyedOk_not_permitted hr ..)

end Sys2Proof.Machine
end

section
/-!
PROOFS. The phases of a start (O15).
-/

namespace Sys2Proof.Machine

/-! What the records of a start leave as it was. -/

theorem markOut_reported (s : State) : Reported s (markOut s) := rfl

theorem postLosses_reported (s : State) (what : Nat) (l : List HwUnit) : Reported s (postLosses s what l) := by
  unfold postLosses
  refine Reported.trans (t := if (sortBy unitLt (l.foldl addNew [])).isEmpty then s else markOut s) ?_
    (foldl_reported _ _ (fun _ _ => postEvent_reported ..) _)
  split
  · exact .refl s
  · exact markOut_reported s

theorem postLosses_nil (s : State) (what : Nat) : postLosses s what [] = s := rfl

theorem postArrayTest_reported (s : State) (x : HwUnit × Nat × Nat) : Reported s (postArrayTest s x) := by
  unfold postArrayTest
  split
  · exact Reported.trans (t := (drawTag s).2) rfl (postEvent_reported ..)
  · exact postEvent_reported ..

theorem postTests_reported (s : State) (units : List HwUnit) (arrays : List (HwUnit × Nat × Nat)) :
    Reported s (postTests s units arrays) := by
  unfold postTests
  refine Reported.trans ?_ (postLosses_reported ..)
  refine Reported.trans ?_ (foldl_reported _ _ postArrayTest_reported _)
  refine Reported.trans ?_ (postLosses_reported ..)
  split
  · exact markOut_reported s
  · exact .refl s

theorem Reported.boot {s t : State} (h : Reported s t) : t.boot = s.boot := by rw [h]
theorem Reported.topo {s t : State} (h : Reported s t) : t.topo = s.topo := by rw [h]
theorem Reported.mem {s t : State} (h : Reported s t) : t.mem = s.mem := by rw [h]

theorem setUsable_boot (s : State) (failed : List HwUnit) : (setUsable s failed).boot = s.boot := by
  unfold setUsable
  rw [foldl_keeps State.boot]
  exact fun _ _ => rfl

theorem setUsable_d2dDown (s : State) (failed : List HwUnit) : (setUsable s failed).topo.d2dDown = s.topo.d2dDown := by
  unfold setUsable
  rw [foldl_keeps fun s => s.topo.d2dDown]
  exact fun _ _ => rfl

theorem loseTargets_boot (s : State) (failed : List HwUnit) : (loseTargets s failed).boot = s.boot := by
  unfold loseTargets
  refine foldl_keeps State.boot _ (fun s u => ?_) _ _
  split
  · split <;> rfl
  · rfl

theorem placeSeg_boot (s : State) (x : Nat × Nat) : (placeSeg s x).boot = s.boot := by
  fun_cases placeSeg s x <;> rfl

theorem foldl_placeSeg_boot (l : List (Nat × Nat)) (s : State) : (l.foldl placeSeg s).boot = s.boot :=
  foldl_keeps State.boot placeSeg placeSeg_boot l s

theorem moveSegs_boot (s : State) : (moveSegs s).boot = s.boot :=
  foldl_placeSeg_boot ..

theorem foldl_updStack_boot (f : Nat → Stack → Stack) (l : List Nat) (s : State) :
    (l.foldl (fun s n => updStack s n (f n)) s).boot = s.boot :=
  foldl_keeps State.boot (fun s n => updStack s n (f n)) (fun _ _ => rfl) l s

theorem applyTests_boot (s : State) (failed : List HwUnit) (columns : List (Nat × Nat × W32)) :
    (applyTests s failed columns).boot = s.boot := by
  unfold applyTests
  with_reducible refine (moveSegs_boot _).trans ((foldl_updStack_boot (fun n x => { x with nbuBad := failedNbus failed n }) _ _).trans ?_)
  dsimp only
  rw [setUsable_boot, loseTargets_boot]

/-! ROM and IMAGE (R416, R426, R427). -/

theorem exec_phaseRom_failed {s : State} (h : inPhase s 1 = true) (puf : List Byte) : exec (.phaseRom false puf) s = .next (failStart s) := by
  change execPhaseRom false puf s = _
  simp [execPhaseRom, h]

/-- ROM takes the secret of area A, else of area B; IDSRC shows which. -/
theorem exec_phaseRom_reconstructs {s : State} (h : inPhase s 1 = true) (puf : List Byte) : ∃ t, exec (.phaseRom true puf) s = .next t ∧
    t = { s with boot := { s.boot with
      secret := t.boot.secret, ident := t.boot.secret.isSome, idsrc := t.boot.idsrc, phase := 2 } } ∧
    t.boot.secret = (secretFrom s puf 0).or (secretFrom s puf 1) ∧
    (t.boot.idsrc = 1 ↔ secretFrom s puf 0 = none ∧ (secretFrom s puf 1).isSome = true) := by
  change ∃ t, execPhaseRom true puf s = _ ∧ _
  simp only [execPhaseRom, h]
  cases secretFrom s puf 0 with
  | some x => exact ⟨_, rfl, rfl, rfl, by simp⟩
  | none =>
    cases secretFrom s puf 1 with
    | some x => exact ⟨_, rfl, rfl, rfl, by simp⟩
    | none => exact ⟨_, rfl, rfl, rfl, by simp⟩

theorem setSlotReg_boot (s : State) (n : Nat) (r : SlotReg) : ∃ a b, setSlotReg s n r = { s with boot := { s.boot with slotA := a, slotB := b } } := by
  unfold setSlotReg
  split
  · exact ⟨r, s.boot.slotB, rfl⟩
  · exact ⟨s.boot.slotA, r, rfl⟩

/-- The latch of the slots sets their two registers alone. -/
theorem latchSlots_frame (s : State) : ∃ a b, latchSlots s = { s with boot := { s.boot with slotA := a, slotB := b } } := by
  simp only [latchSlots, List.foldl_cons, List.foldl_nil]
  obtain ⟨a, b, h⟩ := setSlotReg_boot s 0 _
  rw [h]
  obtain ⟨c, d, h⟩ := setSlotReg_boot { s with boot := { s.boot with slotA := a, slotB := b } } 1 _
  rw [h]
  exact ⟨c, d, rfl⟩

theorem makeAlias_frame (b : Boot) (img : Image) : makeAlias b img = { b with
    hasAlias := (makeAlias b img).hasAlias, aliasKey := (makeAlias b img).aliasKey, aliasCert := (makeAlias b img).aliasCert
    secret := (makeAlias b img).secret } := by
  unfold makeAlias
  split <;> rfl

theorem exec_phaseImage_loads {s : State} (h : inPhase s 2 = true) {n : Nat} (hn : selectSlot (latchSlots s) = some n) :
    exec .phaseImage s = .next { latchSlots s with boot := { makeAlias (latchSlots s).boot (imageIn (latchSlots s) n) with
      image := imageIn (latchSlots s) n, loaded := true, slot := n, seqRunning := (imageIn (latchSlots s) n).sequence
      secret := none, phase := 3 } } := by
  change execPhaseImage s = _
  simp [execPhaseImage, h, hn]

theorem exec_phaseImage_fails {s : State} (h : inPhase s 2 = true) (hn : selectSlot (latchSlots s) = none) :
    ∃ b, exec .phaseImage s = .next (failStart { latchSlots s with boot := b }) := by
  change ∃ b, execPhaseImage s = _
  simp only [execPhaseImage, h, hn]
  exact ⟨_, rfl⟩

/-! POWER to TEST (R416, R417, R465). -/

theorem exec_phasePower_allOn {s : State} (h : inPhase s 3 = true) : exec (.phasePower []) s = .next { loadImage s with
    power := { (loadImage s).power with on := coreDomains ||| s.boot.image.domains }
    boot := { (loadImage s).boot with phase := 4 } } := by
  have hoff : maskOf 20 (fun _ => false) = 0#20 := by decide
  have hon (x : BitVec 20) : x &&& ~~~0#20 = x := BitVec.and_allOnes
  change execPhasePower [] s = _
  simp only [execPhasePower, h, List.filter_nil, List.not_mem_nil, decide_false, hoff, hon, List.flatMap_nil, postLosses_nil,
    BitVec.or_zero, Bool.or_false]
  rfl

theorem exec_phaseTrain_notes {s : State} (h : inPhase s 4 = true) (m x : List Nat) (g : List GroupTrain) : ∃ t,
    exec (.phaseTrain m x g) s = .next t ∧ t.boot.phase = 5 ∧ t.boot.trainStacks = x ∧ t.topo.d2dDown = m.filter fun n => decide (n < 24) := by
  change ∃ t, execPhaseTrain m x g s = _ ∧ _
  simp only [execPhaseTrain, h]
  refine ⟨_, rfl, ?_, ?_, ?_⟩
  · rw [(postLosses_reported ..).boot, setUsable_boot]
  · rw [(postLosses_reported ..).boot, setUsable_boot]
  · rw [(postLosses_reported ..).topo, setUsable_d2dDown]

theorem exec_phaseClear_clean {s : State} (h : inPhase s 5 = true) :
    exec (.phaseClear []) s = .next { s with mem := {}, poison := [], boot := { s.boot with phase := 6 } } := by
  change execPhaseClear [] s = _
  simp [execPhaseClear, h]

theorem exec_phaseClear_one {s : State} (h : inPhase s 5 = true) {l : Nat} (hl : l % line = 0) (hu : stackUsable s (dpaStack l) = true) :
    exec (.phaseClear [l]) s = .next (postEvent (poisonLine { s with mem := {}, poison := [], boot := { s.boot with phase := 6 } } l)
      1 (.stack (dpaStack l)) 1 (dpaOff l / line) 0) := by
  change execPhaseClear [l] s = _
  simp [execPhaseClear, h, hl, hu, addNew]

theorem exec_phaseTest_ends {s : State} (h : inPhase s 6 = true) (ht : s.boot.tested = false) (failed : List HwUnit)
    (columns : List (Nat × Nat × W32)) : ∃ t, exec (.phaseTest failed columns) s = .next t ∧ t.boot.tested = true ∧ t.boot.phase = 6 := by
  have hphase : s.boot.phase = 6 := by simpa [inPhase] using (Bool.and_eq_true_iff.1 h).1
  change ∃ t, execPhaseTest failed columns s = _ ∧ _
  simp only [execPhaseTest, h, ht]
  refine ⟨_, rfl, rfl, ?_⟩
  change (postTests _ _ _).boot.phase = 6
  rw [(postTests_reported ..).boot]
  split <;> exact (congrArg Boot.phase (applyTests_boot ..)).trans hphase

/-- Settles O15: each phase's equation. That CLEAR leaves zeros, and that a start that fails clears the secret, is the model's choice
(log 4, log 35). -/
theorem phasesFollowOneAnother : Obligations.PhasesFollowOneAnother := by
  refine fun s => ⟨fun h puf => ⟨exec_phaseRom_failed h puf, exec_phaseRom_reconstructs h puf⟩, fun h => ⟨fun n hn => ?loads, fun hn => ?fails⟩,
    exec_phasePower_allOn, exec_phaseTrain_notes, fun h => ⟨exec_phaseClear_clean h, fun l hl hu => ?line⟩, exec_phaseTest_ends⟩
  case loads =>
    obtain ⟨a, b, hlatch⟩ := latchSlots_frame s
    refine ⟨_, exec_phaseImage_loads h hn, rfl, rfl, rfl, rfl, rfl, ?_, ?_⟩
    · rw [makeAlias_frame, hlatch]
    · rw [hlatch]
  case fails =>
    obtain ⟨a, b, hlatch⟩ := latchSlots_frame s
    obtain ⟨bt, hexec⟩ := exec_phaseImage_fails h hn
    refine ⟨_, hexec, rfl, rfl, ?_⟩
    rw [hlatch]
    rfl
  case line =>
    refine ⟨_, exec_phaseClear_one h hl hu, ?_, ?_, ?_⟩
    · rw [(postEvent_reported ..).mem]
      rfl
    · rw [(postEvent_reported ..).poison]
      rfl
    · rw [(postEvent_reported ..).boot]
      rfl

end Sys2Proof.Machine
end

section
/-!
PROOFS. Readiness (O16).
-/

namespace Sys2Proof.Machine

/-! READINESS (R418). -/

/-- What readiness leaves as the phases before it left it. -/
def StartKept (s t : State) : Prop := t.boot = s.boot ∧ t.topo = s.topo ∧ t.mem = s.mem ∧ t.power = s.power

theorem StartKept.refl (s : State) : StartKept s s := ⟨rfl, rfl, rfl, rfl⟩

theorem StartKept.trans {s t u : State} (h : StartKept s t) (k : StartKept t u) : StartKept s u := by
  obtain ⟨hb, ht, hm, hp⟩ := h
  obtain ⟨kb, kt, km, kp⟩ := k
  exact ⟨kb.trans hb, kt.trans ht, km.trans hm, kp.trans hp⟩

theorem foldl_startKept {β : Type} (g : State → β → State) (hg : ∀ s x, StartKept s (g s x)) (l : List β) (s : State) :
    StartKept s (l.foldl g s) := by
  induction l generalizing s with
  | nil => exact .refl s
  | cons x l ih => exact (hg s x).trans (ih _)

theorem foldl_updQuad_startKept (f : Nat → Quad → Quad) (l : List Nat) (s : State) :
    StartKept s (l.foldl (fun s q => updQuad s q (f q)) s) :=
  foldl_startKept (fun s q => updQuad s q (f q)) (fun _ _ => ⟨rfl, rfl, rfl, rfl⟩) l s

theorem foldl_updStack_startKept (f : Nat → Stack → Stack) (l : List Nat) (s : State) :
    StartKept s (l.foldl (fun s n => updStack s n (f n)) s) :=
  foldl_startKept (fun s n => updStack s n (f n)) (fun _ _ => ⟨rfl, rfl, rfl, rfl⟩) l s

theorem loadPlan_startKept (s : State) : StartKept s (loadPlan s) := by
  unfold loadPlan
  split
  · exact .refl s
  · next x _ =>
    with_reducible refine StartKept.trans ?_ (foldl_updStack_startKept (fun n y => { y with phyRate := max y.phyRate (tgetD x.rates n 0) }) _ _)
    with_reducible refine StartKept.trans ?_ (foldl_updQuad_startKept (fun q y => { y with tileMhz := _ }) _ _)
    exact ⟨rfl, rfl, rfl, rfl⟩

/-- The state in which READINESS is reached, the margin plan taken up. -/
def planned (s : State) : State :=
  loadPlan { s with
    boot := { s.boot with phase := 7, ready := true }
    trace := { s.trace with recording := s.trace.rec_ && s.power.on.getLsbD domTRC, touched := false } }

theorem planned_startKept (s : State) : StartKept { s with boot := { s.boot with phase := 7, ready := true } } (planned s) :=
  StartKept.trans ⟨rfl, rfl, rfl, rfl⟩ (loadPlan_startKept _)

theorem becomeReady_eq (s : State) : becomeReady s = trainPorts (readyCtls (makePen0 (latchTopo (planned s)))) := rfl

theorem portOf_trainPorts (s : State) {p : Nat} (hp : p < 8) :
    (portOf (trainPorts s) p).st = if portEnabled s.boot.image p && s.power.on.getLsbD (domFL p) then 1 else 0 := by
  change (tget (List.map (fun p => (p, ({ st := 1, typ := portType s.boot.image p } : FPort))) _) p).st = _
  simp only [tget, tget?_map_keys fun p => ({ st := 1, typ := portType s.boot.image p } : FPort)]
  cases h : portEnabled s.boot.image p && s.power.on.getLsbD (domFL p) with
  | true =>
    rw [if_pos (List.mem_filter.2 ⟨List.mem_range.2 hp, h⟩)]
    rfl
  | false =>
    rw [if_neg (by simp [h])]
    rfl

theorem exec_readiness_ready {s : State} (h : inPhase s 6 = true) (ht : s.boot.tested = true) (hc : canStart s = true)
    (hr : rebuildsOver s = true) : exec .readiness s = .next (becomeReady s) := by
  change execReadiness s = _
  simp [execReadiness, h, ht, hc, hr, actWhen]

theorem exec_readiness_failed {s : State} (h : inPhase s 6 = true) (ht : s.boot.tested = true) (hc : canStart s = false) :
    exec .readiness s = .next (failStart s) := by
  change execReadiness s = _
  simp [execReadiness, h, ht, hc]

/-- Settles O16: READINESS latches what the tests left, and trains the ports that the image and the power give. -/
theorem readinessOpensTheNode : Obligations.ReadinessOpensTheNode := by
  intro s h ht
  refine ⟨fun hc hr => ⟨_, exec_readiness_ready h ht hc hr, ?ready⟩, exec_readiness_failed h ht, rfl, rfl, rfl⟩
  obtain ⟨hboot, htopo, hmem, hpower⟩ := planned_startKept s
  rw [becomeReady_eq]
  refine ⟨(congrArg Boot.phase hboot :), (congrArg Boot.ready hboot :), (congrArg (·.quadOk) htopo :), (congrArg (·.stackOk) htopo :),
    (congrArg (fun t => popCount 64 t.tileOk) htopo :), fun p hp => ?port, hmem, hpower⟩
  rw [portOf_trainPorts _ hp]
  change (if portEnabled (planned s).boot.image p && (planned s).power.on.getLsbD (domFL p) then 1 else 0) = _
  rw [hboot, hpower]

end Sys2Proof.Machine
end

section
/-!
PROOFS. Controls of the image slots (O21).
-/

namespace Sys2Proof.Machine

/-! Controls of the image slots (R434). -/

section
variable {s u : State} {c : Cmd} {b : KBlock} {n : Nat} (hn : canFetch s c = some n) (hu : u = s.afterKeyed c b n)
  (hresv : allZero b.resv = true) (hslot : karg b 0 1 ≤ 1)
include hn hu hresv hslot

theorem withSlot_accepted {code : Nat} {ok : Bool} (f : State → Nat → State) (ha : keyedAccepted s c b code onlyPen0 = true)
    (hok : ok = true) : withSlot s c b code ok f =
      .next (if karg b 0 1 = u.boot.slot then complete u c stInvalidField else f u (karg b 0 1)) := by
  subst hu
  exact withKeyedArgs_accepted _ hn ha (by simp [hok, hslot]) hresv

section
variable (hcur : karg b 0 1 = u.boot.slot)
include hcur

theorem withSlot_loaded {code : Nat} {ok : Bool} (f : State → Nat → State) (ha : keyedAccepted s c b code onlyPen0 = true)
    (hok : ok = true) : withSlot s c b code ok f = .next (complete u c stInvalidField) := by
  rw [withSlot_accepted hn hu hresv hslot f ha hok, if_pos hcur]

theorem exec_cfgErase_loaded (ha : keyedAccepted s c b 0x0200 onlyPen0 = true) (hok : allZero (sub b.args 1 31) = true) :
    exec (.cfgErase c b) s = .next (complete u c stInvalidField) := by
  change execCfgErase c b s = _
  rw [execCfgErase, withSlot_loaded hn hu hresv hslot hcur _ ha hok]

theorem exec_cfgWrite_loaded (ha : keyedAccepted s c b 0x0201 onlyPen0 = true) (hok : cfgWriteOk b = true) :
    exec (.cfgWrite c b) s = .next (complete u c stInvalidField) := by
  change execCfgWrite c b s = _
  rw [execCfgWrite, withSlot_loaded hn hu hresv hslot hcur _ ha hok]

theorem exec_cfgVerify_loaded (ha : keyedAccepted s c b 0x0202 onlyPen0 = true) (hok : allZero (sub b.args 1 31) = true) :
    exec (.cfgVerify c b) s = .next (complete u c stInvalidField) := by
  change execCfgVerify c b s = _
  rw [execCfgVerify, withSlot_loaded hn hu hresv hslot hcur _ ha hok]

theorem exec_cfgActivate_loaded (ha : keyedAccepted s c b 0x0203 onlyPen0 = true) (hok : allZero (sub b.args 1 31) = true) :
    exec (.cfgActivate c b) s = .next (complete u c stInvalidField) := by
  change execCfgActivate c b s = _
  rw [execCfgActivate, withSlot_loaded hn hu hresv hslot hcur _ ha hok]

end

section
variable (hother : karg b 0 1 ≠ u.boot.slot)
include hother

theorem withSlot_other {code : Nat} {ok : Bool} (f : State → Nat → State) (ha : keyedAccepted s c b code onlyPen0 = true)
    (hok : ok = true) : withSlot s c b code ok f = .next (f u (karg b 0 1)) := by
  rw [withSlot_accepted hn hu hresv hslot f ha hok, if_neg hother]

theorem exec_cfgErase_erases (ha : keyedAccepted s c b 0x0200 onlyPen0 = true) (hok : allZero (sub b.args 1 31) = true)
    (hreplay : u.trace.replay = false) : exec (.cfgErase c b) s =
      .next (complete (updSlot u (karg b 0 1) fun m => m.zero 0 slotBytesMax) c stSuccess) := by
  change execCfgErase c b s = _
  rw [execCfgErase, withSlot_other hn hu hresv hslot hother _ ha hok]
  simp [hreplay]

theorem exec_cfgErase_replay (ha : keyedAccepted s c b 0x0200 onlyPen0 = true) (hok : allZero (sub b.args 1 31) = true)
    (hreplay : u.trace.replay = true) : exec (.cfgErase c b) s = .next (completeFree u c) := by
  change execCfgErase c b s = _
  rw [execCfgErase, withSlot_other hn hu hresv hslot hother _ ha hok]
  simp [hreplay]

theorem exec_cfgWrite_programs {bytes : List Byte} (ha : keyedAccepted s c b 0x0201 onlyPen0 = true) (hok : cfgWriteOk b = true)
    (hreplay : u.trace.replay = false) (hread : readOp u 0 none (opRefOf (karg b 16 8)) 0 (karg b 8 4) = .ok bytes) :
    exec (.cfgWrite c b) s = .next (complete (updSlot u (karg b 0 1) fun m => m.write (karg b 4 4) bytes) c stSuccess) := by
  change execCfgWrite c b s = _
  rw [execCfgWrite, withSlot_other hn hu hresv hslot hother _ ha hok]
  simp [hreplay, hread]

theorem exec_cfgVerify_judges (ha : keyedAccepted s c b 0x0202 onlyPen0 = true) (hok : allZero (sub b.args 1 31) = true) :
    exec (.cfgVerify c b) s = .next (complete (setSlotReg u (karg b 0 1) (judgeSlot u (karg b 0 1))) c
      (if (judgeSlot u (karg b 0 1)).reason = 0 then stSuccess else stInvalidFirmwareImage)) := by
  change execCfgVerify c b s = _
  rw [execCfgVerify, withSlot_other hn hu hresv hslot hother _ ha hok]

theorem exec_cfgActivate_starts (ha : keyedAccepted s c b 0x0203 onlyPen0 = true) (hok : allZero (sub b.args 1 31) = true)
    (hreplay : u.trace.replay = false) (hgood : (judgeSlot u (karg b 0 1)).reason = 0)
    (hseq : u.boot.seqRunning < (imgHead u (karg b 0 1)).sequence) : exec (.cfgActivate c b) s =
      .next (startNode (complete (quiesceCold (setSlotReg u (karg b 0 1) (judgeSlot u (karg b 0 1)))) c stSuccess) 4) := by
  change execCfgActivate c b s = _
  rw [execCfgActivate, withSlot_other hn hu hresv hslot hother _ ha hok]
  simp [hreplay, hgood, Nat.not_le.2 hseq]

theorem exec_cfgActivate_replay (ha : keyedAccepted s c b 0x0203 onlyPen0 = true) (hok : allZero (sub b.args 1 31) = true)
    (hreplay : u.trace.replay = true) : exec (.cfgActivate c b) s = .next (completeFree u c) := by
  change execCfgActivate c b s = _
  rw [execCfgActivate, withSlot_other hn hu hresv hslot hother _ ha hok]
  simp [hreplay]

end

end

/-- Settles O21. That the controls of a replay complete with a free status is log 94's and log 14's reading. -/
theorem theImageIsUpdated : Obligations.TheImageIsUpdated := by
  refine ⟨?other, ?loaded⟩
  case other =>
    rintro s c b n _ u hn hu hresv rfl hslot hother
    refine ⟨exec_cfgErase_erases hn hu hresv hslot hother, fun bytes => exec_cfgWrite_programs hn hu hresv hslot hother,
      exec_cfgVerify_judges hn hu hresv hslot hother, exec_cfgActivate_starts hn hu hresv hslot hother, fun hreplay hok => ⟨fun ha => ?_, fun ha => ?_⟩⟩
    · exact exec_cfgErase_replay hn hu hresv hslot hother ha hok hreplay
    · exact exec_cfgActivate_replay hn hu hresv hslot hother ha hok hreplay
  case loaded =>
    intro s c b n u hn hu hresv hslot hcur
    exact ⟨fun hok => ⟨fun ha => exec_cfgErase_loaded hn hu hresv hslot hcur ha hok, fun ha => exec_cfgVerify_loaded hn hu hresv hslot hcur ha hok,
      fun ha => exec_cfgActivate_loaded hn hu hresv hslot hcur ha hok⟩, fun hok ha => exec_cfgWrite_loaded hn hu hresv hslot hcur ha hok⟩

end Sys2Proof.Machine
end

section
/-!
PROOFS. Pens are created, set, reset and destroyed (O22).
-/

namespace Sys2Proof.Machine

/-! Pens are created, set and reset (R352, R359, R365, R368). -/

section
variable {s u : State} {c : Cmd} {b : KBlock} {n : Nat} (hn : canFetch s c = some n) (hu : u = s.afterKeyed c b n)
  (hresv : allZero b.resv = true)

theorem penCreate_makes {v : Nat} (hfree : (penOf u (karg b 0 2)).alive = false) (hgen : (penOf u (karg b 0 2)).gen ≠ 0xFFFFFF)
    (hwin : karg b 16 8 + karg b 24 8 ≤ u.ftl.nsBlocks)
    (hfit : quotasFit u (karg b 0 2) (karg b 2 2) (karg b 6 2) (karg b 8 2) (karg b 12 2) = true) (hv : freeVecs u (karg b 4 2) = some v) :
    penCreate u c b = complete (giveVecs { u with pens := tput u.pens (karg b 0 2) (openDampers
      { alive := true, queues := karg b 2 2, vectors := karg b 4 2, taskUnits := karg b 6 2, baleGib := karg b 8 2
        poolPct := karg b 10 1, peerCtx := karg b 12 2, minClass := bits (karg b 11 1) 0 2, dclass := bits (karg b 11 1) 2 2, vbase := v
        gen := (penOf u (karg b 0 2)).gen + 1, winBase := karg b 16 8, winLen := karg b 24 8 }) } (karg b 0 2) v (karg b 4 2))
      c stSuccess := by
  simp only [penCreate, hfree, hgen, Nat.not_lt.2 hwin, hfit, hv, Bool.false_eq_true, or_self, if_false, Bool.not_true]

include hn hu hresv

theorem exec_penCreate (ha : keyedAccepted s c b 0x0001 onlyPen0 = true) (hargs : penArgsOk b.args = true) (hlow : 1 ≤ karg b 0 2)
    (hhigh : karg b 0 2 ≤ 255) (hlen : 1 ≤ karg b 24 8) : exec (.penCreate c b) s = .next (penCreate u c b) := by
  change execPenCreate c b s = _
  subst hu
  exact withKeyedArgs_accepted _ hn ha (by simp [hargs, hlow, hhigh, hlen]) hresv

theorem exec_penQuota_sets (ha : keyedAccepted s c b 0x0003 onlyPen0 = true) (hargs : quotaArgsOk b.args = true)
    (hhigh : karg b 0 2 ≤ 255) (halive : (penOf u (karg b 0 2)).alive = true) (hfit : quotaRaiseFits u (karg b 0 2) b.args = true) :
    exec (.penQuota c b) s = .next (complete (updPen u (karg b 0 2) fun x =>
      if x.resetting then { x with deferred := x.deferred ++ [.quota b.args] } else applyQuota x b.args) c stSuccess) := by
  change execPenQuota c b s = _
  subst hu
  rw [execPenQuota, withKeyedArgs_accepted _ hn ha (by simp [hargs, hhigh]) hresv]
  simp only [halive, hfit, Bool.not_true, Bool.false_eq_true, if_false]

theorem exec_penDamper_sets (ha : keyedAccepted s c b 0x0004 onlyPen0 = true) (hargs : damperArgsOk b.args = true)
    (hhigh : karg b 0 2 ≤ 255) (halive : (penOf u (karg b 0 2)).alive = true) :
    exec (.penDamper c b) s = .next (complete (updPen u (karg b 0 2) fun x =>
      if x.resetting then { x with deferred := x.deferred ++ [.damper b.args] } else applyDamper x b.args) c stSuccess) := by
  change execPenDamper c b s = _
  subst hu
  rw [execPenDamper, withKeyedArgs_accepted _ hn ha (by simp [hargs, hhigh]) hresv]
  simp only [halive, Bool.not_true, Bool.false_eq_true, if_false]

section
variable (halive : (penOf u (karg b 0 2)).alive = true) (hquiet : (penOf u (karg b 0 2)).resetting = false)
include halive hquiet

theorem exec_penReset_begins (ha : keyedAccepted s c b 0x0005 (fun q => q == 0 || q == karg b 0 2) = true) (hargs : penOnly b.args = true) :
    exec (.penReset c b) s = .next (beginPenReset u (karg b 0 2) [(c, false)]) := by
  change execPenReset c b s = _
  subst hu
  rw [execPenReset, withKeyedArgs_accepted _ hn ha hargs hresv]
  simp only [halive, hquiet, Bool.not_true, Bool.false_eq_true, if_false]

theorem exec_penDestroy_begins (ha : keyedAccepted s c b 0x0002 onlyPen0 = true) (hargs : penOnly b.args = true) (hp : karg b 0 2 ≠ 0) :
    exec (.penDestroy c b) s = .next (beginPenReset u (karg b 0 2) [(c, true)]) := by
  change execPenDestroy c b s = _
  subst hu
  rw [execPenDestroy, withKeyedArgs_accepted _ hn ha hargs hresv]
  simp only [halive, hquiet, hp, Bool.not_true, Bool.false_eq_true, or_self, if_false]

end

end

/-- Settles O22: each control's equation on the node that accepted it. -/
theorem pensAreCreatedAndSet : Obligations.PensAreCreatedAndSet := by
  rintro s c b n _ v u hn hu hresv rfl hhigh
  refine ⟨fun ha hargs hlow hlen hfree hgen hwin hfit hv => ?create, fun ha hargs => exec_penQuota_sets hn hu hresv ha hargs hhigh,
    fun ha hargs => exec_penDamper_sets hn hu hresv ha hargs hhigh, fun ha hargs halive hquiet w hw => ?reset,
    fun ha hargs hp halive hquiet w hw => ?destroy⟩
  case create => rw [exec_penCreate hn hu hresv ha hargs hlow hhigh hlen, penCreate_makes hfree hgen hwin hfit hv]
  case reset =>
    rw [exec_penReset_begins hn hu hresv halive hquiet ha hargs, hw]
    rfl
  case destroy =>
    rw [exec_penDestroy_begins hn hu hresv halive hquiet ha hargs hp, hw]
    rfl

end Sys2Proof.Machine
end

section
/-!
PROOFS. Pen, warm and cold resets (O23).
-/

namespace Sys2Proof.Machine

/-! Warm, cold and pen resets (R368, R369). -/

theorem foldl_ftl_frame {β : Type} (g : State → β → State) (hg : ∀ s x, ∃ f, g s x = { s with ftl := f }) (l : List β) (s : State) :
    ∃ f, l.foldl g s = { s with ftl := f } := by
  induction l generalizing s with
  | nil => exact ⟨s.ftl, rfl⟩
  | cons x l ih =>
    obtain ⟨f, hf⟩ := hg s x
    obtain ⟨f', hf'⟩ := ih (g s x)
    exact ⟨f', by rw [List.foldl_cons, hf', hf]⟩

/-- The sets of usable units change, and the channels with them. -/
theorem setUsable_frame (s : State) (failed : List HwUnit) : ∃ t f, setUsable s failed = { s with topo := t, ftl := f } := by
  unfold setUsable
  obtain ⟨f, hf⟩ := foldl_ftl_frame (fun s c => _) (fun s c => ⟨_, rfl⟩) (List.range 32) { s with topo := { s.topo with
    quadOk := maskOf 4 (quadGood s failed), stackOk := maskOf 20 (stackGood s failed), tileOk := maskOf 64 (tileGood s failed) } }
  exact ⟨_, f, hf⟩

/-- What a warm reset leaves (R367, R416). -/
theorem warmState_holds (s : State) : (warmState s).boot.phase = 5 ∧ (warmState s).boot.reason = 3 ∧ (warmState s).boot.ready = false ∧
    (warmState s).boot.k0 = none ∧ (warmState s).boot.session = false ∧ (warmState s).mem = {} ∧ (warmState s).pens = [] ∧
    (warmState s).drover.graphs = [] ∧ (warmState s).coh.deadHost = true := by
  unfold warmState
  obtain ⟨t, f, h⟩ := setUsable_frame (loadImage _) []
  rw [h]
  exact ⟨rfl, rfl, rfl, rfl, rfl, rfl, rfl, rfl, rfl⟩

/-- A start finds nothing of the node but the media (R466). -/
theorem startNode_holds (s : State) (reason : Nat) : (startNode s reason).boot = { phase := 1, reason := reason } ∧
    (startNode s reason).power.on = coreDomains ∧ (startNode s reason).pens = [] ∧ (startNode s reason).mem = {} ∧
    (startNode s reason).drover = {} ∧ (startNode s reason).port = {} :=
  ⟨rfl, rfl, rfl, rfl, rfl, rfl⟩

theorem exec_penResetEnd_ends {s : State} {p : Nat} (halive : (penOf s p).alive = true) (hreset : (penOf s p).resetting = true)
    (hsent : sentTasks s p = []) (hkeep : ((penOf s p).resetWait.any (·.2)) = false) :
    exec (.penResetEnd p) s = .next (sendAnswers (wake ((penOf s p).resetWait.foldl (fun x w => complete x w.1 stSuccess)
      (flushVecs (updPen (releasePen ((issuedTasks s p).foldl stopTask s) p) p applyDeferred) p)))) := by
  change execPenResetEnd p s = _
  simp only [execPenResetEnd, halive, hreset, hsent, hkeep, List.isEmpty_nil, Bool.not_true, Bool.or_self, Bool.false_eq_true, if_false]

/-- What becomes of one task that a warm reset ends (R369). -/
def endForWarm (s : State) (t : TaskId) : State := match taskOf s t with
  | some k => if k.st == .issued || k.st == .finished then stopTask s t else failTask s t stResetAborted
  | none => s

section
variable {s u : State} {c : Cmd} {b : KBlock} {n : Nat} (hn : canFetch s c = some n) (hu : u = s.afterKeyed c b n)
  (hresv : allZero b.resv = true) (hargs : allZero (sub b.args 2 30) = true) (hreplay : u.trace.replay = false)
include hn hu hresv hargs hreplay

theorem exec_warmReset_stops (ha : keyedAccepted s c b 0x0006 onlyPen0 = true) {w : State}
    (hw : w = { u with port := { u.port with stopped := true, warm := some c }, drover := { u.drover with stopped := true } }) :
    exec (.warmReset c b) s = .next (sendAnswers (((((allTasks w).filter fun x => x.2.2.st != .complete).map (·.1)).filter
      fun t => !decide (t ∈ (alivePens w).flatMap fun p => sentTasks w p.1)).foldl endForWarm w)) := by
  change execWarmReset c b s = _
  subst hu hw
  rw [execWarmReset, withKeyedArgs_accepted _ hn ha hargs hresv, if_neg (by rw [hreplay]; decide)]
  rfl

theorem exec_coldReset_starts (ha : keyedAccepted s c b 0x0007 onlyPen0 = true) :
    exec (.coldReset c b) s = .next (startNode (complete (quiesceCold u) c stSuccess) 2) := by
  change execColdReset c b s = _
  subst hu
  rw [execColdReset, withKeyedArgs_accepted _ hn ha hargs hresv, if_neg (by rw [hreplay]; decide)]

end

theorem exec_warmResetBegin_begins {s : State} {c : Cmd} (hw : s.port.warm = some c) (hq : quiesced s = true) : exec .warmResetBegin s =
    .next (warmState (complete (((s.flue.ctxs.filter fun x => x.2.st == 2).map (·.1)).foldl closeCtx s) c stSuccess)) := by
  change execWarmResetBegin s = _
  simp only [execWarmResetBegin, hw, hq, Bool.not_true, Bool.false_eq_true, if_false]

/-- Settles O23. That the tasks reach their stop points within PEN_RESET_END and WARM_RESET themselves is the model's choice (log 92). -/
theorem resetsRunToTheirEnd : Obligations.ResetsRunToTheirEnd := by
  refine ⟨fun s p => exec_penResetEnd_ends, fun x => ⟨rfl, rfl, rfl⟩, fun s c b n u hn hu hresv hargs =>
    ⟨fun ha hreplay w sent hw hsent => ?warm, fun ha hreplay => ⟨_, exec_coldReset_starts hn hu hresv hargs hreplay ha, startNode_holds ..⟩⟩,
    fun s c hw hq => ⟨_, exec_warmResetBegin_begins hw hq, warmState_holds _⟩⟩
  rw [exec_warmReset_stops hn hu hresv hargs hreplay ha hw, hsent]
  rfl

end Sys2Proof.Machine
end

section
/-!
PROOFS. Damper ticks and vectors (O24).
-/

namespace Sys2Proof.Machine

/-! Damper ticks (R363). -/

/-- What one tick leaves in a bucket: RATE × unit more, up to the cap. -/
def ticked (p : Pen) (k r : Nat) : Int :=
  if bktFree p k r then bktVal p k r else min (bktVal p k r + (bktRate p k r * rateUnit r : Nat)) (bktCap p k r)

/-- The tick of the bucket with key i. -/
def tickBucket (p : Pen) (i : Nat) : Pen := bktAdd p (i / 3) (i % 3) (bktRate p (i / 3) (i % 3) * rateUnit (i % 3) : Nat)

theorem tickPen_eq (p : Pen) : tickPen p = (List.range 12).foldl tickBucket p := rfl

theorem bktAdd_frame (p : Pen) (k r : Nat) (a : Int) : bktAdd p k r a = { p with buckets := (bktAdd p k r a).buckets } := by
  unfold bktAdd
  split <;> rfl

theorem bktVal_tickBucket_same (p : Pen) (k r : Nat) (hr : r < 3) : bktVal (tickBucket p (bktKey k r)) k r = ticked p k r := by
  have hk : bktKey k r / 3 = k := by simp only [bktKey]; omega
  have hm : bktKey k r % 3 = r := by simp only [bktKey]; omega
  rw [tickBucket, hk, hm, bktAdd, ticked]
  split
  · rfl
  · simp [bktVal, tgetD]

theorem bktVal_tickBucket_ne (p : Pen) (k r i : Nat) (hi : i ≠ bktKey k r) : bktVal (tickBucket p i) k r = bktVal p k r := by
  have hk : bktKey (i / 3) (i % 3) = i := by simp only [bktKey]; omega
  rw [tickBucket, bktAdd, hk]
  split
  · rfl
  · simp [bktVal, tgetD, tget?_tput_ne _ _ _ _ hi.symm]

/-- The tick of another bucket changes nothing that this one's tick looks at. -/
theorem ticked_tickBucket_ne (p : Pen) (k r i : Nat) (hi : i ≠ bktKey k r) : ticked (tickBucket p i) k r = ticked p k r := by
  have hval := bktVal_tickBucket_ne p k r i hi
  rw [tickBucket, bktAdd_frame] at hval ⊢
  simp only [ticked, hval]
  rfl

theorem bktVal_ticks (l : List Nat) (p : Pen) (k r : Nat) (hr : r < 3) (hl : l.Nodup) :
    bktVal (l.foldl tickBucket p) k r = if bktKey k r ∈ l then ticked p k r else bktVal p k r := by
  induction l generalizing p with
  | nil => rfl
  | cons i l ih =>
    obtain ⟨hil, hl⟩ := List.nodup_cons.1 hl
    rw [List.foldl_cons, ih _ hl]
    by_cases hi : i = bktKey k r
    · subst hi
      simp [hil, bktVal_tickBucket_same p k r hr]
    · simp [Ne.symm hi, ticked_tickBucket_ne p k r i hi, bktVal_tickBucket_ne p k r i hi]

theorem bktVal_tickPen (p : Pen) {k r : Nat} (hk : k < 4) (hr : r < 3) : bktVal (tickPen p) k r = ticked p k r := by
  rw [tickPen_eq, bktVal_ticks _ _ _ _ hr List.nodup_range, if_pos]
  simp only [bktKey, List.mem_range]
  omega

theorem exec_damperTick (s : State) :
    exec .damperTick s = .next { s with pens := tmap s.pens fun _ p => if p.alive then tickPen p else p } := rfl

theorem penOf_ticked {s t : State} (ht : t.pens = tmap s.pens fun _ p => if p.alive then tickPen p else p) {p : Nat}
    (halive : (penOf s p).alive = true) : penOf t p = tickPen (penOf s p) := by
  rw [penOf, ht]
  unfold penOf at halive ⊢
  unfold tget at halive ⊢
  rw [tget?_tmap]
  cases hx : tget? s.pens p with
  | none =>
    rw [hx] at halive
    cases halive
  | some x =>
    rw [hx] at halive
    exact if_pos halive

/-! Vectors (R362). -/

theorem exec_vectorTimeExpiry_sends {s : State} {v : Nat} (ha : (tget s.vecs v).assigned = true) (hp : 0 < (tget s.vecs v).pend)
    (ht : 0 < (tget s.vecs v).time) : exec (.vectorTimeExpiry v) s = .next (vecSend s v) := by
  change execVectorTimeExpiry v s = _
  simp [execVectorTimeExpiry, ha, hp, ht, actWhen]

/-- A masked vector keeps its message pending; another sends it. -/
theorem vecSend_eq (s : State) (v : Nat) : vecSend s v =
    if (tget s.vecs v).masked then { s with vecs := tput s.vecs v { tget s.vecs v with pend := 0, pba := true } }
    else { s with vecs := tput s.vecs v { tget s.vecs v with pend := 0 }, out := s.out ++ [.msix v] } := by
  unfold vecSend
  cases h : (tget s.vecs v).masked <;> simp [emit, h]

theorem exec_msixUnmask (s : State) (v : Nat) : exec (.msixUnmask v) s = .next { s with
    vecs := tput s.vecs v { tget s.vecs v with masked := false, pba := false }
    out := if (tget s.vecs v).pba then s.out ++ [.msix v] else s.out } := by
  change execMsixUnmask v s = _
  simp only [execMsixUnmask]
  split <;> rfl

theorem exec_penVmodWrite_sets {s : State} (w : W64) (hr : s.boot.ready = true) (ha : (tget s.vecs s.vsel).assigned = true) :
    exec (.penVmodWrite w) s = .next { s with
      vecs := tput s.vecs s.vsel { tget s.vecs s.vsel with thr := w.toNat % 256, time := w.toNat / 256 % 4096 } } := by
  change execPenVmodWrite w s = _
  simp [execPenVmodWrite, hr, ha, actWhen, bits]

/-- Settles O24: the buckets tick one by one; each vector command has one equation. -/
theorem ticksAndVectors : Obligations.TicksAndVectors := by
  intro s
  refine ⟨⟨_, exec_damperTick s, fun p k r hk hr halive => ?tick⟩, ?expiry, ?unmask, ?vmod⟩
  case tick =>
    rw [penOf_ticked rfl halive]
    exact bktVal_tickPen _ hk hr
  case expiry =>
    rintro v _ rfl ha hp ht
    rw [exec_vectorTimeExpiry_sends ha hp ht, vecSend_eq]
  case unmask =>
    rintro v _ rfl
    exact exec_msixUnmask s v
  case vmod =>
    rintro w _ rfl
    exact exec_penVmodWrite_sets w

end Sys2Proof.Machine
end

section
/-!
PROOFS. Controllers and doorbells (O25).
-/

namespace Sys2Proof.Machine

/-! Controllers (R419, R322). -/

theorem exec_controllerEnable_enables {s : State} {ctl : Nat} (asq asqs acq acqs : Nat) (hport : hostPortOn s = true)
    (hhere : ctl < 256 ∨ ctl < 512 ∧ s.topo.hostSplit = true) (hen : (ctlOf s ctl).en = false)
    (hpen : penOfCtl ctl = 0 ∨ s.boot.ready = true) :
    exec (.controllerEnable ctl asq asqs acq acqs) s = .next (enableCtl s ctl asq asqs acq acqs) := by
  change execControllerEnable ctl asq asqs acq acqs s = _
  simp only [execControllerEnable, actWhen, hport, hen]
  rw [if_pos (by simpa using ⟨hhere, hpen⟩)]

theorem exec_controllerReset_disables {s : State} {ctl : Nat} (hen : (ctlOf s ctl).en = true) :
    exec (.controllerReset ctl false) s = .next (clearCtl s ctl) := by
  change execControllerReset ctl false s = _
  simp only [execControllerReset, actWhen, hen, Bool.or_true, Bool.false_and, Bool.false_eq_true, if_true, if_false]

theorem exec_controllerReset_flr (s : State) (ctl : Nat) :
    exec (.controllerReset ctl true) s = .next (if penOfCtl ctl = 0 then stopRings (clearCtl s ctl) else clearCtl s ctl) := by
  change execControllerReset ctl true s = _
  simp only [execControllerReset, actWhen, Bool.true_or, Bool.true_and, beq_iff_eq, if_true]

/-! Doorbells (R323, R329, R335). -/

section
variable {s : State} {ctl : Nat}

theorem exec_sqTailDoorbell_covers {sq tail : Nat} {q : Sq} (writes : List (Nat × Byte)) (htakes : takesDoorbell s ctl = true)
    (hq : sqOf (ctlOf s ctl) sq = some q) : exec (.sqTailDoorbell ctl sq tail writes) s = .next { s with
      nfree := s.nfree + if tailOk q tail then 0 else 1
      hostMem := s.hostMem.sets (writes.map fun w => (hostKey (penOfCtl ctl) w.1, w.2))
      port := { s.port with ctls := tmod s.port.ctls ctl fun x => setSq x sq (coverSq q (if tailOk q tail then tail else freeTail q s.nfree)
        (coverage s (penOfCtl ctl) ctl sq)) } } := by
  change execSqTailDoorbell ctl sq tail writes s = _
  simp only [execSqTailDoorbell, htakes, hq, Bool.not_true, Bool.false_eq_true, if_false]
  cases tailOk q tail <;> rfl

/-- The free tail of a value that R349 forbids keeps R349 itself: k further entries lie within the room. -/
theorem tailOk_freeTail {q : Sq} (tag : Nat) (hsize : 0 < q.size) (hroom : q.covered - q.fetched < q.size) :
    tailOk q (freeTail q tag) = true := by
  have hk : (Config.freeWord tag).toNat % (q.size - 1 - (q.covered - q.fetched) + 1) ≤ q.size - 1 - (q.covered - q.fetched) := by
    exact Nat.lt_succ_iff.1 (Nat.mod_lt _ (Nat.succ_pos _))
  simp only [tailOk, freeTail, newEntries, decide_eq_true_eq, Nat.max_eq_left (Nat.succ_le_of_lt hsize)]
  generalize (Config.freeWord tag).toNat % (q.size - 1 - (q.covered - q.fetched) + 1) = k at hk ⊢
  have hc : q.covered % q.size < q.size := Nat.mod_lt _ hsize
  refine ⟨Nat.mod_lt _ hsize, ?_⟩
  suffices hnew : ((q.covered + k) % q.size + q.size - q.covered % q.size) % q.size = k by omega
  rw [Nat.add_mod, Nat.mod_eq_of_lt (a := k) (by omega)]
  by_cases hwrap : q.covered % q.size + k < q.size
  · rw [Nat.mod_eq_of_lt hwrap, show q.covered % q.size + k + q.size - q.covered % q.size = k + q.size by omega, Nat.add_mod_right,
      Nat.mod_eq_of_lt (by omega)]
  · have hsum : (q.covered % q.size + k) % q.size = q.covered % q.size + k - q.size := by
      rw [Nat.mod_eq_sub_mod (Nat.not_lt.1 hwrap), Nat.mod_eq_of_lt (by omega)]
    rw [hsum, show q.covered % q.size + k - q.size + q.size - q.covered % q.size = k by omega, Nat.mod_eq_of_lt (by omega)]

section
variable {cq head : Nat} {q : Cq} (htakes : takesDoorbell s ctl = true) (hq : cqOf (ctlOf s ctl) cq = some q)
include htakes hq

theorem exec_cqHeadDoorbell_frees (hhead : head < q.size) : exec (.cqHeadDoorbell ctl cq head) s =
    .next (drainCq (updCtl s ctl fun x => setCq x cq { q with head := head }) ctl cq q.waiting.length) := by
  change execCqHeadDoorbell ctl cq head s = _
  simp only [execCqHeadDoorbell, htakes, hq, hhead, decide_true, Bool.not_true, Bool.false_eq_true, if_false, if_true]

theorem exec_cqHeadDoorbell_free (hhead : q.size ≤ head) : exec (.cqHeadDoorbell ctl cq head) s =
    .next (drainCq (updCtl { s with nfree := s.nfree + 1 } ctl fun x =>
      setCq x cq { q with head := (Config.freeWord s.nfree).toNat % max q.size 1 }) ctl cq q.waiting.length) := by
  change execCqHeadDoorbell ctl cq head s = _
  simp only [execCqHeadDoorbell, htakes, hq, Nat.not_lt.2 hhead, decide_false, Bool.not_true, Bool.false_eq_true, if_false]
  rfl

end

theorem exec_recordQueueHeadDoorbell_frees {sq head : Nat} {q : Sq} (hup : ctlUp s ctl = true) (hq : tget? (ctlOf s ctl).sqs sq = some q)
    (hskex : q.skex = true) (hhead : rqHeadOk q.rq head = true) : exec (.recordQueueHeadDoorbell ctl sq head) s =
    .next (sendOwed (drainRq (updCtl s ctl fun x => { x with
      sqs := tupd x.sqs sq fun y => { y with rq := { y.rq with head := head } } }) ctl sq q.rq.waiting.length)) := by
  change execRecordQueueHeadDoorbell ctl sq head s = _
  simp only [execRecordQueueHeadDoorbell, hup, hq, hskex, hhead, Bool.not_true, Bool.false_eq_true, if_false, if_true]

end

/-- Settles O25. What a doorbell value that R349 forbids does is the model's choice (log 134). -/
theorem controllersAndDoorbells : Obligations.ControllersAndDoorbells := by
  intro s ctl
  refine ⟨fun asq asqs acq acqs => exec_controllerEnable_enables asq asqs acq acqs, exec_controllerReset_disables, exec_controllerReset_flr s ctl,
    ?tail, fun q tag => tailOk_freeTail tag, fun cq head q htakes hq =>
      ⟨exec_cqHeadDoorbell_frees htakes hq, exec_cqHeadDoorbell_free htakes hq⟩,
    fun sq head q => exec_recordQueueHeadDoorbell_frees⟩
  rintro sq tail q writes htakes hq _ _ rfl rfl
  exact exec_sqTailDoorbell_covers writes htakes hq

end Sys2Proof.Machine
end

section
/-!
PROOFS. COPY, fill and ring channels (O37, O39).
-/

namespace Sys2Proof.Machine

/-! COPY and fill (R376, R67). -/

section
variable {s : State} {t : TaskId} {g : Graph} {k : Task} (hrun : k.run = .none) (hbad : copyBad k = false)
  (hcut : hostCut s (opd k 1) = false) (hhome : borrowedOf s g.pen (opd k 1) = none)
include hrun hbad hcut hhome

theorem exec_copy_moves {bs : List Byte} (ht : running s t 0x04 (some 0) = some (g, k)) (hsrc : hostCut s (opd k 0) = false)
    (hsettled : operandUnsettled s g (opd k 0) (par k 0 40) = []) (hown : borrowedOf s g.pen (opd k 0) = none)
    (hpoison : poisonRuns s g (opd k 0) (par k 0 40) = []) (hread : readOp s g.pen (some g) (opd k 0) 0 (par k 0 40) = .ok bs)
    (hover : overlap (opd k 0) (par k 0 40) (opd k 1) (par k 0 40) = false) :
    exec (.copy t) s = .next (copyOut s t g k (par k 0 40) bs) := by
  have hnone : (k.run != .none) = false := by simp [hrun]
  change execCopy t s = _
  simp only [execCopy, ht, hnone, hbad, hcut, hhome, hsrc, hsettled, hown, hpoison, hread, hover, Bool.or_self, Bool.false_eq_true, if_false,
    List.isEmpty_nil, Bool.not_true]

theorem exec_fill_writes (ht : running s t 0x04 (some 1) = some (g, k)) : exec (.fill t) s =
    .next (copyOut s t g k (par k 0 40) (List.replicate (par k 0 40) (BitVec.ofNat 8 (par k 40 8)))) := by
  have hnone : (k.run != .none) = false := by simp [hrun]
  change execFill t s = _
  simp only [execFill, ht, hnone, hbad, hcut, hhome, Bool.false_eq_true, if_false]

end

/-- Away from a region the bytes are written at once, and the task ends. -/
theorem copyOut_finishes {s : State} {t : TaskId} {g : Graph} {k : Task} {n : Nat} {bs : List Byte}
    (h : regionWrites (modTask s t fun x => { x with result := n, wrote := true }) g (opd k 1) bs = []) : copyOut s t g k n bs =
      modTask (finishTask (writeOp (modTask s t fun x => { x with result := n, wrote := true }) t g.pen k.quad (some g) (opd k 1) 0 bs)
        t stSuccess n) t fun x => { x with usedStack := stackPart s g (opd k 0) (if k.sub = 0 then n else 0) + stackPart s g (opd k 1) n } := by
  simp only [copyOut, h, List.isEmpty_nil, if_true]

/-- Settles O37: both commands lead to copyOut. -/
theorem copiesAndFillsFinish : Obligations.CopiesAndFillsFinish := by
  rintro s t g k _ _ bs _ hrun hbad rfl hcut hhome hregion rfl rfl
  refine ⟨fun ht _ hsrc hsettled hown hpoison hread hover => ?copy, fun ht _ hbytes => ?fill⟩
  case copy => rw [exec_copy_moves hrun hbad hcut hhome ht hsrc hsettled hown hpoison hread hover, copyOut_finishes hregion]
  case fill => rw [exec_fill_writes hrun hbad hcut hhome ht, ← hbytes, copyOut_finishes hregion]

/-! Ring channels (R380 to R388). -/

/-- Two changes of a channel that agree on its present state are one. -/
theorem updDma_congr {s : State} {n : Nat} {f g : Dma → Dma} (h : f (dmaOf s n) = g (dmaOf s n)) : updDma s n f = updDma s n g := by
  unfold updDma tmod
  unfold dmaOf at h
  rw [h]

section
variable {s : State} {n : Nat} (hring : ringChan s n = true)
include hring

theorem exec_dmaEnable_enables (hin : (dmaOf s n).inService = true) : exec (.dmaEnable n) s = .next (enableDma s n) := by
  change execDmaEnable n s = _
  simp [execDmaEnable, actWhen, hring, hin]

theorem exec_dmaStop_stops (hen : (dmaOf s n).en = true) : exec (.dmaStop n) s = .next (stopDma s n) := by
  change execDmaStop n s = _
  simp [execDmaStop, actWhen, hring, hen]

theorem exec_dmaRestart (skip : Bool) :
    exec (.dmaRestart n skip) s = .next (if (dmaOf s n).halted then restartDma s n skip else s) := by
  change execDmaRestart n skip s = _
  simp [execDmaRestart, actWhen, hring]

theorem exec_dmaTest_wants (hin : (dmaOf s n).inService = true) :
    exec (.dmaTest n) s = .next (updDma s n fun d => { d with testWanted := true, testing := dmaQuiet d }) := by
  change execDmaTest n s = _
  simp [execDmaTest, actWhen, hring, hin]

theorem exec_dmaDoorbell_fetches (writes : List (Nat × Byte)) (hen : (dmaOf s n).en = true) (hin : (dmaOf s n).inService = true) :
    exec (.dmaDoorbell n writes) s = .next (updDma { s with hostMem := s.hostMem.sets writes } n fun d => { d with idle := false }) := by
  change execDmaDoorbell n writes s = _
  have hring' : ringChan { s with hostMem := s.hostMem.sets writes } n = true := hring
  have hact : (ringChan { s with hostMem := s.hostMem.sets writes } n && (dmaOf s n).en && (dmaOf s n).inService) = true := by
    rw [hring', hen, hin]
    rfl
  exact congrArg Host.Outcome.next (if_pos hact)

theorem exec_dmaCqheadWrite (v : W32) :
    exec (.dmaCqheadWrite n v) s = .next (retire1 (updDma s n fun d => { d with cqhead := v.toNat % 65536 }) n) := by
  change execDmaCqheadWrite n v s = _
  simp [execDmaCqheadWrite, actWhen, hring]

end

theorem exec_dmaTestDone_passed {s : State} {n : Nat} (ht : (dmaOf s n).testing = true) :
    exec (.dmaTestDone n false) s = .next (updDma s n fun d => { d with testing := false, testWanted := false }) := by
  change execDmaTestDone n false s = _
  simp [execDmaTestDone, ht]

section
variable {s : State} {n : Nat} (hring : ringChan s n = true) (hen : (dmaOf s n).en = true) (hin : (dmaOf s n).inService = true)
  (hhalt : (dmaOf s n).halted = false)

section
variable (hidle : (dmaOf s n).idle = false)
include hring hen hin hhalt hidle

theorem exec_descriptorFetchDone_fetches :
    exec (.descriptorFetchDone n) s = .next (updDma s n fun d => fetchDescs s d (16 - d.descs.length)) := by
  change execDescriptorFetchDone n s = _
  simp [execDescriptorFetchDone, actWhen, hring, hen, hin, hhalt, hidle]

end

/-- The fetch ends at the first descriptor without OWN (R381). -/
theorem fetchDescs_idle {s : State} {d : Dma} {k : Nat} (hk : 0 < k) (hown : ownBit (descrAt s d d.head) = false) :
    fetchDescs s d k = { d with idle := true } := by
  cases k with
  | zero => contradiction
  | succ k => simp [fetchDescs, hown]

/-- A running channel with a clear latch halts at the failing descriptor (R385). -/
theorem haltDma_first (i : Nat) (e : BusErr) (hhalt : (dmaOf s n).halted = false) (hvalid : (dmaOf s n).errValid = false) :
    haltDma s n i e = updDma s n fun d => { d with
      errValid := true, errMulti := false, errAddr := e.addr, errWrite := e.write, errKind := e.kind, errTarget := e.target
      errIndex := i, errPen := 0, halted := true, failIdx := i, inFlight := without ((runningDescs d.descs).map (·.idx)) i } := by
  refine updDma_congr ?_
  simp only [hhalt, hvalid, latchDma, Bool.not_false, Bool.false_eq_true, if_true, if_false]

include hring hen hin in
theorem exec_busError_halts (i : Nat) (e : BusErr) : exec (.busError n i none e) s = .next (haltDma s n i e) := by
  change execBusError n i none e s = _
  simp only [execBusError, busErrorOn, hring, hen, hin, Bool.and_self, if_true]

include hring hen hin hhalt in
theorem exec_descriptorComplete_reports {i : Nat} {x : Descr} (hmode : (dmaOf s n).mode = true)
    (hx : (runningDescs (dmaOf s n).descs).find? (fun y => y.idx == i) = some x) (hbad : descBad x = false) (hover : descOverlap x = false)
    (herr : descRangeErr s x = none) (hmoved : x.moved = false) (hsettled : descUnsettled s x = [])
    (hopen : writesOpen (runDescr s (descKey n i) x).1 (descKey n i) = false) :
    exec (.descriptorComplete n i) s = .next (retire1 (updDma (runDescr s (descKey n i) x).1 n fun d => { d with
      descs := d.descs.map fun y => if y.idx = i then
        { y with fin := true, status := (runDescr s (descKey n i) x).2.1, bytes := (runDescr s (descKey n i) x).2.2 } else y }) n) := by
  change execDescriptorComplete n i s = _
  simp only [execDescriptorComplete, hring, hen, hin, hhalt, hmode, hx, hbad, hover, herr, hmoved, hsettled, hopen, Bool.and_self, Bool.not_true,
    Bool.false_and, Bool.or_self, Bool.false_eq_true, if_false, List.isEmpty_nil]

end

/-- Settles O39. EN = 1 on a running or halted channel starts it as on a stopped one, which is the model's choice (log 25). -/
theorem ringChannelsRun : Obligations.RingChannelsRun := by
  intro s n hring
  refine ⟨exec_dmaEnable_enables hring, exec_dmaStop_stops hring, fun skip => ⟨fun h => ?restart, fun h => ?running⟩,
    exec_dmaTest_wants hring, exec_dmaTestDone_passed, exec_dmaDoorbell_fetches hring, exec_dmaCqheadWrite hring,
    fun hen hin hhalt hidle hroom => ⟨exec_descriptorFetchDone_fetches hring hen hin hhalt hidle, fun hown => ?idle⟩,
    fun i e hen hin hhalt hvalid => ?halt, ?complete⟩
  case restart => rw [exec_dmaRestart hring, if_pos h]
  case running => rw [exec_dmaRestart hring, if_neg (by simp [h])]
  case idle =>
    rw [exec_descriptorFetchDone_fetches hring hen hin hhalt hidle, updDma_congr]
    exact fetchDescs_idle (by omega) hown
  case halt => rw [exec_busError_halts hring hen hin, haltDma_first i e hhalt hvalid]
  case complete =>
    rintro i x _ hen hin hhalt hmode hx hbad hover herr hmoved hsettled rfl hopen
    exact exec_descriptorComplete_reports hring hen hin hhalt hmode hx hbad hover herr hmoved hsettled hopen

end Sys2Proof.Machine
end

section
/-!
PROOFS. What descriptors do (O40).
-/

namespace Sys2Proof.Machine

/-! What a descriptor does between host ranges (R380, R382). -/

theorem hostWrite_unrecorded {s : State} (stream a : Nat) (bs : List Byte) (hp : s.trace.replay = false) (ho : s.trace.out_ = false) :
    hostWrite s stream a bs = { s with hostMem := s.hostMem.write a bs } := by
  simp [hostWrite, hp, ho]

theorem spaceWrite_host {s : State} (t : Option TaskId) (a : Nat) (bs : List Byte) (hp : s.trace.replay = false)
    (ho : s.trace.out_ = false) : spaceWrite s t false a bs = { s with hostMem := s.hostMem.write a bs } := by
  rw [spaceWrite, if_neg Bool.false_ne_true, hostWrite_unrecorded _ _ _ hp ho]

theorem Mem.read_length (m : Mem) (a n : Nat) : (m.read a n).length = n := by
  simp [Mem.read]

theorem Mem.read_getElem? (m : Mem) (a : Nat) {n i : Nat} (h : i < n) : (m.read a n)[i]? = some (m.byte (a + i)) := by
  simp [Mem.read, h]

section
variable {s : State} (key : TaskId) {x : Descr} (hp : s.trace.replay = false) (ho : s.trace.out_ = false)

include hp ho in
theorem runDescr_copy (hop : descOp x = 0) (hsrc : bit x.flags 1 = false) (hdst : bit x.flags 2 = false) :
    runDescr s key x = ({ s with hostMem := s.hostMem.write x.dst (s.hostMem.read x.src x.len) }, stSuccess, x.len) := by
  simp only [runDescr, hop, hsrc, hdst, Bool.false_and, Bool.false_eq_true, if_false, spaceWrite_host _ _ _ hp ho, spaceRead]

include hp ho in
theorem runDescr_fill (hop : descOp x = 1) (hdst : bit x.flags 2 = false) : runDescr s key x =
    ({ s with hostMem := s.hostMem.write x.dst ((List.range x.len).map fun i => nth (le 8 x.src) (i % 8) 0) }, stSuccess, x.len) := by
  simp only [runDescr, hop, hdst, spaceWrite_host _ _ _ hp ho]

/-- A compare's outcome, by the first difference of the two ranges. -/
def compareOutcome (x : Descr) (first : Option Nat) : Nat × Nat := match first with
  | some i => (stCompareFailure, i)
  | none => (stSuccess, x.len)

theorem runDescr_compare (hop : descOp x = 2) (hsrc : bit x.flags 1 = false) (hdst : bit x.flags 2 = false) :
    runDescr s key x = (s, compareOutcome x (firstDiff (s.hostMem.read x.src x.len) (s.hostMem.read x.dst x.len) 0)) := by
  simp only [runDescr, hop, hsrc, hdst, Bool.false_and, Bool.or_self, Bool.false_eq_true, if_false, spaceRead]
  cases firstDiff (s.hostMem.read x.src x.len) (s.hostMem.read x.dst x.len) 0 <;> rfl

end

theorem firstDiff_self (l : List Byte) (k : Nat) : firstDiff l l k = none := by
  induction l generalizing k with
  | nil => rfl
  | cons a l ih => rw [firstDiff, if_pos rfl, ih]

/-- Lists that agree below an index and differ at it differ first there. -/
theorem firstDiff_eq_some {l m : List Byte} {i : Nat} (k : Nat) (hl : i < l.length) (hm : i < m.length) (hsame : ∀ j, j < i → l[j]? = m[j]?)
    (hdiff : l[i]? ≠ m[i]?) : firstDiff l m k = some (k + i) := by
  induction l generalizing m i k with
  | nil => cases hl
  | cons a l ih =>
    cases m with
    | nil => cases hm
    | cons b m =>
      cases i with
      | zero =>
        rw [firstDiff, if_neg fun h => hdiff (by simp [h])]
        rfl
      | succ i =>
        have hab : a = b := by simpa using hsame 0 (Nat.succ_pos i)
        rw [firstDiff, if_pos hab, ih (k + 1) (Nat.lt_of_succ_lt_succ hl) (Nat.lt_of_succ_lt_succ hm)
          (fun j hj => by simpa using hsame (j + 1) (Nat.succ_lt_succ hj)) (by simpa using hdiff)]
        congr 1
        omega

/-- Settles O40: the equation of each operation, then what a written memory reads as and where two ranges first differ. -/
theorem descriptorsMoveTheirBytes : Obligations.DescriptorsMoveTheirBytes := by
  intro s key x _ hp ho
  refine ⟨fun hop hsrc hdst => ?copy, fun hop hdst => ?fill, fun hop hsrc hdst => ?compare⟩
  case copy =>
    rw [runDescr_copy key hp ho hop hsrc hdst]
    refine ⟨fun i hi => ?_, fun b hb => ?_, rfl⟩
    · rw [Mem.write_byte_in _ _ _ _ (by rwa [Mem.read_length]), List.getD_eq_getElem?_getD, Mem.read_getElem? _ _ hi]
      rfl
    · exact Mem.write_byte_frame _ _ (by rw [Mem.read_length]; omega)
  case fill =>
    rw [runDescr_fill key hp ho hop hdst]
    refine ⟨fun i hi => ?_, rfl⟩
    rw [Mem.write_byte_in _ _ _ _ (by simpa using hi)]
    simp [hi, nth_eq_getD]
  case compare =>
    rw [runDescr_compare key hop hsrc hdst]
    refine ⟨rfl, fun hsame => ?_, fun i hi hdiff hsame => ?_⟩
    · have hread : s.hostMem.read x.src x.len = s.hostMem.read x.dst x.len :=
        List.map_congr_left fun i hi => hsame i (List.mem_range.1 hi)
      rw [hread, firstDiff_self]
      rfl
    · rw [firstDiff_eq_some 0 (i := i) (by rwa [Mem.read_length]) (by rwa [Mem.read_length]) (fun j hj => ?_) ?_, Nat.zero_add]
      · rfl
      · rw [Mem.read_getElem? _ _ hi, Mem.read_getElem? _ _ hi]
        simpa using hdiff
      · rw [Mem.read_getElem? _ _ (Nat.lt_trans hj hi), Mem.read_getElem? _ _ (Nat.lt_trans hj hi), hsame j hj]

end Sys2Proof.Machine
end

section
/-!
PROOFS. Writes of a task land at the home (O38).
-/

namespace Sys2Proof.Machine

/-! A task's write to stack memory (R227, R232, R376). -/

/-- The state with the bytes charged to the task. -/
def charged (s : State) (t : TaskId) (bs : List Byte) : State :=
  modTask s t fun k => { k with wrote := true, usedStack := k.usedStack + bs.length }

theorem writeStack_eq (s : State) (a : Nat) {bs : List Byte} (h : bs ≠ []) : writeStack s a bs = { s with
    mem := s.mem.write a bs, poison := s.poison.filter fun l => !(decide (a ≤ l ∧ l + line ≤ a + bs.length)) } := by
  simp [writeStack, h]

theorem agentWrite_idle {s : State} (t : Option TaskId) (agent : Nat) {a : Nat} {bs : List Byte} (h : busyLines s a bs.length = []) :
    agentWrite s t agent a bs = writeStack s a bs := by
  simp [agentWrite, h]

/-- A write that one segment of the stacks takes: the bytes at its address, then the note in the copy, where there is one. -/
theorem writeOp_stack {s : State} {t : TaskId} {p quad a : Nat} {g : Graph} {op : OpRef} {bs : List Byte} (hbs : bs ≠ [])
    (hsegs : segs (charged s t bs) p (some { g with view := some (t, quad) }) op 0 bs.length = [(.stk a, bs.length)])
    (hbusy : busyLines (charged s t bs) a bs.length = []) :
    writeOp s t p quad (some g) op 0 bs = noteRun { charged s t bs with
        mem := s.mem.write a bs, poison := s.poison.filter fun l => !(decide (a ≤ l ∧ l + line ≤ a + bs.length)) } t op
      (0, bs.length, .stk a, viewCopy (charged s t bs) p (some { g with view := some (t, quad) }) op 0) := by
  have hwrite : writeSeg (charged s t bs) (some t) (taskAgent (charged s t bs) t) (.stk a) bs = { charged s t bs with
      mem := s.mem.write a bs, poison := s.poison.filter fun l => !(decide (a ≤ l ∧ l + line ≤ a + bs.length)) } := by
    rw [writeSeg, agentWrite_idle _ _ hbusy, writeStack_eq _ _ hbs]
    rfl
  unfold charged at hsegs hwrite
  simp only [writeOp, Option.map_some, hsegs, runsGo, List.foldl_cons, List.foldl_nil, Nat.sub_self, List.drop_zero, List.take_length, hwrite]
  rfl

/-- A note in a copy changes the list of copies alone. -/
theorem noteRun_frame (s : State) (t : TaskId) (op : OpRef) (x : Nat × Nat × Seg × Option BaleCopy) :
    noteRun s t op x = { s with drover := { s.drover with copies := (noteRun s t op x).drover.copies } } := by
  unfold noteRun
  split <;> rfl

theorem noteRun_home {s : State} {t : TaskId} {op : OpRef} {x : Nat × Nat × Seg × Option BaleCopy} (h : x.2.2.2 = none) :
    noteRun s t op x = s := by
  simp [noteRun, h]

theorem noteRun_copy {s : State} {t : TaskId} {op : OpRef} {x : Nat × Nat × Seg × Option BaleCopy} {c : BaleCopy} (h : x.2.2.2 = some c) :
    noteRun s t op x = modCopy s c.num fun c => { c with
      st := if c.st == .writing then .writing else .dirty, dirty := c.dirty ++ [(t, (firstOff op + x.1) % bale, x.2.1)] } := by
  simp [noteRun, h]

/-- Settles O38. That a direct write to a line which the directory does not hold lands at once is the model's choice (log 9). -/
theorem writesLandAtTheHome : Obligations.WritesLandAtTheHome := by
  rintro s _ _ t p quad a g _ op bs _ hbs rfl rfl hsegs hbusy rfl
  rw [writeOp_stack hbs hsegs hbusy]
  refine ⟨fun i hi => ?within, fun b hb => ?outside, ?host, ?sram, ?pens, fun hnone => ?home, fun c hc _ => ?copy⟩
  case within =>
    rw [noteRun_frame]
    exact Mem.write_byte_in _ _ _ _ hi
  case outside =>
    rw [noteRun_frame]
    exact Mem.write_byte_frame _ _ (by omega)
  case host => rw [noteRun_frame]; rfl
  case sram => rw [noteRun_frame]; rfl
  case pens => rw [noteRun_frame]; rfl
  case home =>
    rw [noteRun_home hnone]
    rfl
  case copy =>
    rw [noteRun_copy hc]
    rfl

end Sys2Proof.Machine
end

section
/-!
PROOFS. Byte fields and messages cut into flits (O56).
-/

namespace Sys2Proof.Machine

/-! Little-endian fields of a structure made of fields (R8). -/

theorem ofLe_le (n v : Nat) (h : v < 256 ^ n) : ofLe (le n v) = v := by
  induction n generalizing v with
  | zero =>
    rw [Nat.pow_zero] at h
    have hv : v = 0 := by omega
    rw [hv]
    rfl
  | succ n ih =>
    have hdiv : v / 256 < 256 ^ n := Nat.div_lt_of_lt_mul (by rwa [Nat.pow_succ, Nat.mul_comm] at h)
    rw [le, ofLe, ih _ hdiv, BitVec.toNat_ofNat]
    omega

theorem drop_le_append {k v off : Nat} {r : List Byte} (h : k ≤ off) : (le k v ++ r).drop off = r.drop (off - k) := by
  rw [List.drop_append, List.drop_of_length_le (by rwa [le_length]), List.nil_append, le_length]

/-- A field behind one already read. -/
theorem fieldAt_le_skip {k v off n : Nat} {r : List Byte} (h : k ≤ off) : fieldAt (le k v ++ r) off n = fieldAt r (off - k) n := by
  simp only [fieldAt, sub, drop_le_append h]

/-- The first field of a structure. -/
theorem fieldAt_le {n v : Nat} (r : List Byte) (h : v < 256 ^ n) : fieldAt (le n v ++ r) 0 n = v := by
  have htake : (le n v ++ r).take n = le n v := by
    rw [List.take_append_of_le_length (by rw [le_length]), List.take_of_length_le (by rw [le_length])]
  rw [fieldAt, sub, List.drop_zero, htake, le_length, Nat.sub_self, List.replicate_zero, List.append_nil, ofLe_le n v h]

theorem bits_of_lt {v w : Nat} (h : v < 2 ^ w) : bits v 0 w = v := by
  rw [bits, Nat.pow_zero, Nat.div_one, Nat.mod_eq_of_lt h]

/-! Lists cut into pieces. -/

section
variable {α : Type} {n : Nat} (hn : 0 < n)
include hn

theorem chunksGo_flatten (f : Nat) (l : List α) (h : l.length ≤ f) : (chunksGo f n l).flatten = l := by
  induction f generalizing l with
  | zero => rw [List.length_eq_zero_iff.1 (Nat.le_zero.1 h)]; rfl
  | succ f ih =>
    cases l with
    | nil => rfl
    | cons x l =>
      have hlen : ((x :: l).drop n).length ≤ f := by
        rw [List.length_drop]
        omega
      rw [chunksGo, List.flatten_cons, ih _ hlen, List.take_append_drop]
      · rintro ⟨⟩

theorem chunks_flatten (l : List α) : (chunks n l).flatten = l := chunksGo_flatten hn _ l (Nat.le_refl _)

end

theorem length_le_of_mem_chunksGo {α : Type} {n f : Nat} {l x : List α} (h : x ∈ chunksGo f n l) : x.length ≤ n := by
  induction f generalizing l with
  | zero => cases h
  | succ f ih =>
    cases l with
    | nil => cases h
    | cons y l =>
      rcases List.mem_cons.1 h with rfl | h
      · exact List.length_take_le _ _
      · exact ih h

/-! Messages and their flits (R394, R397). -/

section
variable {m : FlueMsg} (hdst : m.dst < 2 ^ 10) (hsrc : m.src < 2 ^ 10) (hdctx : m.dctx < 2 ^ 16) (hsctx : m.sctx < 2 ^ 16)
  (hmseq : m.mseq < 2 ^ 32) (htype : m.type < 2 ^ 8) (httl : m.ttl < 2 ^ 8) (hgen : m.gen < 2 ^ 32) (hcorrid : m.corrid < 2 ^ 64)
include hdst hsrc hdctx hsctx hmseq htype httl hgen hcorrid

/-- The header's fields stand one behind the other; the body follows the 32 bytes. -/
theorem messageOf_msgBytes : messageOf (msgBytes m) = m := by
  have hbytes : msgBytes m = le 2 m.dst ++ (le 2 m.src ++ (le 2 m.dctx ++ (le 2 m.sctx ++ (le 4 m.mseq ++ (le 1 m.type ++ (le 1 m.ttl ++
      (le 2 0 ++ (le 4 m.body.length ++ (le 4 m.gen ++ (le 8 m.corrid ++ m.body)))))))))) := by
    simp only [msgBytes, List.append_assoc]
  rw [hbytes]
  simp (disch := omega) only [messageOf, fieldAt_le_skip, drop_le_append, fieldAt_le, bits_of_lt, Nat.reduceSub, Nat.sub_self, List.drop_zero]

end

theorem msgFlits_payload (m : FlueMsg) : (msgFlits m).flatMap (·.payload) = msgBytes m := by
  simp only [msgFlits, List.flatMap_map]
  rw [List.flatMap_def, List.map_snd_zip (by rw [List.length_range]), chunks_flatten (by decide)]

theorem msgFlits_fields {m : FlueMsg} {f : Flit} (h : f ∈ msgFlits m) : f.len = f.payload.length ∧ f.len ≤ 240 ∧ f.vc = vcOf m.type := by
  obtain ⟨x, hx, rfl⟩ := List.mem_map.1 h
  exact ⟨rfl, length_le_of_mem_chunksGo (List.of_mem_zip hx).2, rfl⟩

end Sys2Proof.Machine
end

section
/-!
PROOFS. Flue links (O56).
-/

namespace Sys2Proof.Machine

/-! Ports (R392, R393, R396). -/

@[simp] theorem portOf_updPort_same (s : State) (p : Nat) (f : FPort → FPort) : portOf (updPort s p f) p = f (portOf s p) := by
  simp [portOf, updPort]

/-- Two changes of a port that agree on its present state are one. -/
theorem updPort_congr {s : State} {p : Nat} {f g : FPort → FPort} (h : f (portOf s p) = g (portOf s p)) : updPort s p f = updPort s p g := by
  unfold updPort tmod
  unfold portOf at h
  rw [h]

section
variable {s : State} {p : Nat}

theorem exec_portTraining_qualifies (hready : s.boot.ready = true) (hon : s.topo.flue.getLsbD p = true) (hp : p < 8)
    (hst : (portOf s p).st ≤ 1) (hdead : (portOf s p).dead = false) :
    exec (.portTraining p) s = .next (updPort s p fun x => { x with st := 2 }) := by
  change execPortTraining p s = _
  simp [execPortTraining, actWhen, hready, hon, hp, hst, hdead]

section
variable {corr dis : Nat} {u : State} (hst : (portOf s p).st = 2)
  (hu : u = updPort s p fun x => { x with corrSym := wrapAdd 32 x.corrSym corr, blockDrop := satAdd 16 x.blockDrop dis })
include hst hu

theorem exec_qualificationEnd_up (hdis : dis = 0) (hcorr : corr ≤ 2 ^ s.flue.qual) : exec (.qualificationEnd p corr dis) s =
    .next (flushOutbox (updPort u p fun x => { x with
      st := 3, cred0 := 256, cred1 := 256, expSeq := 0, sendSeq := 0, rx := [], tx := [], unacked := [], asm0 := [], asm1 := []
      lastAsk := none, askCount := 0, asked := false, freed0 := 0, freed1 := 0, failedQual := 0 })) := by
  change execQualificationEnd p corr dis s = _
  have hgood : dis = 0 ∧ corr ≤ 2 ^ (updPort s p fun x => { x with
      corrSym := wrapAdd 32 x.corrSym corr, blockDrop := satAdd 16 x.blockDrop dis }).flue.qual := ⟨hdis, hcorr⟩
  simp only [execQualificationEnd, hst, ne_eq, not_true_eq_false, if_false, if_pos hgood, hu]

theorem exec_qualificationEnd_failed (hbad : dis ≠ 0 ∨ 2 ^ s.flue.qual < corr) (hfew : (portOf s p).failedQual < 15) :
    exec (.qualificationEnd p corr dis) s = .next (updPort u p fun x => { x with st := 1, failedQual := x.failedQual + 1 }) := by
  change execQualificationEnd p corr dis s = _
  have hgood : ¬(dis = 0 ∧ corr ≤ 2 ^ (updPort s p fun x => { x with
      corrSym := wrapAdd 32 x.corrSym corr, blockDrop := satAdd 16 x.blockDrop dis }).flue.qual) := by
    change ¬(dis = 0 ∧ corr ≤ 2 ^ s.flue.qual)
    omega
  have hcount : ¬16 ≤ (portOf s p).failedQual + 1 := by omega
  simp only [execQualificationEnd, hst, ne_eq, not_true_eq_false, if_false, if_neg hgood, hu, portOf_updPort_same, hcount]

end

section
variable {corr : Nat} {fs : List (List Byte)} {u : State} (hst : (portOf s p).st = 3)
  (hu : u = updPort s p fun x => { x with corrSym := wrapAdd 32 x.corrSym corr, blockCount := (x.blockCount + 1) % 256 })
include hst hu

theorem exec_fecBlock_drops :
    exec (.fecBlock p false corr fs) s = .next (updPort u p fun x => { x with blockDrop := satAdd 16 x.blockDrop 1 }) := by
  change execFecBlock p false corr fs s = _
  simp only [execFecBlock, hst, ne_eq, not_true_eq_false, if_false, Bool.not_false, if_true, hu]

theorem exec_fecBlock_keeps (hgood : ∀ b, b ∈ fs → (flitOf b).crcOk = true ∧ (flitOf b).kind ≤ 2) :
    exec (.fecBlock p true corr fs) s =
      .next (updPort u p fun x => { x with crcErr := satAdd 16 x.crcErr 0, rx := x.rx ++ fs.map flitOf }) := by
  change execFecBlock p true corr fs s = _
  have hcrc : (fs.map flitOf).filter (fun f => !f.crcOk) = [] := by
    simp only [List.filter_eq_nil_iff, List.forall_mem_map]
    intro b hb
    simp [(hgood b hb).1]
  have hkind : (fs.map flitOf).filter (fun f => decide (f.kind ≤ 2)) = fs.map flitOf := by
    simp only [List.filter_eq_self, List.forall_mem_map, decide_eq_true_eq]
    exact fun b hb => (hgood b hb).2
  simp only [execFecBlock, hst, ne_eq, not_true_eq_false, if_false, Bool.not_true, Bool.false_eq_true, hcrc, hkind, List.length_nil, hu]

end

/-! Flits (R394 to R396). -/

section
variable {u : State} {f : Flit}

section
variable (htake : takeFlit s p 1 = some (u, f))
include htake

theorem exec_dataFlit_inTurn (hcrc : f.crcOk = true) (hseq : f.seq = (portOf u p).expSeq) : exec (.dataFlit p) s =
    .next (returnCredits (pump (assemble (updPort u p fun x => { takeReturns x f with
      expSeq := (x.expSeq + 1) % 4096, asked := false }) p f) p) p) := by
  change execDataFlit p s = _
  simp only [execDataFlit, htake, hcrc, hseq, beq_self_eq_true, Bool.and_self, if_true]

theorem exec_dataFlit_askedBefore (hcrc : f.crcOk = false) (hasked : (portOf u p).asked = true) :
    exec (.dataFlit p) s = .next (pump u p) := by
  change execDataFlit p s = _
  simp only [execDataFlit, htake, hcrc, hasked, Bool.false_and, Bool.false_eq_true, if_false, if_true]

theorem exec_dataFlit_asks (hcrc : f.crcOk = false) (hasked : (portOf u p).asked = false) : exec (.dataFlit p) s =
    .next (pump (emitFlit (updPort u p fun x => { x with asked := true }) p (plainFlit 2)) p) := by
  change execDataFlit p s = _
  simp only [execDataFlit, htake, hcrc, hasked, Bool.false_and, Bool.false_eq_true, if_false]

end

theorem exec_idleFlit_returns (htake : takeFlit s p 0 = some (u, f)) (hcrc : f.crcOk = true) :
    exec (.idleFlit p) s = .next (pump (updPort u p fun x => takeReturns x f) p) := by
  change execIdleFlit p s = _
  simp only [execIdleFlit, htake, hcrc, if_true]

/-- The port after a further RETRY_REQ for the same ACK. -/
def askedAgain (x : FPort) (f : Flit) : FPort :=
  { takeReturns x f with retries := wrapAdd 32 x.retries 1, lastAsk := some f.ackSeq, askCount := x.askCount + 1 }

/-- A further RETRY_REQ for one ACK: the sixteenth drops the port, another has the flits sent again. -/
theorem exec_retryReq_again (htake : takeFlit s p 2 = some (u, f)) (hcrc : f.crcOk = true) (hlast : (portOf u p).lastAsk = some f.ackSeq) :
    exec (.retryReq p) s = .next (if 16 ≤ (portOf u p).askCount + 1 then dropPort (updPort u p fun x => askedAgain x f) p 1
      else pump ((portOf (updPort u p fun x => askedAgain x f) p).unacked.foldl (fun x g => emitFlit x p g)
        (updPort u p fun x => askedAgain x f)) p) := by
  change execRetryReq p s = _
  have hcount : (updPort u p fun x => { takeReturns x f with
      retries := wrapAdd 32 x.retries 1, lastAsk := some f.ackSeq
      askCount := if x.lastAsk = some f.ackSeq then x.askCount + 1 else 1 }) = updPort u p fun x => askedAgain x f :=
    updPort_congr (by simp only [hlast, if_true]; rfl)
  have hasked : (portOf (updPort u p fun x => askedAgain x f) p).askCount = (portOf u p).askCount + 1 := by
    rw [portOf_updPort_same]
    rfl
  simp only [execRetryReq, htake, hcrc, Bool.not_true, Bool.false_eq_true, if_false, hcount, hasked]
  split <;> rfl

end

/-! Messages for other nodes (R400). -/

section
variable {m : FlueMsg} (hm : m ∈ s.flue.inbox) (hdst : m.dst ≠ s.flue.nodeId)
include hm hdst

theorem exec_forward_drops (httl : m.ttl = 0) : exec (.forward m) s = .next { s with flue := { s.flue with
    inbox := dropFirst (fun x => x == m) s.flue.inbox, fwdDrop := satAdd 24 s.flue.fwdDrop 1 } } := by
  change execForward m s = _
  simp only [execForward, hm, hdst, httl, decide_true, Bool.not_true, Bool.false_eq_true, or_self, if_false, true_or, if_true]

theorem exec_forward_sends {q : Nat} (httl : m.ttl ≠ 0) (hroom : poolBytes s + 32 + m.body.length ≤ 4 * 1048576)
    (hroute : routePort s m.dst = some q) : exec (.forward m) s =
      .next (sendMsg { s with flue := { s.flue with inbox := dropFirst (fun x => x == m) s.flue.inbox } } { m with ttl := m.ttl - 1 }) := by
  change execForward m s = _
  have hpool : ¬(m.ttl = 0 ∨ 4 * 1048576 <
      poolBytes { s with flue := { s.flue with inbox := dropFirst (fun x => x == m) s.flue.inbox } } + 32 + m.body.length) := by
    rintro (h | h)
    · exact httl h
    · exact Nat.not_lt.2 hroom h
  have hroute' : routePort { s with flue := { s.flue with inbox := dropFirst (fun x => x == m) s.flue.inbox } } m.dst = some q := hroute
  simp only [execForward, hm, hdst, decide_true, Bool.not_true, Bool.false_eq_true, or_self, if_false, if_neg hpool, hroute']

end

end

/-- Settles O56: the round trip of a message through its bytes and flits, and an equation for each command of a link. -/
theorem flueLinksCarryMessages : Obligations.FlueLinksCarryMessages := by
  refine ⟨?messages, fun s p => ⟨exec_portTraining_qualifies, ?qualification, ?block, ?data, ?idle, ?retry, ?forward⟩⟩
  case messages =>
    intro m hdst hsrc hdctx hsctx hmseq htype httl hgen hcorrid
    exact ⟨messageOf_msgBytes hdst hsrc hdctx hsctx hmseq htype httl hgen hcorrid, msgFlits_payload m, fun f => msgFlits_fields⟩
  case qualification =>
    intro hst corr dis u hu
    exact ⟨exec_qualificationEnd_up hst hu, exec_qualificationEnd_failed hst hu⟩
  case block =>
    intro hst corr fs u hu
    exact ⟨exec_fecBlock_drops hst hu, exec_fecBlock_keeps hst hu⟩
  case data =>
    intro u f htake
    refine ⟨fun hcrc hseq v hv => ?_, exec_dataFlit_askedBefore htake, exec_dataFlit_asks htake⟩
    rw [exec_dataFlit_inTurn htake hcrc hseq, hv]
  case idle => exact fun u f => exec_idleFlit_returns
  case retry =>
    rintro u f _ htake hcrc hlast rfl
    rw [exec_retryReq_again htake hcrc hlast]
    exact ⟨fun h => by rw [if_pos (by omega)]; rfl, fun h => by rw [if_neg (by omega)]; rfl⟩
  case forward =>
    rintro m hm hdst _ rfl
    exact ⟨exec_forward_drops hm hdst, fun httl hroom q => exec_forward_sends hm hdst httl hroom⟩

end Sys2Proof.Machine
end

section
/-!
PROOFS. Flue contexts (O57).
-/

namespace Sys2Proof.Machine

/-! A FLUE_SEND beside a graph with the same acceptance number (O57): `modTask` changes the task of every graph of that number, and
FLUE_SEND charges each by its own source. -/

/-- A FLUE_SEND of one byte on context 0. -/
def sendTask (src : OpRef) : Task := { typ := 0x20, ops := [src, .none, .none, .none, .none, .none], param := 0, st := .issued }

/-- The graph of acceptance number 1 with that task alone. -/
def sendGraph (src : OpRef) : Graph := { acc := 1, pen := 0, cmd := { ctl := 0, sq := 1, cid := 0 }, tasks := [sendTask src] }

/-- Two such graphs, the first with its source in host memory, the second with its source at stack 1; context 0 of pen 0 is OPENING. -/
def twinGraphs : State :=
  { topo := { stackOk := 0xFFFFF }
    pens := [(0, { alive := true, objects := [(2, { kind := .buffer, bytes := 65536, homes := [.stack 1 0] })] })]
    flue := { ctxs := [(0, { st := 1 })] }
    drover := { graphs := [sendGraph (.host 0), sendGraph (.obj 2 0)] } }

/-- The task that both graphs hold. -/
def twinTask : TaskId := ⟨1, 0⟩

/-- Bytes at the stacks charged to the tasks of a result. -/
def stackCharges (r : Res) : List Nat := match r with
  | .next t => t.drover.graphs.flatMap fun g => g.tasks.map (·.usedStack)
  | _ => []

/-- The first graph's task runs; its byte can be read. -/
theorem running_twinGraphs : running twinGraphs twinTask 0x20 (some 0) =
    some ({ sendGraph (.host 0) with view := some (twinTask, 0) }, sendTask (.host 0)) := by decide +kernel

theorem readOp_twinGraphs :
    readOp twinGraphs 0 (some { sendGraph (.host 0) with view := some (twinTask, 0) }) (.host 0) 0 1 = .ok [0] := by decide +kernel

/-- The twin's task is charged a byte, as its own source lies at a stack. -/
theorem stackCharges_flueSend : stackCharges (exec (.flueSend twinTask) twinGraphs) = [0, 1] := by decide +kernel

/-- The node with the first task's charge put on both. -/
def twinSent : State := modTask twinGraphs twinTask fun x => { x with
  run := .send 0 (ctxOf twinGraphs 0).send0, result := 1
  usedStack := x.usedStack + stackPart twinGraphs { sendGraph (.host 0) with view := some (twinTask, 0) } (.host 0) 1 }

theorem stackCharges_twinSent (body : List Byte) : stackCharges (.next (ctxSend twinSent 0 0x10 0 65536 body)) = [0, 0] := by
  have hst : (ctxOf twinSent 0).st = 1 := by decide +kernel
  have hsend : ctxSend twinSent 0 0x10 0 65536 body =
      updCtx twinSent 0 fun x => { x with waiting := x.waiting ++ [ctxMsg twinSent 0 0x10 0 65536 body] } := by
    simp [ctxSend, hst]
  rw [hsend]
  change stackCharges (.next twinSent) = [0, 0]
  decide +kernel

/-- Refutes O57: its clause of FLUE_SEND puts the charge of the running task on whatever `modTask` changes. In `twinGraphs` a second
graph has the same acceptance number, and there the model charges the byte that this graph's own source holds at stack 1. -/
theorem not_flueContextsLive : ¬ Obligations.FlueContextsLive := by
  intro h
  obtain ⟨-, -, -, -, -, -, -, hsend⟩ := h twinGraphs
  obtain ⟨-, hput⟩ := hsend twinTask _ _ 0 1 [0] running_twinGraphs rfl (by decide) (by decide) (by decide) (by decide) (by decide)
    (by decide) (by decide) rfl
  have hexec := hput (by decide) readOp_twinGraphs twinSent rfl
  have hcharges := stackCharges_flueSend
  rw [hexec] at hcharges
  exact absurd (hcharges.symm.trans (stackCharges_twinSent _)) (by decide)

end Sys2Proof.Machine
end

section
/-!
PROOFS. Trace records and the ring (O60).
-/

namespace Sys2Proof.Machine

/-! A record's bytes (R451). -/

theorem recBytes_eq (loc : W32) (r : TRec) : ∃ pad, recBytes loc r = le 1 r.kind ++ (le 1 0 ++ (le 2 r.body.length ++ (le 2 r.stream ++ (le 2 0 ++
    (le 4 r.sseq ++ (le 4 loc.toNat ++ (r.body ++ pad))))))) := by
  simp only [recBytes, List.append_assoc]
  exact ⟨_, rfl⟩

theorem recBytes_length (loc : W32) (r : TRec) : (recBytes loc r).length = recLen r := by
  simp only [recBytes, recLen, List.length_append, List.length_replicate, le_length]
  omega

/-! The ring (R450). -/

section
variable {m : Mem} {addr size off : Nat} {bs : List Byte}

/-- Bytes put into a ring from an offset on, the rest at its start. -/
def Mem.ringWrite (m : Mem) (addr size off : Nat) (bs : List Byte) : Mem :=
  (m.write (addr + off) (bs.take (min bs.length (size - off)))).write addr (bs.drop (min bs.length (size - off)))

/-- Each byte of a run no longer than the ring stands at its place, before and after the wrap. -/
theorem Mem.ringWrite_byte (hlen : bs.length ≤ size) (hoff : off < size) {i : Nat} (hi : i < bs.length) :
    (m.ringWrite addr size off bs).byte (addr + (off + i) % size) = bs.getD i 0 := by
  unfold Mem.ringWrite
  by_cases hwrap : off + i < size
  · have hfirst : i < min bs.length (size - off) := by omega
    rw [Nat.mod_eq_of_lt hwrap, Mem.write_byte_frame _ _ (by rw [List.length_drop]; omega), ← Nat.add_assoc,
      Mem.write_byte_in _ _ _ _ (by rw [List.length_take]; omega), List.getD_eq_getElem?_getD, List.getElem?_take_of_lt hfirst,
      List.getD_eq_getElem?_getD]
  · have hpast : (off + i) % size = i - min bs.length (size - off) := by
      rw [Nat.mod_eq_sub_mod (Nat.not_lt.1 hwrap), Nat.mod_eq_of_lt (by omega)]
      omega
    rw [hpast, Mem.write_byte_in _ _ _ _ (by rw [List.length_drop]; omega), List.getD_eq_getElem?_getD, List.getElem?_drop,
      List.getD_eq_getElem?_getD]
    congr 2
    omega

/-- A part of the run read back from the ring. -/
theorem Mem.ringWrite_read (hlen : bs.length ≤ size) (hoff : off < size) {i k : Nat} (hik : i + k ≤ bs.length) :
    ((List.range k).map fun j => (m.ringWrite addr size off bs).byte (addr + (off + i + j) % size)) = (bs.drop i).take k := by
  refine List.ext_getElem (by simp; omega) fun j hj _ => ?_
  have hjk : j < k := by simpa using hj
  simp only [List.getElem_map, List.getElem_range, List.getElem_take, List.getElem_drop]
  rw [Nat.add_assoc off i j, Mem.ringWrite_byte hlen hoff (by omega), List.getD_eq_getElem?_getD, List.getElem?_eq_getElem (by omega),
    Option.getD_some]

end

theorem fieldAt_eq {bs : List Byte} {i k : Nat} (h : i + k ≤ bs.length) : fieldAt bs i k = ofLe ((bs.drop i).take k) := by
  have hpad : k - ((bs.drop i).take k).length = 0 := by
    rw [List.length_take, List.length_drop]
    omega
  rw [fieldAt, sub, hpad, List.replicate_zero, List.append_nil]

section
variable {s : State} {r : TRec}

/-- The bytes of the next record put into the ring: LOCAL is the free value drawn for it. -/
def nextRecBytes (s : State) (r : TRec) : List Byte := recBytes (Config.freeWord s.nfree) r

theorem ringPut_eq (s : State) (r : TRec) : ringPut s r = { s with
    nfree := s.nfree + 1
    hostMem := s.hostMem.ringWrite s.trace.addr (ringSize s) s.trace.rprod (nextRecBytes s r)
    trace := { s.trace with rprod := (s.trace.rprod + (nextRecBytes s r).length) % ringSize s } } := rfl

section
variable (hkind : r.kind < 256) (hstream : r.stream < 65536) (hsseq : r.sseq < 2 ^ 32) (hbody : r.body.length < 65536)
include hkind hstream hsseq hbody

/-- The fields of a record from its bytes. -/
theorem recBytes_fields (loc : W32) : fieldAt (recBytes loc r) 0 1 = r.kind ∧ fieldAt (recBytes loc r) 2 2 = r.body.length ∧
    fieldAt (recBytes loc r) 4 2 = r.stream ∧ fieldAt (recBytes loc r) 8 4 = r.sseq ∧
    ((recBytes loc r).drop 16).take r.body.length = r.body := by
  obtain ⟨pad, h⟩ := recBytes_eq loc r
  rw [h]
  simp (disch := omega) only [fieldAt_le_skip, drop_le_append, fieldAt_le, Nat.reduceSub, Nat.sub_self, List.drop_zero, List.take_left',
    and_self]

/-- A record put is the record parsed there. -/
theorem parseRecs_ringPut (hfits : recLen r ≤ ringSize s) (hprod : s.trace.rprod < ringSize s) :
    parseRecs (ringPut s r) 1 s.trace.rprod (recLen r) = [(s.trace.rprod, r)] := by
  have hlen : (nextRecBytes s r).length = recLen r := recBytes_length _ r
  have hfits' : (nextRecBytes s r).length ≤ ringSize s := by rwa [hlen]
  have hrec : recLen r = 16 + (r.body.length + 7) / 8 * 8 := rfl
  have hget (i k : Nat) (h : i + k ≤ recLen r) :
      ((List.range k).map fun j => (ringPut s r).hostMem.byte (s.trace.addr + (s.trace.rprod + i + j) % ringSize s)) =
        ((nextRecBytes s r).drop i).take k := by
    rw [ringPut_eq]
    exact Mem.ringWrite_read hfits' hprod (by rwa [hlen])
  have hfield (i k : Nat) (h : i + k ≤ recLen r) :
      ofLe ((List.range k).map fun j => (ringPut s r).hostMem.byte (s.trace.addr + (s.trace.rprod + i + j) % ringSize s)) =
        fieldAt (nextRecBytes s r) i k := by
    rw [hget i k h, fieldAt_eq (by rwa [hlen])]
  obtain ⟨hk, hl, hs, hq, hb⟩ := recBytes_fields hkind hstream hsseq hbody (Config.freeWord s.nfree)
  have hparsed : parseRecs (ringPut s r) 1 s.trace.rprod (recLen r) = [(s.trace.rprod,
      { kind := fieldAt (nextRecBytes s r) 0 1, stream := fieldAt (nextRecBytes s r) 4 2, sseq := fieldAt (nextRecBytes s r) 8 4
        body := ((nextRecBytes s r).drop 16).take (fieldAt (nextRecBytes s r) 2 2) })] := by
    rw [← hfield 0 1 (by omega), ← hfield 4 2 (by omega), ← hfield 8 4 (by omega), ← hget 16 _ ?_, ← hfield 2 2 (by omega)]
    · exact if_neg (by omega)
    · rw [nextRecBytes, hl]
      omega
  rw [hparsed, nextRecBytes, hk, hl, hs, hq, hb]

end

theorem ringPut_rprod (s : State) (r : TRec) : (ringPut s r).trace.rprod = (s.trace.rprod + recLen r) % ringSize s := by
  rw [ringPut_eq, nextRecBytes, recBytes_length]

end

/-! The registers of the trace (R450, R454, R455). -/

section
variable {s : State}

section
variable (hready : s.boot.ready = true) (hreplay : s.trace.replay = false)
include hready hreplay

theorem exec_trcGo_drains {u : State} (hu : u = drainHead { s with trace := { s.trace with go := true } } s.trace.headBuf.length) :
    exec .trcGo s = .next { u with trace := { u.trace with stalled := u.trace.stalled && headFull u.trace } } := by
  change execTrcGo s = _
  simp only [execTrcGo, hready, hreplay, Bool.not_true, Bool.or_self, Bool.false_eq_true, if_false, hu]

theorem exec_trcRconsWrite_drains {off : Nat} {u : State}
    (hu : u = drainHead { s with trace := { s.trace with rcons := off % 2 ^ 40 } } s.trace.headBuf.length) :
    exec (.trcRconsWrite off) s = .next { u with trace := { u.trace with stalled := u.trace.stalled && headFull u.trace } } := by
  change execTrcRconsWrite off s = _
  simp only [execTrcRconsWrite, hready, hreplay, Bool.not_true, Bool.or_self, Bool.false_eq_true, if_false, hu]

theorem exec_trcRprodWrite_sets (off : Nat) (writes : List (Nat × Byte)) : exec (.trcRprodWrite off writes) s = .next { s with
    hostMem := s.hostMem.sets writes
    trace := if s.trace.recording then s.trace else { s.trace with rprod := off % 2 ^ 40 } } := by
  change execTrcRprodWrite off writes s = _
  simp only [execTrcRprodWrite, hready, hreplay, Bool.not_true, Bool.not_false, Bool.false_or, if_true]
  split <;> rfl

end

theorem exec_trcReplay_begins (hready : s.boot.ready = true) (hrec : s.trace.rec_ = false) (htouched : s.trace.touched = false)
    (hreplay : s.trace.replay = false) (hdiverged : s.trace.diverged = false) :
    exec .trcReplay s = .next { s with trace := { s.trace with replay := true, touched := true, rcons := 0, rprod := 0 } } := by
  change execTrcReplay s = _
  simp [execTrcReplay, actWhen, hready, hrec, htouched, hreplay, hdiverged]

theorem exec_trcReplay_touched (htouched : s.trace.touched = true) : exec .trcReplay s = .next s := by
  change execTrcReplay s = _
  simp [execTrcReplay, actWhen, htouched]

theorem exec_trcRprodWrite_consumes (hreplay : s.trace.replay = true) (off : Nat) (writes : List (Nat × Byte)) {u v : State} {n : Nat}
    (hu : u = { s with hostMem := s.hostMem.sets writes }) (hn : n = (off + ringSize s - s.trace.rprod) % ringSize s)
    (hv : v = (parseRecs u (n / 16 + 1) s.trace.rprod n).foldl consume u) : exec (.trcRprodWrite off writes) s =
      .next { v with trace := { v.trace with rprod := off % 2 ^ 40, rcons := off % 2 ^ 40 } } := by
  change execTrcRprodWrite off writes s = _
  subst hu hn hv
  simp only [execTrcRprodWrite, hreplay, Bool.not_true, Bool.false_eq_true, if_false]
  rfl

end

/-- Settles O60: a record's bytes stand in the ring at their places, so that it is parsed whole; each register's write has its equation. -/
theorem traceRecordsReadBack : Obligations.TraceRecordsReadBack := by
  refine ⟨?ring, fun s => ⟨fun hready hreplay => ⟨fun u => exec_trcGo_drains hready hreplay, fun off u => exec_trcRconsWrite_drains hready hreplay,
    exec_trcRprodWrite_sets hready hreplay⟩, exec_trcReplay_begins, exec_trcReplay_touched, ?consume⟩⟩
  case ring =>
    rintro s _ r hkind hstream hsseq hbody hfits hprod rfl
    exact ⟨parseRecs_ringPut hkind hstream hsseq hbody hfits hprod, ringPut_rprod s r⟩
  case consume => exact fun hreplay off writes u n hu hn v => exec_trcRprodWrite_consumes hreplay off writes hu hn

end Sys2Proof.Machine
end

section
/-!
PROOFS. The queue of waiting commands stays as it is: the shared operations.
-/

namespace Sys2Proof.Machine

/-- The queue in the next state of an outcome. -/
def queueOf (r : Res) : Option (List Instr) := match r with
  | .next t => some t.pending
  | _ => none

@[simp] theorem queueOf_next (t : State) : queueOf (.next t) = some t.pending := rfl

@[simp] theorem queueOf_actWhen (c : Bool) (s t : State) : queueOf (actWhen c s t) = some (if c then t else s).pending := rfl

@[simp] theorem foldl_pending {α : Type} (l : List α) {g : State → α → State} (s : State) (hg : ∀ s x, (g s x).pending = s.pending) :
    (l.foldl g s).pending = s.pending :=
  foldl_keeps State.pending g hg l s

@[simp] theorem foldlFst_pending {α β : Type} (l : List α) {g : State × β → α → State × β} (x : State × β)
    (hg : ∀ x a, (g x a).1.pending = x.1.pending) : (l.foldl g x).1.pending = x.1.pending := by
  induction l generalizing x with
  | nil => rfl
  | cons a l ih => rw [List.foldl_cons, ih, hg]

@[simp] theorem iter_pending (n : Nat) {g : State → State} (s : State) (hg : ∀ s, (g s).pending = s.pending) :
    (iter n g s).pending = s.pending := by
  induction n generalizing s with
  | zero => rfl
  | succ n ih => rw [iter, ih, hg]

/-- Where the tried change, if there is one, leaves the queue of a state as it was. -/
theorem getD_pending {o : Option State} {s u : State} (ho : ∀ t, o = some t → t.pending = u.pending) (hs : s.pending = u.pending) :
    (o.getD s).pending = u.pending := by
  cases o with
  | none => exact hs
  | some t => exact ho t rfl

theorem foldlO_pending {α : Type} {u : State} (l : List α) (g : Option State → α → Option State)
    (hg : ∀ o x, (∀ t, o = some t → t.pending = u.pending) → ∀ t, g o x = some t → t.pending = u.pending) {o : Option State}
    (ho : ∀ t, o = some t → t.pending = u.pending) (t : State) (h : l.foldl g o = some t) : t.pending = u.pending := by
  induction l generalizing o with
  | nil => exact ho t h
  | cons x l ih => exact ih (hg o x ho) h

/-- The state of a candidate's try at issue. -/
def stateOf (x : Try) : State := match x with
  | .done s => s
  | .passed s => s

@[simp] theorem stateOf_done (s : State) : stateOf (.done s) = s := rfl
@[simp] theorem stateOf_passed (s : State) : stateOf (.passed s) = s := rfl

@[simp] theorem pending_ite {p : Prop} [Decidable p] (s t : State) : (if p then s else t).pending = if p then s.pending else t.pending :=
  apply_ite State.pending p s t

@[simp] theorem queueOf_ite {p : Prop} [Decidable p] (r t : Res) : queueOf (if p then r else t) = if p then queueOf r else queueOf t :=
  apply_ite queueOf p r t

@[simp] theorem writeStack_pending (s : State) (a : Nat) (bs : List Byte) :
    (writeStack s a bs).pending = s.pending := by
  simp [writeStack]

@[simp] theorem poisonLine_pending (s : State) (l : Nat) : (poisonLine s l).pending = s.pending := rfl

@[simp] theorem ringPut_pending (s : State) (r : TRec) : (ringPut s r).pending = s.pending := rfl

@[simp] theorem drainHead_pending (s : State) (n : Nat) : (drainHead s n).pending = s.pending := by
  induction n generalizing s with
  | zero => rfl
  | succ n ih =>
    unfold drainHead
    split <;> simp [ih]

@[simp] theorem traceRec_pending (s : State) (kind stream : Nat) (body : List Byte) :
    (traceRec s kind stream body).pending = s.pending := by
  simp [traceRec]

@[simp] theorem traceDecide_pending (s : State) (kind : Nat) (body : List Byte) :
    (traceDecide s kind body).pending = s.pending := by
  simp [traceDecide]

@[simp] theorem hostWrite_pending (s : State) (stream a : Nat) (bs : List Byte) :
    (hostWrite s stream a bs).pending = s.pending := by
  unfold hostWrite
  repeat' split
  all_goals simp

@[simp] theorem hostReadRec_pending (s : State) (stream fn a n : Nat) :
    (hostReadRec s stream fn a n).pending = s.pending := by
  simp [hostReadRec]

@[simp] theorem vecSend_pending (s : State) (v : Nat) : (vecSend s v).pending = s.pending := by simp [vecSend]

@[simp] theorem vecCount_pending (s : State) (v : Nat) : (vecCount s v).pending = s.pending := by simp [vecCount]

@[simp] theorem writeEntry_pending (s : State) (stream ctl a : Nat) (bs : List Byte) :
    (writeEntry s stream ctl a bs).pending = s.pending := by
  simp [writeEntry]

@[simp] theorem cqWrite_pending (s : State) (ctl n : Nat) (q : Cq) (e : Cqe) :
    (cqWrite s ctl n q e).pending = s.pending := by
  simp [cqWrite]

@[simp] theorem postCqe_pending (s : State) (ctl n : Nat) (e : Cqe) : (postCqe s ctl n e).pending = s.pending := by
  unfold postCqe
  split <;> simp

@[simp] theorem drainCq_pending (s : State) (ctl n : Nat) (k : Nat) : (drainCq s ctl n k).pending = s.pending := by
  induction k generalizing s with
  | zero => rfl
  | succ k ih =>
    unfold drainCq
    repeat' split
    all_goals simp [ih]

@[simp] theorem complete1_pending (s : State) (c : Cmd) (status : Nat) (dw0 : Nat) :
    (complete1 s c status dw0).pending = s.pending := by
  simp only [complete1]
  repeat' split
  all_goals simp

@[simp] theorem wakeFences_pending (s : State) (n : Nat) : (wakeFences s n).pending = s.pending := by
  induction n generalizing s with
  | zero => rfl
  | succ n ih =>
    unfold wakeFences
    repeat' split
    all_goals simp [ih]

@[simp] theorem wake_pending (s : State) : (wake s).pending = s.pending := by simp [wake]

@[simp] theorem complete_pending (s : State) (c : Cmd) (status : Nat) (dw0 : Nat) :
    (complete s c status dw0).pending = s.pending := by
  simp [complete]

@[simp] theorem completeFree_pending (s : State) (c : Cmd) : (completeFree s c).pending = s.pending := by
  simp [completeFree]

@[simp] theorem asyncEvent_pending (s : State) : (asyncEvent s).pending = s.pending := by
  unfold asyncEvent
  refine foldl_pending _ _ fun s x => ?_
  dsimp only
  repeat' split
  all_goals simp

@[simp] theorem postEventRaw_pending (s : State) (cls kind unit score what data0 data1 : Nat) :
    (postEventRaw s cls kind unit score what data0 data1).pending = s.pending := by
  simp [postEventRaw]

@[simp] theorem postEvent_pending (s : State) (cls : Nat) (u : HwUnit) (what data0 data1 : Nat) :
    (postEvent s cls u what data0 data1).pending = s.pending := by
  simp [postEvent]

@[simp] theorem postNodeEvent_pending (s : State) (cls what data0 data1 : Nat) :
    (postNodeEvent s cls what data0 data1).pending = s.pending := by
  simp [postNodeEvent]

@[simp] theorem doFetch_pending (s : State) (c : Cmd) (num : Nat) : (doFetch s c num).pending = s.pending := by
  simp [doFetch]

@[simp] theorem withCmd_queue (s : State) (c : Cmd) (f : State → Nat → State)
    (hf : ∀ s x0, (f s x0).pending = s.pending) : queueOf (withCmd s c f) = some s.pending := by
  unfold withCmd
  split <;> simp [hf]

end Sys2Proof.Machine
end

section
/-!
PROOFS. The queue of waiting commands stays as it is: the directory and the agents.
-/

namespace Sys2Proof.Machine

@[simp] theorem updSlice_pending (s : State) (l : Nat) (f : Slice → Slice) : (updSlice s l f).pending = s.pending := rfl

@[simp] theorem setEntry_pending (s : State) (l : Nat) (e : DEntry) : (setEntry s l e).pending = s.pending := rfl

@[simp] theorem putEntry_pending (s : State) (l : Nat) (e : DEntry) : (putEntry s l e).pending = s.pending := rfl

@[simp] theorem dropEntry_pending (s : State) (l : Nat) : (dropEntry s l).pending = s.pending := rfl

@[simp] theorem sendHost_pending (s : State) (m : Msg) : (sendHost s m).pending = s.pending := by
  unfold sendHost
  split <;> simp

@[simp] theorem enterNet_pending (s : State) (m : Msg) : (enterNet s m).pending = s.pending := by simp [enterNet]

@[simp] theorem send_pending (s : State) (m : Msg) : (send s m).pending = s.pending := by simp [send]

@[simp] theorem resend_pending (s : State) : (resend s).pending = s.pending := by simp [resend]

@[simp] theorem tell_pending (s : State) (k : MsgKind) (a l : Nat) : (tell s k a l).pending = s.pending := by
  simp [tell]

@[simp] theorem dropMsg_pending (s : State) (m : Msg) : (dropMsg s m).pending = s.pending := rfl

@[simp] theorem rdAcc_pending (s : State) (l : Nat) (k : MsgKind) (a : Nat) : (rdAcc s l k a).pending = s.pending := rfl

@[simp] theorem wrAcc_pending (s : State) (l : Nat) (data : List Byte) (mask : List Bool) (owed : Option Msg) :
    (wrAcc s l data mask owed).pending = s.pending := rfl

@[simp] theorem poisonAcc_pending (s : State) (l : Nat) : (poisonAcc s l).pending = s.pending := rfl

@[simp] theorem invGroups_pending (s : State) (l : Nat) (e : DEntry) (gs : List Nat) (host : Bool) :
    (invGroups s l e gs host).1.pending = s.pending := by
  simp only [invGroups]
  split
  · simp only [tell_pending]
    rw [foldlFst_pending]
    intro x g
    split <;> simp
  · rw [foldlFst_pending]
    intro x g
    split <;> simp

@[simp] theorem invMembers_pending (s : State) (l : Nat) (ms : List Nat) : (invMembers s l ms).pending = s.pending := by
  simp [invMembers]

@[simp] theorem finishInv_pending (s : State) (l : Nat) (e : DEntry) : (finishInv s l e).pending = s.pending := by
  unfold finishInv
  repeat' split
  all_goals simp

@[simp] theorem settleInv_pending (s : State) (l : Nat) (e : DEntry) : (settleInv s l e).pending = s.pending := by
  simp [settleInv]

@[simp] theorem finishRecall_pending (s : State) (l : Nat) (e : DEntry) (shared : Bool) :
    (finishRecall s l e shared).pending = s.pending := by
  unfold finishRecall
  repeat' split
  all_goals simp

@[simp] theorem putBIn_pending (s : State) (l : Nat) (e : DEntry) (r : Nat) : (putBIn s l e r).pending = s.pending := by
  simp [putBIn]

@[simp] theorem handle_pending (s : State) (m : Msg) : (handle s m).pending = s.pending := by
  simp only [handle]
  repeat' split
  all_goals simp

@[simp] theorem evict_pending (s : State) (v : Nat) : (evict s v).pending = s.pending := by unfold evict; split <;> simp

@[simp] theorem reexamine_pending (s : State) (l : Nat) (n : Nat) : (reexamine s l n).pending = s.pending := by
  induction n generalizing s with
  | zero => rfl
  | succ n ih =>
    simp only [reexamine]
    repeat' split
    all_goals simp [ih]

@[simp] theorem retryAgain_pending (s : State) (l : Nat) : (retryAgain s l).pending = s.pending := by simp [retryAgain]

@[simp] theorem arrive_pending (s : State) (m : Msg) : (arrive s m).pending = s.pending := by
  simp only [arrive]
  repeat' split
  all_goals simp

@[simp] theorem lookup_pending (s : State) (l : Nat) : (lookup s l).pending = s.pending := by
  unfold lookup
  split <;> simp

@[simp] theorem touch_pending (s : State) (l : Nat) : (touch s l).pending = s.pending := by unfold touch; split <;> simp

@[simp] theorem requestRow_queue (s : State) (k : MsgKind) (r l : Nat) :
    queueOf (requestRow s k r l) = some s.pending := by
  unfold requestRow
  split <;> simp

@[simp] theorem execRds_queue (r line : Nat) (s : State) : queueOf (execRds r line s) = some s.pending := by
  simp [execRds]

@[simp] theorem execRde_queue (r line : Nat) (s : State) : queueOf (execRde r line s) = some s.pending := by
  simp [execRde]

@[simp] theorem execRdc_queue (r line : Nat) (s : State) : queueOf (execRdc r line s) = some s.pending := by
  simp [execRdc]

@[simp] theorem execWr_queue (r line : Nat) (s : State) : queueOf (execWr r line s) = some s.pending := by simp [execWr]

@[simp] theorem execClr_queue (line : Nat) (s : State) : queueOf (execClr line s) = some s.pending := by simp [execClr]

@[simp] theorem putArrives_pending (s : State) (m : Msg) : (putArrives s m).pending = s.pending := by simp [putArrives]

@[simp] theorem execPutb_queue (r line : Nat) (s : State) : queueOf (execPutb r line s) = some s.pending := by
  simp only [execPutb]
  repeat' split
  all_goals simp

@[simp] theorem execPute_queue (r line : Nat) (s : State) : queueOf (execPute r line s) = some s.pending := by
  simp only [execPute]
  repeat' split
  all_goals simp

@[simp] theorem execPutm_queue (r line : Nat) (s : State) : queueOf (execPutm r line s) = some s.pending := by
  simp only [execPutm]
  repeat' split
  all_goals simp

@[simp] theorem execAck_queue (r line : Nat) (s : State) : queueOf (execAck r line s) = some s.pending := by
  simp only [execAck]
  repeat' split
  all_goals simp

@[simp] theorem execWbd_queue (r line : Nat) (s : State) : queueOf (execWbd r line s) = some s.pending := by
  simp only [execWbd]
  repeat' split
  all_goals simp

@[simp] theorem execCack_queue (r line : Nat) (s : State) : queueOf (execCack r line s) = some s.pending := by
  simp only [execCack]
  repeat' split
  all_goals simp

@[simp] theorem writeLine_pending (s : State) (l : Nat) (data : List Byte) (mask : List Bool) :
    (writeLine s l data mask).pending = s.pending := rfl

@[simp] theorem payOwed_pending (s : State) (l : Nat) (data : List Byte) (o : Option Msg) :
    (payOwed s l data o).pending = s.pending := by
  unfold payOwed
  repeat' split
  all_goals simp

@[simp] theorem performAccess_pending (s : State) (a : Access) : (performAccess s a).pending = s.pending := by
  simp [performAccess]

@[simp] theorem execStackAccessDone_queue (line : Nat) (s : State) :
    queueOf (execStackAccessDone line s) = some s.pending := by
  unfold execStackAccessDone
  repeat' split
  all_goals simp

@[simp] theorem declareDead_pending (s : State) (a : Nat) : (declareDead s a).pending = s.pending := by
  simp [declareDead]

@[simp] theorem loseLine_pending (s : State) (l : Nat) : (loseLine s l).pending = s.pending := rfl

@[simp] theorem sweepEntry_pending (s : State) (d l : Nat) : (sweepEntry s d l).pending = s.pending := by
  simp only [sweepEntry]
  repeat' split
  all_goals simp

@[simp] theorem sweepCollects_pending (s : State) (d : Nat) : (sweepCollects s d).pending = s.pending := by
  simp [sweepCollects]

@[simp] theorem lostEvent_pending (s : State) (d lost : Nat) : (lostEvent s d lost).pending = s.pending := by
  simp [lostEvent]

@[simp] theorem execReclaimSweep_queue (agent : Nat) (s : State) :
    queueOf (execReclaimSweep agent s) = some s.pending := by
  simp [execReclaimSweep]

@[simp] theorem execBisnpTimeout_queue (line : Nat) (s : State) :
    queueOf (execBisnpTimeout line s) = some s.pending := by
  unfold execBisnpTimeout
  split <;> simp

@[simp] theorem updAgent_pending (s : State) (a : Nat) (f : Agent → Agent) : (updAgent s a f).pending = s.pending := rfl

@[simp] theorem setAline_pending (s : State) (a l : Nat) (x : ALine) : (setAline s a l x).pending = s.pending := rfl

@[simp] theorem dropAline_pending (s : State) (a l : Nat) : (dropAline s a l).pending = s.pending := rfl

@[simp] theorem toHome_pending (s : State) (k : MsgKind) (a l : Nat) : (toHome s k a l).pending = s.pending := by
  simp [toHome]

@[simp] theorem serve_pending (s : State) (a n : Nat) : (serve s a n).pending = s.pending := rfl

@[simp] theorem writeThrough_pending (s : State) (a l : Nat) (data : List Byte) (mask : List Bool) :
    (writeThrough s a l data mask).pending = s.pending := by
  unfold writeThrough
  split <;> simp

@[simp] theorem park_pending (s : State) (a l : Nat) (w : Option (List Byte × List Bool)) :
    (park s a l w).pending = s.pending := rfl

@[simp] theorem askHome_pending (s : State) (a l : Nat) (w : Option (List Byte × List Bool)) (st : AState)
    (k : MsgKind) : (askHome s a l w st k).pending = s.pending := by
  simp [askHome]

@[simp] theorem access_pending (s : State) (a l : Nat) (w : Option (List Byte × List Bool)) :
    (access s a l w).pending = s.pending := by
  unfold access
  repeat' split
  all_goals simp

@[simp] theorem unpark_pending (s : State) (a : Nat) : (unpark s a).pending = s.pending := by simp [unpark]

@[simp] theorem serveOnce_pending (s : State) (a l : Nat) : (serveOnce s a l).pending = s.pending := rfl

@[simp] theorem execAgentLoad_queue (a line : Nat) (s : State) : queueOf (execAgentLoad a line s) = some s.pending := by
  simp [execAgentLoad]

@[simp] theorem execAgentStore_queue (a line : Nat) (data : List Byte) (mask : List Bool) (s : State) :
    queueOf (execAgentStore a line data mask s) = some s.pending := by
  simp [execAgentStore]

@[simp] theorem execAgentReplace_queue (a line : Nat) (s : State) :
    queueOf (execAgentReplace a line s) = some s.pending := by
  unfold execAgentReplace
  repeat' split
  all_goals simp

@[simp] theorem ownInv_pending (s : State) (a l : Nat) : (ownInv s a l).pending = s.pending := by
  unfold ownInv
  repeat' split
  all_goals simp

@[simp] theorem execInv_queue (a line : Nat) (s : State) : queueOf (execInv a line s) = some s.pending := by
  unfold execInv
  split <;> simp

@[simp] theorem execMemberAck_queue (a line member : Nat) (s : State) :
    queueOf (execMemberAck a line member s) = some s.pending := by
  unfold execMemberAck
  split <;> simp

@[simp] theorem answerRecall_pending (s : State) (a l : Nat) (x : ALine) (keep : Bool) :
    (answerRecall s a l x keep).pending = s.pending := by
  simp [answerRecall]

@[simp] theorem recallRow_queue (a l : Nat) (k : MsgKind) (keep : Bool) (s : State) :
    queueOf (recallRow a l k keep s) = some s.pending := by
  simp only [recallRow]
  repeat' split
  all_goals simp

@[simp] theorem execRcl_queue (a line : Nat) (s : State) : queueOf (execRcl a line s) = some s.pending := by
  simp [execRcl]

@[simp] theorem execRclS_queue (a line : Nat) (s : State) : queueOf (execRclS a line s) = some s.pending := by
  simp [execRclS]

@[simp] theorem dataRow_queue (a l : Nat) (k : MsgKind) (st : AState) (s : State) :
    queueOf (dataRow a l k st s) = some s.pending := by
  simp only [dataRow]
  repeat' split
  all_goals simp

@[simp] theorem execDataS_queue (a line : Nat) (s : State) : queueOf (execDataS a line s) = some s.pending := by
  simp [execDataS]

@[simp] theorem execDataB_queue (a line : Nat) (s : State) : queueOf (execDataB a line s) = some s.pending := by
  simp [execDataB]

@[simp] theorem answerHeld_pending (s : State) (a l : Nat) (held : Option Bool) :
    (answerHeld s a l held).pending = s.pending := by
  unfold answerHeld
  split <;> simp

@[simp] theorem execDataE_queue (a line : Nat) (s : State) : queueOf (execDataE a line s) = some s.pending := by
  simp only [execDataE]
  repeat' split
  all_goals simp

@[simp] theorem execCmp_queue (a line : Nat) (s : State) : queueOf (execCmp a line s) = some s.pending := by
  simp only [execCmp]
  repeat' split
  all_goals simp

@[simp] theorem unitStore_pending (s : State) (a : Nat) (x : Nat × List Byte) :
    (unitStore s a x).pending = s.pending := by
  simp [unitStore]

@[simp] theorem agentWrite_pending (s : State) (t : Option TaskId) (a addr : Nat) (bs : List Byte) :
    (agentWrite s t a addr bs).pending = s.pending := by
  unfold agentWrite
  split <;> simp

@[simp] theorem forgetWrites_pending (s : State) (t : TaskId) : (forgetWrites s t).pending = s.pending := rfl

@[simp] theorem askLines_pending (s : State) (l : List Nat) : (askLines s l).pending = s.pending := by
  unfold askLines
  refine foldl_pending _ _ fun s x => ?_
  repeat' split
  all_goals simp

@[simp] theorem poisonReply_pending (s : State) (l : Nat) : (poisonReply s l).pending = s.pending := rfl

@[simp] theorem countHostWrite_pending (s : State) : (countHostWrite s).pending = s.pending := by simp [countHostWrite]

@[simp] theorem wildLine_pending (s : State) (l : Nat) : (wildLine s l).pending = s.pending := by
  unfold wildLine
  split <;> simp

@[simp] theorem wildRead_pending (s : State) (l : Nat) : (wildRead s l).pending = s.pending := by simp [wildRead]

@[simp] theorem biRsp_pending (s : State) (l : Nat) (shared : Bool) : (biRsp s l shared).pending = s.pending := by
  simp [biRsp]

@[simp] theorem hostMemRow_queue (req : CxlReq) (l : Nat) (s : State) :
    queueOf (hostMemRow req l s) = some s.pending := by
  unfold hostMemRow
  repeat' split
  all_goals simp

@[simp] theorem execSnpInv_queue (line : Nat) (data : List (Nat × Byte)) (s : State) :
    queueOf (execSnpInv line data s) = some s.pending := rfl

@[simp] theorem execSnpData_queue (line : Nat) (s : State) : queueOf (execSnpData line s) = some s.pending := rfl

@[simp] theorem execSnpCur_queue (line : Nat) (s : State) : queueOf (execSnpCur line s) = some s.pending := rfl

end Sys2Proof.Machine
end

section
/-!
PROOFS. The queue of waiting commands stays as it is: tasks, flash, bales and queues.
-/

namespace Sys2Proof.Machine

@[simp] theorem modGraph_pending (s : State) (acc : Nat) (f : Graph → Graph) :
    (modGraph s acc f).pending = s.pending := rfl

@[simp] theorem modTask_pending (s : State) (t : TaskId) (f : Task → Task) : (modTask s t f).pending = s.pending := rfl

@[simp] theorem chargePen_pending (s : State) (p cls : Nat) (c : Charge) :
    (chargePen s p cls c).pending = s.pending := rfl

@[simp] theorem settlePen_pending (s : State) (p cls : Nat) (charged used : Charge) :
    (settlePen s p cls charged used).pending = s.pending := rfl

theorem takeHome_pending {s : State} {quad : Nat} {t : State} {x} (h : takeHome s quad = some (t, x)) :
    t.pending = s.pending := by
  unfold takeHome at h
  split at h <;> cases h
  rfl

theorem takeHomes_pending {s : State} {quad : Nat} {n : Nat} {t : State} {x} (h : takeHomes s quad n = some (t, x)) :
    t.pending = s.pending := by
  induction n generalizing s t x with
  | zero =>
    cases h
    rfl
  | succ n ih =>
    unfold takeHomes at h
    split at h
    · cases h
    · next s1 _ hhome =>
      split at h
      · cases h
      · next hrest =>
        cases h
        rw [ih hrest, takeHome_pending hhome]

@[simp] theorem freeHome_pending (s : State) (h : Home) : (freeHome s h).pending = s.pending := by
  unfold freeHome
  split <;> simp

@[simp] theorem freeHomes'_pending (s : State) (hs : List Home) : (freeHomes' s hs).pending = s.pending := by
  simp [freeHomes']

@[simp] theorem chargeBales_pending (s : State) (p n : Nat) : (chargeBales s p n).pending = s.pending := rfl

@[simp] theorem creditBales_pending (s : State) (p n : Nat) : (creditBales s p n).pending = s.pending := rfl

@[simp] theorem zeroHome_pending (s : State) (h : Home) : (zeroHome s h).pending = s.pending := by
  unfold zeroHome
  split <;> simp

theorem newObject_pending {s : State} {p num quad bytes : Nat} {kind : ObjKind} {t : State}
    (h : newObject s p num quad bytes kind = some t) : t.pending = s.pending := by
  simp only [newObject] at h
  split at h
  · split at h
    · cases h
    · next hhomes =>
      cases h
      simp [takeHomes_pending hhomes]
  · cases h

@[simp] theorem destroyObj_pending (s : State) (p num : Nat) : (destroyObj s p num).pending = s.pending := by
  unfold destroyObj
  split <;> simp

@[simp] theorem dropCopy_pending (s : State) (c : BaleCopy) : (dropCopy s c).pending = s.pending := rfl

@[simp] theorem takePool_pending (s : State) (n : Nat) : (takePool s n).1.pending = s.pending := rfl

theorem poolSlot_pending {s : State} {p quad : Nat} {t : State} {x} (h : poolSlot s p quad = some (t, x)) :
    t.pending = s.pending := by
  simp only [poolSlot] at h
  split at h
  · obtain ⟨c, -, hc⟩ := Option.map_eq_some_iff.1 h
    cases hc
    simp
  · split at h
    · cases h
      simp
    · obtain ⟨c, -, hc⟩ := Option.map_eq_some_iff.1 h
      cases hc
      simp

@[simp] theorem takePools_pending (s : State) (n : Nat) (k : Nat) : (takePools s n k).1.pending = s.pending := by
  induction k generalizing s with
  | zero => rfl
  | succ k ih =>
    simp [takePools, ih]

@[simp] theorem releaseReqs_pending (s : State) (t : TaskId) : (releaseReqs s t).pending = s.pending := by
  unfold releaseReqs
  refine foldl_pending _ _ fun s x => ?_
  simp

@[simp] theorem unpinCopy_pending (s : State) (t : TaskId) (c : BaleCopy) : (unpinCopy s t c).pending = s.pending := by
  simp [unpinCopy]

@[simp] theorem unpinTask_pending (s : State) (t : TaskId) : (unpinTask s t).pending = s.pending := by simp [unpinTask]

@[simp] theorem freeScratch_pending (s : State) (acc n : Nat) : (freeScratch s acc n).pending = s.pending := by
  unfold freeScratch
  repeat' split
  all_goals simp

@[simp] theorem rqWrite_pending (s : State) (ctl sq : Nat) (q : Rq) (r : Rec) :
    (rqWrite s ctl sq q r).pending = s.pending := by
  simp [rqWrite]

@[simp] theorem postRec_pending (s : State) (ctl sq : Nat) (r : Rec) : (postRec s ctl sq r).1.pending = s.pending := by
  unfold postRec
  repeat' split
  all_goals simp

@[simp] theorem postTaskRec_pending (s : State) (acc idx : Nat) : (postTaskRec s acc idx).pending = s.pending := by
  unfold postTaskRec
  repeat' split
  all_goals simp

@[simp] theorem tryGraph_pending (s : State) (acc : Nat) : (tryGraph s acc).pending = s.pending := by
  unfold tryGraph
  repeat' split
  all_goals simp

@[simp] theorem owePuts_pending (s : State) (l : List Rec) (st : Nat) : (owePuts s l st).pending = s.pending := rfl

@[simp] theorem drainRq_pending (s : State) (ctl sq : Nat) (n : Nat) : (drainRq s ctl sq n).pending = s.pending := by
  induction n generalizing s with
  | zero => rfl
  | succ n ih =>
    unfold drainRq
    repeat' split
    all_goals simp [ih]

@[simp] theorem afterComplete_pending (s : State) (t : TaskId) : (afterComplete s t).pending = s.pending := by
  unfold afterComplete
  split <;> simp

@[simp] theorem freeArrays_pending (s : State) (t : TaskId) : (freeArrays s t).pending = s.pending := rfl

@[simp] theorem leaveUnit_pending (s : State) (t : TaskId) : (leaveUnit s t).pending = s.pending := by simp [leaveUnit]

@[simp] theorem trimVersions_pending (s : State) (x : Index) : (trimVersions s x).pending = s.pending := by
  simp [trimVersions]

@[simp] theorem releaseIndex_pending (s : State) (p num : Nat) : (releaseIndex s p num).pending = s.pending := by
  unfold releaseIndex
  repeat' split
  all_goals simp

@[simp] theorem releaseEpochs_pending (s : State) (p : Nat) : (releaseEpochs s p).pending = s.pending := by
  simp [releaseEpochs]

@[simp] theorem beginWriteBack_pending (s : State) (t : TaskId) : (beginWriteBack s t).pending = s.pending := rfl

@[simp] theorem finishTask_pending (s : State) (t : TaskId) (status result : Nat) :
    (finishTask s t status result).pending = s.pending := rfl

@[simp] theorem dropBegun_pending (s : State) (p : Nat) (t : TaskId) : (dropBegun s p t).pending = s.pending := rfl

@[simp] theorem endTask_pending (s : State) (t : TaskId) (status : Nat) (used : Charge) :
    (endTask s t status used).pending = s.pending := by
  unfold endTask
  split <;> simp

@[simp] theorem completeTask_pending (s : State) (t : TaskId) (cycles : Nat) :
    (completeTask s t cycles).pending = s.pending := by
  unfold completeTask
  split <;> simp

@[simp] theorem failTask_pending (s : State) (t : TaskId) (status : Nat) :
    (failTask s t status).pending = s.pending := by
  unfold failTask
  split <;> simp

@[simp] theorem orderedDone_pending (s : State) (c : Cmd) (status : Nat) :
    (orderedDone s c status).pending = s.pending := by
  unfold orderedDone
  split <;> simp

@[simp] theorem ownerDone_pending (s : State) (o : Owner) (status : Nat) :
    (ownerDone s o status).pending = s.pending := by
  unfold ownerDone
  repeat' split
  all_goals simp

@[simp] theorem ownerStep_pending (s : State) (o : Owner) (unit status : Nat) :
    (ownerStep s o unit status).pending = s.pending := by
  unfold ownerStep
  split <;> simp

@[simp] theorem kickChan_pending (s : State) (c : Nat) : (kickChan s c).pending = s.pending := rfl

@[simp] theorem dropBuffered_pending (s : State) (lba : Nat) : (dropBuffered s lba).pending = s.pending := rfl

@[simp] theorem staleCopies_pending (s : State) (lba : Nat) : (staleCopies s lba).pending = s.pending := by
  unfold staleCopies
  refine foldl_pending _ _ fun s x => ?_
  simp

@[simp] theorem bufferUnit_pending (s : State) (o : Owner) (w : UnitWrite) :
    (bufferUnit s o w).pending = s.pending := by
  simp [bufferUnit]

@[simp] theorem bufferUnits_pending (s : State) (o : Owner) (l : List UnitWrite) :
    (bufferUnits s o l).1.pending = s.pending := by
  induction l generalizing s with
  | nil => rfl
  | cons x l ih =>
    simp only [bufferUnits]
    repeat' split
    all_goals simp [ih]

@[simp] theorem kindleUnit_pending (s : State) (o : Owner) (w : UnitWrite) :
    (kindleUnit s o w).pending = s.pending := by
  simp only [kindleUnit]
  repeat' split
  all_goals simp

@[simp] theorem writeUnits_pending (s : State) (o : Owner) (fua : Bool) (ws : List UnitWrite) :
    (writeUnits s o fua ws).pending = s.pending := by
  simp [writeUnits]

@[simp] theorem admitWaiting_pending (s : State) (n : Nat) : (admitWaiting s n).pending = s.pending := by
  induction n generalizing s with
  | zero => rfl
  | succ n ih =>
    unfold admitWaiting
    split <;> simp [ih]

@[simp] theorem trimUnit_pending (s : State) (lba : Nat) : (trimUnit s lba).pending = s.pending := by
  simp only [trimUnit]
  repeat' split
  all_goals simp

@[simp] theorem checkReadOnly_pending (s : State) (c : Nat) : (checkReadOnly s c).pending = s.pending := by
  simp [checkReadOnly]

theorem programPage_pending {s : State} {c space kind : Nat} {units : List (Nat × List Host.Cell)} {t : State}
    (h : programPage s c space kind units = some t) : t.pending = s.pending := by
  simp only [programPage] at h
  repeat' split at h
  all_goals cases h
  all_goals simp

theorem programNow_pending {s : State} {c : Nat} {units : List (Nat × List Host.Cell)} {t : State}
    (h : programNow s c units = some t) : t.pending = s.pending := programPage_pending h

theorem programBulk_pending {s : State} {c space : Nat} {pages : List (List (Nat × List Host.Cell))} {t : State}
    (h : programBulk s c space pages = some t) : t.pending = s.pending := by
  simp only [programBulk] at h
  repeat' split at h
  all_goals cases h
  all_goals simp

@[simp] theorem formNamespace_pending (s : State) : (formNamespace s).pending = s.pending := by simp [formNamespace]

@[simp] theorem mendSram_pending (s : State) (a n : Nat) : (mendSram s a n).pending = s.pending := by simp [mendSram]

@[simp] theorem recOp_pending (s : State) (stream p : Nat) (op : OpRef) (n : Nat) :
    (recOp s stream p op n).pending = s.pending := by
  unfold recOp
  split <;> simp

@[simp] theorem writeSeg_pending (s : State) (t : Option TaskId) (agent : Nat) (x : Seg) (bs : List Byte) :
    (writeSeg s t agent x bs).pending = s.pending := by
  cases x with
  | unit lba off =>
    simp only [writeSeg]
    split
    · rfl
    · split
      · rfl
      · exact getD_pending (fun t h => by simp [programNow_pending h]) rfl
  | _ => simp [writeSeg]

@[simp] theorem writeSegs_pending (s : State) (t : Option TaskId) (agent : Nat) (l : List (Seg × Nat))
    (xs : List Byte) : (writeSegs s t agent l xs).pending = s.pending := by
  induction l generalizing s xs with
  | nil => rfl
  | cons x l ih =>
    simp [writeSegs, ih]

@[simp] theorem writeTask_pending (s : State) (t : TaskId) (p : Nat) (g : Option Graph) (op : OpRef) (off : Nat)
    (bs : List Byte) : (writeTask s t p g op off bs).pending = s.pending := by
  simp [writeTask]

@[simp] theorem writeHome_pending (s : State) (p : Nat) (g : Option Graph) (op : OpRef) (off : Nat) (bs : List Byte) :
    (writeHome s p g op off bs).pending = s.pending := by
  simp [writeHome]

@[simp] theorem smudgeSeg_pending (s : State) (x : Seg × Nat) : (smudgeSeg s x).pending = s.pending := by
  unfold smudgeSeg
  split <;> simp

@[simp] theorem modCopy_pending (s : State) (n : Nat) (f : BaleCopy → BaleCopy) :
    (modCopy s n f).pending = s.pending := rfl

@[simp] theorem noteRun_pending (s : State) (t : TaskId) (op : OpRef) (x : Nat × Nat × Seg × Option BaleCopy) :
    (noteRun s t op x).pending = s.pending := by
  unfold noteRun
  split <;> simp

@[simp] theorem smudgeOp_pending (s : State) (p : Nat) (g : Option Graph) (op : OpRef) (off n : Nat) :
    (smudgeOp s p g op off n).pending = s.pending := by
  unfold smudgeOp
  split <;> simp

theorem startFill_pending {s : State} {p quad : Nat} {b : BaleId} {t : TaskId} {u : State}
    (h : startFill s p quad b t = some u) : u.pending = s.pending := by
  unfold startFill at h
  split at h
  · cases h
    simp
  · split at h
    · cases h
    · next hslot =>
      cases h
      have hs := poolSlot_pending hslot
      exact hs

@[simp] theorem pinBale_pending (s : State) (p quad : Nat) (t : TaskId) (b : BaleId) :
    (pinBale s p quad t b).pending = s.pending := by
  unfold pinBale
  split
  · split <;> simp
  · exact getD_pending (fun u h => startFill_pending h) rfl

@[simp] theorem fetchAhead_pending (s : State) : (fetchAhead s).pending = s.pending := by simp [fetchAhead]

@[simp] theorem fillSlot_pending (s : State) (c : BaleCopy) (cells : List Host.Cell) :
    (fillSlot s c cells).pending = s.pending := rfl

@[simp] theorem writeOp_pending (s : State) (t : TaskId) (p quad : Nat) (g : Option Graph) (op : OpRef) (off : Nat)
    (bs : List Byte) : (writeOp s t p quad g op off bs).pending = s.pending := by
  simp [writeOp]

@[simp] theorem writeBackRun_pending (s : State) (b : BaleId) (off : Nat) (bs : List Byte) :
    (writeBackRun s b off bs).pending = s.pending := by
  unfold writeBackRun
  split <;> simp

@[simp] theorem smudgeRun_pending (s : State) (b : BaleId) (off n : Nat) :
    (smudgeRun s b off n).pending = s.pending := by
  unfold smudgeRun
  split <;> simp

@[simp] theorem charge_pending (s : State) (t : TaskId) (bytes ops : Nat) :
    (charge s t bytes ops).pending = s.pending := rfl

@[simp] theorem chargeFill_pending (s : State) (c : BaleCopy) : (chargeFill s c).pending = s.pending := by
  unfold chargeFill
  split <;> simp

@[simp] theorem writeBackOne_pending (s : State) (c : BaleCopy) (x : TaskId × Nat × Nat) :
    (writeBackOne s c x).pending = s.pending := by
  simp [writeBackOne]

@[simp] theorem writeBack_pending (s : State) (c : BaleCopy) : (writeBack s c).pending = s.pending := by
  simp [writeBack]

@[simp] theorem syncIndex_pending (s : State) (p num : Nat) : (syncIndex s p num).pending = s.pending := by
  unfold syncIndex
  repeat' split
  all_goals simp

@[simp] theorem orphanAll_pending (p : Cmd → Bool) (s : State) : (orphanAll p s).pending = s.pending := rfl

@[simp] theorem dropRecords_pending (s : State) (p : Cmd → Bool) : (dropRecords s p).pending = s.pending := by
  simp [dropRecords]

@[simp] theorem performWaiting_pending (s : State) (q : Sq) : (performWaiting s q).pending = s.pending := by
  simp [performWaiting]

@[simp] theorem deleteSq_pending (s : State) (ctl qid : Nat) : (deleteSq s ctl qid).pending = s.pending := by
  simp [deleteSq]

@[simp] theorem resetCtl_pending (s : State) (ctl : Nat) : (resetCtl s ctl).pending = s.pending := by simp [resetCtl]

@[simp] theorem wildPages_pending (s : State) (prp : List Nat) : (wildPages s prp).pending = s.pending := by
  simp [wildPages]

@[simp] theorem prpWrite_pending (s : State) (prp : List Nat) (bs : List Byte) :
    (prpWrite s prp bs).pending = s.pending := by
  simp [prpWrite]

@[simp] theorem pageRec_pending (fn : Nat) (l : List Nat) (n : Nat) (s : State) :
    (pageRec fn l n s).pending = s.pending := by
  induction l generalizing s n with
  | nil => rfl
  | cons x l ih =>
    simp [pageRec, ih]

@[simp] theorem prpRec_pending (fn : Nat) (l : List Nat) (n : Nat) (s : State) :
    (prpRec fn l n s).pending = s.pending := by
  simp [prpRec]

@[simp] theorem chargeIo_pending (s : State) (p : Nat) (stackB pages : Nat) :
    (chargeIo s p stackB pages).pending = s.pending := rfl

@[simp] theorem startOrdered_pending (s : State) (w : OrdWrite) (num : Nat) :
    (startOrdered s w num).pending = s.pending := by
  simp only [startOrdered]
  repeat' split
  all_goals simp

@[simp] theorem settleOrdered_pending (s : State) (n : Nat) : (settleOrdered s n).pending = s.pending := by
  induction n generalizing s with
  | zero => rfl
  | succ n ih =>
    unfold settleOrdered
    split <;> simp [ih]

@[simp] theorem withKeyed_queue (s : State) (c : Cmd) (b : KBlock) (code : Nat) (permit : Nat → Bool)
    (f : State → Nat → State) (hf : ∀ s x0, (f s x0).pending = s.pending) :
    queueOf (withKeyed s c b code permit f) = some s.pending := by
  simp [withKeyed, hf]

@[simp] theorem withKeyedArgs_queue (s : State) (c : Cmd) (b : KBlock) (code : Nat) (permit : Nat → Bool) (ok : Bool)
    (f : State → Nat → State) (hf : ∀ s x0, (f s x0).pending = s.pending) :
    queueOf (withKeyedArgs s c b code permit ok f) = some s.pending := by
  simp [withKeyedArgs, hf]

end Sys2Proof.Machine
end

section
/-!
PROOFS. The queue of waiting commands stays as it is: the NVMe surface and the media.
-/

namespace Sys2Proof.Machine

@[simp] theorem withIo_queue (s : State) (c : Cmd) (f : State → Nat → State)
    (hf : ∀ s x0, (f s x0).pending = s.pending) : queueOf (withIo s c f) = some s.pending := by
  simp [withIo, hf]

@[simp] theorem execFlush_queue (c : Cmd) (s : State) : queueOf (execFlush c s) = some s.pending := by simp [execFlush]

@[simp] theorem execWrite_queue (c : Cmd) (slba blocks : Nat) (fua : Bool) (prp : List Nat) (s : State) :
    queueOf (execWrite c slba blocks fua prp s) = some s.pending := by
  unfold execWrite
  split
  · rfl
  · refine withIo_queue _ _ _ fun s n => ?_
    dsimp only
    split
    · simp
    · split <;> simp

@[simp] theorem readUnits_pending (s : State) (o : Owner) (put : State → Nat → List Byte → State)
    (l : List (Nat × Nat)) (hput : ∀ s x0 x1, (put s x0 x1).pending = s.pending) :
    (readUnits s o put l).pending = s.pending := by
  unfold readUnits
  refine foldl_pending _ _ fun s x => ?_
  split
  · dsimp only
    split <;> simp [hput]
  · simp
  · simp

@[simp] theorem putHost_pending (s : State) (a : Nat) (bs : List Byte) : (putHost s a bs).pending = s.pending := by
  simp [putHost]

@[simp] theorem execRead_queue (c : Cmd) (slba blocks : Nat) (prp : List Nat) (s : State) :
    queueOf (execRead c slba blocks prp s) = some s.pending := by
  unfold execRead
  split
  · rfl
  · refine withIo_queue _ _ _ fun s n => ?_
    dsimp only
    split
    · simp
    · split
      · exact (readUnits_pending _ _ _ _ putHost_pending).trans (chargeIo_pending ..)
      · simp

@[simp] theorem execDatasetManagement_queue (c : Cmd) (ranges : List (Nat × Nat)) (deallocate : Bool) (s : State) :
    queueOf (execDatasetManagement c ranges deallocate s) = some s.pending := by
  simp [execDatasetManagement]

@[simp] theorem execWriteBufferAdmit_queue (s : State) : queueOf (execWriteBufferAdmit s) = some s.pending := by
  simp [execWriteBufferAdmit]

@[simp] theorem execWriteBufferDrain_queue (channel : Nat) (s : State) :
    queueOf (execWriteBufferDrain channel s) = some s.pending := by
  unfold execWriteBufferDrain
  split <;> simp

@[simp] theorem putTask_pending (t : TaskId) (s : State) (off : Nat) (bs : List Byte) :
    (putTask t s off bs).pending = s.pending := by
  unfold putTask
  split <;> simp

@[simp] theorem putOwner_pending (o : Owner) (s : State) (dest : Nat) (bs : List Byte) :
    (putOwner o s dest bs).pending = s.pending := by
  unfold putOwner
  split <;> simp

@[simp] theorem uncorrEvents_pending (s : State) (channel n what : Nat) :
    (uncorrEvents s channel n what).pending = s.pending := by
  simp [uncorrEvents]

@[simp] theorem execPageReadDone_queue (channel op : Nat) (decoded : List Bool) (s : State) :
    queueOf (execPageReadDone channel op decoded s) = some s.pending := by
  simp only [execPageReadDone]
  repeat' split
  all_goals simp

@[simp] theorem landCkpt_pending (s : State) (channel c : Nat) : (landCkpt s channel c).pending = s.pending := rfl

@[simp] theorem landOwners_pending (s : State) (channel : Nat) (l : List (Sector × Owner)) :
    (landOwners s channel l).pending = s.pending := by
  simp [landOwners]

@[simp] theorem afterProgram_pending (channel : Nat) (s : State) : (afterProgram channel s).pending = s.pending := by
  simp [afterProgram]

@[simp] theorem endProgram_queue (channel op : Nat) (pass : Bool) (s : State) :
    queueOf (endProgram channel op pass s) = some s.pending := by
  simp only [endProgram]
  repeat' split
  all_goals simp

@[simp] theorem execProgramDone_queue (channel op : Nat) (pass : Bool) (s : State) :
    queueOf (execProgramDone channel op pass s) = some s.pending := by
  unfold execProgramDone
  split <;> simp

@[simp] theorem execEraseDone_queue (channel op : Nat) (pass : Bool) (s : State) :
    queueOf (execEraseDone channel op pass s) = some s.pending := by
  unfold execEraseDone
  split <;> simp

@[simp] theorem execKindlingPad_queue (channel : Nat) (s : State) :
    queueOf (execKindlingPad channel s) = some s.pending := by
  simp [execKindlingPad]

@[simp] theorem execJournalPageTimeout_queue (channel : Nat) (s : State) :
    queueOf (execJournalPageTimeout channel s) = some s.pending := rfl

@[simp] theorem execFoldStart_queue (channel lun : Nat) (s : State) :
    queueOf (execFoldStart channel lun s) = some s.pending := by
  fun_cases execFoldStart channel lun s <;> simp

@[simp] theorem execGcStart_queue (channel lun : Nat) (s : State) :
    queueOf (execGcStart channel lun s) = some s.pending := by
  simp [execGcStart]

@[simp] theorem execCheckpointStart_queue (channel : Nat) (s : State) :
    queueOf (execCheckpointStart channel s) = some s.pending := by
  fun_cases execCheckpointStart channel s <;> simp

@[simp] theorem execPatrolRead_queue (channel : Nat) (late : List Nat) (rest : PatrolEnd) (s : State) :
    queueOf (execPatrolRead channel late rest s) = some s.pending := by
  simp [execPatrolRead]

@[simp] theorem execReadLevelReplan_queue (channel lun group : Nat) (tried : List (List (BitVec 8) × Nat)) (s : State)
    : queueOf (execReadLevelReplan channel lun group tried s) = some s.pending := by
  simp [execReadLevelReplan]

@[simp] theorem execFlashTemperatureSample_queue (temps : List Nat) (s : State) :
    queueOf (execFlashTemperatureSample temps s) = some s.pending := by
  simp [execFlashTemperatureSample]

@[simp] theorem placeSeg_pending (s : State) (x : Nat × Nat) : (placeSeg s x).pending = s.pending := by
  fun_cases placeSeg s x <;> simp

@[simp] theorem execRebuild_queue (channel : Nat) (segment : Option Nat) (s : State) :
    queueOf (execRebuild channel segment s) = some s.pending := by
  unfold execRebuild
  split <;> simp

@[simp] theorem execRebuildDone_queue (channel : Nat) (s : State) :
    queueOf (execRebuildDone channel s) = some s.pending := by
  simp only [execRebuildDone]
  split
  · rfl
  · split
    · simp
    · split
      · simp
      · generalize hloaded : List.foldl placeSeg _ _ = u
        have hu : u.pending = s.pending := by
          rw [← hloaded, foldl_pending _ _ placeSeg_pending, updChan_pending]
        simp [hu]

@[simp] theorem setRun_pending (s : State) (t : TaskId) (r : Run) : (setRun s t r).pending = s.pending := rfl

@[simp] theorem failFill_pending (s : State) (c : BaleCopy) : (failFill s c).pending = s.pending := by simp [failFill]

@[simp] theorem execBaleMoveDone_queue (copy : Nat) (ok : Bool) (s : State) :
    queueOf (execBaleMoveDone copy ok s) = some s.pending := by
  unfold execBaleMoveDone
  repeat' split
  all_goals simp

@[simp] theorem execWriteBackDone_queue (copy : Nat) (s : State) :
    queueOf (execWriteBackDone copy s) = some s.pending := by
  unfold execWriteBackDone
  split <;> simp

end Sys2Proof.Machine
end

section
/-!
PROOFS. The queue of waiting commands stays as it is: graphs, admin commands, pens and the tasks of the tiles, stacks and engines.
-/

namespace Sys2Proof.Machine

@[simp] theorem dropSubmit_pending (s : State) (ctl sq : Nat) : (dropSubmit s ctl sq).pending = s.pending := rfl

@[simp] theorem acceptGraph_pending (s : State) (c : Cmd) (num : Nat) (h : Header) (tasks : List Task)
    (edges : List Edge) : (acceptGraph s c num h tasks edges).pending = s.pending := by
  simp [acceptGraph]

@[simp] theorem recGraph_pending (s : State) (p : Nat) (ref : OpRef) (h : Header) :
    (recGraph s p ref h).pending = s.pending := by
  simp [recGraph]

@[simp] theorem execGraphAccept_queue (ctl sq : Nat) (s : State) :
    queueOf (execGraphAccept ctl sq s) = some s.pending := by
  simp only [execGraphAccept]
  repeat' split
  all_goals simp

@[simp] theorem execNop_queue (t : TaskId) (s : State) : queueOf (execNop t s) = some s.pending := by
  unfold execNop
  split <;> simp

@[simp] theorem execFence_queue (t : TaskId) (s : State) : queueOf (execFence t s) = some s.pending := by
  unfold execFence
  split <;> simp

@[simp] theorem execAlloc_queue (t : TaskId) (s : State) : queueOf (execAlloc t s) = some s.pending := by
  unfold execAlloc
  split <;> simp

@[simp] theorem execFree_queue (t : TaskId) (s : State) : queueOf (execFree t s) = some s.pending := by
  unfold execFree
  split <;> simp

@[simp] theorem unpredictable_pending (s : State) (t : TaskId) (g : Graph) (outs : List (OpRef × Nat)) :
    (unpredictable s t g outs).pending = s.pending := by
  simp [unpredictable]

@[simp] theorem lostTask_pending (s : State) (t : TaskId) (restart : Bool) :
    (lostTask s t restart).pending = s.pending := by
  unfold lostTask
  split <;> simp

@[simp] theorem markOut_pending (s : State) : (markOut s).pending = s.pending := rfl

@[simp] theorem updArr_pending (s : State) (tile a : Nat) (f : Arr → Arr) :
    (updArr s tile a f).pending = s.pending := rfl

@[simp] theorem readFailed_pending (s : State) (t : TaskId) (g : Graph) (k : Task) (status : Nat) :
    (readFailed s t g k status).pending = s.pending := by
  simp [readFailed]

@[simp] theorem spoilUsers_pending (s : State) (l : Nat) : (spoilUsers s l).pending = s.pending := by simp [spoilUsers]

@[simp] theorem updPort_pending (s : State) (p : Nat) (f : FPort → FPort) : (updPort s p f).pending = s.pending := rfl

@[simp] theorem updCtx_pending (s : State) (c : Nat) (f : Ctx → Ctx) : (updCtx s c f).pending = s.pending := rfl

@[simp] theorem emitFlit_pending (s : State) (p : Nat) (f : Flit) : (emitFlit s p f).pending = s.pending := rfl

@[simp] theorem pumpPort_pending (s : State) (p : Nat) (n : Nat) : (pumpPort s p n).pending = s.pending := by
  induction n generalizing s with
  | zero => rfl
  | succ n ih =>
    simp only [pumpPort]
    repeat' split
    all_goals simp [ih]

@[simp] theorem pump_pending (s : State) (p : Nat) : (pump s p).pending = s.pending := by simp [pump]

@[simp] theorem sendMsg_pending (s : State) (m : FlueMsg) : (sendMsg s m).pending = s.pending := by
  unfold sendMsg
  repeat' split
  all_goals simp

@[simp] theorem flushOutbox_pending (s : State) : (flushOutbox s).pending = s.pending := by simp [flushOutbox]

@[simp] theorem flueOut_pending (s : State) (m : FlueMsg) : (flueOut s m).pending = s.pending := by
  unfold flueOut
  repeat' split
  all_goals simp

@[simp] theorem sendNumbered_pending (s : State) (c : Nat) (m : FlueMsg) :
    (sendNumbered s c m).pending = s.pending := by
  simp [sendNumbered]

@[simp] theorem ctxSend_pending (s : State) (c type gen corrid : Nat) (body : List Byte) :
    (ctxSend s c type gen corrid body).pending = s.pending := by
  simp [ctxSend]

@[simp] theorem sendOwed_pending (s : State) : (sendOwed s).pending = s.pending := by simp [sendOwed]

@[simp] theorem drainCtx_pending (s : State) (c : Nat) (n : Nat) : (drainCtx s c n).pending = s.pending := by
  induction n generalizing s with
  | zero => rfl
  | succ n ih =>
    simp only [drainCtx]
    repeat' split
    all_goals simp [ih]

@[simp] theorem sendAck_pending (s : State) (c : Nat) : (sendAck s c).pending = s.pending := by simp [sendAck]

@[simp] theorem rejectMsg_pending (s : State) : (rejectMsg s).pending = s.pending := rfl

theorem takeInbox_pending {s : State} {m : FlueMsg} {type : Nat} {t : State} (h : takeInbox s m type = some t) :
    t.pending = s.pending := by
  unfold takeInbox at h
  split at h <;> cases h
  rfl

@[simp] theorem flueIn_pending (s : State) (m : FlueMsg) : (flueIn s m).pending = s.pending := by simp [flueIn]

@[simp] theorem acceptMsg_pending (s : State) (m : FlueMsg) (f : State → State) (hf : ∀ s, (f s).pending = s.pending)
    : (acceptMsg s m f).pending = s.pending := by
  simp [acceptMsg, hf]

@[simp] theorem onMsg_queue (s : State) (m : FlueMsg) (type : Nat) (f : State → State)
    (hf : ∀ s, (f s).pending = s.pending) : queueOf (onMsg s m type f) = some s.pending := by
  unfold onMsg
  split
  · rfl
  · next htake =>
    simp [acceptMsg_pending _ _ _ hf, takeInbox_pending htake]

@[simp] theorem drawCorr_pending (s : State) : (drawCorr s).2.pending = s.pending := rfl

@[simp] theorem withAdmin_queue (s : State) (c : Cmd) (f : State → State) (hf : ∀ s, (f s).pending = s.pending) :
    queueOf (withAdmin s c f) = some s.pending := by
  simp [withAdmin, hf]

@[simp] theorem putSq_pending (s : State) (c : Cmd) (qid : Nat) (q : Sq) : (putSq s c qid q).pending = s.pending := rfl

@[simp] theorem execCreateIoSq_queue (c : Cmd) (qid base entries cqid : Nat) (pc : Bool) (s : State) :
    queueOf (execCreateIoSq c qid base entries cqid pc s) = some s.pending := by
  simp [execCreateIoSq]

@[simp] theorem execCreateSkexQueue_queue (c : Cmd) (qid base entries cqid rqBase rqEntries : Nat) (pc : Bool)
    (s : State) : queueOf (execCreateSkexQueue c qid base entries cqid rqBase rqEntries pc s) = some s.pending := by
  simp [execCreateSkexQueue]

@[simp] theorem execDeleteIoSq_queue (c : Cmd) (qid : Nat) (s : State) :
    queueOf (execDeleteIoSq c qid s) = some s.pending := by
  simp [execDeleteIoSq]

@[simp] theorem execCreateIoCq_queue (c : Cmd) (qid base entries iv : Nat) (ien pc : Bool) (s : State) :
    queueOf (execCreateIoCq c qid base entries iv ien pc s) = some s.pending := by
  simp [execCreateIoCq]

@[simp] theorem execDeleteIoCq_queue (c : Cmd) (qid : Nat) (s : State) :
    queueOf (execDeleteIoCq c qid s) = some s.pending := by
  simp [execDeleteIoCq]

@[simp] theorem execIdentify_queue (c : Cmd) (cns : Nat) (prp : List Nat) (s : State) :
    queueOf (execIdentify c cns prp s) = some s.pending := by
  simp [execIdentify]

@[simp] theorem execGetLogPage_queue (c : Cmd) (lid offset length : Nat) (prp : List Nat) (s : State) :
    queueOf (execGetLogPage c lid offset length prp s) = some s.pending := by
  simp only [execGetLogPage]
  split
  · split
    · split <;> simp
    · refine withAdmin_queue _ _ _ fun s => ?_
      split <;> simp
  · rfl

@[simp] theorem execAbort_queue (c : Cmd) (s : State) : queueOf (execAbort c s) = some s.pending := by simp [execAbort]

@[simp] theorem execSetFeatures_queue (c : Cmd) (fid : Nat) (value : W32) (s : State) :
    queueOf (execSetFeatures c fid value s) = some s.pending := by
  simp [execSetFeatures]

@[simp] theorem execGetFeatures_queue (c : Cmd) (fid : Nat) (s : State) :
    queueOf (execGetFeatures c fid s) = some s.pending := by
  simp [execGetFeatures]

@[simp] theorem execAsynchronousEventRequest_queue (c : Cmd) (s : State) :
    queueOf (execAsynchronousEventRequest c s) = some s.pending := by
  simp [execAsynchronousEventRequest]

@[simp] theorem execSanitize_queue (c : Cmd) (action : Nat) (s : State) :
    queueOf (execSanitize c action s) = some s.pending := by
  simp [execSanitize]

@[simp] theorem execSanitizeEnd_queue (s : State) : queueOf (execSanitizeEnd s) = some s.pending := by
  simp [execSanitizeEnd]

@[simp] theorem execInvalidCommandOpcode_queue (c : Cmd) (opcode : Nat) (s : State) :
    queueOf (execInvalidCommandOpcode c opcode s) = some s.pending := by
  simp [execInvalidCommandOpcode]

@[simp] theorem giveVecs_pending (s : State) (p b n : Nat) : (giveVecs s p b n).pending = s.pending := rfl

@[simp] theorem takeVecs_pending (s : State) (p : Nat) : (takeVecs s p).pending = s.pending := rfl

@[simp] theorem penCreate_pending (s : State) (c : Cmd) (b : KBlock) : (penCreate s c b).pending = s.pending := by
  fun_cases penCreate s c b <;> simp

@[simp] theorem execPenCreate_queue (c : Cmd) (b : KBlock) (s : State) :
    queueOf (execPenCreate c b s) = some s.pending := by
  simp [execPenCreate]

@[simp] theorem execPenQuota_queue (c : Cmd) (b : KBlock) (s : State) :
    queueOf (execPenQuota c b s) = some s.pending := by
  simp [execPenQuota]

@[simp] theorem execPenDamper_queue (c : Cmd) (b : KBlock) (s : State) :
    queueOf (execPenDamper c b s) = some s.pending := by
  simp [execPenDamper]

@[simp] theorem execDamperTick_queue (s : State) : queueOf (execDamperTick s) = some s.pending := rfl

@[simp] theorem execVectorTimeExpiry_queue (vector : Nat) (s : State) :
    queueOf (execVectorTimeExpiry vector s) = some s.pending := by
  simp [execVectorTimeExpiry]

@[simp] theorem execMsixUnmask_queue (vector : Nat) (s : State) :
    queueOf (execMsixUnmask vector s) = some s.pending := by
  simp [execMsixUnmask]

@[simp] theorem execPenVmodWrite_queue (value : W64) (s : State) :
    queueOf (execPenVmodWrite value s) = some s.pending := by
  simp [execPenVmodWrite]

@[simp] theorem abortTask_pending (s : State) (t : TaskId) : (abortTask s t).pending = s.pending := by simp [abortTask]

@[simp] theorem beginPenReset_pending (s : State) (p : Nat) (w : List (Cmd × Bool)) :
    (beginPenReset s p w).pending = s.pending := by
  simp [beginPenReset]

@[simp] theorem execPenReset_queue (c : Cmd) (b : KBlock) (s : State) :
    queueOf (execPenReset c b s) = some s.pending := by
  simp [execPenReset]

@[simp] theorem execPenDestroy_queue (c : Cmd) (b : KBlock) (s : State) :
    queueOf (execPenDestroy c b s) = some s.pending := by
  simp [execPenDestroy]

@[simp] theorem execUndefinedControlCode_queue (c : Cmd) (code : BitVec 16) (b : KBlock) (s : State) :
    queueOf (execUndefinedControlCode c code b s) = some s.pending := by
  simp [execUndefinedControlCode]

@[simp] theorem keepList_pending (s : State) (t : TaskId) (k : Task) (n : Nat) (l : List Hit) :
    (keepList s t k n l).pending = s.pending := by
  simp [keepList]

@[simp] theorem writeResults_pending (s : State) (t : TaskId) (g : Graph) (k : Task) (op : OpRef) (kind n : Nat)
    (l : List Hit) : (writeResults s t g k op kind n l).pending = s.pending := by
  simp [writeResults]

@[simp] theorem execMerge_queue (t : TaskId) (s : State) : queueOf (execMerge t s) = some s.pending := by
  unfold execMerge
  split <;> simp

@[simp] theorem execModelCreate_queue (t : TaskId) (s : State) : queueOf (execModelCreate t s) = some s.pending := by
  unfold execModelCreate
  split
  · rfl
  · split
    · simp
    · extract_lets num
      split
      · simp
      · split
        · simp
        · split
          · simp
          · next hnew => simp [newObject_pending hnew]

@[simp] theorem execModelDestroy_queue (t : TaskId) (s : State) : queueOf (execModelDestroy t s) = some s.pending := by
  unfold execModelDestroy
  repeat' split
  all_goals simp

@[simp] theorem writeRun_pending (s : State) (t : TaskId) (g : Graph) (k : Task) (p : RunParam) (out : MBuf)
    (tokens : Nat) (inres key : List Byte) : (writeRun s t g k p out tokens inres key).pending = s.pending := by
  unfold writeRun
  split <;> simp

@[simp] theorem countRun_pending (s : State) (t : TaskId) (k : Task) (l : List (MStep × List Nat)) :
    (countRun s t k l).pending = s.pending := by
  unfold countRun
  refine foldl_pending _ _ fun s x => ?_
  simp

@[simp] theorem execModelRun_queue (t : TaskId) (s : State) : queueOf (execModelRun t s) = some s.pending := by
  simp only [execModelRun]
  repeat' split
  all_goals simp

@[simp] theorem execVectorStep_queue (t : TaskId) (s : State) : queueOf (execVectorStep t s) = some s.pending := by
  simp only [execVectorStep]
  repeat' split
  all_goals simp

@[simp] theorem execVectorFilter_queue (t : TaskId) (s : State) : queueOf (execVectorFilter t s) = some s.pending := by
  unfold execVectorFilter
  repeat' split
  all_goals simp

@[simp] theorem execTokenize_queue (t : TaskId) (s : State) : queueOf (execTokenize t s) = some s.pending := by
  unfold execTokenize
  repeat' split
  all_goals simp

@[simp] theorem execPack_queue (t : TaskId) (s : State) : queueOf (execPack t s) = some s.pending := by
  fun_cases execPack t s <;> simp

@[simp] theorem setBankHome_pending (s : State) (g : Graph) (op : OpRef) (j : Nat) (h : Home) :
    (setBankHome s g op j h).pending = s.pending := by
  unfold setBankHome
  split <;> simp

@[simp] theorem clrLines_pending (s : State) (a n : Nat) : (clrLines s a n).pending = s.pending := by simp [clrLines]

@[simp] theorem moveBale_pending (s : State) (old : Home) (n slot : Nat) :
    (moveBale s old n slot).pending = s.pending := by
  unfold moveBale
  split <;> simp

theorem coPlace_pending {s : State} {t : TaskId} {g : Graph} {op : OpRef} {j n : Nat} {u : State}
    (h : coPlace s t g op j n = some u) : u.pending = s.pending := by
  simp only [coPlace] at h
  repeat' split at h
  all_goals cases h
  all_goals simp

theorem placeAll_pending {s : State} {t : TaskId} {k : Task} {p : NProg} {l : List Nat} {u : State} {x}
    (h : placeAll s t k p l = some (u, x)) : u.pending = s.pending := by
  induction l generalizing s u x with
  | nil =>
    cases h
    rfl
  | cons j l ih =>
    unfold placeAll at h
    split at h
    · cases h
    · split at h
      · cases h
      · dsimp only at h
        split at h
        · cases h
        · next s1 hplaced =>
          obtain ⟨y, hy, hx⟩ := Option.map_eq_some_iff.1 h
          cases hx
          rw [ih hy]
          refine foldlO_pending _ _ ?_ (fun _ h => by cases h; rfl) _ hplaced
          intro o i ho v hv
          obtain ⟨w, rfl, hw⟩ := Option.bind_eq_some_iff.1 hv
          split at hw
          · rw [coPlace_pending hw, ho w rfl]
          · cases hw

@[simp] theorem clrOperand_pending (s : State) (g : Graph) (op : OpRef) (n : Nat) :
    (clrOperand s g op n).pending = s.pending := by
  unfold clrOperand
  refine foldl_pending _ _ fun s x => ?_
  repeat' split
  all_goals simp

@[simp] theorem execNbuSeq_queue (t : TaskId) (s : State) : queueOf (execNbuSeq t s) = some s.pending := by
  unfold execNbuSeq
  split
  · rfl
  · split
    · rfl
    · split
      · simp
      · split
        · simp
        · extract_lets plan
          split
          · rfl
          · split
            · rfl
            · next hplaced =>
              have hs := placeAll_pending hplaced
              split
              · rfl
              · extract_lets rb
                clear_value rb
                split
                · simp [hs]
                · simp only [queueOf_next, setRun_pending]
                  rw [foldl_pending, foldl_pending, hs] <;> simp

@[simp] theorem loseUnit_pending (s : State) (n u : Nat) : (loseUnit s n u).pending = s.pending := by simp [loseUnit]

@[simp] theorem serveWaiting_pending (s : State) (n l : Nat) : (serveWaiting s n l).pending = s.pending := by
  unfold serveWaiting
  split <;> simp

@[simp] theorem boundary_pending (s : State) (n u : Nat) : (boundary s n u).pending = s.pending := by simp [boundary]

@[simp] theorem settleNbu_pending (s : State) (t : TaskId) (stks : List Nat) (n : Nat) :
    (settleNbu s t stks n).pending = s.pending := by
  simp [settleNbu]

@[simp] theorem runMicro_pending (s : State) (t : TaskId) (g : Graph) (k : Task) (p : NProg) (stks : List Nat)
    (n u : Nat) (un : Nbu) : (runMicro s t g k p stks n u un).pending = s.pending := by
  unfold runMicro
  extract_lets x ce off addr load store la sa n8 moved ls src r s1 loaded val vals s2 s3 un1 s4 had has s5
  clear_value la sa
  have hmoved (s : State) (b : Nat) : (moved s b).pending = s.pending := by simp [moved]
  have h1 : s1.pending = s.pending := by simp [s1, r]
  have h2 : s2.pending = s.pending := by
    simp only [s2]
    split <;> simp [hmoved, h1]
  have h3 : s3.pending = s.pending := by
    simp only [s3]
    split <;> simp [hmoved, h2]
  have h5 : s5.pending = s.pending := by
    simp only [s5]
    split
    · split <;> simp [s4, h3]
    · simp [s4, h3]
  split
  · simp
  · split
    · simp [hmoved, src]
    · simp [h5]

@[simp] theorem execMicroOp_queue (stack unit : Nat) (parityFail : Bool) (s : State) :
    queueOf (execMicroOp stack unit parityFail s) = some s.pending := by
  fun_cases execMicroOp stack unit parityFail s <;> simp

@[simp] theorem execRefreshDue_queue (stack unit : Nat) (s : State) :
    queueOf (execRefreshDue stack unit s) = some s.pending := by
  simp [execRefreshDue]

@[simp] theorem execPatrolScrub_queue (stack : Nat) (correctable : List Nat) (rest : ScrubEnd) (s : State) :
    queueOf (execPatrolScrub stack correctable rest s) = some s.pending := by
  simp [execPatrolScrub]

@[simp] theorem setWalk_pending (s : State) (t : TaskId) (w : Walk) : (setWalk s t w).pending = s.pending := rfl

@[simp] theorem keepWalk_pending (s : State) (t : TaskId) (k : Task) (w : Walk) :
    (keepWalk s t k w).pending = s.pending := by
  simp [keepWalk]

@[simp] theorem finishQuery_pending (s : State) (t : TaskId) (g : Graph) (k : Task) (w : Walk) :
    (finishQuery s t g k w).pending = s.pending := by
  unfold finishQuery
  repeat' split
  all_goals simp

@[simp] theorem startWalk_pending (s : State) (t : TaskId) (g : Graph) (k : Task) (w : Walk) :
    (startWalk s t g k w).pending = s.pending := by
  unfold startWalk
  repeat' split
  all_goals simp

@[simp] theorem beginWalk_pending (s : State) (t : TaskId) (g : Graph) (k : Task) (flash : Bool) (w : Walk) :
    (beginWalk s t g k flash w).pending = s.pending := by
  simp [beginWalk]

@[simp] theorem execQuery_queue (t : TaskId) (s : State) : queueOf (execQuery t s) = some s.pending := by
  unfold execQuery
  repeat' split
  all_goals simp

@[simp] theorem execWalkRound_queue (t : TaskId) (s : State) : queueOf (execWalkRound t s) = some s.pending := by
  unfold execWalkRound
  repeat' split
  all_goals simp

@[simp] theorem sendUnits_pending (x : Index) (t : TaskId) (epoch : Nat) (s : State) (ch page unit : Nat) :
    (sendUnits x t epoch s ch page unit).pending = s.pending := by
  unfold sendUnits
  split <;> simp

@[simp] theorem sendPage_pending (x : Index) (t : TaskId) (epoch : Nat) (s : State) (ch page : Nat) :
    (sendPage x t epoch s ch page).pending = s.pending := by
  simp [sendPage]

@[simp] theorem execFlashWalkRound_queue (t : TaskId) (s : State) :
    queueOf (execFlashWalkRound t s) = some s.pending := by
  unfold execFlashWalkRound
  repeat' split
  all_goals simp

@[simp] theorem execEnginePageExpand_queue (t : TaskId) (channel page : Nat) (s : State) :
    queueOf (execEnginePageExpand t channel page s) = some s.pending := by
  unfold execEnginePageExpand
  repeat' split
  all_goals simp

@[simp] theorem execHop_queue (t : TaskId) (channel : Nat) (s : State) :
    queueOf (execHop t channel s) = some s.pending := by
  fun_cases execHop t channel s <;> simp

@[simp] theorem gather_pending (s : State) (t : TaskId) (x : Index) (w : Walk) :
    (gather s t x w).pending = s.pending := by
  simp [gather]

@[simp] theorem execRerank_queue (t : TaskId) (s : State) : queueOf (execRerank t s) = some s.pending := by
  unfold execRerank
  repeat' split
  all_goals simp

@[simp] theorem takeGraph_pending (s : State) (g : Graph) : (takeGraph s g).pending = s.pending := by simp [takeGraph]

@[simp] theorem startShard_pending (s : State) (g : Graph) (sh : Shard) (block code qv : List Byte) :
    (startShard s g sh block code qv).1.pending = s.pending := by
  unfold startShard
  repeat' split
  all_goals simp

@[simp] theorem startShards_pending (s : State) (g : Graph) (block code qv : List Byte) (l : List Shard) :
    (startShards s g block code qv l).1.pending = s.pending := by
  induction l generalizing s with
  | nil => rfl
  | cons x l ih =>
    simp [startShards, ih]

@[simp] theorem finishFan_pending (s : State) (t : TaskId) (g : Graph) (k : Task) (w : Walk) :
    (finishFan s t g k w).pending = s.pending := by
  unfold finishFan
  repeat' split
  all_goals simp

@[simp] theorem execFanOutQuery_queue (t : TaskId) (s : State) : queueOf (execFanOutQuery t s) = some s.pending := by
  simp only [execFanOutQuery]
  repeat' split
  all_goals simp

@[simp] theorem localAnswer_pending (s : State) (pen corr status : Nat) (w : Walk) :
    (localAnswer s pen corr status w).pending = s.pending := by
  unfold localAnswer
  repeat' split
  all_goals simp

@[simp] theorem sendAnswer_pending (s : State) (g : Graph) : (sendAnswer s g).pending = s.pending := by
  unfold sendAnswer
  split <;> simp

@[simp] theorem sendAnswers_pending (s : State) : (sendAnswers s).pending = s.pending := by simp [sendAnswers]

end Sys2Proof.Machine
end

section
/-!
PROOFS. The queue of waiting commands stays as it is: page tables, index and update commands.
-/

namespace Sys2Proof.Machine

@[simp] theorem readRow_pending (s : State) (quad p num : Nat) (t : Table) (base row : Nat) :
    (readRow s quad p num t base row).pending = s.pending := by
  simp [readRow]

@[simp] theorem uncacheRow_pending (s : State) (p num base row : Nat) :
    (uncacheRow s p num base row).pending = s.pending := rfl

@[simp] theorem execSketchHalving_queue (quad : Nat) (s : State) :
    queueOf (execSketchHalving quad s) = some s.pending := by
  simp [execSketchHalving]

@[simp] theorem updateRow_pending (t : TaskId) (g : Graph) (k : Task) (num : Nat) (tb : Table) (base : Nat)
    (x : State × List (Nat × Nat) × Nat) (u : Nat × Bool × List (List Byte)) :
    (updateRow t g k num tb base x u).1.pending = x.1.pending := by
  unfold updateRow
  repeat' split
  all_goals simp

@[simp] theorem applyRows_pending (s : State) (t : TaskId) (g : Graph) (k : Task) (num : Nat) (tb : Table)
    (base result : Nat) (us : List (Nat × Bool × List (List Byte))) :
    (applyRows s t g k num tb base result us).pending = s.pending := by
  simp [applyRows]

@[simp] theorem noteRows_pending (s : State) (t : TaskId) (num base : Nat) (idx : List Nat) :
    (noteRows s t num base idx).pending = s.pending := rfl

@[simp] theorem spoilTables_pending (s : State) (t : TaskId) (g : Graph) (k : Task) :
    (spoilTables s t g k).pending = s.pending := by
  simp [spoilTables]

@[simp] theorem goneTable_pending (s : State) (t : TaskId) (g : Graph) (k : Task) :
    (goneTable s t g k).pending = s.pending := by
  simp [goneTable]

@[simp] theorem execGather_queue (t : TaskId) (s : State) : queueOf (execGather t s) = some s.pending := by
  simp only [execGather]
  repeat' split
  all_goals simp

@[simp] theorem execScatterWrite_queue (t : TaskId) (s : State) : queueOf (execScatterWrite t s) = some s.pending := by
  unfold execScatterWrite
  repeat' split
  all_goals simp

@[simp] theorem noteOrder_pending (s : State) (t : TaskId) (p num base : Nat) (rows : List Nat) :
    (noteOrder s t p num base rows).pending = s.pending := by
  simp [noteOrder]

@[simp] theorem execScatterAdd_queue (t : TaskId) (s : State) : queueOf (execScatterAdd t s) = some s.pending := by
  unfold execScatterAdd
  repeat' split
  all_goals simp

@[simp] theorem execClone_queue (t : TaskId) (s : State) : queueOf (execClone t s) = some s.pending := by
  fun_cases execClone t s <;> simp

@[simp] theorem zeroBale_pending (s : State) (h : Home) : (zeroBale s h).pending = s.pending := by
  unfold zeroBale
  split <;> simp

@[simp] theorem execTableCreate_queue (t : TaskId) (s : State) : queueOf (execTableCreate t s) = some s.pending := by
  unfold execTableCreate
  split
  · rfl
  · split
    · simp
    · extract_lets num tb
      split
      · simp
      · split
        · simp
        · next hnew =>
          extract_lets hs
          simp only [queueOf_next, finishTask_pending]
          rw [foldl_pending, newObject_pending hnew]
          simp

@[simp] theorem execTableDestroy_queue (t : TaskId) (s : State) : queueOf (execTableDestroy t s) = some s.pending := by
  unfold execTableDestroy
  repeat' split
  all_goals simp

theorem takeSpot_pending {s : State} {quad p num : Nat} {t : Table} {u : State} {x}
    (h : takeSpot s quad p num t = some (u, x)) : u.pending = s.pending := by
  simp only [takeSpot] at h
  split at h
  · cases h
    rfl
  · obtain ⟨n, -, hn⟩ := Option.map_eq_some_iff.1 h
    cases hn
    simp

@[simp] theorem dropSpot_pending (s : State) (p num : Nat) (x : RowMove) :
    (dropSpot s p num x).pending = s.pending := by
  unfold dropSpot
  split <;> simp

@[simp] theorem execMigrationStart_queue (quad pen object base row : Nat) (s : State) :
    queueOf (execMigrationStart quad pen object base row s) = some s.pending := by
  simp only [execMigrationStart]
  split
  · rfl
  · split
    · next hspot => simp [takeSpot_pending hspot]
    · rfl

@[simp] theorem modMig_pending (s : State) (m : Migration) (f : Migration → Migration) :
    (modMig s m f).pending = s.pending := rfl

@[simp] theorem migrationOver_pending (quad entry status : Nat) (s : State) (t : TaskId) :
    (migrationOver quad entry status s t).pending = s.pending := by
  unfold migrationOver
  repeat' split
  all_goals simp

@[simp] theorem endMig_pending (s : State) (m : Migration) (status : Nat) :
    (endMig s m status).pending = s.pending := by
  simp [endMig]

@[simp] theorem dropMig_pending (s : State) (m : Migration) (status : Nat) :
    (dropMig s m status).pending = s.pending := by
  simp [dropMig]

@[simp] theorem execMigrationCopyEnd_queue (quad entry : Nat) (s : State) :
    queueOf (execMigrationCopyEnd quad entry s) = some s.pending := by
  simp only [execMigrationCopyEnd]
  repeat' split
  all_goals simp

@[simp] theorem applyOld_pending (s : State) (m : Migration) : (applyOld s m).pending = s.pending := by
  unfold applyOld
  split <;> simp

@[simp] theorem execMigrationCommit_queue (quad entry : Nat) (s : State) :
    queueOf (execMigrationCommit quad entry s) = some s.pending := by
  unfold execMigrationCommit
  repeat' split
  all_goals simp

@[simp] theorem spoilRows_pending (s : State) (g : Graph) (k : Task) : (spoilRows s g k).pending = s.pending := by
  unfold spoilRows
  split <;> simp

@[simp] theorem setIndex_pending (s : State) (p num : Nat) (x : Index) : (setIndex s p num x).pending = s.pending := rfl

@[simp] theorem freeStatus_pending (s : State) : (freeStatus s).1.pending = s.pending := rfl

@[simp] theorem streamRecs_pending (s : State) (p : Nat) (x : Index) (l : List LogRec) :
    (streamRecs s p x l).pending = s.pending := by
  unfold streamRecs
  repeat' split
  all_goals simp

theorem fitIndex_pending {s : State} {p num : Nat} {x : Index} {t : State} (h : fitIndex s p num x = some t) :
    t.pending = s.pending := by
  simp only [fitIndex] at h
  split at h
  · cases h
  · split at h
    · cases h
      simp
    · split at h
      · cases h
      · split at h
        · cases h
        · next hhomes =>
          cases h
          simp [takeHomes_pending hhomes]

@[simp] theorem spoilIndex_pending (s : State) (p num : Nat) : (spoilIndex s p num).pending = s.pending := by
  unfold spoilIndex
  split <;> simp

theorem storeIndex_pending {s : State} {p num : Nat} {x y : Index} {t : State} (h : storeIndex s p num x y = some t) :
    t.pending = s.pending := by
  obtain ⟨u, hfit, rfl⟩ := Option.map_eq_some_iff.1 h
  simp [fitIndex_pending hfit]

@[simp] theorem keepIndex_pending (s : State) (p num : Nat) (x y : Index) :
    (keepIndex s p num x y).pending = s.pending := getD_pending (fun _ h => storeIndex_pending h) (by simp)

@[simp] theorem finishUpdate_pending (s : State) (t : TaskId) (g : Graph) (k : Task) (num status applied found : Nat)
    : (finishUpdate s t g k num status applied found).pending = s.pending := by
  unfold finishUpdate
  repeat' split
  all_goals simp

theorem tookEntry_pending {s : State} {p num : Nat} {x y : Index} {t : TaskId} {entry : Nat} {u : State}
    (h : tookEntry s p num x y t entry = some u) : u.pending = s.pending := by
  obtain ⟨v, hv, rfl⟩ := Option.map_eq_some_iff.1 h
  split
  · exact storeIndex_pending hv
  · simp [storeIndex_pending hv]

@[simp] theorem execInsert_queue (t : TaskId) (s : State) : queueOf (execInsert t s) = some s.pending := by
  simp only [execInsert]
  split
  · rfl
  · split
    · simp
    · split
      · simp
      · split
        · simp
        · split
          · rfl
          · split
            · simp
            · split
              · simp
              · split
                · simp
                · split
                  · rfl
                  · split
                    · simp
                    · next htook => split <;> simp [tookEntry_pending htook]

@[simp] theorem execDelete_queue (t : TaskId) (s : State) : queueOf (execDelete t s) = some s.pending := by
  simp only [execDelete]
  split
  · rfl
  · split
    · simp
    · split
      · simp
      · split
        · simp
        · split
          · rfl
          · split
            · simp
            · split
              · simp
              · next htook => split <;> simp [tookEntry_pending htook]

theorem writePage_pending {s : State} {x : Index} {sn : Snap} {epoch page : Nat} {t : State}
    (h : writePage s x sn epoch page = some t) : t.pending = s.pending := by
  simp [programPage_pending h]

theorem writePages_pending {s : State} {x : Index} {sn : Snap} {epoch : Nat} {l : List Nat} {t : State}
    (h : writePages s x sn epoch l = some t) : t.pending = s.pending := by
  induction l generalizing s with
  | nil =>
    cases h
    rfl
  | cons p l ih =>
    unfold writePages at h
    split at h
    · cases h
    · next hpage => rw [ih h, writePage_pending hpage]

theorem writeVecs_pending {s : State} {x : Index} {sn : Snap} {l : List Nat} {t : State}
    (h : writeVecs s x sn l = some t) : t.pending = s.pending := by
  induction l generalizing s with
  | nil =>
    cases h
    rfl
  | cons n l ih =>
    unfold writeVecs at h
    split at h
    · cases h
    · next hpage => rw [ih h, programPage_pending hpage]

theorem writeBulks_pending {s : State} {c space : Nat} (l : List (List (List (Nat × List Host.Cell)))) {t : State}
    (h : writeBulks s c space l = some t) : t.pending = s.pending := by
  induction l generalizing s with
  | nil =>
    cases h
    rfl
  | cons b l ih =>
    unfold writeBulks at h
    split at h
    · cases h
    · next hbulk => rw [ih h, programBulk_pending hbulk]

theorem writeCkpt_pending {s : State} {x : Index} {sn : Snap} {epoch : Nat} {t : State}
    (h : writeCkpt s x sn epoch = some t) : t.pending = s.pending := writeBulks_pending _ h

theorem writeEpoch_pending {s : State} {x : Index} {old sn : Snap} {epoch : Nat} {t : State}
    (h : writeEpoch s x old sn epoch = some t) : t.pending = s.pending := by
  obtain ⟨v, hv, hckpt⟩ := Option.bind_eq_some_iff.1 h
  obtain ⟨u, hpages, hvecs⟩ := Option.bind_eq_some_iff.1 hv
  rw [writeCkpt_pending hckpt, writeVecs_pending hvecs, writePages_pending hpages]

@[simp] theorem stageCommit_pending (s : State) (x : Index) (epoch : Nat) :
    (stageCommit s x epoch).pending = s.pending := rfl

@[simp] theorem updStore_pending (s : State) (space : Nat) (f : Store → Store) :
    (updStore s space f).pending = s.pending := rfl

@[simp] theorem trimWhere_pending (s : State) (p : Nat → Bool) : (trimWhere s p).pending = s.pending := rfl

@[simp] theorem trimSpace_pending (s : State) (space : Nat) : (trimSpace s space).pending = s.pending := rfl

@[simp] theorem landStore_pending (s : State) (x : Index) (epoch : Nat) (sn : Snap) (pos : Nat) :
    (landStore s x epoch sn pos).pending = s.pending := by
  simp [landStore]

@[simp] theorem execEpochCommit_queue (c : Cmd) (object : Nat) (report : OpRef) (s : State) :
    queueOf (execEpochCommit c object report s) = some s.pending := by
  refine withCmd_queue _ _ _ fun s n => ?_
  dsimp only
  repeat' split
  all_goals simp

@[simp] theorem endCommit_pending (s : State) (p : Nat) (c : Commit) (epoch status : Nat) :
    (endCommit s p c epoch status).pending = s.pending := by
  simp [endCommit]

@[simp] theorem execSeal_queue (pen object : Nat) (s : State) : queueOf (execSeal pen object s) = some s.pending := by
  simp only [execSeal]
  split
  · rfl
  · split
    · rfl
    · split
      · rfl
      · split
        · simp
        · split
          · rfl
          · next u hepoch =>
            have hu : u.pending = s.pending := by
              split at hepoch
              · exact writeEpoch_pending hepoch
              · cases hepoch
                rfl
            simp [hu]

@[simp] theorem landNext_pending (s : State) (pen object : Nat) (x : Index) (l : Landing) :
    (landNext s pen object x l).pending = s.pending := by
  simp only [landNext]
  split
  · split
    · rfl
    · next hepoch => simp [writeEpoch_pending hepoch]
  · split
    · split <;> simp
    · split
      · rfl
      · split <;> simp

@[simp] theorem finishSweepTask_pending (e : Nat) (s : State) (t : TaskId) :
    (finishSweepTask e s t).pending = s.pending := by
  unfold finishSweepTask
  split <;> simp

@[simp] theorem closeSweep_pending (s : State) (p num : Nat) (x : Index) (sw : Sweep) :
    (closeSweep s p num x sw).pending = s.pending := by
  simp [closeSweep]

@[simp] theorem beginSweep_pending (s : State) (p num : Nat) (x : Index) (waiters : List TaskId) :
    (beginSweep s p num x waiters).pending = s.pending := by
  simp only [beginSweep]
  repeat' split
  all_goals simp

@[simp] theorem execCommitComplete_queue (pen object : Nat) (s : State) :
    queueOf (execCommitComplete pen object s) = some s.pending := by
  simp only [execCommitComplete]
  repeat' split
  all_goals simp

@[simp] theorem execSweepEnd_queue (pen object : Nat) (s : State) :
    queueOf (execSweepEnd pen object s) = some s.pending := by
  simp only [execSweepEnd]
  repeat' split
  all_goals simp

@[simp] theorem execRepairSweepNow_queue (t : TaskId) (s : State) :
    queueOf (execRepairSweepNow t s) = some s.pending := by
  unfold execRepairSweepNow
  repeat' split
  all_goals simp

@[simp] theorem dropStores_pending (s : State) (key : Nat) : (dropStores s key).pending = s.pending := by
  unfold dropStores
  refine foldl_pending _ _ fun s x => ?_
  simp

theorem makeIndex_pending {s : State} {p num quad : Nat} {x : Index} {cb : List Byte} {epoch : Nat} {t : State}
    (h : makeIndex s p num quad x cb epoch = some t) : t.pending = s.pending := by
  obtain ⟨u, hnew, rfl⟩ := Option.map_eq_some_iff.1 h
  dsimp only
  split <;> simp [newObject_pending hnew]

@[simp] theorem createNow_pending (s : State) (t : TaskId) (g : Graph) (k : Task) (db cb : List Byte) :
    (createNow s t g k db cb).pending = s.pending := by
  simp only [createNow]
  split
  · simp
  · next hmade => simp [makeIndex_pending hmade]

@[simp] theorem createTwice_pending (s : State) (t : TaskId) (g : Graph) (k : Task) (db cb : List Byte) :
    (createTwice s t g k db cb).pending = s.pending := by
  simp only [createTwice]
  split
  · simp
  · next hmade => split <;> simp [makeIndex_pending hmade]

@[simp] theorem execIndexCreate_queue (t : TaskId) (s : State) : queueOf (execIndexCreate t s) = some s.pending := by
  simp only [execIndexCreate]
  repeat' split
  all_goals simp

@[simp] theorem execIndexOpen_queue (t : TaskId) (s : State) : queueOf (execIndexOpen t s) = some s.pending := by
  simp only [execIndexOpen]
  split
  · rfl
  · split
    · simp
    · split
      · rfl
      · split
        · simp
        · split
          · simp
          · split
            · simp
            · split
              · simp
              · split
                · simp
                · split
                  · simp
                  · next hnew _ _ hfit => simp [fitIndex_pending hfit, newObject_pending hnew]

@[simp] theorem rebuildFails_pending (s : State) (t : TaskId) (x : Index) (status : Nat) :
    (rebuildFails s t x status).pending = s.pending := by
  simp [rebuildFails]

@[simp] theorem execRebuildIndex_queue (t : TaskId) (s : State) : queueOf (execRebuildIndex t s) = some s.pending := by
  simp only [execRebuildIndex]
  split
  · rfl
  · split
    · split
      · split
        · simp
        · split <;> simp
      · simp
    · split
      · simp
      · split
        · simp
        · split
          · simp
          · split
            · simp
            · split
              · simp
              · split
                · simp
                · split
                  · simp
                  · split
                    · simp
                    · split
                      · simp
                      · next hmade =>
                        obtain ⟨v, hmake, hfit⟩ := Option.bind_eq_some_iff.1 hmade
                        split <;> simp [fitIndex_pending hfit, makeIndex_pending hmake]

@[simp] theorem execDestroy_queue (t : TaskId) (s : State) : queueOf (execDestroy t s) = some s.pending := by
  unfold execDestroy
  split
  · rfl
  · split
    · simp
    · split
      · simp
      · extract_lets s1 s2 ftl s3
        have h2 : s2.pending = s.pending := by
          simp only [s2]
          rw [foldl_pending] <;> simp [s1]
        have h3 : s3.pending = s.pending := by
          simp only [s3]
          split
          · exact h2
          · split <;> simp [h2]
        simp [h3]

end Sys2Proof.Machine
end

section
/-!
PROOFS. The queue of waiting commands stays as it is: the DMA engine, the drover, lending, mirrors, keys, contexts and the host port.
-/

namespace Sys2Proof.Machine

@[simp] theorem copyPoisoned_pending (s : State) (t : TaskId) (g : Graph) (k : Task) (n : Nat) :
    (copyPoisoned s t g k n).pending = s.pending := by
  simp [copyPoisoned]

@[simp] theorem copyOut_pending (s : State) (t : TaskId) (g : Graph) (k : Task) (n : Nat) (bs : List Byte) :
    (copyOut s t g k n bs).pending = s.pending := by
  simp [copyOut]

@[simp] theorem copyRemote_pending (s : State) (t : TaskId) (g : Graph) (k : Task) (n : Nat) (read : Bool)
    (b : Nat × Nat × Nat × Nat × Bool) (bs : List Byte) : (copyRemote s t g k n read b bs).pending = s.pending := by
  simp [copyRemote]

@[simp] theorem droverBusError_pending (s : State) (t : TaskId) (g : Graph) (k : Task) (e : BusErr) :
    (droverBusError s t g k e).pending = s.pending := by
  simp [droverBusError]

@[simp] theorem execCopy_queue (t : TaskId) (s : State) : queueOf (execCopy t s) = some s.pending := by
  fun_cases execCopy t s <;> simp

@[simp] theorem execFill_queue (t : TaskId) (s : State) : queueOf (execFill t s) = some s.pending := by
  fun_cases execFill t s <;> simp

@[simp] theorem spaceWrite_pending (s : State) (t : Option TaskId) (node : Bool) (a : Nat) (bs : List Byte) :
    (spaceWrite s t node a bs).pending = s.pending := by
  simp [spaceWrite]

@[simp] theorem reportDesc_pending (s : State) (n : Nat) (x : Descr) : (reportDesc s n x).pending = s.pending := by
  simp [reportDesc]

@[simp] theorem retireDescs_pending (s : State) (n : Nat) (k : Nat) : (retireDescs s n k).pending = s.pending := by
  induction k generalizing s with
  | zero => rfl
  | succ k ih =>
    simp only [retireDescs]
    repeat' split
    all_goals simp [ih]

@[simp] theorem retire1_pending (s : State) (n : Nat) : (retire1 s n).pending = s.pending := by simp [retire1]

@[simp] theorem enableDma_pending (s : State) (n : Nat) : (enableDma s n).pending = s.pending := rfl

@[simp] theorem stopDma_pending (s : State) (n : Nat) : (stopDma s n).pending = s.pending := by simp [stopDma]

@[simp] theorem execDmaEnable_queue (channel : Nat) (s : State) :
    queueOf (execDmaEnable channel s) = some s.pending := by
  simp [execDmaEnable]

@[simp] theorem execDmaStop_queue (channel : Nat) (s : State) : queueOf (execDmaStop channel s) = some s.pending := by
  simp [execDmaStop]

@[simp] theorem restartDma_pending (s : State) (n : Nat) (skip : Bool) : (restartDma s n skip).pending = s.pending := by
  simp [restartDma]

@[simp] theorem execDmaRestart_queue (channel : Nat) (skip : Bool) (s : State) :
    queueOf (execDmaRestart channel skip s) = some s.pending := by
  simp [execDmaRestart]

@[simp] theorem execDmaTest_queue (channel : Nat) (s : State) : queueOf (execDmaTest channel s) = some s.pending := by
  simp [execDmaTest]

@[simp] theorem loseDma_pending (s : State) (n : Nat) : (loseDma s n).pending = s.pending := by simp [loseDma]

@[simp] theorem execDmaDoorbell_queue (channel : Nat) (writes : List (Nat × Byte)) (s : State) :
    queueOf (execDmaDoorbell channel writes s) = some s.pending := by
  simp [execDmaDoorbell]

@[simp] theorem execDmaCqheadWrite_queue (channel : Nat) (value : W32) (s : State) :
    queueOf (execDmaCqheadWrite channel value s) = some s.pending := by
  simp [execDmaCqheadWrite]

@[simp] theorem execDescriptorFetchDone_queue (channel : Nat) (s : State) :
    queueOf (execDescriptorFetchDone channel s) = some s.pending := by
  simp [execDescriptorFetchDone]

@[simp] theorem haltDma_pending (s : State) (n index : Nat) (e : BusErr) :
    (haltDma s n index e).pending = s.pending := rfl

@[simp] theorem runDescr_pending (s : State) (key : TaskId) (x : Descr) : (runDescr s key x).1.pending = s.pending := by
  simp only [runDescr]
  repeat' split
  all_goals simp

@[simp] theorem smudgeDst_pending (s : State) (x : Descr) : (smudgeDst s x).pending = s.pending := by simp [smudgeDst]

@[simp] theorem execDescriptorComplete_queue (channel index : Nat) (s : State) :
    queueOf (execDescriptorComplete channel index s) = some s.pending := by
  simp only [execDescriptorComplete]
  repeat' split
  all_goals simp

@[simp] theorem busErrorOn_pending (channel index : Nat) (task : Option TaskId) (err : BusErr) (s : State) :
    (busErrorOn channel index task err s).pending = s.pending := by
  unfold busErrorOn
  repeat' split
  all_goals simp

@[simp] theorem execBusError_queue (channel index : Nat) (task : Option TaskId) (err : BusErr) (s : State) :
    queueOf (execBusError channel index task err s) = some s.pending := by
  simp [execBusError]

@[simp] theorem execErrinfoClear_queue (channel : Nat) (sameCycle : Option (Nat × Option TaskId × BusErr)) (s : State)
    : queueOf (execErrinfoClear channel sameCycle s) = some s.pending := by
  unfold execErrinfoClear
  split <;> simp

@[simp] theorem pageIn_pending (s : State) (t : TaskId) (g : Graph) (q : Nat) (l : List BaleId) :
    (pageIn s t g q l).pending = s.pending := by
  unfold pageIn
  refine foldl_pending _ _ fun s b => ?_
  split
  · rfl
  · exact getD_pending (fun u h => startFill_pending h) rfl

theorem makeRoom_pending {s : State} {st n : Nat} {k : Nat} {t : State} (h : makeRoom s st n k = some t) :
    t.pending = s.pending := by
  induction k generalizing s with
  | zero =>
    unfold makeRoom at h
    split at h
    · cases h
      rfl
    · cases h
  | succ k ih =>
    unfold makeRoom at h
    split at h
    · cases h
      rfl
    · split at h
      · simpa using ih h
      · cases h

@[simp] theorem homeScratch_pending (s : State) (acc n : Nat) (homes : List Home) (tag : Nat) :
    (homeScratch s acc n homes tag).pending = s.pending := by
  unfold homeScratch
  refine foldl_pending _ _ fun s x => ?_
  repeat' split
  all_goals simp

@[simp] theorem placeScratch_pending (s : State) (acc : Nat) (tile : Option Nat) (st : Nat) (x : Nat × Scratch) :
    (placeScratch s acc tile st x).pending = s.pending := by
  simp only [placeScratch]
  repeat' split
  all_goals simp

@[simp] theorem takeReq_pending (s : State) (t : TaskId) (p q st n : Nat) :
    (takeReq s t p q st n).pending = s.pending := by
  simp [takeReq]

@[simp] theorem stateStack_pending (s : State) (g : Graph) (q : Nat) (hs : List (Nat × Scratch)) (need : Nat) :
    (stateStack s g q hs need).1.pending = s.pending := by
  unfold stateStack
  split <;> simp

theorem placeSlots_pending {s : State} {t : TaskId} {g : Graph} {k : Task} {q : Nat} {tile : Option Nat} {u : State}
    (h : placeSlots s t g k q tile = some u) : u.pending = s.pending := by
  simp only [placeSlots] at h
  split at h
  · cases h
    rfl
  · split at h
    · cases h
    · obtain ⟨v, hroom, rfl⟩ := Option.map_eq_some_iff.1 h
      simp [makeRoom_pending hroom]

@[simp] theorem bindTask_pending (s : State) (t : TaskId) (g : Graph) (k : Task) :
    (bindTask s t g k).pending = s.pending := by
  simp only [bindTask]
  repeat' split
  all_goals simp

theorem pageCrown_pending {s : State} {t : TaskId} {g : Graph} {k : Task} {u : Nat} {v : State}
    (h : pageCrown s t g k u = some v) : v.pending = s.pending := by
  simp only [pageCrown] at h
  repeat' split at h
  all_goals cases h
  all_goals simp

@[simp] theorem modelResidency_pending (s : State) (t : TaskId) (g : Graph) (k : Task) (q : Nat) :
    (modelResidency s t g k q).pending = s.pending := by
  fun_cases modelResidency s t g k q <;> simp

@[simp] theorem enterLists_pending (s : State) (t : TaskId) (g : Graph) (k : Task) (q : Nat) :
    (enterLists s t g k q).pending = s.pending := by
  simp [enterLists]

@[simp] theorem recInputs_pending (s : State) (g : Graph) (k : Task) : (recInputs s g k).pending = s.pending := by
  simp [recInputs]

@[simp] theorem issueTask_pending (s : State) (t : TaskId) (g : Graph) (k : Task) (kind : UnitKind) (q : Nat)
    (unit : Nat × Nat) : (issueTask s t g k kind q unit).pending = s.pending := by
  unfold issueTask
  extract_lets c first s1 s2 s3 s4 s5 s6 s7
  have h1 : s1.pending = s.pending := by
    simp only [s1]
    split <;> simp
  have h3 : s3.pending = s.pending := by
    simp only [s3]
    rw [foldl_pending] <;> simp [s2, h1]
  have h4 : s4.pending = s.pending := by
    simp only [s4]
    split <;> simp [h3]
  change s7.pending = s.pending
  simp only [s7]
  rw [foldl_pending] <;> simp [s6, s5, h4]

theorem tryIssue_pending (s : State) (t : TaskId) (g : Graph) (k : Task) (kind : UnitKind) (channel : Nat) :
    (stateOf (tryIssue s t g k kind channel)).pending = s.pending := by
  simp only [tryIssue]
  split
  · simp
  · split
    · rfl
    · split
      · rfl
      · split
        · rfl
        · split
          · simp
          · split
            · rfl
            · split
              · simp
              · split
                · simp
                · split
                  · rfl
                  · next s1 hslots =>
                    split
                    · rfl
                    · next s2 hcrown =>
                      have hs : s2.pending = s1.pending := by
                        split at hcrown
                        · exact pageCrown_pending hcrown
                        · cases hcrown
                          rfl
                      simp [hs, placeSlots_pending hslots]

@[simp] theorem tryAll_pending (kind : UnitKind) (channel : Nat) (s : State) (l : List (TaskId × Graph × Task)) :
    (tryAll kind channel s l).pending = s.pending := by
  induction l generalizing s with
  | nil => rfl
  | cons x l ih =>
    have hx := tryIssue_pending s x.1 x.2.1 x.2.2 kind channel
    unfold tryAll
    split
    · next htry => rwa [htry] at hx
    · next htry =>
      rw [htry] at hx
      rw [ih]
      exact hx

@[simp] theorem execTaskIssue_queue (kind : UnitKind) (channel : Nat) (s : State) :
    queueOf (execTaskIssue kind channel s) = some s.pending := by
  simp [execTaskIssue]

@[simp] theorem smudgeClashes_pending (s : State) (t : TaskId) (g : Graph) (k : Task) :
    (smudgeClashes s t g k).pending = s.pending := by
  simp [smudgeClashes]

@[simp] theorem sendMapupd_pending (s : State) (c gen : Nat) (grant : Bool) (num obj bytes : Nat) :
    (sendMapupd s c gen grant num obj bytes).pending = s.pending := by
  simp [sendMapupd]

@[simp] theorem evictHost_pending (s : State) (o : Obj) : (evictHost s o).pending = s.pending := by simp [evictHost]

@[simp] theorem lendTo_pending (s : State) (p num kind c bnum : Nat) (cmd : Cmd) :
    (lendTo s p num kind c bnum cmd).pending = s.pending := by
  unfold lendTo
  repeat' split
  all_goals simp

@[simp] theorem execLend_queue (c : Cmd) (b : KBlock) (s : State) : queueOf (execLend c b s) = some s.pending := by
  refine withKeyedArgs_queue _ _ _ _ _ _ _ fun s n => ?_
  dsimp only
  repeat' split
  all_goals simp

@[simp] theorem sendRresp_pending (s : State) (m : FlueMsg) (st : Nat) (data : List Byte) :
    (sendRresp s m st data).pending = s.pending := by
  simp [sendRresp]

@[simp] theorem serveLent_pending (s : State) (p : Nat) (m : FlueMsg) : (serveLent s p m).pending = s.pending := by
  fun_cases serveLent s p m <;> simp

@[simp] theorem takeRequest_pending (s : State) (m : FlueMsg) : (takeRequest s m).pending = s.pending := by
  fun_cases takeRequest s m <;> simp

@[simp] theorem execRread_queue (m : FlueMsg) (s : State) : queueOf (execRread m s) = some s.pending := by
  simp [execRread]

@[simp] theorem execRwrite_queue (m : FlueMsg) (s : State) : queueOf (execRwrite m s) = some s.pending := by
  simp [execRwrite]

@[simp] theorem execLendHandoverDone_queue (pen object : Nat) (s : State) :
    queueOf (execLendHandoverDone pen object s) = some s.pending := by
  simp only [execLendHandoverDone]
  split
  · rfl
  · split
    · rfl
    · split
      · rfl
      · split
        · rfl
        · split
          · simp
          · split
            · simp
            · split
              · simp
              · rw [queueOf_next, foldl_pending]
                · simp
                · intro s q
                  split
                  · split <;> simp
                  · simp

@[simp] theorem poisonOut_pending (s : State) (g : Graph) (k : Task) (m : FlueMsg) :
    (poisonOut s g k m).pending = s.pending := rfl

@[simp] theorem takeRresp_pending (s : State) (m : FlueMsg) : (takeRresp s m).pending = s.pending := by
  unfold takeRresp
  split <;> simp

@[simp] theorem execRresp_queue (m : FlueMsg) (s : State) : queueOf (execRresp m s) = some s.pending := by
  simp [execRresp]

@[simp] theorem execMapupd_queue (m : FlueMsg) (s : State) : queueOf (execMapupd m s) = some s.pending := by
  refine onMsg_queue _ _ _ _ fun s => ?_
  dsimp only
  repeat' split
  all_goals simp

@[simp] theorem loseLends_pending (s : State) (c : Nat) : (loseLends s c).pending = s.pending := by
  unfold loseLends
  extract_lets p cmds f ts s1 s2
  have h1 : s1.pending = s.pending := by
    simp only [s1]
    rw [foldl_pending]
    simp
  rw [foldl_pending] <;> simp [s2, h1]

@[simp] theorem ackEpoch_pending (s : State) (c num e : Nat) (flash : Bool) :
    (ackEpoch s c num e flash).pending = s.pending := by
  simp [ackEpoch]

@[simp] theorem targetCommit_pending (s : State) (p num c : Nat) (x : Index) (e : Nat) :
    (targetCommit s p num c x e).pending = s.pending := by
  simp [targetCommit]

@[simp] theorem targetRec_pending (s : State) (p num c : Nat) (r : LogRec) :
    (targetRec s p num c r).pending = s.pending := by
  unfold targetRec
  split <;> simp

@[simp] theorem takeRec_pending (s : State) (m : FlueMsg) : (takeRec s m).pending = s.pending := by
  unfold takeRec
  split <;> simp

@[simp] theorem execMrec_queue (m : FlueMsg) (s : State) : queueOf (execMrec m s) = some s.pending := by simp [execMrec]

@[simp] theorem execMcommit_queue (m : FlueMsg) (s : State) : queueOf (execMcommit m s) = some s.pending := by
  simp [execMcommit]

@[simp] theorem sendLoad_pending (s : State) (p num c : Nat) (x : Index) (m : MirrorLoad) :
    (sendLoad s p num c x m).pending = s.pending := by
  simp [sendLoad]

@[simp] theorem confirmCreate_pending (s : State) (m : FlueMsg) : (confirmCreate s m).pending = s.pending := by
  unfold confirmCreate
  repeat' split
  all_goals simp

@[simp] theorem takeMack_pending (s : State) (m : FlueMsg) : (takeMack s m).pending = s.pending := by
  unfold takeMack
  repeat' split
  all_goals simp

@[simp] theorem execMack_queue (m : FlueMsg) (s : State) : queueOf (execMack m s) = some s.pending := by simp [execMack]

@[simp] theorem installLoad_pending (s : State) (p num c : Nat) (x : Index) (b : List Byte) :
    (installLoad s p num c x b).pending = s.pending := by
  simp [installLoad]

@[simp] theorem loadPart_pending (s : State) (m : FlueMsg) (p num : Nat) (x : Index) :
    (loadPart s m p num x).pending = s.pending := by
  unfold loadPart
  split <;> simp

@[simp] theorem execLoad_queue (m : FlueMsg) (s : State) : queueOf (execLoad m s) = some s.pending := by
  refine onMsg_queue _ _ _ _ fun s => ?_
  repeat' split
  all_goals simp

@[simp] theorem execMirrorLoad_queue (c : Cmd) (b : KBlock) (s : State) :
    queueOf (execMirrorLoad c b s) = some s.pending := by
  refine withKeyedArgs_queue _ _ _ _ _ _ _ fun s n => ?_
  dsimp only
  repeat' split
  all_goals simp

@[simp] theorem execMirrorPromote_queue (c : Cmd) (b : KBlock) (s : State) :
    queueOf (execMirrorPromote c b s) = some s.pending := by
  refine withKeyedArgs_queue _ _ _ _ _ _ _ fun s n => ?_
  dsimp only
  repeat' split
  all_goals simp

@[simp] theorem loseMirrors_pending (s : State) (c : Nat) : (loseMirrors s c).pending = s.pending := by
  simp [loseMirrors]

@[simp] theorem withSkex_queue (s : State) (c : Cmd) (f : State → Nat → State)
    (hf : ∀ s x0, (f s x0).pending = s.pending) : queueOf (withSkex s c f) = some s.pending := by
  simp [withSkex, hf]

@[simp] theorem execSubmit_queue (c : Cmd) (graph : OpRef) (s : State) :
    queueOf (execSubmit c graph s) = some s.pending := by
  refine withSkex_queue _ _ _ fun s n => ?_
  simp

@[simp] theorem execSkexFence_queue (c : Cmd) (penScope durable : Bool) (s : State) :
    queueOf (execSkexFence c penScope durable s) = some s.pending := by
  simp [execSkexFence]

@[simp] theorem execOrderedWrite_queue (c : Cmd) (slba blocks : Nat) (fua : Bool) (prp : List Nat) (s : State) :
    queueOf (execOrderedWrite c slba blocks fua prp s) = some s.pending := by
  unfold execOrderedWrite
  split
  · rfl
  · refine withSkex_queue _ _ _ fun s n => ?_
    dsimp only
    split
    · split <;> simp
    · simp only [settleOrdered_pending]
      split
      · simp
      · simp

@[simp] theorem execTableSwitch_queue (c : Cmd) (object base : Nat) (s : State) :
    queueOf (execTableSwitch c object base s) = some s.pending := by
  refine withSkex_queue _ _ _ fun s n => ?_
  dsimp only
  repeat' split
  all_goals simp

@[simp] theorem execRegionCreate_queue (c : Cmd) (object first blocks : Nat) (s : State) :
    queueOf (execRegionCreate c object first blocks s) = some s.pending := by
  refine withSkex_queue _ _ _ fun s n => ?_
  dsimp only
  repeat' split
  all_goals simp

@[simp] theorem execRegionDestroy_queue (c : Cmd) (object : Nat) (s : State) :
    queueOf (execRegionDestroy c object s) = some s.pending := by
  refine withSkex_queue _ _ _ fun s n => ?_
  dsimp only
  repeat' split
  all_goals simp

@[simp] theorem execMap_queue (c : Cmd) (object capacity : Nat) (list : OpRef) (s : State) :
    queueOf (execMap c object capacity list s) = some s.pending := by
  refine withSkex_queue _ _ _ fun s n => ?_
  dsimp only
  repeat' split
  all_goals simp

@[simp] theorem execUnmap_queue (c : Cmd) (object : Nat) (s : State) :
    queueOf (execUnmap c object s) = some s.pending := by
  refine withSkex_queue _ _ _ fun s n => ?_
  dsimp only
  repeat' split
  all_goals simp

@[simp] theorem sendOpen_pending (s : State) (c : Nat) : (sendOpen s c).pending = s.pending := by simp [sendOpen]

@[simp] theorem execOpenMsg_queue (m : FlueMsg) (s : State) : queueOf (execOpenMsg m s) = some s.pending := by
  simp only [execOpenMsg]
  split
  · rfl
  · next htake =>
    split <;> simp [takeInbox_pending htake]

@[simp] theorem loseShards_pending (s : State) (c : Nat) (t : TaskId) : (loseShards s c t).pending = s.pending := by
  unfold loseShards
  repeat' split
  all_goals simp

@[simp] theorem loseCtx_pending (s : State) (c : Nat) : (loseCtx s c).pending = s.pending := by
  unfold loseCtx
  extract_lets s1 s2 s3
  have h2 : s2.pending = s.pending := by
    simp only [s2, s1]
    rw [foldl_pending, foldl_pending] <;> simp
  simp [s3, h2]

@[simp] theorem execClose_queue (m : FlueMsg) (s : State) : queueOf (execClose m s) = some s.pending := by
  simp [execClose]

@[simp] theorem execFlueAck_queue (m : FlueMsg) (s : State) : queueOf (execFlueAck m s) = some s.pending := by
  simp only [execFlueAck]
  split
  · rfl
  · next htake =>
    split <;> simp [takeInbox_pending htake]

@[simp] theorem execResendTimeout_queue (ctx vc : Nat) (s : State) :
    queueOf (execResendTimeout ctx vc s) = some s.pending := by
  simp [execResendTimeout]

@[simp] theorem execPeerTimeout_queue (ctx : Nat) (s : State) : queueOf (execPeerTimeout ctx s) = some s.pending := by
  simp [execPeerTimeout]

@[simp] theorem execFlueCtxOpen_queue (c : Cmd) (b : KBlock) (s : State) :
    queueOf (execFlueCtxOpen c b s) = some s.pending := by
  simp [execFlueCtxOpen]

@[simp] theorem closeCtx_pending (s : State) (n : Nat) : (closeCtx s n).pending = s.pending := by simp [closeCtx]

@[simp] theorem execFlueCtxClose_queue (c : Cmd) (b : KBlock) (s : State) :
    queueOf (execFlueCtxClose c b s) = some s.pending := by
  simp [execFlueCtxClose]

@[simp] theorem execFlueRoute_queue (c : Cmd) (b : KBlock) (s : State) :
    queueOf (execFlueRoute c b s) = some s.pending := by
  simp [execFlueRoute]

@[simp] theorem execFlueSend_queue (t : TaskId) (s : State) : queueOf (execFlueSend t s) = some s.pending := by
  simp only [execFlueSend]
  repeat' split
  all_goals simp

@[simp] theorem putAnswer_pending (s : State) (m : FlueMsg) (st : Nat) : (putAnswer s m st).pending = s.pending := by
  simp [putAnswer]

@[simp] theorem takePut_pending (s : State) (m : FlueMsg) : (takePut s m).pending = s.pending := by
  simp only [takePut]
  repeat' split
  all_goals simp

@[simp] theorem execPut_queue (m : FlueMsg) (s : State) : queueOf (execPut m s) = some s.pending := by simp [execPut]

@[simp] theorem execPutDone_queue (m : FlueMsg) (s : State) : queueOf (execPutDone m s) = some s.pending := by
  refine onMsg_queue _ _ _ _ fun s => ?_
  dsimp only
  repeat' split
  all_goals simp

@[simp] theorem refuseQuery_pending (s : State) (m : FlueMsg) (st : Nat) :
    (refuseQuery s m st).pending = s.pending := by
  simp [refuseQuery]

@[simp] theorem takeQuery_pending (s : State) (m : FlueMsg) : (takeQuery s m).pending = s.pending := by
  fun_cases takeQuery s m <;> simp

@[simp] theorem execQueryMessage_queue (m : FlueMsg) (s : State) : queueOf (execQueryMessage m s) = some s.pending := by
  simp [execQueryMessage]

@[simp] theorem execAnswer_queue (m : FlueMsg) (s : State) : queueOf (execAnswer m s) = some s.pending := by
  refine onMsg_queue _ _ _ _ fun s => ?_
  dsimp only
  repeat' split
  all_goals simp

@[simp] theorem linkUp_pending (s : State) (portB : Bool) (width rate : Nat) :
    (linkUp s portB width rate).pending = s.pending := by
  simp [linkUp]

@[simp] theorem execHostLinkUp_queue (portB : Bool) (width rate : Nat) (flit256 : Bool) (s : State) :
    queueOf (execHostLinkUp portB width rate flit256 s) = some s.pending := by
  simp [execHostLinkUp]

@[simp] theorem clearCtl_pending (s : State) (ctl : Nat) : (clearCtl s ctl).pending = s.pending := by simp [clearCtl]

@[simp] theorem linkDown_pending (s : State) (portB : Bool) : (linkDown s portB).pending = s.pending := by
  simp [linkDown]

@[simp] theorem execLinkDown_queue (portB : Bool) (s : State) : queueOf (execLinkDown portB s) = some s.pending := by
  simp [execLinkDown]

@[simp] theorem execCxlReset_queue (s : State) : queueOf (execCxlReset s) = some s.pending := by simp [execCxlReset]

@[simp] theorem stopRings_pending (s : State) : (stopRings s).pending = s.pending := by simp [stopRings]

@[simp] theorem execControllerReset_queue (ctl : Nat) (flr : Bool) (s : State) :
    queueOf (execControllerReset ctl flr s) = some s.pending := by
  simp [execControllerReset]

@[simp] theorem enableCtl_pending (s : State) (ctl asq asqs acq acqs : Nat) :
    (enableCtl s ctl asq asqs acq acqs).pending = s.pending := rfl

@[simp] theorem execControllerEnable_queue (ctl asq asqs acq acqs : Nat) (s : State) :
    queueOf (execControllerEnable ctl asq asqs acq acqs s) = some s.pending := by
  simp [execControllerEnable]

@[simp] theorem execHostCxlMemRequest_queue (req : CxlReq) (l : Nat) (s : State) :
    queueOf (execHostCxlMemRequest req l s) = some s.pending := by
  simp [execHostCxlMemRequest]

@[simp] theorem execSqTailDoorbell_queue (ctl sq tail : Nat) (writes : List (Nat × Byte)) (s : State) :
    queueOf (execSqTailDoorbell ctl sq tail writes s) = some s.pending := by
  unfold execSqTailDoorbell
  repeat' split
  all_goals simp

@[simp] theorem execCqHeadDoorbell_queue (ctl cq head : Nat) (s : State) :
    queueOf (execCqHeadDoorbell ctl cq head s) = some s.pending := by
  unfold execCqHeadDoorbell
  repeat' split
  all_goals simp

@[simp] theorem execRecordQueueHeadDoorbell_queue (ctl sq head : Nat) (s : State) :
    queueOf (execRecordQueueHeadDoorbell ctl sq head s) = some s.pending := by
  unfold execRecordQueueHeadDoorbell
  repeat' split
  all_goals simp

end Sys2Proof.Machine
end

section
/-!
PROOFS. The queue of waiting commands stays as it is: the image, resets, the start-up phases and configuration updates.
-/

namespace Sys2Proof.Machine

@[simp] theorem setSlotReg_pending (s : State) (slot : Nat) (r : SlotReg) :
    (setSlotReg s slot r).pending = s.pending := rfl

@[simp] theorem latchSlots_pending (s : State) : (latchSlots s).pending = s.pending := by simp [latchSlots]

@[simp] theorem loadImage_pending (s : State) : (loadImage s).pending = s.pending := rfl

@[simp] theorem resOr_pending (r : Res) (s : State) (hr : queueOf r = some s.pending) :
    (resOr r s).pending = s.pending := by
  cases r with
  | next t => exact Option.some.inj hr
  | fault _ => rfl
  | refused _ => rfl

@[simp] theorem unqueueSend_pending (s : State) (t : TaskId) (k : Task) : (unqueueSend s t k).pending = s.pending := by
  unfold unqueueSend
  split <;> simp

@[simp] theorem loseNew_pending (s : State) (g : Graph) (k : Task) : (loseNew s g k).pending = s.pending := by
  simp [loseNew]

@[simp] theorem stopTask_pending (s : State) (t : TaskId) : (stopTask s t).pending = s.pending := by
  unfold stopTask
  split <;> simp

@[simp] theorem releasePen_pending (s : State) (p : Nat) : (releasePen s p).pending = s.pending := by simp [releasePen]

@[simp] theorem flushVecs_pending (s : State) (p : Nat) : (flushVecs s p).pending = s.pending := by simp [flushVecs]

@[simp] theorem orphanCtl_pending (s : State) (ctl : Nat) : (orphanCtl s ctl).pending = s.pending := by simp [orphanCtl]

@[simp] theorem destroyPen_pending (s : State) (p : Nat) : (destroyPen s p).pending = s.pending := by
  unfold destroyPen
  extract_lets ctxs s1 lone spaces s2 s3 s4 s5 s6 s7 s8 s9
  have h3 : s3.pending = s.pending := by
    simp only [s3, s2, s1]
    rw [foldl_pending, foldl_pending, foldl_pending] <;> simp
  have h8 : s8.pending = s.pending := by
    simp only [s8, s7, s6, s5]
    rw [foldl_pending, foldl_pending, foldl_pending, foldl_pending] <;> simp [s4, h3]
  simp [s9, h8]

@[simp] theorem execPenResetEnd_queue (pen : Nat) (s : State) : queueOf (execPenResetEnd pen s) = some s.pending := by
  simp [execPenResetEnd]

@[simp] theorem offState_pending (s : State) : (offState s).pending = s.pending := rfl

@[simp] theorem startNode_pending (s : State) (reason : Nat) : (startNode s reason).pending = s.pending := rfl

@[simp] theorem failStart_pending (s : State) : (failStart s).pending = s.pending := rfl

@[simp] theorem setUsable_pending (s : State) (failed : List HwUnit) : (setUsable s failed).pending = s.pending := by
  unfold setUsable
  refine foldl_pending _ _ fun s x => ?_
  repeat' split
  all_goals simp

@[simp] theorem drainStep_pending (s : State) (c : Nat) : (drainStep s c).pending = s.pending := by
  simp only [drainStep]
  split
  · rw [resOr_pending]
    simp
  · split
    · rw [resOr_pending]
      simp
    · split
      · rw [kickChan_pending, resOr_pending]
        simp
      · split
        · rw [resOr_pending]
          simp
        · rfl

@[simp] theorem drainGo_pending (s : State) (n : Nat) : (drainGo s n).pending = s.pending := by
  induction n generalizing s with
  | zero => rfl
  | succ n ih =>
    unfold drainGo
    refine (ih _).trans (foldl_pending _ _ fun s c => ?_)
    exact drainStep_pending s c

@[simp] theorem drainMedia_pending (s : State) : (drainMedia s).pending = s.pending := by simp [drainMedia]

@[simp] theorem hurryCommit_pending (s : State) (p n : Nat) : (hurryCommit s p n).pending = s.pending := by
  simp only [hurryCommit, drainMedia_pending]
  rw [resOr_pending, resOr_pending] <;> simp

@[simp] theorem finishCommits_pending (s : State) (n : Nat) : (finishCommits s n).pending = s.pending := by
  induction n generalizing s with
  | zero => rfl
  | succ n ih =>
    unfold finishCommits
    split <;> simp [ih]

@[simp] theorem quiesceCold_pending (s : State) : (quiesceCold s).pending = s.pending := by simp [quiesceCold]

@[simp] theorem execWarmReset_queue (c : Cmd) (b : KBlock) (s : State) :
    queueOf (execWarmReset c b s) = some s.pending := by
  refine withKeyedArgs_queue _ _ _ _ _ _ _ fun s n => ?_
  split
  · simp
  · simp only [sendAnswers_pending]
    refine foldl_pending _ _ fun s t => ?_
    split
    · split <;> simp
    · rfl

@[simp] theorem warmState_pending (s : State) : (warmState s).pending = s.pending := by simp [warmState]

@[simp] theorem execWarmResetBegin_queue (s : State) : queueOf (execWarmResetBegin s) = some s.pending := by
  unfold execWarmResetBegin
  split <;> simp

@[simp] theorem execColdReset_queue (c : Cmd) (b : KBlock) (s : State) :
    queueOf (execColdReset c b s) = some s.pending := by
  simp [execColdReset]

@[simp] theorem postLosses_pending (s : State) (what : Nat) (l : List HwUnit) :
    (postLosses s what l).pending = s.pending := by
  simp [postLosses]

@[simp] theorem execPhaseRom_queue (selfTest : Bool) (puf : List Byte) (s : State) :
    queueOf (execPhaseRom selfTest puf s) = some s.pending := by
  simp [execPhaseRom]

@[simp] theorem execPhaseImage_queue (s : State) : queueOf (execPhaseImage s) = some s.pending := by
  simp only [execPhaseImage]
  repeat' split
  all_goals simp

@[simp] theorem execPhasePower_queue (late : List Nat) (s : State) :
    queueOf (execPhasePower late s) = some s.pending := by
  simp [execPhasePower]

@[simp] theorem execPhaseTrain_queue (modulesFailed stacksFailed : List Nat) (groups : List GroupTrain) (s : State) :
    queueOf (execPhaseTrain modulesFailed stacksFailed groups s) = some s.pending := by
  simp [execPhaseTrain]

@[simp] theorem execPhaseClear_queue (badLines : List Nat) (s : State) :
    queueOf (execPhaseClear badLines s) = some s.pending := by
  simp [execPhaseClear]

@[simp] theorem moveSegs_pending (s : State) : (moveSegs s).pending = s.pending := by simp [moveSegs]

@[simp] theorem loseTargets_pending (s : State) (failed : List HwUnit) :
    (loseTargets s failed).pending = s.pending := by
  unfold loseTargets
  refine foldl_pending _ _ fun s x => ?_
  repeat' split
  all_goals simp

@[simp] theorem applyTests_pending (s : State) (failed : List HwUnit) (columns : List (Nat × Nat × W32)) :
    (applyTests s failed columns).pending = s.pending := by
  simp only [applyTests, moveSegs_pending]
  rw [foldl_pending]
  · simp
  · simp

@[simp] theorem postArrayTest_pending (s : State) (x : HwUnit × Nat × Nat) :
    (postArrayTest s x).pending = s.pending := by
  simp [postArrayTest]

@[simp] theorem postTests_pending (s : State) (units : List HwUnit) (arrays : List (HwUnit × Nat × Nat)) :
    (postTests s units arrays).pending = s.pending := by
  simp [postTests]

@[simp] theorem execPhaseTest_queue (failed : List HwUnit) (columns : List (Nat × Nat × W32)) (s : State) :
    queueOf (execPhaseTest failed columns s) = some s.pending := by
  simp [execPhaseTest]

@[simp] theorem latchTopo_pending (s : State) : (latchTopo s).pending = s.pending := rfl

@[simp] theorem makePen0_pending (s : State) : (makePen0 s).pending = s.pending := rfl

@[simp] theorem readyCtls_pending (s : State) : (readyCtls s).pending = s.pending := rfl

@[simp] theorem trainPorts_pending (s : State) : (trainPorts s).pending = s.pending := rfl

@[simp] theorem loadPlan_pending (s : State) : (loadPlan s).pending = s.pending := by
  unfold loadPlan
  split
  · rfl
  · dsimp only
    rw [foldl_pending, foldl_pending] <;> simp

@[simp] theorem becomeReady_pending (s : State) : (becomeReady s).pending = s.pending := by simp [becomeReady]

@[simp] theorem execReadiness_queue (s : State) : queueOf (execReadiness s) = some s.pending := by
  unfold execReadiness
  split
  · rfl
  · split <;> simp

@[simp] theorem withSlot_queue (s : State) (c : Cmd) (b : KBlock) (code : Nat) (argsOk : Bool)
    (f : State → Nat → State) (hf : ∀ s x0, (f s x0).pending = s.pending) :
    queueOf (withSlot s c b code argsOk f) = some s.pending := by
  simp [withSlot, hf]

@[simp] theorem updSlot_pending (s : State) (n : Nat) (f : Mem → Mem) : (updSlot s n f).pending = s.pending := rfl

@[simp] theorem execCfgErase_queue (c : Cmd) (b : KBlock) (s : State) :
    queueOf (execCfgErase c b s) = some s.pending := by
  simp [execCfgErase]

@[simp] theorem execCfgWrite_queue (c : Cmd) (b : KBlock) (s : State) :
    queueOf (execCfgWrite c b s) = some s.pending := by
  refine withSlot_queue _ _ _ _ _ _ fun s n => ?_
  repeat' split
  all_goals simp

@[simp] theorem execCfgVerify_queue (c : Cmd) (b : KBlock) (s : State) :
    queueOf (execCfgVerify c b s) = some s.pending := by
  simp [execCfgVerify]

@[simp] theorem execCfgActivate_queue (c : Cmd) (b : KBlock) (s : State) :
    queueOf (execCfgActivate c b s) = some s.pending := by
  simp [execCfgActivate]

end Sys2Proof.Machine
end

section
/-!
PROOFS. The queue of waiting commands stays as it is: flash tasks, Flue links, matrix units, losses, health, power, registers, attestation, the trace, and every command (O5).
-/

namespace Sys2Proof.Machine

@[simp] theorem execFlashRead_queue (t : TaskId) (s : State) : queueOf (execFlashRead t s) = some s.pending := by
  unfold execFlashRead
  split <;> simp

@[simp] theorem execFlashWrite_queue (t : TaskId) (s : State) : queueOf (execFlashWrite t s) = some s.pending := by
  simp only [execFlashWrite]
  repeat' split
  all_goals simp

@[simp] theorem execDeallocate_queue (t : TaskId) (s : State) : queueOf (execDeallocate t s) = some s.pending := by
  unfold execDeallocate
  split <;> simp

@[simp] theorem dropPort_pending (s : State) (p st : Nat) : (dropPort s p st).pending = s.pending := rfl

@[simp] theorem execFecBlock_queue (port : Nat) (correctable : Bool) (corrected : Nat) (flits : List (List Byte))
    (s : State) : queueOf (execFecBlock port correctable corrected flits s) = some s.pending := by
  simp [execFecBlock]

theorem takeFlit_pending {s : State} {p kind : Nat} {t : State} {x} (h : takeFlit s p kind = some (t, x)) :
    t.pending = s.pending := by
  simp only [takeFlit] at h
  repeat' split at h
  all_goals cases h
  all_goals simp

@[simp] theorem arriveMsg_pending (s : State) (vc : Nat) (b : List Byte) : (arriveMsg s vc b).pending = s.pending := by
  simp [arriveMsg]

@[simp] theorem assemble_pending (s : State) (p : Nat) (f : Flit) : (assemble s p f).pending = s.pending := by
  simp [assemble]

@[simp] theorem returnCredits_pending (s : State) (p : Nat) : (returnCredits s p).pending = s.pending := by
  simp [returnCredits]

@[simp] theorem execDataFlit_queue (port : Nat) (s : State) : queueOf (execDataFlit port s) = some s.pending := by
  simp only [execDataFlit]
  split
  · rfl
  · next htake =>
    split <;> simp [takeFlit_pending htake]

@[simp] theorem execIdleFlit_queue (port : Nat) (s : State) : queueOf (execIdleFlit port s) = some s.pending := by
  simp only [execIdleFlit]
  split
  · rfl
  · next htake =>
    split <;> simp [takeFlit_pending htake]

@[simp] theorem execRetryReq_queue (port : Nat) (s : State) : queueOf (execRetryReq port s) = some s.pending := by
  unfold execRetryReq
  split
  · rfl
  · next htake =>
    have hs := takeFlit_pending htake
    split
    · simp [hs]
    · extract_lets s1
      have h1 : s1.pending = s.pending := by simp [s1, hs]
      split
      · simp [h1]
      · rw [queueOf_next, pump_pending, foldl_pending, h1]
        simp

@[simp] theorem execPortTraining_queue (port : Nat) (s : State) :
    queueOf (execPortTraining port s) = some s.pending := by
  simp [execPortTraining]

@[simp] theorem execForward_queue (m : FlueMsg) (s : State) : queueOf (execForward m s) = some s.pending := by
  simp only [execForward]
  repeat' split
  all_goals simp

@[simp] theorem execMatmul_queue (t : TaskId) (s : State) : queueOf (execMatmul t s) = some s.pending := by
  fun_cases execMatmul t s <;> simp

@[simp] theorem writeRows_pending (s : State) (t : TaskId) (g : Graph) (k : Task) (l : List (Nat × List Byte)) :
    (writeRows s t g k l).pending = s.pending := by
  simp [writeRows]

@[simp] theorem runUnit_pending (s : State) (t : TaskId) (g : Graph) (k : Task) (r : MatRun) (array geom part : Nat) :
    (runUnit s t g k r array geom part).pending = s.pending := by
  simp [runUnit]

@[simp] theorem arrayOut_pending (s : State) (tile a : Nat) : (arrayOut s tile a).pending = s.pending := by
  simp [arrayOut]

@[simp] theorem execArrayUnit_queue (t : TaskId) (array part : Nat) (residueFail accCorr accUncorr : Bool) (s : State)
    : queueOf (execArrayUnit t array part residueFail accCorr accUncorr s) = some s.pending := by
  unfold execArrayUnit
  repeat' split
  all_goals simp

@[simp] theorem execArrayTest_queue (tile array : Nat) (s : State) :
    queueOf (execArrayTest tile array s) = some s.pending := by
  simp [execArrayTest]

@[simp] theorem execArrayTestRequest_queue (tile : Nat) (mask : BitVec 4) (s : State) :
    queueOf (execArrayTestRequest tile mask s) = some s.pending := by
  simp [execArrayTestRequest]

@[simp] theorem execArrayTestDone_queue (tile array : Nat) (bad : W32) (portFail : Bool) (s : State) :
    queueOf (execArrayTestDone tile array bad portFail s) = some s.pending := by
  simp [execArrayTestDone]

@[simp] theorem discardUnissued_pending (s : State) : (discardUnissued s).pending = s.pending := rfl

@[simp] theorem closeOpen_pending (s : State) : (closeOpen s).pending = s.pending := by simp [closeOpen]

@[simp] theorem fenceNode_pending (s : State) (cause : Nat) (canDrain : Bool) :
    (fenceNode s cause canDrain).pending = s.pending := by
  simp [fenceNode]

@[simp] theorem fenceIfBare_pending (s : State) : (fenceIfBare s).pending = s.pending := by simp [fenceIfBare]

@[simp] theorem loseScratch_pending (s : State) (p : Home → Bool) : (loseScratch s p).pending = s.pending := rfl

@[simp] theorem orphanTasks_pending (s : State) (l : List TaskId) : (orphanTasks s l).pending = s.pending := by
  unfold orphanTasks
  rw [foldl_pending]
  simp

@[simp] theorem loseTile_pending (s : State) (t : Nat) : (loseTile s t).pending = s.pending := by simp [loseTile]

@[simp] theorem failCommits_pending (s : State) (p num : Nat) (status : Nat) :
    (failCommits s p num status).pending = s.pending := by
  unfold failCommits
  repeat' split
  all_goals simp

@[simp] theorem loseCopy_pending (s : State) (c : BaleCopy) : (loseCopy s c).pending = s.pending := by
  unfold loseCopy
  rw [foldl_pending]
  · simp
  · intro s x
    repeat' split
    all_goals simp

@[simp] theorem loseShare_pending (s : State) (n : Nat) : (loseShare s n).pending = s.pending := by
  simp only [loseShare]
  split
  · rfl
  · simp only [wake_pending, asyncEvent_pending, postEvent_pending]
    refine foldl_pending _ _ fun s u => ?_
    split
    · split <;> simp
    · rfl

@[simp] theorem loseSegs_pending (s : State) (n : Nat) : (loseSegs s n).pending = s.pending := by simp [loseSegs]

@[simp] theorem loseMigs_pending (s : State) (n : Nat) : (loseMigs s n).pending = s.pending := by simp [loseMigs]

@[simp] theorem loseStack_pending (s : State) (n : Nat) : (loseStack s n).pending = s.pending := by
  unfold loseStack
  extract_lets readers req near objs topo s1 s2 s3 s4 s5 s6 s7
  have h3 : s3.pending = s.pending := by
    simp only [s3]
    rw [foldl_pending] <;> simp [s2, s1]
  have h6 : s6.pending = s.pending := by
    simp only [s6, s5, s4]
    rw [foldl_pending, foldl_pending, foldl_pending] <;> simp [h3]
  clear_value near s6
  have h7 : s7.pending = s.pending := by
    simp only [s7]
    split
    · split
      · split
        · simp [h6]
        · exact h6
      · exact h6
    · exact h6
  simp [h7]

@[simp] theorem loseSlice_pending (s : State) (q : Nat) : (loseSlice s q).pending = s.pending := rfl

@[simp] theorem loseQuad_pending (s : State) (q : Nat) : (loseQuad s q).pending = s.pending := by simp [loseQuad]

@[simp] theorem ownerLost_pending (s : State) (o : Owner) (lba : Nat) : (ownerLost s o lba).pending = s.pending := by
  simp [ownerLost]

@[simp] theorem loseEngine_pending (s : State) (c : Nat) : (loseEngine s c).pending = s.pending := by simp [loseEngine]

@[simp] theorem failReads_pending (s : State) (c : Nat) (ops : List FlashOp) :
    (failReads s c ops).pending = s.pending := by
  unfold failReads
  refine foldl_pending _ _ fun s x => ?_
  simp

@[simp] theorem loseTargetUnit_pending (s : State) (c t : Nat) : (loseTargetUnit s c t).pending = s.pending := by
  simp [loseTargetUnit]

@[simp] theorem loseScatter_pending (s : State) (t : TaskId) (g : Graph) (k : Task) :
    (loseScatter s t g k).pending = s.pending := by
  simp [loseScatter]

@[simp] theorem relaunch_pending (s : State) (l : List TaskId) : (relaunch s l).pending = s.pending := by
  unfold relaunch
  refine foldl_pending _ _ fun s x => ?_
  repeat' split
  all_goals simp

@[simp] theorem loseDmaUnit_pending (s : State) (n : Nat) : (loseDmaUnit s n).pending = s.pending := by
  simp [loseDmaUnit]

@[simp] theorem execDmaTestDone_queue (channel : Nat) (failed : Bool) (s : State) :
    queueOf (execDmaTestDone channel failed s) = some s.pending := by
  simp [execDmaTestDone]

@[simp] theorem loseNearBank_pending (s : State) (n u : Nat) : (loseNearBank s n u).pending = s.pending := by
  simp only [loseNearBank]
  repeat' split
  all_goals simp

@[simp] theorem loseArray_pending (s : State) (t a : Nat) : (loseArray s t a).pending = s.pending := by
  simp only [loseArray]
  repeat' split
  all_goals simp

@[simp] theorem losePort_pending (s : State) (p : Nat) : (losePort s p).pending = s.pending := by simp [losePort]

@[simp] theorem downModule_pending (s : State) (m : Nat) : (downModule s m).pending = s.pending := rfl

@[simp] theorem loseOne_pending (s : State) (u : HwUnit) : (loseOne s u).pending = s.pending := by
  unfold loseOne
  split <;> simp

@[simp] theorem loseUnits_pending (s : State) (l : List HwUnit) : (loseUnits s l).pending = s.pending := by
  simp [loseUnits]

@[simp] theorem exhaust_pending (s : State) (d : Nat) : (exhaust s d).pending = s.pending := by simp [exhaust]

@[simp] theorem moduleDown_pending (s : State) (m : Nat) : (moduleDown s m).pending = s.pending := by simp [moduleDown]

@[simp] theorem execUnitFault_queue (u : HwUnit) (s : State) : queueOf (execUnitFault u s) = some s.pending := by
  unfold execUnitFault
  repeat' split
  all_goals simp

@[simp] theorem execNodeFault_queue (cause : Nat) (canDrain : Bool) (s : State) :
    queueOf (execNodeFault cause canDrain s) = some s.pending := by
  simp [execNodeFault]

@[simp] theorem execDieToDieModuleDown_queue (module : Nat) (s : State) :
    queueOf (execDieToDieModuleDown module s) = some s.pending := by
  simp [execDieToDieModuleDown]

@[simp] theorem execRouteListResume_queue (pair : Nat) (s : State) :
    queueOf (execRouteListResume pair s) = some s.pending := by
  simp [execRouteListResume]

@[simp] theorem execLaneFailure_queue (x : Lanes) (s : State) : queueOf (execLaneFailure x s) = some s.pending := by
  simp [execLaneFailure]

@[simp] theorem markDead_pending (s : State) (a : Nat) : (markDead s a).pending = s.pending := by simp [markDead]

@[simp] theorem execReclaimSweepDone_queue (s : State) : queueOf (execReclaimSweepDone s) = some s.pending := by
  unfold execReclaimSweepDone
  split <;> simp

@[simp] theorem execQualificationEnd_queue (port corrected discarded : Nat) (s : State) :
    queueOf (execQualificationEnd port corrected discarded s) = some s.pending := by
  simp [execQualificationEnd]

@[simp] theorem noteSram_pending (s : State) (k : Task) (sram : List (Nat × Bool)) :
    (noteSram s k sram).pending = s.pending := by
  simp [noteSram]

@[simp] theorem spoiltBySram_pending (s : State) (t : TaskId) (g : Graph) (k : Task) (sram : List (Nat × Bool)) :
    (spoiltBySram s t g k sram).pending = s.pending := by
  simp [spoiltBySram]

@[simp] theorem execTaskComplete_queue (t : TaskId) (x : TaskEnd) (s : State) :
    queueOf (execTaskComplete t x s) = some s.pending := by
  unfold execTaskComplete
  split <;> simp

@[simp] theorem execScoreRecompute_queue (s : State) : queueOf (execScoreRecompute s) = some s.pending := by
  simp [execScoreRecompute]

@[simp] theorem raiseGb_pending (s : State) (d : Nat) : (raiseGb s d).pending = s.pending := by simp [raiseGb]

@[simp] theorem startBin_pending (s : State) (d : Nat) : (startBin s d).pending = s.pending := rfl

@[simp] theorem evaluateDomain_pending (s : State) (d min_ : Nat) : (evaluateDomain s d min_).pending = s.pending := by
  simp [evaluateDomain]

@[simp] theorem execMarginEvaluation_queue (mins : List Nat) (s : State) :
    queueOf (execMarginEvaluation mins s) = some s.pending := by
  simp [execMarginEvaluation]

@[simp] theorem execBinQuiesceDone_queue (quad : Nat) (s : State) :
    queueOf (execBinQuiesceDone quad s) = some s.pending := by
  simp [execBinQuiesceDone]

@[simp] theorem execPllRelockDone_queue (quad : Nat) (s : State) :
    queueOf (execPllRelockDone quad s) = some s.pending := by
  simp [execPllRelockDone]

@[simp] theorem execPhyRetrain_queue (stack margin : Nat) (s : State) :
    queueOf (execPhyRetrain stack margin s) = some s.pending := by
  simp [execPhyRetrain]

@[simp] theorem execPhyRetrainDone_queue (stack margin : Nat) (s : State) :
    queueOf (execPhyRetrainDone stack margin s) = some s.pending := by
  simp [execPhyRetrainDone]

@[simp] theorem execPoisonLatchClear_queue (sameCycle : Option Nat) (s : State) :
    queueOf (execPoisonLatchClear sameCycle s) = some s.pending := by
  unfold execPoisonLatchClear
  split <;> simp

@[simp] theorem execReclaimLatchClear_queue (sameCycle : Option Nat) (s : State) :
    queueOf (execReclaimLatchClear sameCycle s) = some s.pending := by
  unfold execReclaimLatchClear
  repeat' split
  all_goals simp

@[simp] theorem execTurnOn_queue (s : State) : queueOf (execTurnOn s) = some s.pending := by simp [execTurnOn]

@[simp] theorem execLossOfPower_queue (s : State) : queueOf (execLossOfPower s) = some s.pending := rfl

@[simp] theorem execResetN_queue (s : State) : queueOf (execResetN s) = some s.pending := rfl

@[simp] theorem execProgEn_queue (s : State) : queueOf (execProgEn s) = some s.pending := rfl

@[simp] theorem execResetNHigh_queue (s : State) : queueOf (execResetNHigh s) = some s.pending := by
  simp [execResetNHigh]

@[simp] theorem execPerst_queue (portB : Bool) (s : State) : queueOf (execPerst portB s) = some s.pending := by
  simp [execPerst]

@[simp] theorem execRailFault_queue (domain : Nat) (s : State) : queueOf (execRailFault domain s) = some s.pending := by
  simp [execRailFault]

@[simp] theorem setThrottle_pending (s : State) : (setThrottle s).pending = s.pending := rfl

@[simp] theorem storeTemps_pending (s : State) (quads : List Nat) (hub : Nat) (temps : List Nat) :
    (storeTemps s quads hub temps).pending = s.pending := by
  unfold storeTemps
  refine foldl_pending _ _ fun s x => ?_
  simp

@[simp] theorem darken_pending (s : State) : (darken s).pending = s.pending := rfl

@[simp] theorem execThermalSample_queue (quads : List Nat) (hub : Nat) (stackTemps : List Nat) (s : State) :
    queueOf (execThermalSample quads hub stackTemps s) = some s.pending := by
  simp [execThermalSample]

@[simp] theorem execInputPowerSample_queue (vin iin watts : Nat) (domains : List (Nat × Nat)) (s : State) :
    queueOf (execInputPowerSample vin iin watts domains s) = some s.pending := by
  simp [execInputPowerSample]

@[simp] theorem writeDmaChan_pending (s : State) (n off v : Nat) : (writeDmaChan s n off v).pending = s.pending := by
  unfold writeDmaChan
  repeat' split
  all_goals simp

@[simp] theorem regWrite64_pending (s : State) (addr v : Nat) : (regWrite64 s addr v).pending = s.pending := by
  unfold regWrite64
  split <;> simp

@[simp] theorem wildWrite_pending (s : State) (addr : Nat) (wide : Bool) :
    (wildWrite s addr wide).pending = s.pending := by
  simp [wildWrite]

@[simp] theorem execRegisterWrite_queue (addr : Nat) (wide : Bool) (value : W64) (s : State) :
    queueOf (execRegisterWrite addr wide value s) = some s.pending := by
  simp [execRegisterWrite]

@[simp] theorem answer_pending (s : State) (r : SpdmResp) : (answer s r).pending = s.pending := rfl

@[simp] theorem withSpdm_queue (s : State) (f : State → State) (hf : ∀ s, (f s).pending = s.pending) :
    queueOf (withSpdm s f) = some s.pending := by
  simp [withSpdm, hf]

@[simp] theorem execGetVersion_queue (s : State) : queueOf (execGetVersion s) = some s.pending := by
  simp [execGetVersion]

@[simp] theorem execGetCapabilities_queue (s : State) : queueOf (execGetCapabilities s) = some s.pending := by
  simp [execGetCapabilities]

@[simp] theorem execNegotiateAlgorithms_queue (ed448 sha3 secp384 aesGcm : Bool) (s : State) :
    queueOf (execNegotiateAlgorithms ed448 sha3 secp384 aesGcm s) = some s.pending := by
  refine withSpdm_queue _ _ fun s => ?_
  simp

@[simp] theorem execGetDigests_queue (s : State) : queueOf (execGetDigests s) = some s.pending := by
  refine withSpdm_queue _ _ fun s => ?_
  repeat' split
  all_goals simp

@[simp] theorem execGetCertificate_queue (slot offset length : Nat) (s : State) :
    queueOf (execGetCertificate slot offset length s) = some s.pending := by
  simp [execGetCertificate]

@[simp] theorem spdmSign_pending (s : State) (kind : Nat) (nonce body : List Byte) :
    (spdmSign s kind nonce body).1.pending = s.pending := rfl

@[simp] theorem execChallenge_queue (slot : Nat) (nonce : List Byte) (s : State) :
    queueOf (execChallenge slot nonce s) = some s.pending := by
  simp [execChallenge]

@[simp] theorem execGetMeasurements_queue (index : Nat) (sign : Bool) (nonce : List Byte) (s : State) :
    queueOf (execGetMeasurements index sign nonce s) = some s.pending := by
  simp [execGetMeasurements]

@[simp] theorem execKeyExchange_queue (secret : List Byte) (s : State) :
    queueOf (execKeyExchange secret s) = some s.pending := by
  simp [execKeyExchange]

@[simp] theorem execFinish_queue (verified : Bool) (s : State) : queueOf (execFinish verified s) = some s.pending := by
  simp [execFinish]

@[simp] theorem execEndSession_queue (s : State) : queueOf (execEndSession s) = some s.pending := by
  simp [execEndSession]

@[simp] theorem execUnsupportedSpdmRequest_queue (code : Nat) (s : State) :
    queueOf (execUnsupportedSpdmRequest code s) = some s.pending := by
  simp [execUnsupportedSpdmRequest]

@[simp] theorem execTrcGo_queue (s : State) : queueOf (execTrcGo s) = some s.pending := by simp [execTrcGo]

@[simp] theorem execTrcReplay_queue (s : State) : queueOf (execTrcReplay s) = some s.pending := by simp [execTrcReplay]

@[simp] theorem consume_pending (s : State) (x : Nat × TRec) : (consume s x).pending = s.pending := by
  unfold consume
  split <;> simp

@[simp] theorem execTrcRprodWrite_queue (off : Nat) (writes : List (Nat × Byte)) (s : State) :
    queueOf (execTrcRprodWrite off writes s) = some s.pending := by
  simp [execTrcRprodWrite]

@[simp] theorem execTrcRconsWrite_queue (off : Nat) (s : State) :
    queueOf (execTrcRconsWrite off s) = some s.pending := by
  simp [execTrcRconsWrite]

/-- No command touches the queue: the fact of each operation, taken up by exec's arm. -/
@[simp] theorem exec_queue (s : State) : ∀ i : Instr, queueOf (exec i s) = some s.pending
  | .turnOn => execTurnOn_queue s
  | .lossOfPower => execLossOfPower_queue s
  | .resetN => execResetN_queue s
  | .progEn => execProgEn_queue s
  | .perst _ => execPerst_queue _ s
  | .railFault _ => execRailFault_queue _ s
  | .thermalSample _ _ _ => execThermalSample_queue _ _ _ s
  | .inputPowerSample _ _ _ _ => execInputPowerSample_queue _ _ _ _ s
  | .phaseRom _ _ => execPhaseRom_queue _ _ s
  | .phaseImage => execPhaseImage_queue s
  | .phasePower _ => execPhasePower_queue _ s
  | .phaseTrain _ _ _ => execPhaseTrain_queue _ _ _ s
  | .phaseClear _ => execPhaseClear_queue _ s
  | .phaseTest _ _ => execPhaseTest_queue _ _ s
  | .readiness => execReadiness_queue s
  | .rebuild _ _ => execRebuild_queue _ _ s
  | .rebuildDone _ => execRebuildDone_queue _ s
  | .getVersion => execGetVersion_queue s
  | .getCapabilities => execGetCapabilities_queue s
  | .negotiateAlgorithms _ _ _ _ => execNegotiateAlgorithms_queue _ _ _ _ s
  | .getDigests => execGetDigests_queue s
  | .getCertificate _ _ _ => execGetCertificate_queue _ _ _ s
  | .challenge _ _ => execChallenge_queue _ _ s
  | .getMeasurements _ _ _ => execGetMeasurements_queue _ _ _ s
  | .keyExchange _ => execKeyExchange_queue _ s
  | .finish _ => execFinish_queue _ s
  | .endSession => execEndSession_queue s
  | .cfgErase _ _ => execCfgErase_queue _ _ s
  | .cfgWrite _ _ => execCfgWrite_queue _ _ s
  | .cfgVerify _ _ => execCfgVerify_queue _ _ s
  | .cfgActivate _ _ => execCfgActivate_queue _ _ s
  | .penCreate _ _ => execPenCreate_queue _ _ s
  | .penDestroy _ _ => execPenDestroy_queue _ _ s
  | .penQuota _ _ => execPenQuota_queue _ _ s
  | .penDamper _ _ => execPenDamper_queue _ _ s
  | .penReset _ _ => execPenReset_queue _ _ s
  | .penResetEnd _ => execPenResetEnd_queue _ s
  | .warmReset _ _ => execWarmReset_queue _ _ s
  | .warmResetBegin => execWarmResetBegin_queue s
  | .coldReset _ _ => execColdReset_queue _ _ s
  | .damperTick => execDamperTick_queue s
  | .vectorTimeExpiry _ => execVectorTimeExpiry_queue _ s
  | .msixUnmask _ => execMsixUnmask_queue _ s
  | .penVmodWrite _ => execPenVmodWrite_queue _ s
  | .hostLinkUp _ _ _ _ => execHostLinkUp_queue _ _ _ _ s
  | .linkDown _ => execLinkDown_queue _ s
  | .cxlReset => execCxlReset_queue s
  | .controllerReset _ _ => execControllerReset_queue _ _ s
  | .controllerEnable _ _ _ _ _ => execControllerEnable_queue _ _ _ _ _ s
  | .sqTailDoorbell _ _ _ _ => execSqTailDoorbell_queue _ _ _ _ s
  | .cqHeadDoorbell _ _ _ => execCqHeadDoorbell_queue _ _ _ s
  | .recordQueueHeadDoorbell _ _ _ => execRecordQueueHeadDoorbell_queue _ _ _ s
  | .createIoSq _ _ _ _ _ _ => execCreateIoSq_queue _ _ _ _ _ _ s
  | .deleteIoSq _ _ => execDeleteIoSq_queue _ _ s
  | .createIoCq _ _ _ _ _ _ _ => execCreateIoCq_queue _ _ _ _ _ _ _ s
  | .deleteIoCq _ _ => execDeleteIoCq_queue _ _ s
  | .identify _ _ _ => execIdentify_queue _ _ _ s
  | .getLogPage _ _ _ _ _ => execGetLogPage_queue _ _ _ _ _ s
  | .abort _ => execAbort_queue _ s
  | .setFeatures _ _ _ => execSetFeatures_queue _ _ _ s
  | .getFeatures _ _ => execGetFeatures_queue _ _ s
  | .asynchronousEventRequest _ => execAsynchronousEventRequest_queue _ s
  | .sanitize _ _ => execSanitize_queue _ _ s
  | .sanitizeEnd => execSanitizeEnd_queue s
  | .createSkexQueue _ _ _ _ _ _ _ _ => execCreateSkexQueue_queue _ _ _ _ _ _ _ _ s
  | .flush _ => execFlush_queue _ s
  | .write _ _ _ _ _ => execWrite_queue _ _ _ _ _ s
  | .read _ _ _ _ => execRead_queue _ _ _ _ s
  | .datasetManagement _ _ _ => execDatasetManagement_queue _ _ _ s
  | .writeBufferAdmit => execWriteBufferAdmit_queue s
  | .writeBufferDrain _ => execWriteBufferDrain_queue _ s
  | .submit _ _ => execSubmit_queue _ _ s
  | .skexFence _ _ _ => execSkexFence_queue _ _ _ s
  | .orderedWrite _ _ _ _ _ => execOrderedWrite_queue _ _ _ _ _ s
  | .tableSwitch _ _ _ => execTableSwitch_queue _ _ _ s
  | .epochCommit _ _ _ => execEpochCommit_queue _ _ _ s
  | .regionCreate _ _ _ _ => execRegionCreate_queue _ _ _ _ s
  | .regionDestroy _ _ => execRegionDestroy_queue _ _ s
  | .map _ _ _ _ => execMap_queue _ _ _ _ s
  | .unmap _ _ => execUnmap_queue _ _ s
  | .graphAccept _ _ => execGraphAccept_queue _ _ s
  | .taskIssue _ _ => execTaskIssue_queue _ _ s
  | .baleMoveDone _ _ => execBaleMoveDone_queue _ _ s
  | .writeBackDone _ => execWriteBackDone_queue _ s
  | .taskComplete _ _ => execTaskComplete_queue _ _ s
  | .nop _ => execNop_queue _ s
  | .fence _ => execFence_queue _ s
  | .alloc _ => execAlloc_queue _ s
  | .free _ => execFree_queue _ s
  | .copy _ => execCopy_queue _ s
  | .fill _ => execFill_queue _ s
  | .matmul _ => execMatmul_queue _ s
  | .arrayUnit _ _ _ _ _ _ => execArrayUnit_queue _ _ _ _ _ _ s
  | .arrayTest _ _ => execArrayTest_queue _ _ s
  | .arrayTestRequest _ _ => execArrayTestRequest_queue _ _ s
  | .arrayTestDone _ _ _ _ => execArrayTestDone_queue _ _ _ _ s
  | .modelRun _ => execModelRun_queue _ s
  | .modelCreate _ => execModelCreate_queue _ s
  | .modelDestroy _ => execModelDestroy_queue _ s
  | .vectorStep _ => execVectorStep_queue _ s
  | .vectorFilter _ => execVectorFilter_queue _ s
  | .tokenize _ => execTokenize_queue _ s
  | .pack _ => execPack_queue _ s
  | .nbuSeq _ => execNbuSeq_queue _ s
  | .microOp _ _ _ => execMicroOp_queue _ _ _ s
  | .refreshDue _ _ => execRefreshDue_queue _ _ s
  | .query _ => execQuery_queue _ s
  | .walkRound _ => execWalkRound_queue _ s
  | .flashWalkRound _ => execFlashWalkRound_queue _ s
  | .enginePageExpand _ _ _ => execEnginePageExpand_queue _ _ _ s
  | .hop _ _ => execHop_queue _ _ s
  | .rerank _ => execRerank_queue _ s
  | .fanOutQuery _ => execFanOutQuery_queue _ s
  | .merge _ => execMerge_queue _ s
  | .insert _ => execInsert_queue _ s
  | .indexCreate _ => execIndexCreate_queue _ s
  | .indexOpen _ => execIndexOpen_queue _ s
  | .rebuildIndex _ => execRebuildIndex_queue _ s
  | .delete _ => execDelete_queue _ s
  | .destroy _ => execDestroy_queue _ s
  | .repairSweepNow _ => execRepairSweepNow_queue _ s
  | .gather _ => execGather_queue _ s
  | .scatterWrite _ => execScatterWrite_queue _ s
  | .scatterAdd _ => execScatterAdd_queue _ s
  | .tableCreate _ => execTableCreate_queue _ s
  | .tableDestroy _ => execTableDestroy_queue _ s
  | .clone _ => execClone_queue _ s
  | .flashRead _ => execFlashRead_queue _ s
  | .flashWrite _ => execFlashWrite_queue _ s
  | .deallocate _ => execDeallocate_queue _ s
  | .flueSend _ => execFlueSend_queue _ s
  | .seal _ _ => execSeal_queue _ _ s
  | .commitComplete _ _ => execCommitComplete_queue _ _ s
  | .sweepEnd _ _ => execSweepEnd_queue _ _ s
  | .sketchHalving _ => execSketchHalving_queue _ s
  | .migrationStart _ _ _ _ _ => execMigrationStart_queue _ _ _ _ _ s
  | .migrationCopyEnd _ _ => execMigrationCopyEnd_queue _ _ s
  | .migrationCommit _ _ => execMigrationCommit_queue _ _ s
  | .patrolScrub _ _ _ => execPatrolScrub_queue _ _ _ s
  | .rds _ _ => execRds_queue _ _ s
  | .rde _ _ => execRde_queue _ _ s
  | .rdc _ _ => execRdc_queue _ _ s
  | .wr _ _ => execWr_queue _ _ s
  | .clr _ => execClr_queue _ s
  | .putb _ _ => execPutb_queue _ _ s
  | .pute _ _ => execPute_queue _ _ s
  | .putm _ _ => execPutm_queue _ _ s
  | .ack _ _ => execAck_queue _ _ s
  | .wbd _ _ => execWbd_queue _ _ s
  | .cack _ _ => execCack_queue _ _ s
  | .stackAccessDone _ => execStackAccessDone_queue _ s
  | .inv _ _ => execInv_queue _ _ s
  | .memberAck _ _ _ => execMemberAck_queue _ _ _ s
  | .rcl _ _ => execRcl_queue _ _ s
  | .rclS _ _ => execRclS_queue _ _ s
  | .dataS _ _ => execDataS_queue _ _ s
  | .dataB _ _ => execDataB_queue _ _ s
  | .dataE _ _ => execDataE_queue _ _ s
  | .cmp _ _ => execCmp_queue _ _ s
  | .agentLoad _ _ => execAgentLoad_queue _ _ s
  | .agentStore _ _ _ _ => execAgentStore_queue _ _ _ _ s
  | .agentReplace _ _ => execAgentReplace_queue _ _ s
  | .hostCxlMemRequest _ _ => execHostCxlMemRequest_queue _ _ s
  | .snpInv _ _ => execSnpInv_queue _ _ s
  | .snpData _ => execSnpData_queue _ s
  | .snpCur _ => execSnpCur_queue _ s
  | .bisnpTimeout _ => execBisnpTimeout_queue _ s
  | .reclaimSweep _ => execReclaimSweep_queue _ s
  | .reclaimSweepDone => execReclaimSweepDone_queue s
  | .pageReadDone _ _ _ => execPageReadDone_queue _ _ _ s
  | .programDone _ _ _ => execProgramDone_queue _ _ _ s
  | .eraseDone _ _ _ => execEraseDone_queue _ _ _ s
  | .kindlingPad _ => execKindlingPad_queue _ s
  | .journalPageTimeout _ => execJournalPageTimeout_queue _ s
  | .foldStart _ _ => execFoldStart_queue _ _ s
  | .gcStart _ _ => execGcStart_queue _ _ s
  | .checkpointStart _ => execCheckpointStart_queue _ s
  | .patrolRead _ _ _ => execPatrolRead_queue _ _ _ s
  | .readLevelReplan _ _ _ _ => execReadLevelReplan_queue _ _ _ _ s
  | .flashTemperatureSample _ => execFlashTemperatureSample_queue _ s
  | .dmaEnable _ => execDmaEnable_queue _ s
  | .dmaStop _ => execDmaStop_queue _ s
  | .dmaRestart _ _ => execDmaRestart_queue _ _ s
  | .dmaTest _ => execDmaTest_queue _ s
  | .dmaTestDone _ _ => execDmaTestDone_queue _ _ s
  | .dmaDoorbell _ _ => execDmaDoorbell_queue _ _ s
  | .dmaCqheadWrite _ _ => execDmaCqheadWrite_queue _ _ s
  | .descriptorFetchDone _ => execDescriptorFetchDone_queue _ s
  | .descriptorComplete _ _ => execDescriptorComplete_queue _ _ s
  | .busError _ _ _ _ => execBusError_queue _ _ _ _ s
  | .errinfoClear _ _ => execErrinfoClear_queue _ _ s
  | .poisonLatchClear _ => execPoisonLatchClear_queue _ s
  | .reclaimLatchClear _ => execReclaimLatchClear_queue _ s
  | .portTraining _ => execPortTraining_queue _ s
  | .qualificationEnd _ _ _ => execQualificationEnd_queue _ _ _ s
  | .dataFlit _ => execDataFlit_queue _ s
  | .idleFlit _ => execIdleFlit_queue _ s
  | .retryReq _ => execRetryReq_queue _ s
  | .forward _ => execForward_queue _ s
  | .openMsg _ => execOpenMsg_queue _ s
  | .close _ => execClose_queue _ s
  | .flueAck _ => execFlueAck_queue _ s
  | .put _ => execPut_queue _ s
  | .putDone _ => execPutDone_queue _ s
  | .queryMessage _ => execQueryMessage_queue _ s
  | .answer _ => execAnswer_queue _ s
  | .mrec _ => execMrec_queue _ s
  | .mcommit _ => execMcommit_queue _ s
  | .mack _ => execMack_queue _ s
  | .load _ => execLoad_queue _ s
  | .rread _ => execRread_queue _ s
  | .rwrite _ => execRwrite_queue _ s
  | .rresp _ => execRresp_queue _ s
  | .mapupd _ => execMapupd_queue _ s
  | .resendTimeout _ _ => execResendTimeout_queue _ _ s
  | .peerTimeout _ => execPeerTimeout_queue _ s
  | .flueCtxOpen _ _ => execFlueCtxOpen_queue _ _ s
  | .flueCtxClose _ _ => execFlueCtxClose_queue _ _ s
  | .flueRoute _ _ => execFlueRoute_queue _ _ s
  | .lend _ _ => execLend_queue _ _ s
  | .lendHandoverDone _ _ => execLendHandoverDone_queue _ _ s
  | .mirrorLoad _ _ => execMirrorLoad_queue _ _ s
  | .mirrorPromote _ _ => execMirrorPromote_queue _ _ s
  | .scoreRecompute => execScoreRecompute_queue s
  | .marginEvaluation _ => execMarginEvaluation_queue _ s
  | .binQuiesceDone _ => execBinQuiesceDone_queue _ s
  | .pllRelockDone _ => execPllRelockDone_queue _ s
  | .phyRetrain _ _ => execPhyRetrain_queue _ _ s
  | .phyRetrainDone _ _ => execPhyRetrainDone_queue _ _ s
  | .dieToDieModuleDown _ => execDieToDieModuleDown_queue _ s
  | .routeListResume _ => execRouteListResume_queue _ s
  | .unitFault _ => execUnitFault_queue _ s
  | .nodeFault _ _ => execNodeFault_queue _ _ s
  | .trcGo => execTrcGo_queue s
  | .trcReplay => execTrcReplay_queue s
  | .trcRprodWrite _ _ => execTrcRprodWrite_queue _ _ s
  | .trcRconsWrite _ => execTrcRconsWrite_queue _ s
  | .registerWrite _ _ _ => execRegisterWrite_queue _ _ _ s
  | .resetNHigh => execResetNHigh_queue s
  | .laneFailure _ => execLaneFailure_queue _ s
  | .fecBlock _ _ _ _ => execFecBlock_queue _ _ _ _ s
  | .invalidCommandOpcode _ _ => execInvalidCommandOpcode_queue _ _ s
  | .undefinedControlCode _ _ _ => execUndefinedControlCode_queue _ _ _ s
  | .unsupportedSpdmRequest _ => execUnsupportedSpdmRequest_queue _ s

/-- Settles O5: the next state of a command has the queue that `exec_queue` names. -/
theorem noCommandTouchesTheQueue : Obligations.NoCommandTouchesTheQueue := by
  intro i s t h
  have hq := exec_queue s i
  rw [h, queueOf_next] at hq
  exact Option.some.inj hq

end Sys2Proof.Machine
end
